-- ==== Sys2Proof/Word.lean ====
section
/-!
DEFINITION. The word types of the module (00 R15, 03 R63) and the numbers by which the spec names its parts.
-/
namespace Sys2Proof

/-- One byte of any memory. -/
abbrev Byte := BitVec 8
/-- A payload word or station scalar (02 R41, R51). -/
abbrev Word := BitVec 32
/-- A sequencer register, an instruction word or an address (02 R58, 03 R63). -/
abbrev DWord := BitVec 64
/-- Sixteen words: a payload or a station vector (02 R41, R51). -/
abbrev Vec16 := Vector Word 16
/-- Context number (13 R363). -/
abbrev CtxId := Fin 64
/-- Thread number within a context (02 R59). -/
abbrev Tid := Fin 8
/-- Lay slot (02 R41). -/
abbrev LaySlot := Fin 8
/-- Lay-relative page (02 R56). -/
abbrev Pid := Fin 64
/-- Station id: kind in bits [6:5], index in [4:0]; a reel is 0x70 (02 R56, 07 R212). -/
abbrev Sid := BitVec 7
/-- Die (00 R4). -/
abbrev Die := Fin 4
/-- A 6-bit operand specifier (02 R56, R59). -/
abbrev Spec := BitVec 6

end Sys2Proof
end

