-- ==== Sys2Proof/Syntax.lean ====
section
/-!
DEFINITION. The syntax of the Yariragil: the nine instruction formats of 03 (R67 to R80), the operands that the
device's own events carry, and Instr, one constructor for each row of spec/opcode_table.json.
-/
namespace Sys2Proof

/-- The format tags of R17, in code order 0x0 to 0xf. -/
inductive Fmt where
  | raw | fp32 | bf16 | fp16 | e4m3 | e5m2 | e3m2 | e2m1 | i32 | i16 | i8 | i4 | mx8 | mx4 | crd | poison
  deriving DecidableEq, Repr

/-- The rounding modes of R29. -/
inductive Rm where
  | rne | rtz | rdn | rup | rsto
  deriving DecidableEq, Repr

/-- Format L, the three-source lane format (R67). -/
structure LForm where
  mod : BitVec 4
  d : Spec
  a : Spec
  b : Spec
  c : Spec
  w : BitVec 2
  g : BitVec 3
  ty : BitVec 4
  pe : Bool
  pi : BitVec 3
  pn : Bool
  qd : BitVec 3
  qw : Bool
  deriving DecidableEq, Repr

/-- Format I, register and immediate (R70). -/
structure IForm where
  mod : BitVec 4
  d : Spec
  a : Spec
  w : BitVec 2
  g : BitVec 3
  imm : Word
  deriving DecidableEq, Repr

/-- Format M, memory (R71). -/
structure MForm where
  mod : BitVec 4
  d : Spec
  a : Spec
  b : Spec
  scope : BitVec 3
  sp : BitVec 2
  sz : BitVec 3
  aop : BitVec 4
  disp : BitVec 20
  deriving DecidableEq, Repr

/-- Format K, record control (R74). -/
structure KForm where
  mod : BitVec 4
  a : Spec
  ia : Bool
  pt : BitVec 3
  pf : BitVec 3
  pe : Bool
  pi : BitVec 3
  pn : Bool
  imm : Word
  deriving DecidableEq, Repr

/-- Format X, matrix (R75). -/
structure XForm where
  mod : BitVec 4
  aty : BitVec 4
  bty : BitVec 4
  cty : BitVec 4
  um : BitVec 2
  acc : BitVec 2
  n16 : BitVec 16
  deriving DecidableEq, Repr

/-- Format F, reel and fibre (R76). -/
structure FForm where
  mod : BitVec 4
  d : Spec
  a : Spec
  b : Spec
  pg : BitVec 6
  sl : BitVec 2
  fb : BitVec 2
  fm : BitVec 4
  lv : BitVec 2
  ls : BitVec 3
  deriving DecidableEq, Repr

/-- Format Y, lay and pass (R77). -/
structure YForm where
  mod : BitVec 4
  d : Spec
  a : Spec
  b : Spec
  ls : BitVec 3
  pg : BitVec 6
  cl : BitVec 4
  imm16 : BitVec 16
  deriving DecidableEq, Repr

/-- Format J, branch (R78). -/
structure JForm where
  mod : BitVec 4
  a : Spec
  pi : BitVec 3
  pn : Bool
  lc : BitVec 2
  off : Word
  deriving DecidableEq, Repr

/-- Format Z, system (R80). -/
structure ZForm where
  mod : BitVec 4
  d : Spec
  a : Spec
  b : Spec
  sreg : BitVec 16
  imm16 : BitVec 16
  deriving DecidableEq, Repr

/-- A station, splice, bank or reel of a resident lay (R56, R212). -/
structure Place where
  ctx : CtxId
  slot : LaySlot
  pid : Pid
  sid : Sid
  deriving DecidableEq, Repr

/-- One direction of a mesh channel: the grid position it leaves and its direction, 0 east, 1 west, 2 south,
3 north (R196, R212, R482). -/
structure Chan where
  col : Fin 24
  row : Fin 14
  dir : Fin 4
  deriving DecidableEq, Repr

/-- What the error code of a memory finds when an access is performed (R478). -/
inductive Ecc where
  | clean | corrected | uncorrectable
  deriving DecidableEq, Repr

/-- How a portal's target answers a request (R472). -/
inductive LinkReply where
  | ok | unsupported | abort | poisoned | ualink
  deriving DecidableEq, Repr

/-- An access to HBM made from outside: through BAR2 or a peer window (R476), at an address of the window. An atomic has
an operator (numbered as R162 numbers them, 9 for compare-and-swap), its size in bytes, and what it compares with. -/
inductive OutsideOp where
  | read (addr len : Nat)
  | write (addr : Nat) (bytes : List Byte)
  | atomic (op : BitVec 4) (size addr : Nat) (v cmp : DWord)
  deriving DecidableEq, Repr

/-- The protected state in which an uncorrectable error is found (R478). -/
inductive EccTarget where
  | slots (p : Place)
  | acc (p : Place) (a : Fin 4) (row : Fin 32)
  | tile (p : Place) (loading : Bool)
  | uslot (p : Place) (n : Fin 1024)
  | work (p : Place)
  | stream (c : CtxId) (l : LaySlot) (pg : Pid) (n : Fin 4)
  | tlb (n : Nat)
  | thread (c : CtxId)
  deriving DecidableEq, Repr

/-- The registers whose writes R495 guards. A key is written eight bytes at a time, part 0 lowest. -/
inductive KeyReg where
  | layKey (k : Fin 4) (part : Fin 8)
  | pxBase
  | pxSize
  deriving DecidableEq, Repr

/-- The registers that a host or syswr write stores under a rule with no further behaviour (R441, R466, R467, R484,
R496). -/
inductive HostReg where
  | qage | issage | hostcap | xtimeout | hwbase
  | pwbase (n : Fin 12)
  | pwsize (n : Fin 12)
  | fwaddr | attaddr | pwrcap | tlimit
  | msixTable (n : Fin 132)
  | cbase (c : CtxId) | cdepth (c : CtxId) | spawn (c : CtxId) | priv (c : CtxId)
  | xmask (c : CtxId) | intctl (c : CtxId) | markid (c : CtxId)
  | ptroot (c : CtxId) | fqbase (c : CtxId) | fqdepth (c : CtxId)
  | savepa (c : CtxId) | savelen (c : CtxId) | pdead (c : CtxId)
  | wlimit (c : CtxId) | wreport (c : CtxId) | tvec (c : CtxId) | evthr (c : CtxId)
  deriving DecidableEq, Repr

/-- The instructions and the events of the device, one constructor for each row of spec/opcode_table.json, in its
order. A row with an opcode carries the fields of its format; an event carries where it happens and the choice or the
outside input it takes. -/
inductive Instr where
  /-- ADD (R115). Adds the lanes of a and b, wrapping or saturating under .ss or .us. -/
  | add (o : LForm)
  /-- SUB (R115). Subtracts the lanes of b from a, wrapping or saturating. -/
  | sub (o : LForm)
  /-- MUL (R115). Multiplies lanes, wrapping or saturating. -/
  | mul (o : LForm)
  /-- MULH (R115). Writes the high half of the signed or unsigned lane product. -/
  | mulh (o : LForm)
  /-- MAD (R115). Writes ua times ub plus uc in each lane. -/
  | mad (o : LForm)
  /-- DIV (R116). Divides lanes with the quotient truncated toward zero and every input defined. -/
  | div (o : LForm)
  /-- REM (R116). Writes the remainder of the truncated lane division. -/
  | rem (o : LForm)
  /-- ADDC (R117). Adds two lanes and a carry bit, giving the sum or, under .co, the carry out. -/
  | addc (o : LForm)
  /-- AND (R115). Writes the bitwise AND of the lanes. -/
  | and (o : LForm)
  /-- OR (R115). Writes the bitwise OR of the lanes. -/
  | or (o : LForm)
  /-- XOR (R115). Writes the bitwise XOR of the lanes. -/
  | xor (o : LForm)
  /-- ANDN (R115). Writes a AND NOT b in each lane. -/
  | andn (o : LForm)
  /-- NOT (R115). Inverts each lane. -/
  | not (o : LForm)
  /-- SHL (R115). Shifts each lane left, giving 0 for counts at or above the width. -/
  | shl (o : LForm)
  /-- SHR (R115). Shifts each lane right logically. -/
  | shr (o : LForm)
  /-- SAR (R115). Shifts each lane right arithmetically. -/
  | sar (o : LForm)
  /-- ROL (R115). Rotates each lane left by ub mod w. -/
  | rol (o : LForm)
  /-- ROR (R115). Rotates each lane right by ub mod w. -/
  | ror (o : LForm)
  /-- CLZ (R115). Counts the leading zero bits of each lane. -/
  | clz (o : LForm)
  /-- CTZ (R115). Counts the trailing zero bits of each lane. -/
  | ctz (o : LForm)
  /-- POPC (R115). Counts the one bits of each lane. -/
  | popc (o : LForm)
  /-- BREV (R115). Reverses the bits of each lane. -/
  | brev (o : LForm)
  /-- MIN (R115). Writes the smaller lane, signed or unsigned. -/
  | min (o : LForm)
  /-- MAX (R115). Writes the larger lane, signed or unsigned. -/
  | max (o : LForm)
  /-- ABS (R115). Writes the wrapping absolute value of each lane. -/
  | abs (o : LForm)
  /-- NEG (R115). Negates each lane with wrapping. -/
  | neg (o : LForm)
  /-- SEL (R115). Selects lane a where c is nonzero, and lane b otherwise. -/
  | sel (o : LForm)
  /-- CMP (R118). Compares lanes, writes a lane mask and optionally sets a predicate when any lane holds. -/
  | cmp (o : LForm)
  /-- LEA (R115). Writes a plus b shifted left by 0 to 4 bits. -/
  | lea (o : LForm)
  /-- MOV (R115). Copies the lanes of a. -/
  | mov (o : LForm)
  /-- BFX (R120). Extracts a bit field, zero-extended or sign-extended. -/
  | bfx (o : LForm)
  /-- BFI (R121). Inserts a bit field into the old lane of d. -/
  | bfi (o : LForm)
  /-- BYTEPERM (R122). Selects result bytes from a pool of bytes of a and b under nibble selectors. -/
  | byteperm (o : LForm)
  /-- HASH (R123). Updates a hash state by CRC-32C or by the 32-bit mix finaliser. -/
  | hash (o : LForm)
  /-- CVTI (R124). Converts integer elements between widths, wrapping or saturating. -/
  | cvti (o : LForm)
  /-- ADD_IMM (R119). Adds a 32-bit immediate to each lane. -/
  | addImm (o : IForm)
  /-- AND_IMM (R119). ANDs each lane with an immediate. -/
  | andImm (o : IForm)
  /-- OR_IMM (R119). ORs each lane with an immediate. -/
  | orImm (o : IForm)
  /-- XOR_IMM (R119). XORs each lane with an immediate. -/
  | xorImm (o : IForm)
  /-- SHL_IMM (R119). Shifts each lane left by an immediate count. -/
  | shlImm (o : IForm)
  /-- SHR_IMM (R119). Shifts each lane right logically by an immediate count. -/
  | shrImm (o : IForm)
  /-- SAR_IMM (R119). Shifts each lane right arithmetically by an immediate count. -/
  | sarImm (o : IForm)
  /-- CMP_IMM (R119). Compares each lane with an immediate and writes only the lane mask. -/
  | cmpImm (o : IForm)
  /-- MOVI (R119). Writes an immediate to every lane of d. -/
  | movi (o : IForm)
  /-- FADD (R126). Adds floating lanes with one rounding. -/
  | fadd (o : LForm)
  /-- FSUB (R126). Subtracts floating lanes with one rounding. -/
  | fsub (o : LForm)
  /-- FMUL (R126). Multiplies floating lanes with one rounding. -/
  | fmul (o : LForm)
  /-- FMA (R126). Computes a times b plus c with one rounding. -/
  | fma (o : LForm)
  /-- FNMA (R126). Computes c minus a times b with one rounding. -/
  | fnma (o : LForm)
  /-- FMIN (R127). Writes the smaller floating operand, treating a single NaN as missing. -/
  | fmin (o : LForm)
  /-- FMAX (R127). Writes the larger floating operand, treating a single NaN as missing. -/
  | fmax (o : LForm)
  /-- FABS (R127). Clears the sign bit of each floating lane. -/
  | fabs (o : LForm)
  /-- FNEG (R127). Inverts the sign bit of each floating lane. -/
  | fneg (o : LForm)
  /-- FCMP (R130). Compares floating lanes, writing a mask and optionally a predicate. -/
  | fcmp (o : LForm)
  /-- FCVT (R131). Converts elements between floating formats. -/
  | fcvt (o : LForm)
  /-- FRND (R128). Rounds each floating lane to an integer in the same format. -/
  | frnd (o : LForm)
  /-- FSCALE (R126). Multiplies each lane by 2 raised to the b lane, with one rounding. -/
  | fscale (o : LForm)
  /-- FRCP (R129). Computes a correctly rounded reciprocal. -/
  | frcp (o : LForm)
  /-- FRSQ (R129). Computes a correctly rounded reciprocal square root. -/
  | frsq (o : LForm)
  /-- FSQRT (R129). Computes a correctly rounded square root. -/
  | fsqrt (o : LForm)
  /-- FEXP2 (R129). Computes a correctly rounded 2 to the power a. -/
  | fexp2 (o : LForm)
  /-- FLOG2 (R129). Computes a correctly rounded base-2 logarithm. -/
  | flog2 (o : LForm)
  /-- FTANH (R129). Computes a correctly rounded hyperbolic tangent. -/
  | ftanh (o : LForm)
  /-- I2F (R132). Converts signed integer elements to a floating format. -/
  | i2f (o : LForm)
  /-- F2I (R132). Converts floating elements to integers, rounding and saturating. -/
  | f2i (o : LForm)
  /-- FQNT (R133). Quantises elements under a block scale formed from an amax, or writes the scale alone. -/
  | fqnt (o : LForm)
  /-- FDQ (R135). Dequantises block-scaled elements into a floating format. -/
  | fdq (o : LForm)
  /-- FRED (R136). Reduces the lanes by sum or maximum in the fixed pairwise tree. -/
  | fred (o : LForm)
  /-- FDOT (R137). Forms an exact dot product plus an fp32 addend and rounds it once. -/
  | fdot (o : LForm)
  /-- SMX_UPD (R139). Folds one scored value vector into an online softmax triple. -/
  | smxUpd (o : LForm)
  /-- SMX_MERGE (R139). Merges two online softmax triples. -/
  | smxMerge (o : LForm)
  /-- PERM (R141). Permutes lanes by index from one or two sources. -/
  | perm (o : LForm)
  /-- SHUF (R141). Shuffles lanes by xor of the index. -/
  | shuf (o : LForm)
  /-- BCAST (R141). Broadcasts one lane of a to every lane. -/
  | bcast (o : LForm)
  /-- ROT (R141). Rotates or shifts lanes across the group. -/
  | rot (o : LForm)
  /-- ZIP (R141). Interleaves lanes of a and b. -/
  | zip (o : LForm)
  /-- UNZIP (R141). De-interleaves the even or odd lanes of a and b. -/
  | unzip (o : LForm)
  /-- PACK (R142). Narrows the lanes of a and b to half width. -/
  | pack (o : LForm)
  /-- UNPACK (R142). Widens half of the narrow lanes of a by zero or sign extension. -/
  | unpack (o : LForm)
  /-- CMPR (R141). Compresses the lanes of a selected by nonzero lanes of b. -/
  | cmpr (o : LForm)
  /-- EXPD (R141). Expands consecutive lanes of a into the positions of nonzero lanes of b. -/
  | expd (o : LForm)
  /-- LMASK (R143). Converts a lane mask into a 64-bit bit mask. -/
  | lmask (o : LForm)
  /-- LSEL (R143). Selects lanes of a or b under a 64-bit bit mask. -/
  | lsel (o : LForm)
  /-- MOVW (R144). Extracts or inserts one word of a group. -/
  | movw (o : LForm)
  /-- SWAP (R144). Exchanges two word groups. -/
  | swap (o : LForm)
  /-- EMIT (R146). Ends the segment and sends the record out on one port. -/
  | emit (o : KForm)
  /-- FORK (R146). Ends the segment and sends the record and a new copy out on two ports. -/
  | fork (o : KForm)
  /-- DROP (R146). Ends the segment and retires the record. -/
  | drop (o : KForm)
  /-- STEER (R146). Ends the segment and sends the record on one of two ports by a condition. -/
  | steer (o : KForm)
  /-- BIGHT (R146). Ends the segment and sends the record onto the re-entry link of a bight. -/
  | bight (o : KForm)
  /-- TAG (R148). Sets the record's sequence tag. -/
  | tag (o : KForm)
  /-- SETCLS (R148). Sets the record's class. -/
  | setcls (o : KForm)
  /-- SETLEN (R148). Sets the record's payload length. -/
  | setlen (o : KForm)
  /-- SETFMT (R148). Sets the record's format tag unless it is poison. -/
  | setfmt (o : KForm)
  /-- SETCK (R148). Sets the record's cookie. -/
  | setck (o : KForm)
  /-- SETSCALE (R148). Sets the record's block scale. -/
  | setscale (o : KForm)
  /-- RAISE (R149). Faults the segment with a software raise and a 16-bit detail. -/
  | raise (o : KForm)
  /-- NOP (R150). Does nothing. -/
  | nop (o : KForm)
  /-- INJECT (R151). Checks a lay, reads a payload and creates a record at a reel output port. -/
  | inject (o : YForm)
  /-- LD (R152). Loads words from near, far or portal memory where it stands. -/
  | ld (o : MForm)
  /-- ST (R159). Checks a store where it stands and buffers it until segment completion. -/
  | st (o : MForm)
  /-- LDX (R161). Gathers 4-byte elements at indexed addresses. -/
  | ldx (o : MForm)
  /-- STX (R161). Scatters 4-byte elements to indexed addresses at segment completion. -/
  | stx (o : MForm)
  /-- ATOM (R162). Performs an integer read-modify-write as one single-copy atomic unit. -/
  | atom (o : MForm)
  /-- ATOMF (R163). Performs a floating read-modify-write as one single-copy atomic unit. -/
  | atomf (o : MForm)
  /-- CAS (R166). Compares a unit with d and writes b on equality, returning the old value. -/
  | cas (o : MForm)
  /-- FENCE (R169). Orders the accesses of the record or thread under its semantics and scope. -/
  | fence (o : MForm)
  /-- OTOK_PUT (R171). Appends an ordering-token entry covering the earlier accesses of the segment. -/
  | otokPut (o : MForm)
  /-- OTOK_WAIT (R171). Holds later accesses until earlier token entries retire or are disjoint. -/
  | otokWait (o : MForm)
  /-- PRF (R170). Asks for lines to be brought into the last-level cache. -/
  | prf (o : MForm)
  /-- LDP (R168). Waits until every covered presence word is present and then reads them atomically. -/
  | ldp (o : MForm)
  /-- STP (R168). Claims presence words and then writes them and sets their presence bits. -/
  | stp (o : MForm)
  /-- MMA (R182). Multiplies the record by the active tile into an accumulator row, directly, absorbed or expanded. -/
  | mma (o : XForm)
  /-- TLD (R186). Writes one column of the loading tile, directly or through the absorb path. -/
  | tld (o : XForm)
  /-- TSWAP (R187). Declares the remaining uses of the active tile before the loading tile replaces it. -/
  | tswap (o : XForm)
  /-- TZERO (R189). Empties the loading tile and drops any absorb vector under construction. -/
  | tzero (o : XForm)
  /-- ACCZ (R190). Clears one accumulator row, or all rows. -/
  | accz (o : XForm)
  /-- ACCRD (R191). Reads a quarter of an accumulator row into the payload, optionally clearing it. -/
  | accrd (o : XForm)
  /-- ACCRD_UL (R192). Reads an accumulator row and applies the value up-projection. -/
  | accrdUl (o : XForm)
  /-- ULSET (R193). Writes one slot of the up-projection store and sets its format and d_c. -/
  | ulset (o : XForm)
  /-- REEL_AFF (R294). Starts an affine read or write stream in a reel stream slot. -/
  | reelAff (o : FForm)
  /-- REEL_GAT (R294). Starts a gather stream in a reel stream slot. -/
  | reelGat (o : FForm)
  /-- REEL_SCA (R294). Starts a scatter stream in a reel stream slot. -/
  | reelSca (o : FForm)
  /-- REEL_FIB (R294). Starts a single or nested fibre walk stream. -/
  | reelFib (o : FForm)
  /-- REEL_CMP (R294). Starts a compressed read or write stream. -/
  | reelCmp (o : FForm)
  /-- REEL_RQ (R294). Starts a memory-to-memory requantising stream. -/
  | reelRq (o : FForm)
  /-- REEL_STOP (R296). Stops the stream of a stream slot. -/
  | reelStop (o : FForm)
  /-- REEL_WAIT (R297). Stalls while a slot runs and then returns its stream completion record. -/
  | reelWait (o : FForm)
  /-- FIB_OPEN (R301). Reads a fibre set-up and opens a fibre register at a parent position. -/
  | fibOpen (o : FForm)
  /-- FIB_SKIP (R302). Skips a fibre register to a target coordinate, or sends the skip to its stream. -/
  | fibSkip (o : FForm)
  /-- FIB_ISECT (R294). Starts a braid stream that intersects fibre registers. -/
  | fibIsect (o : FForm)
  /-- FIB_UNION (R294). Starts a braid stream that unites fibre registers. -/
  | fibUnion (o : FForm)
  /-- FIB_SAVE (R303). Writes a fibre register's 64-byte form to memory. -/
  | fibSave (o : FForm)
  /-- FIB_LOAD (R303). Loads a fibre register's state from a 64-byte form. -/
  | fibLoad (o : FForm)
  /-- FIB_POS (R304). Returns a fibre register's position or coordinate. -/
  | fibPos (o : FForm)
  /-- LAY_LOAD (R278). Checks, places and loads a lay image into a lay slot. -/
  | layLoad (o : YForm)
  /-- LAY_FREE (R281). Ends the residency of a quiescent lay without an armed pass. -/
  | layFree (o : YForm)
  /-- LAY_SWAP (R282). Begins tail-following replacement of a resident lay by a successor. -/
  | laySwap (o : YForm)
  /-- LAY_CLONE (R283). Adds copies of one compute station behind a split and a sequence merge. -/
  | layClone (o : YForm)
  /-- PASS_ARM (R285). Reads the binding block and arms a pass, resetting per-pass state and starting bound streams. -/
  | passArm (o : YForm)
  /-- PASS_WAIT (R287). Stalls until the armed pass ends or raises a wedge fault. -/
  | passWait (o : YForm)
  /-- PASS_ABORT (R288). Ends the armed pass as aborted, retiring every record and ending every stream. -/
  | passAbort (o : YForm)
  /-- CLEAT_SET (R291). Rewrites a cleat's count and budget and clears its arrivals and overrun. -/
  | cleatSet (o : YForm)
  /-- CLEAT_WAIT (R292). Stalls until a cleat's released generation passes a given value. -/
  | cleatWait (o : YForm)
  /-- CLEAT_TIE (R293). Delivers one arrival to a cleat of the station's page at segment completion. -/
  | cleatTie (o : YForm)
  /-- SBAR (R298). Places an ordering barrier in named running streams of a reel. -/
  | sbar (o : YForm)
  /-- QWAIT (R299). Stalls until a far 8-byte word satisfies a condition or a timeout expires. -/
  | qwait (o : YForm)
  /-- GMM (R306). Runs one pass of a lay for each non-empty group of a ragged batch. -/
  | gmm (o : YForm)
  /-- BR (R307). Branches to a relative target when its predicate holds. -/
  | br (o : JForm)
  /-- BRC (R307). Branches when a register compared with zero meets its condition. -/
  | brc (o : JForm)
  /-- JMP (R307). Jumps to a register plus a word offset. -/
  | jmp (o : JForm)
  /-- CALL (R307). Writes a link register and branches. -/
  | call (o : JForm)
  /-- RET (R307). Branches to the address held in a register. -/
  | ret (o : JForm)
  /-- LOOP (R308). Sets up a hardware loop on a loop counter. -/
  | loop (o : JForm)
  /-- CTX_SPAWN (R434). Reads a launch word and requests a launch into another context. -/
  | ctxSpawn (o : ZForm)
  /-- CTX_EXIT (R435). Begins teardown of the issuing context with kind exit. -/
  | ctxExit (o : ZForm)
  /-- CTX_KILL (R436). Begins teardown of a context with kind kill. -/
  | ctxKill (o : ZForm)
  /-- YIELD (R418). Offers a cooperative pre-emption, saving the threads if no pass is armed and the lays are quiescent. -/
  | yield (o : ZForm)
  /-- TRAP (R438). Raises a software trap with a 16-bit detail. -/
  | trap (o : ZForm)
  /-- ERET (R439). Returns from a trap to EPC and clears the in-trap flag. -/
  | eret (o : ZForm)
  /-- SYSRD (R440). Reads a system register. -/
  | sysrd (o : ZForm)
  /-- SYSWR (R440). Writes a system register subject to its rule and returns a status. -/
  | syswr (o : ZForm)
  /-- TLB_INV (R446). Invalidates a context's translations over a range and waits for accesses using them. -/
  | tlbInv (o : ZForm)
  /-- CWB (R447). Writes back dirty cache-role lines over a virtual range. -/
  | cwb (o : ZForm)
  /-- CINV (R447). Writes back and gives up cache-role lines over a virtual range. -/
  | cinv (o : ZForm)
  /-- NOTIFY (R448). Writes a notify completion record and optionally raises the host interrupt. -/
  | notify (o : ZForm)
  /-- FLT_RETRY (R449). Services a fault event by repeating the translation or re-firing the held record. -/
  | fltRetry (o : ZForm)
  /-- FLT_DROP (R449). Services a fault event by dropping its requests or retiring the held record. -/
  | fltDrop (o : ZForm)
  /-- HALT (R450). Stops the thread for the rest of the context. -/
  | halt (o : ZForm)
  /-- WFI (R451). Stalls until a wake cause occurs or a limit expires. -/
  | wfi (o : ZForm)
  /-- STATION_FIRE (R203). A station fires a head record whose firing conditions all hold, reserving emit slots. -/
  | stationFire (p : Place)
  /-- RECORD_DEPARTURE (R147). A completed record leaves on its port once every non-posted access is acknowledged. -/
  | recordDeparture (p : Place) (x : Nat)
  /-- LINK_DELIVERY (R200). A link delivers a record into the receiver's input buffer. -/
  | linkDelivery (c : CtxId) (l : LaySlot) (k : Nat)
  /-- SLOT_RETURN (R201). A returned link slot reaches the sender. -/
  | slotReturn (c : CtxId) (l : LaySlot) (k : Nat)
  /-- CHANNEL_ADVANCE (R215). A record advances onto the next mesh channel when a reserved or shared slot is free. -/
  | channelAdvance (c : CtxId) (l : LaySlot) (k : Nat)
  /-- EXCEPTION_REGISTER_ENTRY (R411). A faulted record waiting in its execution place enters the freed exception register. -/
  | exceptionRegisterEntry (p : Place)
  /-- EXCEPTION_NETWORK_DELIVERY (R411). A diverted record reaches the handler's exception buffer when it has room. -/
  | exceptionNetworkDelivery (p : Place)
  /-- HANDLER_RUN (R413). The handler station runs segment 3 on a diverted record with fault and location words in k11 and k10. -/
  | handlerRun (c : CtxId) (l : LaySlot)
  /-- REPLY_ARRIVAL (R203). A near, far or portal reply or acknowledgement reaches a parked record or thread, which resumes. -/
  | replyArrival (r : Nat) (o : LinkReply)
  /-- NEAR_REQUEST_ARRIVAL (R235). A near request enters a bank's window in age order. -/
  | nearRequestArrival (r : Nat)
  /-- BANK_OPERATION_START (R236). A bank starts the oldest eligible operation whose sub-banks are idle. -/
  | bankOperationStart (r : Nat) (e : Ecc)
  /-- LDP_WAKE (R247). An ldp on the presence wait list re-enters the window once its last word becomes present. -/
  | ldpWake (r : Nat)
  /-- PRESENCE_RETRY_RESEND (R247). An ldp answered retry is resent after 64 fabric cycles. -/
  | presenceRetryResend (r : Nat)
  /-- STP_CLAIM_GRANT (R168). A granted presence claim lets the buffered stores and the presence write proceed. -/
  | stpClaimGrant (r : Nat)
  /-- TOKEN_ENTRY_RETIRE (R171). An ordering-token entry retires when its covered accesses are performed, releasing waiting accesses. -/
  | tokenEntryRetire (p : Place) (e : Nat)
  /-- BIGHT_ADMIT (R210). A bight entry splice admits a fresh or re-entering record under its occupancy and turn bit. -/
  | bightAdmit (p : Place)
  /-- SPLICE_BCAST (R205). A bcast splice copies a record to every listed port. -/
  | spliceBcast (p : Place)
  /-- SPLICE_SPLIT_RR (R205). A split.rr splice sends a record to the port whose turn it is. -/
  | spliceSplitRr (p : Place)
  /-- SPLICE_SPLIT_HASH (R205). A split.hash splice sends a record to the port chosen by the hash of one word. -/
  | spliceSplitHash (p : Place)
  /-- SPLICE_MERGE_ARR (R205). A merge.arr splice passes heads in arrival order. -/
  | spliceMergeArr (p : Place)
  /-- SPLICE_MERGE_RR (R205). A merge.rr splice passes heads in cyclic turn. -/
  | spliceMergeRr (p : Place)
  /-- MERGE_SEQ_ACCEPT (R206). A merge.seq splice accepts a head record into its reorder buffer. -/
  | mergeSeqAccept (p : Place)
  /-- MERGE_SEQ_PASS (R206). A merge.seq splice passes the expected record, or retires a hole record, and advances e. -/
  | mergeSeqPass (p : Place)
  /-- FIFO_ENQUEUE (R242). A fifo bank enqueues a record from an input port. -/
  | fifoEnqueue (p : Place)
  /-- FIFO_DEQUEUE (R242). A fifo bank sends its oldest record on o0. -/
  | fifoDequeue (p : Place)
  /-- CLEAT_RELEASE (R324). A cleat releases a generation once the tying records' accesses are performed. -/
  | cleatRelease (c : CtxId) (l : LaySlot) (pg : Pid) (n : Fin 16)
  /-- RELEASE_RECORD_SEND (R220). A pending cleat release record is sent when its link slot is free. -/
  | releaseRecordSend (c : CtxId) (l : LaySlot) (pg : Pid) (n : Fin 16)
  /-- QUIESCENCE_SWEEP (R223). A 16-cycle sweep reads every page's counters and declares quiescence after two zero sweeps. -/
  | quiescenceSweep (c : CtxId) (l : LaySlot)
  /-- WEDGE_TIMER_EXPIRY (R225). The wedge timer reaches the limit, setting wdg, raising a wedge event and writing the report. -/
  | wedgeTimerExpiry (c : CtxId) (l : LaySlot)
  /-- STREAM_START (R294). A started stream begins once the thread's earlier accesses are performed. -/
  | streamStart (c : CtxId) (l : LaySlot) (pg : Pid) (n : Fin 4)
  /-- REEL_OPERATION (R387). A reel chooses one stream slot by deficit round-robin and performs its next operation. -/
  | reelOperation (c : CtxId) (l : LaySlot) (pg : Pid)
  /-- WRITE_SIDE_ACCEPT (R255). A reel write side accepts a record, converts it and writes it. -/
  | writeSideAccept (c : CtxId) (l : LaySlot) (pg : Pid) (n : Fin 4)
  /-- GATHER_INDEX_ACCEPT (R254). A gather stream takes an index record and emits records for its index words. -/
  | gatherIndexAccept (c : CtxId) (l : LaySlot) (pg : Pid) (n : Fin 4)
  /-- FIB_SKIP_APPLY (R302). A skip control record reaches a stream, which applies it between entries. -/
  | fibSkipApply (c : CtxId) (l : LaySlot) (pg : Pid) (n : Fin 4)
  /-- STREAM_END (R258). A stream ends and its slot holds the stream completion record. -/
  | streamEnd (c : CtxId) (l : LaySlot) (pg : Pid) (n : Fin 4)
  /-- STREAM_STOP_POINT (R420). A stream reaches its stop point under forced pre-emption and holds there. -/
  | streamStopPoint (c : CtxId) (l : LaySlot) (pg : Pid) (n : Fin 4)
  /-- TRANSLATION_WALK_DONE (R403). A page-table walk completes, installing a translation or raising a translation fault event. -/
  | translationWalkDone (r : Nat)
  /-- TRANSLATION_RETRY_RESEND (R403). A request answered retry for lack of a wait entry is resent after 64 fabric cycles. -/
  | translationRetryResend (r : Nat)
  /-- FAULT_EVENT_WRITE (R408). A held fault event is written to the fault queue once space allows. -/
  | faultEventWrite (c : CtxId)
  /-- EVENT_TRAP (R415). The event thread takes an event trap at its next boundary when the fault queue is not empty. -/
  | eventTrap (c : CtxId)
  /-- HBM_REQUEST (R244). A stack controller performs a far access or forwards it to the bank holding the line. -/
  | hbmRequest (r : Nat) (e : Ecc)
  /-- HBM_ROW_REPAIR_DONE (R486). The row copy ends and the waiting accesses are performed in arrival order. -/
  | hbmRowRepairDone (row : Nat)
  /-- PORTAL_REQUEST (R471). A portal turns a unit access into a link request when a tag is free. -/
  | portalRequest (r : Nat)
  /-- PORTAL_TIMEOUT (R472). A portal request's XTIMEOUT expires, failing it and logging an entry. -/
  | portalTimeout (r : Nat)
  /-- POSTED_WRITE_FLUSH (R475). A portal sends a flush for a party's posted host writes after 64 idle cycles or another trigger. -/
  | postedWriteFlush (r : Nat)
  /-- PEER_INBOUND_REQUEST (R476). A peer request reaches HBM through its inbound window. -/
  | peerInboundRequest (n : Fin 12) (o : OutsideOp)
  /-- HOST_BAR2_ACCESS (R476). A host access through BAR2 is performed in HBM. -/
  | hostBar2Access (o : OutsideOp)
  /-- FLIT_RETRY (R481). A flit that fails its CRC is retried. -/
  | flitRetry (ch : Chan)
  /-- CHANNEL_RETRAIN (R481). After 16 consecutive failures of one flit the channel retrains. -/
  | channelRetrain (ch : Chan)
  /-- CHANNEL_FAIL (R481). After three retrains without a flit passing, the channel fails and its end pages are retired. -/
  | channelFail (ch : Chan)
  /-- STATE_ECC_ERROR (R478). An uncorrectable error is found in protected station, matrix, stream or thread state. -/
  | stateEccError (t : EccTarget)
  /-- LAUNCH_WRITE (R369). A host write stages bytes of LAUNCH and triggers a launch when it includes byte 31. -/
  | launchWrite (c : CtxId) (off : Nat) (bytes : List Byte)
  /-- HOST_LAUNCH (R370). The dispatcher checks a triggered host launch and accepts or refuses it. -/
  | hostLaunch (c : CtxId)
  /-- SPAWN_DECISION (R375). The dispatcher accepts or refuses a spawn request and answers the thread. -/
  | spawnDecision (c : CtxId) (t : Tid)
  /-- CONTEXT_START (R378). The dispatcher starts or resumes the first queue entry that has thread positions and pages. -/
  | contextStart
  /-- TEARDOWN (R366). Teardown stops the threads, aborts passes, frees lays, writes the record and frees the context. -/
  | teardown (c : CtxId)
  /-- DSEQ_ADVANCE (R372). DSEQ advances once a completion record is performed and visible. -/
  | dseqAdvance (c : CtxId)
  /-- KILL_WRITE (R467). A host write to KILL starts teardown of the context as a kill. -/
  | killWrite (c : CtxId)
  /-- WAKE_WRITE (R451). A write to WAKE wakes a wfi of the context. -/
  | wakeWrite (c : CtxId)
  /-- FQTAIL_WRITE (R443). A write to FQTAIL consumes fault queue entries and releases held events. -/
  | fqtailWrite (c : CtxId) (v : Word)
  /-- FLTAIL_WRITE (R482). A write to FLTAIL consumes fault log entries. -/
  | fltailWrite (v : Word)
  /-- PREEMPT_REQUEST (R419). PREQ bit 0 requests forced pre-emption, optionally with hold, or is refused for lack of save space. -/
  | preemptRequest (c : CtxId) (hold : Bool)
  /-- PREEMPT_RELEASE_HOLD (R419). PREQ bit 2 lets a held stopped context join its queue. -/
  | preemptReleaseHold (c : CtxId)
  /-- DRAIN_END (R419). The drain of a forced pre-emption ends when no item remains but held streams. -/
  | drainEnd (c : CtxId)
  /-- DRAIN_DEADLINE (R419). PDEAD fabric cycles pass since the request and the drain is cut short. -/
  | drainDeadline (c : CtxId)
  /-- SAVE_ENGINE_DONE (R421). The save engine finishes writing the save area and PSTAT reads 4. -/
  | saveEngineDone (c : CtxId)
  /-- RECONFIG_ADOPT (R228). A station adopts the successor configuration and sends reconfiguration records. -/
  | reconfigAdopt (p : Place)
  /-- ROLE_CHANGE_POINT (R229). Banks change role and interleave once every station has adopted. -/
  | roleChangePoint (c : CtxId) (l : LaySlot)
  /-- LAY_LOAD_COMPLETE (R278). Bank zeroing ends and lay.load returns its result. -/
  | layLoadComplete (c : CtxId) (l : LaySlot)
  /-- INJECT_RECORD_LEAVES (R151). An injected record takes a free slot and leaves its reel port, ending the thread's stall. -/
  | injectRecordLeaves (c : CtxId) (t : Tid)
  /-- PASS_WAIT_WAKE (R287). A stalled pass.wait returns when the pass ends or a wedge fault arrives. -/
  | passWaitWake (c : CtxId) (t : Tid)
  /-- CLEAT_WAIT_WAKE (R292). A stalled cleat.wait returns on its generation condition, pass end or wedge. -/
  | cleatWaitWake (c : CtxId) (t : Tid)
  /-- REEL_WAIT_WAKE (R297). A stalled reel.wait returns when its stream ends. -/
  | reelWaitWake (c : CtxId) (t : Tid)
  /-- SBAR_PASSED (R298). A waiting sbar returns once every named stream has passed its barrier or ended. -/
  | sbarPassed (c : CtxId) (l : LaySlot) (pg : Pid)
  /-- QWAIT_POLL (R299). The device rereads a qwait word, at most 256 cycles apart, and wakes the thread if it holds. -/
  | qwaitPoll (c : CtxId) (t : Tid)
  /-- QWAIT_TIMEOUT (R299). A qwait timeout expires and returns the last value read. -/
  | qwaitTimeout (c : CtxId) (t : Tid)
  /-- WFI_TIMEOUT (R451). A wfi limit expires and returns the timeout bit. -/
  | wfiTimeout (c : CtxId) (t : Tid)
  /-- WFI_WAKE (R451). A wake cause ends a wfi and returns its mask. -/
  | wfiWake (c : CtxId) (t : Tid)
  /-- TLB_INV_COMPLETE (R405). The three conditions of a shootdown hold and tlb.inv ends. -/
  | tlbInvComplete (c : CtxId) (t : Tid)
  /-- GMM_GROUP_ADVANCE (R306). After a group's pass ends, gmm stores progress and arms the next group. -/
  | gmmGroupAdvance (c : CtxId) (t : Tid)
  /-- RETIRE (R485). A RETIRE write starts retiring a page, or is refused. -/
  | retire (v : BitVec 16)
  /-- RETIRE_COMPLETE (R485). Affected contexts are pre-empted, a spare takes the position or the count falls, and RSTAT is set. -/
  | retireComplete
  /-- DIE_DRAIN (R487). DIECTL bit 2 puts a die in draining and pre-empts contexts that use it. -/
  | dieDrain (d : Die)
  /-- DIE_DRAINED (R487). No context uses the draining die and it becomes drained. -/
  | dieDrained (d : Die)
  /-- DIE_RETURN (R488). DIECTL bit 3 returns a drained die to serving. -/
  | dieReturn (d : Die)
  /-- DIE_LOAD_FIRMWARE (R488). DIECTL bit 4 starts loading firmware at FWADDR onto a drained die. -/
  | dieLoadFirmware (d : Die)
  /-- FIRMWARE_LOAD_DONE (R494). Verification of the three firmware images ends, installing all or none. -/
  | firmwareLoadDone (d : Die)
  /-- MARKLOAD (R500). A write to MARKLOAD starts verifying a mark kernel image. -/
  | markload (v : DWord)
  /-- MARK_KERNEL_VERIFIED (R500). Mark kernel verification ends, loading or refusing the kernel. -/
  | markKernelVerified
  /-- MARK_STAGE_WRITE (R499). A protected context's host write passes the mark stage, or is refused. -/
  | markStageWrite (r : Nat)
  /-- ATTREQ (R497). A write to ATTREQ starts an attestation report for a context. -/
  | attreq (v : Byte)
  /-- ATTESTATION_DONE (R497). The signed attestation report is visible and ATTSTAT reads 2. -/
  | attestationDone
  /-- PROTECTED_KEY_WRITE (R495). A write to LAYKEY, PXBASE or PXSIZE is accepted only while no protected context exists. -/
  | protectedKeyWrite (reg : KeyReg) (v : DWord)
  /-- BRINGUP_WRITE (R502). A write to BRINGUP is accepted only while every context is free. -/
  | bringupWrite (v : Byte)
  /-- REGISTER_WRITE (R466). A host or syswr write to a register without behaviour of its own stores its value under its rule. -/
  | registerWrite (reg : HostReg) (v : DWord)
  /-- MODULE_RESET (R501). Power-on or RSTCTL 0x7273 resets the module and ends every context. -/
  | moduleReset
  /-- BRINGUP_PHASE_END (R501). A bring-up phase ends and BSTAT advances. flash lists the images that phase 2 has read, three
  a die by kind; failed lists the channels whose training in phase 4 failed. -/
  | bringupPhaseEnd (flash : List (List Byte)) (failed : List Chan)
  /-- HOST_PORT_RESET (R490). A function-level reset, hot reset or link-down resets only PCIe and MSI-X state. -/
  | hostPortReset
  /-- PEER_LINK_TRAINED (R473). A UALink port trains and its peer reports its operator byte. -/
  | peerLinkTrained (n : Fin 12) (ops : Byte) (unit : BitVec 4)
  /-- TEMP_SAMPLE (R505). Each 100 µs the die temperature is sampled, logging a threshold crossing or tripping at 105 °C. -/
  | tempSample (d : Die) (t : Byte)
  /-- POWER_AVERAGE_SAMPLE (R504). The 1 ms average power is compared with PWRCAP and throttling is set or cleared. -/
  | powerAverageSample (watts : Nat)
  /-- POWER_IDLE_TIMER (R503). An idle timer of 1 ms or 100 ms expires and a die or the module enters P2 or P3. -/
  | powerIdleTimer (d : Die)
  /-- CHANNEL_RETRAIN_DONE (R481). A mesh channel finishes retraining, within 4,096 fabric cycles, and retrying of the failed flit continues. -/
  | channelRetrainDone (ch : Chan)
  /-- BANK_ZEROING_DONE (R239). The zeroing of a bank's bytes and presence bits at a role change point finishes, and the lay may then be armed. -/
  | bankZeroingDone (c : CtxId) (l : LaySlot)  deriving DecidableEq, Repr

end Sys2Proof
end

