-- ==== Sys2Proof/Config.lean ====
section
/-!
DEFINITION. What one module fixes and the spec does not: constants without a body, and the free values. Nothing can
be proved of a constant of this file, so a statement that mentions one holds for every value of it.
-/
namespace Sys2Proof.Config

/-- The n-th value that the spec leaves open, as a word: what a segment computes from a poison record's payload
(R28), what an atomic returns from a poisoned unit (R172), and an enclosure of a transcendental that does not decide
a rounding. State.free counts the values taken. Log entry 2. -/
opaque freeWord : Nat → Word

/-- The fused SM2 identity private key of 32 bytes (R491). Log entry 6. -/
opaque identityPrivate : BitVec 256
/-- The serial number of the fuses (R491). -/
opaque fuseId : DWord
/-- The fused SM3 digest of the root key (R491). -/
opaque rootDigest : BitVec 256
/-- The fused minimum security version of a firmware kind (R491). -/
opaque minSvn : Nat → Word
/-- The fused mark seed of 32 bytes (R491, R499). -/
opaque markSeed : Vector Byte 32
/-- MK of R499: kernel image, KP, virtual address and data give the bytes sent. -/
opaque markFn : List Byte → BitVec 128 → DWord → List Byte → List Byte
/-- The repair map of a die as four numbers from which its spare positions are read (R5). Log entry 7. -/
opaque repairChoice : Die → Nat → Nat
/-- The DRAM row that holds a physical address (R486; the spec gives no row geometry). Log entry 8. -/
opaque hbmRow : Nat → Nat
/-- The bank of a DRAM row (R486). Log entry 8. -/
opaque hbmBankOfRow : Nat → Nat
/-- Spare rows of a DRAM bank when the module is made (R486). Log entry 8. -/
opaque hbmSpareRows : Nat → Nat
/-- The stack that holds a physical address, three to a die (R7; the spec does not say which). Log entry 8. -/
opaque hbmStack : Nat → Fin 12
/-- What a read of HBM beyond the capacity of the stacks gives (R11 gives the capacity only). Log entry 5. -/
opaque beyondByte : Nat → Byte

end Sys2Proof.Config
end

