-- ==== Sys2Proof/Machine/Bits.lean ====
section
/-!
DEFINITION. Bits, bytes and lanes: the readings and narrowings of R15, R108 and R114, the element strings of R18 and
R54, and the bit functions that several instructions share.
-/
namespace Sys2Proof.Machine

/-- The n low bits of x read as two's complement (R108, sext). -/
def sextN (n x : Nat) : Int :=
  if n = 0 then 0 else if x % 2 ^ n < 2 ^ (n - 1) then (x % 2 ^ n : Nat) else (x % 2 ^ n : Nat) - (2 ^ n : Nat)

/-- The low n bits of an integer (R114, wraps). -/
def narrow (n : Nat) (v : Int) : Nat := (v % (2 ^ n : Nat)).toNat

/-- v held between lo and hi. -/
def clampI (lo hi v : Int) : Int := if v < lo then lo else if hi < v then hi else v

/-- Bits [h:l] of x. -/
def bitsNat (h l x : Nat) : Nat := (x >>> l) % 2 ^ (h + 1 - l)

/-- n bytes of x, least significant first (R15). -/
def bytesOfNat : Nat → Nat → List Byte
  | 0, _ => []
  | n + 1, x => BitVec.ofNat 8 x :: bytesOfNat n (x / 256)

/-- The number that a little-endian byte string holds (R15). -/
def natOfBytes : List Byte → Nat
  | [] => 0
  | b :: bs => b.toNat + 256 * natOfBytes bs

/-- The bytes of a list padded with zeros, or cut, to n. -/
def padBytes (n : Nat) (bs : List Byte) : List Byte := (bs ++ List.replicate n 0).take n

/-- n bytes of a byte string from position i, as a number; bytes past the end read as zero. -/
def natAt (bs : List Byte) (i n : Nat) : Nat := natOfBytes ((bs.drop i).take n)

/-- The bit string of a list of words, the first word lowest (R18, R54). -/
def strOfWords : List Word → Nat
  | [] => 0
  | w :: ws => w.toNat + 2 ^ 32 * strOfWords ws

/-- n words of a bit string, the lowest first. -/
def wordsOfStr : Nat → Nat → List Word
  | 0, _ => []
  | n + 1, x => BitVec.ofNat 32 x :: wordsOfStr n (x / 2 ^ 32)

/-- Element i of b bits of a string (R18, R54). -/
def elemAt (b i x : Nat) : Nat := (x >>> (b * i)) % 2 ^ b

/-- The first n elements of b bits of a string. -/
def elemsOf (b n x : Nat) : List Nat := (List.range n).map fun i => elemAt b i x

/-- The string of a list of elements of b bits, the first lowest. -/
def strOfElems (b : Nat) : List Nat → Nat
  | [] => 0
  | e :: es => e % 2 ^ b + 2 ^ b * strOfElems b es

/-- Word j of a vector of sixteen, zero past the end. -/
def vword (v : Vec16) (j : Nat) : Word := v[j]?.getD 0

/-- g words of a vector from word j. -/
def vgroup (v : Vec16) (j g : Nat) : List Word := (List.range g).map fun i => vword v (j + i)

/-- A vector with the words of a list written from word j on. -/
def vput (v : Vec16) (j : Nat) : List Word → Vec16
  | [] => v
  | w :: ws => vput (v.setIfInBounds j w) (j + 1) ws

/-- The 512-bit string of a vector. -/
def vstr (v : Vec16) : Nat := strOfWords v.toList

/-- A vector from its 512-bit string. -/
def vofStr (x : Nat) : Vec16 := Vector.ofFn fun i => BitVec.ofNat 32 (x >>> (32 * i.val))

/-- A vector of zeros. -/
def vzero : Vec16 := Vector.replicate 16 0

/-- A vector whose words at or beyond n are zero (R43). -/
def vclear (v : Vec16) (n : Nat) : Vec16 := Vector.ofFn fun i => if i.val < n then v[i] else 0

/-- Number of one bits among the low n bits. -/
def popcN : Nat → Nat → Nat
  | 0, _ => 0
  | n + 1, x => x % 2 + popcN n (x / 2)

/-- Trailing zeros of the low n bits; n where they are all zero. -/
def ctzN : Nat → Nat → Nat
  | 0, _ => 0
  | n + 1, x => if x % 2 = 1 then 0 else 1 + ctzN n (x / 2)

/-- The low n bits of x in reverse order. -/
def brevN : Nat → Nat → Nat
  | 0, _ => 0
  | n + 1, x => (x % 2) * 2 ^ n + brevN n (x / 2)

/-- Leading zeros of the low n bits; n where they are all zero. -/
def clzN (n x : Nat) : Nat := ctzN n (brevN n x)

/-- One byte of the reflected CRC-32C of R123. -/
def crcBits : Nat → Nat → Nat
  | 0, x => x
  | n + 1, x => crcBits n (if x % 2 = 1 then (x / 2) ^^^ 0x82f63b78 else x / 2)

/-- CRC-32C state x after one more byte (R123). -/
def crcByte (x b : Nat) : Nat := crcBits 8 (x ^^^ b)

/-- CRC-32C state after a byte string (R123, R259). -/
def crcBytes (x : Nat) (bs : List Byte) : Nat := bs.foldl (fun s b => crcByte s b.toNat) x

/-- The .mix finaliser of R123. -/
def hashMix (a b : Nat) : Nat :=
  let m := 2 ^ 32
  let x := (a % m) ^^^ ((b % m) * 0x9e3779b1 % m)
  let x := x ^^^ (x >>> 16)
  let x := x * 0x85ebca6b % m
  let x := x ^^^ (x >>> 13)
  let x := x * 0xc2b2ae35 % m
  x ^^^ (x >>> 16)

/-- The code of a format tag (R17). -/
def fmtCode : Fmt → BitVec 4
  | .raw => 0 | .fp32 => 1 | .bf16 => 2 | .fp16 => 3 | .e4m3 => 4 | .e5m2 => 5 | .e3m2 => 6 | .e2m1 => 7
  | .i32 => 8 | .i16 => 9 | .i8 => 10 | .i4 => 11 | .mx8 => 12 | .mx4 => 13 | .crd => 14 | .poison => 15

/-- The format tag of a code (R17). -/
def fmtOf (c : BitVec 4) : Fmt :=
  match c.toNat with
  | 0 => .raw | 1 => .fp32 | 2 => .bf16 | 3 => .fp16 | 4 => .e4m3 | 5 => .e5m2 | 6 => .e3m2 | 7 => .e2m1
  | 8 => .i32 | 9 => .i16 | 10 => .i8 | 11 => .i4 | 12 => .mx8 | 13 => .mx4 | 14 => .crd | _ => .poison

/-- Element bits of a format (R17); 0 for raw, crd and poison. -/
def fmtBits : Fmt → Nat
  | .fp32 | .i32 => 32
  | .bf16 | .fp16 | .i16 => 16
  | .e4m3 | .e5m2 | .i8 | .mx8 => 8
  | .e3m2 => 6
  | .e2m1 | .i4 | .mx4 => 4
  | .raw | .crd | .poison => 0

/-- The element format of a block-scaled format (R24 to R26); any other is its own. -/
def elemFmt : Fmt → Fmt
  | .mx8 => .e4m3
  | .mx4 => .e2m1
  | f => f

/-- The rounding mode of modifier bits [52:50] (R29); the reserved codes are refused by Legal. -/
def rmOf (c : Nat) : Rm :=
  match c with
  | 0 => .rne | 1 => .rtz | 2 => .rdn | 3 => .rup | _ => .rsto

/-- Rounding mode of a modifier (R29). -/
def modRm (m : BitVec 4) : Rm := rmOf (m.toNat % 8)
/-- Saturation bit of a modifier (R29). -/
def modSat (m : BitVec 4) : Bool := m.getLsbD 3

/-- Lane width in bits of a w field (R67). -/
def wBits (w : BitVec 2) : Nat := 8 * 2 ^ w.toNat
/-- Group in words of a g field (R67). -/
def gWords (g : BitVec 3) : Nat := 2 ^ g.toNat

/-! ### Order -/

/-- Puts an element before the first that it does not follow. -/
def insertBy {α : Type} (le : α → α → Bool) (x : α) : List α → List α
  | [] => [x]
  | y :: ys => if le x y then x :: y :: ys else y :: insertBy le x ys

/-- A list in order. -/
def sortBy {α : Type} (le : α → α → Bool) (xs : List α) : List α := xs.foldr (insertBy le) []

end Sys2Proof.Machine
end

