-- ==== Sys2Proof/Machine/State.lean ====
section
/-!
DEFINITION. The state of the module as plain data: contexts with their threads and lays, memories, requests under way,
the device's registers, and whose turn it is. INVENTORY.md lists every field with its rule and its reset value.
-/
namespace Sys2Proof.Machine

/-- Why the machine stops. The model stops on nothing the spec describes: every trap, fault event and thermal trip is a
next state. -/
inductive Fault where
  /-- No meaning raises it (safe): the type is closed and holds one name for a stop that does not occur. -/
  | none
  deriving DecidableEq, Repr

/-- Why an instruction is turned away. -/
inductive Refusal where
  /-- An instruction not yet given its meaning, by mnemonic; raised by Dispatch only (safe). -/
  | notModelled (mnemonic : String)
  deriving DecidableEq, Repr

/-- A memory as (address, byte) pairs, addresses rising, no byte that equals the default 0. -/
abbrev Mem := List Host.Cell

/-! ### Records -/

/-- A record header (R41). -/
structure Hdr where
  lay : LaySlot
  ctx : CtxId
  cls : BitVec 3
  len : BitVec 5
  fmt : BitVec 4
  ck : Byte
  scale : Byte
  seq : BitVec 24
  deriving DecidableEq, Repr

/-- A posted access of a record's path that is not yet known to be performed (R318): its request, whether it belongs
to the segment in progress, and the fences that stand after it, by their semantics. -/
structure Past where
  req : Nat
  same : Bool
  relFence : Bool
  scFence : Bool
  deriving DecidableEq, Repr

/-- A record: header, payload (R41) and the posted accesses of its record order (R316). -/
structure Rec where
  hdr : Hdr
  pay : Vec16
  past : List Past
  deriving DecidableEq, Repr

/-- What travels on a link: a record, or a reconfiguration record (R227). -/
inductive Item where
  | data (r : Rec)
  | reconf
  deriving DecidableEq, Repr

/-! ### Memory requests -/

/-- Where a unit access is performed (R312): a near bank by number, HBM, the host, or a peer port. -/
inductive Node where
  | bank (k : Nat)
  | hbm
  | host
  | peer (n : Fin 12)
  deriving DecidableEq, Repr

/-- What a unit access does: read, write, an integer or float read-modify-write by operator and element width in
bytes (R162, R163), compare and swap (R166), a presence read, claim or write (R168), or a flush (R474). -/
inductive UOp where
  | rd
  | wr
  | atomI (op : BitVec 4) (width : Nat)
  | atomF (op : BitVec 4)
  | cas
  | ldp
  | claim
  | stp
  | flush
  deriving DecidableEq, Repr

/-- A unit access (R312, R328): where, the address there, its length, what it writes and compares; the virtual address
that it was translated from, and that of its piece of the access (R499). -/
structure MUnit where
  node : Node
  addr : Nat
  len : Nat
  dat : List Byte
  cmp : List Byte
  va : Nat
  base : Nat
  deriving DecidableEq, Repr

/-- How far a request has come. -/
inductive Stage where
  /-- A translation miss waits for its walk (R403). -/
  | walk
  /-- Answered retry for want of an entry; it may be sent again at the cycle named (R403, R247). -/
  | retry (at_ : Nat)
  /-- Parked under the fault event with the tag (R404). -/
  | event (tag : BitVec 16)
  /-- Sent to its node. -/
  | sent
  /-- At a portal without a free tag: its place in the order of arrival (R471). -/
  | tagWait (n : Nat)
  /-- Held by a portal under a tag: its link request is out (R471). -/
  | linked
  /-- In a bank's window (R235). -/
  | window
  /-- On a bank's presence wait list (R247). -/
  | presWait
  /-- Performed; the reply is on its way. -/
  | done
  deriving DecidableEq, Repr

/-- A translated piece of a far or portal access (R157): the region it was translated from. -/
structure VaRef where
  va : Nat
  len : Nat
  deriving DecidableEq, Repr

/-- Who waits for a reply: an execution of the place, a thread of the context, or nobody. -/
inductive Owner where
  | exec (x : Nat)
  | thread (t : Tid)
  | nobody
  deriving DecidableEq, Repr

/-- A request of a station or a thread (R152, R403, R471). A thread's request carries its context in place. -/
structure Req where
  id : Nat
  place : Place
  owner : Owner
  /-- The execution that issued it, and with it its age at its own bank (R235). -/
  exec : Nat
  op : UOp
  /-- Virtual addresses still to be translated (stage walk) or already translated. -/
  vas : List VaRef
  /-- Whether the walk is for a write, and for an atomic (R404, R408). -/
  wr : Bool
  atomic : Bool
  portal : Bool
  units : List MUnit
  /-- Bytes read so far, in the order of the units. -/
  got : List Byte
  /-- The order in which the elements of an ldx are read (R161); none where the units stand in their own order. -/
  perm : List Nat
  /-- Bytes that an earlier buffered store of the execution supplies, by place (R159). -/
  fwd : List (Option Byte)
  stage : Stage
  /-- Requests to be performed before this one (R318). -/
  after : List Nat
  posted : Bool
  /-- A relaxed access, which a bank may merge (R237). -/
  relaxed : Bool
  poison : Bool
  /-- A write to the host that no flush has performed yet (R475), and the units of it that have been sent. -/
  unflushed : Bool
  out : List MUnit
  /-- The mark stage has accepted it (R499, R500). -/
  marked : Bool
  /-- The fabric cycle of the last change, for XTIMEOUT and flush timers. -/
  born : Nat
  deriving DecidableEq, Repr

/-! ### Matrix state (R173) -/

/-- A tile: columns, scales and tag; a format code of 0 (raw) is no format, chunk none outside absorb. -/
structure Tile where
  cols : Vector Vec16 64
  scales : Vector Byte 64
  fmt : Option (BitVec 4)
  chunk : Option (BitVec 16)
  poison : Bool
  deriving DecidableEq, Repr

/-- One accumulator row: values, poison mask, mx8 half-0 flag and its scale. -/
structure AccRow where
  vals : Vector Word 64
  mask : BitVec 4
  half : Bool
  scale : Byte
  deriving DecidableEq, Repr

/-- Owner of the working vector (R185). -/
inductive WOwner where
  | expand (seg : Fin 4) (acc : Fin 4) (row : Fin 32)
  | absorb (seg : Fin 4) (col : Fin 64) (chunk : BitVec 16)
  deriving DecidableEq, Repr

/-- The working vector of the unlay stage (R173, R185); owner none is empty. -/
structure WVec where
  vals : Vector Word 64
  owner : Option WOwner
  next : Nat
  poison : Bool
  deriving DecidableEq, Repr

/-- The state of a matrix station (R173). -/
structure Matrix where
  ta : Tile
  tb : Tile
  swap : Option (BitVec 16)
  acc : Vector (Vector AccRow 32) 4
  /-- The slots of u that are not zero, rising. -/
  u : List (Nat × Vec16)
  ufmt : Option (BitVec 4)
  udc : Nat
  /-- Poisoned slots of u, rising. -/
  upoison : List Nat
  w : WVec
  deriving DecidableEq, Repr

/-! ### Segment executions -/

/-- A store checked where it stands and not yet performed (R159), with the addresses it was translated from. -/
structure BufStore where
  units : List MUnit
  vas : List VaRef
  posted : Bool
  /-- The store orders as a release at a domain that no rule demotes (R318 row 5). -/
  rel : Bool
  sys : Bool
  portal : Bool
  /-- Its number among the accesses of the execution, and the token queues it waits on (R171). -/
  ix : Nat
  waits : List (Fin 16)
  deriving DecidableEq, Repr

/-- How a completed execution leaves (R146, R147). -/
inductive Exit where
  | none
  | port (p : Fin 4)
  | fork (p q : Fin 4)
  | drop
  | consumed
  deriving DecidableEq, Repr

/-- Where an execution stands. -/
inductive FrameSt where
  | running
  /-- Parked on the request named (R158). -/
  | parked (r : Nat)
  /-- Its reply has arrived; it goes on in the next free execution place (R203). -/
  | resumed
  /-- Parked until an ordering token lets its next access go (R171). -/
  | held
  /-- The terminator has run: the record waits to leave (R147). -/
  | leaving
  /-- The terminator has run: the record is parked until its accesses are acknowledged (R147, R158), and leaves by the
  next free execution place (R203). -/
  | acking
  /-- Faulted and restored, waiting for the exception register (R411): fault word and location word. -/
  | faulted (fw : Word)
  /-- Its access was dropped or its claim refused while it was parked: it faults with the kind, in the next free execution
  place (R168, R203, R409). -/
  | doomed (kind : Nat)
  deriving DecidableEq, Repr

/-- A segment execution (R46). Ports 0 to 3 are inputs; 4 is the exception register after a retry, 5 the handler. -/
structure Frame where
  id : Nat
  port : Fin 6
  orig : Rec
  r : Rec
  seg : Fin 4
  ip : Nat
  q : BitVec 4
  k : Vector Word 12
  kv : Vector Vec16 4
  mx : Option Matrix
  lfsr : Word
  st : FrameSt
  stores : List BufStore
  /-- Non-posted requests of this visit not yet acknowledged (R147). -/
  outst : List Nat
  /-- A number that rises with the order in which executions complete or fault (R147, R411). -/
  doneAt : Nat
  ties : List (Fin 16)
  /-- Skip control records to send at completion: page, fibre register, target (R302). -/
  skips : List (Pid × Fin 4 × Word)
  /-- Granules touched so far, accesses made so far, those that became requests by number, and what each otok.put
  covers: its queue, granules and accesses (R171). -/
  touched : List Nat
  nacc : Nat
  perf : List (Nat × Nat)
  puts : List (Fin 16 × List Nat × Nat)
  /-- Token queues a later access waits on (R171). -/
  waits : List (Fin 16)
  /-- An atomic, cas or stp has been performed (R421). -/
  atomDone : Bool
  exit : Exit
  /-- The location and fault words of a handler's run on a diverted record (R413), and whether that run fires again after
  flt.retry (R409). -/
  why : Option (Word × Word)
  refired : Bool
  deriving DecidableEq, Repr

/-- An entry of an ordering-token queue (R171): its execution, how many puts stand before it, its granules once known,
and the requests it covers. -/
structure TokEntry where
  id : Nat
  queue : Fin 16
  exec : Nat
  addrs : Option (List Nat)
  allAddrs : Bool
  reqs : List Nat
  deriving DecidableEq, Repr

/-! ### Stations -/

/-- Bank roles (R239). -/
inductive Role where
  | buf | fifo | cache | pres | line
  deriving DecidableEq, Repr

/-- Splice modes (R205). -/
inductive SMode where
  | seg | bcast | splitRr | splitHash | mergeArr | mergeRr | mergeSeq | bight
  deriving DecidableEq, Repr

/-- A bank (R232 to R249): its bytes, present words, claimed words with their claims, poisoned granules, the line
ring, the fifo queue, the window in age order and the presence wait list, by request. -/
structure Bank where
  role : Role
  dat : Mem
  pres : List Nat
  claims : List (Nat × Nat)
  poison : List Nat
  rowLen : Nat
  head : Nat
  fifo : List Rec
  window : List Nat
  /-- The entries of the window that are records of the bank itself (R235). -/
  records : List Nat
  deriving DecidableEq, Repr

/-- A splice (R205 to R210): mode, port list, word or hole option, turn bit, next list entry, expected tag, reorder
entries, bight occupancy. -/
structure Splice where
  mode : SMode
  ports : List (Fin 4)
  opt : Byte
  turn : Bool
  next : Nat
  e : BitVec 24
  reorder : List (Nat × Rec)
  occ : Nat
  deriving DecidableEq, Repr

/-- What a station is. -/
inductive Body where
  | compute
  | bank (b : Bank)
  | matrix (m : Matrix)
  | splice (s : Splice)
  deriving DecidableEq, Repr

/-- A segment: its words and its declared input format (R34, R46). -/
structure Seg where
  code : List DWord
  fmt : BitVec 4
  deriving DecidableEq, Repr

/-- A record in an exception register (R411): its state on arrival, its fault word and segment, whether it is held for
the kind-2 event with the tag (R414), or fires again after flt.retry (R409), and the location and fault words that the
handler's run on it had, where one faulted (R413). -/
structure ExcRec where
  r : Rec
  fw : Word
  loc : Word
  fromHandler : Bool
  held : Option (BitVec 16)
  refire : Bool
  why : Option (Word × Word)
  deriving DecidableEq, Repr

/-- A station of a resident lay (R49 to R53, R198, R389, R411). -/
structure Station where
  pid : Pid
  sid : Sid
  segs : Vector (Option Seg) 4
  cmap : Vector (Option (Fin 4)) 8
  k : Vector Word 12
  kv : Vector Vec16 4
  lfsr : Word
  /-- The seed that its configuration gives (R284). -/
  seed : Word
  lastPort : Fin 4
  ordered : BitVec 4
  /-- Stall counters out, full, busy, idle (R389). -/
  stall : Vector Word 4
  frames : List Frame
  toks : List TokEntry
  /-- Executions rolled back by a forced pre-emption and still to fire again: port and number (R421). -/
  again : List (Fin 6 × Nat)
  exc : Option ExcRec
  /-- The protected state has an uncorrectable error: it fires nothing more (R478). -/
  dead : Bool
  /-- It has adopted the successor configuration (R228). -/
  adopted : Bool
  body : Body
  deriving DecidableEq, Repr

/-- A link end (R200): page, station and port. A cleat sends from station 0x7e with its number as the port, the
exception network from 0x7f. -/
structure End where
  pid : Pid
  sid : Sid
  port : Nat
  deriving DecidableEq, Repr

/-- A link (R200 to R202): its slot count, free slots at the sender, the output register or the records on their way
with the hops they have made, the receiver's buffer, when its head became head, slot returns on their way. -/
structure Link where
  src : End
  dst : End
  slots : Nat
  free : Nat
  flight : List (Item × Nat)
  buf : List Item
  headAt : Nat
  back : Nat
  /-- Records in the buffer beyond its slots, put back by a forced pre-emption (R421): as many slots do not return. -/
  debt : Nat
  deriving DecidableEq, Repr

/-- A cleat (R217). -/
structure Cleat where
  pid : Pid
  num : Fin 16
  count : BitVec 24
  arrivals : BitVec 24
  gen : Byte
  released : Byte
  budget : Byte
  fired : Byte
  overrun : Bool
  done : Bool
  /-- Release link, by its place in the lay's links; none is seq. -/
  link : Option Nat
  /-- Generations completed and not yet released: g, f, the requests that must be performed (R324), and whether the
  release record is not queued (R220). -/
  waiting : List (Byte × Byte × List Nat × Bool)
  /-- Requests of the arrivals of the generation under way. -/
  reqs : List Nat
  /-- Arrivals of this fabric cycle, each with its requests: they are counted as it ends (R219, R291). -/
  arriving : List (List Nat)
  /-- Pending release records, oldest first (R220). -/
  pending : List (Byte × Byte)
  /-- It has adopted the successor configuration (R227). -/
  adopted : Bool
  deriving DecidableEq, Repr

/-! ### Reels -/

/-- Stream slot states (R426), with one before the stream begins (R294). -/
inductive StreamSt where
  | idle | starting | running | stopped | ended
  deriving DecidableEq, Repr

/-- Stream forms in the order of R258, fib standing for single and nested walks and for braids. -/
inductive SForm where
  | aff | gat | sca | fib | cmp | rq
  deriving DecidableEq, Repr

/-- A record that a write stream has accepted and may still have to write: its number in the stream, its address, the
record (R256). -/
structure MxRec where
  n : Nat
  addr : Nat
  r : Rec
  deriving DecidableEq, Repr

/-- A unit that an operation under way has read: address, bytes, whether poisoned. -/
structure SeenUnit where
  addr : Nat
  bytes : List Byte
  poison : Bool
  deriving DecidableEq, Repr

/-- A stream slot (R250 to R265, R420, R426). -/
structure Stream where
  st : StreamSt
  form : SForm
  /-- Descriptor as read (R251), 64 bytes. -/
  desc : List Byte
  /-- A fibre stream's register or registers: fb, fm, and whether it is a union. -/
  fb : Fin 4
  fm : BitVec 4
  union : Bool
  braid : Bool
  count : Nat
  offset : Nat
  blocks : Nat
  crc : Word
  zeros : Nat
  held : Option Rec
  heldIx : Nat
  /-- Scale of the mx8 block under way, once its first half is formed (R256). -/
  scale : Option Byte
  /-- The mx8 half 0 that waits for the record after it (R26). -/
  mate : Option MxRec
  /-- Records accepted into an mx memory format (R256): the scale of a block is formed once they hold all of it. -/
  blk : List MxRec
  /-- The units that the operation under way has read, in the order of its reads, how many of them its present turn has
  used, and how many units it has written (R312, R387). -/
  seen : List SeenUnit
  used : Nat
  wdone : Nat
  /-- An access of the operation under way has been issued (R296, R298). -/
  issued : Bool
  /-- reel.stop has come while an operation was under way: the stream ends with it (R296). -/
  stopping : Bool
  /-- A skip is being applied to one of its registers (R302). -/
  skipping : Bool
  /-- Registers of a fibre stream whose coordinate in hand came from poisoned memory (R257). -/
  dirty : BitVec 4
  /-- Length of a compressed extent once its header is read, and whether the header was poisoned (R260). -/
  ext : Option (Nat × Bool)
  poison : Bool
  /-- The last free slot of its output link went to an injected record (R151). -/
  lastInj : Bool
  /-- Parked under the event with the tag (R257). -/
  parked : Option (BitVec 16)
  /-- A barrier of sbar not yet passed (R298). -/
  barrier : Bool
  /-- Holding at its stop point (R420). -/
  hold : Bool
  /-- Completion record (R258), 16 bytes; none since lay.load. -/
  compl : Option (List Byte)
  /-- The reconfiguration record has been sent (R227). -/
  reconfSent : Bool
  /-- Requests of the starting thread that come before its first access (R294, R325). -/
  after : List Nat
  /-- How it ends once its last record has left: status, detail, fibre level (R258). -/
  ending : Option (Nat × Nat × Nat)
  deriving DecidableEq, Repr

/-- A fibre register (R267). -/
structure Fibre where
  crd : DWord
  pos : DWord
  val : DWord
  n : Word
  q : Word
  /-- Position and end; an end may be 2^32 (R268). -/
  p : Nat
  pe : Nat
  c : Word
  t : Word
  control : Byte
  flags : Byte
  format : Byte
  state : Byte
  trap : Byte
  trapPos : DWord
  deriving DecidableEq, Repr

/-- The reel of a page (R250, R267, R387). -/
structure Reel where
  cls : BitVec 3
  weights : Vector (Fin 4) 4
  streams : Vector Stream 4
  fibres : Vector Fibre 4
  ptr : Fin 4
  deficit : Vector Nat 4
  /-- The slot whose piece of memory is under way, and the cycle after the last operation (R387). -/
  mid : Option (Fin 4)
  opAt : Nat
  /-- Skip control records on their way: register, target, requests that come before (R302, R322). -/
  skips : List (Fin 4 × Word × List Nat)
  /-- It has adopted the successor configuration (R282). -/
  adopted : Bool
  deriving DecidableEq, Repr

/-! ### Lays -/

/-- A page of a lay: lay-relative place, grid place (R195, R383), reel. -/
structure Page where
  col : Int
  row : Int
  gcol : Nat
  grow : Nat
  reel : Reel
  deriving DecidableEq, Repr

/-- How a pass ended (R221). -/
inductive PassEnd where
  | complete | incomplete | aborted
  deriving DecidableEq, Repr

/-- An armed pass (R285): completion record address, cycle at arm, whether a wedge fault was raised, the group and its
rows where gmm armed it, the cycle of its pass.abort (R288, R289), how and when it has ended once its record is being
written (R290), and what its streams have met (R290 flags 1 and 3). -/
structure Pass where
  compl : DWord
  armedAt : Nat
  wedge : Bool
  gmm : Option (Nat × Nat)
  aborting : Option Nat
  ended : Option (PassEnd × Nat)
  poisonMet : Bool
  badEnd : Bool
  deriving DecidableEq, Repr

/-- The successor under lay.swap (R282). -/
structure Succ where
  image : DWord
  bytes : List Byte
  roleDone : Bool
  deriving DecidableEq, Repr

/-- A resident lay. -/
structure Lay where
  image : DWord
  digest : BitVec 256
  inter : Fin 4
  pages : List Page
  origin : Nat × Nat
  clones : List (Pid × Sid × Nat)
  stations : List Station
  links : List Link
  cleats : List Cleat
  binds : List (Pid × Fin 4)
  handler : Option (Pid × Sid)
  /-- The handler's exception buffer, oldest first (R411). -/
  excBuf : List ExcRec
  passNo : Word
  pass : Option Pass
  lastEnd : Option PassEnd
  wedged : Bool
  wedgeTimer : Nat
  /-- Zero sweeps found in a row (R223). -/
  sweeps : Nat
  /-- A counter has changed since the last sweep. -/
  moved : Bool
  /-- Bank zeroing under way (R239). -/
  zeroing : Bool
  /-- lay.load has not ended: the slot's residency has not begun (R2, R278). -/
  loading : Bool
  succ : Option Succ
  /-- Pages kept while the context is stopped (R418); given up otherwise. -/
  placed : Bool
  deriving DecidableEq, Repr

/-! ### Threads and contexts -/

/-- A loop entry (R308). -/
structure LoopEnt where
  active : Bool
  s : DWord
  e : DWord
  deriving DecidableEq, Repr

/-- Why a thread's instruction stands before it is performed (R380). -/
inductive Stand where
  /-- An earlier access of the thread is not yet performed (R318 row 7). -/
  | accesses
  /-- Its own access has units left (R330). -/
  | units
  /-- Another instruction at its lay slot comes first (R275). -/
  | slot
  /-- The lay of its slot is being replaced (R282). -/
  | swap
  /-- The other threads of the context have still to stop (R418). -/
  | yield
  deriving DecidableEq, Repr

/-- What a stalled thread waits for (R380). -/
inductive Wait where
  | none
  | stand (k : Stand)
  | layLoad (d : Spec) (l : LaySlot)
  /-- woken: the end kind of the pass, or 3 for a wedge fault, once one has come (R287). -/
  | passWait (d : Spec) (l : LaySlot) (woken : Option Nat)
  | passAbort (d : Spec) (l : LaySlot)
  | cleatWait (d : Spec) (l : LaySlot) (pg : Pid) (n : Fin 16) (b : Byte) (woken : Option Nat)
  | reelWait (d e : Spec) (l : LaySlot) (pg : Pid) (n : Fin 4)
  | sbar (d : Spec) (l : LaySlot) (pg : Pid) (mask : BitVec 4)
  | qwait (d : Spec) (cond : BitVec 4) (va b : DWord) (limit : Option Nat) (last : DWord)
  /-- The descriptor's address, the rows of the group, and how the group's pass ended once it has. -/
  | gmm (d : Spec) (l : LaySlot) (a : DWord) (n : Nat) (ended : Option Nat)
  | inject (d : Spec) (l : LaySlot) (pg : Pid) (n : Fin 4) (r : Rec)
  | spawn (d : Spec) (target : CtxId) (word : List Byte)
  | tlbInv (mark : Nat) (target : CtxId) (va len : DWord)
  | notify
  /-- A non-posted portal access awaits its reply (R160): request, destination if any. -/
  | portal (r : Nat) (d : Option Spec)
  | wfi (d : Spec) (limit : Option Nat) (causes : BitVec 8)
  /-- A fibre instruction parked under the event with the tag (R300); of a skip, the register and its target (R269). -/
  | fibre (tag : BitVec 16) (skip : Option (LaySlot × Pid × Fin 4 × Word))
  deriving DecidableEq, Repr

/-- A far access of a thread's instruction once it has been checked (R160): address, length, whether it writes, the
physical units still to be performed in ascending order, and what those performed have read (R330). -/
structure ThreadAcc where
  va : Nat
  len : Nat
  wr : Bool
  todo : List (Nat × Nat)
  got : List Byte
  bad : Bool
  deriving DecidableEq, Repr

/-- A sequencer thread (R58, R308, R415). -/
structure Thread where
  pc : DWord
  s : Vector DWord 32
  p : BitVec 8
  lc : Vector Word 4
  loops : Vector LoopEnt 4
  epc : DWord
  tcause : DWord
  tval : DWord
  inTrap : Bool
  halted : Bool
  wait : Wait
  /-- A fibre instruction's parked access was dropped (R300): its result reports 0x11. -/
  dropped : Bool
  /-- Its stalled instruction has ended in this fabric cycle: it is ready in the next (R380). -/
  woke : Bool
  /-- The instruction word under way and the fabric cycle in which it issued (R275). -/
  word : DWord
  issuedAt : Nat
  /-- The accesses of the instruction under way, each as it was checked when it issued (R160, R330), and the units that
  a level operation has read, in the order of its reads (R268). -/
  accs : List ThreadAcc
  seen : List SeenUnit
  /-- Fabric cycles spent ready since it last issued (R381). -/
  age : Nat
  /-- Thread position on the home die (R378). -/
  pos : Fin 16
  deriving DecidableEq, Repr

/-- What a fault event of a context asks for (R407, R408). -/
structure Event where
  kind : Fin 5
  tag : BitVec 16
  /-- It awaits flt.retry or flt.drop. -/
  waiting : Bool
  lay : LaySlot
  pid : Pid
  src : Byte
  sub : Byte
  cause : Byte
  access : Byte
  region : Nat
  reqs : Nat
  va : DWord
  fw : Word
  loc : Word
  r : Option Rec
  deriving DecidableEq, Repr

/-- States of a context (R364). -/
inductive CtxSt where
  | free | queued | running | stopped | ending
  deriving DecidableEq, Repr

/-- The registers of a launch port and those of a context that live from reset to reset (R367, R417, R431, R467). -/
structure Port where
  launch : Vector Byte 32
  /-- Launch words of triggers that the dispatcher has still to handle, oldest first, each with the fabric cycle of its
  write (R369). -/
  triggers : List (Nat × List Byte)
  hseq : Word
  dseq : Word
  lcode : Byte
  lseq : Word
  cbase : DWord
  cdepth : Byte
  spawn : DWord
  priv : DWord
  xmask : DWord
  intctl : DWord
  markid : Word
  ptroot : DWord
  fqbase : DWord
  fqdepth : Byte
  savepa : DWord
  savelen : DWord
  pdead : Word
  pstat : BitVec 3
  held : Bool
  drained : Word
  deriving DecidableEq, Repr

/-- How a context's teardown was asked for (R366, R372): kill, the writing thread and the value. -/
structure EndInfo where
  kill : Bool
  thread : Byte
  value : Word
  /-- The fabric cycle in which the context entered ending (R374). -/
  at_ : Nat
  deriving DecidableEq, Repr

/-- A forced pre-emption under way (R419): the request's cycle, hold, drain over. -/
structure Preempt where
  at_ : Nat
  hold : Bool
  drained : Bool
  deriving DecidableEq, Repr

/-- A completion record that notify has asked for (R448). -/
structure Notice where
  thread : Tid
  value : Word
  irq : Bool
  deriving DecidableEq, Repr

/-- Registers of a context as other units than its threads apply them: with the values of the start of the fabric cycle
(R440). -/
structure InForce where
  spawn : DWord
  cbase : DWord
  cdepth : Byte
  fqbase : DWord
  fqdepth : Byte
  fqtail : Word
  savepa : DWord
  savelen : DWord
  pdead : Word
  wlimit : Word
  wreport : DWord
  deriving DecidableEq, Repr

/-- One context number: its port and its context (R363). -/
structure Ctx where
  port : Port
  inForce : InForce
  st : CtxSt
  home : Die
  nthr : Nat
  prio : Fin 4
  prot : Bool
  entry : DWord
  argp : DWord
  hsn : Word
  kp : BitVec 128
  /-- In a priority queue since the cycle named (R376). -/
  queuedAt : Option Nat
  /-- The entry resumes a stopped context rather than starting a queued one. -/
  resumes : Bool
  fqhead : Word
  fqtail : Word
  tvec : DWord
  evthr : Byte
  wlimit : Word
  wreport : DWord
  nextTag : BitVec 16
  /-- Events raised and not yet written, oldest first (R408). -/
  heldEvents : List Event
  /-- Events that await service (R409), written or not. -/
  awaiting : List Event
  prq : Bool
  endInfo : Option EndInfo
  notices : List Notice
  preempt : Option Preempt
  /-- A yield with code 0 is being performed: the save area is being written, and no thread issues (R418). -/
  yielding : Bool
  threads : Vector Thread 8
  lays : Vector (Option Lay) 8
  deriving DecidableEq, Repr

/-! ### The device -/

/-- A structure that caches translations (R402). -/
inductive TlbUnit where
  | reel (c : CtxId) (l : LaySlot) (pg : Pid)
  | portal (n : Nat)
  | shared (d : Die) (row : Nat)
  | fetch (d : Die)
  deriving DecidableEq, Repr

/-- A cached translation of one 64 KiB region: the physical region, memory type, port and permissions. -/
structure TlbEnt where
  unit : TlbUnit
  ctx : CtxId
  region : Nat
  pa : Nat
  mt : Fin 3
  port : Fin 12
  r : Bool
  w : Bool
  x : Bool
  deriving DecidableEq, Repr

/-- A line held in a cache-role bank (R243, R244). -/
structure DirLine where
  line : Nat
  ctx : CtxId
  lay : LaySlot
  bank : Nat
  dirty : Bool
  deriving DecidableEq, Repr

/-- A mesh channel that is not as trained (R481): failures of the flit in hand, retrains in a row, retraining now,
failed. -/
structure ChanSt where
  ch : Chan
  fails : Nat
  retrains : Nat
  training : Bool
  failed : Bool
  deriving DecidableEq, Repr

/-- The fault log (R482): head, tail, lost, the last 63 entries as written by number. -/
structure FaultLog where
  head : Word
  tail : Word
  lost : Word
  entries : Vector (List Byte) 63
  deriving DecidableEq, Repr

/-- Page retirement and die service (R484 to R489). -/
structure Service where
  rstat : Byte
  /-- Physical pages whose retirement is under way, as die and page number, the one worked on first. -/
  retiring : List (Die × Nat)
  /-- Physical pages retired. -/
  retired : List (Die × Nat)
  dstat : Vector Byte 4
  /-- Spare pages in use: die, the position served, the spare's own page number. -/
  serving : List (Die × Nat × Nat)
  /-- Usable positions of a die (PAGEMAP). -/
  pagemap : Vector (BitVec 128) 4
  /-- A die whose images failed at bring-up and have not been loaded since: it counts no page (R501). -/
  unbooted : Vector Bool 4
  fwaddr : DWord
  /-- Where a die's firmware load under way reads its images. -/
  loadFrom : Vector DWord 4
  deriving DecidableEq, Repr

/-- Security, bring-up and power registers (R496). -/
structure Secure where
  bstat : Byte
  bringup : Byte
  /-- Digests of the images in force, by die and kind, and the lowest SVN of a die (R497). -/
  fwDigest : Vector (Vector (BitVec 256) 3) 4
  fwsvn : Vector Byte 4
  attaddr : DWord
  attstat : Byte
  /-- The context and the buffer of the report under way. -/
  attctx : CtxId
  attbuf : DWord
  layKey : Vector (Vector DWord 8) 4
  pxbase : DWord
  pxsize : DWord
  /-- The image address under verification, and the kernel in force, as its image bytes. -/
  markAddr : DWord
  markst : BitVec 2
  kernel : Option (List Byte)
  pwrcap : BitVec 16
  /-- The last 1 ms average of the module's power, in watts. -/
  watts : Nat
  pstate : Vector (BitVec 2) 4
  duty : Vector (BitVec 4) 4
  temp : Vector Byte 4
  tlimit : Byte
  tripped : Bool
  /-- Fabric cycles for which a die has been idle, and the module. -/
  idle : Vector Nat 4
  moduleIdle : Nat
  deriving DecidableEq, Repr

/-- Host port and peer ports (R466 to R477). -/
structure Links where
  hostcap : Byte
  xtimeout : Word
  hwbase : DWord
  pwbase : Vector DWord 12
  pwsize : Vector DWord 12
  trained : Vector Bool 12
  peerOps : Vector Byte 12
  peerUnit : Vector (BitVec 4) 12
  msixTable : Vector DWord 132
  msixPending : BitVec 66
  /-- The messages sent to the host (R468): vector, address, data. -/
  msgs : List (Nat × DWord × Word)
  /-- What the last access from outside returned: bytes, or an error. -/
  reply : Option (List Byte)
  deriving DecidableEq, Repr

/-- An access from outside under way (R476): its peer port, none for the host, the base of its window, the access, the
units still to be performed, what they have read, and whether a mark was met. -/
structure OutAcc where
  party : Option (Fin 12)
  base : Nat
  op : OutsideOp
  todo : List (Nat × Nat)
  got : List Byte
  bad : Bool
  deriving DecidableEq, Repr

/-- A record's request for a shared slot of a channel (R215): its link, and the fabric cycle in which it was made. -/
structure ChanAsk where
  ch : Chan
  ctx : CtxId
  lay : LaySlot
  link : Nat
  at_ : Nat
  deriving DecidableEq, Repr

/-- Memory upkeep (R478, R483, R486): corrected errors by DRAM row since reset, rows under repair with the address that
showed the error, spare rows used by bank, rows logged as beyond repair, the counts of corrected errors by page and
stack, and the errors that have struck and that the next read will find: in HBM by address, in banks by offset, with
whether the code cannot correct them. -/
structure Upkeep where
  rowErrs : List (Nat × Nat)
  repairing : List (Nat × Nat)
  spareUsed : List (Nat × Nat)
  hopeless : List Nat
  corrected : List (Nat × Nat)
  flaws : List (Nat × Bool)
  bankFlaws : List (Place × Nat × Bool)
  deriving DecidableEq, Repr

/-- A write of the device's own under way (R312): the event that makes it, a number among that event's writes, and the
units still to be performed, each an address of HBM, its bytes, and whether it is marked poisoned (R479). -/
structure DevJob where
  ev : Instr
  part : Nat
  todo : List (Nat × List Byte × Bool)
  deriving DecidableEq, Repr

/-- Who is executing: the device's own event, a thread, or a segment execution with its frame taken out of its
station. -/
inductive Actor where
  | device
  | thread (c : CtxId) (t : Tid)
  | station (p : Place) (f : Frame)
  deriving DecidableEq, Repr

/-- Whose turn it is. -/
inductive Turn where
  /-- A fabric cycle passes (R9). -/
  | tick
  /-- The second arithmetic cycle of the fabric cycle begins (R9). -/
  | half
  /-- The die's selector issues one instruction (R381). -/
  | issue (d : Die)
  /-- A thread's instruction that stands is performed, where nothing holds it back any more (R275, R380). -/
  | resume (c : CtxId) (t : Tid)
  /-- An execution runs its next instruction. -/
  | station (p : Place) (x : Nat)
  /-- A request takes its next step, and what it meets is as it should be (R315). -/
  | request (r : Nat)
  /-- The next unit of an access from outside is performed (R476). -/
  | outside (n : Nat)
  /-- The repair of a DRAM row ends (R486). -/
  | repaired (row : Nat)
  /-- The device's own event, or an input from outside. -/
  | event (e : Instr)
  /-- The host writes BAR0 at an offset, or reads n bytes of it (R465). -/
  | bar0Write (off : Nat) (bytes : List Byte)
  | bar0Read (off n : Nat)
  /-- The host writes its own memory. -/
  | hostWrite (addr : Nat) (bytes : List Byte)
  /-- A peer's memory changes. -/
  | peerWrite (n : Fin 12) (addr : Nat) (bytes : List Byte)
  /-- An error strikes a byte of HBM, or of a bank: one that the code corrects, or one that it cannot (R478). -/
  | flaw (addr : Nat) (bad : Bool)
  | bankFlaw (p : Place) (off : Nat) (bad : Bool)
  deriving DecidableEq, Repr

/-- The module. -/
structure State where
  /-- Fabric cycles since reset (R10). -/
  cyc : Nat
  /-- The second arithmetic cycle of the fabric cycle has begun (R9, R10). -/
  half : Bool
  qage : Word
  issage : BitVec 16
  /-- QAGE and ISSAGE as they are in force: those at the start of the fabric cycle (R440). -/
  qageNow : Word
  issageNow : BitVec 16
  /-- The place in the dispatcher's order of its last step in this fabric cycle; 0 where it has taken none (R374). -/
  dispatched : Nat
  ctxs : Vector Ctx 64
  hbm : Mem
  /-- Poisoned 32-byte units of HBM, rising (R479). -/
  hbmPoison : List Nat
  hostMem : Mem
  peerMem : Vector Mem 12
  dir : List DirLine
  reqs : List Req
  nextId : Nat
  tlb : List TlbEnt
  chans : List ChanSt
  /-- Requests for shared channel slots, oldest first, and the context that took the last one of a channel (R215). -/
  chanAsks : List ChanAsk
  chanTurn : List (Chan × CtxId)
  /-- Accesses from outside under way (R476), and the device's own writes (R312). -/
  outside : List OutAcc
  jobs : List DevJob
  /-- The position that last issued on each die, and whether it has issued in this cycle (R381). -/
  lastPos : Vector (Fin 16) 4
  issued : Vector Bool 4
  log : FaultLog
  service : Service
  secure : Secure
  links : Links
  upkeep : Upkeep
  cur : Actor
  sched : List Turn
  /-- Free values taken so far (Config.freeWord). -/
  free : Nat
  deriving DecidableEq, Repr

/-! ### Reset (R501): every register at the value the spec states; the others as log entry 1 names them. -/

/-- A header of zeros. -/
def Hdr.zero : Hdr := ⟨0, 0, 0, 0, 0, 0, 0, 0⟩

/-- A record of zeros. -/
def Rec.zero : Rec := ⟨Hdr.zero, vzero, []⟩

/-- A thread that no context has started (log entry 1). -/
def Thread.reset : Thread :=
  { pc := 0, s := Vector.replicate 32 0, p := 1, lc := Vector.replicate 4 0,
    loops := Vector.replicate 4 ⟨false, 0, 0⟩, epc := 0, tcause := 0, tval := 0, inTrap := false, halted := false,
    wait := .none, dropped := false, woke := false, word := 0, issuedAt := 0, accs := [], seen := [], age := 0, pos := 0 }

/-- A launch port at reset (R367, R417, R467). -/
def Port.reset : Port :=
  { launch := Vector.replicate 32 0, triggers := [], hseq := 0, dseq := 0, lcode := 0, lseq := 0, cbase := 0,
    cdepth := 0, spawn := 0, priv := 0, xmask := 0, intctl := 0, markid := 0, ptroot := 0, fqbase := 0,
    fqdepth := 0, savepa := 0, savelen := 0, pdead := 40000, pstat := 0, held := false, drained := 0 }

/-- The registers in force as reset leaves them. -/
def InForce.reset : InForce :=
  { spawn := 0, cbase := 0, cdepth := 0, fqbase := 0, fqdepth := 0, fqtail := 0, savepa := 0, savelen := 0, pdead := 40000,
    wlimit := 65536, wreport := 0 }

/-- A free context (R364); the registers that live for the context hold their values at start (R417, R444). -/
def Ctx.reset : Ctx :=
  { port := Port.reset, inForce := InForce.reset, st := .free, home := 0, nthr := 1, prio := 0, prot := false, entry := 0, argp := 0, hsn := 0,
    kp := 0, queuedAt := none, resumes := false, fqhead := 0, fqtail := 0, tvec := 0, evthr := 0xff, wlimit := 65536,
    wreport := 0, nextTag := 1, heldEvents := [], awaiting := [], prq := false, endInfo := none, notices := [],
    preempt := none, yielding := false, threads := Vector.replicate 8 Thread.reset, lays := Vector.replicate 8 none }

/-- The positions of a die's spare pages: the repair choice takes four of the 84 positions, one after the other (R5;
log entry 7). -/
def sparePositions (d : Die) : List Nat :=
  ((List.range 4).foldl (fun (acc : List Nat × List Nat) n =>
    let x := acc.2.getD (Config.repairChoice d n % acc.2.length) 0
    (x :: acc.1, acc.2.erase x)) ([], List.range 84)).1

/-- The bits of a list of positions. -/
def bitsAt (ps : List Nat) : Nat := ps.foldl (fun a p => a ||| 2 ^ p) 0

/-- PAGEMAP of a die when the module is made (R484). -/
def pagemapMade (d : Die) : BitVec 128 := BitVec.ofNat 128 (2 ^ 84 - 1 - bitsAt (sparePositions d))

/-- The MSI-X table as PCIe resets it: every vector masked, bit 0 of its control word (PRESUMED; log entry 72). -/
def msixMasked : Vector DWord 132 := Vector.ofFn fun i => if i.val % 2 = 1 then 0x100000000 else 0

/-- The module right after a module reset (R501): bring-up phase 1, no context, memories as log entry 3 says. -/
def State.reset : State :=
  { cyc := 0, half := false, qage := 0x100000, issage := 256, qageNow := 0x100000, issageNow := 256,
    dispatched := 0, ctxs := Vector.replicate 64 Ctx.reset, hbm := [], hbmPoison := [],
    hostMem := [], peerMem := Vector.replicate 12 [], dir := [], reqs := [], nextId := 0, tlb := [],
    chans := [], chanAsks := [], chanTurn := [], outside := [], jobs := [],
    lastPos := Vector.replicate 4 15, issued := Vector.replicate 4 false,
    log := { head := 0, tail := 0, lost := 0, entries := Vector.replicate 63 [] },
    service := { rstat := 0, retiring := [], retired := [], dstat := Vector.replicate 4 0,
                 serving := [], pagemap := Vector.ofFn pagemapMade,
                 unbooted := Vector.replicate 4 false, fwaddr := 0, loadFrom := Vector.replicate 4 0 },
    secure := { bstat := 1, bringup := 1, fwDigest := Vector.replicate 4 (Vector.replicate 3 0),
                fwsvn := Vector.replicate 4 0, attaddr := 0, attstat := 0, attctx := 0, attbuf := 0,
                layKey := Vector.replicate 4 (Vector.replicate 8 0), pxbase := 0, pxsize := 0, markAddr := 0,
                markst := 0, kernel := none, pwrcap := 3600, watts := 0, pstate := Vector.replicate 4 0,
                duty := Vector.replicate 4 0, temp := Vector.replicate 4 0, tlimit := 95, tripped := false,
                idle := Vector.replicate 4 0, moduleIdle := 0 },
    links := { hostcap := 0, xtimeout := 10000, hwbase := 0, pwbase := Vector.replicate 12 0,
               pwsize := Vector.replicate 12 0, trained := Vector.replicate 12 false,
               peerOps := Vector.replicate 12 0, peerUnit := Vector.replicate 12 0,
               msixTable := msixMasked, msixPending := 0, msgs := [], reply := none },
    upkeep := { rowErrs := [], repairing := [], spareUsed := [], hopeless := [], corrected := [], flaws := [], bankFlaws := [] },
    cur := .device, sched := [], free := 0 }

end Sys2Proof.Machine
end

