-- ==== Sys2Proof/Machine/Fresh.lean ====
section
/-!
DEFINITION. What a lay's parts hold when lay.load makes them (02 R2, 06 R173, 08 R239, 09 R278).
-/
namespace Sys2Proof.Machine

/-- An empty tile (R173). -/
def Tile.empty : Tile := ⟨Vector.replicate 64 vzero, Vector.replicate 64 0x7f, none, none, false⟩

/-- An accumulator row of zeros. -/
def AccRow.zero : AccRow := ⟨Vector.replicate 64 0, 0, false, 0⟩

/-- An empty working vector. -/
def WVec.empty : WVec := ⟨Vector.replicate 64 0, none, 0, false⟩

/-- The matrix state that lay.load gives (R173). -/
def Matrix.initial : Matrix :=
  ⟨Tile.empty, Tile.empty, none, Vector.replicate 4 (Vector.replicate 32 AccRow.zero), [], none, 0, [], WVec.empty⟩

/-- A bank that lay.load gives (R239). -/
def Bank.fresh (role : Role) (rowLen : Nat) : Bank := ⟨role, [], [], [], [], rowLen, 0, [], [], []⟩

/-- A splice that lay.load gives. -/
def Splice.fresh (m : SMode) (ps : List (Fin 4)) (opt : Byte) : Splice := ⟨m, ps, opt, false, 0, 0, [], 0⟩

/-- A station without segments. Its cyclic scan of ports (R174) begins at i0: no rule says where it begins before the
first record (DESIGN CHOICE, log entry 61). -/
def Station.fresh (pid : Pid) (sid : Sid) (b : Body) : Station :=
  { pid := pid, sid := sid, segs := Vector.replicate 4 none, cmap := Vector.replicate 8 none,
    k := Vector.replicate 12 0, kv := Vector.replicate 4 vzero, lfsr := 1, seed := 1, lastPort := 3, ordered := 0,
    stall := Vector.replicate 4 0, frames := [], toks := [], again := [], exc := none, dead := false, adopted := true, body := b }

/-- An idle stream slot. -/
def Stream.fresh : Stream :=
  { st := .idle, form := .aff, desc := [], fb := 0, fm := 0, union := false, braid := false, count := 0, offset := 0,
    blocks := 0, crc := 0, zeros := 0, held := none, heldIx := 0, scale := none, mate := none, blk := [], seen := [], used := 0, wdone := 0, issued := false, stopping := false, skipping := false,
    dirty := 0, ext := none, poison := false, lastInj := false,
    parked := none,
    barrier := false, hold := false, compl := none, reconfSent := false, after := [], ending := none }

/-- A closed fibre register. -/
def Fibre.closed : Fibre := ⟨0, 0, 0, 0, 0, 0, 0, 0, 0, 0, 0, 0, 0, 0, 0⟩

/-- A reel that lay.load gives. -/
def Reel.fresh (cls : BitVec 3) (ws : Vector (Fin 4) 4) : Reel :=
  ⟨cls, ws, Vector.replicate 4 Stream.fresh, Vector.replicate 4 Fibre.closed, 0, Vector.replicate 4 0, none, 0, [], true⟩

/-- A lay without stations, links or cleats. -/
def Lay.fresh (image : DWord) (inter : Fin 4) (pages : List Page) : Lay :=
  { image := image, digest := 0, inter := inter, pages := pages, origin := (0, 0), clones := [], stations := [],
    links := [], cleats := [], binds := [], handler := none, excBuf := [], passNo := 0, pass := none, lastEnd := none,
    wedged := false, wedgeTimer := 0, sweeps := 0, moved := false, zeroing := false,
    loading := false, succ := none, placed := true }

end Sys2Proof.Machine
end

