-- ==== Sys2Proof/Machine/Legal.lean ====
section
/-!
DEFINITION. Which words are valid where (03 R64 to R95, and the entries of 04, 05, 06, 09 and 15): the defects of an
instruction at a place, each by its load-fault cause code. A sequencer word with a defect traps when it issues; a
segment word makes lay.load refuse its lay.
-/
namespace Sys2Proof.Machine

/-- Where an instruction may run (R82): sequencer code, or a station by its kind. -/
inductive Site where
  | seq | compute | bank | matrix | splice
  deriving DecidableEq, Repr

/-- A defect of cause c where the condition holds. -/
def bad (c : Nat) (b : Bool) : List Nat := if b then [c] else []

/-- Whether a site has the operand that a specifier reads (R51, R56, R59). -/
def srcOk (k : Site) (s : Spec) : Bool :=
  let n := s.toNat
  match k with
  | .seq => n < 0x2a || 0x30 ≤ n
  | .compute => true
  | .bank => !(0x1c ≤ n && n < 0x20) && n != 0x2e
  | .matrix => !(0x10 ≤ n && n < 0x20)
  | .splice => !(0x10 ≤ n && n < 0x20) && n != 0x2e

/-- Whether a specifier may be written (R56, R59, R62). -/
def dstOk (k : Site) (s : Spec) : Bool :=
  let n := s.toNat
  match k with
  | .seq => n < 0x20 || (0x24 ≤ n && n ≤ 0x28)
  | _ => n < 0x20 && srcOk k s

/-- Whether a specifier names a payload word. -/
def isF (s : Spec) : Bool := s.toNat < 16
/-- Whether a specifier names a station scalar. -/
def isK (s : Spec) : Bool := 16 ≤ s.toNat && s.toNat < 28
/-- Whether a specifier names a station vector. -/
def isKv (s : Spec) : Bool := 28 ≤ s.toNat && s.toNat < 32

/-- Whether a source stands at a multiple of its group of n words and ends within its registers (R55, R113). -/
def srcAligned (n : Nat) (s : Spec) : Bool := !isF s || (s.toNat % n == 0 && s.toNat + n ≤ 16)

/-- Whether a destination stands at a multiple of its group of n words and ends within its registers (R55; log entry
10 for a k destination). -/
def dstAligned (n : Nat) (s : Spec) : Bool :=
  srcAligned n s && (!isK s || ((s.toNat - 16) % n == 0 && s.toNat + n ≤ 28))

/-- The pair rule of R153: fj with j even and at most 14, or k0, k2, ..., k10. -/
def pairOk (s : Spec) : Bool := s.toNat % 2 == 0 && (s.toNat ≤ 14 || (isK s && s.toNat ≤ 26))

/-- The pair rule of R138 and R143 that admits payload words only. -/
def fPairOk (s : Spec) : Bool := s.toNat % 2 == 0 && s.toNat ≤ 14

/-- A source operand in a group of n words. -/
def srcBad (k : Site) (n : Nat) (s : Spec) : List Nat := bad 5 (!(srcOk k s) || (k != .seq && !srcAligned n s))

/-- A destination in a group of n words. -/
def dstBad (k : Site) (n : Nat) (s : Spec) : List Nat := bad 5 (!(dstOk k s) || (k != .seq && !dstAligned n s))

/-- The predicate fields of R68 and R69. -/
def predBad (k : Site) (pe : Bool) (pi : BitVec 3) (pn : Bool) : List Nat :=
  bad 2 (!pe && (pi != 0 || pn)) ++ bad 3 (k != .seq && pe && 3 < pi.toNat)

/-- Element bits of a type code that a lane instruction may name (R17). -/
def tyBits (t : BitVec 4) : Nat := fmtBits (fmtOf t)

/-- The w code that agrees with a type (R67). -/
def tyW (t : BitVec 4) : Nat :=
  match tyBits t with
  | 32 => 2
  | 16 => 1
  | _ => 0

/-- The register codes of a group of n words at s: a vector is one register. -/
def groupEnd (n : Nat) (s : Spec) : Nat := if isKv s then s.toNat + 1 else s.toNat + n

/-- Whether the groups of n words at s and m words at t share a register (R138, R144). -/
def groupsMeet (n : Nat) (s : Spec) (m : Nat) (t : Spec) : Bool := s.toNat < groupEnd m t && t.toNat < groupEnd n s

/-! ### Format L -/

/-- The common defects of a format L word: ub says whether b is read, cu whether field c is used, cm whether it is a
compare, modOk whether the modifier is defined (R67, R69, R112). -/
def lCommon (k : Site) (o : LForm) (ub cu cm modOk : Bool) : List Nat :=
  predBad k o.pe o.pi o.pn
    ++ bad 2 (!ub && o.b != 0) ++ bad 2 (!cu && o.c != 0)
    ++ bad 2 (!cm && (o.qw || o.qd != 0)) ++ bad 2 (cm && !o.qw && o.qd != 0)
    ++ bad 3 (cm && o.qw && k != .seq && 3 < o.qd.toNat)
    ++ bad 3 (!modOk) ++ bad 3 (4 < o.g.toNat)
    ++ bad 3 (k == .seq && (o.w != 3 || o.g != 0 || o.ty != 0))
    ++ bad 5 (k != .seq && o.w == 3 && o.g == 0)

/-- An integer or lane instruction whose named operands all stand in groups of g words: the widths ws, the modifiers
ms (R112, R115, R141). -/
def lLane (k : Site) (o : LForm) (ub uc cm : Bool) (ws ms : List Nat) : List Nat :=
  let n := gWords o.g
  lCommon k o ub uc cm (ms.contains o.mod.toNat)
    ++ bad 3 (o.ty != 0) ++ bad 3 (!(ws.contains o.w.toNat))
    ++ dstBad k n o.d ++ srcBad k n o.a
    ++ (if ub then srcBad k n o.b else []) ++ (if uc then srcBad k n o.c else [])

/-- Every lane width of R115. -/
def allW : List Nat := [0, 1, 2, 3]

/-- The modifiers of an instruction that rounds (R29, R81): a mode 0 to 4, with or without .sat. -/
def rndMods : List Nat := [0, 1, 2, 3, 4, 8, 9, 10, 11, 12]

/-- The condition modifiers of cmp (R118). -/
def cmpMods : List Nat := [0, 1, 2, 3, 4, 5, 8, 9, 10, 11, 12, 13]

/-- The types of the elementwise float instructions (R126). -/
def f3Types : List Nat := [1, 2, 3]
/-- The types of fcvt and fdot (R131, R137). -/
def f6Types : List Nat := [1, 2, 3, 4, 5, 7]
/-- The integer types (R132). -/
def intTypes : List Nat := [8, 9, 10, 11]

/-- The type field of a float instruction (R67, R112). -/
def tyBad (o : LForm) (tys : List Nat) : List Nat :=
  bad 3 (!(tys.contains o.ty.toNat)) ++ bad 3 (tys.contains o.ty.toNat && o.w.toNat != tyW o.ty)

/-- An elementwise float instruction (R126 to R130). -/
def lFloat (k : Site) (o : LForm) (ub uc cm : Bool) (ms : List Nat) : List Nat :=
  let n := gWords o.g
  lCommon k o ub uc cm (ms.contains o.mod.toNat) ++ tyBad o f3Types
    ++ dstBad k n o.d ++ srcBad k n o.a
    ++ (if ub then srcBad k n o.b else []) ++ (if uc then srcBad k n o.c else [])

/-- The words a width-changing source spans (R113): g times the source bits over the destination bits. -/
def cvtWords (g sb db : Nat) : Nat := g * sb / db

/-- A width-changing instruction (R113): source types in c[29:26], destination bits db; a scalar b where ub. -/
def lCvt (k : Site) (o : LForm) (ub : Bool) (srcs ms : List Nat) (db : Nat) : List Nat :=
  let src := o.c.toNat % 16
  let known := srcs.contains src
  let sb := tyBits (BitVec.ofNat 4 src)
  let gs := cvtWords (gWords o.g) sb db
  let fits := gWords o.g * sb % db == 0 && 1 ≤ gs && gs ≤ 16
  lCommon k o ub true false (ms.contains o.mod.toNat)
    ++ bad 2 (16 ≤ o.c.toNat) ++ bad 3 (!known) ++ bad 3 (k != .seq && known && !fits)
    ++ dstBad k (gWords o.g) o.d
    ++ bad 5 (!(srcOk k o.a)) ++ bad 5 (k != .seq && known && fits && !srcAligned gs o.a)
    ++ (if ub then srcBad k 1 o.b else [])

/-- Element bits of the destination of a conversion to a type. -/
def dstBits (o : LForm) : Nat := if tyBits o.ty = 4 then 4 else wBits o.w

/-- Format L instructions (04 R115 to R139, 05 R141 to R144). none where the instruction is not in format L. Operand a of
movw.ins is one word, so any fj may stand there: R144 says both 'the value of a' and that a group a supplies its word 0
(DESIGN CHOICE, log entry 74). -/
def lDefects (k : Site) : Instr → Option (List Nat)
  | .add o | .sub o | .mul o => some (lLane k o true false false allW [0, 1, 2])
  | .mulh o | .div o | .rem o | .min o | .max o => some (lLane k o true false false allW [0, 1])
  | .mad o | .sel o | .bfi o => some (lLane k o true true false allW [0])
  | .addc o | .bfx o => some (lLane k o true true false allW [0, 1])
  | .and o | .or o | .xor o | .andn o | .shl o | .shr o | .sar o | .rol o | .ror o =>
    some (lLane k o true false false allW [0])
  | .not o | .clz o | .ctz o | .popc o | .brev o | .abs o | .neg o | .mov o =>
    some (lLane k o false false false allW [0])
  | .cmp o => some (lLane k o true false true allW cmpMods)
  | .lea o => some (lLane k o true false false [2, 3] [0, 1, 2, 3, 4])
  | .byteperm o => some (lLane k o true true false [2, 3] [0])
  | .hash o => some (lLane k o true false false [2, 3] [0, 1, 2, 4, 6])
  | .cvti o => some (lCvt k o false intTypes [0, 1, 2, 3] (wBits o.w) ++ bad 3 (o.ty != 0))
  | .fadd o | .fsub o | .fmul o | .fscale o => some (lFloat k o true false false rndMods)
  | .fma o | .fnma o => some (lFloat k o true true false rndMods)
  | .frnd o | .frcp o | .frsq o | .fsqrt o | .fexp2 o | .flog2 o | .ftanh o =>
    some (lFloat k o false false false rndMods)
  | .fmin o | .fmax o => some (lFloat k o true false false [0])
  | .fabs o | .fneg o => some (lFloat k o false false false [0])
  | .fcmp o => some (lFloat k o true false true [0, 1, 2, 3, 4, 5, 6, 7])
  | .fcvt o => some (lCvt k o false f6Types rndMods (dstBits o) ++ tyBad o f6Types)
  | .i2f o => some (lCvt k o false intTypes rndMods (dstBits o) ++ tyBad o f3Types)
  | .f2i o => some (lCvt k o false f6Types rndMods (dstBits o) ++ tyBad o intTypes)
  | .fqnt o =>
    if o.ty = 0 then
      some (lCommon k o true true false (o.mod == 0)
        ++ bad 2 (o.a != 0 || 16 ≤ o.c.toNat) ++ bad 3 (!([4, 7].contains (o.c.toNat % 16)))
        ++ bad 3 (o.w != 2 || o.g != 0) ++ dstBad k 1 o.d ++ srcBad k 1 o.b)
    else some (lCvt k o true f3Types rndMods (dstBits o) ++ tyBad o [4, 7])
  | .fdq o => some (lCvt k o true [12, 13] rndMods (dstBits o) ++ tyBad o f3Types)
  | .fred o =>
    some (lCommon k o false true false (rndMods.contains o.mod.toNat) ++ tyBad o f3Types
      ++ bad 2 (4 ≤ o.c.toNat) ++ bad 3 (2 ≤ o.c.toNat % 4) ++ bad 3 (o.c.toNat % 4 == 1 && o.mod != 0)
      ++ bad 3 (32 * gWords o.g / wBits o.w < 2)
      ++ dstBad k 1 o.d ++ bad 5 (isKv o.d) ++ srcBad k (gWords o.g) o.a)
  | .fdot o =>
    some (lCommon k o true true false (rndMods.contains o.mod.toNat) ++ tyBad o f6Types
      ++ dstBad k 1 o.d ++ bad 5 (isKv o.d)
      ++ srcBad k (gWords o.g) o.a ++ srcBad k (gWords o.g) o.b ++ srcBad k 1 o.c)
  | .smxUpd o =>
    some (lCommon k o true true false (rndMods.contains o.mod.toNat) ++ tyBad o [1] ++ bad 3 (o.g == 4)
      ++ dstBad k (gWords o.g) o.d ++ bad 5 (!(fPairOk o.a)) ++ bad 5 (groupsMeet (gWords o.g) o.d 2 o.a)
      ++ srcBad k (gWords o.g) o.b ++ srcBad k 1 o.c)
  | .smxMerge o =>
    some (lCommon k o true true false (rndMods.contains o.mod.toNat) ++ tyBad o [1] ++ bad 3 (o.g == 4)
      ++ dstBad k (gWords o.g) o.d ++ bad 5 (!(fPairOk o.a)) ++ bad 5 (groupsMeet (gWords o.g) o.d 2 o.a)
      ++ srcBad k (gWords o.g) o.b ++ bad 5 (!(fPairOk o.c)) ++ bad 5 (groupsMeet (gWords o.g) o.d 2 o.c))
  | .perm o => some (lLane k o true (o.mod == 1) false allW [0, 1])
  | .shuf o | .bcast o | .cmpr o => some (lLane k o true false false allW [0])
  | .rot o | .expd o => some (lLane k o true false false allW [0, 1])
  | .zip o | .unzip o =>
    some (lLane k o true false false allW [0, 1] ++ bad 3 (32 * gWords o.g / wBits o.w < 2))
  | .pack o => some (lLane k o true false false [1, 2, 3] [0, 1, 2])
  | .unpack o => some (lLane k o false false false [1, 2, 3] [0, 1, 2, 3])
  | .lmask o =>
    some (lCommon k o false false false (o.mod == 0) ++ bad 3 (o.ty != 0)
      ++ bad 5 (!(fPairOk o.d)) ++ srcBad k (gWords o.g) o.a)
  | .lsel o =>
    some (lCommon k o true true false (o.mod == 0) ++ bad 3 (o.ty != 0)
      ++ dstBad k (gWords o.g) o.d ++ srcBad k (gWords o.g) o.a ++ srcBad k (gWords o.g) o.b
      ++ bad 5 (!(pairOk o.c || o.c == 0x28 || o.c == 0x2f)))
  | .movw o =>
    some (lCommon k o true false false (o.mod.toNat ≤ 1) ++ bad 3 (o.ty != 0 || o.w != 2)
      ++ dstBad k (if o.mod = 1 then gWords o.g else 1) o.d
      ++ srcBad k (if o.mod = 1 then 1 else gWords o.g) o.a ++ srcBad k (gWords o.g) o.b)
  | .swap o =>
    some (lCommon k o false false false (o.mod == 0) ++ bad 3 (o.ty != 0 || o.w != 2)
      ++ dstBad k (gWords o.g) o.d ++ dstBad k (gWords o.g) o.a
      ++ bad 5 (groupsMeet (gWords o.g) o.d (gWords o.g) o.a))
  | _ => none

/-! ### Format I (R70, R119) -/

/-- An immediate instruction; ua says whether field a is used. -/
def iBad (k : Site) (o : IForm) (ua : Bool) (ms : List Nat) : List Nat :=
  let n := gWords o.g
  bad 2 (!ua && o.a != 0) ++ bad 3 (!(ms.contains o.mod.toNat)) ++ bad 3 (4 < o.g.toNat)
    ++ bad 3 (k == .seq && (o.w != 3 || o.g != 0)) ++ bad 5 (k != .seq && o.w == 3 && o.g == 0)
    ++ dstBad k n o.d ++ (if ua then srcBad k n o.a else [])

/-- Format I instructions. -/
def iDefects (k : Site) : Instr → Option (List Nat)
  | .addImm o => some (iBad k o true [0, 1, 2])
  | .andImm o | .orImm o | .xorImm o | .shlImm o | .shrImm o | .sarImm o => some (iBad k o true [0])
  | .cmpImm o => some (iBad k o true cmpMods)
  | .movi o => some (iBad k o false [0])
  | _ => none

/-! ### Format K (R74, R145 to R150) -/

/-- A record-control instruction: whether it names pt and pf, the greatest immediate of its value operand (none where
it takes no value), and the cause of a larger immediate. -/
def kBad (k : Site) (o : KForm) (ut uf : Bool) (top : Option Nat) (topCause : Nat) : List Nat :=
  predBad k o.pe o.pi o.pn ++ bad 3 (o.mod != 0)
    ++ bad 2 (!ut && o.pt != 0) ++ bad 2 (!uf && o.pf != 0)
    ++ bad 3 (ut && 3 < o.pt.toNat) ++ bad 3 (uf && 3 < o.pf.toNat) ++ bad 3 (ut && uf && o.pt == o.pf)
    ++ (match top with
        | none => bad 2 (o.ia || o.a != 0 || o.imm != 0)
        | some m =>
          if o.ia then bad 2 (o.a != 0) ++ bad topCause (m < o.imm.toNat)
          else bad 2 (o.imm != 0) ++ bad 5 (!(srcOk k o.a)))

/-- Format K instructions. A terminator may not be predicated (R145). -/
def kDefects (k : Site) : Instr → Option (List Nat)
  | .emit o | .bight o => some (kBad k o true false none 3 ++ bad 3 o.pe)
  | .fork o => some (kBad k o true true none 3 ++ bad 3 o.pe)
  | .drop o => some (kBad k o false false none 3 ++ bad 3 o.pe)
  | .steer o => some (kBad k o true true (some 7) 2 ++ bad 3 o.pe)
  | .tag o => some (kBad k o false false (some 0xffffff) 3)
  | .setcls o => some (kBad k o false false (some 7) 3)
  | .setlen o => some (kBad k o false false (some 16) 3)
  | .setfmt o => some (kBad k o false false (some 15) 3)
  | .setck o | .setscale o => some (kBad k o false false (some 255) 3)
  | .raise o => some (kBad k o false false (some 0xffff) 2)
  | .nop o => some (kBad k o false false none 3)
  | _ => none

/-! ### Format M (R71 to R73, R152 to R171) -/

/-- Bytes of an access size (R154). -/
def szBytes (z : BitVec 3) : Nat :=
  match z.toNat with
  | 5 => 1 | 6 => 2 | 7 => 8 | n => 4 * 2 ^ n

/-- Words of a data group (R154). -/
def szWords (z : BitVec 3) : Nat := (szBytes z + 3) / 4

/-- The defects all accesses share: the semantics allowed, the fields used, the space and size rules of R73. -/
def mCommon (o : MForm) (ud ua ub uaop : Bool) (sems : List Nat) : List Nat :=
  bad 2 (!ud && o.d != 0) ++ bad 2 (!ua && o.a != 0) ++ bad 2 (!ub && o.b != 0) ++ bad 2 (!uaop && o.aop != 0)
    ++ bad 3 (!(sems.contains (o.mod.toNat % 8))) ++ bad 3 (4 < o.scope.toNat)

/-- The space and size rules of R73 and the base operand of R153: in sequencer code an s register or a special, so no
small constant. -/
def mSpace (k : Site) (o : MForm) : List Nat :=
  bad 3 (o.sp == 3) ++ bad 3 (k == .bank && o.sp != 0) ++ bad 3 (k == .compute && o.sz == 7)
    ++ bad 3 (k == .seq && (o.sp == 0 || !([0, 5, 6, 7].contains o.sz.toNat)))
    ++ bad 5 (!(srcOk k o.a) || (k == .seq && 0x30 ≤ o.a.toNat)) ++ bad 5 (k != .seq && o.sp != 0 && !pairOk o.a)

/-- A loaded destination of n words (R154): a payload group, a k register for one word, or a kv register. -/
def mDst (k : Site) (n : Nat) (s : Spec) : List Nat :=
  if k = .seq then bad 5 (31 < s.toNat)
  else bad 5 (!(dstOk k s) || !(srcAligned n s) || (isK s && n != 1))

/-- Store data of n words (R154): a group, or a scalar of R57; lane (0x29) and rnd (0x2e) are neither. -/
def mData (k : Site) (n : Nat) (s : Spec) : List Nat :=
  if k = .seq then bad 5 (31 < s.toNat)
  else bad 5 (!(srcOk k s) || !(srcAligned n s) || s == 0x29 || s == 0x2e)

/-- The sizes of atomics (R164): fl for atomf, cs for cas. -/
def atomSize (k : Site) (o : MForm) (fl cs : Bool) : List Nat :=
  let z := o.sz.toNat
  bad 3 (!(z == 0 || (z == 1 && k != .seq && !fl) || (z == 7 && k == .seq && !fl)
    || (2 ≤ z && z ≤ 4 && k != .seq && !cs && o.sp == 0)))

/-- The data operands of an atomic: pairs for a 64-bit operation in a station (R164). -/
def atomData (k : Site) (o : MForm) (s : Spec) (dest : Bool) : List Nat :=
  if k != .seq && o.sz == 1 then bad 5 (!(pairOk s) || !(srcOk k s))
  else if dest then mDst k (szWords o.sz) s else mData k (szWords o.sz) s

/-- Format M instructions. Bit 53 is a reserved bit of all but atom and atomf (R71, cause 0x02). A fence takes the four
semantics of its row in R152, .ar among them, though R72 lists .ar on a fence as reserved: row 5 of R318 gives fence.ar
its order (DESIGN CHOICE, log entry 57). -/
def mDefects (k : Site) : Instr → Option (List Nat)
  | .ld o => some (mCommon o true true false false [0, 1, 4] ++ bad 2 (8 ≤ o.mod.toNat) ++ mSpace k o
      ++ mDst k (szWords o.sz) o.d)
  | .st o => some (mCommon o false true true false [0, 2, 4] ++ bad 2 (8 ≤ o.mod.toNat) ++ mSpace k o
      ++ mData k (szWords o.sz) o.b)
  | .ldx o => some (mCommon o true true true false [0, 1, 4] ++ bad 2 (8 ≤ o.mod.toNat) ++ mSpace k o
      ++ bad 3 (4 < o.sz.toNat) ++ mDst k (szWords o.sz) o.d ++ mData k (szWords o.sz) o.b)
  | .stx o => some (mCommon o true true true false [0, 2, 4] ++ bad 2 (8 ≤ o.mod.toNat) ++ mSpace k o
      ++ bad 3 (4 < o.sz.toNat) ++ mData k (szWords o.sz) o.d ++ mData k (szWords o.sz) o.b)
  | .atom o => some (mCommon o (o.mod.toNat < 8) true true true [0, 1, 2, 3, 4] ++ mSpace k o
      ++ bad 3 (8 < o.aop.toNat) ++ atomSize k o false false
      ++ (if o.mod.toNat < 8 then atomData k o o.d true else []) ++ atomData k o o.b false)
  | .atomf o => some (mCommon o (o.mod.toNat < 8) true true true [0, 1, 2, 3, 4] ++ mSpace k o
      ++ bad 3 (4 < o.aop.toNat) ++ bad 3 (o.sp == 2) ++ atomSize k o true false
      ++ (if o.mod.toNat < 8 then atomData k o o.d true else []) ++ atomData k o o.b false)
  | .cas o => some (mCommon o true true true false [0, 1, 2, 3, 4] ++ bad 2 (8 ≤ o.mod.toNat) ++ mSpace k o
      ++ atomSize k o false true ++ atomData k o o.d true ++ atomData k o o.b false)
  | .ldp o => some (mCommon o true true false false [0, 1] ++ bad 2 (8 ≤ o.mod.toNat) ++ mSpace k o
      ++ bad 3 (o.sp != 0 || 4 < o.sz.toNat) ++ mDst k (szWords o.sz) o.d)
  | .stp o => some (mCommon o false true true false [0, 2] ++ bad 2 (8 ≤ o.mod.toNat) ++ mSpace k o
      ++ bad 3 (o.sp != 0 || 4 < o.sz.toNat) ++ mData k (szWords o.sz) o.b)
  | .fence o => some (mCommon o false false false false [1, 2, 3, 4] ++ bad 2 (8 ≤ o.mod.toNat)
      ++ bad 2 (o.sp != 0 || o.sz != 0 || o.disp != 0))
  | .prf o => some (mCommon o false true false false [0] ++ bad 2 (8 ≤ o.mod.toNat) ++ mSpace k o
      ++ bad 3 (o.sp != 1 || o.scope != 3))
  | .otokPut o => some (mCommon o false false false false [0] ++ bad 2 (8 ≤ o.mod.toNat)
      ++ bad 2 (o.sp != 0 || o.sz != 0 || 16 ≤ o.disp.toNat))
  | .otokWait o => some (mCommon o false false false false [0] ++ bad 2 (8 ≤ o.mod.toNat)
      ++ bad 2 (o.sp != 0 || o.sz != 0 || 16 ≤ o.disp.toNat) ++ bad 3 (o.scope != 0))
  | _ => none

/-! ### Format X (R176 to R178) -/

/-- ne of R176: elements of a 64-byte string, 0 for a format the matrix station does not use. -/
def xNe (t : BitVec 4) : Nat :=
  match t.toNat with
  | 2 | 3 => 32
  | 4 | 5 | 12 => 64
  | 7 | 13 => 128
  | _ => 0

/-- The four types an unlay operand may have (R176). -/
def xUnlay (t : BitVec 4) : Bool := [2, 3, 4, 5].contains t.toNat

/-- Whether mma implements a type combination (R176). -/
def mmaTypes (um : Nat) (a b : BitVec 4) : Bool :=
  let same := a == b
  let f8 := [4, 5].contains a.toNat && [4, 5].contains b.toNat
  match um with
  | 0 => f8 || (same && [2, 3, 7, 12, 13].contains a.toNat)
  | 2 => f8 || (same && [2, 3].contains a.toNat)
  | _ => xUnlay a && xUnlay b

/-- Whether tld implements a type combination (R176). -/
def tldTypes (um : Nat) (a b : BitVec 4) : Bool :=
  if um = 0 then a == b && xNe b != 0 else xUnlay a && xUnlay b

/-- The modifier of a matrix instruction (R178): rounding where it says so. -/
def xMod (o : XForm) (rnd : Bool) : List Nat := bad 3 (!((if rnd then rndMods else [0]).contains o.mod.toNat))

/-- The defects of n16 in mma and tld (R178): unused under none; the limits of absorb and expand, whose nk a B type that
no row of R176 has does not give. -/
def xLimit (o : XForm) : List Nat :=
  let n := o.n16.toNat
  let nk := xNe o.bty
  match o.um.toNat with
  | 0 => bad 2 (n != 0)
  | 1 => bad 3 (nk != 0 && !(n % nk == 0 && n + nk ≤ 128))
  | 2 => bad 3 (nk != 0 && !(n * nk + nk ≤ 512))
  | _ => []

/-- Unused fields of a matrix instruction (R178). -/
def xUnused (o : XForm) (ua ub uc uacc : Bool) : List Nat :=
  bad 2 (!ua && o.aty != 0) ++ bad 2 (!ub && o.bty != 0) ++ bad 2 (!uc && o.cty != 0) ++ bad 2 (!uacc && o.acc != 0)

/-- Format X instructions. An um other than R178's table gives is a reserved value (cause 0x03), whether its column shows
the one code 00 or the pair of tld: R64 and R177 could be read to give 0x02 or 0x08 (DESIGN CHOICE, log entry 19). -/
def xDefects : Instr → Option (List Nat)
  | .mma o =>
    let ok := mmaTypes o.um.toNat o.aty o.bty && o.cty == 1
    some (xMod o (o.um == 1) ++ bad 3 (o.um == 3) ++ bad 8 (!ok) ++ xLimit o)
  | .tld o =>
    let ok := tldTypes o.um.toNat o.aty o.bty
    some (xUnused o true true false false ++ xMod o (o.um == 2) ++ bad 3 (o.um != 0 && o.um != 2) ++ bad 8 (!ok)
      ++ xLimit o)
  | .tswap o => some (xUnused o false false false false ++ xMod o false ++ bad 3 (o.um != 0))
  | .tzero o => some (xUnused o false false false false ++ xMod o false ++ bad 3 (o.um != 0) ++ bad 2 (o.n16 != 0))
  | .accz o =>
    some (xUnused o false false false true ++ xMod o false ++ bad 3 (o.um != 0) ++ bad 3 (o.n16.toNat % 0x8000 != 0))
  | .accrd o => some (xUnused o false false false true ++ xMod o false ++ bad 3 (o.um != 0) ++ bad 3 (7 < o.n16.toNat))
  | .accrdUl o =>
    some (xUnused o false true false true ++ xMod o true ++ bad 3 (o.um != 1) ++ bad 8 (!(f3Types.contains o.bty.toNat))
      ++ bad 3 (63 < o.n16.toNat))
  | .ulset o =>
    let n := o.n16.toNat
    let ok := xUnlay o.bty
    some (xUnused o false true false false ++ xMod o false ++ bad 3 (o.um != 0) ++ bad 8 (!ok)
      ++ bad 3 (!(n % 32 == 0 && 32 ≤ n && n ≤ (if xNe o.bty = 32 then 256 else 512))))
  | _ => none

/-! ### Formats F, Y, J and Z (R76 to R80, 09, 15) -/

/-- An unused field. -/
def unused (u nz : Bool) : List Nat := bad 2 (!u && nz)

/-- The fields of a format F word that an instruction uses, in the order d a b pg sl fb fm lv ls. -/
def fBad (k : Site) (o : FForm) (ud ua ub usl ufb ufm ulv : Bool) (ms : List Nat) : List Nat :=
  unused ud (o.d != 0) ++ unused ua (o.a != 0) ++ unused ub (o.b != 0)
    ++ unused usl (o.sl != 0) ++ unused ufb (o.fb != 0) ++ unused ufm (o.fm != 0) ++ unused ulv (o.lv != 0)
    ++ bad 2 (k != .seq && o.ls != 0) ++ bad 3 (!(ms.contains o.mod.toNat))
    ++ (if ud then bad 5 (!(dstOk k o.d)) else []) ++ (if ua then bad 5 (!(srcOk k o.a)) else [])

/-- Format F instructions (R294 to R304). -/
def fDefects (k : Site) : Instr → Option (List Nat)
  | .reelAff o | .reelGat o | .reelSca o | .reelCmp o | .reelRq o =>
    some (fBad k o true true false true false false false [0])
  | .reelFib o => some (fBad k o true false false true true false false [0])
  | .reelStop o => some (fBad k o true false false true false false false [0])
  | .reelWait o => some (fBad k o true false true true false false false [0] ++ bad 5 (!(dstOk k o.b)))
  | .fibOpen o => some (fBad k o true true true false true false true [0] ++ bad 5 (!(srcOk k o.b)))
  | .fibSkip o => some (fBad k o (k == .seq) true false false true false false [0])
  | .fibIsect o | .fibUnion o => some (fBad k o true false false true false true false [0])
  | .fibSave o | .fibLoad o => some (fBad k o true true false false true false false [0])
  | .fibPos o => some (fBad k o true false false false true false false [0, 1])
  | _ => none

/-- The fields of a format Y word that an instruction uses; in a station ls is zero (R77). -/
def yBad (k : Site) (o : YForm) (ud ua ub uls upg ucl uimm : Bool) (ms : List Nat) : List Nat :=
  unused ud (o.d != 0) ++ unused ua (o.a != 0) ++ unused ub (o.b != 0) ++ unused uls (o.ls != 0)
    ++ unused upg (o.pg != 0) ++ unused ucl (o.cl != 0) ++ unused uimm (o.imm16 != 0)
    ++ bad 2 (k != .seq && o.ls != 0) ++ bad 3 (!(ms.contains o.mod.toNat))
    ++ (if ud then bad 5 (!(dstOk k o.d)) else []) ++ (if ua then bad 5 (!(srcOk k o.a)) else [])
    ++ (if ub then bad 5 (!(srcOk k o.b)) else [])

/-- Format Y instructions (R151, R278 to R306). -/
def yDefects (k : Site) : Instr → Option (List Nat)
  | .inject o => some (yBad k o true true true true true false true [0] ++ bad 3 (3 < o.imm16.toNat))
  | .layLoad o | .laySwap o | .gmm o => some (yBad k o true true false true false false false [0])
  | .layFree o | .passWait o | .passAbort o => some (yBad k o true false false true false false false [0])
  | .layClone o =>
    some (yBad k o true false true true true false true [0] ++ bad 3 (o.imm16.toNat < 1 || 3 < o.imm16.toNat))
  | .passArm o => some (yBad k o true true true true false false false [0])
  | .cleatSet o => some (yBad k o true true false true true true true [0])
  | .cleatWait o => some (yBad k o true false true true true true false [0])
  | .cleatTie o => some (yBad k o false false false false true true false [0])
  | .sbar o => some (yBad k o true false false true true false true [0] ++ bad 2 (32 ≤ o.imm16.toNat))
  | .qwait o => some (yBad k o true true true false false false true [0, 1, 2, 3, 4])
  | _ => none

/-- Format J instructions (R79, R307, R308). -/
def jDefects (k : Site) : Instr → Option (List Nat)
  | .br o => some (bad 3 (o.mod != 0) ++ bad 2 (o.a != 0 || o.lc != 0))
  | .brc o => some (bad 3 (5 < o.mod.toNat) ++ bad 2 (o.lc != 0) ++ bad 5 (!(srcOk k o.a)))
  | .jmp o => some (bad 3 (o.mod != 0) ++ bad 2 (o.lc != 0) ++ bad 5 (!(srcOk k o.a)))
  | .call o => some (bad 3 (o.mod != 0) ++ bad 2 (o.lc != 0) ++ bad 5 (!(dstOk k o.a)))
  | .ret o => some (bad 3 (o.mod != 0) ++ bad 2 (o.lc != 0 || o.off != 0) ++ bad 5 (!(srcOk k o.a)))
  | .loop o =>
    some (bad 3 (o.mod != 0) ++ bad 2 (o.pi != 0 || o.pn) ++ bad 3 (o.off.toInt < 1) ++ bad 5 (!(srcOk k o.a)))
  | _ => none

/-- Whether the map of R441 lets sysrd (wr = false) or syswr name a system register. -/
def sregOk (wr : Bool) (r : BitVec 16) : Bool :=
  let n := r.toNat
  if wr then
    [0x10, 0x11, 0x103, 0x104, 0x105, 0x107, 0x200, 0x201, 0x202, 0x204, 0x205, 0x206, 0x207, 0x208, 0x20a, 0x20b,
      0x20d, 0x20e, 0x300].contains n
  else
    [0, 1, 0x10, 0x11, 0x100, 0x101, 0x102, 0x103, 0x104, 0x105, 0x106, 0x200, 0x201, 0x202, 0x203, 0x204, 0x205,
      0x206, 0x207, 0x208, 0x209, 0x20a, 0x20c, 0x20d, 0x20e, 0x300, 0x301, 0x302, 0x400, 0x401, 0x402,
      0x403].contains n

/-- Whether a system register takes its station from imm16 (R445). -/
def sregStall (r : BitVec 16) : Bool := 0x400 ≤ r.toNat && r.toNat ≤ 0x403

/-- The fields of a format Z word that an instruction uses; imm says whether imm16 is an operand without .o. -/
def zBad (k : Site) (o : ZForm) (ud ua ub us uimm oth : Bool) (ms : List Nat) : List Nat :=
  unused ud (o.d != 0) ++ unused ua (o.a != 0) ++ unused ub (o.b != 0) ++ unused us (o.sreg != 0)
    ++ bad 3 (!(ms.contains o.mod.toNat))
    ++ (if oth && o.mod == 1 then bad 2 (64 ≤ o.imm16.toNat) else unused uimm (o.imm16 != 0))
    ++ (if ud then bad 5 (!(dstOk k o.d)) else []) ++ (if ua then bad 5 (!(srcOk k o.a)) else [])
    ++ (if ub then bad 5 (!(srcOk k o.b)) else [])

/-- Format Z instructions (R430, R433, R440, R441). -/
def zDefects (k : Site) : Instr → Option (List Nat)
  | .ctxSpawn o => some (zBad k o true true true false false false [0])
  | .ctxExit o => some (zBad k o false true false false false false [0])
  | .ctxKill o => some (zBad k o true true false false false false [0])
  | .yield o => some (zBad k o true false false false false false [0])
  | .trap o => some (zBad k o false false false false true false [0])
  | .eret o | .halt o => some (zBad k o false false false false false false [0])
  | .sysrd o =>
    some (zBad k o true false false true (sregStall o.sreg) true [0, 1] ++ bad 3 (!(sregOk false o.sreg))
      ++ bad 3 (sregStall o.sreg && o.mod == 1))
  | .syswr o => some (zBad k o true true false true false true [0, 1] ++ bad 3 (!(sregOk true o.sreg)))
  | .tlbInv o => some (zBad k o false true true false false true [0, 1])
  | .cwb o | .cinv o => some (zBad k o false true true false false false [0])
  | .notify o => some (zBad k o false true false false false false [0, 2])
  | .fltRetry o | .fltDrop o => some (zBad k o false true false false false true [0, 1])
  | .wfi o => some (zBad k o true false false false true false [0])
  | _ => none

/-! ### Placement and the whole -/

/-- The sites of an instruction (R82 to R91); none for the device's own events, which are no words. -/
def sitesOf : Instr → List Site
  | .add _ | .sub _ | .and _ | .or _ | .xor _ | .andn _ | .not _ | .shl _ | .shr _ | .sar _ | .min _ | .max _
  | .sel _ | .mov _ | .bfx _ | .bfi _ | .hash _ | .addImm _ | .andImm _ | .orImm _ | .xorImm _ | .shlImm _
  | .shrImm _ | .sarImm _ | .movi _ | .ld _ | .st _ | .atom _ | .cas _ | .fence _ => [.seq, .compute, .bank]
  | .cmp _ | .cmpImm _ => [.seq, .compute, .bank, .splice]
  | .mul _ | .mulh _ | .mad _ | .div _ | .rem _ | .addc _ | .rol _ | .ror _ | .clz _ | .ctz _ | .popc _ | .brev _
  | .abs _ | .neg _ | .lea _ | .byteperm _ | .cvti _ | .prf _ | .fibSkip _ => [.seq, .compute]
  | .fadd _ | .fsub _ | .fmul _ | .fma _ | .fnma _ | .fmin _ | .fmax _ | .fabs _ | .fneg _ | .fcmp _ | .fcvt _
  | .frnd _ | .fscale _ | .frcp _ | .frsq _ | .fsqrt _ | .fexp2 _ | .flog2 _ | .ftanh _ | .i2f _ | .f2i _ | .fqnt _
  | .fdq _ | .fred _ | .fdot _ | .smxUpd _ | .smxMerge _ | .perm _ | .shuf _ | .bcast _ | .rot _ | .zip _
  | .unzip _ | .pack _ | .unpack _ | .cmpr _ | .expd _ | .lmask _ | .lsel _ | .movw _ | .swap _ | .ldx _ | .stx _
  | .otokPut _ | .otokWait _ => [.compute]
  | .emit _ | .fork _ | .drop _ | .steer _ | .tag _ | .setcls _ | .raise _ => [.compute, .bank, .matrix, .splice]
  | .bight _ | .cleatTie _ => [.compute, .bank, .splice]
  | .setlen _ | .setfmt _ | .setck _ | .setscale _ => [.compute, .bank, .matrix]
  | .nop _ => [.seq, .compute, .bank, .matrix, .splice]
  | .atomf _ | .ldp _ | .stp _ => [.compute, .bank]
  | .mma _ | .tld _ | .tswap _ | .tzero _ | .accz _ | .accrd _ | .accrdUl _ | .ulset _ => [.matrix]
  | .inject _ | .reelAff _ | .reelGat _ | .reelSca _ | .reelFib _ | .reelCmp _ | .reelRq _ | .reelStop _
  | .reelWait _ | .fibOpen _ | .fibIsect _ | .fibUnion _ | .fibSave _ | .fibLoad _ | .fibPos _ | .layLoad _
  | .layFree _ | .laySwap _ | .layClone _ | .passArm _ | .passWait _ | .passAbort _ | .cleatSet _ | .cleatWait _
  | .sbar _ | .qwait _ | .gmm _ | .br _ | .brc _ | .jmp _ | .call _ | .ret _ | .loop _ | .ctxSpawn _ | .ctxExit _
  | .ctxKill _ | .yield _ | .trap _ | .eret _ | .sysrd _ | .syswr _ | .tlbInv _ | .cwb _ | .cinv _ | .notify _
  | .fltRetry _ | .fltDrop _ | .halt _ | .wfi _ => [.seq]
  | _ => []

/-- The defects of an instruction at a site, as cause codes in no order (R93, R95). An event has none. -/
def defects (k : Site) (i : Instr) : List Nat :=
  let d := (lDefects k i <|> iDefects k i <|> kDefects k i <|> mDefects k i <|> xDefects i <|> fDefects k i
    <|> yDefects k i <|> jDefects k i <|> zDefects k i)
  match d with
  | some l => l ++ bad 4 (!((sitesOf i).contains k))
  | none => []

/-- The lowest number of a list; none for the empty list. -/
def lowest : List Nat → Option Nat
  | [] => none
  | x :: xs => match lowest xs with
    | none => some x
    | some y => some (min x y)

/-- The cause that a defective instruction reports at a site; none where it is valid there (R95). -/
def defectCause (k : Site) (i : Instr) : Option Nat := lowest (defects k i)

end Sys2Proof.Machine
end

