-- ==== Sys2Proof/Decode.lean ====
section
/-!
DEFINITION. The decoder of 64-bit instruction words (03 R63 to R92), total and rejecting by name, and after it the
encoder, both written from the bit maps of R67 to R80 and the opcode map of R83 to R91.
-/
namespace Sys2Proof

/-- Why bytes are no instruction (R93): the load-fault causes 0x01 and 0x02 for reserved bits, and too few bytes. -/
inductive DecodeError where
  /-- The opcode is one that R92 leaves unassigned. -/
  | unassignedOpcode
  /-- A bit that the format reserves is nonzero (R64). -/
  | reservedBits
  /-- Fewer than eight bytes. -/
  | truncated
  deriving DecidableEq, Repr

/-- One bit as a Bool. -/
def bitOf (w : DWord) (i : Nat) : Bool := w.getLsbD i

/-- The opcode of a word (R63). -/
def opcodeOf (w : DWord) : Nat := (w.extractLsb' 54 10).toNat

/-- The modifier of a word (R63). -/
def modOf (w : DWord) : BitVec 4 := w.extractLsb' 50 4

/-- Format L (R67). -/
def decodeL (w : DWord) : LForm :=
  { mod := modOf w, d := w.extractLsb' 44 6, a := w.extractLsb' 38 6, b := w.extractLsb' 32 6,
    c := w.extractLsb' 26 6, w := w.extractLsb' 24 2, g := w.extractLsb' 21 3, ty := w.extractLsb' 17 4,
    pe := bitOf w 16, pi := w.extractLsb' 13 3, pn := bitOf w 12, qd := w.extractLsb' 9 3, qw := bitOf w 8 }

/-- Format I (R70). -/
def decodeI (w : DWord) : IForm :=
  { mod := modOf w, d := w.extractLsb' 44 6, a := w.extractLsb' 38 6, w := w.extractLsb' 36 2,
    g := w.extractLsb' 33 3, imm := w.extractLsb' 0 32 }

/-- Format M (R71). -/
def decodeM (w : DWord) : MForm :=
  { mod := modOf w, d := w.extractLsb' 44 6, a := w.extractLsb' 38 6, b := w.extractLsb' 32 6,
    scope := w.extractLsb' 29 3, sp := w.extractLsb' 27 2, sz := w.extractLsb' 24 3, aop := w.extractLsb' 20 4,
    disp := w.extractLsb' 0 20 }

/-- Format K (R74). -/
def decodeK (w : DWord) : KForm :=
  { mod := modOf w, a := w.extractLsb' 44 6, ia := bitOf w 43, pt := w.extractLsb' 40 3, pf := w.extractLsb' 37 3,
    pe := bitOf w 36, pi := w.extractLsb' 33 3, pn := bitOf w 32, imm := w.extractLsb' 0 32 }

/-- Format X (R75). -/
def decodeX (w : DWord) : XForm :=
  { mod := modOf w, aty := w.extractLsb' 46 4, bty := w.extractLsb' 42 4, cty := w.extractLsb' 38 4,
    um := w.extractLsb' 36 2, acc := w.extractLsb' 34 2, n16 := w.extractLsb' 16 16 }

/-- Format F (R76). -/
def decodeF (w : DWord) : FForm :=
  { mod := modOf w, d := w.extractLsb' 44 6, a := w.extractLsb' 38 6, b := w.extractLsb' 32 6,
    pg := w.extractLsb' 26 6, sl := w.extractLsb' 24 2, fb := w.extractLsb' 22 2, fm := w.extractLsb' 18 4,
    lv := w.extractLsb' 16 2, ls := w.extractLsb' 13 3 }

/-- Format Y (R77). -/
def decodeY (w : DWord) : YForm :=
  { mod := modOf w, d := w.extractLsb' 44 6, a := w.extractLsb' 38 6, b := w.extractLsb' 32 6,
    ls := w.extractLsb' 29 3, pg := w.extractLsb' 23 6, cl := w.extractLsb' 19 4, imm16 := w.extractLsb' 0 16 }

/-- Format J (R78). -/
def decodeJ (w : DWord) : JForm :=
  { mod := modOf w, a := w.extractLsb' 44 6, pi := w.extractLsb' 41 3, pn := bitOf w 40, lc := w.extractLsb' 38 2,
    off := w.extractLsb' 0 32 }

/-- Format Z (R80). -/
def decodeZ (w : DWord) : ZForm :=
  { mod := modOf w, d := w.extractLsb' 44 6, a := w.extractLsb' 38 6, b := w.extractLsb' 32 6,
    sreg := w.extractLsb' 16 16, imm16 := w.extractLsb' 0 16 }

/-- The integer and address group (R83). -/
def opsInteger : List (Nat × (DWord → Instr)) :=
  [ (0x000, fun w => .add (decodeL w)), (0x001, fun w => .sub (decodeL w))
  , (0x002, fun w => .mul (decodeL w)), (0x003, fun w => .mulh (decodeL w))
  , (0x004, fun w => .mad (decodeL w)), (0x005, fun w => .div (decodeL w))
  , (0x006, fun w => .rem (decodeL w)), (0x007, fun w => .addc (decodeL w))
  , (0x008, fun w => .and (decodeL w)), (0x009, fun w => .or (decodeL w))
  , (0x00a, fun w => .xor (decodeL w)), (0x00b, fun w => .andn (decodeL w))
  , (0x00c, fun w => .not (decodeL w)), (0x010, fun w => .shl (decodeL w))
  , (0x011, fun w => .shr (decodeL w)), (0x012, fun w => .sar (decodeL w))
  , (0x013, fun w => .rol (decodeL w)), (0x014, fun w => .ror (decodeL w))
  , (0x018, fun w => .clz (decodeL w)), (0x019, fun w => .ctz (decodeL w))
  , (0x01a, fun w => .popc (decodeL w)), (0x01b, fun w => .brev (decodeL w))
  , (0x020, fun w => .min (decodeL w)), (0x021, fun w => .max (decodeL w))
  , (0x022, fun w => .abs (decodeL w)), (0x023, fun w => .neg (decodeL w))
  , (0x024, fun w => .sel (decodeL w)), (0x025, fun w => .cmp (decodeL w))
  , (0x028, fun w => .lea (decodeL w)), (0x029, fun w => .mov (decodeL w))
  , (0x02a, fun w => .bfx (decodeL w)), (0x02b, fun w => .bfi (decodeL w))
  , (0x02c, fun w => .byteperm (decodeL w)), (0x02d, fun w => .hash (decodeL w))
  , (0x02e, fun w => .cvti (decodeL w)), (0x040, fun w => .addImm (decodeI w))
  , (0x041, fun w => .andImm (decodeI w)), (0x042, fun w => .orImm (decodeI w))
  , (0x043, fun w => .xorImm (decodeI w)), (0x044, fun w => .shlImm (decodeI w))
  , (0x045, fun w => .shrImm (decodeI w)), (0x046, fun w => .sarImm (decodeI w))
  , (0x047, fun w => .cmpImm (decodeI w)), (0x048, fun w => .movi (decodeI w)) ]

/-- The float, conversion and softmax group (R84). -/
def opsFloat : List (Nat × (DWord → Instr)) :=
  [ (0x080, fun w => .fadd (decodeL w)), (0x081, fun w => .fsub (decodeL w))
  , (0x082, fun w => .fmul (decodeL w)), (0x083, fun w => .fma (decodeL w))
  , (0x084, fun w => .fnma (decodeL w)), (0x085, fun w => .fmin (decodeL w))
  , (0x086, fun w => .fmax (decodeL w)), (0x087, fun w => .fabs (decodeL w))
  , (0x088, fun w => .fneg (decodeL w)), (0x089, fun w => .fcmp (decodeL w))
  , (0x08a, fun w => .fcvt (decodeL w)), (0x08b, fun w => .frnd (decodeL w))
  , (0x08c, fun w => .fscale (decodeL w)), (0x090, fun w => .frcp (decodeL w))
  , (0x091, fun w => .frsq (decodeL w)), (0x092, fun w => .fsqrt (decodeL w))
  , (0x093, fun w => .fexp2 (decodeL w)), (0x094, fun w => .flog2 (decodeL w))
  , (0x095, fun w => .ftanh (decodeL w)), (0x098, fun w => .i2f (decodeL w))
  , (0x099, fun w => .f2i (decodeL w)), (0x0a0, fun w => .fqnt (decodeL w))
  , (0x0a1, fun w => .fdq (decodeL w)), (0x0a2, fun w => .fred (decodeL w))
  , (0x0a3, fun w => .fdot (decodeL w)), (0x0b0, fun w => .smxUpd (decodeL w))
  , (0x0b1, fun w => .smxMerge (decodeL w)) ]

/-- The lane-manipulation group (R85). -/
def opsLane : List (Nat × (DWord → Instr)) :=
  [ (0x100, fun w => .perm (decodeL w)), (0x101, fun w => .shuf (decodeL w))
  , (0x102, fun w => .bcast (decodeL w)), (0x103, fun w => .rot (decodeL w))
  , (0x104, fun w => .zip (decodeL w)), (0x105, fun w => .unzip (decodeL w))
  , (0x106, fun w => .pack (decodeL w)), (0x107, fun w => .unpack (decodeL w))
  , (0x108, fun w => .cmpr (decodeL w)), (0x109, fun w => .expd (decodeL w))
  , (0x10a, fun w => .lmask (decodeL w)), (0x10b, fun w => .lsel (decodeL w))
  , (0x10c, fun w => .movw (decodeL w)), (0x10d, fun w => .swap (decodeL w)) ]

/-- The record-control group (R86). -/
def opsRecord : List (Nat × (DWord → Instr)) :=
  [ (0x140, fun w => .emit (decodeK w)), (0x141, fun w => .fork (decodeK w))
  , (0x142, fun w => .drop (decodeK w)), (0x143, fun w => .steer (decodeK w))
  , (0x144, fun w => .bight (decodeK w)), (0x145, fun w => .tag (decodeK w))
  , (0x146, fun w => .setcls (decodeK w)), (0x147, fun w => .setlen (decodeK w))
  , (0x148, fun w => .setfmt (decodeK w)), (0x149, fun w => .setck (decodeK w))
  , (0x14a, fun w => .setscale (decodeK w)), (0x14b, fun w => .raise (decodeK w))
  , (0x14c, fun w => .nop (decodeK w)), (0x14d, fun w => .inject (decodeY w)) ]

/-- The memory group (R87). -/
def opsMemory : List (Nat × (DWord → Instr)) :=
  [ (0x180, fun w => .ld (decodeM w)), (0x181, fun w => .st (decodeM w))
  , (0x182, fun w => .ldx (decodeM w)), (0x183, fun w => .stx (decodeM w))
  , (0x184, fun w => .atom (decodeM w)), (0x185, fun w => .atomf (decodeM w))
  , (0x186, fun w => .cas (decodeM w)), (0x187, fun w => .fence (decodeM w))
  , (0x188, fun w => .otokPut (decodeM w)), (0x189, fun w => .otokWait (decodeM w))
  , (0x18a, fun w => .prf (decodeM w)), (0x18b, fun w => .ldp (decodeM w))
  , (0x18c, fun w => .stp (decodeM w)) ]

/-- The matrix and unlay group (R88). -/
def opsMatrix : List (Nat × (DWord → Instr)) :=
  [ (0x200, fun w => .mma (decodeX w)), (0x201, fun w => .tld (decodeX w))
  , (0x202, fun w => .tswap (decodeX w)), (0x203, fun w => .tzero (decodeX w))
  , (0x204, fun w => .accz (decodeX w)), (0x205, fun w => .accrd (decodeX w))
  , (0x206, fun w => .accrdUl (decodeX w)), (0x207, fun w => .ulset (decodeX w)) ]

/-- The reel and fibre group (R89). -/
def opsReel : List (Nat × (DWord → Instr)) :=
  [ (0x240, fun w => .reelAff (decodeF w)), (0x241, fun w => .reelGat (decodeF w))
  , (0x242, fun w => .reelSca (decodeF w)), (0x243, fun w => .reelFib (decodeF w))
  , (0x244, fun w => .reelCmp (decodeF w)), (0x245, fun w => .reelRq (decodeF w))
  , (0x246, fun w => .reelStop (decodeF w)), (0x247, fun w => .reelWait (decodeF w))
  , (0x250, fun w => .fibOpen (decodeF w)), (0x251, fun w => .fibSkip (decodeF w))
  , (0x252, fun w => .fibIsect (decodeF w)), (0x253, fun w => .fibUnion (decodeF w))
  , (0x254, fun w => .fibSave (decodeF w)), (0x255, fun w => .fibLoad (decodeF w))
  , (0x256, fun w => .fibPos (decodeF w)) ]

/-- The lay, pass, cleat and sequencer-control group (R90). -/
def opsLay : List (Nat × (DWord → Instr)) :=
  [ (0x280, fun w => .layLoad (decodeY w)), (0x281, fun w => .layFree (decodeY w))
  , (0x282, fun w => .laySwap (decodeY w)), (0x283, fun w => .layClone (decodeY w))
  , (0x288, fun w => .passArm (decodeY w)), (0x289, fun w => .passWait (decodeY w))
  , (0x28a, fun w => .passAbort (decodeY w)), (0x290, fun w => .cleatSet (decodeY w))
  , (0x291, fun w => .cleatWait (decodeY w)), (0x292, fun w => .cleatTie (decodeY w))
  , (0x298, fun w => .sbar (decodeY w)), (0x299, fun w => .qwait (decodeY w))
  , (0x29a, fun w => .gmm (decodeY w)), (0x2c0, fun w => .br (decodeJ w))
  , (0x2c1, fun w => .brc (decodeJ w)), (0x2c2, fun w => .jmp (decodeJ w))
  , (0x2c3, fun w => .call (decodeJ w)), (0x2c4, fun w => .ret (decodeJ w))
  , (0x2c5, fun w => .loop (decodeJ w)) ]

/-- The context and system group (R91). -/
def opsSystem : List (Nat × (DWord → Instr)) :=
  [ (0x300, fun w => .ctxSpawn (decodeZ w)), (0x301, fun w => .ctxExit (decodeZ w))
  , (0x302, fun w => .ctxKill (decodeZ w)), (0x303, fun w => .yield (decodeZ w))
  , (0x304, fun w => .trap (decodeZ w)), (0x305, fun w => .eret (decodeZ w))
  , (0x308, fun w => .sysrd (decodeZ w)), (0x309, fun w => .syswr (decodeZ w))
  , (0x30a, fun w => .tlbInv (decodeZ w)), (0x30b, fun w => .cwb (decodeZ w))
  , (0x30c, fun w => .cinv (decodeZ w)), (0x310, fun w => .notify (decodeZ w))
  , (0x311, fun w => .fltRetry (decodeZ w)), (0x312, fun w => .fltDrop (decodeZ w))
  , (0x313, fun w => .halt (decodeZ w)), (0x314, fun w => .wfi (decodeZ w)) ]

/-- The row of a table for an opcode. -/
def findOp (op : Nat) : List (Nat × (DWord → Instr)) → Option (DWord → Instr)
  | [] => none
  | r :: rs => if r.1 = op then some r.2 else findOp op rs

/-- The opcode map, by group (R83 to R91). -/
def opTable (op : Nat) : List (Nat × (DWord → Instr)) :=
  if op < 0x080 then opsInteger
  else if op < 0x100 then opsFloat
  else if op < 0x140 then opsLane
  else if op < 0x180 then opsRecord
  else if op < 0x200 then opsMemory
  else if op < 0x240 then opsMatrix
  else if op < 0x280 then opsReel
  else if op < 0x300 then opsLay
  else if op < 0x380 then opsSystem
  else []

/-- The bits that an instruction's format reserves (R67 to R80). -/
def reservedMask : Instr → DWord
  | .add _ | .sub _ | .mul _ | .mulh _ | .mad _ | .div _ | .rem _ | .addc _ | .and _ | .or _ | .xor _ | .andn _
  | .not _ | .shl _ | .shr _ | .sar _ | .rol _ | .ror _ | .clz _ | .ctz _ | .popc _ | .brev _ | .min _ | .max _
  | .abs _ | .neg _ | .sel _ | .cmp _ | .lea _ | .mov _ | .bfx _ | .bfi _ | .byteperm _ | .hash _ | .cvti _
  | .fadd _ | .fsub _ | .fmul _ | .fma _ | .fnma _ | .fmin _ | .fmax _ | .fabs _ | .fneg _ | .fcmp _ | .fcvt _
  | .frnd _ | .fscale _ | .frcp _ | .frsq _ | .fsqrt _ | .fexp2 _ | .flog2 _ | .ftanh _ | .i2f _ | .f2i _
  | .fqnt _ | .fdq _ | .fred _ | .fdot _ | .smxUpd _ | .smxMerge _ | .perm _ | .shuf _ | .bcast _ | .rot _
  | .zip _ | .unzip _ | .pack _ | .unpack _ | .cmpr _ | .expd _ | .lmask _ | .lsel _ | .movw _ | .swap _ => 0xff
  | .addImm _ | .andImm _ | .orImm _ | .xorImm _ | .shlImm _ | .shrImm _ | .sarImm _ | .cmpImm _
  | .movi _ => 0x100000000
  | .mma _ | .tld _ | .tswap _ | .tzero _ | .accz _ | .accrd _ | .accrdUl _ | .ulset _ => 0x30000ffff
  | .reelAff _ | .reelGat _ | .reelSca _ | .reelFib _ | .reelCmp _ | .reelRq _ | .reelStop _ | .reelWait _
  | .fibOpen _ | .fibSkip _ | .fibIsect _ | .fibUnion _ | .fibSave _ | .fibLoad _ | .fibPos _ => 0x1fff
  | .inject _ | .layLoad _ | .layFree _ | .laySwap _ | .layClone _ | .passArm _ | .passWait _ | .passAbort _
  | .cleatSet _ | .cleatWait _ | .cleatTie _ | .sbar _ | .qwait _ | .gmm _ => 0x70000
  | .br _ | .brc _ | .jmp _ | .call _ | .ret _ | .loop _ => 0x3f00000000
  | _ => 0

/-- The instruction of a word, or why there is none (R92, R93). Whether the instruction is valid at a site is
defectCause's answer. -/
def decodeWord (w : DWord) : Except DecodeError Instr :=
  match findOp (opcodeOf w) (opTable (opcodeOf w)) with
  | none => .error .unassignedOpcode
  | some f => if w &&& reservedMask (f w) = 0 then .ok (f w) else .error .reservedBits

/-- An instruction from the front of a byte string, little-endian (R63), with the rest of the string. -/
def decodeBytes (bs : List Byte) : Except DecodeError (Instr × List Byte) :=
  if bs.length < 8 then .error .truncated
  else
    match decodeWord (BitVec.ofNat 64 (Machine.natOfBytes (bs.take 8))) with
    | .ok i => .ok (i, bs.drop 8)
    | .error e => .error e

/-- The least cause of a word at a site (R93, R95): none where the word is valid there. An opcode without an
assignment is cause 0x01; a reserved bit is cause 0x02, below which only 0x01 lies. -/
def wordCause (k : Machine.Site) (w : DWord) : Option Nat :=
  match decodeWord w with
  | .error .unassignedOpcode => some 1
  | .error _ => some 2
  | .ok i => Machine.defectCause k i

/-- The instruction of a table word as the host numbers it: the eight bytes of the word, lowest first, given to the
decoder. -/
def decodeTableWord (_nbits w : Nat) : Option Instr :=
  match decodeBytes (Machine.bytesOfNat 8 w) with
  | .ok (i, _) => some i
  | .error _ => none

/-! ### The encoder -/

/-- A Bool as one bit. -/
def bit1 (b : Bool) : BitVec 1 := BitVec.ofBool b

/-- Format L (R67). -/
def encodeL (op : BitVec 10) (o : LForm) : DWord :=
  op ++ o.mod ++ o.d ++ o.a ++ o.b ++ o.c ++ o.w ++ o.g ++ o.ty ++ bit1 o.pe ++ o.pi ++ bit1 o.pn ++ o.qd
    ++ bit1 o.qw ++ 0#8

/-- Format I (R70). -/
def encodeI (op : BitVec 10) (o : IForm) : DWord :=
  op ++ o.mod ++ o.d ++ o.a ++ o.w ++ o.g ++ 0#1 ++ o.imm

/-- Format M (R71). -/
def encodeM (op : BitVec 10) (o : MForm) : DWord :=
  op ++ o.mod ++ o.d ++ o.a ++ o.b ++ o.scope ++ o.sp ++ o.sz ++ o.aop ++ o.disp

/-- Format K (R74). -/
def encodeK (op : BitVec 10) (o : KForm) : DWord :=
  op ++ o.mod ++ o.a ++ bit1 o.ia ++ o.pt ++ o.pf ++ bit1 o.pe ++ o.pi ++ bit1 o.pn ++ o.imm

/-- Format X (R75). -/
def encodeX (op : BitVec 10) (o : XForm) : DWord :=
  op ++ o.mod ++ o.aty ++ o.bty ++ o.cty ++ o.um ++ o.acc ++ 0#2 ++ o.n16 ++ 0#16

/-- Format F (R76). -/
def encodeF (op : BitVec 10) (o : FForm) : DWord :=
  op ++ o.mod ++ o.d ++ o.a ++ o.b ++ o.pg ++ o.sl ++ o.fb ++ o.fm ++ o.lv ++ o.ls ++ 0#13

/-- Format Y (R77). -/
def encodeY (op : BitVec 10) (o : YForm) : DWord :=
  op ++ o.mod ++ o.d ++ o.a ++ o.b ++ o.ls ++ o.pg ++ o.cl ++ 0#3 ++ o.imm16

/-- Format J (R78). -/
def encodeJ (op : BitVec 10) (o : JForm) : DWord :=
  op ++ o.mod ++ o.a ++ o.pi ++ bit1 o.pn ++ o.lc ++ 0#6 ++ o.off

/-- Format Z (R80). -/
def encodeZ (op : BitVec 10) (o : ZForm) : DWord :=
  op ++ o.mod ++ o.d ++ o.a ++ o.b ++ o.sreg ++ o.imm16

/-- The word of an instruction (R63, R83 to R91); none for an event of the device, which is no word. -/
def encode : Instr → Option DWord
  | .add o => some (encodeL 0x000 o)
  | .sub o => some (encodeL 0x001 o)
  | .mul o => some (encodeL 0x002 o)
  | .mulh o => some (encodeL 0x003 o)
  | .mad o => some (encodeL 0x004 o)
  | .div o => some (encodeL 0x005 o)
  | .rem o => some (encodeL 0x006 o)
  | .addc o => some (encodeL 0x007 o)
  | .and o => some (encodeL 0x008 o)
  | .or o => some (encodeL 0x009 o)
  | .xor o => some (encodeL 0x00a o)
  | .andn o => some (encodeL 0x00b o)
  | .not o => some (encodeL 0x00c o)
  | .shl o => some (encodeL 0x010 o)
  | .shr o => some (encodeL 0x011 o)
  | .sar o => some (encodeL 0x012 o)
  | .rol o => some (encodeL 0x013 o)
  | .ror o => some (encodeL 0x014 o)
  | .clz o => some (encodeL 0x018 o)
  | .ctz o => some (encodeL 0x019 o)
  | .popc o => some (encodeL 0x01a o)
  | .brev o => some (encodeL 0x01b o)
  | .min o => some (encodeL 0x020 o)
  | .max o => some (encodeL 0x021 o)
  | .abs o => some (encodeL 0x022 o)
  | .neg o => some (encodeL 0x023 o)
  | .sel o => some (encodeL 0x024 o)
  | .cmp o => some (encodeL 0x025 o)
  | .lea o => some (encodeL 0x028 o)
  | .mov o => some (encodeL 0x029 o)
  | .bfx o => some (encodeL 0x02a o)
  | .bfi o => some (encodeL 0x02b o)
  | .byteperm o => some (encodeL 0x02c o)
  | .hash o => some (encodeL 0x02d o)
  | .cvti o => some (encodeL 0x02e o)
  | .addImm o => some (encodeI 0x040 o)
  | .andImm o => some (encodeI 0x041 o)
  | .orImm o => some (encodeI 0x042 o)
  | .xorImm o => some (encodeI 0x043 o)
  | .shlImm o => some (encodeI 0x044 o)
  | .shrImm o => some (encodeI 0x045 o)
  | .sarImm o => some (encodeI 0x046 o)
  | .cmpImm o => some (encodeI 0x047 o)
  | .movi o => some (encodeI 0x048 o)
  | .fadd o => some (encodeL 0x080 o)
  | .fsub o => some (encodeL 0x081 o)
  | .fmul o => some (encodeL 0x082 o)
  | .fma o => some (encodeL 0x083 o)
  | .fnma o => some (encodeL 0x084 o)
  | .fmin o => some (encodeL 0x085 o)
  | .fmax o => some (encodeL 0x086 o)
  | .fabs o => some (encodeL 0x087 o)
  | .fneg o => some (encodeL 0x088 o)
  | .fcmp o => some (encodeL 0x089 o)
  | .fcvt o => some (encodeL 0x08a o)
  | .frnd o => some (encodeL 0x08b o)
  | .fscale o => some (encodeL 0x08c o)
  | .frcp o => some (encodeL 0x090 o)
  | .frsq o => some (encodeL 0x091 o)
  | .fsqrt o => some (encodeL 0x092 o)
  | .fexp2 o => some (encodeL 0x093 o)
  | .flog2 o => some (encodeL 0x094 o)
  | .ftanh o => some (encodeL 0x095 o)
  | .i2f o => some (encodeL 0x098 o)
  | .f2i o => some (encodeL 0x099 o)
  | .fqnt o => some (encodeL 0x0a0 o)
  | .fdq o => some (encodeL 0x0a1 o)
  | .fred o => some (encodeL 0x0a2 o)
  | .fdot o => some (encodeL 0x0a3 o)
  | .smxUpd o => some (encodeL 0x0b0 o)
  | .smxMerge o => some (encodeL 0x0b1 o)
  | .perm o => some (encodeL 0x100 o)
  | .shuf o => some (encodeL 0x101 o)
  | .bcast o => some (encodeL 0x102 o)
  | .rot o => some (encodeL 0x103 o)
  | .zip o => some (encodeL 0x104 o)
  | .unzip o => some (encodeL 0x105 o)
  | .pack o => some (encodeL 0x106 o)
  | .unpack o => some (encodeL 0x107 o)
  | .cmpr o => some (encodeL 0x108 o)
  | .expd o => some (encodeL 0x109 o)
  | .lmask o => some (encodeL 0x10a o)
  | .lsel o => some (encodeL 0x10b o)
  | .movw o => some (encodeL 0x10c o)
  | .swap o => some (encodeL 0x10d o)
  | .emit o => some (encodeK 0x140 o)
  | .fork o => some (encodeK 0x141 o)
  | .drop o => some (encodeK 0x142 o)
  | .steer o => some (encodeK 0x143 o)
  | .bight o => some (encodeK 0x144 o)
  | .tag o => some (encodeK 0x145 o)
  | .setcls o => some (encodeK 0x146 o)
  | .setlen o => some (encodeK 0x147 o)
  | .setfmt o => some (encodeK 0x148 o)
  | .setck o => some (encodeK 0x149 o)
  | .setscale o => some (encodeK 0x14a o)
  | .raise o => some (encodeK 0x14b o)
  | .nop o => some (encodeK 0x14c o)
  | .inject o => some (encodeY 0x14d o)
  | .ld o => some (encodeM 0x180 o)
  | .st o => some (encodeM 0x181 o)
  | .ldx o => some (encodeM 0x182 o)
  | .stx o => some (encodeM 0x183 o)
  | .atom o => some (encodeM 0x184 o)
  | .atomf o => some (encodeM 0x185 o)
  | .cas o => some (encodeM 0x186 o)
  | .fence o => some (encodeM 0x187 o)
  | .otokPut o => some (encodeM 0x188 o)
  | .otokWait o => some (encodeM 0x189 o)
  | .prf o => some (encodeM 0x18a o)
  | .ldp o => some (encodeM 0x18b o)
  | .stp o => some (encodeM 0x18c o)
  | .mma o => some (encodeX 0x200 o)
  | .tld o => some (encodeX 0x201 o)
  | .tswap o => some (encodeX 0x202 o)
  | .tzero o => some (encodeX 0x203 o)
  | .accz o => some (encodeX 0x204 o)
  | .accrd o => some (encodeX 0x205 o)
  | .accrdUl o => some (encodeX 0x206 o)
  | .ulset o => some (encodeX 0x207 o)
  | .reelAff o => some (encodeF 0x240 o)
  | .reelGat o => some (encodeF 0x241 o)
  | .reelSca o => some (encodeF 0x242 o)
  | .reelFib o => some (encodeF 0x243 o)
  | .reelCmp o => some (encodeF 0x244 o)
  | .reelRq o => some (encodeF 0x245 o)
  | .reelStop o => some (encodeF 0x246 o)
  | .reelWait o => some (encodeF 0x247 o)
  | .fibOpen o => some (encodeF 0x250 o)
  | .fibSkip o => some (encodeF 0x251 o)
  | .fibIsect o => some (encodeF 0x252 o)
  | .fibUnion o => some (encodeF 0x253 o)
  | .fibSave o => some (encodeF 0x254 o)
  | .fibLoad o => some (encodeF 0x255 o)
  | .fibPos o => some (encodeF 0x256 o)
  | .layLoad o => some (encodeY 0x280 o)
  | .layFree o => some (encodeY 0x281 o)
  | .laySwap o => some (encodeY 0x282 o)
  | .layClone o => some (encodeY 0x283 o)
  | .passArm o => some (encodeY 0x288 o)
  | .passWait o => some (encodeY 0x289 o)
  | .passAbort o => some (encodeY 0x28a o)
  | .cleatSet o => some (encodeY 0x290 o)
  | .cleatWait o => some (encodeY 0x291 o)
  | .cleatTie o => some (encodeY 0x292 o)
  | .sbar o => some (encodeY 0x298 o)
  | .qwait o => some (encodeY 0x299 o)
  | .gmm o => some (encodeY 0x29a o)
  | .br o => some (encodeJ 0x2c0 o)
  | .brc o => some (encodeJ 0x2c1 o)
  | .jmp o => some (encodeJ 0x2c2 o)
  | .call o => some (encodeJ 0x2c3 o)
  | .ret o => some (encodeJ 0x2c4 o)
  | .loop o => some (encodeJ 0x2c5 o)
  | .ctxSpawn o => some (encodeZ 0x300 o)
  | .ctxExit o => some (encodeZ 0x301 o)
  | .ctxKill o => some (encodeZ 0x302 o)
  | .yield o => some (encodeZ 0x303 o)
  | .trap o => some (encodeZ 0x304 o)
  | .eret o => some (encodeZ 0x305 o)
  | .sysrd o => some (encodeZ 0x308 o)
  | .syswr o => some (encodeZ 0x309 o)
  | .tlbInv o => some (encodeZ 0x30a o)
  | .cwb o => some (encodeZ 0x30b o)
  | .cinv o => some (encodeZ 0x30c o)
  | .notify o => some (encodeZ 0x310 o)
  | .fltRetry o => some (encodeZ 0x311 o)
  | .fltDrop o => some (encodeZ 0x312 o)
  | .halt o => some (encodeZ 0x313 o)
  | .wfi o => some (encodeZ 0x314 o)
  | _ => none

end Sys2Proof
end

