-- ==== Sys2Proof/Machine/Num.lean ====
section
/-!
DEFINITION. Exact values, rounding and conversion (01 R17 to R40, 04 R125 to R129). Every value the device rounds is
exact here: a sign, a magnitude m times a power of two, an infinity or NaN. A result that is no such number is carried
as a sticky number, one that lies strictly between the same two rounding boundaries as the exact result.
-/
namespace Sys2Proof.Machine

/-- An exact value: NaN, an infinity, or (-1)^neg * m * 2^e, where m = 0 is a signed zero. -/
inductive Val where
  | nan
  | inf (neg : Bool)
  | fin (neg : Bool) (m : Nat) (e : Int)
  deriving DecidableEq, Repr

/-- The layout of a floating-point format (R19): exponent bits, fraction bits, bias, and which exponent fields are
special. -/
structure FloatLayout where
  ebits : Nat
  mbits : Nat
  bias : Nat
  hasInf : Bool
  hasNan : Bool
  deriving DecidableEq, Repr

/-- The float formats of R19. A block-scaled format has its elements' layout. -/
def layoutOf : Fmt → Option FloatLayout
  | .fp32 => some ⟨8, 23, 127, true, true⟩
  | .bf16 => some ⟨8, 7, 127, true, true⟩
  | .fp16 => some ⟨5, 10, 15, true, true⟩
  | .e4m3 | .mx8 => some ⟨4, 3, 7, false, true⟩
  | .e5m2 => some ⟨5, 2, 15, true, true⟩
  | .e3m2 => some ⟨3, 2, 3, false, false⟩
  | .e2m1 | .mx4 => some ⟨2, 1, 1, false, false⟩
  | _ => none

/-- The largest finite magnitude of a format's code (R20), as a bit pattern. -/
def maxCode : Fmt → Nat
  | .fp32 => 0x7f7fffff | .bf16 => 0x7f7f | .fp16 => 0x7bff | .e4m3 | .mx8 => 0x7e | .e5m2 => 0x7b
  | .e3m2 => 0x1f | .e2m1 | .mx4 => 0x7 | _ => 0

/-- The code of infinity (R20). -/
def infCode : Fmt → Nat
  | .fp32 => 0x7f800000 | .bf16 => 0x7f80 | .fp16 => 0x7c00 | .e5m2 => 0x7c | _ => 0

/-- The canonical NaN (R20, R21). -/
def nanCode : Fmt → Nat
  | .fp32 => 0x7fc00000 | .bf16 => 0x7fc0 | .fp16 => 0x7e00 | .e4m3 | .mx8 => 0x7f | .e5m2 => 0x7e | _ => 0

/-- Whether a format is an integer format (R23). -/
def isIntFmt : Fmt → Bool
  | .i32 | .i16 | .i8 | .i4 => true
  | _ => false

/-- value_of for a float layout (R19). -/
def floatVal (l : FloatLayout) (x : Nat) : Val :=
  let m := x % 2 ^ l.mbits
  let e := (x >>> l.mbits) % 2 ^ l.ebits
  let s := (x >>> (l.mbits + l.ebits)) % 2 = 1
  let top := 2 ^ l.ebits - 1
  if l.hasInf && e == top then (if m = 0 then .inf s else .nan)
  else if l.hasNan && !l.hasInf && e == top && m == 2 ^ l.mbits - 1 then .nan
  else if e = 0 then .fin s m (1 - (l.bias : Int) - l.mbits)
  else .fin s (2 ^ l.mbits + m) ((e : Int) - l.bias - l.mbits)

/-- value_of(fmt, bits): R19 for floats, R23 for integers. Other tags have no numbers; they read as +0. -/
def valueOf (f : Fmt) (x : Nat) : Val :=
  match layoutOf f with
  | some l => floatVal l x
  | none =>
    if isIntFmt f then
      let v := sextN (fmtBits f) x
      .fin (v < 0) v.natAbs 0
    else .fin false 0 0

/-- A value times 2^k. -/
def Val.scale (v : Val) (k : Int) : Val :=
  match v with
  | .fin s m e => .fin s m (e + k)
  | v => v

/-- decode_elem of 01: the exact value of an element, with its block scale where the format has one. -/
def decodeElem (f : Fmt) (x : Nat) (sc : Byte) : Val :=
  match f with
  | .mx8 | .mx4 => if sc = 0xff then .nan else (valueOf (elemFmt f) x).scale ((sc.toNat : Int) - 127)
  | f => valueOf f x

/-- One step of the station LFSR (R32, lfsr_step). -/
def lfsrStep (x : Word) : Word :=
  if x.getLsbD 0 then (x >>> 1) ^^^ 0x80200003 else x >>> 1

/-- The magnitude m * 2^e rounded to a multiple of 2^k: the count of units, and the LFSR after it (grid_round, R29,
R31). The sign decides the directed modes. -/
def roundUnits (neg : Bool) (m : Nat) (e k : Int) (mode : Rm) (l : Word) : Nat × Word :=
  let l' := if mode = .rsto then lfsrStep l else l
  if k ≤ e then (m <<< (e - k).toNat, l')
  else
    let sh := (k - e).toNat
    let a := m >>> sh
    let r := m % 2 ^ sh
    if r = 0 then (a, l')
    else
      match mode with
      | .rtz => (a, l')
      | .rdn => (if neg then a + 1 else a, l')
      | .rup => (if neg then a else a + 1, l')
      | .rsto => (if (r * 65536) >>> sh + l'.toNat % 65536 ≥ 65536 then a + 1 else a, l')
      | .rne =>
        if 2 * r < 2 ^ sh then (a, l')
        else if 2 ^ sh < 2 * r then (a + 1, l')
        else (if a % 2 = 0 then a else a + 1, l')

/-- floor(log2) of a positive magnitude m * 2^e. -/
def floorLog (m : Nat) (e : Int) : Int := (Nat.log2 m : Int) + e

/-- The exponent of ulp_at(fmt, m * 2^e) (01). -/
def ulpExp (l : FloatLayout) (m : Nat) (e : Int) : Int :=
  if floorLog m e < 1 - (l.bias : Int) then 1 - (l.bias : Int) - l.mbits else floorLog m e - l.mbits

/-- encode of a representable magnitude n * 2^k, without its sign (01). -/
def encodeMag (l : FloatLayout) (n : Nat) (k : Int) : Nat :=
  let sub : Int := 1 - (l.bias : Int) - l.mbits
  if n = 0 then 0
  else
    let f := floorLog n k
    if f < 1 - (l.bias : Int) then (if k ≥ sub then n <<< (k - sub).toNat else n >>> (sub - k).toNat)
    else
      let q := f - l.mbits
      let sig := if k ≥ q then n <<< (k - q).toNat else n >>> (q - k).toNat
      (f + l.bias).toNat * 2 ^ l.mbits + (sig - 2 ^ l.mbits)

/-- A code with its sign bit. -/
def withSign (l : FloatLayout) (neg : Bool) (x : Nat) : Nat :=
  if neg then x + 2 ^ (l.ebits + l.mbits) else x

/-- overflow_result of 01 (R30). -/
def overflowCode (f : Fmt) (l : FloatLayout) (neg : Bool) (mode : Rm) (sat : Bool) : Nat :=
  if sat || !l.hasNan then withSign l neg (maxCode f)
  else if mode = .rtz || (mode = .rdn && !neg) || (mode = .rup && neg) then withSign l neg (maxCode f)
  else if l.hasInf then withSign l neg (infCode f)
  else nanCode f

/-- round_to_format for an integer format (R30, R36): NaN gives 0, infinities and overflows the extremes. -/
def roundToInt (w : Nat) (v : Val) (mode : Rm) (l : Word) : Nat × Word :=
  let lo : Int := -(2 ^ (w - 1) : Nat)
  let hi : Int := (2 ^ (w - 1) : Nat) - 1
  let drawn := if mode = .rsto then lfsrStep l else l
  match v with
  | .nan => (0, drawn)
  | .inf neg => (narrow w (if neg then lo else hi), drawn)
  | .fin neg m e =>
    if m = 0 then (0, drawn)
    else
      let (n, l') := roundUnits neg m e 0 mode l
      (narrow w (clampI lo hi (if neg then -(n : Int) else n)), l')

/-- round_to_format of 01: the code, or none for POISON, and the LFSR after its draw (R29 to R33). -/
def roundTo (v : Val) (f : Fmt) (mode : Rm) (sat : Bool) (l : Word) : Option Nat × Word :=
  match layoutOf f with
  | none => let (x, l') := roundToInt (fmtBits f) v mode l; (some x, l')
  | some fl =>
    let drawn := if mode = .rsto then lfsrStep l else l
    match v with
    | .nan => (if fl.hasNan then some (nanCode f) else none, drawn)
    | .inf neg =>
      if fl.hasInf && !sat then (some (withSign fl neg (infCode f)), drawn)
      else if fl.hasNan && !fl.hasInf && !sat then (some (nanCode f), drawn)
      else (some (withSign fl neg (maxCode f)), drawn)
    | .fin neg m e =>
      if m = 0 then (some (withSign fl neg 0), drawn)
      else
        let k := ulpExp fl m e
        let (n, l') := roundUnits neg m e k mode l
        let code := encodeMag fl n k
        if maxCode f < code then (some (overflowCode f fl neg mode sat), l')
        else (some (withSign fl neg code), l')

/-- round_to_format under rne without saturation, where no draw is taken; POISON as code 0. -/
def roundNe (v : Val) (f : Fmt) : Nat := ((roundTo v f .rne false 1).1).getD 0

/-! ### Exact arithmetic (R125) -/

/-- Sign of a value; NaN counts as positive. -/
def Val.neg? : Val → Bool
  | .nan => false
  | .inf s => s
  | .fin s _ _ => s

/-- The negated value. -/
def Val.negate : Val → Val
  | .nan => .nan
  | .inf s => .inf (!s)
  | .fin s m e => .fin (!s) m e

/-- Whether a value is NaN. -/
def Val.isNan : Val → Bool
  | .nan => true
  | _ => false

/-- Whether a value is an infinity. -/
def Val.isInf : Val → Bool
  | .inf _ => true
  | _ => false

/-- Whether a value is a zero. -/
def Val.isZero : Val → Bool
  | .fin _ 0 _ => true
  | _ => false

/-- A finite value as an integer count of units 2^k, where k is no greater than its exponent. -/
def unitsAt (s : Bool) (m : Nat) (e k : Int) : Int :=
  let n : Int := (m <<< (e - k).toNat : Nat)
  if s then -n else n

/-- Exact sum with the zero sign of IEEE 754 (R125): an exact zero of opposite signs is +0, and -0 under rdn. -/
def addVal (a b : Val) (mode : Rm) : Val :=
  match a, b with
  | .nan, _ | _, .nan => .nan
  | .inf s, .inf t => if s = t then .inf s else .nan
  | .inf s, _ => .inf s
  | _, .inf t => .inf t
  | .fin s m e, .fin t n f =>
    if m = 0 ∧ n = 0 then .fin (if s = t then s else mode = .rdn) 0 0
    else
      let k := min e f
      let v := unitsAt s m e k + unitsAt t n f k
      if v = 0 then .fin (mode = .rdn) 0 0 else .fin (v < 0) v.natAbs k

/-- Exact product (R125). -/
def mulVal (a b : Val) : Val :=
  match a, b with
  | .nan, _ | _, .nan => .nan
  | .inf s, .inf t => .inf (s != t)
  | .inf s, .fin t n _ => if n = 0 then .nan else .inf (s != t)
  | .fin s m _, .inf t => if m = 0 then .nan else .inf (s != t)
  | .fin s m e, .fin t n f => .fin (s != t) (m * n) (e + f)

/-- a * b + c exactly (R126). -/
def fmaVal (a b c : Val) (mode : Rm) : Val := addVal (mulVal a b) c mode

/-- Order of two values that are not NaN; zeros compare equal. -/
def ltVal (a b : Val) : Bool :=
  match a, b with
  | .nan, _ | _, .nan => false
  | .inf s, .inf t => s && !t
  | .inf s, _ => s
  | _, .inf t => !t
  | .fin s m e, .fin t n f =>
    let k := min e f
    unitsAt s m e k < unitsAt t n f k

/-- Equality of two values that are not NaN; zeros compare equal. -/
def eqVal (a b : Val) : Bool := !a.isNan && !b.isNan && !ltVal a b && !ltVal b a

/-- Order with -0 below +0 (R127). -/
def ltTotal (a b : Val) : Bool :=
  ltVal a b || (eqVal a b && a.neg? && !b.neg?)

/-- The fmin rule of R127. -/
def minVal (a b : Val) : Val :=
  if a.isNan then b else if b.isNan then a else if ltTotal b a then b else a

/-- The fmax rule of R127. -/
def maxVal (a b : Val) : Val :=
  if a.isNan then b else if b.isNan then a else if ltTotal a b then b else a

/-- The exact sum of a list of values as R38 sums a group's products: NaN where a term is NaN or both infinities
occur, an infinity, or a finite sum, +0 where it is zero. -/
def sumGroup (vs : List Val) : Val :=
  let s := vs.foldl (fun acc v => addVal acc v .rne) (.fin false 0 0)
  if s.isZero then .fin false 0 0 else s

/-- group_to_fp32 of R38, as an fp32 code. -/
def groupToFp32 (p : Val) : Nat := roundNe (if p.isZero then .fin false 0 0 else p) .fp32

/-! ### Results that are not dyadic (R126, R129) -/

/-- Square root of n rounded down, one bit a step from bit k (structural). -/
def isqrtFrom : Nat → Nat → Nat → Nat
  | 0, n, r => if (r + 1) * (r + 1) ≤ n then r + 1 else r
  | k + 1, n, r =>
    let r' := r + 2 ^ (k + 1)
    isqrtFrom k n (if r' * r' ≤ n then r' else r)

/-- Square root rounded down. -/
def isqrt (n : Nat) : Nat := if n = 0 then 0 else isqrtFrom (Nat.log2 n / 2 + 1) n 0

/-- A sticky number: q units of 2^k, and half a unit more where the exact value is not q units. -/
def stickyVal (neg : Bool) (q : Nat) (inexact : Bool) (k : Int) : Val :=
  .fin neg (2 * q + (if inexact then 1 else 0)) (k - 1)

/-- 1/a for a finite nonzero a, to 200 significant bits and sticky. -/
def recipMag (neg : Bool) (m : Nat) (e : Int) : Val :=
  let p := Nat.log2 m + 200
  stickyVal neg (2 ^ p / m) (2 ^ p % m != 0) (-e - p)

/-- sqrt of m * 2^e for m > 0, to 200 bits and sticky. -/
def sqrtMag (m : Nat) (e : Int) : Val :=
  let t : Nat := if e % 2 = 0 then 400 else 401
  let x := m <<< t
  let r := isqrt x
  stickyVal false r (r * r != x) ((e - t) / 2)

/-- 1/sqrt of m * 2^e for m > 0, to about 200 bits and sticky. -/
def rsqrtMag (m : Nat) (e : Int) : Val :=
  let p0 := Nat.log2 m + 400
  let p : Nat := if (e + p0) % 2 = 0 then p0 else p0 + 1
  let r := isqrt (2 ^ p / m)
  stickyVal false r (r * r * m != 2 ^ p) ((-e - p) / 2)

/-- The fractional bits kept by the enclosures below. -/
def encBits : Nat := 256

/-- The product, in units of 2^-encBits, of 2^(2^-j) over the one bits of the fraction r / 2^k, highest first, each
factor rounded down; c is the current factor. Its error is below 4 k units. -/
def exp2Frac : Nat → Nat → Nat → Nat → Nat
  | 0, _, _, acc => acc
  | k + 1, r, c, acc =>
    let c' := isqrt (c <<< encBits)
    exp2Frac k (r % 2 ^ k) c' (if r ≥ 2 ^ k then (acc * c') >>> encBits else acc)

/-- 2^a for a finite a (R129): exact where a is an integer, otherwise sticky to 64 fractional bits, or none where the
enclosure does not decide. Results far beyond every format are held at 2^4000 and 2^-4000. -/
def exp2Val (neg : Bool) (m : Nat) (e : Int) : Option Val :=
  if m = 0 then some (.fin false 1 0)
  else if floorLog m e ≥ 12 then
    some (if neg then .fin false 3 (-4000) else .fin false 3 4000)
  else if e ≥ 0 then
    let n : Int := (m <<< e.toNat : Nat)
    some (.fin false 1 (if neg then -n else n))
  else
    let k := (-e).toNat
    let v : Int := if neg then -(m : Int) else m
    let i := v / (2 ^ k : Nat)
    let r := (v % (2 ^ k : Nat)).toNat
    if r = 0 then some (.fin false 1 i)
    else
      let (k, r) := if 200 < k then (200, r >>> (k - 200)) else (k, r)
      let lo := exp2Frac k r (2 ^ (encBits + 1)) (2 ^ encBits)
      let hi := lo + 8 * k + 8 + 2 ^ 64
      let s := encBits - 64
      if lo >>> s = hi >>> s then some (stickyVal false (lo >>> s) true (i - 64)) else none

/-- Fractional bits of log2 of a number in [1, 2) held between lo and hi units of 2^-512, n bits by repeated
squaring; none where the two ends disagree. -/
def log2Digits : Nat → Nat → Nat → Nat → Option Nat
  | 0, _, _, acc => some acc
  | n + 1, lo, hi, acc =>
    let lo2 := (lo * lo) >>> 512
    let hi2 := (hi * hi) >>> 512 + 1
    if lo2 ≥ 2 ^ 513 then log2Digits n (lo2 / 2) (hi2 / 2 + 1) (2 * acc + 1)
    else if hi2 < 2 ^ 513 then log2Digits n lo2 hi2 (2 * acc)
    else none

/-- log2 of m * 2^e for m > 0 (R129): exact for a power of two, otherwise sticky to 200 fractional bits. -/
def log2Val (m : Nat) (e : Int) : Option Val :=
  let f := floorLog m e
  let x := m <<< (512 - Nat.log2 m)
  if m = 2 ^ Nat.log2 m then some (.fin (f < 0) f.natAbs 0)
  else
    (log2Digits 200 x x 0).map fun d =>
      let v : Int := f * (2 ^ 200 : Nat) + d
      if v ≥ 0 then stickyVal false v.toNat true (-200)
      else stickyVal true (-v - 1).toNat true (-200)

/-- Terms of the series of e^y, y and the result in units of 2^-640, rounded down. -/
def expSeries : Nat → Nat → Nat → Nat → Nat → Nat
  | 0, _, _, _, acc => acc
  | n + 1, i, y, t, acc =>
    let t' := (t * y / i) >>> 640
    expSeries n (i + 1) y t' (acc + t')

/-- A number of units of 2^-640 squared n times, rounded down. -/
def squareTimes : Nat → Nat → Nat
  | 0, x => x
  | n + 1, x => squareTimes n ((x * x) >>> 640)

/-- tanh of m * 2^e for m > 0 (R129), sticky. Beyond 32 it lies within 2^-64 of 1; below 2^-40 within a relative
2^-80 of its argument; between them e^(2x) is enclosed within 2^120 units of 2^-640. -/
def tanhVal (neg : Bool) (m : Nat) (e : Int) : Option Val :=
  let f := floorLog m e
  if f ≥ 5 then some (.fin neg (2 ^ 64 - 1) (-64))
  else if f < -40 then some (.fin neg (m * 2 ^ 80 - 1) (e - 80))
  else
    let one := 2 ^ 640
    let y := if e + 631 ≥ 0 then m <<< (e + 631).toNat else m >>> (-(e + 631)).toNat
    let elo := squareTimes 10 (expSeries 90 1 y one one)
    let ehi := elo + 2 ^ 120
    let lo := one - 2 * one * one / (elo + one) - 1
    let hi := one - 2 * one * one / (ehi + one) + 1
    if lo >>> 440 = hi >>> 440 then some (stickyVal neg (lo >>> 440) true (-200)) else none

/-- The one-source functions of R129. -/
inductive UnFn where
  | frcp | frsq | fsqrt | fexp2 | flog2 | ftanh
  deriving DecidableEq, Repr

/-- The exact (or sticky) value of a one-source function, with the special inputs of R129; none where the enclosure
does not decide. -/
def unVal (fn : UnFn) (a : Val) : Option Val :=
  match fn, a with
  | _, .nan => some .nan
  | .frcp, .inf s => some (.fin s 0 0)
  | .frcp, .fin s m e => some (if m = 0 then .inf s else recipMag s m e)
  | .frsq, .inf s => some (if s then .nan else .fin false 0 0)
  | .frsq, .fin s m e => some (if m = 0 then .inf s else if s then .nan else rsqrtMag m e)
  | .fsqrt, .inf s => some (if s then .nan else .inf false)
  | .fsqrt, .fin s m e => some (if m = 0 then .fin s 0 0 else if s then .nan else sqrtMag m e)
  | .fexp2, .inf s => some (if s then .fin false 0 0 else .inf false)
  | .fexp2, .fin s m e => exp2Val s m e
  | .flog2, .inf s => some (if s then .nan else .inf false)
  | .flog2, .fin s m e => if m = 0 then some (.inf true) else if s then some .nan else log2Val m e
  | .ftanh, .inf s => some (.fin s 1 0)
  | .ftanh, .fin s m e => if m = 0 then some (.fin s 0 0) else tanhVal s m e

/-- frnd (R128): the value rounded to an integer under the mode. -/
def rndVal (v : Val) (mode : Rm) (l : Word) : Val × Word :=
  let drawn := if mode = .rsto then lfsrStep l else l
  match v with
  | .fin s m e =>
    if m = 0 then (v, drawn)
    else let (n, l') := roundUnits s m e 0 mode l; (.fin s n 0, l')
  | v => (v, drawn)

/-! ### Block scales (R24 to R27) and the reduction tree (R37) -/

/-- emax of R27 for an element format. -/
def scaleEmax (f : Fmt) : Int :=
  match elemFmt f with
  | .e2m1 => 2
  | _ => 8

/-- The scale of R27 for a block's largest magnitude: 0xff for NaN and infinity, 127 for zero. -/
def blockScale (f : Fmt) (amax : Val) : Byte :=
  match amax with
  | .nan | .inf _ => 0xff
  | .fin _ m e =>
    if m = 0 then 127 else BitVec.ofInt 8 (clampI 0 254 (floorLog m e - scaleEmax f + 127))

/-- The largest magnitude of a block of values; NaN where one is NaN or infinite (R27). -/
def blockAmax (vs : List Val) : Val :=
  vs.foldl (fun acc v =>
    match acc, v with
    | .nan, _ | _, .nan | _, .inf _ => .nan
    | a, .fin _ m e => if ltVal a (.fin false m e) then .fin false m e else a) (.fin false 0 0)

/-- One element of a block under scale s (R27 step 3): saturating, and code 0 under scale 0xff. An element -0 keeps its
sign, also in a block of zeros, of which R27 says only that its elements are zero (DESIGN CHOICE, log entry 76). -/
def blockElem (f : Fmt) (s : Byte) (v : Val) (mode : Rm) (l : Word) : Option Nat × Word :=
  if s = 0xff then (some 0, l) else roundTo (v.scale (127 - (s.toNat : Int))) (elemFmt f) mode true l

/-- One level of the tree of R37: neighbours combine, left to right, threading the LFSR. -/
def treeLevel (op : Nat → Nat → Word → Nat × Word) : List Nat → Word → List Nat × Word
  | a :: b :: xs, l =>
    let (r, l') := op a b l
    let (rs, l'') := treeLevel op xs l'
    (r :: rs, l'')
  | xs, l => (xs, l)

/-- The tree of R37 over at most 2^n lanes. -/
def treeReduce (op : Nat → Nat → Word → Nat × Word) : Nat → List Nat → Word → Nat × Word
  | 0, xs, l => (xs.headD 0, l)
  | n + 1, xs, l => let (ys, l') := treeLevel op xs l; treeReduce op n ys l'

/-- The elements a record of a format carries for a length (R18). -/
def elemCount (f : Fmt) (len : Nat) : Nat :=
  match f with
  | .e3m2 => len / 3 * 16
  | f => if fmtBits f = 0 then 0 else len * 32 / fmtBits f

/-- A list of values rounded one after the other, threading the LFSR; POISON as code 0 with the flag set (R28,
R131). -/
def roundList (f : Fmt) (mode : Rm) (sat : Bool) : List Val → Word → List Nat × Word × Bool
  | [], l => ([], l, false)
  | v :: vs, l =>
    let (x, l') := roundTo v f mode sat l
    let (xs, l'', p) := roundList f mode sat vs l'
    (x.getD 0 :: xs, l'', p || x.isNone)

end Sys2Proof.Machine
end

