-- ==== Sys2Proof/Machine/Memory.lean ====
section
/-!
DEFINITION. Bytes of memory and their poison marks (00 R15, 18 R479, R480). A memory is a list of (address, byte) pairs
in one canonical form, and every write keeps it.
-/
namespace Sys2Proof.Machine

/-- The byte at an address; an unlisted address reads 0 (19 R501, 08 R239, log entry 3). -/
def readByte : Mem → Nat → Byte
  | [], _ => 0
  | c :: m, a => if c.1 = a then c.2 else if a < c.1 then 0 else readByte m a

/-- Puts a nonzero byte, or removes the entry for a zero one. -/
def putCell (a : Nat) (b : Byte) (m : Mem) : Mem := if b = 0 then m else (a, b) :: m

/-- The memory with one byte written. -/
def writeByte : Mem → Nat → Byte → Mem
  | [], a, b => putCell a b []
  | c :: m, a, b =>
    if c.1 = a then putCell a b m
    else if a < c.1 then putCell a b (c :: m)
    else c :: writeByte m a b

/-- n bytes from an address up. -/
def readBytes (m : Mem) (a : Nat) : Nat → List Byte
  | 0 => []
  | n + 1 => readByte m a :: readBytes m (a + 1) n

/-- A list of bytes written from an address up. -/
def writeBytes (m : Mem) (a : Nat) : List Byte → Mem
  | [] => m
  | b :: bs => writeBytes (writeByte m a b) (a + 1) bs

/-- Whether the addresses of a memory rise from lo on and no byte is 0. -/
def memWfFrom (lo : Nat) : Mem → Bool
  | [] => true
  | c :: m => lo ≤ c.1 && c.2 != 0 && memWfFrom (c.1 + 1) m

/-- The canonical form: addresses strictly rising, no entry equal to what an unlisted address reads as. -/
def memWf (m : Mem) : Bool := memWfFrom 0 m

/-! ### Sets of numbers, rising and without repeats -/

/-- A set with one more number. -/
def insertN (x : Nat) : List Nat → List Nat
  | [] => [x]
  | y :: ys => if x < y then x :: y :: ys else if x = y then y :: ys else y :: insertN x ys

/-- A set without a number. -/
def eraseN (x : Nat) (l : List Nat) : List Nat := l.filter fun y => y != x

/-- Whether a list rises strictly. -/
def risingFrom (lo : Nat) : List Nat → Bool
  | [] => true
  | x :: xs => lo ≤ x && risingFrom (x + 1) xs

/-! ### Poison marks -/

/-- The granules of g bytes that n bytes from a touch (R479). -/
def granules (g a n : Nat) : List Nat :=
  if n = 0 then [] else (List.range ((a + n - 1) / g - a / g + 1)).map fun i => a / g + i

/-- The granules of g bytes that n bytes from a cover whole (R480). -/
def coveredGranules (g a n : Nat) : List Nat :=
  (granules g a n).filter fun x => a ≤ g * x && g * x + g ≤ a + n

/-- Whether a read of n bytes at a is poisoned (R480). -/
def isPoisoned (g : Nat) (marks : List Nat) (a n : Nat) : Bool :=
  (granules g a n).any fun x => marks.contains x

/-- The marks after a clean write of n bytes at a: a mark goes only where the whole granule is covered (R480). -/
def clearMarks (g : Nat) (marks : List Nat) (a n : Nat) : List Nat :=
  let cov := coveredGranules g a n
  marks.filter fun x => !(cov.contains x)

/-- The marks with every granule that n bytes at a touch (R257, R479). -/
def setMarks (g : Nat) (marks : List Nat) (a n : Nat) : List Nat :=
  (granules g a n).foldl (fun ms x => insertN x ms) marks

/-- A range cut at the multiples of g into ascending pieces, each (address, length) (R330); n bounds the pieces. -/
def cutAt (g : Nat) : Nat → Nat → Nat → List (Nat × Nat)
  | 0, _, _ => []
  | fuel + 1, a, n =>
    if n = 0 then []
    else
      let k := min n (g - a % g)
      (a, k) :: cutAt g fuel (a + k) (n - k)

/-- The unit pieces of an access of n bytes at a (R328, R330). -/
def pieces (g a n : Nat) : List (Nat × Nat) := cutAt g (n + 1) a n

end Sys2Proof.Machine
end

