-- ==== Sys2Proof/Machine/Ops.lean ====
section
/-!
DEFINITION. The named operations that every meaning is written over: reaching a context, a thread, a lay and a station;
the fault log, interrupts and fault events; taking a trap and returning from one (14 R415, 15 R439); translation
(14 R398 to R403); and far accesses of a thread (05 R160).
-/
namespace Sys2Proof.Machine

/-- The answer of every meaning. -/
abbrev Res := Host.Outcome State Fault Refusal

/-! ### Contexts and threads -/

/-- Context number c. -/
def State.ctx (s : State) (c : CtxId) : Ctx := s.ctxs[c.val]

/-- The state with context c replaced. -/
def State.setCtx (s : State) (c : CtxId) (x : Ctx) : State := { s with ctxs := s.ctxs.set c.val x }

/-- The state with context c changed. -/
def State.modCtx (s : State) (c : CtxId) (f : Ctx → Ctx) : State := s.setCtx c (f (s.ctx c))

/-- The state with the port of context c changed. -/
def State.modPort (s : State) (c : CtxId) (f : Port → Port) : State :=
  s.modCtx c fun x => { x with port := f x.port }

/-- Thread t of a context. -/
def Ctx.thread (x : Ctx) (t : Tid) : Thread := x.threads[t.val]

/-- Thread t of context c. -/
def State.thread (s : State) (c : CtxId) (t : Tid) : Thread := (s.ctx c).thread t

/-- The state with thread t of context c replaced. -/
def State.setThread (s : State) (c : CtxId) (t : Tid) (x : Thread) : State :=
  s.modCtx c fun y => { y with threads := y.threads.set t.val x }

/-- The state with thread t of context c changed. -/
def State.modThread (s : State) (c : CtxId) (t : Tid) (f : Thread → Thread) : State :=
  s.setThread c t (f (s.thread c t))

/-- The numbers of a context's threads. -/
def Ctx.tids (x : Ctx) : List Tid := (List.finRange 8).filter fun t => t.val < x.nthr

/-! ### Sequencer registers (R58, R59) -/

/-- General register n; s0 reads zero. -/
def Thread.getS (x : Thread) (n : Fin 32) : DWord := if n = 0 then 0 else x.s[n.val]

/-- The thread with general register n written; a write of s0 is ignored. -/
def Thread.setS (x : Thread) (n : Fin 32) (v : DWord) : Thread :=
  if n = 0 then x else { x with s := x.s.set n.val v }

/-- Predicate n; p0 reads 1. -/
def Thread.getP (x : Thread) (n : BitVec 3) : Bool := n == 0 || x.p.getLsbD n.toNat

/-- The thread with predicate n written; a write of p0 is ignored. -/
def Thread.setP (x : Thread) (n : BitVec 3) (v : Bool) : Thread :=
  if n = 0 then x
  else { x with p := if v then x.p ||| ((1 : BitVec 8) <<< n.toNat) else x.p &&& ~~~((1 : BitVec 8) <<< n.toNat) }

/-- pset as it reads: bit 0 is 1 (R59). -/
def Thread.pset (x : Thread) : BitVec 8 := x.p ||| 1

/-! ### Lays and stations -/

/-- The lay in slot l of context c. -/
def State.lay? (s : State) (c : CtxId) (l : LaySlot) : Option Lay := (s.ctx c).lays[l.val]

/-- The lay that is resident in a slot: its load has ended (R2, R278). -/
def State.resident? (s : State) (c : CtxId) (l : LaySlot) : Option Lay :=
  match s.lay? c l with
  | some x => if x.loading then none else some x
  | none => none

/-- The state with slot l of context c replaced. -/
def State.setLay (s : State) (c : CtxId) (l : LaySlot) (x : Option Lay) : State :=
  s.modCtx c fun y => { y with lays := y.lays.set l.val x }

/-- The state with the lay in slot l of context c changed, where one is resident. -/
def State.modLay (s : State) (c : CtxId) (l : LaySlot) (f : Lay → Lay) : State :=
  match s.lay? c l with
  | some x => s.setLay c l (some (f x))
  | none => s

/-- The station of a lay at a page and sid. -/
def Lay.station? (x : Lay) (pid : Pid) (sid : Sid) : Option Station :=
  x.stations.find? fun y => y.pid == pid && y.sid == sid

/-- The lay with the station at a page and sid changed. -/
def Lay.modStation (x : Lay) (pid : Pid) (sid : Sid) (f : Station → Station) : Lay :=
  { x with stations := x.stations.map fun y => if y.pid == pid && y.sid == sid then f y else y }

/-- The station at a place. -/
def State.station? (s : State) (p : Place) : Option Station := (s.lay? p.ctx p.slot).bind fun x => x.station? p.pid p.sid

/-- The state with the station at a place changed. -/
def State.modStation (s : State) (p : Place) (f : Station → Station) : State :=
  s.modLay p.ctx p.slot fun x => x.modStation p.pid p.sid f

/-- The page count of a lay. -/
def Lay.npages (x : Lay) : Nat := x.pages.length

/-- The reel of a page. -/
def Lay.reel? (x : Lay) (pg : Nat) : Option Reel := x.pages[pg]?.map Page.reel

/-- The lay with the reel of a page changed. -/
def Lay.modReel (x : Lay) (pg : Nat) (f : Reel → Reel) : Lay :=
  match x.pages[pg]? with
  | some p => { x with pages := x.pages.set pg { p with reel := f p.reel } }
  | none => x

/-- The lay with stream n of a page's reel changed. -/
def Lay.modStream (x : Lay) (pg : Nat) (n : Fin 4) (f : Stream → Stream) : Lay :=
  x.modReel pg fun r => { r with streams := r.streams.set n.val (f r.streams[n.val]) }

/-- Stream n of a page's reel. -/
def Lay.stream? (x : Lay) (pg : Nat) (n : Fin 4) : Option Stream := (x.reel? pg).map fun r => r.streams[n.val]

/-- The bank of a station. -/
def Station.bank? (x : Station) : Option Bank :=
  match x.body with
  | .bank b => some b
  | _ => none

/-- The splice of a station. -/
def Station.splice? (x : Station) : Option Splice :=
  match x.body with
  | .splice b => some b
  | _ => none

/-- The matrix state of a station. -/
def Station.matrix? (x : Station) : Option Matrix :=
  match x.body with
  | .matrix m => some m
  | _ => none

/-- The site of a station from the kind in its sid (R56). -/
def sidSite (sid : Sid) : Site :=
  match sid.toNat / 32 with
  | 0 => .compute
  | 1 => .bank
  | 2 => .matrix
  | _ => .splice

/-- The near banks of a lay (R232): sixteen a page. -/
def Lay.nbanks (x : Lay) : Nat := 16 * x.npages

/-- The station that is near bank k (R232). -/
def bankPlace (c : CtxId) (l : LaySlot) (k : Nat) : Place :=
  ⟨c, l, Fin.ofNat 64 (k / 16), BitVec.ofNat 7 (32 + k % 16)⟩

/-- Near bank k of a lay. -/
def Lay.bankAt? (x : Lay) (k : Nat) : Option Bank :=
  (x.station? (Fin.ofNat 64 (k / 16)) (BitVec.ofNat 7 (32 + k % 16))).bind Station.bank?

/-- The lay with near bank k changed. -/
def Lay.modBank (x : Lay) (k : Nat) (f : Bank → Bank) : Lay :=
  x.modStation (Fin.ofNat 64 (k / 16)) (BitVec.ofNat 7 (32 + k % 16)) fun st =>
    match st.body with
    | .bank b => { st with body := .bank (f b) }
    | _ => st

/-- Notes that a counter of the quiescence detector has changed (R223). -/
def Lay.stir (x : Lay) : Lay := { x with moved := true, sweeps := 0 }

/-- Notes an event that restarts the wedge timer (R225); the lay is then not wedged (R61). -/
def Lay.progressed (x : Lay) : Lay := { x with wedgeTimer := 0, wedged := false }.stir

/-! ### The fault log and interrupts (R468, R482, R483) -/

/-- Whether a vector's entry of the MSI-X table masks it: bit 0 of its control word (PRESUMED; log entry 72). -/
def Links.masked (l : Links) (v : Nat) : Bool := (l.msixTable.toList.getD (2 * v + 1) 0).getLsbD 32

/-- A vector's message goes to the host: the data of its table entry to its address; a masked vector pends. -/
def Links.raised (l : Links) (v : Nat) : Links :=
  if l.masked v then { l with msixPending := l.msixPending ||| (1 <<< v) }
  else { l with msgs := l.msgs ++ [(v, l.msixTable.toList.getD (2 * v) 0, (l.msixTable.toList.getD (2 * v + 1) 0).truncate 32)] }

/-- Raises an MSI-X vector (R468). -/
def State.raiseVec (s : State) (v : Nat) : State := { s with links := s.links.raised v }

/-- A word of the MSI-X table is written: a vector that pends and is masked no more is sent. -/
def Links.putTable (l : Links) (n : Fin 132) (v : DWord) : Links :=
  let l1 := { l with msixTable := l.msixTable.set n.val v }
  let k := n.val / 2
  if l1.msixPending.getLsbD k && !(l1.masked k) then
    { l1 with msixPending := l1.msixPending &&& ~~~((1 : BitVec 66) <<< k) }.raised k
  else l1

/-- The bytes of a fault-log entry (R482). -/
def logBytes (cyc kind die page st ctx addr count detail : Nat) : List Byte :=
  [kind, die, page, st, ctx, 0, 0, 0].map (BitVec.ofNat 8) ++ bytesOfNat 8 addr ++ bytesOfNat 8 cyc
    ++ bytesOfNat 4 count ++ bytesOfNat 4 detail ++ List.replicate 32 0

/-- Adds an entry to the fault log, or counts it lost (R482). -/
def State.logAdd (s : State) (kind die page st ctx addr count detail : Nat) : State :=
  let g := s.log
  if (g.head - g.tail).toNat = 63 then
    { s with log := { g with lost := if g.lost = 0xffffffff then g.lost else g.lost + 1 } }
  else
    let e := logBytes s.cyc kind die page st ctx addr count detail
    { s with log := { g with head := g.head + 1, entries := g.entries.setIfInBounds (g.head.toNat % 63) e } }.raiseVec 64

/-- Takes a free value (log entry 2). -/
def State.takeFree (s : State) : Word × State := (Config.freeWord s.free, { s with free := s.free + 1 })

/-- Takes n free values. -/
def State.takeFrees (s : State) : Nat → List Word × State
  | 0 => ([], s)
  | n + 1 =>
    let (w, s1) := s.takeFree
    let (ws, s2) := s1.takeFrees n
    (w :: ws, s2)

/-! ### HBM (R7, R11) -/

/-- The bytes of HBM: twelve stacks of 48 GiB (R11). -/
def hbmSize : Nat := 12 * 48 * 2 ^ 30

/-- Reads n bytes of HBM, and whether the read is poisoned (R480). What lies beyond the stacks reads as open values
(DESIGN CHOICE, log entry 5). -/
def State.hbmRead (s : State) (a n : Nat) : List Byte × Bool :=
  if a + n ≤ hbmSize then (readBytes s.hbm a n, isPoisoned 32 s.hbmPoison a n)
  else ((List.range n).map fun i => Config.beyondByte (a + i), false)

/-- Writes clean bytes to HBM; marks go where a whole granule is covered (R480). Beyond the stacks nothing is written
(DESIGN CHOICE, log entry 5). -/
def State.hbmWrite (s : State) (a : Nat) (bs : List Byte) : State :=
  if a + bs.length ≤ hbmSize then
    { s with hbm := writeBytes s.hbm a bs, hbmPoison := clearMarks 32 s.hbmPoison a bs.length }
  else s

/-- Marks HBM granules poisoned without writing (R257, R479). -/
def State.hbmMark (s : State) (a n : Nat) : State := { s with hbmPoison := setMarks 32 s.hbmPoison a n }

/-! ### Errors in memory (R478, R483, R486) -/

/-- Counts a corrected error of a page or stack by its key; each 256th writes a summary (R483). -/
def State.countCorrected (s : State) (key kind die page st : Nat) : State :=
  let n := ((s.upkeep.corrected.find? fun x => x.1 == key).map Prod.snd).getD 0 + 1
  let others := s.upkeep.corrected.filter fun x => x.1 != key
  if n = 256 then ({ s with upkeep := { s.upkeep with corrected := others } }).logAdd kind die page st 255 0 256 0
  else { s with upkeep := { s.upkeep with corrected := (key, n) :: others } }

/-- The stack that holds an address as log entries name it: die, stack of the die (R482; log entry 8). -/
def stackOf (a : Nat) : Nat × Nat := ((Config.hbmStack a).val / 3, (Config.hbmStack a).val % 3)

/-- A row repair starts where the bank has a spare row; otherwise the row is logged once (R486). -/
def State.startRepair (s : State) (row a : Nat) : State :=
  let bank := Config.hbmBankOfRow row
  let used := ((s.upkeep.spareUsed.find? fun x => x.1 == bank).map Prod.snd).getD 0
  if s.upkeep.repairing.any fun x => x.1 == row then s
  else if used < Config.hbmSpareRows bank then
    { s with upkeep := { s.upkeep with repairing := (row, a) :: s.upkeep.repairing,
                                       spareUsed := (bank, used + 1) :: s.upkeep.spareUsed.filter fun x => x.1 != bank } }
  else if s.upkeep.hopeless.contains row then s
  else ({ s with upkeep := { s.upkeep with hopeless := row :: s.upkeep.hopeless } }).logAdd 6 (stackOf a).1 255 (stackOf a).2 255 a 0 0

/-- What the code of HBM finds in the unit of an address (R478, R486): a corrected error is counted by stack and row, an
uncorrectable one marks the unit. -/
def State.hbmEcc (s : State) (a : Nat) (e : Ecc) : State :=
  let row := Config.hbmRow a
  let (die, stack) := stackOf a
  match e with
  | .clean => s
  | .corrected =>
    let n := ((s.upkeep.rowErrs.find? fun x => x.1 == row).map Prod.snd).getD 0 + 1
    let s1 := { s with upkeep := { s.upkeep with rowErrs := (row, n) :: s.upkeep.rowErrs.filter fun x => x.1 != row } }
    let s2 := s1.countCorrected (1000 + (Config.hbmStack a).val) 3 die 255 stack
    if n = 3 then s2.startRepair row a else s2
  | .uncorrectable => ((s.hbmMark a 1).logAdd 4 die 255 stack 255 a 0 0).startRepair row a

/-- The error that a flaw is. -/
def eccOf (bad : Bool) : Ecc := if bad then .uncorrectable else .corrected

/-- A read of HBM finds the errors that have struck its units (R478). -/
def State.hbmScan (s : State) (a n : Nat) : State :=
  let hit (x : Nat × Bool) : Bool := (granules 32 a n).contains (x.1 / 32)
  if s.upkeep.flaws.isEmpty then s
  else
    (s.upkeep.flaws.filter hit).foldl (fun z x => z.hbmEcc x.1 (eccOf x.2))
      { s with upkeep := { s.upkeep with flaws := s.upkeep.flaws.filter fun x => !(hit x) } }

/-- Whether a row under repair holds a byte of a range: its accesses wait (R486). -/
def State.rowsBusy (s : State) (a n : Nat) : Bool :=
  !s.upkeep.repairing.isEmpty && (granules 32 a n).any fun g => s.upkeep.repairing.any fun x => x.1 == Config.hbmRow (32 * g)

/-! ### Translation (R398 to R401, R469, R498) -/

/-- What an access needs of its leaf (R400). -/
structure Need where
  r : Bool
  w : Bool
  x : Bool
  deriving DecidableEq, Repr

/-- A legal leaf: the physical address of the 64 KiB region asked for, memory type, peer port, permissions. -/
structure Leaf where
  pa : Nat
  mt : Nat
  port : Nat
  r : Bool
  w : Bool
  x : Bool
  deriving DecidableEq, Repr

/-- Whether a valid leaf entry at a level breaks a rule of R399 or R400. -/
def leafMalformed (lv e : Nat) : Bool :=
  2 < lv || bitsNat 63 52 e != 0 || bitsNat 5 5 e != 0 || bitsNat 15 12 e != 0
    || bitsNat 7 6 e == 3 || (bitsNat 7 6 e < 2 && bitsNat 11 8 e != 0)
    || (bitsNat 7 6 e == 2 && 11 < bitsNat 11 8 e)
    || (lv == 1 && bitsNat 20 16 e != 0) || (lv == 2 && bitsNat 29 16 e != 0)

/-- Whether a valid non-leaf entry at a level breaks a rule of R399 or R400. -/
def nodeMalformed (lv e : Nat) : Bool :=
  lv == 0 || bitsNat 63 52 e != 0 || bitsNat 7 5 e != 0 || (2 ≤ lv && bitsNat 11 8 e != 0)

/-- The levels of a walk: level number, lowest VA bit indexed, index bits (R399). -/
def walkLevels : List (Nat × Nat × Nat) := [(4, 48, 9), (3, 39, 9), (2, 30, 9), (1, 21, 9), (0, 16, 5)]

/-- A walk from a node: the leaf, or the translation cause of R401. -/
def walkFrom (s : State) (va : Nat) : List (Nat × Nat × Nat) → Nat → Except Nat Leaf
  | [], _ => .error 3
  | (lv, sh, n) :: rest, node =>
    let a := node + 8 * ((va >>> sh) % 2 ^ n)
    let (bs, p) := s.hbmRead a 8
    let e := natOfBytes bs
    if p then .error 4
    else if e % 2 = 0 then .error 1
    else if bitsNat 1 1 e = 1 then
      if leafMalformed lv e then .error 3
      else .ok { pa := bitsNat 51 16 e * 2 ^ 16 + (va % 2 ^ sh) / 2 ^ 16 * 2 ^ 16, mt := bitsNat 7 6 e,
                 port := bitsNat 11 8 e, r := bitsNat 2 2 e = 1, w := bitsNat 3 3 e = 1, x := bitsNat 4 4 e = 1 }
    else if nodeMalformed lv e then .error 3
    else walkFrom s va rest (bitsNat 51 8 e * 2 ^ 8)

/-- The entries that a walk from a node reads. -/
def walkReads (s : State) (va : Nat) : List (Nat × Nat × Nat) → Nat → List Nat
  | [], _ => []
  | (_, sh, n) :: rest, node =>
    let a := node + 8 * ((va >>> sh) % 2 ^ n)
    let e := natOfBytes (s.hbmRead a 8).1
    a :: if e % 2 = 0 || bitsNat 1 1 e = 1 then [] else walkReads s va rest (bitsNat 51 8 e * 2 ^ 8)

/-- Where the entries of a context's walk of an address lie. -/
def State.walkAddrs (s : State) (c : CtxId) (va : Nat) : List Nat := walkReads s va walkLevels ((s.ctx c).port.ptroot.toNat % 2 ^ 52)

/-- A walk finds the errors that have struck its entries (R478). -/
def State.walkScan (s : State) (c : CtxId) (va : Nat) : State :=
  if s.upkeep.flaws.isEmpty then s else (s.walkAddrs c va).foldl (fun z a => z.hbmScan a 8) s

/-- Whether a walk waits for a row under repair (R486). -/
def State.walkBusy (s : State) (c : CtxId) (va : Nat) : Bool :=
  !s.upkeep.repairing.isEmpty && (s.walkAddrs c va).any fun a => s.rowsBusy a 8

/-- Whether an HBM region lies inside the protected extent (R498). -/
def State.inExtent (s : State) (pa : Nat) : Bool :=
  s.secure.pxbase.toNat ≤ pa && pa < s.secure.pxbase.toNat + s.secure.pxsize.toNat

/-- Whether a leaf breaks the extent rule for a context (R498). -/
def State.breaches (s : State) (c : CtxId) (lf : Leaf) : Bool := lf.mt = 0 && s.inExtent lf.pa != (s.ctx c).prot

/-- A full walk for context c, with the extent rule of R498. PTROOT's low 52 bits name the root. -/
def State.walk (s : State) (c : CtxId) (va : Nat) : Except Nat Leaf :=
  match walkFrom s va walkLevels ((s.ctx c).port.ptroot.toNat % 2 ^ 52) with
  | .error e => .error e
  | .ok lf => if s.breaches c lf then .error 2 else .ok lf

/-- Whether a virtual address is canonical (R153). -/
def canonical (va : Nat) : Bool := bitsNat 63 57 va == (if va.testBit 56 then 127 else 0)

/-- The capacity of a translation structure (R402). -/
def tlbSize : TlbUnit → Nat
  | .reel _ _ _ | .portal _ => 32
  | .shared _ _ => 2048
  | .fetch _ => 64

/-- The cached translation of a region, where a structure holds one. -/
def State.tlbFind (s : State) (u : TlbUnit) (c : CtxId) (region : Nat) : Option Leaf :=
  (s.tlb.find? fun e => e.unit == u && e.ctx == c && e.region == region).map fun e =>
    { pa := e.pa, mt := e.mt.val, port := e.port.val, r := e.r, w := e.w, x := e.x }

/-- Caches a translation; the oldest entry of a full structure goes (R402; log entry 12). -/
def State.tlbFill (s : State) (u : TlbUnit) (c : CtxId) (region : Nat) (lf : Leaf) : State :=
  let mine := s.tlb.filter fun e => e.unit == u
  let others := s.tlb.filter fun e => e.unit != u
  let kept := if mine.length < tlbSize u then mine else mine.drop 1
  let e : TlbEnt := ⟨u, c, region, lf.pa, Fin.ofNat 3 lf.mt, Fin.ofNat 12 lf.port, lf.r, lf.w, lf.x⟩
  { s with tlb := others ++ kept ++ [e] }

/-- The 64 KiB region of a virtual address, of its 57 implemented bits (R398, R403). -/
def regionOf (va : Nat) : Nat := va % 2 ^ 57 / 2 ^ 16

/-- Whether a leaf grants what an access needs. -/
def Leaf.grants (lf : Leaf) (n : Need) : Bool := (!n.r || lf.r) && (!n.w || lf.w) && (!n.x || lf.x)

/-- Translates through a structure: a cached region, which the extent may have come to bar since (R498), or a walk whose
answer is cached. An answer that lacks the permission is cause 2 (R401); it is not cached, so that a retry walks again
(R449). -/
def State.translate (s : State) (u : TlbUnit) (c : CtxId) (va : Nat) (n : Need) : Except Nat Leaf × State :=
  match s.tlbFind u c (regionOf va) with
  | some lf => (if lf.grants n && !(s.breaches c lf) then .ok lf else .error 2, s)
  | none =>
    let s1 := s.walkScan c va
    match s1.walk c va with
    | .error e => (.error e, s1)
    | .ok lf => if lf.grants n then (.ok lf, s1.tlbFill u c (regionOf va) lf) else (.error 2, s1)

/-- The target of a portal address (R469): 0 the host, n + 1 peer port n; none where the address check fails. -/
def xTarget (s : State) (c : CtxId) (ea : Nat) : Option Nat :=
  let t := bitsNat 63 60 ea
  if 12 < t || bitsNat 59 57 ea != 0 || !((s.ctx c).port.xmask.getLsbD t) then none else some t

/-- The virtual address of a portal address: bits [56:0] (R469). -/
def xVa (ea : Nat) : Nat := ea % 2 ^ 57

/-- The unit of a node in bytes (R328, R329): the peers' units are as they reported, 8 where none did. -/
def State.unitOf (s : State) : Node → Nat
  | .bank _ => 64
  | .hbm => 32
  | .host => 8
  | .peer n => 2 ^ max 3 (s.links.peerUnit[n.val]).toNat

/-- The width of the converter on the host's path in the bring-up mode (R331, R502); 0 where there is none. -/
def State.converter (s : State) : Nat :=
  match (s.secure.bringup.toNat / 2) % 4 with
  | 1 => 8
  | 2 => 16
  | 3 => 32
  | _ => 0

/-- The piece size of an access at a node: the unit, or under the bring-up mode, which performs the pieces of one node
as one event, a converter's width, or 0 for a whole range (R331). HBM is cut at its units in either mode, since a range
may lie in two stacks. -/
def State.pieceOf (s : State) (nd : Node) : Nat :=
  if s.secure.bringup.getLsbD 0 then
    match nd with
    | .host => s.converter
    | .hbm => 32
    | _ => 0
  else s.unitOf nd

/-- The units of HBM that one event performs, from the first on (R331): under the bring-up mode those at the stack of
the first, up to room bytes in all; otherwise the first alone. -/
def State.stackEvent (s : State) (room : Nat) : List (Nat × Nat) → List (Nat × Nat)
  | [] => []
  | u :: us => u :: if s.secure.bringup.getLsbD 0 then ahead (Config.hbmStack u.1) (room - u.2) us else []
where
  /-- The units that follow at the same stack. -/
  ahead (k : Fin 12) (room : Nat) : List (Nat × Nat) → List (Nat × Nat)
    | [] => []
    | u :: us => if Config.hbmStack u.1 = k ∧ u.2 ≤ room then u :: ahead k (room - u.2) us else []

/-- The pieces of an access of n bytes at a; a size of 0 is one event. -/
def State.cut (s : State) (nd : Node) (a n : Nat) : List (Nat × Nat) :=
  let g := s.pieceOf nd
  if g = 0 then (if n = 0 then [] else [(a, n)]) else pieces g a n

/-- Whether one event performs a unit together with the one before it (R331): under the bring-up mode two at one memory
node, a bank, a stack controller or a portal, between which no converter parts the access. -/
def State.oneEvent (s : State) (u v : MUnit) : Bool :=
  s.secure.bringup.getLsbD 0 && u.node == v.node && match u.node with
    | .hbm => Config.hbmStack u.addr == Config.hbmStack v.addr
    | .host => s.converter == 0 && u.addr / 4096 % 2 == v.addr / 4096 % 2
    | _ => true

/-! ### Fault events (R407, R408) -/

/-- The next tag in order that no event awaiting service carries (R407). -/
def nextFreeTag (used : List (BitVec 16)) : Nat → BitVec 16 → BitVec 16
  | 0, t => t
  | n + 1, t => if used.contains t then nextFreeTag used n (if t = 0xffff then 1 else t + 1) else t

/-- Raises an event: kinds 1 and 2 take a tag and await service; the entry joins the queue to be written. A wfi of the
context notes cause 0 (R451). The tag is the answer. -/
def State.raiseEvent (s : State) (c : CtxId) (e : Event) : BitVec 16 × State :=
  let x := s.ctx c
  let waits := e.kind.val = 1 || e.kind.val = 2
  let tag := if waits then nextFreeTag (x.awaiting.map Event.tag) (x.awaiting.length + 1) x.nextTag else 0
  let e := { e with tag := tag, waiting := waits }
  (tag, s.setCtx c { x with
    nextTag := (if waits then (if tag = 0xffff then 1 else tag + 1) else x.nextTag),
    awaiting := (if waits then x.awaiting ++ [e] else x.awaiting),
    heldEvents := x.heldEvents ++ [e],
    threads := x.threads.map fun t =>
      match t.wait with
      | .wfi d lim m => { t with wait := .wfi d lim (m ||| 1) }
      | _ => t })

/-- Adds wake causes to every wfi of a context (R451). -/
def State.wfiNote (s : State) (c : CtxId) (bits : BitVec 8) : State :=
  s.modCtx c fun x => { x with threads := x.threads.map fun t =>
    match t.wait with
    | .wfi d lim m => { t with wait := .wfi d lim (m ||| bits) }
    | _ => t }

/-- The bytes of an event's entry (R408). -/
def eventBytes (e : Event) : List Byte :=
  [BitVec.ofNat 8 e.kind.val, BitVec.ofNat 8 e.lay.val, BitVec.ofNat 8 e.pid.val, e.src, e.sub, e.cause, e.access,
      (0 : Byte)]
    ++ bytesOfNat 2 e.tag.toNat ++ [(0 : Byte), 0] ++ bytesOfNat 4 e.reqs ++ bytesOfNat 8 e.va.toNat
    ++ bytesOfNat 4 e.fw.toNat ++ bytesOfNat 4 e.loc.toNat
    ++ bytesOfNat 8 (match e.r with | some r => hdrNat r.hdr | none => 0)
    ++ List.replicate 24 (0 : Byte)
    ++ (match e.r with | some r => r.pay.toList.flatMap (fun (w : Word) => bytesOfNat 4 w.toNat) | none => List.replicate 64 (0 : Byte))
where
  /-- A header as the 64 bits of R41. -/
  hdrNat (h : Hdr) : Nat :=
    h.seq.toNat + h.scale.toNat * 2 ^ 24 + h.ck.toNat * 2 ^ 32 + h.fmt.toNat * 2 ^ 40 + h.len.toNat * 2 ^ 44
      + h.cls.toNat * 2 ^ 49 + h.ctx.val * 2 ^ 52 + h.lay.val * 2 ^ 58

/-- Pending fault events as stat shows them (R60, R408): held, and written beyond FQTAIL. -/
def Ctx.fev (x : Ctx) : Nat := min 255 (x.heldEvents.length + (x.fqhead - x.fqtail).toNat)

/-! ### Traps (R415, R416) and the end of a context (R366) -/

/-- The context for which the device makes a write of its own. -/
def jobCtx : Instr → Option CtxId
  | .dseqAdvance c | .teardown c | .quiescenceSweep c _ | .wedgeTimerExpiry c _ | .faultEventWrite c | .saveEngineDone c => some c
  | _ => none

/-- Begins the teardown of a context (R366): it enters ending, leaves its queue and issues nothing more; TEARDOWN does
the rest. A save under way is abandoned (R421, R436). A context that is free or ending already is left as it is (R435,
R436). -/
def State.beginEnd (s : State) (c : CtxId) (kill : Bool) (thread : Byte) (value : Word) : State :=
  let st := (s.ctx c).st
  if st == .free || st == .ending then s
  else
    { s with jobs := s.jobs.filter fun j => j.ev != Instr.saveEngineDone c }.modCtx c fun x =>
      { x with st := .ending, endInfo := some ⟨kill, thread, value, s.cyc⟩, queuedAt := none, preempt := none, yielding := false }

/-- Teardown as a kill (R366, R372): thread 0xff, value 0. -/
def State.beginKill (s : State) (c : CtxId) : State := s.beginEnd c true 0xff 0

/-- A thread whose instruction is under way no more: one that stalled is ready in the next fabric cycle (R380). -/
def Thread.ended (th : Thread) : Thread :=
  { th with wait := .none, dropped := false, accs := [], seen := [], woke := th.woke || th.wait != .none }

/-- Takes a trap in a thread (R415): without a vector, or inside a trap, the context is torn down as a kill; otherwise
EPC, TCAUSE and TVAL are written, the in-trap flag is set and the pc goes to TVEC. -/
def State.takeTrap (s : State) (c : CtxId) (t : Tid) (epc cause val : DWord) : State :=
  let x := s.ctx c
  if x.tvec = 0 || (x.thread t).inTrap then s.beginKill c
  else s.modThread c t fun th =>
    { th.ended with epc := epc, tcause := cause, tval := val, inTrap := true, pc := x.tvec, halted := false }

/-- An exact trap of the instruction that a thread is executing: EPC is its address (R415). -/
def State.trapAt (s : State) (c : CtxId) (t : Tid) (cause val : Nat) : State :=
  s.takeTrap c t (s.thread c t).pc (BitVec.ofNat 64 cause) (BitVec.ofNat 64 val)

/-- The return from a trap (R439): pc := EPC and the flag is cleared. -/
def State.returnTrap (s : State) (c : CtxId) (t : Tid) : State :=
  s.modThread c t fun th => { th with pc := th.epc, inTrap := false }

/-! ### Going on (R309) -/

/-- The loop step at an instruction that ends active loops, innermost first (R309): the loops in decreasing S, each
with its counter number; the pc that results. -/
def loopStep : List (Fin 4 × LoopEnt) → Thread → DWord → Thread × DWord
  | [], th, nxt => (th, nxt)
  | (n, l) :: rest, th, nxt =>
    let v := th.lc[n.val]
    let v' := if v = 0 then 0 else v - 1
    let th := { th with lc := th.lc.set n.val v' }
    if v' ≠ 0 then (th, l.s)
    else loopStep rest { th with loops := th.loops.set n.val { l with active := false } } nxt

/-- Puts a loop before those that start below it. -/
def insertLoop (x : Fin 4 × LoopEnt) : List (Fin 4 × LoopEnt) → List (Fin 4 × LoopEnt)
  | [] => [x]
  | y :: ys => if y.2.s.toNat < x.2.s.toNat then x :: y :: ys else y :: insertLoop x ys

/-- The active loops that end at an address, greatest S first. -/
def loopsEndingAt (th : Thread) (a : DWord) : List (Fin 4 × LoopEnt) :=
  (List.finRange 4).foldr (fun n acc =>
    let l := th.loops[n.val]
    if l.active && l.e == a then insertLoop (n, l) acc else acc) []

/-- The thread after the instruction at its pc completes: the loop step where loops end there, pc + 8 otherwise. -/
def Thread.advance (th : Thread) : Thread :=
  let (th', nxt) := loopStep (loopsEndingAt th th.pc) th (th.pc + 8)
  { th'.ended with pc := nxt }

/-- A thread's instruction stands: it is not performed yet (R380). -/
def State.stand (s : State) (c : CtxId) (t : Tid) (k : Stand) : State := s.modThread c t fun th => { th with wait := .stand k }

/-- A thread's instruction completes. -/
def State.advance (s : State) (c : CtxId) (t : Tid) : State := s.modThread c t Thread.advance

end Sys2Proof.Machine
end

