-- ==== Sys2Proof/Machine/Flags.lean ====
section
/-!
DEFINITION. Conditions, predicates and saturation: what the compares of 04 and 09 decide, and the clamping of R116, R124
and R142.
-/
namespace Sys2Proof.Machine

/-- The conditions .eq, .ne, .lt, .ge, .le, .gt of R79 and R118, from less and equal. -/
def condHolds (code : Nat) (lt eq : Bool) : Bool :=
  match code with
  | 0 => eq
  | 1 => !eq
  | 2 => lt
  | 3 => !lt
  | 4 => lt || eq
  | _ => !lt && !eq

/-- cmp of two lanes of w bits (R118): bit 3 of the modifier compares unsigned. -/
def cmpLane (m : BitVec 4) (w a b : Nat) : Bool :=
  let lt := if m.getLsbD 3 then decide (a < b) else decide (sextN w a < sextN w b)
  condHolds (m.toNat % 8) lt (a == b)

/-- fcmp of two values (R130): with a NaN only .ne and .un hold. -/
def fcmpVal (code : Nat) (a b : Val) : Bool :=
  let un := a.isNan || b.isNan
  match code with
  | 6 => un
  | 7 => !un
  | n => if un then n == 1 else condHolds n (ltVal a b) (eqVal a b)

/-- A lane mask (R118): all ones where the condition holds. -/
def maskLane (w : Nat) (b : Bool) : Nat := if b then 2 ^ w - 1 else 0

/-- v clamped to the signed range of w bits and written as bits (R116). -/
def satS (w : Nat) (v : Int) : Nat := narrow w (clampI (-(2 ^ (w - 1) : Nat)) ((2 ^ (w - 1) : Nat) - 1) v)

/-- v clamped to the unsigned range of w bits (R116). -/
def satU (w : Nat) (v : Int) : Nat := narrow w (clampI 0 ((2 ^ w : Nat) - 1) v)

/-- The brc conditions (R79): the signed value against zero. -/
def brcHolds (code : Nat) (v : DWord) : Bool := condHolds code (decide (v.toInt < 0)) (v == 0)

/-- The qwait conditions (R299). -/
def qwaitHolds (code : Nat) (v b : DWord) : Bool :=
  match code with
  | 0 => v == b
  | 1 => v != b
  | 2 => b.toNat ≤ v.toNat
  | 3 => v.toNat < b.toNat
  | _ => 0 ≤ (v - b).toInt

/-- Predicate n of a frame (R53). -/
def Frame.getQ (f : Frame) (n : BitVec 3) : Bool := f.q.getLsbD n.toNat

/-- The frame with predicate n written. -/
def Frame.setQ (f : Frame) (n : BitVec 3) (v : Bool) : Frame :=
  { f with q := if v then f.q ||| ((1 : BitVec 4) <<< n.toNat) else f.q &&& ~~~((1 : BitVec 4) <<< n.toNat) }

/-- pred_ok of R68 in a station. -/
def Frame.predOk (f : Frame) (pe : Bool) (pi : BitVec 3) (pn : Bool) : Bool := !pe || (f.getQ pi != pn)

/-- pred_ok of R68 in a thread. -/
def Thread.predOk (t : Thread) (pe : Bool) (pi : BitVec 3) (pn : Bool) : Bool := !pe || (t.getP pi != pn)

end Sys2Proof.Machine
end

