-- ==== Sys2Proof/Machine/Operands.lean ====
section
/-!
DEFINITION. The operand forms (02 R54 to R60): reading a source as lanes, as a word or as a 64-bit value, and writing a
destination, in a station and in a thread; and the run of a lane instruction (04 R109, R110).
-/
namespace Sys2Proof.Machine

/-! ### Sequencer operands (R59, R60) -/

/-- The status word of a context (R60, R61). -/
def Ctx.stat (x : Ctx) : DWord :=
  let slots := (List.finRange 8).foldl (fun a l =>
    match x.lays[l.val] with
    | some y => if y.loading then a else a + 2 ^ l.val
    | none => a) 0
  let wdg := x.lays.toList.any fun y => match y with | some z => z.wedged | none => false
  BitVec.ofNat 64 (x.fev + 2 ^ 8 * slots + (if x.prq then 2 ^ 16 else 0) + (if wdg then 2 ^ 17 else 0))

/-- A small constant as an integer (R56): code 0x30 is -8, code 0x3f is 7. -/
def smallInt (sp : Spec) : Int := (sp.toNat : Int) - 56

/-- A sequencer source (R59). -/
def State.readT (s : State) (c : CtxId) (t : Tid) (sp : Spec) : DWord :=
  let th := s.thread c t
  let n := sp.toNat
  if n < 32 then th.getS (Fin.ofNat 32 n)
  else if n = 0x20 then BitVec.ofNat 64 c.val
  else if n = 0x21 then BitVec.ofNat 64 t.val
  else if n = 0x22 then BitVec.ofNat 64 s.cyc
  else if n = 0x23 then (s.ctx c).stat
  else if n < 0x28 then (th.lc[(n - 0x24) % 4]).zeroExtend 64
  else if n = 0x28 then th.pset.zeroExtend 64
  else if n = 0x29 then BitVec.ofNat 64 (s.ctx c).nthr
  else if 0x30 ≤ n then BitVec.ofInt 64 (smallInt sp)
  else 0

/-- A sequencer destination (R59): s registers, loop counters, pset; any other is not written. -/
def Thread.write (th : Thread) (sp : Spec) (v : DWord) : Thread :=
  let n := sp.toNat
  if n < 32 then th.setS (Fin.ofNat 32 n) v
  else if 0x24 ≤ n ∧ n < 0x28 then { th with lc := th.lc.set ((n - 0x24) % 4) (v.truncate 32) }
  else if n = 0x28 then { th with p := v.truncate 8 ||| 1 }
  else th

/-- A thread's destination written. -/
def State.writeT (s : State) (c : CtxId) (t : Tid) (sp : Spec) (v : DWord) : State :=
  s.modThread c t fun th => th.write sp v

/-- A thread's instruction writes d and completes. -/
def State.finishT (s : State) (c : CtxId) (t : Tid) (sp : Spec) (v : DWord) : State :=
  s.modThread c t fun th => (th.write sp v).advance

/-! ### Station operands (R54 to R57) -/

/-- What the specials of a station read (R56): sid, pid, die, arithmetic cycle. -/
structure Env where
  sid : Nat
  pid : Nat
  did : Nat
  acyc : Nat
  deriving DecidableEq, Repr

/-- A frame being executed, with the count of free values taken. -/
structure Run where
  env : Env
  f : Frame
  free : Nat
  deriving DecidableEq, Repr

/-- Whether a record is tagged poison (R28). -/
def Rec.isPoison (r : Rec) : Bool := r.hdr.fmt == 15

/-- The record tagged poison (R28). -/
def Rec.poisoned (r : Rec) : Rec := { r with hdr := { r.hdr with fmt := 15 } }

/-- The frame with its record tagged poison. -/
def Frame.poisonIf (f : Frame) (b : Bool) : Frame := if b then { f with r := f.r.poisoned } else f

/-- n free words. -/
def freeWords (k : Nat) : Nat → List Word
  | 0 => []
  | n + 1 => Config.freeWord k :: freeWords (k + 1) n

/-- Payload words j to j + g - 1 as an instruction computes with them: unspecified on a poison record (R28). -/
def Run.fWords (r : Run) (j g : Nat) : List Word × Run :=
  if r.f.r.isPoison then (freeWords r.free g, { r with free := r.free + g }) else (vgroup r.f.r.pay j g, r)

/-- A header field by its specifier, zero-extended (R42, R56). -/
def hdrField (h : Hdr) (n : Nat) : Nat :=
  match n with
  | 0x20 => h.seq.toNat
  | 0x21 => h.cls.toNat
  | 0x22 => h.fmt.toNat
  | 0x23 => h.len.toNat
  | 0x24 => h.scale.toNat
  | 0x25 => h.ck.toNat
  | 0x26 => h.ctx.val
  | _ => h.lay.val

/-- The scalar that a specifier broadcasts, at width w (R57); fl is the element type of a floating instruction, which
a small constant is rounded to. -/
def Run.scalar (r : Run) (sp : Spec) (w : Nat) (fl : Option Fmt) : Nat :=
  let n := sp.toNat
  if n < 0x1c then (r.f.k[(n - 16) % 12]).toNat % 2 ^ w
  else if n < 0x28 then hdrField r.f.r.hdr n % 2 ^ w
  else if n = 0x28 then 0
  else if n = 0x2a then r.env.sid % 2 ^ w
  else if n = 0x2b then r.env.pid % 2 ^ w
  else if n = 0x2c then r.env.did % 2 ^ w
  else if n = 0x2d then r.env.acyc % 2 ^ 32 % 2 ^ w
  else if n = 0x2f then 2 ^ w - 1
  else
    match fl with
    | some ty => roundNe (.fin (smallInt sp < 0) (smallInt sp).natAbs 0) ty
    | none => narrow w (smallInt sp)

/-- n steps of an LFSR. -/
def lfsrIter : Nat → Word → Word
  | 0, l => l
  | n + 1, l => lfsrIter n (lfsrStep l)

/-- A source to be read: its specifier, lane width, lane count, group in words; kg where a k register names a group of
its neighbours, as a destination does (log entry 10). -/
structure Src where
  sp : Spec
  w : Nat
  n : Nat
  g : Nat
  kg : Bool := false
  deriving DecidableEq, Repr

/-- One source as lanes (R54, R57). ws holds the draws of a rnd source, one per word of its group (R33, R57). -/
def Run.lanes (r : Run) (x : Src) (fl : Option Fmt) (ws : List Word) : List Nat × Run :=
  let n := x.sp.toNat
  if n < 16 then
    let (ws, r') := r.fWords n x.g
    (elemsOf x.w x.n (strOfWords ws), r')
  else if 28 ≤ n ∧ n < 32 then
    (elemsOf x.w x.n (strOfWords (vgroup (r.f.kv[(n - 28) % 4]) 0 x.g)), r)
  else if x.kg ∧ n < 28 then
    (elemsOf x.w x.n (strOfWords ((List.range x.g).map fun i => r.f.k[n - 16 + i]?.getD 0)), r)
  else if n = 0x29 then ((List.range x.n).map fun i => i % 2 ^ x.w, r)
  else if n = 0x2e then (elemsOf x.w x.n (strOfWords ws), r)
  else (List.replicate x.n (r.scalar x.sp x.w fl), r)

/-- When a draw is taken (R33, R57, R109): the lane that first reads its word, then the source, then the word. -/
abbrev DrawKey := Nat × Nat × Nat

/-- Whether a draw is taken before another. -/
def DrawKey.before (x y : DrawKey) : Bool :=
  x.1 < y.1 || (x.1 == y.1 && (x.2.1 < y.2.1 || (x.2.1 == y.2.1 && x.2.2 < y.2.2)))

/-- The draws of source i: one per word of the group of a rnd. Word j is first read by lane 32j / w (R57). -/
def Src.draws (x : Src) (i : Nat) : List DrawKey :=
  if x.sp = 0x2e then (List.range x.g).map fun j => (32 * j / x.w, i, j) else []

/-- The draws of sources from number i on. -/
def drawsFrom : Nat → List (Src × Option Fmt) → List DrawKey
  | _, [] => []
  | i, x :: xs => x.1.draws i ++ drawsFrom (i + 1) xs

/-- The value of a draw among those of its instruction: the LFSR after the draws before it and its own (R32, R33). -/
def drawWord (all : List DrawKey) (l : Word) (k : DrawKey) : Word :=
  lfsrIter ((all.filter fun y => y.before k).length + 1) l

/-- Sources read one after the other, from number i on; all holds the draws of the instruction. -/
def Run.readFrom (r : Run) (all : List DrawKey) : Nat → List (Src × Option Fmt) → List (List Nat) × Run
  | _, [] => ([], r)
  | i, x :: xs =>
    let (l, r1) := r.lanes x.1 x.2 ((x.1.draws i).map (drawWord all r.f.lfsr))
    let (ls, r2) := r1.readFrom all (i + 1) xs
    (l :: ls, r2)

/-- The sources of one instruction, every one read before any result is written (R65), and the draws of its rnd
sources taken: lane by lane, and within a lane a, b, c (R33, R109). -/
def Run.readAll (r : Run) (xs : List (Src × Option Fmt)) : List (List Nat) × Run :=
  let all := drawsFrom 0 xs
  let (ls, r') := r.readFrom all 0 xs
  (ls, { r' with f := { r'.f with lfsr := lfsrIter all.length r'.f.lfsr } })

/-- k registers written from register j on. -/
def putK (k : Vector Word 12) (j : Nat) : List Word → Vector Word 12
  | [] => k
  | w :: ws => putK (k.setIfInBounds j w) (j + 1) ws

/-- A destination group written with words (R54; log entry 10 for a k register). -/
def Frame.putWords (f : Frame) (sp : Spec) (ws : List Word) : Frame :=
  let n := sp.toNat
  if n < 16 then { f with r := { f.r with pay := vput f.r.pay n ws } }
  else if n < 28 then { f with k := putK f.k (n - 16) ws }
  else if n < 32 then { f with kv := f.kv.set ((n - 28) % 4) (vput (f.kv[(n - 28) % 4]) 0 ws) }
  else f

/-- A group of g words written with lanes of w bits. -/
def Frame.putLanes (f : Frame) (sp : Spec) (w g : Nat) (ls : List Nat) : Frame :=
  f.putWords sp (wordsOfStr g (strOfElems w ls))

/-- A source as one 32-bit word (R57 at w = 32). -/
def Run.word (r : Run) (sp : Spec) : Word × Run :=
  let (ls, r') := r.readAll [(⟨sp, 32, 1, 1, false⟩, none)]
  (BitVec.ofNat 32 ((ls.headD []).headD 0), r')

/-- A source as a group of g words; a scalar fills every word (R154). -/
def Run.words (r : Run) (sp : Spec) (g : Nat) : List Word × Run :=
  let (ls, r') := r.readAll [(⟨sp, 32, g, g, false⟩, none)]
  ((ls.headD []).map (BitVec.ofNat 32), r')

/-- A word pair read as 64 bits (R153): payload words or k registers. -/
def Run.pair (r : Run) (sp : Spec) : DWord × Run :=
  let n := sp.toNat
  if n < 16 then
    let (ws, r') := r.fWords n 2
    (BitVec.ofNat 64 (strOfWords ws), r')
  else (BitVec.ofNat 64 (strOfWords [r.f.k[n - 16]?.getD 0, r.f.k[n - 15]?.getD 0]), r)

/-! ### The actor of an instruction -/

/-- The die of a place: where its page stands in the grid (R196); die 0 where no lay is resident. -/
def State.dieOf (s : State) (p : Place) : Nat :=
  match (s.lay? p.ctx p.slot).bind fun x => x.pages[p.pid.val]? with
  | some pg => pg.gcol / 12 + 2 * (pg.grow / 7)
  | none => 0

/-- The specials of a place; the arithmetic cycle is the first or second of the fabric cycle (R10). -/
def State.env (s : State) (p : Place) : Env := ⟨p.sid.toNat, p.pid.val, s.dieOf p, 2 * s.cyc + (if s.half then 1 else 0)⟩

/-- The run of a frame at a place. -/
def State.run (s : State) (p : Place) (f : Frame) : Run := ⟨s.env p, f, s.free⟩

/-- The state with the frame of the execution in hand replaced and the free values counted. -/
def State.putRun (s : State) (p : Place) (r : Run) : State := { s with cur := .station p r.f, free := r.free }

/-- A segment's instruction completes: the next one follows. -/
def State.nextIp (s : State) (p : Place) (r : Run) : State :=
  s.putRun p { r with f := { r.f with ip := r.f.ip + 1 } }

/-- A frame with its next instruction reached. -/
def Frame.stepIp (f : Frame) : Frame := { f with ip := f.ip + 1 }

/-- An instruction that does nothing at its actor but go on (R68, R150). -/
def goOn (s : State) : State :=
  match s.cur with
  | .device => s
  | .thread c t => s.advance c t
  | .station p f => { s with cur := .station p f.stepIp }

/-! ### Lane instructions (R109, R110) -/

/-- What a lane computation takes: width, lanes of a, b, c, the old lanes of d, the LFSR and the free count. -/
structure LaneIn where
  w : Nat
  n : Nat
  a : List Nat
  b : List Nat
  c : List Nat
  d : List Nat
  lfsr : Word
  free : Nat
  deriving DecidableEq, Repr

/-- What it gives: lanes, the LFSR after its draws, the free count, whether the record becomes poison (R131), and the
predicate of a compare (R118). -/
structure LaneOut where
  lanes : List Nat
  lfsr : Word
  free : Nat
  poison : Bool
  any : Bool
  deriving DecidableEq, Repr

/-- How a lane instruction takes its operands: whether b and c are read as groups or as one scalar word, the source
string of a width change (element bits, words), the element type of small constants in a, b and c, whether the result
is one word, and whether it is a compare. -/
structure LaneOpt where
  useA : Bool := true
  useB : Bool := false
  useC : Bool := false
  scalarB : Bool := false
  scalarC : Bool := false
  cvt : Option (Nat × Nat) := none
  fl : Option Fmt := none
  intB : Bool := false
  /-- The old lanes of d are a source (R121, R141, R144). -/
  useD : Bool := false
  word : Bool := false
  cmp : Bool := false
  /-- Destination element bits where they are not the lane width (R112). -/
  bits : Option Nat := none
  deriving DecidableEq, Repr

/-- The sources of a lane instruction in a station. -/
def laneSrcs (o : LForm) (p : LaneOpt) (w n g : Nat) : List (Src × Option Fmt) :=
  let sa : Src := match p.cvt with
    | some (sb, gs) => ⟨o.a, sb, n, gs, false⟩
    | none => ⟨o.a, w, n, g, false⟩
  let sb : Src := if p.scalarB then ⟨o.b, 32, 1, 1, false⟩ else ⟨o.b, w, n, g, false⟩
  let sc : Src := if p.scalarC then ⟨o.c, 32, 1, 1, false⟩ else ⟨o.c, w, n, g, false⟩
  (if p.useA then [(sa, p.fl)] else []) ++ (if p.useB then [(sb, if p.intB then none else if p.scalarB then some .fp32 else p.fl)] else [])
    ++ (if p.useC then [(sc, if p.scalarC then some .fp32 else p.fl)] else []) ++ (if p.useD then [(⟨o.d, w, n, g, true⟩, none)] else [])

/-- A lane instruction in a station (R109). -/
def runLaneS (o : LForm) (opt : LaneOpt) (f : LaneIn → LaneOut) (s : State) (p : Place) (fr : Frame) : State :=
  if fr.predOk o.pe o.pi o.pn then
    let g := gWords o.g
    let w := opt.bits.getD (wBits o.w)
    let n := 32 * g / w
    let (ls, r) := (s.run p fr).readAll (laneSrcs o opt w n g)
    let a := if opt.useA then ls.getD 0 [] else []
    let i := if opt.useA then 1 else 0
    let b := if opt.useB then ls.getD i [] else []
    let j := if opt.useB then i + 1 else i
    let c := if opt.useC then ls.getD j [] else []
    let d := if opt.useD then ls.getD (if opt.useC then j + 1 else j) [] else []
    let out := f ⟨w, n, a, b, c, d, r.f.lfsr, r.free⟩
    let f1 := { r.f with lfsr := out.lfsr }
    let f2 := if opt.word then f1.putWords o.d [BitVec.ofNat 32 (out.lanes.headD 0)] else f1.putLanes o.d w g out.lanes
    let f3 := if opt.cmp && o.qw then f2.setQ o.qd out.any else f2
    s.nextIp p { r with f := f3.poisonIf out.poison, free := out.free }
  else s.nextIp p (s.run p fr)

/-- A lane instruction in a thread (R110): one lane of 64 bits; the source of a width change is a's low bits. A compare
with d = pset and a named predicate writes d first and the predicate after it: R118 gives no order of the two (DESIGN
CHOICE, log entry 59). -/
def runLaneT (o : LForm) (opt : LaneOpt) (f : LaneIn → LaneOut) (s : State) (c : CtxId) (t : Tid) : State :=
  if (s.thread c t).predOk o.pe o.pi o.pn then
    let rd (sp : Spec) : Nat := (s.readT c t sp).toNat
    let a := match opt.cvt with
      | some (sb, _) => rd o.a % 2 ^ sb
      | none => rd o.a
    let out := f ⟨64, 1, [a], [rd o.b], [rd o.c], [rd o.d], 0, s.free⟩
    let s1 := s.writeT c t o.d (BitVec.ofNat 64 (out.lanes.headD 0))
    let s2 := if opt.cmp && o.qw then s1.modThread c t fun th => th.setP o.qd out.any else s1
    s2.advance c t
  else s.advance c t

/-- The run of a format L instruction at its actor. -/
def runLane (o : LForm) (opt : LaneOpt) (f : LaneIn → LaneOut) (s : State) : Res :=
  match s.cur with
  | .device => .next s
  | .thread c t => .next (runLaneT o opt f s c t)
  | .station p fr => .next (runLaneS o opt f s p fr)

/-- A result without draws, free values or a predicate. -/
def LaneIn.out (x : LaneIn) (ls : List Nat) : LaneOut := ⟨ls, x.lfsr, x.free, false, false⟩

/-- Lanes of one source. -/
def LaneIn.map1 (x : LaneIn) (f : Nat → Nat) : LaneOut := x.out (x.a.map f)

/-- Lanes of two sources. -/
def LaneIn.map2 (x : LaneIn) (f : Nat → Nat → Nat) : LaneOut := x.out (List.zipWith f x.a x.b)

/-- Three lists zipped. -/
def zip3 (f : Nat → Nat → Nat → Nat) : List Nat → List Nat → List Nat → List Nat
  | a :: as, b :: bs, c :: cs => f a b c :: zip3 f as bs cs
  | _, _, _ => []

/-- Lanes of three sources. -/
def LaneIn.map3 (x : LaneIn) (f : Nat → Nat → Nat → Nat) : LaneOut := x.out (zip3 f x.a x.b x.c)

/-- The immediate of a format I word as a lane of w bits (R70). -/
def immLane (w : Nat) (imm : Word) : Nat := narrow w imm.toInt

/-- The run of a format I instruction at its actor: f takes the width, a's lane and the immediate (R119). -/
def runImm (o : IForm) (useA : Bool) (f : Nat → Nat → Nat → Nat) (s : State) : Res :=
  match s.cur with
  | .device => .next s
  | .thread c t =>
    .next (s.finishT c t o.d (BitVec.ofNat 64 (f 64 (s.readT c t o.a).toNat (immLane 64 o.imm))))
  | .station p fr =>
    let g := gWords o.g
    let w := wBits o.w
    let n := 32 * g / w
    if useA then
      let (ls, r) := (s.run p fr).readAll [(⟨o.a, w, n, g, false⟩, none)]
      let out := (ls.headD []).map fun a => f w a (immLane w o.imm)
      .next (s.nextIp p { r with f := r.f.putLanes o.d w g out })
    else
      let r := s.run p fr
      .next (s.nextIp p { r with f := r.f.putLanes o.d w g (List.replicate n (f w 0 (immLane w o.imm))) })

end Sys2Proof.Machine
end

