-- ==== Sys2Proof/Machine/Issue.lean ====
section
/-!
DEFINITION. Choosing and starting what runs: the issue selector (13 R381), fetching and checking a sequencer word
(03 R93, 14 R415, R416), event traps, and taking a segment execution out of its station and putting it back.
-/
namespace Sys2Proof.Machine

/-! ### Threads -/

/-- Whether a yield of a context waits for the other threads to stop: they issue no more (R418). -/
def Ctx.yieldStands (x : Ctx) : Bool := x.threads.toList.any fun th => th.wait == .stand .yield

/-- Whether a thread of a running context may issue: not halted, not stalled, and its context not being stopped
(R381, R418, R419). -/
def Ctx.ready (x : Ctx) (t : Tid) : Bool :=
  let th := x.thread t
  x.st == .running && t.val < x.nthr && !th.halted && th.wait == .none && !th.woke && x.preempt.isNone && !x.yielding && !x.yieldStands

/-- The issue level of a thread (R381). -/
def State.issueLevel (s : State) (c : CtxId) (t : Tid) : Nat :=
  if s.issageNow.toNat ≤ (s.thread c t).age then 4 else (s.ctx c).prio.val

/-- Whether the fetch at a pc waits for a row under repair (R486). -/
def State.fetchWaits (s : State) (c : CtxId) (pc : DWord) : Bool :=
  let u : TlbUnit := .fetch (s.ctx c).home
  !s.upkeep.repairing.isEmpty && canonical pc.toNat
    && (((s.tlbFind u c (regionOf pc.toNat)).isNone && s.walkBusy c pc.toNat)
      || match (s.translate u c pc.toNat ⟨false, false, true⟩).1 with
        | .ok lf => lf.mt == 0 && s.rowsBusy (lf.pa + pc.toNat % 2 ^ 16) 8
        | .error _ => false)

/-- Whether an event trap is due in a thread (R415). -/
def Ctx.eventTrapDue (x : Ctx) (t : Tid) : Bool :=
  x.fqhead != x.fqtail && x.evthr.toNat == t.val && t.val < x.nthr && !(x.thread t).inTrap

/-- The ready threads of a die that can issue: one whose fetch waits for a row does not (R486), unless an event trap is
due in it. -/
def State.readyOn (s : State) (d : Die) : List (CtxId × Tid) :=
  (List.finRange 64).flatMap fun c =>
    let x := s.ctx c
    if x.home = d ∧ x.st = .running then
      (x.tids.filter fun t => x.ready t && (x.eventTrapDue t || !(s.fetchWaits c (x.thread t).pc))).map fun t => (c, t)
    else []

/-- How far a position lies after the one that last issued, 1 to 16 (R381). -/
def cyclicAfter (last pos : Fin 16) : Nat := (pos.val + 31 - last.val) % 16 + 1

/-- Whether the first candidate goes before the second: higher level, then nearer in cyclic order (R381). -/
def State.issuesBefore (s : State) (d : Die) (x y : CtxId × Tid) : Bool :=
  let lx := s.issueLevel x.1 x.2
  let ly := s.issueLevel y.1 y.2
  let last := s.lastPos[d.val]
  if lx = ly then cyclicAfter last (s.thread x.1 x.2).pos < cyclicAfter last (s.thread y.1 y.2).pos else ly < lx

/-- The thread that the selector of a die takes; none where none is ready (R381). -/
def State.select (s : State) (d : Die) : Option (CtxId × Tid) :=
  (s.readyOn d).foldl (fun best y =>
    match best with
    | none => some y
    | some x => if s.issuesBefore d y x then some y else some x) none

/-- An event trap (R415, R416): cause 0x10, EPC the next instruction to issue. -/
def State.eventTrapAt (s : State) (c : CtxId) (t : Tid) : State := s.trapAt c t 0x10 0

/-- TCAUSE of a fault on fetching (R416). -/
def fetchCause (n : Nat) : Nat := n + 0x100

/-- Fetches the word at a thread's pc (R307, R415): the word, or a trap cause with TVAL the pc. -/
def State.fetch (s : State) (c : CtxId) (pc : DWord) : Except Nat DWord × State :=
  if !canonical pc.toNat then (.error (fetchCause 3), s)
  else
    match s.translate (.fetch (s.ctx c).home) c pc.toNat ⟨false, false, true⟩ with
    | (.error e, s') => (.error (fetchCause (4 + e)), s')
    | (.ok lf, s') =>
      if lf.mt != 0 then (.error (fetchCause 6), s')
      else
        let a := lf.pa + pc.toNat % 2 ^ 16
        let z := s'.hbmScan a 8
        let (bs, p) := z.hbmRead a 8
        if p then (.error (fetchCause 9), z) else (.ok (BitVec.ofNat 64 (natOfBytes bs)), z)

/-- Whether an instruction is in format J (R78). -/
def isBranch : Instr → Bool
  | .br _ | .brc _ | .jmp _ | .call _ | .ret _ | .loop _ => true
  | _ => false

/-- The instruction of a fetched word for a thread: none where the word is invalid in sequencer code, or is a branch
at the end of an active loop (R93, R309). -/
def seqInstr (th : Thread) (w : DWord) : Option Instr :=
  if wordCause .seq w = none then
    match decodeWord w with
    | .ok i => if isBranch i && !(loopsEndingAt th th.pc).isEmpty then none else some i
    | .error _ => none
  else none

/-- What a die's selector brings about: nothing, a trap taken at once, or an instruction to execute. -/
inductive Issued where
  | idle
  | trapped (s : State)
  | instr (i : Instr) (s : State)

/-- Notes that a die's selector has issued a thread (R381). -/
def State.noteIssue (s : State) (d : Die) (c : CtxId) (t : Tid) : State :=
  let s1 := { s with issued := s.issued.set d.val true, lastPos := s.lastPos.set d.val (s.thread c t).pos }
  s1.modThread c t fun th => { th with age := 0, issuedAt := s.cyc, accs := [], seen := [] }

/-- One issue on a die (R381): at most one a fabric cycle. -/
def State.issueOn (s : State) (d : Die) : Issued :=
  if s.issued[d.val] then .idle
  else
    match s.select d with
    | none => .idle
    | some (c, t) =>
      let s1 := s.noteIssue d c t
      if (s1.ctx c).eventTrapDue t then .trapped (s1.eventTrapAt c t)
      else
        let th := s1.thread c t
        match s1.fetch c th.pc with
        | (.error e, s2) => .trapped (s2.trapAt c t e th.pc.toNat)
        | (.ok w, s2) =>
          match seqInstr th w with
          | none => .trapped (s2.trapAt c t 1 w.toNat)
          | some i => .instr i { s2.modThread c t (fun th => { th with word := w }) with cur := .thread c t }

/-- A thread's instruction that stands, about to be performed: it takes no issue cycle (R380). -/
def State.resumeOn (s : State) (c : CtxId) (t : Tid) : Option (Instr × State) :=
  let th := s.thread c t
  match th.wait, decodeWord th.word with
  | .stand _, .ok i => some (i, { s.modThread c t (fun th => { th with wait := .none, woke := true }) with cur := .thread c t })
  | _, _ => none

/-! ### Segment executions -/

/-- The frame of an execution at a station. -/
def Station.frame? (x : Station) (n : Nat) : Option Frame := x.frames.find? fun f => f.id == n

/-- The station without an execution. -/
def Station.takeFrame (x : Station) (n : Nat) : Station := { x with frames := x.frames.filter fun f => f.id != n }

/-- A frame put among those of its station in firing order. -/
def insertFrame (f : Frame) : List Frame → List Frame
  | [] => [f]
  | g :: gs => if f.id < g.id then f :: g :: gs else g :: insertFrame f gs

/-- Whether an instruction takes LFSR draws (R32, R33). -/
def drawsLfsr : Instr → Bool
  | .add o | .sub o | .mul o | .mulh o | .mad o | .div o | .rem o | .addc o | .and o | .or o | .xor o | .andn o
  | .not o | .shl o | .shr o | .sar o | .rol o | .ror o | .clz o | .ctz o | .popc o | .brev o | .min o | .max o
  | .abs o | .neg o | .sel o | .cmp o | .lea o | .mov o | .bfx o | .bfi o | .byteperm o | .hash o | .cvti o
  | .perm o | .shuf o | .bcast o | .rot o | .zip o | .unzip o | .pack o | .unpack o | .cmpr o | .expd o | .lmask o
  | .lsel o | .movw o | .swap o | .fmin o | .fmax o | .fabs o | .fneg o | .fcmp o =>
    o.a == 0x2e || o.b == 0x2e || o.c == 0x2e
  | .fadd o | .fsub o | .fmul o | .fma o | .fnma o | .fcvt o | .frnd o | .fscale o | .frcp o | .frsq o | .fsqrt o
  | .fexp2 o | .flog2 o | .ftanh o | .i2f o | .f2i o | .fqnt o | .fdq o | .fred o | .fdot o | .smxUpd o
  | .smxMerge o => o.a == 0x2e || o.b == 0x2e || o.c == 0x2e || o.mod.toNat % 8 == 4
  | .addImm o | .andImm o | .orImm o | .xorImm o | .shlImm o | .shrImm o | .sarImm o | .cmpImm o => o.a == 0x2e
  | .ld o | .st o | .ldx o | .stx o | .atom o | .atomf o | .cas o | .ldp o | .stp o | .prf o =>
    o.a == 0x2e || o.b == 0x2e || o.d == 0x2e
  | .tag o | .setcls o | .setlen o | .setfmt o | .setck o | .setscale o | .raise o | .steer o => o.a == 0x2e
  | .mma o | .tld o | .accrdUl o => o.mod.toNat % 8 == 4
  | .fibSkip o => o.a == 0x2e
  | _ => false

/-- Whether an execution has still to run instructions. -/
def Frame.unfinished (f : Frame) : Bool :=
  match f.st with
  | .running | .parked _ | .resumed | .held | .doomed _ => true
  | _ => false

/-- The next instruction of an execution. -/
def Station.nextInstr (x : Station) (f : Frame) : Option Instr :=
  match x.segs[f.seg.val] with
  | none => none
  | some sg =>
    match sg.code[f.ip]? with
    | none => none
    | some w => (decodeWord w).toOption

/-- The execution places a station has (R198). -/
def placeLimit (sid : Sid) : Nat :=
  match sidSite sid with
  | .compute => 4
  | .bank => 24
  | _ => 1

/-- Whether an execution holds a place: running, faulted, or completed without an access to be acknowledged. -/
def Frame.inPlace (f : Frame) : Bool :=
  match f.st with
  | .running | .faulted _ | .leaving => true
  | _ => false

/-- Executions in their places. -/
def Station.placesUsed (st : Station) : Nat := (st.frames.filter Frame.inPlace).length

/-- Whether an execution may run its next instruction now: it is running, or goes on in a free place (R203). -/
def Station.canRun (st : Station) (f : Frame) : Bool :=
  match f.st with
  | .running => true
  | .resumed | .held => decide (st.placesUsed < placeLimit st.sid)
  | _ => false

/-- Whether an execution would pass an older one of the same segment that runs too: executions of one segment keep their
pace, so that one which fired earlier ends earlier unless it waits (R457, R462; DEDUCED, log entry 53). -/
def Station.overtakes (st : Station) (f : Frame) : Bool :=
  st.frames.any fun g => g.id < f.id && g.seg == f.seg && g.st == .running && decide (g.ip ≤ f.ip)

/-- An execution's next instruction with its frame taken out of the station: only a running execution steps, and one
that draws waits for every older execution of the station (R33). -/
def State.takeTurn (s : State) (p : Place) (n : Nat) : Option (Instr × State) :=
  match s.station? p with
  | none => none
  | some st =>
    match st.frame? n with
    | none => none
    | some f =>
      match st.nextInstr f with
      | none => none
      | some i =>
        let older := st.frames.any fun g => g.id < n && g.unfinished
        if st.canRun f && !(drawsLfsr i && older) && !(st.overtakes f) then
          some (i, { s.modStation p (fun y => y.takeFrame n) with cur := .station p { f with lfsr := st.lfsr, st := .running } })
        else none

/-- Puts the execution in hand back into its station, with the LFSR after its draws (R33). -/
def State.settle (s : State) : State :=
  match s.cur with
  | .station p f =>
    { s.modStation p (fun y => { y with frames := insertFrame f y.frames, lfsr := f.lfsr }) with cur := .device }
  | _ => { s with cur := .device }

/-- Whether an instruction may be left not performed while it stalls (R277). -/
def leavable : Instr → Bool
  | .passWait _ | .cleatWait _ | .reelWait _ | .qwait _ | .gmm _ | .inject _ | .fibOpen _ | .fibSkip _ | .fibLoad _ | .wfi _ => true
  | .sbar o => o.imm16.getLsbD 4
  | _ => false

/-- Whether a thread has no stalled instruction, or one that an event trap, a stop or teardown leaves not performed
(R277). -/
def Thread.yields (th : Thread) : Bool :=
  match th.wait with
  | .none | .passWait _ _ _ | .cleatWait _ _ _ _ _ _ | .reelWait _ _ _ _ _ | .sbar _ _ _ _ | .qwait _ _ _ _ _ _ | .gmm _ _ _ _ _
  | .inject _ _ _ _ _ | .wfi _ _ _ | .fibre _ _ => true
  | .stand _ => match decodeWord th.word with | .ok i => leavable i | .error _ => false
  | _ => false

end Sys2Proof.Machine
end

