-- ==== Sys2Proof/Machine/Load.lean ====
section
/-!
DEFINITION. Placing one instruction where the next step runs it: context 0 with one thread and a page table for a
sequencer word, or a lay of one page with an execution about to run for a word that only a station may hold. It stands
for a host's launch, or for a lay's loading and firing (log entry 13).
-/
namespace Sys2Proof.Machine

/-- A page-table entry at a physical address. -/
def putPte (m : Mem) (a e : Nat) : Mem := writeBytes m a (bytesOfNat 8 e)

/-- A page table at 0x100000 that maps virtual 0x10000 to physical 0x200000 for fetching and virtual 0x20000 to
0x210000 for data (R399, R400). -/
def loadTable (m : Mem) : Mem :=
  putPte (putPte (putPte (putPte (putPte (putPte m 0x100000 0x101001) 0x101000 0x102001) 0x102000 0x103001)
    0x103000 0x104001) 0x104008 0x200017) 0x104010 0x21000f

/-- The sites in the order in which a word is tried. -/
def loadSite (i : Instr) : Site := (sitesOf i).headD .seq

/-- A running thread 0 of context 0 whose pc stands at virtual 0x10000. -/
def loadThread (s : State) (w : Nat) : State :=
  let s1 := { s with hbm := writeBytes (loadTable s.hbm) 0x200000 (bytesOfNat 8 w),
                     sched := .issue 0 :: s.sched, cur := .device, issued := Vector.replicate 4 false }
  let s2 := s1.modPort 0 fun p => { p with ptroot := 0x100000 }
  let s3 := s2.modCtx 0 fun x => { x with st := .running, home := 0, nthr := 1 }
  s3.setThread 0 0 { Thread.reset with pc := 0x10000 }

/-- The sid of station 0 of a site's kind (R56). -/
def loadSid (k : Site) : Sid :=
  match k with
  | .bank => 0x20
  | .matrix => 0x40
  | .splice => 0x60
  | _ => 0

/-- What station 0 of a site is. -/
def loadBody (k : Site) : Body :=
  match k with
  | .bank => .bank (Bank.fresh .buf 1024)
  | .matrix => .matrix Matrix.initial
  | .splice => .splice (Splice.fresh .seg [] 0xff)
  | _ => .compute

/-- The segment execution that is about to run the word. -/
def loadFrame (k : Site) : Frame :=
  { id := 0, port := 0, orig := Rec.zero, r := Rec.zero, seg := 0, ip := 0, q := 0, k := Vector.replicate 12 0,
    kv := Vector.replicate 4 vzero, mx := if k = .matrix then some Matrix.initial else none, lfsr := 1, st := .running,
    stores := [], outst := [], doneAt := 0, ties := [], skips := [], touched := [], nacc := 0, perf := [],
    puts := [], waits := [], atomDone := false, exit := .none, why := none, refired := false }

/-- A lay of one page in slot 0 of context 0 whose one station is about to run the word. -/
def loadStation (s : State) (k : Site) (w : Nat) : State :=
  let st := { Station.fresh 0 (loadSid k) (loadBody k) with
    segs := (Vector.replicate 4 none).set 0 (some ⟨[BitVec.ofNat 64 w], 0⟩), frames := [loadFrame k] }
  let ly := { Lay.fresh 0 0 [⟨0, 0, 0, 0, Reel.fresh 0 (Vector.replicate 4 0)⟩] with stations := [st] }
  let s1 := { s with hbm := loadTable s.hbm, nextId := 1, cur := .device,
                     sched := .station ⟨0, 0, 0, loadSid k⟩ 0 :: s.sched }
  let s2 := s1.modPort 0 fun p => { p with ptroot := 0x100000 }
  s2.modCtx 0 fun x => { x with st := .running, home := 0, nthr := 1, lays := x.lays.set 0 (some ly) }

/-- Places a word so that the next step runs it: at a station where no sequencer may, in a thread otherwise. -/
def loadWord (s : State) (w : Nat) : State :=
  match decodeWord (BitVec.ofNat 64 w) with
  | .ok i => if loadSite i = .seq then loadThread s w else loadStation s (loadSite i) w
  | .error _ => loadThread s w

end Sys2Proof.Machine
end

