-- ==== Sys2Proof/Machine/Fabric.lean ====
section
/-!
DEFINITION. Links and what moves on them (07 R195 to R216): link ends, slots, mesh routes and channels, the loops of
bights, and the conversion of a record at an input port (01 R34, R35).
-/
namespace Sys2Proof.Machine

/-! ### Links -/

/-- The station id of a reel, of the exception network and of a cleat as link ends (R56, R410). -/
def reelSid : Sid := 0x70
/-- The sender of the handler's link (R410). -/
def excSid : Sid := 0x7f
/-- The sender of a cleat's release records; the port is the cleat's number. -/
def cleatSid : Sid := 0x7e

/-- The place of a list's first element that meets a test. -/
def findIx {α : Type} (f : α → Bool) : List α → Nat → Option Nat
  | [], _ => none
  | x :: xs, n => if f x then some n else findIx f xs (n + 1)

/-- The link that leaves an output port. -/
def Lay.linkFrom? (x : Lay) (e : End) : Option Nat := findIx (fun l => l.src == e) x.links 0

/-- The link that ends at an input port. -/
def Lay.linkTo? (x : Lay) (e : End) : Option Nat := findIx (fun l => l.dst == e) x.links 0

/-- The lay with link k changed. -/
def Lay.modLink (x : Lay) (k : Nat) (f : Link → Link) : Lay :=
  match x.links[k]? with
  | some l => { x with links := x.links.set k (f l) }
  | none => x

/-- An item leaves on a link: it takes the slot that was found free (R201, R202). -/
def Lay.sendOn (x : Lay) (k : Nat) (it : Item) : Lay := x.modLink k fun l => { l with flight := l.flight ++ [(it, 0)] }

/-- A slot of a link is reserved (R204). -/
def Lay.reserve (x : Lay) (k : Nat) : Lay := x.modLink k fun l => { l with free := l.free - 1 }

/-- A reserved slot is returned unused (R204). -/
def Lay.unreserve (x : Lay) (k : Nat) : Lay := x.modLink k fun l => { l with free := l.free + 1 }

/-- Whether a link has a free slot. -/
def Lay.hasSlot (x : Lay) (k : Nat) : Bool :=
  match x.links[k]? with
  | some l => 0 < l.free
  | none => false

/-- An item takes a free slot and leaves at once. -/
def Lay.push (x : Lay) (k : Nat) (it : Item) : Lay := (x.reserve k).sendOn k it

/-- The receiver takes the head of a link: its slot starts back, or frees the sender's register (R201, R202), unless
the record stood in the buffer beyond its slots. -/
def Lay.takeHead (x : Lay) (k now : Nat) : Lay :=
  x.modLink k fun l =>
    let l1 := { l with buf := l.buf.tail, headAt := now }
    if 0 < l.debt then { l1 with debt := l.debt - 1 }
    else if l.slots = 0 then { l1 with free := l.free + 1 } else { l1 with back := l.back + 1 }

/-- The head record of a link's input buffer; none where it is empty or a reconfiguration record. -/
def Lay.headRec? (x : Lay) (k : Nat) : Option Rec :=
  match x.links[k]? with
  | some l =>
    match l.buf with
    | .data r :: _ => some r
    | _ => none
  | none => none

/-- The head record of an input port. -/
def Lay.portHead? (x : Lay) (e : End) : Option Rec := (x.linkTo? e).bind x.headRec?

/-- Words a record may show: those at or beyond its length read zero, but f15 of a crd record (R43). -/
def Rec.trim (r : Rec) : Rec :=
  let v := vclear r.pay r.hdr.len.toNat
  { r with pay := if r.hdr.fmt = 14 then v.set 15 (r.pay[15]) else v }

/-! ### Routes (R196, R197, R215) -/

/-- The channels of a run of n columns from a position. -/
def runCols : Nat → Nat → Nat → Bool → List Chan
  | 0, _, _, _ => []
  | n + 1, col, row, east =>
    ⟨Fin.ofNat 24 col, Fin.ofNat 14 row, if east then 0 else 1⟩ :: runCols n (if east then col + 1 else col - 1) row east

/-- The channels of a run of n rows from a position. -/
def runRows : Nat → Nat → Nat → Bool → List Chan
  | 0, _, _, _ => []
  | n + 1, col, row, south =>
    ⟨Fin.ofNat 24 col, Fin.ofNat 14 row, if south then 2 else 3⟩ :: runRows n col (if south then row + 1 else row - 1) south

/-- The route between two grid positions: along the columns, then along the rows (R197). -/
def gridRoute (c1 r1 c2 r2 : Nat) : List Chan :=
  runCols (c2 - c1 + (c1 - c2)) c1 r1 (c1 < c2) ++ runRows (r2 - r1 + (r1 - r2)) c2 r1 (r1 < r2)

/-- The route of a link of a lay. -/
def Lay.route (x : Lay) (l : Link) : List Chan :=
  match x.pages[l.src.pid.val]?, x.pages[l.dst.pid.val]? with
  | some a, some b => gridRoute a.gcol a.grow b.gcol b.grow
  | _, _ => []

/-- Records of a lay that stand on a channel. -/
def Lay.onChan (x : Lay) (ch : Chan) : Nat :=
  (x.links.map fun l =>
    let rt := x.route l
    (l.flight.filter fun i => decide (0 < i.2) && rt[i.2 - 1]? == some ch).length).sum

/-- Whether a lay's links route through a channel. -/
def Lay.usesChan (x : Lay) (ch : Chan) : Bool := x.links.any fun l => l.src.sid != excSid && (x.route l).contains ch

/-- Records of a context on a channel. -/
def Ctx.onChan (x : Ctx) (ch : Chan) : Nat :=
  (x.lays.toList.map fun l => match l with | some y => y.onChan ch | none => 0).sum

/-- Whether a context routes through a channel (R215). -/
def Ctx.usesChan (x : Ctx) (ch : Chan) : Bool :=
  x.lays.toList.any fun l => match l with | some y => y.placed && y.usesChan ch | none => false

/-- Whether the slot of a channel that is a context's own is free (R215). -/
def State.ownSlotFree (s : State) (c : CtxId) (ch : Chan) : Bool := (s.ctx c).onChan ch == 0

/-- Whether a shared slot of a channel is free (R215). -/
def State.sharedFree (s : State) (ch : Chan) : Bool :=
  let users := s.ctxs.toList.filter fun x => x.usesChan ch
  (users.map fun x => x.onChan ch - 1).sum < 8 - users.length

/-- Whether a channel carries flits: neither retraining nor failed (R481). -/
def State.chanUp (s : State) (ch : Chan) : Bool := !(s.chans.any fun x => x.ch == ch && (x.training || x.failed))

/-! ### Bights (R207 to R210) -/

/-- Whether a link joins two stations (its ends are no reel, cleat or exception network). -/
def Link.isInner (l : Link) : Bool := l.src.sid.toNat < 0x70 && l.dst.sid.toNat < 0x70

/-- One step of reaching: nodes (page, sid) reached from a set over links, never through a bight entry. -/
def growForward (ls : List Link) (e : Pid × Sid) (ns : List (Pid × Sid)) : List (Pid × Sid) :=
  ls.foldl (fun acc l =>
    let a := (l.src.pid, l.src.sid)
    let b := (l.dst.pid, l.dst.sid)
    if acc.contains a && a != e && b != e && !(acc.contains b) then b :: acc else acc) ns

/-- One step of reaching back. -/
def growBackward (ls : List Link) (e : Pid × Sid) (ns : List (Pid × Sid)) : List (Pid × Sid) :=
  ls.foldl (fun acc l =>
    let a := (l.src.pid, l.src.sid)
    let b := (l.dst.pid, l.dst.sid)
    if acc.contains b && b != e && a != e && !(acc.contains a) then a :: acc else acc) ns

/-- A function applied n times. -/
def iter {α : Type} (f : α → α) : Nat → α → α
  | 0, x => x
  | n + 1, x => iter f n (f x)

/-- The loop of a bight-mode splice (R207): the links on a walk from its o0 to its i1 that does not pass through it. -/
def Lay.loopOf (x : Lay) (pid : Pid) (sid : Sid) : List Link :=
  let e := (pid, sid)
  let ls := x.links.filter Link.isInner
  let first := ls.filter fun l => l.src == ⟨pid, sid, 0⟩
  let last := ls.filter fun l => l.dst == ⟨pid, sid, 1⟩
  let n := ls.length
  let fwd := iter (growForward ls e) n (first.map fun l => (l.dst.pid, l.dst.sid))
  let bwd := iter (growBackward ls e) n (last.map fun l => (l.src.pid, l.src.sid))
  ls.filter fun l =>
    let a := (l.src.pid, l.src.sid)
    let b := (l.dst.pid, l.dst.sid)
    (l.src == ⟨pid, sid, 0⟩ && (bwd.contains b || l.dst == ⟨pid, sid, 1⟩))
      || (l.dst == ⟨pid, sid, 1⟩ && fwd.contains a)
      || (fwd.contains a && bwd.contains b && bwd.contains a && fwd.contains b && a != e && b != e)

/-- The capacity of a bight: the slots of its loop (R207). -/
def Lay.loopCapacity (x : Lay) (pid : Pid) (sid : Sid) : Nat := ((x.loopOf pid sid).map Link.slots).sum

/-- Whether a station is a bight entry. -/
def Station.isBight (st : Station) : Bool :=
  match st.body with
  | .splice b => b.mode == .bight
  | _ => false

/-- The splice of a station changed. -/
def Station.modSplice (st : Station) (f : Splice → Splice) : Station :=
  match st.body with
  | .splice b => { st with body := .splice (f b) }
  | _ => st

/-- Whether a station stands inside a loop. -/
def insideLoop (ls : List Link) (pid : Pid) (sid : Sid) : Bool := ls.any fun l => l.dst.pid == pid && l.dst.sid == sid

/-- Occupancies after a record at a station turns into one record on each of some links: a bight whose loop holds the
station gains the outputs inside its loop, and loses one where the record counted in it (R208, R209). -/
def Lay.loopLeave (x : Lay) (pid : Pid) (sid : Sid) (counted : Bool) (outs : List Link) : Lay :=
  { x with stations := x.stations.map fun st =>
      if st.isBight && !(st.pid == pid && st.sid == sid) then
        let lp := x.loopOf st.pid st.sid
        if insideLoop lp pid sid then
          st.modSplice fun b => { b with occ := b.occ + (outs.filter fun l => lp.contains l).length - if counted then 1 else 0 }
        else st
      else st }

/-- Occupancies after a record that counts in its loops turns into one on each of some links. -/
def Lay.loopMove (x : Lay) (pid : Pid) (sid : Sid) (outs : List Link) : Lay := x.loopLeave pid sid true outs

/-- A record held in the exception register of a station joins the loops again (R208). -/
def Lay.loopRejoin (x : Lay) (pid : Pid) (sid : Sid) : Lay :=
  { x with stations := x.stations.map fun st =>
      if st.isBight && insideLoop (x.loopOf st.pid st.sid) pid sid then st.modSplice fun b => { b with occ := b.occ + 1 }
      else st }

/-! ### Port conversion (R34, R35, R18) -/

/-- Whether a record is malformed (R18, R43). -/
def Rec.malformed (r : Rec) : Bool :=
  16 < r.hdr.len.toNat || (r.hdr.fmt == 6 && r.hdr.len.toNat % 3 != 0)
    || ((r.hdr.fmt == 12 || r.hdr.fmt == 13) && r.hdr.len != 16)

/-- Codes rounded to nearest even into a format without draws; none where an element becomes poison (R27, R30). -/
def convElems (src dst : Fmt) (sc : Byte) : List Nat → List Nat × Bool
  | [] => ([], false)
  | x :: xs =>
    let c := (roundTo (decodeElem src x sc) dst .rne false 1).1
    let (ys, p) := convElems src dst sc xs
    (c.getD 0 :: ys, p || c.isNone)

/-- A record as the segment sees it at a port of a declared format; none is a format fault (R34, R35). A converted
record has h.scale 0 (R24). -/
def Rec.convert (r : Rec) (dc : BitVec 4) : Option Rec :=
  let tag := r.hdr.fmt
  if r.malformed then none
  else if tag = dc || tag = 0 || tag = 14 || tag = 15 || dc = 0 then some r
  else if dc = 12 || dc = 13 then none
  else
    let src := fmtOf tag
    let dst := fmtOf dc
    let n := elemCount src r.hdr.len.toNat
    let len := (n * fmtBits dst + 31) / 32
    if 16 < len then none
    else
      let (xs, p) := convElems src dst r.hdr.scale (elemsOf (fmtBits src) n (vstr r.pay))
      let v := vofStr (strOfElems (fmtBits dst) xs)
      some { r with hdr := { r.hdr with fmt := if p then 15 else dc, len := BitVec.ofNat 5 len, scale := 0 }, pay := v }

end Sys2Proof.Machine
end

