-- ==== Sys2Proof/Machine/Segment.lean ====
section
/-!
DEFINITION. Segment executions (02 R46 to R53, 07 R203, R204): what a segment holds, the firing rule, cleats' arrivals
(R219), faulting and the exception register (14 R411 to R414), and completion (05 R147, R159).
-/
namespace Sys2Proof.Machine

/-! ### What a segment holds -/

/-- The instructions of a segment. -/
def Seg.instrs (g : Seg) : List Instr := g.code.filterMap fun w => (decodeWord w).toOption

/-- The ports a terminator names (R50, R146). -/
def instrPorts : Instr → List (Fin 4)
  | .emit o | .bight o => [Fin.ofNat 4 o.pt.toNat]
  | .fork o | .steer o => [Fin.ofNat 4 o.pt.toNat, Fin.ofNat 4 o.pf.toNat]
  | _ => []

/-- Whether an instruction ends a segment (R145). -/
def isTerminator : Instr → Bool
  | .emit _ | .fork _ | .drop _ | .steer _ | .bight _ => true
  | _ => false

/-- The emit set of a segment (R50). -/
def Seg.emits (g : Seg) : List (Fin 4) := g.instrs.flatMap instrPorts

/-- The specifiers that an instruction writes in a station. -/
def destSpecs : Instr → List Spec
  | .add o | .sub o | .mul o | .mulh o | .mad o | .div o | .rem o | .addc o | .and o | .or o | .xor o | .andn o
  | .not o | .shl o | .shr o | .sar o | .rol o | .ror o | .clz o | .ctz o | .popc o | .brev o | .min o | .max o
  | .abs o | .neg o | .sel o | .cmp o | .lea o | .mov o | .bfx o | .bfi o | .byteperm o | .hash o | .cvti o
  | .perm o | .shuf o | .bcast o | .rot o | .zip o | .unzip o | .pack o | .unpack o | .cmpr o | .expd o | .lmask o
  | .lsel o | .movw o | .fmin o | .fmax o | .fabs o | .fneg o | .fcmp o
  | .fadd o | .fsub o | .fmul o | .fma o | .fnma o | .fcvt o | .frnd o | .fscale o | .frcp o | .frsq o | .fsqrt o
  | .fexp2 o | .flog2 o | .ftanh o | .i2f o | .f2i o | .fqnt o | .fdq o | .fred o | .fdot o => [o.d]
  | .swap o | .smxUpd o | .smxMerge o => [o.d, o.a]
  | .addImm o | .andImm o | .orImm o | .xorImm o | .shlImm o | .shrImm o | .sarImm o | .cmpImm o | .movi o => [o.d]
  | .ld o | .ldx o | .cas o | .ldp o => [o.d]
  | .atom o | .atomf o => if o.mod.getLsbD 3 then [] else [o.d]
  | _ => []

/-- Whether a segment names a k or kv register as a destination (R52). -/
def Seg.writesK (g : Seg) : Bool := g.instrs.any fun i => (destSpecs i).any fun d => isK d || isKv d

/-- The accesses of R152. -/
def isAccess : Instr → Bool
  | .ld _ | .st _ | .ldx _ | .stx _ | .atom _ | .atomf _ | .cas _ | .ldp _ | .stp _ => true
  | _ => false

/-- Whether a segment holds an access (R158). -/
def Seg.hasAccess (g : Seg) : Bool := g.instrs.any isAccess

/-- The queues of a segment's otok.put instructions, in order (R171). -/
def Seg.puts (g : Seg) : List (Fin 16) :=
  g.instrs.filterMap fun i => match i with | .otokPut o => some (Fin.ofNat 16 o.disp.toNat) | _ => none

/-- Whether a segment is held while a swap is pending (R188). -/
def Seg.heldBySwap (g : Seg) : Bool :=
  g.instrs.any fun i => match i with | .tld _ | .tzero _ | .tswap _ => true | _ => false

/-! ### Cleats (R217 to R220, R324) -/

/-- A cleat of a lay. -/
def Lay.cleat? (x : Lay) (pid : Pid) (n : Fin 16) : Option Cleat := x.cleats.find? fun c => c.pid == pid && c.num == n

/-- The lay with a cleat changed. -/
def Lay.modCleat (x : Lay) (pid : Pid) (n : Fin 16) (f : Cleat → Cleat) : Lay :=
  { x with cleats := x.cleats.map fun c => if c.pid == pid && c.num == n then f c else c }

/-- One arrival (R219): the requests of the tying record join those that the release waits for. -/
def Cleat.arrive (c : Cleat) (reqs : List Nat) : Cleat :=
  if c.count = 0 then { c with overrun := true }
  else
    let extra := c.overrun || decide (c.budget.toNat ≤ c.fired.toNat)
    let a := c.arrivals + 1
    let rs := c.reqs ++ reqs
    if a = c.count then
      let g := c.gen + 1
      let f := if c.fired = 255 then c.fired else c.fired + 1
      let full := c.link.isSome && decide (255 ≤ c.pending.length)
      { c with arrivals := 0, gen := g, fired := f, overrun := extra || full,
               waiting := c.waiting ++ [(g, f, rs, full)], reqs := [] }
    else { c with arrivals := a, overrun := extra, reqs := rs }

/-- An arrival reaches a cleat of a lay. -/
def Lay.arrive (x : Lay) (pid : Pid) (n : Fin 16) (reqs : List Nat) : Lay :=
  x.modCleat pid n fun c => { c with arriving := c.arriving ++ [reqs] }

/-- The arrivals of a fabric cycle are counted as it ends, after a cleat.set of the cycle (R291). -/
def Cleat.countArrivals (c : Cleat) : Cleat := c.arriving.foldl Cleat.arrive { c with arriving := [] }

/-- The arrivals of a cycle at every cleat of a lay; one that a cleat counts restarts the wedge timer (R225). -/
def Lay.countArrivals (x : Lay) : Lay :=
  if x.cleats.all fun c => c.arriving.isEmpty then x
  else
    let y := { x with cleats := x.cleats.map Cleat.countArrivals }
    if x.cleats.any fun c => c.count != 0 && !c.arriving.isEmpty then y.progressed else y.stir

/-! ### Requests performed -/

/-- Whether a request has been performed (R312): it is gone, or its reply is on its way. -/
def State.performed (s : State) (r : Nat) : Bool := !(s.reqs.any fun q => q.id == r && q.stage != .done)

/-- An entry of a bank's window ends once its execution has left and its accesses there are performed (R235). -/
def State.tidyWindow (s : State) (p : Place) (x : Nat) : State :=
  if s.reqs.any fun q => q.place == p && q.exec == x && q.stage != .done then s
  else s.modStation p fun st =>
    match st.body with
    | .bank b => if (st.frame? x).isSome then st
      else { st with body := .bank { b with window := b.window.filter (fun k => k != x), records := b.records.filter fun k => k != x } }
    | _ => st

/-! ### Places and the firing rule (R198, R203) -/

/-- Whether an execution holds a park entry (R158). -/
def Frame.isParked (f : Frame) : Bool :=
  match f.st with
  | .parked _ | .resumed | .held | .acking | .doomed _ => true
  | _ => false

/-- Whether a parked record waits for the next free execution place only (R203). -/
def Frame.returns (f : Frame) : Bool :=
  match f.st with
  | .resumed | .doomed _ => true
  | .acking => f.outst.isEmpty
  | _ => false

/-- Whether a compute station has a park entry free (R158). -/
def Station.parkFree (st : Station) : Bool := sidSite st.sid != .compute || (st.frames.filter Frame.isParked).length < 64

/-- Free entries of an ordering-token queue (R171). -/
def Station.tokFree (st : Station) (q : Fin 16) : Nat := 8 - (st.toks.filter fun e => e.queue == q).length

/-- Whether a segment's executions stand in the way of, or demand, exclusion (R52). -/
def Station.excluded (st : Station) (g : Seg) : Bool :=
  let busy := st.frames.filter Frame.unfinished
  (g.writesK && !busy.isEmpty)
    || busy.any fun f => f.port.val == 5 || match st.segs[f.seg.val] with | some h => h.writesK | none => false

/-- Whether a station's window is full for records (R235). -/
def Station.windowFull (st : Station) : Bool :=
  match st.bank? with
  | some b => decide (24 ≤ b.records.length) || decide (32 ≤ b.window.length)
  | none => false

/-- The reasons of R226 for which a segment may not start at a station. Records that return take the free places before
it (R203). -/
def Lay.holdReasons (x : Lay) (st : Station) (g : Seg) : List Nat :=
  let noSlot := g.emits.any fun p =>
    match x.linkFrom? ⟨st.pid, st.sid, p.val⟩ with
    | some k => !(x.hasSlot k)
    | none => true
  let returning := (st.frames.filter Frame.returns).length
  let swap := match st.matrix? with | some m => m.swap.isSome && g.heldBySwap | none => false
  let toks := (List.finRange 16).any fun q => st.tokFree q < (g.puts.filter fun t => t == q).length
  let full := if sidSite st.sid = .bank then st.windowFull else decide (placeLimit st.sid ≤ st.placesUsed + returning)
  (if noSlot then [0] else []) ++ (if g.hasAccess && !st.parkFree then [1] else [])
    ++ (if swap then [2] else []) ++ (if st.excluded g then [3] else []) ++ (if toks then [4] else [])
    ++ (if full then [7] else [])

/-! ### The exception register (R411 to R414) -/

/-- The location word of R413. -/
def locWord (pid : Pid) (sid : Sid) : Word := BitVec.ofNat 32 (pid.val + 2 ^ 6 * sid.toNat)

/-- The fault word of R413: kind, instruction index where valid, segment, detail. -/
def faultWord (kind : Nat) (ix : Option Nat) (seg detail : Nat) : Word :=
  BitVec.ofNat 32 (kind + (match ix with | some i => 2 ^ 8 * (i % 16) + 2 ^ 12 | none => 0) + 2 ^ 13 * seg + 2 ^ 16 * detail)

/-- Puts a faulted record into the exception register of its station; without a handler, or from a handler's own run,
it raises a kind-2 event and is held (R414); why holds the words of that handler's run. -/
def State.enterExc (s : State) (p : Place) (r : Rec) (fw : Word) (fromHandler : Bool) (why : Option (Word × Word) := none) : State :=
  let loc := locWord p.pid p.sid
  let noHandler := match s.lay? p.ctx p.slot with | some x => x.handler.isNone | none => true
  let put (h : Option (BitVec 16)) (s : State) : State :=
    s.modStation p fun st => { st with exc := some ⟨r, fw, loc, fromHandler, h, false, why⟩ }
  if noHandler || fromHandler then
    let (tag, s1) := s.raiseEvent p.ctx
      { kind := 2, tag := 0, waiting := true, lay := p.slot, pid := p.pid, src := p.sid.setWidth 8, sub := 0,
        cause := fw.setWidth 8, access := 0, region := 0, reqs := 0, va := 0, fw := fw, loc := loc, r := some r }
    put (some tag) s1
  else put none s

/-- Returns the slots reserved for a segment on its emit ports, but for those kept (R204). -/
def Lay.returnSlots (x : Lay) (pid : Pid) (sid : Sid) (ports : List (Fin 4)) : Lay :=
  ports.foldl (fun y p => match y.linkFrom? ⟨pid, sid, p.val⟩ with | some k => y.unreserve k | none => y) x

/-- The emit set of a segment of a station. -/
def Station.emitsOf (st : Station) (g : Fin 4) : List (Fin 4) :=
  match st.segs[g.val] with
  | some sg => sg.emits
  | none => []

/-- Requests that a test names are withdrawn: one whose link request is out holds its tag until the reply, which is then
discarded (R288, R471). -/
def State.withdrawReqs (s : State) (mine : Req → Bool) : State :=
  { s with reqs := s.reqs.filterMap fun q =>
      if !(mine q) then some q
      else if q.stage = .linked || q.op = .flush then some { q with owner := .nobody, posted := true, exec := 0, units := q.units.take 1 }
      else none }

/-- Removes what an execution leaves behind when it ends without effect: its token entries and its requests. -/
def State.dropExec (s : State) (p : Place) (x : Nat) : State :=
  (s.modStation p fun st => { st with toks := st.toks.filter fun e => e.exec != x }).withdrawReqs fun q => q.place == p && q.owner == .exec x

/-- Whether a frame has faulted. -/
def Frame.isFaulted (f : Frame) : Bool := match f.st with | .faulted _ => true | _ => false

/-- Whether an execution's record counts in the loops of its station: one that a handler takes from its exception buffer
has left them (R208). -/
def Frame.inLoop (f : Frame) : Bool := f.port.val != 5

/-- A segment execution in hand faults (R47, R411): the record is restored; the slots return; the record enters the
exception register, or waits for it in its place. -/
def State.faultExec (s : State) (p : Place) (f : Frame) (kind detail : Nat) (indexed : Bool) : State :=
  match s.station? p with
  | none => { s with cur := .device }
  | some st =>
    let fw := faultWord kind (if indexed then some f.ip else none) f.seg.val detail
    let s1 := (s.dropExec p f.id).modLay p.ctx p.slot fun x =>
      ((x.returnSlots p.pid p.sid (st.emitsOf f.seg)).loopLeave p.pid p.sid f.inLoop []).stir
    let s2 := s1.modStation p fun y => { y with lfsr := f.lfsr }
    if st.exc.isNone && !(st.frames.any Frame.isFaulted) then
      { (s2.enterExc p f.orig fw (f.port.val == 5) f.why).tidyWindow p f.id with cur := .device }
    else
      { s2 with cur := .station p { f with st := .faulted fw, doneAt := s2.nextId, stores := [], outst := [] },
                nextId := s2.nextId + 1 }

/-! ### Posted accesses and their order (R318) -/

/-- Bytes of two units in common. -/
def unitsMeet (a b : MUnit) : Bool := a.node == b.node && a.addr < b.addr + b.len && b.addr < a.addr + a.len

/-- The requests that an access of a record must follow (R318): fenced posted ones, those that share a byte, and, where
flush says so, its posted host writes (R475). -/
def State.mustFollow (s : State) (past : List Past) (write strong flush : Bool) (us : List MUnit) : List Nat :=
  past.filterMap fun q =>
    let shares := s.reqs.any fun r => r.id == q.req && (r.units ++ r.out).any fun u => us.any fun v => unitsMeet u v
    let host := s.reqs.any fun r => r.id == q.req && r.unflushed
    if q.scFence || shares || (write && (q.same || q.relFence || strong)) || (flush && host) then some q.req else none

/-- A posted access joins a record's past. -/
def Rec.posts (r : Rec) (id : Nat) : Rec := { r with past := r.past ++ [⟨id, true, false, false⟩] }

/-- The past that still matters: accesses not yet performed. -/
def State.livePast (s : State) (ps : List Past) : List Past := ps.filter fun q => s.reqs.any fun r => r.id == q.req

/-! ### Buffered stores (R159) and ordering tokens (R171) -/

/-- The 64-byte granules that a unit touches, as numbers (R171). -/
def unitGranule (u : MUnit) : List Nat :=
  (granules 64 u.addr u.len).map fun g =>
    match u.node with
    | .bank k => 16 * (k * 1024 + g)
    | .hbm => 16 * g + 1
    | .host => 16 * g + 2
    | .peer n => 16 * g + 3 + n.val

/-- The granules of a list of units added to a list. -/
def addGranules (acc : List Nat) (us : List MUnit) : List Nat := (us.flatMap unitGranule).foldl (fun a g => insertN g a) acc

/-- The granules of a list of units. -/
def unitGranules (us : List MUnit) : List Nat := addGranules [] us

/-- Whether an access of an execution to some granules must wait on token queues: an entry of an older execution is
unknown, covers every address, or shares a granule (R171). -/
def Station.tokBlocks (st : Station) (x : Nat) (qs : List (Fin 16)) (gs : List Nat) : Bool :=
  st.toks.any fun e =>
    qs.contains e.queue && e.exec < x &&
      match e.addrs with
      | none => true
      | some as => e.allAddrs || gs.any fun g => as.contains g

/-- The buffered stores of an execution turned into requests in program order, each after the one before (R159, R318
rows 4 and 5). The answer gives the frame with its past, numbers and open acknowledgements. -/
def State.sendStores (p : Place) : List BufStore → Frame → State → Frame × State
  | [], f, s => (f, s)
  | b :: bs, f, s =>
    let id := s.nextId
    let host := b.units.any fun u => u.node == .host
    let after := s.mustFollow f.r.past true b.rel (b.rel && b.sys || !b.posted && host) b.units
    let q : Req :=
      { id := id, place := p, owner := if b.posted then .nobody else .exec f.id, exec := f.id, op := .wr, vas := b.vas,
        wr := true, atomic := false, portal := b.portal, units := b.units, got := [], perm := [], fwd := [], stage := .sent,
        after := after ++ (f.perf.map Prod.snd), posted := b.posted, relaxed := false, poison := false,
        unflushed := host, out := [], marked := false, born := s.cyc }
    let f1 := { f with r := if b.posted then f.r.posts id else f.r, perf := f.perf ++ [(b.ix, id)],
                       outst := if b.posted then f.outst else f.outst ++ [id] }
    State.sendStores p bs f1 { s with reqs := s.reqs ++ [q], nextId := id + 1 }

/-- The entries of an execution become known at its completion (R171). -/
def settleToks (f : Frame) : List (Fin 16 × List Nat × Nat) → List TokEntry → List TokEntry
  | _, [] => []
  | ps, e :: es =>
    if e.exec ≠ f.id then e :: settleToks f ps es
    else
      match ps.find? fun q => q.1 == e.queue with
      | none => e :: settleToks f ps es
      | some (q, gs, n) =>
        let rs := (f.perf.filter fun a => decide (a.1 < n)).map Prod.snd
        { e with addrs := some gs, allAddrs := decide (16 < gs.length), reqs := rs } :: settleToks f (ps.erase (q, gs, n)) es

/-- Every request that a record's ties and hand-offs wait for: its past and its own stores (R324). -/
def Frame.pastReqs (f : Frame) : List Nat := f.r.past.map Past.req ++ f.outst

/-- A terminator completes the segment in hand (R147, R159): stores are performed, station registers and matrix state
written back, tokens known, ties delivered, skips sent on; the record then waits to leave, parked where an access is still
to be acknowledged. Stores that wait on tokens delay it, and so does the want of a park entry (R158, R171). -/
def State.completeExec (s : State) (p : Place) (f : Frame) (e : Exit) : State :=
  match s.station? p with
  | none => s
  | some st =>
    let acks := !f.outst.isEmpty || f.stores.any fun b => !b.posted
    if (f.stores.any fun b => st.tokBlocks f.id b.waits (unitGranules b.units)) || (acks && !st.parkFree) then s
    else
      let (f1, s1) := State.sendStores p f.stores f s
      let f2 := { f1 with stores := [], st := if f1.outst.isEmpty then .leaving else .acking, exit := e, doneAt := s1.nextId }
      let reqs := f2.pastReqs
      let fenced := f2.outst ++ ((f2.r.past.filter fun q => q.relFence || q.scFence).map Past.req)
      let s2 := { s1 with nextId := s1.nextId + 1 }.modStation p fun y =>
        { y with k := f2.k, kv := f2.kv, toks := settleToks f2 f2.puts y.toks,
                 body := match y.body, f2.mx with | .matrix _, some m => .matrix m | b, _ => b }
      let s3 := s2.modLay p.ctx p.slot fun x =>
        let y := (f2.ties.foldl (fun z n => z.arrive p.pid n reqs) x).stir
        f2.skips.foldl (fun z k =>
          { z with pages := z.pages.modify k.1.val fun pg =>
              { pg with reel := { pg.reel with skips := pg.reel.skips ++ [(k.2.1, k.2.2, fenced)] } } }) y
      { s3 with cur := .station p f2 }

/-! ### Firing -/

/-- The new execution of a segment. -/
def newFrame (id : Nat) (port : Fin 6) (orig r : Rec) (seg : Fin 4) (st : Station) : Frame :=
  { id := id, port := port, orig := orig, r := r, seg := seg, ip := 0, q := 0, k := st.k, kv := st.kv, mx := st.matrix?,
    lfsr := st.lfsr, st := .running, stores := [], outst := [], doneAt := 0, ties := [], skips := [], touched := [],
    nacc := 0, perf := [], puts := [], waits := [], atomDone := false, exit := .none, why := none, refired := false }

/-- Token entries for the puts of a segment, in order (R171). -/
def newToks (id : Nat) (x : Nat) : List (Fin 16) → List TokEntry
  | [] => []
  | q :: qs => ⟨id, q, x, none, false, []⟩ :: newToks (id + 1) x qs

/-- Starts an execution at a station: slots reserved, token entries appended, wedge timer restarted (R204, R225). One
that a forced pre-emption rolled back keeps its number (R421). -/
def State.startExec (s : State) (p : Place) (port : Fin 6) (orig r : Rec) (seg : Fin 4) (g : Seg) (k : Option (Word × Word))
    (again : Bool := false) : State :=
  let id := match (s.station? p).bind fun st => st.again.find? fun a => a.1 == port with | some a => a.2 | none => s.nextId
  let s1 := s.modStation p fun st =>
    let f0 := newFrame id port orig r seg st
    let f1 := match k with | some (a, b) => { f0 with k := (f0.k.set 10 a).set 11 b, why := k } | none => f0
    { st with frames := insertFrame { f1 with refired := again } st.frames,
              toks := st.toks ++ newToks (s.nextId + 1) id g.puts, again := st.again.filter fun a => a.2 != id,
              body := match st.body with | .bank b => .bank { b with window := b.window ++ [id], records := b.records ++ [id] } | b => b }
  let s2 := s1.modLay p.ctx p.slot fun x =>
    (g.emits.foldl (fun y q => match y.linkFrom? ⟨p.pid, p.sid, q.val⟩ with | some n => y.reserve n | none => y) x).progressed
  { s2 with nextId := s.nextId + 1 + g.puts.length }

/-- What a station may do with a record on a port: run a segment on it, or divert it with a fault word. -/
inductive Intake where
  | run (seg : Fin 4) (g : Seg) (r : Rec)
  | divert (fw : Word)

/-- What a station makes of a record (R49, R34): a class fault, a format fault, or a segment. A class that maps to a
segment of length 0, which is no segment (R394), draws a class fault as one that maps to none (DESIGN CHOICE, log
entry 75). -/
def Station.intake (st : Station) (r : Rec) : Intake :=
  match st.cmap[r.hdr.cls.toNat]'(by have := r.hdr.cls.isLt; omega) with
  | none => .divert (faultWord 2 none 0 0)
  | some g =>
    match st.segs[g.val] with
    | none => .divert (faultWord 2 none 0 0)
    | some sg =>
      match r.convert sg.fmt with
      | none => .divert (faultWord 1 none g.val 0)
      | some r' => .run g sg (if r'.hdr.fmt = r.hdr.fmt then r'.trim else r')

/-- Whether the record at the head of a port may be taken now: a diverted one needs the exception register alone. -/
def Lay.mayTake (x : Lay) (st : Station) (r : Rec) : Bool :=
  match st.intake r with
  | .divert _ => true
  | .run _ g _ => (x.holdReasons st g).isEmpty

/-- The input ports of a station in scan order, beginning after the port it last took from (R199). -/
def scanOrder (last : Fin 4) : List (Fin 4) := (List.range 4).map fun i => Fin.ofNat 4 (last.val + 1 + i)

/-- Whether a station runs segments now: alive, its exception register empty, and no faulted record waiting for the
register (R411). -/
def Station.mayFire (st : Station) : Bool := !st.dead && st.exc.isNone && !(st.frames.any Frame.isFaulted)

/-- The port a station takes its next record from, with the link and the record (R199). -/
def Lay.nextIntake (x : Lay) (st : Station) : Option (Fin 4 × Nat × Rec) :=
  (scanOrder st.lastPort).findSome? fun i =>
    match x.linkTo? ⟨st.pid, st.sid, i.val⟩ with
    | none => none
    | some k =>
      match x.headRec? k with
      | none => none
      | some r => if x.mayTake st r then some (i, k, r) else none

/-- Whether a station runs segments at all: compute, matrix, a seg-mode splice, or a bank of a role that does (R240). -/
def Station.runsSegments (st : Station) : Bool :=
  match st.body with
  | .compute | .matrix _ => true
  | .bank b => b.role == .buf || b.role == .pres || b.role == .line
  | .splice b => b.mode == .seg

/-- Fires the record held after a flt.retry, with the same segment (R409); a handler's run has its words again (R413). -/
def State.refire (s : State) (p : Place) (x : Lay) (st : Station) (e : ExcRec) : State :=
  let clear (s : State) : State := s.modStation p fun y => { y with exc := none }
  if e.fromHandler then
    match st.segs[3] with
    | some g => if (x.holdReasons st g).isEmpty then (clear s).startExec p 5 e.r e.r.trim 3 g e.why true else s
    | none => s
  else
    match st.intake e.r with
    | .divert fw => ((clear s).modLay p.ctx p.slot fun y => y.loopMove p.pid p.sid []).enterExc p e.r fw false
    | .run seg g r => if (x.holdReasons st g).isEmpty then (clear s).startExec p 4 e.r r seg g none else s

/-- One firing at a station (R203): a held record after its retry first, else the head that the scan finds. -/
def State.fireAt (s : State) (p : Place) : State :=
  match s.lay? p.ctx p.slot, s.station? p with
  | some x, some st =>
    if !st.runsSegments || st.dead then s
    else
      match st.exc with
      | some e => if e.refire then s.refire p x st e else s
      | none =>
        match if st.mayFire then x.nextIntake st else none with
        | none => s
        | some (i, k, r) =>
          let s1 := s.modLay p.ctx p.slot fun y => ((y.takeHead k s.cyc).modStation p.pid p.sid fun z =>
            { z with lastPort := i }).stir
          match st.intake r with
          | .divert fw =>
            ((s1.modLay p.ctx p.slot fun y => y.loopMove p.pid p.sid []).modStation p fun z =>
              { z with again := z.again.eraseP fun a => a.1 == i.castLE (by decide) }).enterExc p r fw false
          | .run seg g r' => s1.startExec p (i.castLE (by decide)) r r' seg g none
  | _, _ => s

/-- STATION_FIRE (R203). -/
def execStationFire (p : Place) (s : State) : Res := .next (s.fireAt p)

/-! ### Leaving (R147, R204, R238) -/

/-- The ports an exit takes. -/
def exitPorts : Exit → List (Fin 4)
  | .port p => [p]
  | .fork p q => [p, q]
  | _ => []

/-- Whether a record waits for an earlier one of its ordered port (R238). -/
def Station.heldByOrder (st : Station) (f : Frame) : Bool :=
  decide (f.port.val < 4) && st.ordered.getLsbD f.port.val
    && ((st.frames.any fun g => g.port == f.port && decide (g.id < f.id)) || st.again.any fun a => a.1 == f.port && decide (a.2 < f.id))

/-- Whether an execution has run its terminator and waits to leave. -/
def Frame.completed (f : Frame) : Bool := f.st == .leaving || f.st == .acking

/-- Whether a completed execution may leave: acknowledgements in and, after them, an execution place free; in arrival
order from an ordered port, and otherwise in completion order on its ports (R147, R203, R238). -/
def Station.mayLeave (st : Station) (f : Frame) : Bool :=
  (f.st == .leaving || f.returns && f.st == .acking && decide (st.placesUsed < placeLimit st.sid)) && !(st.heldByOrder f)
    && !(st.frames.any fun g => g.id != f.id && g.completed && decide (g.doneAt < f.doneAt) && !(st.heldByOrder g)
          && (exitPorts g.exit).any fun q => (exitPorts f.exit).contains q)

/-- The record as it leaves: words beyond its length zero, and its posted stores now of an earlier segment. -/
def Rec.leave (r : Rec) (past : List Past) : Rec :=
  { r.trim with past := past.map fun q => { q with same := false } }

/-- A completed record leaves (R147): slots of ports not used return, loops count it, links take it. -/
def State.depart (s : State) (p : Place) (x : Nat) : State :=
  match s.station? p with
  | none => s
  | some st =>
    match st.frame? x with
    | none => s
    | some f =>
      if !(st.mayLeave f) then s
      else
        let r := f.r.leave (s.livePast f.r.past)
        let used := exitPorts f.exit
        let unused := (st.emitsOf f.seg).filter fun q => !(used.contains q)
        let s1 := (s.modStation p fun y => y.takeFrame x).tidyWindow p x
        s1.modLay p.ctx p.slot fun y =>
          let ks := used.filterMap fun q => y.linkFrom? ⟨p.pid, p.sid, q.val⟩
          let ls := ks.filterMap fun k => y.links[k]?
          let y1 := (y.returnSlots p.pid p.sid unused).loopLeave p.pid p.sid f.inLoop ls
          (ks.foldl (fun z k => z.sendOn k (.data r)) y1).stir

/-- RECORD_DEPARTURE (R147). -/
def execRecordDeparture (p : Place) (x : Nat) (s : State) : Res := .next (s.depart p x)

/-! ### The exception network (R411, R413) -/

/-- The faulted execution that entered its fault first. -/
def firstFaulted (fs : List Frame) : Option Frame :=
  (fs.filter Frame.isFaulted).foldl (fun b f =>
    match b with
    | none => some f
    | some g => if f.doneAt < g.doneAt then some f else some g) none

/-- A parked execution faults with a kind in a free execution place; without one it waits for it (R203, R411). -/
def State.doomExec (s : State) (p : Place) (st : Station) (f : Frame) (kind : Nat) : State :=
  if st.placesUsed < placeLimit st.sid then
    ((s.modStation p fun y => y.takeFrame f.id).faultExec p { f with lfsr := st.lfsr } kind 0 true).settle
  else s.modStation p fun y => { y.takeFrame f.id with frames := insertFrame { f with st := .doomed kind } (y.takeFrame f.id).frames }

/-- A parked execution that is to fault, with its kind. -/
def Station.doomed? (st : Station) : Option (Frame × Nat) :=
  st.frames.findSome? fun f => match f.st with | .doomed k => some (f, k) | _ => none

/-- EXCEPTION_REGISTER_ENTRY (R411): a record that waits faulted in its place enters; before it, one that has yet to fault
does so in a place that is free. -/
def execExceptionRegisterEntry (p : Place) (s : State) : Res :=
  match s.station? p with
  | none => .next s
  | some st =>
    match if st.placesUsed < placeLimit st.sid then st.doomed? else none with
    | some (f, k) => .next (s.doomExec p st f k)
    | none =>
    if st.exc.isSome then .next s
    else
      match firstFaulted st.frames with
      | none => .next s
      | some f =>
        let fw := match f.st with | .faulted w => w | _ => 0
        let s1 := (s.modStation p fun y => y.takeFrame f.id).tidyWindow p f.id
        .next (s1.enterExc p f.orig fw (f.port.val == 5) f.why)

/-- EXCEPTION_NETWORK_DELIVERY (R411): the record goes to the handler's buffer while it has room. -/
def execExceptionNetworkDelivery (p : Place) (s : State) : Res :=
  match s.lay? p.ctx p.slot, s.station? p with
  | some x, some st =>
    match st.exc with
    | some e =>
      if e.held.isNone && !e.refire && x.handler.isSome && x.excBuf.length < 8 then
        let s1 := s.modStation p fun y => { y with exc := none }
        .next (s1.modLay p.ctx p.slot fun y => { y with excBuf := y.excBuf ++ [e] }.stir)
      else .next s
    | none => .next s
  | _, _ => .next s

/-- HANDLER_RUN (R413): segment 3 runs on the oldest diverted record, alone at its station. -/
def execHandlerRun (c : CtxId) (l : LaySlot) (s : State) : Res :=
  match s.lay? c l with
  | none => .next s
  | some x =>
    match x.handler, x.excBuf with
    | some (pid, sid), e :: rest =>
      match x.station? pid sid with
      | none => .next s
      | some st =>
        match st.segs[3] with
        | none => .next s
        | some g =>
          let idle := !(st.frames.any Frame.unfinished)
          if st.mayFire && idle && (x.holdReasons st g).isEmpty then
            let s1 := s.modLay c l fun y => { y with excBuf := rest }
            .next (s1.startExec ⟨c, l, pid, sid⟩ 5 e.r e.r.trim 3 g (some (e.loc, e.fw)))
          else .next s
    | _, _ => .next s

end Sys2Proof.Machine
end

