-- ==== Sys2Proof/Machine/Access.lean ====
section
/-!
DEFINITION. Far accesses that a thread or the device makes at once (05 R160, 14 R398 to R403, 18 R480): translated page
by page before any byte moves, so that a trap changes no state.
-/
namespace Sys2Proof.Machine

/-- What a failed access reports: TCAUSE without its direction bit, and TVAL (R416). -/
structure Trouble where
  cause : Nat
  val : Nat
  deriving DecidableEq, Repr

/-- The structure that translates data accesses of a context's threads (log entry 12). -/
def State.dataUnit (s : State) (c : CtxId) : TlbUnit := .shared (s.ctx c).home 0

/-- The address i bytes on, of 64 bits. -/
def addrPlus (a i : Nat) : Nat := (a + i) % 2 ^ 64

/-- A range of virtual addresses cut at its 64 KiB regions. -/
def regionPieces (va n : Nat) : List (Nat × Nat) := cutAt 65536 (n / 65536 + 2) va n

/-- Translates every piece of a range: physical pieces, or the first failure with its address. -/
def State.transPieces (s : State) (u : TlbUnit) (c : CtxId) (need : Need) :
    List (Nat × Nat) → Except (Nat × Nat) (List (Nat × Leaf × Nat)) × State
  | [] => (.ok [], s)
  | (va, n) :: rest =>
    match s.translate u c va need with
    | (.error e, s1) => (.error (e, va), s1)
    | (.ok lf, s1) =>
      match s1.transPieces u c need rest with
      | (.error e, s2) => (.error e, s2)
      | (.ok ps, s2) => (.ok ((lf.pa + va % 65536, lf, n) :: ps), s2)

/-- Whether the ends of a range are canonical. -/
def rangeCanonical (va n : Nat) : Bool := canonical va && canonical (addrPlus va (n - 1))

/-- A far range of a thread as physical HBM pieces, or a trap cause (R160, R469). -/
def State.farRange (s : State) (c : CtxId) (va n align : Nat) (need : Need) : Except Trouble (List (Nat × Nat)) × State :=
  if !(rangeCanonical va n) then (.error ⟨3, va⟩, s)
  else if va % align ≠ 0 then (.error ⟨4, va⟩, s)
  else
    match s.transPieces (s.dataUnit c) c need (regionPieces va n) with
    | (.error (e, v), s1) => (.error ⟨4 + e, v⟩, s1)
    | (.ok ps, s1) =>
      match ps.find? fun p => decide (p.2.1.mt ≠ 0) with
      | some _ => (.error ⟨6, va⟩, s1)
      | none => (.ok (ps.map fun p => (p.1, p.2.2)), s1)

/-- The bytes of physical pieces, and whether one is poisoned. -/
def State.readPieces (s : State) : List (Nat × Nat) → List Byte × Bool
  | [] => ([], false)
  | (a, n) :: ps =>
    let (bs, p) := s.hbmRead a n
    let (cs, q) := s.readPieces ps
    (bs ++ cs, p || q)

/-- Bytes written to physical pieces in ascending order. -/
def State.writePieces (s : State) : List (Nat × Nat) → List Byte → State
  | [], _ => s
  | (a, n) :: ps, bs => (s.hbmWrite a (bs.take n)).writePieces ps (bs.drop n)

/-- The device reads n bytes of far memory of a context, as at a resume (R428); it finds the errors that have struck them
(R478). -/
def State.farRead (s : State) (c : CtxId) (va n align : Nat) : Except Trouble (List Byte) × State :=
  match s.farRange c va n align ⟨true, false, false⟩ with
  | (.error e, s1) => (.error e, s1)
  | (.ok ps, s1) =>
    let s2 := ps.foldl (fun z p => z.hbmScan p.1 p.2) s1
    let (bs, p) := s2.readPieces ps
    (if p then .error ⟨9, va⟩ else .ok bs, s2)

/-- Marks of held lines that a write makes dirty (R243). -/
def State.dirtyLines (s : State) (a n : Nat) : State :=
  { s with dir := s.dir.map fun d => if (granules 64 a n).contains d.line then { d with dirty := true } else d }

/-! ### A thread's accesses, unit by unit (R312, R328, R330) -/

/-- The unit accesses of a physical range (R328). -/
def hbmUnits (a n : Nat) : List (Nat × Nat) := pieces 32 a n

/-- Whether an access must wait for a row under repair that its walk reads (R486). -/
def State.walkWaits (s : State) (u : TlbUnit) (c : CtxId) (va n : Nat) : Bool :=
  (regionPieces va n).any fun p => (s.tlbFind u c (regionOf p.1)).isNone && s.walkBusy c p.1

/-- Whether a read of the device's own waits for a row under repair, of its walk or of its bytes (R486). -/
def State.readWaits (s : State) (c : CtxId) (va n : Nat) : Bool :=
  !s.upkeep.repairing.isEmpty && (s.walkWaits (s.dataUnit c) c va n
    || match (s.farRange c va n 1 ⟨true, false, false⟩).1 with
      | .ok ps => ps.any fun p => s.rowsBusy p.1 p.2
      | .error _ => false)

/-! ### Writes of the device's own, unit by unit (R312, R328, R330, R486) -/

/-- What a write of the device's own has come to. -/
inductive Wrote where
  /-- Units are left, or its walk or its unit waits for a row under repair. -/
  | more
  | done
  /-- Its address was refused; nothing was written. -/
  | failed
  deriving DecidableEq, Repr

/-- A write of the device's own under way. -/
def State.job? (s : State) (ev : Instr) (part : Nat) : Option DevJob := s.jobs.find? fun j => j.ev == ev && j.part == part

/-- One unit is written, and marked where the save engine found its source poisoned (R479). -/
def State.jobUnit (s : State) (u : Nat × List Byte × Bool) : State :=
  let z := (s.dirtyLines u.1 u.2.1.length).hbmWrite u.1 u.2.1
  if u.2.2 then z.hbmMark u.1 u.2.1.length else z

/-- The units of bytes at physical ranges. -/
def jobUnits : List (Nat × Nat) → List Byte → List (Nat × List Byte × Bool)
  | [], _ => []
  | (a, n) :: ps, bs => ((hbmUnits a n).map fun u => (u.1, (bs.drop (u.1 - a)).take u.2, false)) ++ jobUnits ps (bs.drop n)

/-- The units of a write that the next event performs (R331). -/
def State.jobNext (s : State) (j : DevJob) : List (Nat × Nat) := s.stackEvent 64 (j.todo.map fun u => (u.1, u.2.1.length))

/-- Whether a write's next unit waits for a row under repair (R486). -/
def State.jobBusy (s : State) (j : DevJob) : Bool := (s.jobNext j).any fun u => s.rowsBusy u.1 u.2

/-- A write's next unit is performed, or those of one event; true where it was the last. -/
def State.jobStep (s : State) (j : DevJob) : Bool × State :=
  let others := s.jobs.filter fun k => !(k.ev == j.ev && k.part == j.part)
  if s.jobBusy j then (false, { s with jobs := others ++ [j] })
  else
    let n := (s.jobNext j).length
    let s1 := (j.todo.take n).foldl State.jobUnit { s with jobs := others }
    let rest := j.todo.drop n
    if rest.isEmpty then (true, s1) else (false, { s1 with jobs := others ++ [{ j with todo := rest }] })

/-- The device writes units of HBM: the write that the event has under way goes on, or a new one begins. -/
def State.devPut (s : State) (ev : Instr) (part : Nat) (us : List (Nat × List Byte × Bool)) : Bool × State :=
  s.jobStep ((s.job? ev part).getD ⟨ev, part, us⟩)

/-- The device writes bytes to far memory of a context (R290, R372, R444): translated as it begins, then unit by unit. -/
def State.devWrite (s : State) (ev : Instr) (part : Nat) (c : CtxId) (va : Nat) (bs : List Byte) : Wrote × State :=
  let step (s : State) (j : DevJob) : Wrote × State := let (d, s1) := s.jobStep j; (if d then .done else .more, s1)
  match s.job? ev part with
  | some j => step s j
  | none =>
    if s.walkWaits (s.dataUnit c) c va bs.length then (.more, s)
    else
      match s.farRange c va bs.length 1 ⟨false, true, false⟩ with
      | (.error _, s1) => (.failed, s1)
      | (.ok ps, s1) => step s1 ⟨ev, part, jobUnits ps bs⟩

/-! ### A thread's accesses -/

/-- Replaces an access of a thread's instruction, or adds it. -/
def Thread.putAcc (th : Thread) (x : ThreadAcc) : Thread :=
  { th with accs := x :: th.accs.filter fun y => !(y.va == x.va && y.len == x.len && y.wr == x.wr) }

/-- A far access of a thread's instruction as it stands (R160): the one it has issued, or a new one that is checked
now. An error of none says that its walk waits for a row under repair (R486). -/
def State.threadAcc (s : State) (c : CtxId) (t : Tid) (va n align : Nat) (wr : Bool) : Except (Option Trouble) ThreadAcc × State :=
  match (s.thread c t).accs.find? fun y => y.va == va && y.len == n && y.wr == wr with
  | some x => (.ok x, s)
  | none =>
    if s.walkWaits (s.dataUnit c) c va n then (.error none, s)
    else
      match s.farRange c va n align ⟨!wr, wr, false⟩ with
      | (.error e, s1) => (.error (some e), s1)
      | (.ok ps, s1) =>
        let x : ThreadAcc := ⟨va, n, wr, ps.flatMap fun p => hbmUnits p.1 p.2, [], false⟩
        (.ok x, s1.modThread c t fun th => th.putAcc x)

/-- A thread reads n bytes of far memory (R160, R330). The whole range is checked once, when the access issues; then a
unit is performed in each turn (under the bring-up mode those of one stack, R331), and with the last one the bytes are
at hand. An error of none says that the access has units left, or waits for a row under repair (R486). -/
def State.threadRead (s : State) (c : CtxId) (t : Tid) (va n align : Nat) : Except (Option Trouble) (List Byte) × State :=
  match s.threadAcc c t va n align false with
  | (.error e, s1) => (.error e, s1)
  | (.ok x, s1) =>
    let us := s1.stackEvent 64 x.todo
    if us.isEmpty then (finished x, s1)
    else if us.any fun u => s1.rowsBusy u.1 u.2 then (.error none, s1)
    else
      let s2 := us.foldl (fun z u => z.hbmScan u.1 u.2) s1
      let (bs, p) := s2.readPieces us
      let y := { x with todo := x.todo.drop us.length, got := x.got ++ bs, bad := x.bad || p }
      (if y.todo.isEmpty then finished y else .error none, s2.modThread c t fun th => th.putAcc y)
where
  /-- The bytes of an access all of whose units are performed, or the trap of a poisoned one. -/
  finished (x : ThreadAcc) : Except (Option Trouble) (List Byte) := if x.bad then .error (some ⟨9, va⟩) else .ok x.got

/-- A thread writes far memory (R160, R330), checked once and then unit by unit as it reads. -/
def State.threadWrite (s : State) (c : CtxId) (t : Tid) (va align : Nat) (bs : List Byte) : Except (Option Trouble) Unit × State :=
  match s.threadAcc c t va bs.length align true with
  | (.error e, s1) => (.error e, s1)
  | (.ok x, s1) =>
    let us := s1.stackEvent 64 x.todo
    if us.isEmpty then (.ok (), s1)
    else if us.any fun u => s1.rowsBusy u.1 u.2 then (.error none, s1)
    else
      let s2 := us.foldl (fun z u => z.dirtyLines u.1 u.2) s1
      let y := { x with todo := x.todo.drop us.length }
      (if y.todo.isEmpty then .ok () else .error none,
       (s2.writePieces us (bs.drop (bs.length - (x.todo.map Prod.snd).sum))).modThread c t fun th => th.putAcc y)

/-- An access of a thread's instruction has units left: the instruction stands; one that waits already goes on waiting. -/
def State.unitsLeft (s : State) (c : CtxId) (t : Tid) : State := if (s.thread c t).wait = .none then s.stand c t .units else s

/-- A thread's trap for a failed access; wr says whether it was a write (R416). -/
def State.troubleAt (s : State) (c : CtxId) (t : Tid) (e : Trouble) (wr : Bool) : State :=
  s.trapAt c t (e.cause + if wr then 0x200 else 0) e.val

/-- Reads far memory for a thread's instruction and goes on, or traps. -/
def State.withRead (s : State) (c : CtxId) (t : Tid) (va n align : Nat) (f : List Byte → State → State) : State :=
  match s.threadRead c t va n align with
  | (.error none, s1) => s1.unitsLeft c t
  | (.error (some e), s1) => s1.troubleAt c t e false
  | (.ok bs, s1) => f bs s1

/-- Writes far memory for a thread's instruction and goes on, or traps. -/
def State.withWrite (s : State) (c : CtxId) (t : Tid) (va align : Nat) (bs : List Byte) (f : State → State) : State :=
  match s.threadWrite c t va align bs with
  | (.error none, s1) => s1.unitsLeft c t
  | (.error (some e), s1) => s1.troubleAt c t e true
  | (.ok (), s1) => f s1

/-- Whether an access of a thread is not yet performed: its next access must follow it (R318 row 7). -/
def State.threadPending (s : State) (c : CtxId) (t : Tid) : Bool :=
  s.reqs.any fun q => q.place.ctx == c && q.owner == .thread t && q.stage != .done

/-- Runs a thread's access to far memory: its earlier portal accesses first (R318 row 7); until they are performed the
instruction stands, and one that waits already goes on waiting. -/
def threadFar (s : State) (c : CtxId) (t : Tid) (f : State) : State :=
  if s.threadPending c t then (if (s.thread c t).wait = .none then s.stand c t .accesses else s) else f

end Sys2Proof.Machine
end

