-- ==== Sys2Proof/Machine/Branch.lean ====
section
/-!
DEFINITION. The branches and hardware loops (09 R307 to R310). They run in threads only; elsewhere their words are
invalid (R93).
-/
namespace Sys2Proof.Machine

/-- branch_target of R78: pc + 8 × sext(off, 32). -/
def branchTarget (pc : DWord) (off : Word) : DWord := pc + 8 * off.signExtend 64

/-- Whether a branch's predicate lets it be taken (R307). -/
def jTaken (th : Thread) (o : JForm) : Bool := th.getP o.pi != o.pn

/-- Whether an address lies in a loop's body (R308). -/
def inBody (l : LoopEnt) (a : DWord) : Bool := l.s.toNat ≤ a.toNat && a.toNat ≤ l.e.toNat

/-- Whether the body of m lies inside the body of l. -/
def bodyInside (m l : LoopEnt) : Bool := l.s.toNat ≤ m.s.toNat && m.e.toNat ≤ l.e.toNat

/-- Whether two bodies overlap. -/
def bodiesMeet (m l : LoopEnt) : Bool := m.s.toNat ≤ l.e.toNat && l.s.toNat ≤ m.e.toNat

/-- A taken br, brc or jmp to a target makes every active loop inactive whose body it leaves, with those inside it
(R310). -/
def leaveLoops (th : Thread) (target : DWord) : Thread :=
  { th with loops := th.loops.map fun m =>
      { m with active := m.active && !(th.loops.any fun l => l.active && !inBody l target && bodyInside m l) } }

/-- Control passes to a target. -/
def Thread.goto (th : Thread) (target : DWord) : Thread := { th.ended with pc := target }

/-- The run of a branch in a thread; it does nothing elsewhere. -/
def atThread (s : State) (f : CtxId → Tid → State) : Res :=
  match s.cur with
  | .thread c t => .next (f c t)
  | _ => .next s

/-- Whether a slot's lay waits for its replacement to end (R230, R282). -/
def Lay.inSwap (x : Lay) : Bool := x.succ.isSome || x.zeroing

/-- The lay slot that an instruction acts on (R275); .none for an instruction that acts on none. -/
def slotActs : Instr → Option LaySlot
  | .layLoad o | .laySwap o | .layFree o | .layClone o | .passArm o | .passWait o | .passAbort o | .cleatSet o | .cleatWait o
  | .gmm o | .inject o | .sbar o => some (Fin.ofNat 8 o.ls.toNat)
  | .reelAff o | .reelGat o | .reelSca o | .reelFib o | .reelCmp o | .reelRq o | .reelStop o | .reelWait o | .fibOpen o | .fibSkip o
  | .fibIsect o | .fibUnion o | .fibSave o | .fibLoad o | .fibPos o => some (Fin.ofNat 8 o.ls.toNat)
  | _ => none

/-- The lay slot of the instruction that a thread has under way. -/
def Thread.slot? (th : Thread) : Option LaySlot :=
  match decodeWord th.word with
  | .ok i => slotActs i
  | .error _ => none

/-- Whether a thread's instruction has still to be performed at a slot, and comes before one issued at a later cycle
(R275): the earlier of two. One that waits for a replacement to end lets others by until it has (R282). -/
def Thread.goesFirst (th : Thread) (l : LaySlot) (at_ : Nat) (swap : Bool) : Bool :=
  (match th.wait with | .stand .swap => !swap | .stand _ => true | _ => false) && decide (th.issuedAt < at_) && th.slot? == some l

/-- Whether an instruction that acts on a lay slot stands (R275, R278): while a lay.load of the slot goes on, or while
one that issued before it has still to be performed there. -/
def State.slotHeld (s : State) (c : CtxId) (t : Tid) (l : LaySlot) : Bool :=
  let x := s.ctx c
  let (loading, swap) := match s.lay? c l with | some y => (y.loading, y.inSwap) | none => (false, false)
  loading || (List.finRange 8).any fun u => u != t && (x.thread u).goesFirst l (x.thread t).issuedAt swap

/-- The run of an instruction that acts on a lay slot: those of one slot are performed one at a time, in the order in
which they issue (R275). -/
def onSlot (ls : BitVec 3) (s : State) (f : CtxId → Tid → State) : Res :=
  atThread s fun c t => if s.slotHeld c t (Fin.ofNat 8 ls.toNat) then s.stand c t .slot else f c t

/-- A taken branch to an offset target. -/
def takeOffset (o : JForm) (s : State) (c : CtxId) (t : Tid) : State :=
  let g := branchTarget (s.thread c t).pc o.off
  s.modThread c t fun th => (leaveLoops th g).goto g

/-- A taken branch to a register target (R78, R307); leave says whether it may leave loops (R310). -/
def takeRegister (s : State) (c : CtxId) (t : Tid) (g : DWord) (leave : Bool) : State :=
  if g.toNat % 8 ≠ 0 then s.trapAt c t 2 g.toNat
  else s.modThread c t fun th => (if leave then leaveLoops th g else th).goto g

/-- br (R307). -/
def execBr (o : JForm) (s : State) : Res :=
  atThread s fun c t => if jTaken (s.thread c t) o then takeOffset o s c t else s.advance c t

/-- brc (R79, R307). -/
def execBrc (o : JForm) (s : State) : Res :=
  atThread s fun c t =>
    if jTaken (s.thread c t) o && brcHolds o.mod.toNat (s.readT c t o.a) then takeOffset o s c t else s.advance c t

/-- jmp (R307): the offset counts words. -/
def execJmp (o : JForm) (s : State) : Res :=
  atThread s fun c t =>
    if jTaken (s.thread c t) o then takeRegister s c t (branchTarget (s.readT c t o.a) o.off) true else s.advance c t

/-- call (R307): the link is written before control passes. -/
def execCall (o : JForm) (s : State) : Res :=
  atThread s fun c t =>
    if jTaken (s.thread c t) o then
      let pc := (s.thread c t).pc
      s.modThread c t fun th => (th.write o.a (pc + 8)).goto (branchTarget pc o.off)
    else s.advance c t

/-- ret (R307). -/
def execRet (o : JForm) (s : State) : Res :=
  atThread s fun c t =>
    if jTaken (s.thread c t) o then takeRegister s c t (s.readT c t o.a) false else s.advance c t

/-- loop (R308): lcN and its entry are set; a count of 0 passes over the body, and a body that overlaps another active
loop's without nesting is an illegal-instruction trap. -/
def execLoop (o : JForm) (s : State) : Res :=
  atThread s fun c t =>
    let th := s.thread c t
    let l : LoopEnt := ⟨true, th.pc + 8, branchTarget th.pc o.off⟩
    let clash := (List.range 4).any fun n =>
      match th.loops[n]? with
      | some m => n != o.lc.toNat && m.active && bodiesMeet m l && !bodyInside m l && !bodyInside l m
      | none => false
    if clash then s.trapAt c t 1 ((encode (.loop o)).getD 0).toNat
    else
      let n := (s.readT c t o.a).truncate 32
      s.modThread c t fun th =>
        let th1 := { th with lc := th.lc.setIfInBounds o.lc.toNat n,
                             loops := th.loops.setIfInBounds o.lc.toNat { l with active := n != 0 } }
        th1.goto (if n = 0 then l.e + 8 else l.s)

end Sys2Proof.Machine
end

