-- ==== Sys2Proof/Machine/Integer.lean ====
section
/-!
DEFINITION. The integer and address instructions (04 R115 to R124).
-/
namespace Sys2Proof.Machine

/-! ### Results of one lane of w bits -/

/-- add, sub and mul under their modifier (R115, R116): wrap, .ss or .us. -/
def satLane (f : Int → Int → Int) (m : BitVec 4) (w a b : Nat) : Nat :=
  match m.toNat with
  | 1 => satS w (f (sextN w a) (sextN w b))
  | 2 => satU w (f a b)
  | _ => narrow w (f a b)

/-- add (R115, R116). -/
def addLane (m : BitVec 4) (w a b : Nat) : Nat := satLane (· + ·) m w a b
/-- sub (R115, R116). -/
def subLane (m : BitVec 4) (w a b : Nat) : Nat := satLane (· - ·) m w a b
/-- mul (R115, R116). -/
def mulLane (m : BitVec 4) (w a b : Nat) : Nat := satLane (· * ·) m w a b

/-- mulh (R115): bits [2w-1:w] of the signed or unsigned product. -/
def mulhLane (m : BitVec 4) (w a b : Nat) : Nat :=
  if m = 1 then a * b / 2 ^ w else narrow w (sextN w a * sextN w b / (2 ^ w : Nat))

/-- mad (R115). -/
def madLane (w a b c : Nat) : Nat := (a * b + c) % 2 ^ w

/-- div (R116): truncated, all ones by 0. -/
def divLane (m : BitVec 4) (w a b : Nat) : Nat :=
  if b = 0 then 2 ^ w - 1
  else if m = 1 then a / b
  else narrow w ((sextN w a).tdiv (sextN w b))

/-- rem (R116): the remainder takes the sign of a, and is a by 0. -/
def remLane (m : BitVec 4) (w a b : Nat) : Nat :=
  if b = 0 then a
  else if m = 1 then a % b
  else narrow w ((sextN w a).tmod (sextN w b))

/-- addc (R117): the sum, or under .co its carry. -/
def addcLane (m : BitVec 4) (w a b c : Nat) : Nat :=
  let t := a + b + c % 2
  if m = 1 then (if 2 ^ w ≤ t then 1 else 0) else t % 2 ^ w

/-- shl (R115). -/
def shlLane (w a b : Nat) : Nat := if w ≤ b then 0 else (a <<< b) % 2 ^ w
/-- shr (R115). -/
def shrLane (w a b : Nat) : Nat := if w ≤ b then 0 else a >>> b
/-- sar (R115): all sign bits for a count of w or more. -/
def sarLane (w a b : Nat) : Nat := narrow w (sextN w a / (2 ^ (min b w) : Nat))
/-- rol (R115). -/
def rolLane (w a b : Nat) : Nat := ((a <<< (b % w)) + (a >>> (w - b % w))) % 2 ^ w
/-- ror (R115). -/
def rorLane (w a b : Nat) : Nat := rolLane w a (w - b % w)

/-- min (R115). -/
def minLane (m : BitVec 4) (w a b : Nat) : Nat :=
  if m = 1 then (if b < a then b else a) else (if sextN w b < sextN w a then b else a)
/-- max (R115). -/
def maxLane (m : BitVec 4) (w a b : Nat) : Nat :=
  if m = 1 then (if a < b then b else a) else (if sextN w a < sextN w b then b else a)

/-- abs (R115), wrapping. -/
def absLane (w a : Nat) : Nat := narrow w (sextN w a).natAbs
/-- neg (R115), wrapping. -/
def negLane (w a : Nat) : Nat := narrow w (-(a : Int))
/-- not (R115). -/
def notLane (w a : Nat) : Nat := 2 ^ w - 1 - a
/-- andn (R115). -/
def andnLane (w a b : Nat) : Nat := a &&& notLane w b
/-- lea (R115): m is the shift. -/
def leaLane (m : BitVec 4) (w a b : Nat) : Nat := (a + b * 2 ^ m.toNat) % 2 ^ w

/-- bfx (R120). -/
def bfxLane (m : BitVec 4) (w a b c : Nat) : Nat :=
  let len := min c w
  if len = 0 then 0
  else
    let field := if w ≤ b then 0 else (a >>> b) % 2 ^ len
    if m = 1 then narrow w (sextN len field) else field

/-- bfi (R121). -/
def bfiLane (w a b c d : Nat) : Nat :=
  if w ≤ b then d
  else
    let e := min (b + c) w
    d % 2 ^ b + (a % 2 ^ (e - b)) * 2 ^ b + (d >>> e) * 2 ^ e

/-- byteperm (R122): byte k of the result is the pool byte that nibble k selects; at w = 32 a nibble above 7 gives 0. -/
def bytepermLane (w a b c : Nat) : Nat :=
  let pool := a + b * 2 ^ w
  strOfElems 8 ((List.range (w / 8)).map fun k =>
    let x := elemAt 4 k c
    if w = 32 ∧ 8 ≤ x then 0 else elemAt 8 x pool)

/-- Data bytes that hash.crc takes (R123). -/
def crcCount (m : BitVec 4) (w : Nat) : Nat :=
  match m.toNat / 2 with
  | 0 => w / 8
  | 1 => 1
  | 2 => 2
  | _ => 4

/-- hash (R123): bit 0 of the modifier is .mix. -/
def hashLane (m : BitVec 4) (w a b : Nat) : Nat :=
  if m.getLsbD 0 then hashMix (a % 2 ^ 32) (b % 2 ^ 32)
  else crcBytes (a % 2 ^ 32) (bytesOfNat (crcCount m w) b)

/-- cvti (R124): .u in bit 0 and .sat in bit 1; sb source bits. -/
def cvtiLane (m : BitVec 4) (sb w x : Nat) : Nat :=
  let v : Int := if m.getLsbD 0 then (x : Int) else sextN sb x
  if m.getLsbD 1 then (if m.getLsbD 0 then satU w v else satS w v) else narrow w v

/-! ### Meanings -/

/-- Options of a two-source instruction. -/
def two : LaneOpt := { useB := true }
/-- Options of a three-source instruction. -/
def three : LaneOpt := { useB := true, useC := true }
/-- Options of a one-source instruction. -/
def one : LaneOpt := {}

/-- add (R115, R116). -/
def execAdd (o : LForm) (s : State) : Res := runLane o two (fun x => x.map2 (addLane o.mod x.w)) s
/-- sub (R115, R116). -/
def execSub (o : LForm) (s : State) : Res := runLane o two (fun x => x.map2 (subLane o.mod x.w)) s
/-- mul (R115, R116). -/
def execMul (o : LForm) (s : State) : Res := runLane o two (fun x => x.map2 (mulLane o.mod x.w)) s
/-- mulh (R115). -/
def execMulh (o : LForm) (s : State) : Res := runLane o two (fun x => x.map2 (mulhLane o.mod x.w)) s
/-- mad (R115). -/
def execMad (o : LForm) (s : State) : Res := runLane o three (fun x => x.map3 (madLane x.w)) s
/-- div (R116). -/
def execDiv (o : LForm) (s : State) : Res := runLane o two (fun x => x.map2 (divLane o.mod x.w)) s
/-- rem (R116). -/
def execRem (o : LForm) (s : State) : Res := runLane o two (fun x => x.map2 (remLane o.mod x.w)) s
/-- addc (R117). -/
def execAddc (o : LForm) (s : State) : Res := runLane o three (fun x => x.map3 (addcLane o.mod x.w)) s
/-- and (R115). -/
def execAnd (o : LForm) (s : State) : Res := runLane o two (fun x => x.map2 (· &&& ·)) s
/-- or (R115). -/
def execOr (o : LForm) (s : State) : Res := runLane o two (fun x => x.map2 (· ||| ·)) s
/-- xor (R115). -/
def execXor (o : LForm) (s : State) : Res := runLane o two (fun x => x.map2 (· ^^^ ·)) s
/-- andn (R115). -/
def execAndn (o : LForm) (s : State) : Res := runLane o two (fun x => x.map2 (andnLane x.w)) s
/-- not (R115). -/
def execNot (o : LForm) (s : State) : Res := runLane o one (fun x => x.map1 (notLane x.w)) s
/-- shl (R115). -/
def execShl (o : LForm) (s : State) : Res := runLane o two (fun x => x.map2 (shlLane x.w)) s
/-- shr (R115). -/
def execShr (o : LForm) (s : State) : Res := runLane o two (fun x => x.map2 (shrLane x.w)) s
/-- sar (R115). -/
def execSar (o : LForm) (s : State) : Res := runLane o two (fun x => x.map2 (sarLane x.w)) s
/-- rol (R115). -/
def execRol (o : LForm) (s : State) : Res := runLane o two (fun x => x.map2 (rolLane x.w)) s
/-- ror (R115). -/
def execRor (o : LForm) (s : State) : Res := runLane o two (fun x => x.map2 (rorLane x.w)) s
/-- clz (R115). -/
def execClz (o : LForm) (s : State) : Res := runLane o one (fun x => x.map1 (clzN x.w)) s
/-- ctz (R115). -/
def execCtz (o : LForm) (s : State) : Res := runLane o one (fun x => x.map1 (ctzN x.w)) s
/-- popc (R115). -/
def execPopc (o : LForm) (s : State) : Res := runLane o one (fun x => x.map1 (popcN x.w)) s
/-- brev (R115). -/
def execBrev (o : LForm) (s : State) : Res := runLane o one (fun x => x.map1 (brevN x.w)) s
/-- min (R115). -/
def execMin (o : LForm) (s : State) : Res := runLane o two (fun x => x.map2 (minLane o.mod x.w)) s
/-- max (R115). -/
def execMax (o : LForm) (s : State) : Res := runLane o two (fun x => x.map2 (maxLane o.mod x.w)) s
/-- abs (R115). -/
def execAbs (o : LForm) (s : State) : Res := runLane o one (fun x => x.map1 (absLane x.w)) s
/-- neg (R115). -/
def execNeg (o : LForm) (s : State) : Res := runLane o one (fun x => x.map1 (negLane x.w)) s
/-- sel (R115). -/
def execSel (o : LForm) (s : State) : Res :=
  runLane o three (fun x => x.map3 fun a b c => if c ≠ 0 then a else b) s
/-- cmp (R118): the lane mask, and with qw the predicate that any lane holds. -/
def execCmp (o : LForm) (s : State) : Res :=
  runLane o { useB := true, cmp := true } (fun x =>
    { x.map2 (fun a b => maskLane x.w (cmpLane o.mod x.w a b)) with
      any := (List.zipWith (cmpLane o.mod x.w) x.a x.b).any id }) s
/-- lea (R115). -/
def execLea (o : LForm) (s : State) : Res := runLane o two (fun x => x.map2 (leaLane o.mod x.w)) s
/-- mov (R115). -/
def execMov (o : LForm) (s : State) : Res := runLane o one (fun x => x.map1 id) s
/-- bfx (R120). -/
def execBfx (o : LForm) (s : State) : Res := runLane o three (fun x => x.map3 (bfxLane o.mod x.w)) s
/-- bfi (R121): the old lane of d is a source. -/
def execBfi (o : LForm) (s : State) : Res :=
  runLane o { useB := true, useC := true, useD := true } (fun x =>
    x.out (List.zipWith (fun f d => f d) (List.zipWith (fun f c => f c) (List.zipWith (bfiLane x.w) x.a x.b) x.c) x.d)) s
/-- byteperm (R122). -/
def execByteperm (o : LForm) (s : State) : Res := runLane o three (fun x => x.map3 (bytepermLane x.w)) s
/-- hash (R123). -/
def execHash (o : LForm) (s : State) : Res := runLane o two (fun x => x.map2 (hashLane o.mod x.w)) s
/-- The source of a width change from the type in c[29:26] (R113): element bits and words. -/
def cvtSrc (o : LForm) (db : Nat) : Nat × Nat :=
  let sb := tyBits (BitVec.ofNat 4 (o.c.toNat % 16))
  (sb, cvtWords (gWords o.g) sb db)
/-- cvti (R124). -/
def execCvti (o : LForm) (s : State) : Res :=
  let sb := (cvtSrc o (wBits o.w)).1
  runLane o { cvt := some (cvtSrc o (wBits o.w)) } (fun x => x.map1 (cvtiLane o.mod sb x.w)) s

/-- add with an immediate (R119). -/
def execAddImm (o : IForm) (s : State) : Res := runImm o true (fun w a i => addLane o.mod w a i) s
/-- and with an immediate (R119). -/
def execAndImm (o : IForm) (s : State) : Res := runImm o true (fun _ a i => a &&& i) s
/-- or with an immediate (R119). -/
def execOrImm (o : IForm) (s : State) : Res := runImm o true (fun _ a i => a ||| i) s
/-- xor with an immediate (R119). -/
def execXorImm (o : IForm) (s : State) : Res := runImm o true (fun _ a i => a ^^^ i) s
/-- shl by an immediate (R119). -/
def execShlImm (o : IForm) (s : State) : Res := runImm o true shlLane s
/-- shr by an immediate (R119). -/
def execShrImm (o : IForm) (s : State) : Res := runImm o true shrLane s
/-- sar by an immediate (R119). -/
def execSarImm (o : IForm) (s : State) : Res := runImm o true sarLane s
/-- cmp with an immediate (R119): the lane mask alone. -/
def execCmpImm (o : IForm) (s : State) : Res := runImm o true (fun w a i => maskLane w (cmpLane o.mod w a i)) s
/-- movi (R119). -/
def execMovi (o : IForm) (s : State) : Res := runImm o false (fun _ _ i => i) s

end Sys2Proof.Machine
end

