-- ==== Sys2Proof/Machine/Lane.lean ====
section
/-!
DEFINITION. The lane movement instructions (05 R140 to R144). They run at compute stations; in a thread their words
are invalid (R93).
-/
namespace Sys2Proof.Machine

/-- Lane i of a list; 0 past the end. -/
def laneAt (ls : List Nat) (i : Nat) : Nat := ls.getD i 0

/-- Lanes of d by their number. -/
def LaneIn.byIndex (x : LaneIn) (f : Nat → Nat) : LaneOut := x.out ((List.range x.n).map f)

/-- Two sources, the second of which is b. -/
def optAB : LaneOpt := { useB := true }

/-- The lane numbers of the nonzero lanes of a list, rising. -/
def nonzeroLanes (ls : List Nat) : List Nat := (List.range ls.length).filter fun i => laneAt ls i != 0

/-- perm (R141). -/
def permLane (two : Bool) (x : LaneIn) (i : Nat) : Nat :=
  let ub := laneAt x.b i
  if ub < x.n then laneAt x.a ub else if two && ub < 2 * x.n then laneAt x.c (ub - x.n) else 0

/-- rot (R141). -/
def rotLane (sh : Bool) (x : LaneIn) (i : Nat) : Nat :=
  let j := i + laneAt x.b 0
  if sh then (if j < x.n then laneAt x.a j else 0) else laneAt x.a (j % x.n)

/-- zip (R141). -/
def zipLane (hi : Bool) (x : LaneIn) (i : Nat) : Nat :=
  let j := (if hi then x.n / 2 else 0) + i / 2
  if i % 2 = 0 then laneAt x.a j else laneAt x.b j

/-- unzip (R141). -/
def unzipLane (odd : Bool) (x : LaneIn) (i : Nat) : Nat :=
  let e := if odd then 1 else 0
  if i < x.n / 2 then laneAt x.a (2 * i + e) else laneAt x.b (2 * (i - x.n / 2) + e)

/-- cmpr (R141). -/
def cmprLane (x : LaneIn) (i : Nat) : Nat :=
  match (nonzeroLanes x.b)[i]? with
  | some k => laneAt x.a k
  | none => 0

/-- expd (R141). -/
def expdLane (m : Bool) (x : LaneIn) (i : Nat) : Nat :=
  if laneAt x.b i ≠ 0 then laneAt x.a ((nonzeroLanes x.b).filter fun j => decide (j < i)).length
  else if m then laneAt x.d i else 0

/-- narrow of R142 from w bits to half of it. -/
def packLane (m : BitVec 4) (w a : Nat) : Nat :=
  if m = 1 then satS (w / 2) (sextN w a) else if m = 2 then satU (w / 2) (sextN w a) else a % 2 ^ (w / 2)

/-- unpack (R142): a lane of half of w bits, extended. -/
def unpackLane (signed : Bool) (w a : Nat) : Nat := if signed then narrow w (sextN (w / 2) a) else a

/-- perm (R141). -/
def execPerm (o : LForm) (s : State) : Res :=
  runLane o { useB := true, useC := o.mod == 1 } (fun x => x.byIndex (permLane (o.mod == 1) x)) s
/-- shuf (R141). -/
def execShuf (o : LForm) (s : State) : Res :=
  runLane o optAB (fun x => x.byIndex fun i => laneAt x.a (i ^^^ (laneAt x.b i % x.n))) s
/-- bcast (R141). -/
def execBcast (o : LForm) (s : State) : Res :=
  runLane o optAB (fun x => x.byIndex fun _ => laneAt x.a (laneAt x.b 0 % x.n)) s
/-- rot (R141). -/
def execRot (o : LForm) (s : State) : Res := runLane o optAB (fun x => x.byIndex (rotLane (o.mod == 1) x)) s
/-- zip (R141). -/
def execZip (o : LForm) (s : State) : Res := runLane o optAB (fun x => x.byIndex (zipLane (o.mod == 1) x)) s
/-- unzip (R141). -/
def execUnzip (o : LForm) (s : State) : Res := runLane o optAB (fun x => x.byIndex (unzipLane (o.mod == 1) x)) s
/-- cmpr (R141). -/
def execCmpr (o : LForm) (s : State) : Res := runLane o optAB (fun x => x.byIndex (cmprLane x)) s
/-- expd (R141). -/
def execExpd (o : LForm) (s : State) : Res :=
  runLane o { useB := true, useD := o.mod == 1 } (fun x => x.byIndex (expdLane (o.mod == 1) x)) s

/-! ### Instructions of other shapes, in a station -/

/-- Runs an instruction of a station under its predicate; in another actor it does nothing. -/
def atStation (s : State) (ok : Frame → Bool) (f : Place → Frame → State) : Res :=
  match s.cur with
  | .station p fr => .next (if ok fr then f p fr else s.nextIp p (s.run p fr))
  | _ => .next s

/-- The predicate of a format L word. -/
def lPred (o : LForm) (fr : Frame) : Bool := fr.predOk o.pe o.pi o.pn

/-- pack (R142). -/
def packAt (o : LForm) (s : State) (p : Place) (fr : Frame) : State :=
  let g := gWords o.g
  let w := wBits o.w
  let n := 32 * g / w
  let (ls, r) := (s.run p fr).readAll [(⟨o.a, w, n, g, false⟩, none), (⟨o.b, w, n, g, false⟩, none)]
  s.nextIp p { r with f := r.f.putLanes o.d (w / 2) g ((ls.getD 0 [] ++ ls.getD 1 []).map (packLane o.mod w)) }

/-- unpack (R142). -/
def unpackAt (o : LForm) (s : State) (p : Place) (fr : Frame) : State :=
  let g := gWords o.g
  let w := wBits o.w
  let n := 32 * g / w
  let (ls, r) := (s.run p fr).readAll [(⟨o.a, w / 2, 2 * n, g, false⟩, none)]
  let h := if o.mod.getLsbD 1 then n else 0
  let out := (((ls.headD []).drop h).take n).map (unpackLane (o.mod.getLsbD 0) w)
  s.nextIp p { r with f := r.f.putLanes o.d w g out }

/-- lmask (R143). -/
def lmaskAt (o : LForm) (s : State) (p : Place) (fr : Frame) : State :=
  let g := gWords o.g
  let w := wBits o.w
  let (ls, r) := (s.run p fr).readAll [(⟨o.a, w, 32 * g / w, g, false⟩, none)]
  let m := strOfElems 1 ((ls.headD []).map fun a => if a = 0 then 0 else 1)
  s.nextIp p { r with f := r.f.putWords o.d (wordsOfStr 2 m) }

/-- The 64-bit mask of lsel (R143): a pair, zero or ones. -/
def Run.mask64 (r : Run) (sp : Spec) : Nat × Run :=
  if sp = 0x28 then (0, r) else if sp = 0x2f then (2 ^ 64 - 1, r)
  else
    let (v, r') := r.pair sp
    (v.toNat, r')

/-- Lanes chosen by the bits of a mask. -/
def chooseLanes (m i : Nat) : List Nat → List Nat → List Nat
  | a :: as, b :: bs => (if m.testBit i then a else b) :: chooseLanes m (i + 1) as bs
  | _, _ => []

/-- lsel (R143). -/
def lselAt (o : LForm) (s : State) (p : Place) (fr : Frame) : State :=
  let g := gWords o.g
  let w := wBits o.w
  let n := 32 * g / w
  let (ls, r) := (s.run p fr).readAll [(⟨o.a, w, n, g, false⟩, none), (⟨o.b, w, n, g, false⟩, none)]
  let (m, r1) := r.mask64 o.c
  s.nextIp p { r1 with f := r1.f.putLanes o.d w g (chooseLanes m 0 (ls.getD 0 []) (ls.getD 1 [])) }

/-- movw and movw.ins (R144): a of movw.ins is one word, and one draw where it is rnd (log entry 74). -/
def movwAt (o : LForm) (s : State) (p : Place) (fr : Frame) : State :=
  let g := gWords o.g
  let n := if o.mod = 1 then 1 else g
  let old : List (Src × Option Fmt) := if o.mod = 1 then [(⟨o.d, 32, g, g, true⟩, none)] else []
  let (ls, r) := (s.run p fr).readAll ([(⟨o.a, 32, n, n, false⟩, none), (⟨o.b, 32, g, g, false⟩, none)] ++ old)
  let a := ls.getD 0 []
  let z := laneAt (ls.getD 1 []) 0 % g
  if o.mod = 1 then s.nextIp p { r with f := r.f.putLanes o.d 32 g ((ls.getD 2 []).set z (laneAt a 0)) }
  else s.nextIp p { r with f := r.f.putWords o.d [BitVec.ofNat 32 (laneAt a z)] }

/-- swap (R144). -/
def swapAt (o : LForm) (s : State) (p : Place) (fr : Frame) : State :=
  let g := gWords o.g
  let (ls, r) := (s.run p fr).readAll [(⟨o.d, 32, g, g, true⟩, none), (⟨o.a, 32, g, g, true⟩, none)]
  let f1 := r.f.putLanes o.d 32 g (ls.getD 1 [])
  s.nextIp p { r with f := f1.putLanes o.a 32 g (ls.getD 0 []) }

/-- pack (R142). -/
def execPack (o : LForm) (s : State) : Res := atStation s (lPred o) (packAt o s)
/-- unpack (R142). -/
def execUnpack (o : LForm) (s : State) : Res := atStation s (lPred o) (unpackAt o s)
/-- lmask (R143). -/
def execLmask (o : LForm) (s : State) : Res := atStation s (lPred o) (lmaskAt o s)
/-- lsel (R143). -/
def execLsel (o : LForm) (s : State) : Res := atStation s (lPred o) (lselAt o s)
/-- movw (R144). -/
def execMovw (o : LForm) (s : State) : Res := atStation s (lPred o) (movwAt o s)
/-- swap (R144). -/
def execSwap (o : LForm) (s : State) : Res := atStation s (lPred o) (swapAt o s)

end Sys2Proof.Machine
end

