-- ==== Sys2Proof/Machine/Record.lean ====
section
/-!
DEFINITION. Record control (05 R145 to R150): terminators, header writers, raise and nop, and the record of an inject.
-/
namespace Sys2Proof.Machine

/-- The predicate of a format K word (R68). -/
def kPred (o : KForm) (fr : Frame) : Bool := fr.predOk o.pe o.pi o.pn

/-- The value operand of a format K word (R74, R145): the immediate, or the 32-bit value of a. -/
def Run.kValue (r : Run) (o : KForm) : Word × Run := if o.ia then (o.imm, r) else r.word o.a

/-- An output port by its field. -/
def portOf (p : BitVec 3) : Fin 4 := Fin.ofNat 4 p.toNat

/-- A terminator whose operands have been read: completion with an exit (R147). -/
def finishExec (s : State) (p : Place) (r : Run) (e : Exit) : State :=
  { s with free := r.free }.completeExec p r.f e

/-- Runs a terminator; it has no predicate (R145). -/
def runTerm (s : State) (f : Place → Frame → State) : Res := atStation s (fun _ => true) f

/-- emit (R146). -/
def execEmit (o : KForm) (s : State) : Res := runTerm s fun p fr => s.completeExec p fr (.port (portOf o.pt))
/-- fork (R146): the copy leaves on oF. -/
def execFork (o : KForm) (s : State) : Res :=
  runTerm s fun p fr => s.completeExec p fr (.fork (portOf o.pt) (portOf o.pf))
/-- drop (R146). The word has no operand. -/
def execDrop (_ : KForm) (s : State) : Res := runTerm s fun p fr => s.completeExec p fr .drop
/-- steer (R146): a predicate, or a nonzero word. -/
def execSteer (o : KForm) (s : State) : Res :=
  runTerm s fun p fr =>
    if o.ia then
      let cond := fr.getQ (BitVec.ofNat 3 (o.imm.toNat % 4)) != o.imm.getLsbD 2
      s.completeExec p fr (.port (portOf (if cond then o.pt else o.pf)))
    else
      let (v, r) := (s.run p fr).word o.a
      finishExec s p r (.port (portOf (if v ≠ 0 then o.pt else o.pf)))
/-- bight (R146): as emit, onto a re-entry link. -/
def execBight (o : KForm) (s : State) : Res := runTerm s fun p fr => s.completeExec p fr (.port (portOf o.pt))

/-- A header writer (R148): the field is written when the instruction executes. -/
def runHeader (o : KForm) (s : State) (f : Hdr → Word → Hdr) : Res :=
  atStation s (kPred o) fun p fr =>
    let (v, r) := (s.run p fr).kValue o
    s.nextIp p { r with f := { r.f with r := { r.f.r with hdr := f r.f.r.hdr v } } }

/-- tag (R148). -/
def execTag (o : KForm) (s : State) : Res := runHeader o s fun h v => { h with seq := v.truncate 24 }
/-- setcls (R148). -/
def execSetcls (o : KForm) (s : State) : Res := runHeader o s fun h v => { h with cls := v.truncate 3 }
/-- setlen (R148). -/
def execSetlen (o : KForm) (s : State) : Res := runHeader o s fun h v => { h with len := v.truncate 5 }
/-- setfmt (R148): a poison record keeps its tag (R28). -/
def execSetfmt (o : KForm) (s : State) : Res :=
  runHeader o s fun h v => if h.fmt = 15 then h else { h with fmt := v.truncate 4 }
/-- setck (R148). -/
def execSetck (o : KForm) (s : State) : Res := runHeader o s fun h v => { h with ck := v.truncate 8 }
/-- setscale (R148). -/
def execSetscale (o : KForm) (s : State) : Res := runHeader o s fun h v => { h with scale := v.truncate 8 }

/-- raise (R149): a software raise with a 16-bit detail. -/
def execRaise (o : KForm) (s : State) : Res :=
  atStation s (kPred o) fun p fr =>
    let (v, r) := (s.run p fr).kValue o
    { s with free := r.free }.faultExec p r.f 0x0c (v.toNat % 2 ^ 16) true

/-- nop (R150), in a station or a thread. The word has no operand. -/
def execNop (_ : KForm) (s : State) : Res := .next (goOn s)

/-! ### The record of an inject (R151) -/

/-- A header from 64 bits, its context and lay slot set (R41, R44). -/
def hdrOfBits (v : Nat) (c : CtxId) (l : LaySlot) : Hdr :=
  { lay := l, ctx := c, cls := BitVec.ofNat 3 (v / 2 ^ 49), len := BitVec.ofNat 5 (v / 2 ^ 44),
    fmt := BitVec.ofNat 4 (v / 2 ^ 40), ck := BitVec.ofNat 8 (v / 2 ^ 32), scale := BitVec.ofNat 8 (v / 2 ^ 24),
    seq := BitVec.ofNat 24 v }

/-- A payload from its bytes, words past them zero. -/
def payOfBytes (bs : List Byte) : Vec16 := vofStr (natOfBytes bs)

end Sys2Proof.Machine
end

