-- ==== Sys2Proof/Machine/MatrixOps.lean ====
section
/-!
DEFINITION. The matrix station and its unlay stage (06 R173 to R194, 01 R38 to R40).
-/
namespace Sys2Proof.Machine

/-! ### Sums -/

/-- Splits a list into groups of 32; n bounds the groups. -/
def groups32 {α : Type} : Nat → List α → List (List α)
  | 0, _ => []
  | n + 1, xs => if xs.isEmpty then [] else xs.take 32 :: groups32 n (xs.drop 32)

/-- The group sums of products of two lists, each as fp32 (R38). -/
def groupSums (as bs : List Val) : List Nat :=
  (groups32 (as.length / 32 + 1) (List.zipWith mulVal as bs)).map fun g => groupToFp32 (sumGroup g)

/-- fp32 additions into a value, one after the other, to nearest even (R38). -/
def addGroups (acc : Word) (gs : List Nat) : Word :=
  gs.foldl (fun a g => BitVec.ofNat 32 (roundNe (addVal (valueOf .fp32 a.toNat) (valueOf .fp32 g) .rne) .fp32)) acc

/-- Elements of a payload read in a type, those beyond the record's length zero (R181). -/
def recElems (ty : Fmt) (len : Nat) (pay : Vec16) : List Nat :=
  elemsOf (fmtBits ty) (512 / fmtBits ty) (vstr (vclear pay len))

/-- The values of codes of a type under a scale. -/
def decodeAll (ty : Fmt) (sc : Byte) (xs : List Nat) : List Val := xs.map fun x => decodeElem ty x sc

/-! ### Tiles, rows and the up-projection store -/

/-- Whether a tile is empty (R173): one that has no format, with its poison bit set too, as an absorbed vector abandoned
after a tswap leaves it (DESIGN CHOICE, log entry 26). -/
def Tile.isEmpty (t : Tile) : Bool := t.fmt.isNone

/-- Column j of a tile as values of a type (R180); an empty tile reads +0. -/
def Tile.column (t : Tile) (ty : Fmt) (j : Fin 64) : List Val :=
  if t.isEmpty then List.replicate (512 / fmtBits ty) (.fin false 0 0)
  else decodeAll ty t.scales[j.val] (elemsOf (fmtBits ty) (512 / fmtBits ty) (vstr t.cols[j.val]))

/-- Row r of accumulator a. -/
def Matrix.row (m : Matrix) (a : Fin 4) (r : Fin 32) : AccRow := m.acc[a.val][r.val]

/-- The matrix state with a row changed. -/
def Matrix.modRow (m : Matrix) (a : Fin 4) (r : Fin 32) (f : AccRow → AccRow) : Matrix :=
  { m with acc := m.acc.set a.val (m.acc[a.val].set r.val (f (m.row a r))) }

/-- A row wholly poisoned. -/
def AccRow.spoil (r : AccRow) : AccRow := { r with mask := 0xf }

/-- The row of a record's cookie (R179). -/
def rowOf (h : Hdr) : Fin 32 := Fin.ofNat 32 (h.ck.toNat / 2)

/-- mma_row_update (R38): group sums of a record against every column of the active tile. -/
def Matrix.rowUpdate (m : Matrix) (a : Fin 4) (r : Fin 32) (avs : List Val) (bty : Fmt) : Matrix :=
  m.modRow a r fun row =>
    { row with vals := Vector.ofFn fun j => addGroups row.vals[j] (groupSums avs (m.ta.column bty j)) }

/-- Slot n of u (R173). -/
def Matrix.uSlot (m : Matrix) (n : Nat) : Vec16 :=
  match m.u.find? fun x => x.1 == n with
  | some x => x.2
  | none => vzero

/-- Puts a slot of u; a slot of zeros is not listed. -/
def putSlot (n : Nat) (v : Vec16) : List (Nat × Vec16) → List (Nat × Vec16)
  | [] => if v = vzero then [] else [(n, v)]
  | x :: xs =>
    if x.1 = n then (if v = vzero then xs else (n, v) :: xs)
    else if n < x.1 then (if v = vzero then x :: xs else (n, v) :: x :: xs)
    else x :: putSlot n v xs

/-- The format of u (R193); a store never written has none. -/
def Matrix.uFmt (m : Matrix) : Fmt := fmtOf (m.ufmt.getD 2)

/-- The slot of U[i][j] (R193). -/
def Matrix.uSlotOf (m : Matrix) (i j : Nat) : Nat := fmtBits m.uFmt * (128 * i + j) / 512

/-- U[i][j] as a value (R193). -/
def Matrix.uVal (m : Matrix) (i j : Nat) : Val :=
  let b := fmtBits m.uFmt
  let n := 128 * i + j
  decodeElem m.uFmt (elemAt b (n % (512 / b)) (vstr (m.uSlot (n * b / 512)))) 0

/-- Whether a slot read for rows i0 to i0 + n - 1 and columns j0 to j0 + k - 1 is poisoned. -/
def Matrix.uPoisoned (m : Matrix) (i0 n j0 k : Nat) : Bool :=
  (List.range n).any fun i => (List.range k).any fun j => m.upoison.contains (m.uSlotOf (i0 + i) (j0 + j))

/-! ### Uses and the swap (R187) -/

/-- The swap is made: tb becomes ta. -/
def Matrix.makeSwap (m : Matrix) : Matrix := { m with ta := m.tb, tb := Tile.empty, swap := none }

/-- One use of ta. -/
def Matrix.use (m : Matrix) : Matrix :=
  match m.swap with
  | none => m
  | some n => if n.toNat ≤ 1 then m.makeSwap else { m with swap := some (n - 1) }

/-! ### The working vector (R185) -/

/-- A vector of +0 owned by o, whose next part is 1. -/
def WVec.begin (o : WOwner) : WVec := ⟨Vector.replicate 64 0, some o, 1, false⟩

/-- Poisons what a vector was for. -/
def Matrix.spoilTarget (m : Matrix) : WOwner → Matrix
  | .expand _ a r => m.modRow a r AccRow.spoil
  | .absorb _ _ _ => { m with tb := { m.tb with poison := true } }

/-- Abandons the vector in progress: its target is poisoned and W is empty. -/
def Matrix.abandon (m : Matrix) : Matrix :=
  match m.w.owner with
  | none => m
  | some o => { m.spoilTarget o with w := WVec.empty }

/-- The continuity rule (R185): the state, and whether the record is accepted. -/
def Matrix.continue (m : Matrix) (o : WOwner) (p : Nat) : Matrix × Bool :=
  if p = 0 then ({ m.abandon with w := WVec.begin o }, true)
  else if m.w.owner = some o && m.w.next = p then ({ m with w := { m.w with next := p + 1 } }, true)
  else ((m.spoilTarget o).abandon, false)

/-- Group sums added into the first nk values of W; part gives the operands of value j. -/
def WVec.accumulate (w : WVec) (nk : Nat) (part : Nat → List Val × List Val) : WVec :=
  { w with vals := Vector.ofFn fun j => if j.val < nk then addGroups w.vals[j] (groupSums (part j).1 (part j).2) else w.vals[j] }

/-- The first nk values of W rounded to a type in order, threading the LFSR (R184, R186). -/
def WVec.round (w : WVec) (nk : Nat) (ty : Fmt) (mode : Rm) (sat : Bool) (l : Word) : List Nat × Word :=
  let (xs, l', _) := roundList ty mode sat ((w.vals.toList.take nk).map fun v => valueOf .fp32 v.toNat) l
  (xs, l')

/-! ### The instructions -/

/-- A run over a matrix station's execution: its matrix state, header, payload as it is computed with, and run. -/
def atMatrix (s : State) (f : Run → Matrix → Hdr → Vec16 → Run) : Res :=
  match s.cur with
  | .station p fr =>
    match fr.mx with
    | some m =>
      let (ws, r) := (s.run p fr).fWords 0 16
      .next (s.nextIp p (f r m fr.r.hdr (vput vzero 0 ws)))
    | none => .next s
  | _ => .next s

/-- The run with its matrix state replaced. -/
def Run.putMx (r : Run) (m : Matrix) : Run := { r with f := { r.f with mx := some m } }

/-- The mx8 half rule on a row (R183). -/
def AccRow.halfRule (r : AccRow) (h : Hdr) : AccRow :=
  if h.ck.getLsbD 0 then
    let ok := r.half && r.scale == h.scale
    { r with half := false, mask := if ok then r.mask else 0xf }
  else { r with half := true, scale := h.scale, mask := if r.half then 0xf else r.mask }

/-- mma under none and absorb (R182). -/
def mmaPlain (o : XForm) (m : Matrix) (h : Hdr) (pay : Vec16) : Matrix :=
  let a : Fin 4 := Fin.ofNat 4 o.acc.toNat
  let r := rowOf h
  let aty := fmtOf o.aty
  let bad := h.fmt == 15 || m.ta.poison || (!m.ta.isEmpty && m.ta.fmt != some o.bty) || (o.um == 2 && m.ta.chunk != some o.n16)
  let m1 := if o.aty = 12 then m.modRow a r fun x => x.halfRule h else m
  let m2 := if bad then m1.modRow a r AccRow.spoil
    else m1.rowUpdate a r (decodeAll aty h.scale (recElems aty h.len.toNat pay)) (fmtOf o.bty)
  m2.use

/-- mma under expand (R184). -/
def mmaExpand (o : XForm) (m : Matrix) (h : Hdr) (pay : Vec16) (seg : Fin 4) (l : Word) : Matrix × Word :=
  let a : Fin 4 := Fin.ofNat 4 o.acc.toNat
  let r := rowOf h
  let aty := fmtOf o.aty
  let bty := fmtOf o.bty
  let ne := 512 / fmtBits aty
  let nk := 512 / fmtBits bty
  let k0 := o.n16.toNat
  if m.udc = 0 || m.udc % ne != 0 then ((m.modRow a r AccRow.spoil).abandon, l)
  else
    let parts := m.udc / ne
    let p := h.seq.toNat % parts
    let (m1, ok) := m.continue (.expand seg a r) p
    if !ok then (m1, l)
    else
      let avs := decodeAll aty 0 (recElems aty h.len.toNat pay)
      let w1 := m1.w.accumulate nk fun j => (avs, (List.range ne).map fun i => m1.uVal (p * ne + i) (k0 + j))
      let w2 := { w1 with poison := w1.poison || h.fmt == 15 || m1.uPoisoned (p * ne) ne k0 nk }
      if p + 1 ≠ parts then ({ m1 with w := w2 }, l)
      else
        let (xs, l') := w2.round nk bty (modRm o.mod) (modSat o.mod) l
        let bad := w2.poison || m1.ta.poison || (!m1.ta.isEmpty && m1.ta.fmt != some o.bty)
        let m2 := if bad then m1.modRow a r AccRow.spoil else m1.rowUpdate a r (decodeAll bty 0 xs) bty
        ({ m2.use with w := WVec.empty }, l')

/-- mma (R181 to R184). -/
def execMma (o : XForm) (s : State) : Res :=
  atMatrix s fun r m h pay =>
    if o.um = 1 then
      let (m1, l) := mmaExpand o m h pay r.f.seg r.f.lfsr
      { r with f := { r.f with mx := some m1, lfsr := l } }
    else r.putMx (mmaPlain o m h pay)

/-- The tag of the loading tile after a tld (R186). -/
def Tile.tagFor (t : Tile) (bty : BitVec 4) (chunk : Option (BitVec 16)) : Tile :=
  if t.isEmpty then { t with fmt := some bty, chunk := chunk }
  else if t.fmt != some bty || t.chunk != chunk then { t with poison := true }
  else t

/-- tld under none (R186). -/
def tldPlain (o : XForm) (m : Matrix) (h : Hdr) (pay : Vec16) : Matrix :=
  let t := m.tb.tagFor o.bty none
  let j := h.seq.toNat % 64
  let sc : Byte := if o.bty = 12 || o.bty = 13 then h.scale else 0x7f
  { m with tb := { t with cols := t.cols.setIfInBounds j pay, scales := t.scales.setIfInBounds j sc,
                          poison := t.poison || h.fmt == 15 } }

/-- tld under absorb (R186). Elements of the query at or beyond h.len count as +0, as R181 has it of mma: R186 speaks
of the payload (DESIGN CHOICE, log entry 26). -/
def tldAbsorb (o : XForm) (m : Matrix) (h : Hdr) (pay : Vec16) (seg : Fin 4) (l : Word) : Matrix × Word :=
  let m0 := { m with tb := m.tb.tagFor o.bty (some o.n16) }
  let aty := fmtOf o.aty
  let bty := fmtOf o.bty
  let ne := 512 / fmtBits aty
  let nk := 512 / fmtBits bty
  let c := o.n16.toNat
  let parts := 128 / ne
  let p := h.seq.toNat % parts
  let j : Fin 64 := Fin.ofNat 64 (h.seq.toNat / parts)
  if m0.udc < c * nk + nk then ({ m0 with tb := { m0.tb with poison := true } }.abandon, l)
  else
    let (m1, ok) := m0.continue (.absorb seg j o.n16) p
    if !ok then (m1, l)
    else
      let qs := decodeAll aty 0 (recElems aty h.len.toNat pay)
      let w1 := m1.w.accumulate nk fun r => ((List.range ne).map fun i => m1.uVal (c * nk + r) (p * ne + i), qs)
      let w2 := { w1 with poison := w1.poison || h.fmt == 15 || m1.uPoisoned (c * nk) nk (p * ne) ne }
      if p + 1 ≠ parts then ({ m1 with w := w2 }, l)
      else
        let (xs, l') := w2.round nk bty (modRm o.mod) (modSat o.mod) l
        let t := m1.tb
        ({ m1 with w := WVec.empty,
                   tb := { t with cols := t.cols.set j.val (vofStr (strOfElems (fmtBits bty) xs)), scales := t.scales.set j.val 0x7f,
                                  poison := t.poison || w2.poison } }, l')

/-- tld (R186). -/
def execTld (o : XForm) (s : State) : Res :=
  atMatrix s fun r m h pay =>
    if o.um = 2 then
      let (m1, l) := tldAbsorb o m h pay r.f.seg r.f.lfsr
      { r with f := { r.f with mx := some m1, lfsr := l } }
    else r.putMx (tldPlain o m h pay)

/-- tswap (R187). The hold of R188 acts at intake: a tld or tzero later in the same segment acts on tb at once, though
R188 says that no load issued after the tswap reaches that tile (DESIGN CHOICE, log entry 26). -/
def execTswap (o : XForm) (s : State) : Res :=
  atMatrix s fun r m _ _ => r.putMx (if o.n16 = 0 then m.makeSwap else { m with swap := some o.n16 })

/-- tzero (R189): an absorb vector goes with the tile. -/
def execTzero (_ : XForm) (s : State) : Res :=
  atMatrix s fun r m _ _ =>
    let w := match m.w.owner with | some (.absorb _ _ _) => WVec.empty | _ => m.w
    r.putMx { m with tb := Tile.empty, w := w }

/-- A cleared row (R190): its half scale stands. -/
def AccRow.clear (r : AccRow) : AccRow := { r with vals := Vector.replicate 64 0, mask := 0, half := false }

/-- accz (R190). -/
def execAccz (o : XForm) (s : State) : Res :=
  atMatrix s fun r m h _ =>
    let a : Fin 4 := Fin.ofNat 4 o.acc.toNat
    if o.n16.getLsbD 15 then r.putMx { m with acc := m.acc.set a.val (m.acc[a.val].map AccRow.clear) }
    else r.putMx (m.modRow a (rowOf h) AccRow.clear)

/-- The record after a readout: payload, length, scale and format, poison kept (R191, R192). -/
def readOut (r : Rec) (pay : Vec16) (len : BitVec 5) (fmt : BitVec 4) (bad : Bool) : Rec :=
  { r with pay := pay, hdr := { r.hdr with len := len, scale := 0, fmt := if bad || r.hdr.fmt == 15 then 15 else fmt } }

/-- accrd (R191). -/
def execAccrd (o : XForm) (s : State) : Res :=
  atMatrix s fun r m h _ =>
    let a : Fin 4 := Fin.ofNat 4 o.acc.toNat
    let q := o.n16.toNat % 4
    let row := m.row a (rowOf h)
    let pay : Vec16 := Vector.ofFn fun i => (row.vals[16 * q + i.val]?).getD 0
    let m1 := if o.n16.getLsbD 2 then
        m.modRow a (rowOf h) fun x =>
          { x with vals := Vector.ofFn fun i => if i.val / 16 = q then 0 else x.vals[i], mask := x.mask &&& ~~~((1 : BitVec 4) <<< q) }
      else m
    { r.putMx m1 with f := { r.f with mx := some m1, r := readOut r.f.r pay 16 1 (row.mask.getLsbD q) } }

/-- The elements of accrd.ul: each column's two group sums, rounded to the output type (R192). -/
def ulElems (m : Matrix) (row : AccRow) (c : Nat) (ty : Fmt) (mode : Rm) (sat : Bool) (js : List Nat) (l : Word) : List Nat × Word :=
  let avs := row.vals.toList.map fun v => valueOf .fp32 v.toNat
  let vs := js.map fun j => valueOf .fp32 (addGroups 0 (groupSums avs ((List.range 64).map fun i => m.uVal (64 * c + i) j))).toNat
  let (xs, l', _) := roundList ty mode sat vs l
  (xs, l')

/-- Whether accrd.ul of chunk c reads elements that u has (R193): u has a format, and rows up to 64c + 63 end within its
1,024 slots. -/
def Matrix.uReaches (m : Matrix) (c : Nat) : Bool := !m.ufmt.isNone && m.uSlotOf (64 * c + 63) 127 < 1024

/-- accrd.ul (R192): the elements go to the first words, and words past h.len keep theirs. Where u has no format, or the
rows of chunk c lie past its 65,536 bytes, the elements are free values (log entry 2); the record is poison then. -/
def execAccrdUl (o : XForm) (s : State) : Res :=
  atMatrix s fun r m h _ =>
    let a : Fin 4 := Fin.ofNat 4 o.acc.toNat
    let q := o.n16.toNat % 8
    let c := o.n16.toNat / 8 % 8
    let ty := fmtOf o.bty
    let row := m.row a (rowOf h)
    let len : BitVec 5 := if o.bty = 1 then 16 else 8
    let (xs, l) := ulElems m row c ty (modRm o.mod) (modSat o.mod) ((List.range 16).map fun j => 16 * q + j) r.f.lfsr
    let bad := row.mask != 0 || m.udc < 64 * c + 64 || m.uPoisoned (64 * c) 64 (16 * q) 16
    let ws := if m.uReaches c then wordsOfStr len.toNat (strOfElems (fmtBits ty) xs) else freeWords r.free len.toNat
    { r with f := { r.f with lfsr := l, r := readOut r.f.r (vput r.f.r.pay 0 ws) len o.bty bad },
             free := if m.uReaches c then r.free else r.free + len.toNat }

/-- ulset (R193). -/
def execUlset (o : XForm) (s : State) : Res :=
  atMatrix s fun r m h pay =>
    let n := h.seq.toNat % 1024
    r.putMx { m with u := putSlot n pay m.u, ufmt := some o.bty, udc := o.n16.toNat,
                     upoison := if h.fmt = 15 then insertN n m.upoison else eraseN n m.upoison }

end Sys2Proof.Machine
end

