-- ==== Sys2Proof/Machine/Float.lean ====
section
/-!
DEFINITION. The float, conversion and softmax instructions (04 R125 to R139).
-/
namespace Sys2Proof.Machine

/-- The element type of a float instruction. -/
def lft (o : LForm) : Fmt := fmtOf o.ty

/-- The source type in c[29:26] (R113). -/
def lsrc (o : LForm) : Fmt := fmtOf (BitVec.ofNat 4 (o.c.toNat % 16))

/-- Options of an elementwise float instruction. -/
def fOpt (o : LForm) (b c : Bool) : LaneOpt := { useB := b, useC := c, fl := some (lft o) }

/-- Values rounded in lane order under the modifier (R125). -/
def LaneIn.rounded (x : LaneIn) (o : LForm) (ty : Fmt) (vs : List Val) : LaneOut :=
  let (ls, l, p) := roundList ty (modRm o.mod) (modSat o.mod) vs x.lfsr
  ⟨ls, l, x.free, p, false⟩

/-- Lanes of one source, computed exactly and rounded. -/
def LaneIn.f1 (x : LaneIn) (o : LForm) (f : Val → Val) : LaneOut :=
  x.rounded o (lft o) (x.a.map fun a => f (valueOf (lft o) a))

/-- Lanes of two sources, computed exactly and rounded. -/
def LaneIn.f2 (x : LaneIn) (o : LForm) (f : Val → Val → Val) : LaneOut :=
  x.rounded o (lft o) (List.zipWith (fun a b => f (valueOf (lft o) a) (valueOf (lft o) b)) x.a x.b)

/-- Lanes of three sources, computed exactly and rounded. -/
def LaneIn.f3 (x : LaneIn) (o : LForm) (f : Val → Val → Val → Val) : LaneOut :=
  x.rounded o (lft o) (List.zipWith (fun g c => g (valueOf (lft o) c))
    (List.zipWith (fun a b => f (valueOf (lft o) a) (valueOf (lft o) b)) x.a x.b) x.c)

/-- A value as a code of its own format, exactly (R127). -/
def exactCode (ty : Fmt) (v : Val) : Nat := roundNe v ty

/-- A code with its sign bit cleared or inverted, NaN canonical (R127). -/
def signCode (ty : Fmt) (inv : Bool) (x : Nat) : Nat :=
  let h := 2 ^ (fmtBits ty - 1)
  if (valueOf ty x).isNan then nanCode ty
  else if inv then (if x < h then x + h else x - h) else x % h

/-- Lanes of a function whose enclosure may not decide: such a lane is a free value, and takes its draw (log entry 2).
Under .sat an infinity of R129's table of special inputs becomes the largest finite value, as R125 and R30 round the
exact result; the table itself gives the infinity (DESIGN CHOICE, log entry 60). -/
def unLanes (o : LForm) (fn : UnFn) : List Nat → Word → Nat → List Nat × Word × Nat
  | [], l, k => ([], l, k)
  | a :: as, l, k =>
    match unVal fn (valueOf (lft o) a) with
    | some v =>
      let (x, l') := roundTo v (lft o) (modRm o.mod) (modSat o.mod) l
      let (xs, l'', k') := unLanes o fn as l' k
      (x.getD 0 :: xs, l'', k')
    | none =>
      let l' := if modRm o.mod = .rsto then lfsrStep l else l
      let (xs, l'', k') := unLanes o fn as l' (k + 1)
      ((Config.freeWord k).toNat % 2 ^ fmtBits (lft o) :: xs, l'', k')

/-- A one-source function at its actor (R129). -/
def runUn (o : LForm) (fn : UnFn) (s : State) : Res :=
  runLane o (fOpt o false false) (fun x =>
    let (ls, l, k) := unLanes o fn x.a x.lfsr x.free
    ⟨ls, l, k, false, false⟩) s

/-- frnd lanes (R128). -/
def rndLanes (ty : Fmt) (mode : Rm) : List Nat → Word → List Nat × Word
  | [], l => ([], l)
  | a :: as, l =>
    let (v, l') := rndVal (valueOf ty a) mode l
    let (xs, l'') := rndLanes ty mode as l'
    (exactCode ty v :: xs, l'')

/-- Quantised elements of a block under scale s (R133). -/
def qntLanes (ty src : Fmt) (s : Byte) (mode : Rm) : List Nat → Word → List Nat × Word × Bool
  | [], l => ([], l, false)
  | a :: as, l =>
    let (x, l') := blockElem ty s (decodeElem src a 0) mode l
    let (xs, l'', p) := qntLanes ty src s mode as l'
    (x.getD 0 :: xs, l'', p || x.isNone)

/-- The scale that an fp32 amax gives (R133). -/
def amaxScale (ty : Fmt) (b : Nat) : Byte := blockScale ty (valueOf .fp32 b)

/-- The destination bits of a conversion, where they are not the lane width (R112). -/
def dstOpt (o : LForm) : Option Nat := if tyBits o.ty = 4 then some 4 else none

/-- Options of a conversion. -/
def cvtOpt (o : LForm) (b intB : Bool) : LaneOpt :=
  { cvt := some (cvtSrc o (dstBits o)), useB := b, scalarB := b, intB := intB, bits := dstOpt o, fl := some (lsrc o) }

/-- fadd (R126). -/
def execFadd (o : LForm) (s : State) : Res :=
  runLane o (fOpt o true false) (fun x => x.f2 o fun a b => addVal a b (modRm o.mod)) s
/-- fsub (R126). -/
def execFsub (o : LForm) (s : State) : Res :=
  runLane o (fOpt o true false) (fun x => x.f2 o fun a b => addVal a b.negate (modRm o.mod)) s
/-- fmul (R126). -/
def execFmul (o : LForm) (s : State) : Res := runLane o (fOpt o true false) (fun x => x.f2 o mulVal) s
/-- fma (R126). -/
def execFma (o : LForm) (s : State) : Res :=
  runLane o (fOpt o true true) (fun x => x.f3 o fun a b c => fmaVal a b c (modRm o.mod)) s
/-- fnma (R126). -/
def execFnma (o : LForm) (s : State) : Res :=
  runLane o (fOpt o true true) (fun x => x.f3 o fun a b c => fmaVal a.negate b c (modRm o.mod)) s
/-- fmin (R127). -/
def execFmin (o : LForm) (s : State) : Res :=
  runLane o (fOpt o true false)
    (fun x => x.map2 fun a b => exactCode (lft o) (minVal (valueOf (lft o) a) (valueOf (lft o) b))) s
/-- fmax (R127). -/
def execFmax (o : LForm) (s : State) : Res :=
  runLane o (fOpt o true false)
    (fun x => x.map2 fun a b => exactCode (lft o) (maxVal (valueOf (lft o) a) (valueOf (lft o) b))) s
/-- fabs (R127). -/
def execFabs (o : LForm) (s : State) : Res :=
  runLane o (fOpt o false false) (fun x => x.map1 (signCode (lft o) false)) s
/-- fneg (R127). -/
def execFneg (o : LForm) (s : State) : Res :=
  runLane o (fOpt o false false) (fun x => x.map1 (signCode (lft o) true)) s
/-- fcmp (R130). -/
def execFcmp (o : LForm) (s : State) : Res :=
  let holds (a b : Nat) : Bool := fcmpVal (o.mod.toNat % 8) (valueOf (lft o) a) (valueOf (lft o) b)
  runLane o { fOpt o true false with cmp := true } (fun x =>
    { x.map2 (fun a b => maskLane x.w (holds a b)) with any := (List.zipWith holds x.a x.b).any id }) s
/-- fcvt (R131). -/
def execFcvt (o : LForm) (s : State) : Res :=
  runLane o (cvtOpt o false false) (fun x => x.rounded o (lft o) (x.a.map fun a => decodeElem (lsrc o) a 0)) s
/-- frnd (R128). -/
def execFrnd (o : LForm) (s : State) : Res :=
  runLane o (fOpt o false false) (fun x =>
    let (ls, l) := rndLanes (lft o) (modRm o.mod) x.a x.lfsr
    ⟨ls, l, x.free, false, false⟩) s
/-- fscale (R126, R128): b is read as a signed integer. An infinite a is the exact result for any b; under .sat R30
rounds it to the largest finite value, which R128 does not say of it (DESIGN CHOICE, log entry 60). -/
def execFscale (o : LForm) (s : State) : Res :=
  runLane o { fOpt o true false with intB := true } (fun x =>
    x.rounded o (lft o) (List.zipWith (fun a b => (valueOf (lft o) a).scale (sextN x.w b)) x.a x.b)) s
/-- frcp (R129). -/
def execFrcp (o : LForm) (s : State) : Res := runUn o .frcp s
/-- frsq (R129). -/
def execFrsq (o : LForm) (s : State) : Res := runUn o .frsq s
/-- fsqrt (R129). -/
def execFsqrt (o : LForm) (s : State) : Res := runUn o .fsqrt s
/-- fexp2 (R129). -/
def execFexp2 (o : LForm) (s : State) : Res := runUn o .fexp2 s
/-- flog2 (R129). -/
def execFlog2 (o : LForm) (s : State) : Res := runUn o .flog2 s
/-- ftanh (R129). -/
def execFtanh (o : LForm) (s : State) : Res := runUn o .ftanh s
/-- i2f (R132). -/
def execI2f (o : LForm) (s : State) : Res :=
  runLane o (cvtOpt o false false) (fun x => x.rounded o (lft o) (x.a.map fun a => valueOf (lsrc o) a)) s
/-- f2i (R132). -/
def execF2i (o : LForm) (s : State) : Res :=
  runLane o (cvtOpt o false false) (fun x => x.rounded o (lft o) (x.a.map fun a => decodeElem (lsrc o) a 0)) s
/-- fqnt (R133, R134): quantised elements, or with ty = 0 the scale alone. -/
def execFqnt (o : LForm) (s : State) : Res :=
  if o.ty = 0 then
    runLane o { useA := false, useB := true, scalarB := true, word := true } (fun x =>
      x.out [(amaxScale (lsrc o) (x.b.headD 0)).toNat]) s
  else
    runLane o (cvtOpt o true false) (fun x =>
      let (ls, l, p) := qntLanes (lft o) (lsrc o) (amaxScale (lft o) (x.b.headD 0)) (modRm o.mod) x.a x.lfsr
      ⟨ls, l, x.free, p, false⟩) s
/-- fdq (R135). A small constant as b gives the low 8 bits of its integer value, as R135 reads b, and no fp32 code (R57;
DESIGN CHOICE, log entry 63). -/
def execFdq (o : LForm) (s : State) : Res :=
  runLane o (cvtOpt o true true) (fun x =>
    x.rounded o (lft o) (x.a.map fun a => decodeElem (lsrc o) a (BitVec.ofNat 8 (x.b.headD 0)))) s

/-- The larger code under fred.max (R136): NaN wins, +0 above -0. -/
def redMax (ty : Fmt) (a b : Nat) : Nat :=
  let x := valueOf ty a
  let y := valueOf ty b
  if x.isNan || y.isNan then nanCode ty else if ltTotal x y then b else a

/-- fred (R136): the tree of R37 over the lanes. -/
def execFred (o : LForm) (s : State) : Res :=
  runLane o { fOpt o false false with word := true } (fun x =>
    if o.c.toNat % 4 = 1 then x.out [x.a.tail.foldl (redMax (lft o)) (redMax (lft o) (x.a.headD 0) (x.a.headD 0))]
    else
      let (v, l) := treeReduce (fun a b l =>
        let (c, l') := roundTo (addVal (valueOf (lft o) a) (valueOf (lft o) b) (modRm o.mod)) (lft o) (modRm o.mod) (modSat o.mod) l
        (c.getD 0, l')) 7 x.a x.lfsr
      { x.out [v] with lfsr := l }) s

/-- fdot (R137): the exact sum of c and every product, rounded once to fp32. -/
def execFdot (o : LForm) (s : State) : Res :=
  runLane o { fOpt o true true with scalarC := true, word := true, bits := dstOpt o } (fun x =>
    let ps := List.zipWith (fun a b => mulVal (valueOf (lft o) a) (valueOf (lft o) b)) x.a x.b
    let v := ps.foldl (fun acc p => addVal acc p (modRm o.mod)) (valueOf .fp32 (x.c.headD 0))
    let (c, l) := roundTo v .fp32 (modRm o.mod) (modSat o.mod) x.lfsr
    { x.out [c.getD 0] with lfsr := l }) s

/-! ### Online softmax (R138, R139) -/

/-- The factor 2^(m - mn) of R139 as a value, 1 where the two are equal; an undecided enclosure takes a free value. -/
def smxFactor (m mn : Val) (k : Nat) : Val × Nat :=
  if eqVal m mn then (.fin false 1 0, k)
  else
    match unVal .fexp2 (addVal m mn.negate .rne) with
    | some v => (valueOf .fp32 (roundNe v .fp32), k)
    | none => (valueOf .fp32 (Config.freeWord k).toNat, k + 1)

/-- The triple after folding (mx, lx, vx) into (m1, l1, acc) (R139): m, l, lanes, LFSR and free count. -/
def smxFold (mode : Rm) (sat : Bool) (m1 l1 mx lx : Nat) (acc vx : List Nat) (l : Word) (k : Nat) :
    Nat × Nat × List Nat × Word × Nat :=
  let v := valueOf .fp32
  let mn := maxVal (v m1) (v mx)
  let (t1, k1) := smxFactor (v m1) mn k
  let (t2, k2) := smxFactor (v mx) mn k1
  let sum (x y : Nat) : Val := addVal (mulVal (v x) t1) (mulVal (v y) t2) mode
  let (l', lf) := roundTo (sum l1 lx) .fp32 mode sat l
  let (xs, lf', _) := roundList .fp32 mode sat (List.zipWith sum acc vx) lf
  (exactCode .fp32 mn, l'.getD 0, xs, lf', k2)

/-- smx.upd and smx.merge in a station (R139). -/
def runSmx (o : LForm) (merge : Bool) (s : State) (p : Place) (fr : Frame) : State :=
  if fr.predOk o.pe o.pi o.pn then
    let g := gWords o.g
    let grp (sp : Spec) : Src × Option Fmt := (⟨sp, 32, g, g, false⟩, some .fp32)
    let pair (sp : Spec) : Src × Option Fmt := (⟨sp, 32, 2, 2, false⟩, none)
    let last : Src × Option Fmt := if merge then pair o.c else (⟨o.c, 32, 1, 1, false⟩, some .fp32)
    let (ls, r) := (s.run p fr).readAll [pair o.a, grp o.b, last, (⟨o.d, 32, g, g, true⟩, none)]
    let pr := ls.getD 0 []
    let xs := ls.getD 2 []
    let one := 0x3f800000
    let (m, l, acc, lf, k) := smxFold (modRm o.mod) (modSat o.mod) (pr.getD 0 0) (pr.getD 1 0) (xs.getD 0 0)
      (if merge then xs.getD 1 0 else one) (ls.getD 3 []) (ls.getD 1 []) r.f.lfsr r.free
    let f1 := { r.f with lfsr := lf }.putWords o.a [BitVec.ofNat 32 m, BitVec.ofNat 32 l]
    s.nextIp p { r with f := f1.putLanes o.d 32 g acc, free := k }
  else s.nextIp p (s.run p fr)

/-- smx.upd (R139). -/
def execSmxUpd (o : LForm) (s : State) : Res :=
  match s.cur with
  | .station p fr => .next (runSmx o false s p fr)
  | _ => .next s
/-- smx.merge (R139). -/
def execSmxMerge (o : LForm) (s : State) : Res :=
  match s.cur with
  | .station p fr => .next (runSmx o true s p fr)
  | _ => .next s

end Sys2Proof.Machine
end

