-- ==== Sys2Proof/Machine/Requests.lean ====
section
/-!
DEFINITION. Requests of stations and threads and how they are performed (05 R152 to R168, 08 R233 to R249, 10 R311 to
R331, 17 R469 to R477, 18 R478 to R480): units, near banks, stack controllers, portals, replies.
-/
namespace Sys2Proof.Machine

/-! ### What one unit does -/

/-- A number of w bits under an integer operator (R162). -/
def atomInt (op : BitVec 4) (w old v : Nat) : Nat :=
  match op.toNat with
  | 0 => (old + v) % 2 ^ w
  | 1 => old &&& v
  | 2 => old ||| v
  | 3 => old ^^^ v
  | 4 => if sextN w v < sextN w old then v else old
  | 5 => if sextN w old < sextN w v then v else old
  | 6 => min old v
  | 7 => max old v
  | _ => v

/-- A sum in a format, to nearest even (R163). -/
def atomSum (f : Fmt) (a b : Nat) : Nat := roundNe (addVal (valueOf f a) (valueOf f b) .rne) f

/-- A 32-bit word under a floating operator (R163). -/
def atomFloat (op : BitVec 4) (old v : Nat) : Nat :=
  let halves (f : Fmt) : Nat := atomSum f (old % 65536) (v % 65536) + 65536 * atomSum f (old / 65536) (v / 65536)
  match op.toNat with
  | 0 => atomSum .fp32 old v
  | 1 => halves .bf16
  | 2 => halves .fp16
  | 3 => exactCode .fp32 (minVal (valueOf .fp32 old) (valueOf .fp32 v))
  | _ => exactCode .fp32 (maxVal (valueOf .fp32 old) (valueOf .fp32 v))

/-- A byte string worked on in words of k bytes; n bounds the words. -/
def byWords (k : Nat) (f : Nat → Nat → Nat) : Nat → List Byte → List Byte → List Byte
  | 0, _, _ => []
  | n + 1, a, b =>
    if a.isEmpty then []
    else bytesOfNat k (f (natOfBytes (a.take k)) (natOfBytes (b.take k))) ++ byWords k f n (a.drop k) (b.drop k)

/-- What a read-modify-write leaves in memory: none where it writes nothing (R162, R163, R166). -/
def rmw (op : UOp) (old dat cmp : List Byte) : Option (List Byte) :=
  match op with
  | .wr | .stp => some dat
  | .atomI o k => some (byWords k (atomInt o (8 * k)) old.length old dat)
  | .atomF o => some (byWords 4 (atomFloat o) old.length old dat)
  | .cas => if old = cmp then some dat else none
  | _ => none

/-- Whether an operation returns what it read. -/
def returnsData : UOp → Bool
  | .rd | .atomI _ _ | .atomF _ | .cas | .ldp => true
  | _ => false

/-- Whether an operation is a read-modify-write, which writes nothing on poison (R480). -/
def isRmw : UOp → Bool
  | .atomI _ _ | .atomF _ | .cas | .stp => true
  | _ => false

/-- n free bytes (R172). -/
def State.freeBytes (s : State) (n : Nat) : List Byte × State :=
  let (ws, s1) := s.takeFrees ((n + 3) / 4)
  ((ws.flatMap fun w => bytesOfNat 4 w.toNat).take n, s1)

/-! ### Requests by number -/

/-- A request. -/
def State.req? (s : State) (r : Nat) : Option Req := s.reqs.find? fun q => q.id == r

/-- The state with a request changed. -/
def State.modReq (s : State) (r : Nat) (f : Req → Req) : State :=
  { s with reqs := s.reqs.map fun q => if q.id == r then f q else q }

/-- The state without a request. -/
def State.dropReq (s : State) (r : Nat) : State := { s with reqs := s.reqs.filter fun q => q.id != r }

/-- The units of a request after one that has just been performed which the same event performs too (R331): step performs
the next one; n bounds them, and ok says whether the request still stands where it is performed. -/
def State.sameEvent (step : State → Req → MUnit → State) (ok : Stage → Bool) (r : Nat) : Nat → MUnit → State → State
  | 0, _, s => s
  | n + 1, u, s =>
    match s.req? r with
    | none => s
    | some q =>
      match q.units with
      | v :: _ => if s.oneEvent u v && ok q.stage then State.sameEvent step ok r n v (step s q v) else s
      | [] => s

/-- Whether every request that one must follow has been performed. -/
def State.afterDone (s : State) (q : Req) : Bool := q.after.all fun a => s.performed a

/-- The request with its first unit performed: data read, poison met, units left. -/
def Req.unitDone (q : Req) (bs : List Byte) (poison : Bool) : Req :=
  { q with units := q.units.tail, got := q.got ++ bs, poison := q.poison || poison }

/-- A record that carries a request among its accesses becomes poison where the request met it (R172). -/
def Rec.poisonedBy (r : Rec) (n : Nat) : Rec := if r.past.any fun q => q.req == n then { r with hdr := { r.hdr with fmt := 15 } } else r

/-- An item on a link, likewise. -/
def Item.poisonedBy (n : Nat) : Item → Item
  | .data r => .data (r.poisonedBy n)
  | .reconf => .reconf

/-- Every record of a lay whose posted access met poison is tagged so, wherever it stands (R172). -/
def Lay.poisonRecord (x : Lay) (n : Nat) : Lay :=
  { x with
    links := x.links.map fun l =>
      { l with flight := l.flight.map fun i => (i.1.poisonedBy n, i.2), buf := l.buf.map fun i => i.poisonedBy n },
    stations := x.stations.map fun st =>
      { st with frames := st.frames.map fun f => { f with r := f.r.poisonedBy n, orig := f.orig.poisonedBy n },
                exc := st.exc.map fun e => { e with r := e.r.poisonedBy n },
                body := match st.body with
                  | .bank b => .bank { b with fifo := b.fifo.map fun r => r.poisonedBy n }
                  | .splice b => .splice { b with reorder := b.reorder.map fun e => (e.1, e.2.poisonedBy n) }
                  | b => b },
    excBuf := x.excBuf.map fun e => { e with r := e.r.poisonedBy n } }

/-- The execution that issued a read-modify-write has had it performed (R421). -/
def State.atomPerformed (s : State) (q : Req) : State :=
  if isRmw q.op then s.modStation q.place fun st =>
    { st with frames := st.frames.map fun f => if f.id = q.exec then { f with atomDone := true } else f }
  else s

/-- Whether a thread's posted access has failed, for which it takes a trap at its next boundary (R472). -/
def Req.trapsThread (q : Req) : Bool := q.posted && q.poison && match q.owner with | .thread _ => true | _ => false

/-- A request whose first unit is done goes to its next unit; the last one makes it done, or ends it where it is posted. A
write to the host then waits for its flush (R475). -/
def State.nextUnit (s : State) (r : Nat) : State :=
  match s.req? r with
  | none => s
  | some q =>
    let s1 := (s.atomPerformed q).modLay q.place.ctx q.place.slot fun x =>
      if q.posted && q.poison then (x.poisonRecord r).stir else x.stir
    match q.units with
    | _ :: _ => s1.modReq r fun x => { x with stage := .sent }
    | [] =>
      if q.unflushed then s1.modReq r fun x => { x with stage := .linked, born := s.cyc }
      else if q.trapsThread then s1.modReq r fun x => { x with stage := .done }
      else if q.posted then (s1.dropReq r).tidyWindow q.place q.exec
      else (s1.modReq r fun x => { x with stage := .done }).tidyWindow q.place q.exec

/-! ### Near banks (R232 to R249) -/

/-- The interleave granule of a lay: codes 1 to 3 (R233, R393). -/
def interGran (i : Fin 4) : Nat :=
  match i.val with
  | 1 => 64
  | 2 => 256
  | _ => 4096

/-- The bank and local offset of a near address (R233). -/
def Lay.nearMap (x : Lay) (ea : Nat) : Nat × Nat :=
  if x.inter = 0 then (ea / 65536, ea % 65536)
  else
    let g := interGran x.inter
    (ea / g % x.nbanks, ea / g / x.nbanks * g + ea % g)

/-- The near address of a bank's offset (R233). -/
def Lay.nearAddr (x : Lay) (k o : Nat) : Nat :=
  if x.inter = 0 then 65536 * k + o
  else
    let g := interGran x.inter
    (o / g * x.nbanks + k) * g + o % g

/-- How an access to near memory is cut: units of 64 B, or one piece a bank in the bring-up mode (R328, R331). -/
def State.nearCut (s : State) (x : Lay) : Nat :=
  if s.secure.bringup.getLsbD 0 then (if x.inter = 0 || x.nbanks = 1 then 65536 else interGran x.inter) else 64

/-- The units of a near access of n bytes, data bytes and compare bytes alongside. -/
def State.nearUnits (s : State) (x : Lay) (ea n : Nat) (dat cmp : List Byte) : List MUnit :=
  (pieces (s.nearCut x) ea n).map fun p =>
    let (k, o) := x.nearMap p.1
    let i := p.1 - ea
    ⟨.bank k, o, p.2, (dat.drop i).take p.2, (cmp.drop i).take p.2, p.1, ea⟩

/-- The byte of a line bank that a local offset names, by its head row (R248). -/
def lineOffset (b : Bank) (o : Nat) : Nat :=
  let rows := 65536 / b.rowLen
  (b.head + rows - o / b.rowLen % rows) % rows * b.rowLen + o % b.rowLen

/-- The place in a bank's bytes of a local offset. -/
def Bank.place (b : Bank) (o : Nat) : Nat := if b.role = .line then lineOffset b o else o

/-- A range of local offsets as ranges of a bank's bytes: one for each row of a line bank (R248). -/
def Bank.spans (b : Bank) (o n : Nat) : List (Nat × Nat) :=
  if b.role = .line then (pieces b.rowLen o n).map fun p => (lineOffset b p.1, p.2) else [(o, n)]

/-- Whether a range of a bank holds a poisoned word (R480). -/
def Bank.poisoned (b : Bank) (o n : Nat) : Bool := (b.spans o n).any fun p => isPoisoned 8 b.poison p.1 p.2

/-- The words a range touches. -/
def wordsOf (o n : Nat) : List Nat := granules 4 o n

/-- Bytes of a bank as a load finds them: in a pres bank a word that is not present reads 0 (R246). -/
def Bank.read (b : Bank) (o n : Nat) : List Byte :=
  if b.role = .pres then (List.range n).map fun i => if b.pres.contains ((o + i) / 4) then readByte b.dat (o + i) else 0
  else (b.spans o n).flatMap fun p => readBytes b.dat p.1 p.2

/-- Bytes written to ranges of a bank one after the other, their marks cleared where a whole word is covered (R480). -/
def Bank.putSpans (b : Bank) : List (Nat × Nat) → List Byte → Bank
  | [], _ => b
  | (a, n) :: ps, bs =>
    { b with dat := writeBytes b.dat a (bs.take n), poison := clearMarks 8 b.poison a (bs.take n).length }.putSpans ps (bs.drop n)

/-- Bytes written to a bank; the write that completes the head row of a line bank moves the head (R249). -/
def Bank.write (b : Bank) (o : Nat) (bs : List Byte) : Bank :=
  let ps := b.spans o bs.length
  let b1 := b.putSpans ps bs
  let last := b.head * b.rowLen + b.rowLen - 4
  if b.role = .line && ps.any (fun p => p.1 ≤ last && last + 4 ≤ p.1 + p.2) then { b1 with head := (b.head + 1) % (65536 / b.rowLen) }
  else b1

/-- A bank marked poisoned over a range (R257, R478). -/
def Bank.mark (b : Bank) (o n : Nat) : Bank :=
  { b with poison := (b.spans o n).foldl (fun ms p => setMarks 8 ms p.1 p.2) b.poison }

/-- Whether every word of a range is present (R168). -/
def Bank.present (b : Bank) (o n : Nat) : Bool := (wordsOf o n).all fun w => b.pres.contains w

/-- Whether a word of a range is present or claimed (R168). -/
def Bank.taken (b : Bank) (o n : Nat) : Bool :=
  (wordsOf o n).any fun w => b.pres.contains w || b.claims.any fun c => c.1 == w

/-- The near bank at a place, if it is one. -/
def placeBank (p : Place) : Option Nat := if sidSite p.sid = .bank then some (16 * p.pid.val + p.sid.toNat % 32) else none

/-- Whether a request comes from the very bank it addresses (R235). -/
def Req.isOwn (q : Req) (k : Nat) : Bool := placeBank q.place == some k

/-- A request's key in a bank's window: its execution's where it is the bank's own (R235). -/
def Req.windowKey (q : Req) (k : Nat) : Nat := if q.isOwn k then q.exec else q.id

/-- The bank a request's next unit addresses. -/
def Req.bank? (q : Req) : Option Nat :=
  match q.units with
  | u :: _ => match u.node with | .bank k => some k | _ => none
  | [] => none

/-- Whether a request is eligible at its bank (R236): no older operation in the window that has a byte of its unit
still to touch there is unperformed. One from another station begins in the fabric cycle after it entered, when the
order of the entries of its cycle is settled (R235; DESIGN CHOICE, log entry 40). -/
def State.eligible (s : State) (b : Bank) (q : Req) (k : Nat) : Bool :=
  match q.units with
  | [] => false
  | u :: _ =>
    let older := b.window.takeWhile fun x => x != q.windowKey k
    !(s.reqs.any fun r => r.id != q.id && r.stage == .window && r.place.ctx == q.place.ctx && r.place.slot == q.place.slot
        && older.contains (r.windowKey k) && r.units.any fun v => unitsMeet u v)
      && (q.isOwn k || decide (q.born < s.cyc))

/-- The sender of a request in the order of R235: page, then sid. -/
def Req.sender (q : Req) : Nat := q.place.pid.val * 2 ^ 7 + q.place.sid.toNat

/-- A window with one more request of another station: those of its fabric cycle stand in order of their senders
(R235). -/
def State.enterWindow (s : State) (q : Req) (w : List Nat) : List Nat :=
  let after (x : Nat) : Bool := s.reqs.any fun y =>
    y.id == x && y.stage == .window && y.born == s.cyc && y.place.ctx == q.place.ctx && y.place.slot == q.place.slot
      && decide (q.sender < y.sender)
  match w.findIdx? after with
  | some i => w.take i ++ q.id :: w.drop i
  | none => w ++ [q.id]

/-- NEAR_REQUEST_ARRIVAL (R235): a near request enters the window while it has a free entry. The bank's own stands under
the entry of its record. -/
def execNearRequestArrival (r : Nat) (s : State) : Res :=
  match s.req? r with
  | none => .next s
  | some q =>
    match q.bank?, s.lay? q.place.ctx q.place.slot with
    | some k, some x =>
      match x.bankAt? k with
      | none => .next s
      | some b =>
        let has := b.window.contains (q.windowKey k)
        let room := b.window.length < 32 && (!(q.isOwn k) || b.records.length < 24)
        if q.stage = .sent && s.afterDone q && (has || room) then
          let s1 := s.modReq r fun y => { y with stage := .window, born := s.cyc }
          if has then .next s1
          else if q.isOwn k then
            .next (s1.modLay q.place.ctx q.place.slot fun y =>
              (y.modBank k fun z => { z with window := z.window ++ [q.exec], records := z.records ++ [q.exec] }).stir)
          else
            .next (s1.modLay q.place.ctx q.place.slot fun y => (y.modBank k fun z => { z with window := s.enterWindow q z.window }).stir)
        else .next s
    | _, _ => .next s

/-- The physical page at a position (R196, R485). -/
def Service.pageOf (q : Service) (d : Die) (pos : Nat) : Nat :=
  match q.serving.find? fun x => x.1 == d && x.2.1 == pos with
  | some x => x.2.2
  | none => pos

/-- Where a page of a lay lies: its die and the physical page that serves its position (R196, R482). -/
def State.pageAt (s : State) (c : CtxId) (l : LaySlot) (pid : Nat) : Nat × Nat :=
  match (s.lay? c l).bind fun x => x.pages[pid]? with
  | some pg =>
    let d := pg.gcol / 12 + 2 * (pg.grow / 7)
    (d, s.service.pageOf (Fin.ofNat 4 d) (pg.grow % 7 * 12 + pg.gcol % 12))
  | none => (255, 255)

/-- What the code of a bank finds in the word of an offset (R478): a corrected error is counted; an uncorrectable one
marks the word. -/
def State.bankEcc (s : State) (c : CtxId) (l : LaySlot) (k o : Nat) (e : Ecc) : State :=
  let (die, page) := s.pageAt c l (k / 16)
  match e with
  | .clean => s
  | .corrected => s.countCorrected (die * 84 + page) 1 die page (32 + k % 16)
  | .uncorrectable =>
    (s.modLay c l fun x => x.modBank k fun b => b.mark o 1).logAdd 2 die page (32 + k % 16) c.val o 0 0

/-- A read of a bank finds the errors that have struck its words (R478). -/
def State.bankScan (s : State) (c : CtxId) (l : LaySlot) (k o n : Nat) : State :=
  let p := bankPlace c l k
  let hit (x : Place × Nat × Bool) : Bool := x.1 == p && (granules 8 o n).contains (x.2.1 / 8)
  if s.upkeep.bankFlaws.isEmpty then s
  else
    (s.upkeep.bankFlaws.filter hit).foldl (fun z x => z.bankEcc c l k x.2.1 (eccOf x.2.2))
      { s with upkeep := { s.upkeep with bankFlaws := s.upkeep.bankFlaws.filter fun x => !(hit x) } }

/-- An operation on a bank (R236, R168): data, poison, and the bank afterwards; claim answers one byte, 0 granted. An
stp that meets a marked granule gives up its claim, leaves its words absent, and tags its record: R172 and R480 say
only that it writes nothing (DESIGN CHOICE, log entry 79). -/
def bankOp (b : Bank) (q : Req) (u : MUnit) (free : List Byte) : List Byte × Bool × Bank :=
  let bad := b.poisoned u.addr u.len
  match q.op with
  | .claim =>
    if b.taken u.addr u.len then ([1], false, b)
    else ([0], false, { b with claims := b.claims ++ (wordsOf u.addr u.len).map fun w => (w, q.exec) })
  | .stp =>
    let b1 := { b with claims := b.claims.filter fun c => !((wordsOf u.addr u.len).contains c.1) }
    if bad then ([], true, b1)
    else
      let b2 := b1.write u.addr u.dat
      ([], false, { b2 with pres := (wordsOf u.addr u.len).foldl (fun acc w => insertN w acc) b2.pres })
  | op =>
    let old := b.read u.addr u.len
    if isRmw op && bad then (free, true, b)
    else
      let b1 := match rmw op old u.dat u.cmp with | some bs => b.write u.addr bs | none => b
      (if returnsData op then old else [], returnsData op && bad, b1)

/-- An execution whose claim a bank has marked runs to completion (R168, R421). -/
def State.claimed (s : State) (q : Req) : State :=
  s.modStation q.place fun st => { st with frames := st.frames.map fun f => if f.id = q.exec then { f with atomDone := true } else f }

/-- A bank performs the next unit of a request. -/
def State.bankPerform (s : State) (r : Nat) (q : Req) (k : Nat) (b : Bank) (u : MUnit) : State :=
  let (free, s1) := s.freeBytes (if isRmw q.op && b.poisoned u.addr u.len then u.len else 0)
  let (bs, p, b1) := bankOp b q u free
  let more : Bool := match q.units.tail with | v :: _ => v.node == .bank k | [] => false
  let b2 := if more then b1 else { b1 with window := b1.window.filter fun x => x != q.id }
  let s2 := s1.modLay q.place.ctx q.place.slot fun x => x.modBank k fun _ => b2
  if q.op = .claim then (if bs = [0] then s2.claimed q else s2).modReq r fun x => { x with got := bs, stage := .done }
  else
  let s2 := s2.modReq r fun x => x.unitDone bs p
  if more then s2 else s2.nextUnit r

/-- The bank of a number performs the next unit of a request. -/
def State.bankStep (s : State) (r k : Nat) (q : Req) (u : MUnit) : State :=
  match (s.lay? q.place.ctx q.place.slot).bind fun y => y.bankAt? k with
  | some b => s.bankPerform r q k b u
  | none => s

/-- BANK_OPERATION_START (R236): an eligible operation is performed; an ldp whose words are not all present goes to the
wait list, or is answered retry (R247). -/
def execBankOperationStart (r : Nat) (e : Ecc) (s : State) : Res :=
  match s.req? r with
  | none => .next s
  | some q =>
    match q.units, q.bank?, s.lay? q.place.ctx q.place.slot with
    | u :: _, some k, some x =>
      match x.bankAt? k with
      | none => .next s
      | some b =>
        if q.stage ≠ .window || !(s.eligible b q k) || !(s.afterDone q) then .next s
        else if q.op = .ldp && !(b.present u.addr u.len) then
          let waiting := (s.reqs.filter fun y => y.stage == .presWait && y.bank? == some k
            && y.place.ctx == q.place.ctx && y.place.slot == q.place.slot).length
          let out := s.modLay q.place.ctx q.place.slot fun y => y.modBank k fun z =>
            { z with window := z.window.filter (fun w => w != q.windowKey k), records := z.records.filter fun w => w != q.windowKey k }
          .next (out.modReq r fun y => { y with stage := if waiting < 64 then .presWait else .retry (s.cyc + 64) })
        else
          let s1 := (s.bankEcc q.place.ctx q.place.slot k u.addr e).bankScan q.place.ctx q.place.slot k u.addr u.len
          .next (State.sameEvent (fun z y v => (z.bankScan y.place.ctx y.place.slot k v.addr v.len).bankStep r k y v) (· == .window) r 63 u
            (s1.bankStep r k q u))
    | _, _, _ => .next s

/-- LDP_WAKE (R247): once every word is present, the ldp re-enters the window at the head of age order; the bank's own
with its record. -/
def execLdpWake (r : Nat) (s : State) : Res :=
  match s.req? r with
  | none => .next s
  | some q =>
    match q.units, q.bank?, s.lay? q.place.ctx q.place.slot with
    | u :: _, some k, some x =>
      match x.bankAt? k with
      | none => .next s
      | some b =>
        let room := b.window.length < 32 && (!(q.isOwn k) || b.records.length < 24)
        if q.stage = .presWait && b.present u.addr u.len && room then
          let s1 := s.modReq r fun y => { y with stage := .window, born := 0 }
          .next (s1.modLay q.place.ctx q.place.slot fun y => y.modBank k fun z =>
            { z with window := q.windowKey k :: z.window, records := if q.isOwn k then q.exec :: z.records else z.records })
        else .next s
    | _, _, _ => .next s

/-- PRESENCE_RETRY_RESEND (R247). -/
def execPresenceRetryResend (r : Nat) (s : State) : Res :=
  match s.req? r with
  | none => .next s
  | some q =>
    match q.stage with
    | .retry t =>
      if q.op = .ldp && t ≤ s.cyc then
        .next (s.modReq r fun y => { y with stage := .sent })
      else .next s
    | _ => .next s

/-! ### HBM (R244, R478, R486) -/

/-- The cache-role banks of a lay in near-bank order (R243). -/
def Lay.cacheBanks (x : Lay) : List Nat :=
  (List.range x.nbanks).filter fun k => match x.bankAt? k with | some b => b.role == .cache | none => false

/-- Installs a line in the cache of a lay, where no bank holds it and the lay has a cache; the oldest line of a full set
goes (R243, R244). -/
def State.installLine (s : State) (c : CtxId) (l : LaySlot) (line : Nat) : State :=
  match s.lay? c l with
  | none => s
  | some x =>
    let bs := x.cacheBanks
    if bs.isEmpty || s.dir.any (fun d => d.line == line) then s
    else
      let k := bs.getD (line % bs.length) 0
      let set := line / bs.length % 128
      let sameSet (d : DirLine) : Bool := d.ctx == c && d.lay == l && d.bank == k && d.line / bs.length % 128 == set
      let full := decide (8 ≤ (s.dir.filter sameSet).length)
      let dir := if full then s.dir.eraseP sameSet else s.dir
      { s with dir := dir ++ [⟨line, c, l, k, false⟩] }

/-- A stack controller, or the bank that holds the line, performs the next unit of a request (R244, R480). -/
def State.hbmPerform (s : State) (r : Nat) (q : Req) (u : MUnit) : State :=
  let (old, bad) := s.hbmRead u.addr u.len
  let (free, s1) := s.freeBytes (if isRmw q.op && bad then u.len else 0)
  if isRmw q.op && bad then (s1.modReq r fun x => x.unitDone free true).nextUnit r
  else
    let s2 := match rmw q.op old u.dat u.cmp with
      | some bs => (s1.dirtyLines u.addr u.len).hbmWrite u.addr bs
      | none => s1
    let s3 := if q.op = .rd then (granules 64 u.addr u.len).foldl (fun z n => z.installLine q.place.ctx q.place.slot n) s2 else s2
    (s3.modReq r fun x => x.unitDone (if returnsData q.op then old else []) (returnsData q.op && bad)).nextUnit r

/-- HBM_REQUEST (R244): a request to HBM performs its next unit, once those it must follow are performed and its row is
not under repair (R486). -/
def execHbmRequest (r : Nat) (e : Ecc) (s : State) : Res :=
  match s.req? r with
  | none => .next s
  | some q =>
    match q.units with
    | u :: _ =>
      if q.stage = .sent && u.node = .hbm && s.afterDone q && !(s.rowsBusy u.addr u.len) then
        .next (State.sameEvent (fun z y v => if z.rowsBusy v.addr v.len then z else (z.hbmScan v.addr v.len).hbmPerform r y v)
          (· == .sent) r 63 u (((s.hbmEcc u.addr e).hbmScan u.addr u.len).hbmPerform r q u))
      else .next s
    | [] => .next s

/-- HBM_ROW_REPAIR_DONE (R486): the waiting accesses may go on; the repair is logged with the address that showed the
row's error. -/
def execHbmRowRepairDone (row : Nat) (s : State) : Res :=
  match s.upkeep.repairing.find? fun x => x.1 == row with
  | none => .next s
  | some (_, a) =>
    let bank := Config.hbmBankOfRow row
    let used := ((s.upkeep.spareUsed.find? fun x => x.1 == bank).map Prod.snd).getD 0
    let s1 := { s with upkeep := { s.upkeep with repairing := s.upkeep.repairing.filter fun x => x.1 != row } }
    .next (s1.logAdd 5 (stackOf a).1 255 (stackOf a).2 255 a 0 (Config.hbmSpareRows bank - used))

/-! ### Portals (R469 to R475) -/

/-- Whether a target completes an operation (R473): the bit of its operator byte. -/
def opBit (op : UOp) (len : Nat) : Nat :=
  let wide := if len = 8 then 1 else 0
  match op with
  | .atomI o _ => if o = 0 then wide else if o = 8 then 2 + wide else 6 + wide
  | .cas => 4 + wide
  | _ => 0

/-- The operator byte of a target (R466, R473). -/
def State.opByte (s : State) (nd : Node) : Byte :=
  match nd with
  | .host => s.links.hostcap &&& 0x3f
  | .peer n => if s.links.trained[n.val] then s.links.peerOps[n.val] else 0
  | _ => 0xff

/-- Whether a target completes an access of an operation and length; atomics of a protected context to the host count
as lacking (R499). -/
def State.supports (s : State) (c : CtxId) (nd : Node) (op : UOp) (len : Nat) : Bool :=
  !isRmw op || ((s.opByte nd).getLsbD (opBit op len) && !((s.ctx c).prot && nd == .host))

/-- The portal that serves a peer port: two ports each (R6; which two is a DESIGN CHOICE, log entry 77). -/
def peerPortal (n : Fin 12) : Nat := 2 + n.val / 2

/-- The portal a unit leaves by (R470): host portals 0 and 1 by address bit 12, six portals of the peer ports from 2. -/
def portalOf (u : MUnit) : Nat :=
  match u.node with
  | .peer n => peerPortal n
  | _ => u.addr / 4096 % 2

/-- The pool of tags that a unit takes one of (R471): a host portal's, or from 2 a peer port's. -/
def tagPool (u : MUnit) : Nat :=
  match u.node with
  | .peer n => 2 + n.val
  | _ => u.addr / 4096 % 2

/-- Tags of a pool that are held (R471). -/
def State.tagsUsed (s : State) (n : Nat) : Nat :=
  (s.reqs.filter fun q => q.stage == .linked && match q.units with | u :: _ => tagPool u == n | [] => false).length

/-- The tags of a pool (R471). -/
def portalTags (n : Nat) : Nat := if n < 2 then 2048 else 512

/-- The memory behind a portal node. -/
def State.outMem (s : State) : Node → Mem
  | .peer n => s.peerMem[n.val]
  | _ => s.hostMem

/-- The memory behind a portal node replaced. -/
def State.setOutMem (s : State) (nd : Node) (m : Mem) : State :=
  match nd with
  | .peer n => { s with peerMem := s.peerMem.set n.val m }
  | _ => { s with hostMem := m }

/-- Whether a unit is a host write of a protected context that the mark stage has not accepted yet (R499). -/
def State.needsMark (s : State) (q : Req) (u : MUnit) : Bool :=
  (s.ctx q.place.ctx).prot && u.node == .host && q.op == .wr && !q.marked

/-- A host write goes out (R471, R475): the host's memory takes it; it is performed, and counts, with its flush. -/
def State.hostPost (s : State) (r : Nat) (u : MUnit) : State :=
  ((s.setOutMem u.node (writeBytes (s.outMem u.node) u.addr u.dat)).modReq r fun x =>
    { x.unitDone [] false with out := x.out ++ [u] }).nextUnit r

/-- The pool of tags at which a request waits for a tag, and its place in the order of arrival (R471). -/
def Req.tagPlace (q : Req) : Option (Nat × Nat) :=
  match q.stage, q.units with
  | .tagWait n, u :: _ => some (tagPool u, n)
  | _, _ => none

/-- A request at its portal takes a tag, where one is free and no request that arrived before it waits for one; else it
waits there (R471). -/
def State.takeTag (s : State) (r : Nat) (q : Req) (u : MUnit) : State :=
  let mine := match q.stage with | .tagWait n => n | _ => s.nextId
  let first := s.reqs.all fun y => match y.tagPlace with | some (p, n) => p != tagPool u || decide (mine ≤ n) | none => true
  if s.tagsUsed (tagPool u) < portalTags (tagPool u) && first then s.modReq r fun x => { x with stage := .linked, born := s.cyc }
  else if q.stage = .tagWait mine then s
  else { s with nextId := s.nextId + 1 }.modReq r fun x => { x with stage := .tagWait mine }

/-- Whether a request stands before its portal: sent there, or waiting for a tag. -/
def Req.atPortal (q : Req) : Bool := match q.stage with | .sent | .tagWait _ => true | _ => false

/-- PORTAL_REQUEST (R471): the portal takes the next unit of a request, once those it must follow are performed and a
tag is free; a posted host write takes no tag. -/
def execPortalRequest (r : Nat) (s : State) : Res :=
  match s.req? r with
  | none => .next s
  | some q =>
    match q.units with
    | [] => .next s
    | u :: _ =>
      let isOut := match u.node with | .host | .peer _ => true | _ => false
      if !q.atPortal || !isOut || !(s.afterDone q) || s.needsMark q u then .next s
      else if q.op = .wr && u.node = .host then
        .next (State.sameEvent (fun z _ v => z.hostPost r v) (· == .sent) r 63 u (s.hostPost r u))
      else .next (s.takeTag r q u)

/-- The code of a failed reply in the fault log (R483). -/
def replyCode : LinkReply → Nat
  | .ok => 0 | .unsupported => 1 | .abort => 2 | .poisoned => 3 | .ualink => 5

/-- Whether two requests come from one party of R311: a thread, or an execution of a record. -/
def Req.sameParty (q r : Req) : Bool :=
  q.place == r.place && (match r.owner with | .thread t => q.owner == .thread t | _ => q.exec == r.exec)

/-- A host read or flush that a party sent after some of its host writes performs them (R475). -/
def State.flushedBy (s : State) (q : Req) : State :=
  { s with reqs := s.reqs.filterMap fun y =>
      if y.unflushed && y.stage == .linked && y.units.isEmpty && y.born ≤ q.born && y.sameParty q then
        if y.posted then none else some { y with unflushed := false, stage := .done }
      else some y }

/-- The number that a portal error names: the peer's port, or the host's portal (R482; log entry 77). -/
def linkNumber (u : MUnit) : Nat :=
  match u.node with
  | .peer n => n.val
  | _ => portalOf u

/-- A reply performs the unit at its target (R475), or fails with a code, giving free data and poison (R472). A flush
that fails leaves nothing that the program sees. -/
def State.portalPerform (s : State) (r : Nat) (q : Req) (u : MUnit) (code : Nat) : State :=
  if code ≠ 0 then
    let (free, s1) := s.freeBytes (if returnsData q.op then u.len else 0)
    let s2 := s1.logAdd 0x0a 255 255 (linkNumber u) q.place.ctx.val ((q.vas.headD ⟨0, 0⟩).va) 0 code
    (s2.modReq r fun x => { x.unitDone free (returnsData q.op) with unflushed := x.unflushed && q.op != .flush }).nextUnit r
  else
    let m := s.outMem u.node
    let old := readBytes m u.addr u.len
    let s1 := match rmw q.op old u.dat u.cmp with
      | some bs => s.setOutMem u.node (writeBytes m u.addr bs)
      | none => s
    let s2 := (s1.modReq r fun x =>
      { x.unitDone (if returnsData q.op then old else []) false with unflushed := x.unflushed && q.op != .flush }).nextUnit r
    if u.node = .host then s2.flushedBy q else s2

/-- POSTED_WRITE_FLUSH (R471, R475): the portal sends a flush, a read of no bytes that takes a tag, after a host write;
its reply performs the write. The model lets it go at any time, not only at the rule's triggers. -/
def execPostedWriteFlush (r : Nat) (s : State) : Res :=
  match s.req? r with
  | some q =>
    if q.unflushed && q.stage = .linked && q.units.isEmpty then
      let u : MUnit := ⟨.host, 0, 0, [], [], 0, 0⟩
      .next ((s.modReq r fun x => { x with op := .flush, units := [u], stage := .sent }).takeTag r { q with stage := .sent } u)
    else .next s
  | none => .next s

/-! ### Replies (R152, R158, R203) -/

/-- What an instruction's access writes to its frame: the destination takes the data (R154, R162, R166). -/
def putLoaded (i : Instr) (bs : List Byte) (f : Frame) : Frame :=
  let ws := wordsOfStr ((bs.length + 3) / 4) (natOfBytes bs)
  match i with
  | .ld o | .ldx o | .cas o | .ldp o => f.putWords o.d ws
  | .atom o | .atomf o => if o.mod.getLsbD 3 then f else f.putWords o.d ws
  | _ => f

/-- The data of an access in the order of its elements (R161). -/
def inOrder (perm : List Nat) (bs : List Byte) : List Byte :=
  if perm.isEmpty then bs else (List.range perm.length).flatMap fun i => (bs.drop (4 * perm.idxOf i)).take 4

/-- Data with the bytes that buffered stores supply (R159). -/
def overlay : List Byte → List (Option Byte) → List Byte
  | b :: bs, f :: fs => f.getD b :: overlay bs fs
  | bs, _ => bs

/-- An execution's parked access has its reply: the destination is written and the execution goes on in the next free
place (R203). A refused claim is a presence fault (R168). -/
def State.resumeExec (s : State) (q : Req) (st : Station) (f : Frame) : State :=
  let s1 := s.dropReq q.id
  if q.op = .claim then
    if q.got = [1] then (s1.doomExec q.place st f 8).modLay q.place.ctx q.place.slot Lay.progressed else s
  else
    let i := (st.nextInstr f).getD (.nop ⟨0, 0, false, 0, 0, false, 0, false, 0⟩)
    let f1 := (putLoaded i (inOrder q.perm (overlay q.got q.fwd)) f).poisonIf q.poison
    (s1.modStation q.place fun y =>
      { y.takeFrame f.id with frames := insertFrame { f1 with ip := f1.ip + 1, st := .resumed } (y.takeFrame f.id).frames }).modLay
        q.place.ctx q.place.slot Lay.progressed

/-- A reply to a thread: its destination is written and it goes on; a poisoned one is a trap (R160, R472). The trap of a
posted access that failed is taken at the thread's next boundary. -/
def State.resumeThread (s : State) (q : Req) (t : Tid) : State :=
  let c := q.place.ctx
  let s1 := s.dropReq q.id
  if q.trapsThread then
    let x := s.ctx c
    if (s.thread c t).yields || ((s.thread c t).wait == .stand .yield && !x.yielding) then
      s1.troubleAt c t ⟨9, (q.vas.headD ⟨0, 0⟩).va⟩ q.wr
    else s
  else
  match (s.thread c t).wait with
  | .portal r d =>
    if r ≠ q.id then s1
    else if q.poison then
      s1.troubleAt c t ⟨9, (q.vas.headD ⟨0, 0⟩).va⟩ q.wr
    else
      match d with
      | some sp => s1.finishT c t sp (BitVec.ofNat 64 (natOfBytes q.got))
      | none => s1.advance c t
  | _ => s1

/-- A reply or acknowledgement reaches whoever waits. -/
def State.deliver (s : State) (q : Req) : State :=
  let s1 := s.modLay q.place.ctx q.place.slot Lay.stir
  match q.owner with
  | .nobody => s1.dropReq q.id
  | .thread t => s1.resumeThread q t
  | .exec x =>
    match s1.station? q.place with
    | none => s1.dropReq q.id
    | some st =>
      match st.frame? x with
      | none => s1.dropReq q.id
      | some f =>
        if f.st = .parked q.id then s1.resumeExec q st f
        else
          let s2 := (s1.dropReq q.id).modStation q.place fun y =>
            { y with frames := y.frames.map fun g => if g.id = x then { g with outst := g.outst.filter fun n => n != q.id } else g }
          if f.st = .acking then s2.modLay q.place.ctx q.place.slot Lay.progressed else s2

/-- REPLY_ARRIVAL: a portal's reply performs a unit (R475); the reply to a whole access reaches its record or thread. -/
def execReplyArrival (r : Nat) (o : LinkReply) (s : State) : Res :=
  match s.req? r with
  | none => .next s
  | some q =>
    match q.stage, q.units with
    | .linked, u :: _ =>
      let code := if o = .ok && !(s.supports q.place.ctx u.node q.op u.len) then 1 else replyCode o
      .next (State.sameEvent (fun z y v => z.portalPerform r y v code) (· == .sent) r 63 u (s.portalPerform r q u code))
    | .done, _ => .next (s.deliver q)
    | _, _ => .next s

/-- PORTAL_TIMEOUT (R466, R472): XTIMEOUT microseconds of 2,000 fabric cycles without a reply fail the request. -/
def execPortalTimeout (r : Nat) (s : State) : Res :=
  match s.req? r with
  | none => .next s
  | some q =>
    match q.stage, q.units with
    | .linked, u :: _ =>
      if q.born + 2000 * s.links.xtimeout.toNat ≤ s.cyc then
        .next (State.sameEvent (fun z y v => z.portalPerform r y v 4) (· == .sent) r 63 u (s.portalPerform r q u 4)) else .next s
    | _, _ => .next s

/-- STP_CLAIM_GRANT (R168): the execution's buffered stores go out, and then its presence write. -/
def execStpClaimGrant (r : Nat) (s : State) : Res :=
  match s.req? r with
  | none => .next s
  | some q =>
    match q.owner, s.station? q.place with
    | .exec x, some st =>
      match st.frame? x with
      | none => .next s
      | some f =>
        if q.op = .claim && q.stage = .done && q.got = [0] && f.st = .parked r then
          let (f1, s1) := State.sendStores q.place f.stores f (s.dropReq r)
          let id := s1.nextId
          let w : Req := { q with id := id, op := .stp, got := [], stage := .sent,
                                  after := f1.perf.map Prod.snd }
          let f2 := { f1 with stores := [], st := .parked id, atomDone := true }
          .next (({ s1 with reqs := s1.reqs ++ [w], nextId := id + 1 }.modStation q.place fun y =>
            { y.takeFrame x with frames := insertFrame f2 (y.takeFrame x).frames }).modLay q.place.ctx q.place.slot Lay.progressed)
        else .next s
    | _, _ => .next s

end Sys2Proof.Machine
end

