-- ==== Sys2Proof/Machine/LayImage.lean ====
section
/-!
DEFINITION. Lay images (13 R393 to R397): reading one, every load cause that it can show (03 R95, 09 R279, R280), and
the lay that it makes.
-/
namespace Sys2Proof.Machine

/-! ### Reading an image (R393 to R395) -/

/-- A station entry. -/
structure ImgStation where
  pid : Nat
  sid : Nat
  mode : Nat
  ordered : Nat
  seed : Word
  cmap : List Nat
  segs : List (List DWord)
  fmts : List Nat
  ports : List Nat
  opt : Nat
  row : Nat
  k : List Word
  kv : List Vec16
  deriving DecidableEq, Repr

/-- A link entry. -/
structure ImgLink where
  spid : Nat
  ssid : Nat
  sport : Nat
  rpid : Nat
  rsid : Nat
  rport : Nat
  slots : Nat
  deriving DecidableEq, Repr

/-- A cleat entry. -/
structure ImgCleat where
  pid : Nat
  num : Nat
  done : Bool
  toPort : Bool
  budget : Nat
  count : Nat
  tpid : Nat
  tsid : Nat
  tport : Nat
  deriving DecidableEq, Repr

/-- A lay image. -/
structure Image where
  inter : Nat
  /-- Column, row, class, weights byte of each page. -/
  pages : List (Nat × Nat × Nat × Nat)
  stations : List ImgStation
  links : List ImgLink
  cleats : List ImgCleat
  binds : List (Nat × Nat)
  sigAt : Nat
  deriving DecidableEq, Repr

/-- Whether n bytes at i are all zero. -/
def zeroAt (bs : List Byte) (i n : Nat) : Bool := natAt bs i n == 0

/-- Whether a sid names a station that a page has (R6, R56). -/
def stationSid (sid : Nat) : Bool :=
  sid < 128 && sid % 32 ≤ (if sid / 32 < 2 then 15 else 1)

/-- Entry i of a table of entries of n bytes. -/
def entryAt (bs : List Byte) (off n i : Nat) : List Byte := (bs.drop (off + n * i)).take n

/-- A station entry's fields, or none where one is out of range (R394); code and kv are offsets in the image. Where the
offset in bytes 104 to 107 is no multiple of 8, which no rule names a cause for, the words are those that lie there
(DESIGN CHOICE, log entry 58). -/
def readStation (img : List Byte) (np code kv len : Nat) (e : List Byte) : Option ImgStation :=
  let b (i : Nat) : Nat := natAt e i 1
  let sid := b 1
  let slots := b 108
  let at_ := code + natAt e 104 4
  let top := match sid / 32 with | 1 => 4 | 3 => 7 | _ => 0
  let segs := (List.range 4).map fun j => (b (16 + 2 * j), b (17 + 2 * j))
  let kvs := (List.range 4).map fun j => natAt e (88 + 4 * j) 4
  if np ≤ b 0 || !(stationSid sid) || top < b 2 || 16 ≤ b 3 || (sid / 32 != 1 && b 3 != 0) || b 31 != 0 || !(zeroAt e 34 6)
      || !(zeroAt e 109 19) || 64 < slots || len < at_ + 8 * slots
      || ((List.range 8).any fun i => 3 < b (8 + i) && b (8 + i) != 0xff)
      || ((List.range 4).any fun i => 15 < b (24 + i)) || !([0, 2, 3, 4].contains (b 28))
      || (sid / 32 != 3 && b 30 != 0xff) || (!(sid / 32 == 1 && b 2 == 4) && natAt e 32 2 != 0)
      || (segs.any fun g => 16 < g.2 || (g.2 != 0 && slots < g.1 + g.2))
      || (kvs.any fun o => o != 0xffffffff && len < kv + o + 64) then none
  else
    let words := (List.range slots).map fun i => BitVec.ofNat 64 (natAt img (at_ + 8 * i) 8)
    some { pid := b 0, sid := sid, mode := b 2, ordered := b 3, seed := BitVec.ofNat 32 (natAt e 4 4),
           cmap := (List.range 8).map fun i => b (8 + i), segs := segs.map fun g => (words.drop g.1).take g.2,
           fmts := (List.range 4).map fun i => b (24 + i),
           ports := (List.range (if sid / 32 = 3 then b 28 else 0)).map fun i => b 29 / 4 ^ i % 4, opt := b 30, row := natAt e 32 2 * 64,
           k := (List.range 12).map fun i => BitVec.ofNat 32 (natAt e (40 + 4 * i) 4),
           kv := kvs.map fun o => if o = 0xffffffff then vzero else vofStr (natAt img (kv + o) 64) }

/-- A link entry's fields (R395, R410). -/
def readLink (np : Nat) (e : List Byte) : Option ImgLink :=
  let b (i : Nat) : Nat := natAt e i 1
  let exc := b 1 == 0x7f
  let sender := if exc then b 0 == 0 && b 2 == 0 else b 0 < np && (stationSid (b 1) || b 1 == 0x70) && b 2 < 4
  let receiver := b 3 < np && (stationSid (b 4) || b 4 == 0x70) && b 5 < 4
  if sender && receiver && b 6 ≤ 8 && b 7 == 0 then some ⟨b 0, b 1, b 2, b 3, b 4, b 5, b 6⟩ else none

/-- A cleat entry's fields (R395). -/
def readCleat (np : Nat) (e : List Byte) : Option ImgCleat :=
  let b (i : Nat) : Nat := natAt e i 1
  let port := b 2 / 2 % 2 == 1
  let target := if port then b 8 < np && (stationSid (b 9) || b 9 == 0x70) && b 10 < 4 else zeroAt e 8 3
  if b 0 < np && b 1 < 16 && b 2 < 4 && 1 ≤ b 3 && natAt e 4 4 < 2 ^ 24 && target && zeroAt e 11 5 then
    some ⟨b 0, b 1, b 2 % 2 == 1, port, b 3, natAt e 4 4, b 8, b 9, b 10⟩
  else none

/-- A binding entry's fields (R395). -/
def readBind (np : Nat) (e : List Byte) : Option (Nat × Nat) :=
  if natAt e 0 1 < np && natAt e 1 1 < 4 && zeroAt e 2 2 then some (natAt e 0 1, natAt e 1 1) else none

/-- Every entry of a list read, or none. -/
def readAll {α β : Type} (f : α → Option β) : List α → Option (List β)
  | [] => some []
  | x :: xs =>
    match f x, readAll f xs with
    | some y, some ys => some (y :: ys)
    | _, _ => none

/-- The length an image header states, where its magic and version are right. -/
def imageLen (h : List Byte) : Option Nat :=
  if natAt h 0 4 = 0x59414c4b && natAt h 4 2 = 1 && 64 ≤ natAt h 8 4 then some (natAt h 8 4) else none

/-- A page entry's fields (R394). -/
def readPage (e : List Byte) : Option (Nat × Nat × Nat × Nat) :=
  if natAt e 2 1 < 8 && zeroAt e 4 4 then some (natAt e 0 1, natAt e 1 1, natAt e 2 1, natAt e 3 1) else none

/-- An image of len bytes, or none where cause 0x0f applies (R279, R393). -/
def readImage (bs : List Byte) (len : Nat) : Option Image :=
  let np := natAt bs 6 1
  let inter := natAt bs 7 1
  let cnt (i : Nat) : Nat := natAt bs (12 + 2 * i) 2
  let off (i : Nat) : Nat := natAt bs (20 + 4 * i) 4
  let sig := natAt bs 48 4
  let tables := [(off 0, 8 * np), (off 1, 128 * cnt 0), (off 2, 0), (off 3, 8 * cnt 1), (off 4, 16 * cnt 2), (off 5, 4 * cnt 3), (off 6, 0)]
  if np < 1 || 64 < np || 3 < inter || !(zeroAt bs 52 12) || (tables.any fun t => t.1 % 8 != 0 || len < t.1 + t.2)
      || off 6 % 64 != 0 || (sig != 0 && (sig % 8 != 0 || len < sig + 64)) then none
  else
    let pages := readAll readPage ((List.range np).map fun i => entryAt bs (off 0) 8 i)
    let sts := readAll (readStation bs np (off 2) (off 6) len) ((List.range (cnt 0)).map fun i => entryAt bs (off 1) 128 i)
    let lks := readAll (readLink np) ((List.range (cnt 1)).map fun i => entryAt bs (off 3) 8 i)
    let cls := readAll (readCleat np) ((List.range (cnt 2)).map fun i => entryAt bs (off 4) 16 i)
    let bds := readAll (readBind np) ((List.range (cnt 3)).map fun i => entryAt bs (off 5) 4 i)
    match pages, sts, lks, cls, bds with
    | some ps, some ss, some ls, some cs, some ds =>
      let img : Image := ⟨inter, ps, ss, ls, cs, ds, sig⟩
      if (ps.map fun p => (p.1, p.2.1)).Nodup && (ss.map fun x => (x.pid, x.sid)).Nodup && (cs.map fun x => (x.pid, x.num)).Nodup
          && ds.Nodup then some img else none
    | _, _, _, _, _ => none

/-! ### Defects (R95, R280) -/

/-- A defect: page, station, whether it belongs to no segment, segment, slot, cause, and the matrix fields of R177. -/
structure Defect where
  page : Nat
  station : Nat
  other : Nat
  seg : Nat
  slot : Nat
  cause : Nat
  mx : Nat
  deriving DecidableEq, Repr

/-- The order of R95. -/
def Defect.before (x y : Defect) : Bool :=
  go [x.page, x.station, x.other, x.seg, x.slot, x.cause] [y.page, y.station, y.other, y.seg, y.slot, y.cause]
where
  /-- Lexicographic order. -/
  go : List Nat → List Nat → Bool
    | a :: as, b :: bs => a < b || (a == b && go as bs)
    | _, _ => false

/-- The first defect in the order of R95. -/
def firstDefect (ds : List Defect) : Option Defect :=
  ds.foldl (fun acc d => match acc with | none => some d | some e => if d.before e then some d else some e) none

/-- The load result word of a defect (R280). -/
def Defect.word (d : Defect) : DWord :=
  BitVec.ofNat 64 (d.cause + d.page * 2 ^ 8 + d.station * 2 ^ 14 + d.seg * 2 ^ 21 + d.slot * 2 ^ 23 + d.mx * 2 ^ 27)

/-- Whether an instruction may fault, for R48. -/
def mayFault (i : Instr) : Bool := isAccess i || match i with | .raise _ => true | _ => false

/-- Whether an instruction is an atomic for R48 (R159). -/
def isAtomic : Instr → Bool
  | .atom _ | .atomf _ | .cas _ | .stp _ => true
  | _ => false

/-- Whether an instruction is a far or portal load (R52). -/
def isFarLoad : Instr → Bool
  | .ld o | .ldx o | .cas o => o.sp != 0
  | .atom o | .atomf o => o.sp != 0 && !(o.mod.getLsbD 3)
  | _ => false

/-- The matrix fields of a word for a cause 0x08 (R280): um, cty, bty, aty from bit 27. -/
def mxFields : Instr → Nat
  | .mma o | .tld o | .accrdUl o | .ulset o => o.um.toNat + o.cty.toNat * 4 + o.bty.toNat * 64 + o.aty.toNat * 1024
  | _ => 0

/-- The declared format that a matrix instruction refuses (R177). -/
def declBad (i : Instr) (decl : Nat) : Bool :=
  match i with
  | .mma o | .tld o => decl != o.aty.toNat
  | .ulset o => decl != 0 && decl != o.bty.toNat
  | _ => false

/-- Places of the instructions that meet a test. -/
def placesOf (f : Instr → Bool) (is : List (Option Instr)) : List Nat :=
  (List.range is.length).filter fun n => match is[n]? with | some (some i) => f i | _ => false

/-- Defects of a segment at a station of a site, in slots and causes (R46, R48, R52, R95, R177). -/
def segDefects (k : Site) (ws : List DWord) (decl : Nat) : List (Nat × Nat) :=
  let is := ws.map fun w => (decodeWord w).toOption
  let words := (List.range ws.length).filterMap fun n => (wordCause k (ws.getD n 0)).map fun c => (n, c)
  let ends := placesOf isTerminator is
  let shape := match ends with
    | [] => [(ws.length - 1, 6)]
    | e :: _ => if e + 1 = ws.length then [] else [(e + 1, 6)]
  let atoms := placesOf isAtomic is
  let late := match atoms with
    | [] => []
    | a :: _ => ((placesOf mayFault is).find? fun n => decide (a < n)).toList.map fun n => (n, 7)
  let kws := placesOf (fun i => (destSpecs i).any fun d => isK d || isKv d) is
  let fls := placesOf isFarLoad is
  let both := match kws, fls with | a :: _, b :: _ => [(max a b, 7)] | _, _ => []
  let fmt := if decl = 6 || decl = 14 || decl = 15 then [(0, 9)] else []
  let mx := (placesOf (fun i => declBad i decl) is).map fun n => (n, 9)
  words ++ shape ++ late ++ both ++ fmt ++ mx

/-- The station of an image at a page and sid. -/
def Image.station? (m : Image) (pid sid : Nat) : Option ImgStation := m.stations.find? fun s => s.pid == pid && s.sid == sid

/-- Input ports a station may have linked; none is all four (R198, R205, R240). -/
def ImgStation.inputs (s : ImgStation) : Option (List Nat) :=
  if s.sid / 32 = 1 then (if s.mode = 2 then some [] else none)
  else if s.sid / 32 = 3 then
    match s.mode with
    | 0 => none
    | 1 | 2 | 3 => some [0]
    | 7 => some [0, 1]
    | _ => some s.ports
  else none

/-- Output ports a station may have linked. -/
def ImgStation.outputs (s : ImgStation) : Option (List Nat) :=
  if s.sid / 32 = 1 then (match s.mode with | 1 => some [0] | 2 => some [] | _ => none)
  else if s.sid / 32 = 3 then
    match s.mode with
    | 0 => none
    | 1 | 2 | 3 => some s.ports
    | _ => some [0]
  else none

/-- A bank role by its code. -/
def roleOf (n : Nat) : Role :=
  match n with
  | 0 => .buf | 1 => .fifo | 2 => .cache | 3 => .pres | _ => .line

/-- The role of a bank station (R239). -/
def Image.bankRole (m : Image) (pid sid : Nat) : Nat :=
  match m.station? pid sid with
  | some s => s.mode
  | none => if 12 ≤ sid % 32 then 2 else 0

/-- Whether an image's station has a port: undeclared banks have those of their role. -/
def Image.hasPort (m : Image) (pid sid port : Nat) (out : Bool) : Bool :=
  if sid = 0x70 then true
  else
    let s := (m.station? pid sid).getD
      ⟨pid, sid, if sid / 32 = 1 then m.bankRole pid sid else 0, 0, 0, [], [], [], [], 0xff, 0, [], []⟩
    match (if out then s.outputs else s.inputs) with
    | none => true
    | some ps => ps.contains port

/-- Whether a splice's options break R205. -/
def spliceBad (s : ImgStation) : Bool :=
  match s.mode with
  | 0 | 7 => !s.ports.isEmpty || s.opt != 0xff
  | m =>
    s.ports.length < 2 || !s.ports.Nodup || match m with
      | 3 => 15 < s.opt
      | 6 => s.opt != 0xff && 7 < s.opt
      | _ => s.opt != 0xff

/-- Whether a row= value breaks R248. -/
def rowBad (s : ImgStation) : Bool :=
  s.sid / 32 == 1 && s.mode == 4 && (s.row < 64 || 32768 < s.row || 65536 % s.row != 0)

/-- The links of an image with the release links of its cleats; a release link's sender is the cleat (R220). -/
def Image.allLinks (m : Image) : List ImgLink :=
  m.links ++ (m.cleats.filter fun c => c.toPort).map fun c => ⟨c.pid, 0x80 + c.num, c.num, c.tpid, c.tsid, c.tport, 1⟩

/-- Where R280 puts a defect of a link: its sender's page, station and port. -/
def ImgLink.defect (l : ImgLink) : Defect := ⟨l.spid, if 0x80 ≤ l.ssid then 0x7f else l.ssid, 1, 0, l.sport, 0x0a, 0⟩

/-- Whether a link ends at a re-entry input (R207). -/
def Image.reentry (m : Image) (l : ImgLink) : Bool :=
  l.rport == 1 && match m.station? l.rpid l.rsid with | some s => s.sid / 32 == 3 && s.mode == 7 | none => false

/-- Defects of links by themselves: a port twice, a port that is lacking, a handoff between pages, a wrong or second
link of the exception network (R200, R202, R205, R240, R410). -/
def Image.linkDefects (m : Image) : List Defect :=
  go [] [] m.allLinks
where
  /-- Links in order, with the ends met so far. -/
  go : List (Nat × Nat × Nat) → List (Nat × Nat × Nat) → List ImgLink → List Defect
    | _, _, [] => []
    | outs, ins, l :: ls =>
      let exc := l.ssid == 0x7f
      let handlerBad := exc && (l.rsid / 32 != 0 || match m.station? l.rpid l.rsid with | some s => (s.segs.getD 3 []).isEmpty | none => true)
      let bad := outs.contains (l.spid, l.ssid, l.sport) || ins.contains (l.rpid, l.rsid, l.rport)
        || (!exc && l.ssid < 0x80 && !(m.hasPort l.spid l.ssid l.sport true)) || !(m.hasPort l.rpid l.rsid l.rport false)
        || (l.slots == 0 && l.spid != l.rpid) || handlerBad
      (if bad then [l.defect] else []) ++ go ((l.spid, l.ssid, l.sport) :: outs) ((l.rpid, l.rsid, l.rport) :: ins) ls

/-- The link from an output port. -/
def Image.outLink (m : Image) (pid sid port : Nat) : Option ImgLink :=
  m.links.find? fun l => l.spid == pid && l.ssid == sid && l.sport == port

/-- Ports of a terminator and whether it is a bight (R146). -/
def termPorts : Instr → Option (List Nat × Bool)
  | .emit o => some ([o.pt.toNat], false)
  | .fork o => some ([o.pt.toNat, o.pf.toNat], false)
  | .steer o => some ([o.pt.toNat, o.pf.toNat], false)
  | .bight o => some ([o.pt.toNat], true)
  | _ => none

/-- The site of a station entry. -/
def ImgStation.site (s : ImgStation) : Site := sidSite (BitVec.ofNat 7 s.sid)

/-- Whether a station runs segments (R205, R240). -/
def ImgStation.runs (s : ImgStation) : Bool :=
  !(s.sid / 32 == 1 && (s.mode == 1 || s.mode == 2)) && !(s.sid / 32 == 3 && s.mode != 0)

/-- The instructions of a station's segments, with segment and slot. -/
def ImgStation.instrs (s : ImgStation) : List (Nat × Nat × Instr) :=
  (List.range 4).flatMap fun g =>
    let ws := s.segs.getD g []
    (List.range ws.length).filterMap fun n => ((decodeWord (ws.getD n 0)).toOption).map fun i => (g, n, i)

/-- Whether an atomic of a station is one that some target of the context lacks (R474). -/
def lacksOp (ops : List Byte) : Instr → Bool
  | .atom o => o.sp == 2 && ops.any fun b => !(b.getLsbD (opBit (.atomI o.aop 4) (szBytes o.sz)))
  | .cas o => o.sp == 2 && ops.any fun b => !(b.getLsbD (opBit .cas (szBytes o.sz)))
  | .atomf o => o.sp == 2 && !ops.isEmpty
  | _ => false

/-- Defects of one station's segments, and of its options and role: these belong to no segment (R95, R280; R46 to R52,
R93, R145, R146, R205, R240, R248, R293, R302, R474). -/
def Image.stationDefects (m : Image) (ops : List Byte) (s : ImgStation) : List Defect :=
  let at_ (g n c mx : Nat) : Defect := ⟨s.pid, s.sid, 0, g, n, c, mx⟩
  let own : Defect := ⟨s.pid, s.sid, 1, 0, 0, 0x0a, 0⟩
  let opts := (if s.sid / 32 = 3 && spliceBad s then [own] else []) ++ (if rowBad s then [own] else [])
    ++ if !s.runs && s.segs.any fun ws => !ws.isEmpty then [own] else []
  let words := (List.range 4).flatMap fun g =>
    let ws := s.segs.getD g []
    if ws.isEmpty then [] else (segDefects s.site ws (s.fmts.getD g 0)).map fun d =>
      at_ g d.1 d.2 (if d.2 = 8 then match (decodeWord (ws.getD d.1 0)).toOption with | some i => mxFields i | none => 0 else 0)
  let uses := s.instrs.flatMap fun x =>
    let (g, n, i) := x
    (match i with
      | .cleatTie o => if o.pg.toNat = s.pid then [] else [at_ g n 5 0]
      | .fibSkip o => if o.pg.toNat < m.pages.length then [] else [at_ g n 3 0]
      | _ => [])
    ++ (match termPorts i with
      | some (ps, b) =>
        if ps.any fun p => match m.outLink s.pid s.sid p with | some l => m.reentry l != b | none => true then [at_ g n 0x0b 0] else []
      | none => [])
    ++ (if lacksOp ops i then [at_ g n 0x0c 0] else [])
  opts ++ words ++ uses

/-- Defects of the done marks (R218, R280). -/
def Image.doneDefects (m : Image) : List Defect :=
  let ds := m.cleats.filter fun c => c.done
  let key (c : ImgCleat) : Nat := 16 * c.pid + c.num
  match ds with
  | [] => [⟨0, 0x7f, 1, 0, 0, 0x0a, 0⟩]
  | [_] => []
  | _ =>
    let ks := sortBy (fun a b => decide (a ≤ b)) (ds.map key)
    let k := ks.getD 1 0
    [⟨k / 16, 0x7f, 1, 0, k % 16, 0x0a, 0⟩]

/-! ### Bights and cycles (R207) -/

/-- A node of the graph of R207: a station, or a cleat from sid 0x80 on. -/
abbrev GNode := Nat × Nat

/-- An edge: its ends and, where it is a link, the link. -/
abbrev GEdge := GNode × GNode × Option ImgLink

/-- The edges of an image: links between stations, release links, and ties as paths to cleats. A reel is no node. -/
def Image.edges (m : Image) : List GEdge :=
  ((m.allLinks.filter fun l => l.ssid != 0x70 && l.ssid != 0x7f && l.rsid != 0x70).map fun l => ((l.spid, l.ssid), (l.rpid, l.rsid), some l))
    ++ m.stations.flatMap fun s => (s.instrs.filterMap fun x =>
        match x.2.2 with
        | .cleatTie o => some ((s.pid, s.sid), (s.pid, 0x80 + o.cl.toNat), none)
        | _ => none)

/-- Simple paths from a node to a target: whether one of them, with the link that closes it, breaks the rule on cycles.
n bounds the length; re counts re-entries, cl notes a cleat. -/
def badPath (m : Image) (es : List GEdge) (target : GNode) : Nat → GNode → List GNode → Nat → Bool → Bool
  | 0, _, _, _, _ => false
  | n + 1, v, seen, re, cl =>
    if v = target then cl || re != 1
    else
      es.any fun e =>
        e.1 == v && !(seen.contains e.2.1) &&
          badPath m es target n e.2.1 (e.2.1 :: seen)
            (re + match e.2.2 with | some l => if m.reentry l then 1 else 0 | none => 0) (cl || 0x80 ≤ e.2.1.2)

/-- Links that lie on a cycle that breaks R207. -/
def Image.cycleDefects (m : Image) : List Defect :=
  let es := m.edges
  es.filterMap fun e =>
    match e.2.2 with
    | none => none
    | some l =>
      let re := if m.reentry l then 1 else 0
      let cl := 0x80 ≤ e.1.2 || 0x80 ≤ e.2.1.2
      let bad := if e.1 = e.2.1 then cl || re != 1 else badPath m es e.1 (es.length + 1) e.2.1 [e.2.1] re cl
      if bad then some l.defect else none

/-- A link of an image as one of the machine. -/
def ImgLink.link (l : ImgLink) : Link :=
  { src := ⟨Fin.ofNat 64 l.spid, BitVec.ofNat 7 l.ssid, l.sport⟩, dst := ⟨Fin.ofNat 64 l.rpid, BitVec.ofNat 7 l.rsid, l.rport⟩,
    slots := l.slots, free := max 1 l.slots, flight := [], buf := [], headAt := 0, back := 0, debt := 0 }

/-- A cleat's release link as one of the machine (R220). -/
def releaseLink (c : ImgCleat) : Link :=
  { src := ⟨Fin.ofNat 64 c.pid, cleatSid, c.num⟩, dst := ⟨Fin.ofNat 64 c.tpid, BitVec.ofNat 7 c.tsid, c.tport⟩, slots := 1,
    free := 1, flight := [], buf := [], headAt := 0, back := 0, debt := 0 }

/-- A lay that holds an image's links only, for the loops of R207. -/
def Image.linkLay (m : Image) : Lay :=
  { Lay.fresh 0 0 [] with links := (m.links.filter fun l => l.ssid != 0x7f).map ImgLink.link }

/-- The stations inside a loop. -/
def loopNodes (ls : List Link) (e : Pid × Sid) : List (Pid × Sid) := e :: ls.flatMap fun l => [(l.src.pid, l.src.sid), (l.dst.pid, l.dst.sid)]

/-- Defects of bights (R207, R280): capacity, entries into a loop by a link or a cleat's release link, forks and
copies inside one, loops that share links. -/
def Image.bightDefects (m : Image) : List Defect :=
  let x := m.linkLay
  let entries := m.stations.filter fun s => s.sid / 32 == 3 && s.mode == 7
  let loopAt (s : ImgStation) : List Link := x.loopOf (Fin.ofNat 64 s.pid) (BitVec.ofNat 7 s.sid)
  let own (s : ImgStation) : Defect := ⟨s.pid, s.sid, 1, 0, 0, 0x0a, 0⟩
  let one (s : ImgStation) : List Defect :=
    let lp := loopAt s
    let e : Pid × Sid := (Fin.ofNat 64 s.pid, BitVec.ofNat 7 s.sid)
    let nodes := loopNodes lp e
    let inside (a b : Nat) : Bool := nodes.contains (Fin.ofNat 64 a, BitVec.ofNat 7 b)
    let both (pid sid : Nat) (ps : List Nat) : Bool :=
      1 < (ps.filter fun p => match m.outLink pid sid p with | some l => lp.contains l.link | none => false).length
    (if (lp.map Link.slots).sum < 2 then [own s] else [])
      ++ ((m.allLinks.filter fun l => (0x80 ≤ l.ssid || !(lp.contains l.link)) && !(l.ssid < 0x70 && inside l.spid l.ssid) && inside l.rpid l.rsid
            && !((l.rpid, l.rsid, l.rport) == (s.pid, s.sid, 0))).map ImgLink.defect)
      ++ (m.stations.filter fun t => inside t.pid t.sid).flatMap fun t =>
        (if t.sid / 32 == 3 && t.mode == 1 && both t.pid t.sid t.ports then [own t] else [])
          ++ t.instrs.filterMap fun i =>
            match i.2.2 with
            | .fork o => if both t.pid t.sid [o.pt.toNat, o.pf.toNat] then some ⟨t.pid, t.sid, 0, i.1, i.2.1, 0x0a, 0⟩ else none
            | _ => none
  let holds (a b : ImgStation) : Bool :=
    let la := loopAt a
    let lb := loopAt b
    (lb.all fun l => la.contains l) && (loopNodes la (Fin.ofNat 64 a.pid, BitVec.ofNat 7 a.sid)).contains (Fin.ofNat 64 b.pid, BitVec.ofNat 7 b.sid)
  entries.flatMap one
    ++ entries.flatMap fun a => entries.flatMap fun b =>
      if (a.pid, a.sid) != (b.pid, b.sid) && ((loopAt a).any fun l => (loopAt b).contains l) && !(holds a b) && !(holds b a) then
        [own a] else []

/-- The load result word of an image that reads (R95, R280); 0 where it has no defect. ops are the operator bytes of
the context's targets. -/
def Image.check (m : Image) (ops : List Byte) : DWord :=
  match firstDefect (m.linkDefects ++ m.stations.flatMap (m.stationDefects ops) ++ m.doneDefects ++ m.cycleDefects ++ m.bightDefects) with
  | none => 0
  | some d => d.word

/-! ### The lay that an image makes (R2, R278) -/

/-- A vector of a list's first entries. -/
def vecOf {α : Type} (n : Nat) (d : α) (xs : List α) : Vector α n := Vector.ofFn fun i => xs.getD i.val d

/-- A splice mode by its code (R394). -/
def smodeOf (n : Nat) : SMode :=
  match n with
  | 0 => .seg | 1 => .bcast | 2 => .splitRr | 3 => .splitHash | 4 => .mergeArr | 5 => .mergeRr | 6 => .mergeSeq | _ => .bight

/-- A seed as it is taken (R32). -/
def seedOf (w : Word) : Word := if w = 0 then 1 else w

/-- A station of an image. -/
def ImgStation.make (s : ImgStation) : Station :=
  let body : Body := match s.sid / 32 with
    | 0 => .compute
    | 1 => .bank (Bank.fresh (roleOf s.mode) (if s.row = 0 then 1024 else s.row))
    | 2 => .matrix Matrix.initial
    | _ => .splice (Splice.fresh (smodeOf s.mode) (s.ports.map fun p => Fin.ofNat 4 p) (BitVec.ofNat 8 s.opt))
  { Station.fresh (Fin.ofNat 64 s.pid) (BitVec.ofNat 7 s.sid) body with
    segs := Vector.ofFn fun g =>
      let ws := s.segs.getD g.val []
      if ws.isEmpty then none else some ⟨ws, BitVec.ofNat 4 (s.fmts.getD g.val 0)⟩
    cmap := vecOf 8 none (s.cmap.map fun n => if n = 0xff then none else some (Fin.ofNat 4 n))
    k := vecOf 12 0 s.k
    kv := vecOf 4 vzero s.kv
    lfsr := seedOf s.seed
    seed := seedOf s.seed
    ordered := BitVec.ofNat 4 s.ordered }

/-- What the kind of a station without an entry adds (R394): a bank has the role of R239, a splice mode seg. -/
def Image.plainBody (m : Image) (pid sid : Nat) : Body :=
  match sid / 32 with
  | 0 => .compute
  | 1 => .bank (Bank.fresh (roleOf (m.bankRole pid sid)) 1024)
  | 2 => .matrix Matrix.initial
  | _ => .splice (Splice.fresh .seg [] 0xff)

/-- Every station of a page in the order of sids: those declared, its other banks, and those without an entry at which a
link ends: they hold no segments (R394), so what reaches them draws a class fault (R49). -/
def Image.pageStations (m : Image) (pid : Nat) : List Station :=
  (List.range 128).filterMap fun sid =>
    match m.station? pid sid with
    | some s => some s.make
    | none =>
      if (sid / 32 = 1 && sid % 32 < 16) || m.allLinks.any fun l => l.rpid == pid && l.rsid == sid && stationSid sid then
        some (Station.fresh (Fin.ofNat 64 pid) (BitVec.ofNat 7 sid) (m.plainBody pid sid))
      else none

/-- A cleat that the image does not list (R217). -/
def Cleat.unlisted (pid : Nat) (n : Fin 16) : Cleat :=
  { pid := Fin.ofNat 64 pid, num := n, count := 0, arrivals := 0, gen := 0, released := 0, budget := 1, fired := 0,
    overrun := false, done := false, link := none, waiting := [], reqs := [], arriving := [], pending := [], adopted := true }

/-- The links of a lay: the image's, then the release links of its cleats. -/
def Image.makeLinks (m : Image) : List Link :=
  ((m.links.filter fun l => l.ssid != 0x7f).map ImgLink.link) ++ (m.cleats.filter fun c => c.toPort).map releaseLink

/-- The cleats of a lay: sixteen a page. -/
def Image.makeCleats (m : Image) (links : List Link) : List Cleat :=
  (List.range m.pages.length).flatMap fun pid => (List.finRange 16).map fun n =>
    match m.cleats.find? fun c => c.pid == pid && c.num == n.val with
    | none => Cleat.unlisted pid n
    | some c =>
      { Cleat.unlisted pid n with
        count := BitVec.ofNat 24 c.count, budget := BitVec.ofNat 8 c.budget, done := c.done,
        link := if c.toPort then findIx (fun l => l.src == ⟨Fin.ofNat 64 pid, cleatSid, n.val⟩) links 0 else none }

/-- The lay of an image placed with an origin, before its banks are zeroed. -/
def Image.make (m : Image) (addr : DWord) (digest : BitVec 256) (origin : Nat × Nat) : Lay :=
  let links := m.makeLinks
  let pages := m.pages.map fun p =>
    { col := p.1, row := p.2.1, gcol := origin.1 + p.1, grow := origin.2 + p.2.1,
      reel := Reel.fresh (BitVec.ofNat 3 p.2.2.1) (Vector.ofFn fun n => Fin.ofNat 4 (p.2.2.2 / 4 ^ n.val)) : Page }
  { Lay.fresh addr (Fin.ofNat 4 m.inter) pages with
    digest := digest
    origin := origin
    stations := (List.range m.pages.length).flatMap m.pageStations
    links := links
    cleats := m.makeCleats links
    binds := m.binds.map fun b => (Fin.ofNat 64 b.1, Fin.ofNat 4 b.2)
    handler := (m.links.find? fun l => l.ssid == 0x7f).map fun l => (Fin.ofNat 64 l.rpid, BitVec.ofNat 7 l.rsid) }

end Sys2Proof.Machine
end

