-- ==== Sys2Proof/Machine/Translate.lean ====
section
/-!
DEFINITION. The translation of a station's far and portal accesses and its faults (05 R153 to R157, 14 R398 to R409):
checks where an access stands, walks, fault events joined by key, retries.
-/
namespace Sys2Proof.Machine

/-- The address spaces of format M (R72): near, far, portal. -/
inductive Space where
  | near | far | portal
  deriving DecidableEq, Repr

/-- The space of an sp field. -/
def spaceOf (sp : BitVec 2) : Space :=
  match sp.toNat with
  | 0 => .near
  | 1 => .far
  | _ => .portal

/-- What an access is to a near bank's role (R156). -/
inductive NearKind where
  | load | store | rmw | ldp | stp
  deriving DecidableEq, Repr

/-- Whether a role accepts an access (R156). -/
def roleTakes (r : Role) (k : NearKind) : Bool :=
  match r, k with
  | .buf, .load | .buf, .store | .buf, .rmw => true
  | .line, .load | .line, .store => true
  | .pres, .load | .pres, .ldp | .pres, .stp => true
  | _, _ => false

/-- How the checks of an access come out where it stands. -/
inductive Chk where
  /-- Its units, and what it was translated from. -/
  | ok (us : List MUnit) (vas : List VaRef)
  /-- A segment fault of a kind (R412). -/
  | fault (kind : Nat)
  /-- A translation that no structure holds (R403). -/
  | miss (nd : Node) (vas : List VaRef)
  /-- A cached translation that refuses the access: cause and address (R401). -/
  | denied (nd : Node) (cause va : Nat) (vas : List VaRef)

/-- Checks an access of the near space (R156): bounds, locality, role. -/
def State.checkNear (s : State) (p : Place) (x : Lay) (k : NearKind) (elems : List (Nat × Nat)) (dat cmp : List Byte) : Chk :=
  let bytes := elems.flatMap fun e => (List.range e.2).map fun i => e.1 + i
  if bytes.any fun a => decide (x.nbanks * 65536 ≤ a) then .fault 5
  else
    let banks := bytes.map fun a => (x.nearMap a).1
    let foreign := match placeBank p with | some b => banks.any fun a => a != b | none => false
    if foreign then .fault 6
    else if banks.any fun a => match x.bankAt? a with | some b => !(roleTakes b.role k) | none => true then .fault 7
    else .ok (cutAll elems dat cmp) []
where
  /-- The units of every element in order. -/
  cutAll : List (Nat × Nat) → List Byte → List Byte → List MUnit
    | [], _, _ => []
    | (a, n) :: es, d, c => s.nearUnits x a n (d.take n) (c.take n) ++ cutAll es (d.drop n) (c.drop n)

/-- A piece of a translated access: the structure that translates it, its address and length. -/
structure VPiece where
  unit : TlbUnit
  va : Nat
  len : Nat
  deriving DecidableEq, Repr

/-- The pieces of a far element: its page's reel translates (R402). -/
def farPieces (p : Place) (va n : Nat) : List VPiece :=
  (regionPieces va n).map fun q => ⟨.reel p.ctx p.slot p.pid, q.1, q.2⟩

/-- The pieces of a portal element: a host's are cut where its portals part (R470), a peer's at 64 KiB regions. -/
def portalPieces (target va n : Nat) : List VPiece :=
  if target = 0 then (cutAt 4096 (n / 4096 + 2) va n).map fun q => ⟨.portal (q.1 / 4096 % 2), q.1, q.2⟩
  else (regionPieces va n).map fun q => ⟨.portal (peerPortal (Fin.ofNat 12 (target - 1))), q.1, q.2⟩

/-- The node that a target of a portal address names. -/
def nodeOfTarget (t : Nat) : Node := if t = 0 then .host else .peer (Fin.ofNat 12 (t - 1))

/-- Cached leaves of every piece: the physical ranges, or why not. far refuses host and peer leaves (R469). -/
def State.lookPieces (s : State) (c : CtxId) (need : Need) (far : Bool) : List VPiece → Except (Option (Nat × Nat)) (List (Nat × Leaf × Nat))
  | [] => .ok []
  | v :: vs =>
    match s.tlbFind v.unit c (regionOf v.va) with
    | none => .error none
    | some lf =>
      if !(lf.grants need) || s.breaches c lf || (far && lf.mt != 0) then .error (some (2, v.va))
      else
        match s.lookPieces c need far vs with
        | .error e => .error e
        | .ok ps => .ok ((lf.pa + v.va % 65536, lf, v.len) :: ps)

/-- Units of the physical ranges of pieces, data and compare bytes alongside. -/
def State.physUnits (s : State) (nd : Node) : List VPiece → List (Nat × Leaf × Nat) → List Byte → List Byte → List MUnit
  | v :: vs, (a, _, n) :: ps, d, c =>
    ((s.cut nd a n).map fun q =>
        ⟨nd, q.1, q.2, (d.drop (q.1 - a)).take q.2, (c.drop (q.1 - a)).take q.2, v.va + (q.1 - a), v.va⟩)
      ++ s.physUnits nd vs ps (d.drop n) (c.drop n)
  | _, _, _, _ => []

/-- The addresses of pieces, as a request remembers them. -/
def vaRefs (ps : List VPiece) : List VaRef := ps.map fun v => ⟨v.va, v.len⟩

/-- Checks a far access of a station (R153, R157). -/
def State.checkFar (s : State) (p : Place) (need : Need) (elems : List (Nat × Nat)) (dat cmp : List Byte) : Chk :=
  if elems.any fun e => !(rangeCanonical e.1 e.2) then .fault 3
  else
    let ps := elems.flatMap fun e => farPieces p e.1 e.2
    match s.lookPieces p.ctx need true ps with
    | .error none => .miss .hbm (vaRefs ps)
    | .error (some (cause, va)) => .denied .hbm cause va (vaRefs ps)
    | .ok qs => .ok (s.physUnits .hbm ps qs dat cmp) (vaRefs ps)

/-- Whether leaves name the target's memory (R469). -/
def leavesMatch (t : Nat) (qs : List (Nat × Leaf × Nat)) : Bool :=
  qs.all fun q => if t = 0 then q.2.1.mt == 1 else q.2.1.mt == 2 && q.2.1.port + 1 == t

/-- Checks a portal access of a station (R157, R469). Every element names a target of its own. -/
def State.checkPortal (s : State) (p : Place) (need : Need) : List (Nat × Nat) → List Byte → List Byte → Chk
  | [], _, _ => .ok [] []
  | (ea, n) :: es, d, c =>
    match xTarget s p.ctx ea with
    | none => .fault 3
    | some t =>
      let ps := portalPieces t (xVa ea) n
      match s.lookPieces p.ctx need false ps with
      | .error none => .miss (nodeOfTarget t) (vaRefs ps)
      | .error (some (cause, va)) => .denied (nodeOfTarget t) cause va (vaRefs ps)
      | .ok qs =>
        if !(leavesMatch t qs) then .fault 3
        else
          match s.checkPortal p need es (d.drop n) (c.drop n) with
          | .ok us vs => .ok (s.physUnits (nodeOfTarget t) ps qs (d.take n) (c.take n) ++ us) (vaRefs ps ++ vs)
          | other => other

/-! ### Walks and events (R403, R404) -/

/-- The structure that translates an address of a request; a request still to be translated names its node. -/
def Req.unitFor (q : Req) (va : Nat) : TlbUnit :=
  if q.portal then
    match q.units with
    | ⟨.peer n, _, _, _, _, _, _⟩ :: _ => .portal (peerPortal n)
    | _ => .portal (va / 4096 % 2)
  else .reel q.place.ctx q.place.slot q.place.pid

/-- An address of 57 bits sign-extended (R469). -/
def sext57 (va : Nat) : DWord := BitVec.ofInt 64 (sextN 57 va)

/-- The pieces a request still has to translate: those that its structure does not hold. -/
def State.untranslated (s : State) (q : Req) : List VaRef :=
  q.vas.filter fun v => (s.tlbFind (q.unitFor v.va) q.place.ctx (regionOf v.va)).isNone

/-- The reel or portal that holds the translation-wait entry of a parked request (R403). -/
def State.waitUnit (s : State) (q : Req) : TlbUnit := q.unitFor ((s.untranslated q ++ q.vas).headD ⟨0, 0⟩).va

/-- The streams of a reel that are parked on a fault, each with an entry (R403). -/
def State.streamWaits (s : State) : TlbUnit → Nat
  | .reel c l pg =>
    match (s.lay? c l).bind fun x => x.reel? pg.val with
    | some r => (r.streams.toList.filter fun (st : Stream) => st.parked.isSome).length
    | none => 0
  | _ => 0

/-- The reel through which a thread's fibre instruction reads (R300). -/
def Thread.fibreReel (th : Thread) (c : CtxId) : Option TlbUnit :=
  let reel (o : FForm) : Option TlbUnit := some (.reel c (Fin.ofNat 8 o.ls.toNat) (Fin.ofNat 64 o.pg.toNat))
  match decodeWord th.word with
  | .ok (.fibOpen o) | .ok (.fibSkip o) | .ok (.fibLoad o) => reel o
  | _ => none

/-- The threads of a context whose fibre instruction is parked on a fault at a reel, each with an entry (R300, R403). -/
def State.fibreWaits (s : State) : TlbUnit → Nat
  | .reel c l pg => ((s.ctx c).threads.toList.filter fun th =>
      (match th.wait with | .fibre _ _ => true | _ => false) && th.fibreReel c == some (.reel c l pg)).length
  | _ => 0

/-- The translation-wait entries of a reel or portal in use (R403). -/
def State.waitEntries (s : State) (u : TlbUnit) : Nat :=
  (s.reqs.filter fun q => (match q.stage with | .walk | .event _ => true | _ => false) && s.waitUnit q == u).length
    + s.streamWaits u + s.fibreWaits u

/-- Whether a reel of 64 translation-wait entries, or a portal of 256, has one free (R403). -/
def State.waitFree (s : State) (u : TlbUnit) : Bool :=
  decide (s.waitEntries u < match u with | .portal _ => 256 | _ => 64)

/-- Where a request that needs a walk waits: in an entry, or to be sent again after 64 cycles (R403). -/
def State.waitStage (s : State) (q : Req) : Stage := if s.waitFree (s.waitUnit q) then .walk else .retry (s.cyc + 64)

/-- The key of R404: whether an awaiting event is that of a station's access. -/
def eventMatches (e : Event) (p : Place) (va : Nat) (wr : Bool) : Bool :=
  e.kind.val == 1 && e.lay == p.slot && e.pid == p.pid && e.src == p.sid.setWidth 8 && e.region == regionOf va
    && e.access.getLsbD 0 == wr

/-- One request more under an event, awaiting and still to be written alike (R404, R408). -/
def joinCount (tag : BitVec 16) (es : List Event) : List Event :=
  es.map fun e => if e.tag == tag && e.waiting then { e with reqs := min (2 ^ 32 - 1) (e.reqs + 1) } else e

/-- A station's request joins the event of its key, or raises one (R404): the tag. -/
def State.joinEvent (s : State) (q : Req) (cause va : Nat) : BitVec 16 × State :=
  let x := s.ctx q.place.ctx
  match x.awaiting.find? fun e => eventMatches e q.place va q.wr with
  | some e =>
    (e.tag, s.modCtx q.place.ctx fun y =>
      { y with awaiting := joinCount e.tag y.awaiting, heldEvents := joinCount e.tag y.heldEvents })
  | none =>
    s.raiseEvent q.place.ctx
      { kind := 1, tag := 0, waiting := true, lay := q.place.slot, pid := q.place.pid, src := q.place.sid.setWidth 8,
        sub := 0, cause := BitVec.ofNat 8 cause, access := BitVec.ofNat 8 ((if q.wr then 1 else 0) + if q.atomic then 2 else 0),
        region := regionOf va, reqs := 1, va := sext57 va, fw := 0, loc := 0, r := none }

/-- What a request's access needs of its leaves (R400). -/
def Req.need (q : Req) : Need := ⟨!q.wr || q.atomic, q.wr, false⟩

/-- An execution parked on a translation goes on: its instruction is performed anew where it stands. -/
def State.unparkExec (s : State) (q : Req) : State :=
  let s1 := s.dropReq q.id
  match q.owner with
  | .exec x => s1.modStation q.place fun st =>
      { st with frames := st.frames.map fun f => if f.id = x && f.st == .parked q.id then { f with st := .resumed } else f }
  | _ => s1

/-- A walk of a request fails: it parks under an event (R403, R404). -/
def State.walkFails (s : State) (q : Req) (cause va : Nat) : State :=
  let (tag, s1) := s.joinEvent q cause va
  s1.modReq q.id fun y => { y with stage := .event tag }

/-- The region that a parked request is to have walked, by context (R403). -/
def State.walkKey (s : State) (q : Req) : Option (CtxId × Nat) :=
  match q.stage, s.untranslated q with
  | .walk, v :: _ => some (q.place.ctx, regionOf v.va)
  | _, _ => none

/-- Puts a request before those that missed after it. -/
def insertMiss (q : Req) : List Req → List Req
  | [] => [q]
  | y :: ys => if q.born < y.born || (q.born == y.born && decide (q.id < y.id)) then q :: y :: ys else y :: insertMiss q ys

/-- The regions that the 64 walkers of a die are walking: those of its misses, in order of arrival (R403). -/
def State.walking (s : State) (die : Nat) : List (CtxId × Nat) :=
  let misses := (s.reqs.filter fun q => q.stage == .walk && s.dieOf q.place == die).foldr insertMiss []
  (misses.filterMap s.walkKey).eraseDups.take 64

/-- A walk's answer at one request that waited for it: a leaf that grants the access is cached, and the request goes on
once nothing is missing; one that does not is not cached, so that a retry walks again (R449). -/
def State.walked (s : State) (q : Req) (va : Nat) : Except Nat Leaf → State
  | .error e => s.walkFails q e va
  | .ok lf =>
    if !(lf.grants q.need) || (!q.portal && lf.mt != 0) then s.walkFails q 2 va
    else
      let s1 := s.tlbFill (q.unitFor va) q.place.ctx (regionOf va) lf
      if (s1.untranslated q).isEmpty then s1.unparkExec q else s1

/-- TRANSLATION_WALK_DONE (R403): the walk that a parked request waits for ends, for every request of the die that
shares it, once no row that it reads is under repair (R486). -/
def execTranslationWalkDone (r : Nat) (s : State) : Res :=
  match s.req? r with
  | none => .next s
  | some q =>
    if q.stage ≠ .walk then .next s
    else
      match s.untranslated q with
      | [] => .next (s.unparkExec q)
      | v :: _ =>
        let key := (q.place.ctx, regionOf v.va)
        let die := s.dieOf q.place
        if !((s.walking die).contains key) || s.walkBusy q.place.ctx v.va then .next s
        else
          let s1 := s.walkScan q.place.ctx v.va
          let answer := s1.walk q.place.ctx v.va
          .next (s.reqs.foldl (fun z y =>
            if s.walkKey y == some key && s.dieOf y.place == die then z.walked y ((s.untranslated y).headD v).va answer else z) s1)

/-- TRANSLATION_RETRY_RESEND (R403): sent again 64 fabric cycles after a retry. -/
def execTranslationRetryResend (r : Nat) (s : State) : Res :=
  match s.req? r with
  | none => .next s
  | some q =>
    match q.stage with
    | .retry t =>
      if q.op ≠ .ldp && t ≤ s.cyc then .next (s.modReq r fun y => { y with stage := s.waitStage q, born := s.cyc }) else .next s
    | _ => .next s

/-! ### The fault queue (R408, R415) -/

/-- FAULT_EVENT_WRITE (R408): the oldest held event is written while the queue has room; INTCTL raises the context's
vector (R468). -/
def execFaultEventWrite (c : CtxId) (s : State) : Res :=
  let x := s.ctx c
  match x.heldEvents with
  | [] => .next s
  | e :: rest =>
    let size := 2 ^ (x.inForce.fqdepth.toNat % 16)
    let room := decide ((x.fqhead - x.inForce.fqtail).toNat < size)
    if x.st ≠ .free && (room || (s.job? (.faultEventWrite c) x.fqhead.toNat).isSome) then
      match s.devPut (.faultEventWrite c) x.fqhead.toNat
          (jobUnits [(x.inForce.fqbase.toNat + 128 * (x.fqhead.toNat % size), 128)] (eventBytes e)) with
      | (false, s1) => .next s1
      | (true, s1) =>
        let s2 := s1.modCtx c fun y => { y with heldEvents := rest, fqhead := y.fqhead + 1 }
        .next (if x.port.intctl.getLsbD 0 then s2.raiseVec c.val else s2)
    else .next s

/-- EVENT_TRAP (R415): the event thread takes its trap at a boundary; an instruction that R277 lets be left is left. -/
def execEventTrap (c : CtxId) (s : State) : Res :=
  let x := s.ctx c
  match (List.finRange 8).find? fun t => x.eventTrapDue t with
  | none => .next s
  | some t =>
    let th := x.thread t
    if x.st = .running && x.preempt.isNone && th.yields then .next (s.eventTrapAt c t) else .next s

end Sys2Proof.Machine
end

