-- ==== Sys2Proof/Machine/Stream.lean ====
section
/-!
DEFINITION. Reel streams (08 R250 to R265): descriptors, the memory a stream reads and writes, the record it forms, the
records it accepts, compressed extents, requantising. An operation of a stream is worked out again from its beginning
until every unit that it reads or writes has been performed, one in a turn; what it has read stands in the slot.
-/
namespace Sys2Proof.Machine

/-! ### Descriptors (R251, R252) -/

/-- A stream descriptor. -/
structure Desc where
  base : Nat
  aux : Nat
  counts : List Nat
  strides : List Int
  far : Bool
  legalSpace : Bool
  dims : Nat
  sat : Bool
  mode : Nat
  e : Nat
  rf : BitVec 4
  mf : BitVec 4
  param : Nat
  reserved : Nat
  deriving DecidableEq, Repr

/-- The descriptor of 64 bytes. -/
def descOf (bs : List Byte) : Desc :=
  let ctl := natAt bs 48 8
  { base := natAt bs 0 8, aux := natAt bs 8 8, counts := (List.range 4).map fun i => natAt bs (16 + 4 * i) 4,
    strides := (List.range 4).map fun i => sextN 32 (natAt bs (32 + 4 * i) 4), far := ctl.testBit 22,
    legalSpace := !(ctl.testBit 23), dims := bitsNat 21 20 ctl + 1, sat := ctl.testBit 19, mode := bitsNat 18 16 ctl,
    e := bitsNat 15 8 ctl, rf := BitVec.ofNat 4 (bitsNat 7 4 ctl), mf := BitVec.ofNat 4 ctl, param := natAt bs 56 8,
    reserved := ctl / 2 ^ 24 }

/-- Bits of an element of a format field; raw counts bytes (R252). -/
def codeBits (f : BitVec 4) : Nat := if f = 0 then 8 else fmtBits (fmtOf f)

/-- Whether a format is mx8 or mx4. -/
def isMx (f : BitVec 4) : Bool := f == 12 || f == 13

/-- Whether a reel forms scales for the records or elements it makes (R256). -/
def Desc.formsScale (d : Desc) : Bool := isMx d.rf && d.mf != d.rf

/-- Records named by the counts (R253). -/
def Desc.total (d : Desc) : Nat := (d.counts.take d.dims).foldl (· * ·) 1

/-- Bytes of memory under one record. -/
def Desc.memBytes (d : Desc) : Nat := (d.e * codeBits d.mf + 7) / 8

/-- Payload words of one record (R255). -/
def Desc.recWords (d : Desc) : Nat := (d.e * codeBits d.rf + 31) / 32

/-- The address of record n (R253). -/
def Desc.addr (d : Desc) (n : Nat) : Nat := narrow 64 (go d.dims d.counts d.strides n)
where
  /-- The sum over the dimensions left. -/
  go : Nat → List Nat → List Int → Nat → Int
    | k + 1, c :: cs, s :: ss, n => ((n % c : Nat) : Int) * s + go k cs ss (n / c)
    | _, _, _, _ => d.base

/-- Whether a descriptor keeps the common rules of R252 and the scale rule of R256. -/
def Desc.common (d : Desc) : Bool :=
  d.reserved == 0 && d.legalSpace && d.mode < 4 && 1 ≤ d.e && d.e ≤ (if d.rf = 0 then 64 else 128)
    && !(d.counts.contains 0) && d.recWords ≤ 16 && (d.rf == 0) == (d.mf == 0) && d.rf.toNat < 14 && d.mf.toNat < 14
    && (!d.formsScale || d.e == (if d.rf = 13 then 128 else 64))

/-- The hull of addresses that a strided read touches, as integers (R262). -/
def Desc.span (d : Desc) : Int × Int :=
  let ks := (d.counts.zip d.strides).take d.dims
  let lo := ks.foldl (fun (a : Int) k => a + min 0 (((k.1 : Int) - 1) * k.2)) d.base
  let hi := ks.foldl (fun (a : Int) k => a + max 0 (((k.1 : Int) - 1) * k.2)) d.base
  (lo, hi + d.memBytes)

/-- Elements of a whole stream (R262). -/
def Desc.elems (d : Desc) : Nat := d.total * d.e

/-- The scale array of a requantising stream: one byte for each block of 128 elements (R262). -/
def Desc.scaleSpan (d : Desc) : Int × Int := (d.param, (d.param + (d.elems + 127) / 128 : Nat))

/-- The ranges that a requantising stream reads: its elements, and the scales of an mx memory format. -/
def Desc.sources (d : Desc) : List (Int × Int) := d.span :: if isMx d.mf then [d.scaleSpan] else []

/-- The ranges that it writes: its elements, and the scales of an mx record format. -/
def Desc.targets (d : Desc) : List (Int × Int) :=
  ((d.aux : Int), ((d.aux + (d.elems * codeBits d.rf + 7) / 8 : Nat) : Int)) :: if isMx d.rf then [d.scaleSpan] else []

/-- Whether a requantising stream's destination ranges meet its source ranges (R262). -/
def Desc.overlaps (d : Desc) : Bool :=
  d.sources.any fun a => d.targets.any fun b => decide (a.1 < b.2) && decide (b.1 < a.2)

/-- Whether a descriptor is valid for its form at a lay of nb near banks (R252, R262, R265). -/
def Desc.valid (d : Desc) (f : SForm) (nb : Nat) : Bool :=
  d.common && match f with
  | .aff =>
    d.param / 2 ^ 28 == 0 && bitsNat 3 2 d.param == 0
      && (if d.param.testBit 1 then
            let b0 := bitsNat 15 4 d.param
            let b := bitsNat 27 16 d.param
            d.param.testBit 0 && !d.far && d.base == 0 && 1 ≤ b && b ≤ 1024 && b0 + b ≤ nb && d.counts.getD 1 1 ≤ 2 ^ 24
          else !(d.param.testBit 0) || d.total ≤ 2 ^ 24)
  | .gat => d.dims == 1 && d.param == 0
  | .sca => d.dims == 1 && d.param < 16 && d.e * codeBits d.rf ≤ 32 * d.param
  | .cmp =>
    d.dims == 1 && d.param < 2 && d.e * codeBits d.mf == 512 && (d.mf == d.rf || codeBits d.rf < codeBits d.mf)
  | .rq => d.far && !(isMx d.mf && isMx d.rf) && !d.overlaps
  | .fib => true

/-! ### Slots -/

/-- Changes a stream slot. -/
def State.modStream (s : State) (c : CtxId) (l : LaySlot) (pg : Pid) (n : Fin 4) (f : Stream → Stream) : State :=
  s.modLay c l fun x => x.modStream pg.val n f

/-- The stream of a slot. -/
def State.stream? (s : State) (c : CtxId) (l : LaySlot) (pg : Pid) (n : Fin 4) : Option Stream :=
  (s.lay? c l).bind fun x => x.stream? pg.val n

/-- Whether a slot runs a stream: started and not ended. -/
def Stream.running (x : Stream) : Bool := x.st == .running || x.st == .starting

/-- A stream will end with a status, a detail and a level (R258). -/
def State.endStream (s : State) (c : CtxId) (l : LaySlot) (pg : Pid) (n : Fin 4) (status detail level : Nat) : State :=
  s.modStream c l pg n fun x => { x with ending := some (status, detail, level) }

/-- A stream between two operations; one that is parked keeps what it has read and how far it has written (R257). One
that reel.stop has stopped meanwhile ends (R296). -/
def Stream.opEnded (st : Stream) : Stream :=
  if st.parked.isSome then st
  else { st with seen := [], used := 0, wdone := 0, issued := false, stopping := false, skipping := false,
                 ending := if st.stopping && st.ending.isNone then some (1, 0, 0) else st.ending }

/-! ### The memory of a stream (R257) -/

/-- Why an operation of a stream stops for this turn. -/
inductive SStop where
  /-- It parks on a translation cause at an address. -/
  | park (cause va : Nat)
  /-- It ends the stream with a status. -/
  | ends (status : Nat)
  /-- A unit of n bytes has been performed, and rest bytes of its piece are left (R387); 0 and 0 where the access waits
  for a row under repair (R486) or at its bank. -/
  | moved (n rest : Nat)
  /-- A fibre read of n bytes at an address has still to be made, of which k units are performed (R268). -/
  | want (va n k : Nat)
  deriving DecidableEq, Repr

/-- What a turn of an operation gives: the bytes performed and those left of the piece, or none where the operation
came to its end or the stream stopped; and the state. -/
abbrev SOp := Option (Nat × Nat) × State

/-- A physical piece of a stream's memory. -/
structure SPiece where
  node : Node
  addr : Nat
  len : Nat
  deriving DecidableEq, Repr

/-- The first piece of a far range whose leaf is not HBM. -/
def notHbm : List (Nat × Nat) → List (Nat × Leaf × Nat) → Option Nat
  | v :: vs, p :: ps => if p.2.1.mt ≠ 0 then some v.1 else notHbm vs ps
  | _, _ => none

/-- A near range of a stream as pieces, or the status that ends it (R156, R257). -/
def State.nearPieces (s : State) (x : Lay) (write : Bool) (a n : Nat) : Except SStop (List SPiece) :=
  if x.nbanks * 65536 < a + n then .error (.ends 0x14)
  else
    let ps := (pieces (s.nearCut x) a n).map fun p => let (k, o) := x.nearMap p.1; (k, o, p.2)
    let bad := ps.any fun p =>
      match x.bankAt? p.1 with
      | some b => !(roleTakes b.role (if write then .store else .load))
      | none => true
    if bad then .error (.ends 0x16) else .ok (ps.map fun p => ⟨.bank p.1, p.2.1, p.2.2⟩)

/-- A range of a stream's memory translated through its reel (R257). -/
def State.streamAt (s : State) (c : CtxId) (l : LaySlot) (pg : Pid) (far write : Bool) (a n : Nat) :
    Except SStop (List SPiece) × State :=
  if n = 0 then (.ok [], s)
  else if far then
    if !(rangeCanonical a n) then (.error (.park 1 a), s)
    else if s.walkWaits (.reel c l pg) c a n then (.error (.moved 0 0), s)
    else
      match s.transPieces (.reel c l pg) c ⟨!write, write, false⟩ (regionPieces a n) with
      | (.error (e, v), s1) => (.error (.park e v), s1)
      | (.ok ps, s1) =>
        match notHbm (regionPieces a n) ps with
        | some v => (.error (.park 2 v), s1)
        | none => (.ok (ps.map fun p => ⟨.hbm, p.1, p.2.2⟩), s1)
  else
    match s.lay? c l with
    | none => (.error (.ends 0x14), s)
    | some x => (s.nearPieces x write a n, s)

/-- Bytes of pieces, and whether one is poisoned. -/
def State.pieceBytes (s : State) (c : CtxId) (l : LaySlot) : List SPiece → List Byte × Bool
  | [] => ([], false)
  | p :: ps =>
    let (bs, q) := match p.node with
      | .bank k =>
        match (s.lay? c l).bind fun x => x.bankAt? k with
        | some b => (b.read p.addr p.len, isPoisoned 8 b.poison (b.place p.addr) p.len)
        | none => (List.replicate p.len 0, false)
      | _ => s.hbmRead p.addr p.len
    let (cs, r) := s.pieceBytes c l ps
    (bs ++ cs, q || r)

/-- Whether a near request of a reel waits at its bank: for a free entry of the window, or for an older operation there
that has a byte of it still to touch (R235, R236). It is performed as it enters, and so holds no entry afterwards. -/
def State.bankWaits (s : State) (c : CtxId) (l : LaySlot) (k a n : Nat) : Bool :=
  match (s.lay? c l).bind fun x => x.bankAt? k with
  | none => false
  | some b =>
    decide (32 ≤ b.window.length) || s.reqs.any fun r =>
      r.stage == .window && r.place.ctx == c && r.place.slot == l && r.units.any fun v => unitsMeet ⟨.bank k, a, n, [], [], 0, 0⟩ v

/-- Whether pieces wait: for a row under repair (R486), or at a bank. -/
def State.piecesWait (s : State) (c : CtxId) (l : LaySlot) (ps : List SPiece) : Bool :=
  ps.any fun p => match p.node with
    | .bank k => s.bankWaits c l k p.addr p.len
    | _ => s.rowsBusy p.addr p.len

/-- A read of pieces finds the errors that have struck them (R478). -/
def State.pieceScan (s : State) (c : CtxId) (l : LaySlot) (ps : List SPiece) : State :=
  ps.foldl (fun z p => match p.node with | .bank k => z.bankScan c l k p.addr p.len | _ => z.hbmScan p.addr p.len) s

/-- Bytes written to pieces. -/
def State.putPieces (s : State) (c : CtxId) (l : LaySlot) : List SPiece → List Byte → State
  | [], _ => s
  | p :: ps, bs =>
    let s1 := match p.node with
      | .bank k => s.modLay c l fun x => x.modBank k fun b => b.write p.addr (bs.take p.len)
      | _ => (s.dirtyLines p.addr p.len).hbmWrite p.addr (bs.take p.len)
    s1.putPieces c l ps (bs.drop p.len)

/-- Pieces marked poisoned, their bytes left (R257). -/
def State.markPieces (s : State) (c : CtxId) (l : LaySlot) (ps : List SPiece) : State :=
  ps.foldl (fun z p =>
    match p.node with
    | .bank k => z.modLay c l fun x => x.modBank k fun b => b.mark p.addr p.len
    | _ => z.hbmMark p.addr p.len) s

/-- The pieces of at most 64 bytes of a stream's access, each an operation of its reel (R387). -/
def streamPieces (a n : Nat) : List (Nat × Nat) := if n = 0 then [] else if n ≤ 64 then [(a, n)] else pieces 64 a n

/-- The units of a piece (R328, R331). -/
def State.pieceUnits (s : State) (c : CtxId) (l : LaySlot) (far : Bool) (a n : Nat) : List (Nat × Nat) :=
  if far then (regionPieces a n).flatMap fun p => s.cut .hbm p.1 p.2
  else match s.lay? c l with
    | some x => pieces (s.nearCut x) a n
    | none => [(a, n)]

/-- Units in order, each with the bytes of its piece that come after it. -/
def unitsRest : List (Nat × Nat) → List (Nat × Nat × Nat)
  | [] => []
  | u :: us => (u.1, u.2, (us.map Prod.snd).sum) :: unitsRest us

/-- The units of a stream's access, with the bytes of the piece after each. -/
def State.streamUnits (s : State) (c : CtxId) (l : LaySlot) (far : Bool) (a n : Nat) : List (Nat × Nat × Nat) :=
  (streamPieces a n).flatMap fun p => unitsRest (s.pieceUnits c l far p.1 p.2)

/-- The units ahead that belong to the piece of the first. -/
def pieceAhead : List (Nat × Nat × Nat) → List (Nat × Nat × Nat)
  | [] => []
  | u :: us => u :: if u.2.2 = 0 then [] else pieceAhead us

/-- Where units lie. -/
def State.placeUnits (s : State) (c : CtxId) (l : LaySlot) (pg : Pid) (far write : Bool) :
    List (Nat × Nat × Nat) → Except SStop (List SPiece) × State
  | [] => (.ok [], s)
  | u :: us =>
    match s.streamAt c l pg far write u.1 u.2.1 with
    | (.error e, s1) => (.error e, s1)
    | (.ok ps, s1) =>
      match s1.placeUnits c l pg far write us with
      | (.error e, s2) => (.error e, s2)
      | (.ok qs, s2) => (.ok (ps ++ qs), s2)

/-- The places of the units that one event performs, of those ahead: the first, or under the bring-up mode those of its
piece at its stack (R331). -/
def State.eventAt (s : State) (c : CtxId) (l : LaySlot) (pg : Pid) (far write : Bool) (us : List (Nat × Nat × Nat)) :
    Except SStop (List SPiece) × State :=
  match s.placeUnits c l pg far write (if far && s.secure.bringup.getLsbD 0 then pieceAhead us else us.take 1) with
  | (.error e, s1) => (.error e, s1)
  | (.ok ps, s1) => (.ok (if far then ps.take (s1.stackEvent 64 (ps.map fun p => (p.addr, p.len))).length else ps), s1)

/-- What an event on the units ahead moves: its bytes, and those left of its piece. -/
def movedBy (us : List (Nat × Nat × Nat)) : SStop := .moved (us.map fun u => u.2.1).sum ((us.getLast?.map fun u => u.2.2).getD 0)

/-- Units read at their places. -/
def State.readUnits (s : State) (c : CtxId) (l : LaySlot) : List (Nat × Nat × Nat) → List SPiece → List SeenUnit
  | u :: us, p :: ps => let (bs, q) := s.pieceBytes c l [p]; ⟨u.1, bs, q⟩ :: s.readUnits c l us ps
  | _, _ => []

/-- A stream reads n bytes at an address: the next of the units that its operation has read, in the order of its reads
(R312). Where some are still to be read, the whole range is checked and one event is performed. -/
def State.streamRead (s : State) (c : CtxId) (l : LaySlot) (pg : Pid) (sl : Fin 4) (far : Bool) (a n : Nat) :
    Except SStop (List Byte × Bool) × State :=
  let st := (s.stream? c l pg sl).getD Stream.fresh
  let us := s.streamUnits c l far a n
  let got := (st.seen.drop st.used).take us.length
  if got.length = us.length then
    (.ok (got.flatMap SeenUnit.bytes, got.any SeenUnit.poison), s.modStream c l pg sl fun x => { x with used := x.used + us.length })
  else
    match s.streamAt c l pg far false a n with
    | (.error e, s1) => (.error e, s1)
    | (.ok _, s1) =>
      match s1.eventAt c l pg far false (us.drop got.length) with
      | (.error e, s2) => (.error e, s2)
      | (.ok ps, s2) =>
        if s2.piecesWait c l ps then (.error (.moved 0 0), s2)
        else
          let now := (us.drop got.length).take ps.length
          let s3 := s2.pieceScan c l ps
          (.error (movedBy now),
           s3.modStream c l pg sl fun x => { x with seen := x.seen ++ s3.readUnits c l now ps, issued := true })

/-- A range to be written: address, length, bytes or a mark. -/
abbrev SWrite := Nat × Nat × Option (List Byte)

/-- The units of ranges to be written, each with the bytes of its piece after it and its own bytes. -/
def State.writeUnits (s : State) (c : CtxId) (l : LaySlot) (far : Bool) (ws : List SWrite) :
    List (Nat × Nat × Nat × Option (List Byte)) :=
  ws.flatMap fun w => (s.streamUnits c l far w.1 w.2.1).map fun u =>
    (u.1, u.2.1, u.2.2, w.2.2.map fun bs => (bs.drop (u.1 - w.1)).take u.2.1)

/-- Checks every range before one is written. -/
def State.checkWrites (s : State) (c : CtxId) (l : LaySlot) (pg : Pid) (far : Bool) : List SWrite → Except SStop Unit × State
  | [] => (.ok (), s)
  | w :: ws =>
    match s.streamAt c l pg far true w.1 w.2.1 with
    | (.error e, s1) => (.error e, s1)
    | (.ok _, s1) => s1.checkWrites c l pg far ws

/-- A stream writes ranges in order: the next unit not yet written is performed; once all are, the answer is ok. -/
def State.streamWrites (s : State) (c : CtxId) (l : LaySlot) (pg : Pid) (sl : Fin 4) (far : Bool) (ws : List SWrite) :
    Except SStop Unit × State :=
  match s.checkWrites c l pg far ws with
  | (.error e, s1) => (.error e, s1)
  | (.ok _, s1) =>
    let st := (s1.stream? c l pg sl).getD Stream.fresh
    let us := (s1.writeUnits c l far ws).drop st.wdone
    let at_ (u : Nat × Nat × Nat × Option (List Byte)) : Nat × Nat × Nat := (u.1, u.2.1, u.2.2.1)
    if us.isEmpty then (.ok (), s1)
    else
      match s1.eventAt c l pg far true (us.map at_) with
      | (.error e, s2) => (.error e, s2)
      | (.ok ps, s2) =>
        if s2.piecesWait c l ps then (.error (.moved 0 0), s2)
        else
          let now := us.take ps.length
          let s3 := (now.zip ps).foldl (fun z k =>
            match k.1.2.2.2 with | some b => z.putPieces c l [k.2] b | none => z.markPieces c l [k.2]) s2
          (.error (movedBy (now.map at_)), s3.modStream c l pg sl fun x => { x with wdone := x.wdone + ps.length, issued := true })

/-- A stream's operation stops for this turn: it has moved a unit, a fault event is raised and the stream parks in a
translation-wait entry of its reel, tried again while none is free (R257, R403,
R404), or the stream ends. -/
def State.streamStops (s : State) (c : CtxId) (l : LaySlot) (pg : Pid) (n : Fin 4) (wr : Bool) : SStop → SOp
  | .moved m rest => (some (m, rest), s)
  | .want _ _ _ => (none, s)
  | .ends st => (none, s.endStream c l pg n st 0 0)
  | .park cause va =>
    if !(s.waitFree (.reel c l pg)) then (some (0, 0), s)
    else
      let (tag, s1) := s.raiseEvent c
        { kind := 1, tag := 0, waiting := true, lay := l, pid := pg, src := 0x70, sub := BitVec.ofNat 8 n.val,
          cause := BitVec.ofNat 8 cause, access := if wr then 1 else 0, region := regionOf va, reqs := 1,
          va := BitVec.ofNat 64 va, fw := 0, loc := 0, r := none }
      (none, s1.modStream c l pg n fun x => { x with parked := some tag, issued := true })

/-! ### Records that a stream emits (R44, R255, R256) -/

/-- The elements under one record: their codes and values, whether poison was met, the scale of the first. -/
structure Elems where
  codes : List Nat
  vals : List Val
  poison : Bool
  scale : Byte

/-- The values of elements of mf with the scale bytes of their blocks; i is the stream index of the first. -/
def elemVals (f : Fmt) (mx : Bool) (scs : List Byte) (b0 : Nat) : Nat → List Nat → List Val
  | _, [] => []
  | i, x :: xs => decodeElem f x (if mx then scs.getD (i / 128 - b0) 0 else 0) :: elemVals f mx scs b0 (i + 1) xs

/-- Reads the e elements of record n at an address; scales lie at sc for an mx memory format. -/
def State.streamElems (s : State) (c : CtxId) (l : LaySlot) (pg : Pid) (sl : Fin 4) (d : Desc) (sc n a : Nat) :
    Except SStop Elems × State :=
  match s.streamRead c l pg sl d.far a d.memBytes with
  | (.error e, s1) => (.error e, s1)
  | (.ok (bs, p), s1) =>
    let codes := elemsOf (codeBits d.mf) d.e (natOfBytes bs)
    let i := n * d.e
    let b0 := i / 128
    if isMx d.mf then
      match s1.streamRead c l pg sl d.far (addrPlus sc b0) ((i + d.e - 1) / 128 + 1 - b0) with
      | (.error e, s2) => (.error e, s2)
      | (.ok (scs, q), s2) => (.ok ⟨codes, elemVals (fmtOf d.mf) true scs b0 i codes, p || q, scs.headD 0⟩, s2)
    else (.ok ⟨codes, elemVals (fmtOf d.mf) false [] 0 i codes, p, 0⟩, s1)

/-- Elements of a block rounded under its scale (R27). -/
def blockCodes (f : Fmt) (sc : Byte) (mode : Rm) (vs : List Val) : List Nat :=
  vs.map fun v => ((blockElem f sc v mode 1).1).getD 0

/-- The header of a record that a stream emits (R44). -/
def streamHdr (c : CtxId) (l : LaySlot) (cls : BitVec 3) (n len : Nat) (fmt : BitVec 4) (ck scale : Byte) : Hdr :=
  { lay := l, ctx := c, cls := cls, len := BitVec.ofNat 5 len, fmt := fmt, ck := ck, scale := scale,
    seq := BitVec.ofNat 24 n }

/-- The record of codes of rf (R255). -/
def codesRec (h : Hdr) (d : Desc) (codes : List Nat) : Rec := ⟨h, vofStr (strOfElems (codeBits d.rf) codes), []⟩

/-- The class of a page's reel. -/
def State.reelCls (s : State) (c : CtxId) (l : LaySlot) (pg : Pid) : BitVec 3 :=
  match (s.lay? c l).bind fun x => x.reel? pg.val with
  | some r => r.cls
  | none => 0

/-- The cookie of record n of a stream (R44): bit 0 on the second record of each mx8 block. -/
def Desc.cookie (d : Desc) (n : Nat) : Byte := if d.rf = 12 && n % 2 = 1 then 1 else 0

/-- Record n of a stream from the elements at a; other is the address of the block's other half where a scale is
formed for a half block. The answer holds the scale for the second half, and whether poison was met. The last half of
an odd number of mx8 halves has its scale formed from its own 64 elements: R27 forms one from 128 (DESIGN CHOICE, log
entry 64). -/
def State.formRec (s : State) (c : CtxId) (l : LaySlot) (pg : Pid) (sl : Fin 4) (d : Desc) (sc n a : Nat) (known : Option Byte)
    (other : Option Nat) : Except SStop (Rec × Option Byte × Bool) × State :=
  match s.streamElems c l pg sl d sc n a with
  | (.error e, s1) => (.error e, s1)
  | (.ok x, s1) =>
    let cls := s1.reelCls c l pg
    let hdr (p : Bool) (sc : Byte) := streamHdr c l cls n d.recWords (if p then 15 else d.rf) (d.cookie n) sc
    if d.mf = d.rf then (.ok (codesRec (hdr x.poison x.scale) d x.codes, none, x.poison), s1)
    else if !d.formsScale then
      let (cs, _, p) := roundList (fmtOf d.rf) (rmOf d.mode) d.sat x.vals 1
      (.ok (codesRec (hdr (x.poison || p) 0) d cs, none, x.poison), s1)
    else
      match known with
      | some k => (.ok (codesRec (hdr x.poison k) d (blockCodes (fmtOf d.rf) k (rmOf d.mode) x.vals), none, x.poison), s1)
      | none =>
        let rest : Except SStop Elems × State := match other with
          | some b => s1.streamElems c l pg sl d sc (if n % 2 = 0 then n + 1 else n - 1) b
          | none => (.ok ⟨[], [], false, 0⟩, s1)
        match rest with
        | (.error e, s2) => (.error e, s2)
        | (.ok y, s2) =>
          let k := blockScale (fmtOf d.rf) (blockAmax (x.vals ++ y.vals))
          let p := x.poison || y.poison
          (.ok (codesRec (hdr p k) d (blockCodes (fmtOf d.rf) k (rmOf d.mode) x.vals),
                if n % 2 = 0 && d.rf = 12 && !p then some k else none, p), s2)

/-- A stream's record leaves on its output port. -/
def State.streamEmit (s : State) (c : CtxId) (l : LaySlot) (pg : Pid) (n : Fin 4) (r : Rec) : State :=
  s.modLay c l fun x =>
    match x.linkFrom? ⟨pg, reelSid, n.val⟩ with
    | some k => ((x.push k (.data r)).modStream pg.val n fun y => { y with lastInj := false }).progressed
    | none => x

/-- One record of an affine read (R253). -/
def State.affRead (s : State) (c : CtxId) (l : LaySlot) (pg : Pid) (n : Fin 4) (st : Stream) (d : Desc) : SOp :=
  let i := st.count
  let half := d.formsScale && d.rf == 12
  let other := if half then
      (if i % 2 = 1 then some (d.addr (i - 1)) else if i + 1 < d.total then some (d.addr (i + 1)) else none)
    else none
  match s.formRec c l pg n d d.aux i (d.addr i) (if i % 2 = 1 then st.scale else none) other with
  | (.error e, s1) => s1.streamStops c l pg n false e
  | (.ok (r, k, p), s1) =>
    (none, (s1.streamEmit c l pg n r).modStream c l pg n fun x =>
      { x with count := i + 1, scale := k, poison := x.poison || p,
               ending := if i + 1 = d.total then some (0, 0, 0) else x.ending })

/-- The address that an index word names (R254). -/
def Desc.indexAddr (d : Desc) (x : Word) : Nat := narrow 64 ((d.base : Int) + x.toInt * d.strides.headD 0)

/-- Index words of a record: its first h.len words (R254). -/
def indexLen (r : Rec) : Nat := r.hdr.len.toNat

/-- The poison record of an index record that is poison, or past an error of a compressed read (R254, R260). Its h.len
is that of the gather's records; h.ck is that of its position, as R44 gives a record emitted (DESIGN CHOICE, log entry
65). -/
def State.poisonRec (s : State) (c : CtxId) (l : LaySlot) (pg : Pid) (d : Desc) (n len : Nat) : Rec :=
  ⟨streamHdr c l (s.reelCls c l pg) n len 15 (d.cookie n) 0, vzero, []⟩

/-- Whether a record is handled as one tagged poison when a stream accepts it: it is one, or it is malformed (R255). -/
def Rec.asPoison (r : Rec) : Bool := r.hdr.fmt == 15 || r.malformed

/-- The requests that a record's hand-off must follow (R322). -/
def State.handoffDone (s : State) (r : Rec) : Bool :=
  r.past.all fun q => !(q.relFence || q.scFence) || s.performed q.req

/-- The index word after the one in hand: of the record held, or of the next that waits and whose hand-off is due
(R256, R322); some none where a poison record stands there. -/
def State.nextIndex (s : State) (x : Lay) (pg : Pid) (n : Fin 4) (r : Rec) (ix : Nat) : Option (Option Word) :=
  if ix + 1 < indexLen r then some (some (vword r.pay (ix + 1)))
  else
    match (x.linkTo? ⟨pg, reelSid, n.val⟩).bind fun k => x.links[k]? with
    | some l =>
      match (itemsRecs l.buf).find? fun q => indexLen q != 0 with
      | some q => if !(s.handoffDone q) then none else some (if q.asPoison then none else some (vword q.pay 0))
      | none => none
    | none => none
where
  /-- The records among items. -/
  itemsRecs (is : List Item) : List Rec := is.filterMap fun i => match i with | .data q => some q | .reconf => none

/-- The index word whose record shares the mx8 block of a gather's next record, and whether that word has still to
come (R256). -/
def State.gatherMate (s : State) (x : Lay) (pg : Pid) (n : Fin 4) (st : Stream) (d : Desc) (r : Rec) : Option Word × Bool :=
  let i := st.count
  if !(d.formsScale && d.rf == 12) || r.asPoison then (none, false)
  else if i % 2 = 1 then (if 0 < st.heldIx then some (vword r.pay (st.heldIx - 1)) else none, false)
  else if i + 1 < d.counts.headD 0 then
    let w := s.nextIndex x pg n r st.heldIx
    (w.getD none, w.isNone)
  else (none, false)

/-- A gather emits the record of its next index word (R254); a half block without the word after it waits. -/
def State.gatherEmit (s : State) (c : CtxId) (l : LaySlot) (pg : Pid) (n : Fin 4) (x : Lay) (st : Stream) (d : Desc) : SOp :=
  match st.held with
  | none => (none, s)
  | some r =>
    let i := st.count
    let total := d.counts.headD 0
    let done (s : State) (k : Option Byte) (p : Bool) : SOp :=
      (none, s.modLay c l fun y => (y.modStream pg.val n fun z =>
        let out := z.heldIx + 1 = indexLen r || i + 1 = total
        { z with count := i + 1, scale := k, poison := z.poison || p, held := if out then none else z.held,
                 heldIx := if out then 0 else z.heldIx + 1,
                 ending := if i + 1 = total then some (0, 0, 0) else z.ending }).stir)
    if r.asPoison then done (s.streamEmit c l pg n (s.poisonRec c l pg d i d.recWords)) none true
    else
      match s.gatherMate x pg n st d r with
      | (_, true) => (none, s)
      | (other, false) =>
        match s.formRec c l pg n d d.aux i (d.indexAddr (vword r.pay st.heldIx)) (if i % 2 = 1 then st.scale else none)
            (other.map d.indexAddr) with
        | (.error e, s1) => s1.streamStops c l pg n false e
        | (.ok (q, k, p), s1) => done (s1.streamEmit c l pg n q) k p

/-! ### Records that a stream accepts (R253 to R257) -/

/-- Elements of a record's payload as values, codes past 512 bits zero. -/
def recVals (r : Rec) (e : Nat) : List Val :=
  let f := fmtOf r.hdr.fmt
  (elemsOf (fmtBits f) e (vstr r.pay)).map fun x => decodeElem f x r.hdr.scale

/-- Whether a stream of a memory format takes a record bit for bit (R252, R255): raw, crd, its own format, or raw
memory. -/
def Desc.bitForBit (d : Desc) (r : Rec) : Bool := r.hdr.fmt == 0 || r.hdr.fmt == 14 || d.mf == 0 || r.hdr.fmt == d.mf

/-- The words f0 to f(h.len - 1) of a record as bytes (R255). -/
def Rec.bytes (r : Rec) : List Byte := bytesOfNat (4 * r.hdr.len.toNat) (vstr r.pay)

/-- Codes of the memory format as the bytes under one record. -/
def Desc.pack (d : Desc) (cs : List Nat) : List Byte := bytesOfNat d.memBytes (strOfElems (codeBits d.mf) cs)

/-- The bytes of an accepted record in the memory format, or none for a mark (R255, R257); of a record to be converted
into an mx format nothing is written alone (R27). -/
def Desc.accept (d : Desc) (r : Rec) : Option (List Byte) :=
  if r.asPoison then none
  else if d.bitForBit r then some r.bytes
  else if isMx d.mf then none
  else
    let (cs, _, p) := roundList (fmtOf d.mf) (rmOf d.mode) d.sat (recVals r d.e) 1
    if p then none else some (d.pack cs)

/-! A write into an mx memory format (R26, R27, R256): the mx8 halves of a stream are paired, and a block's scale is
formed from its 128 elements once the records that hold them have been accepted. -/

/-- A record that a failed pairing makes poison (R26). -/
def MxRec.spoil (k : MxRec) : MxRec := { k with r := k.r.poisoned }

/-- Pairs a record with the half 0 that waits (R26): the half that waits afterwards, and the records let go. A half 0
that another record than a half 1 of its scale follows is poison (log entry 66). -/
def pairUp (mate : Option MxRec) (k : MxRec) : Option MxRec × List MxRec :=
  let mx8 := k.r.hdr.fmt == 12 && !k.r.malformed
  let one := k.r.hdr.ck.getLsbD 0
  match mate with
  | none => if mx8 then (if one then (none, [k.spoil]) else (some k, [])) else (none, [k])
  | some m =>
    if mx8 && one then (if m.r.hdr.scale = k.r.hdr.scale then (none, [m, k]) else (none, [m.spoil, k.spoil]))
    else if mx8 then (some k, [m.spoil])
    else (none, [m.spoil, k])

/-- The blocks that record n of a stream touches. -/
def Desc.blocksOf (d : Desc) (n : Nat) : List Nat :=
  (List.range ((n * d.e + d.e - 1) / 128 + 1 - n * d.e / 128)).map fun i => n * d.e / 128 + i

/-- Whether the records held are all that touch a block of a stream of total records. -/
def Desc.blockFull (d : Desc) (total : Nat) (ks : List MxRec) (b : Nat) : Bool :=
  let lo := 128 * b / d.e
  let hi := min ((128 * b + 127) / d.e) (total - 1)
  (List.range (hi + 1 - lo)).all fun i => ks.any fun k => k.n == lo + i

/-- Whether a record's elements are to be converted under a block's scale. -/
def Desc.scaled (d : Desc) (r : Rec) : Bool := !r.asPoison && !(d.bitForBit r)

/-- The values of a record that lie in a block. -/
def Desc.valsIn (d : Desc) (k : MxRec) (b : Nat) : List Val :=
  let i := k.n * d.e
  ((recVals k.r d.e).take (128 * b + 128 - i)).drop (128 * b - i)

/-- The scale of a block from the records held; none where one of them is poison. -/
def Desc.blockScaleOf (d : Desc) (ks : List MxRec) (b : Nat) : Option Byte :=
  let ts := ks.filter fun k => (d.blocksOf k.n).contains b
  if ts.any fun k => k.r.asPoison then none
  else some (blockScale (fmtOf d.mf) (blockAmax ((ts.filter fun k => d.scaled k.r).flatMap fun k => d.valsIn k b)))

/-- How a form fits what it writes for a record: a scatter writes elements 0 to e - 1 (R254), a staging stream the
record's 64 bytes (R265). -/
inductive Fit where
  | all | elems | whole
  deriving DecidableEq, Repr

/-- The write of a record under a form: its bytes, or a mark of so many. -/
def Desc.fitted (d : Desc) (f : Fit) (a n : Nat) (bs : Option (List Byte)) : SWrite :=
  match f with
  | .all => (a, n, bs)
  | .elems => (a, min d.memBytes n, bs.map fun x => x.take d.memBytes)
  | .whole => (a, 64, bs.map fun x => padBytes 64 x)

/-- The write of a held record's codes: each element under the scale of its block, or a mark. -/
def Desc.codesWrite (d : Desc) (f : Fit) (ks : List MxRec) (k : MxRec) : SWrite :=
  let parts := (d.blocksOf k.n).map fun b => (d.blockScaleOf ks b).map fun sc => blockCodes (fmtOf d.mf) sc (rmOf d.mode) (d.valsIn k b)
  d.fitted f k.addr d.memBytes (if parts.all Option.isSome then some (d.pack (parts.flatMap fun p => p.getD [])) else none)

/-- The writes of blocks: their scales, where a record is converted under one, and the records all of whose blocks are
ready. -/
def Desc.blockWrites (d : Desc) (f : Fit) (ks : List MxRec) (bs : List Nat) (ready : Nat → Bool) : List SWrite :=
  let ts := ks.filter fun k => d.scaled k.r && (d.blocksOf k.n).any fun b => bs.contains b
  (bs.filter fun b => ts.any fun k => (d.blocksOf k.n).contains b).map (fun b =>
      (addrPlus d.aux b, 1, (d.blockScaleOf ks b).map fun sc => [sc]))
    ++ (ts.filter fun k => (d.blocksOf k.n).all ready).map (d.codesWrite f ks)

/-- The writes of a record that needs no scale formed: a mark, or its bytes with its own scale in its own format. -/
def Desc.plainWrites (d : Desc) (f : Fit) (k : MxRec) : List SWrite :=
  match d.accept k.r with
  | none => if k.r.asPoison then [d.fitted f k.addr d.memBytes none] else []
  | some bs => d.fitted f k.addr bs.length (some bs)
      :: if k.r.hdr.fmt = d.mf then [(addrPlus d.aux (k.n * d.e / 128), 1, some [k.r.hdr.scale])] else []

/-- What accepting a record does: the ranges written, what waits afterwards, and whether poison was met. -/
structure Plan where
  ws : List SWrite
  mate : Option MxRec
  blk : List MxRec
  bad : Bool

/-- How a write stream fits what it writes. -/
def Stream.fit (st : Stream) (d : Desc) : Fit :=
  match st.form with
  | .sca => .elems
  | _ => if d.param.testBit 1 then .whole else .all

/-- Records that a write stream numbers, within a sequence where it is a staging stream: as many as its elements have
places (R253, R254, R265). -/
def Stream.recTotal (st : Stream) (d : Desc) : Nat :=
  match st.fit d with
  | .elems => d.counts.headD 0
  | .whole => 2 ^ 24
  | .all => d.total

/-- Whether two held records belong to one run of elements: of one sequence, at a staging stream (R265). -/
def Stream.sameRun (st : Stream) (d : Desc) (a b : Rec) : Bool := st.fit d != .whole || a.hdr.ck == b.hdr.ck

/-- The plan of a record at a number and an address of a write stream. A staging stream pairs no mx8 halves, since its
records' cookies are sequences; and into memory of no mx format none are paired, since no block is consumed whole there
(R26; DESIGN CHOICE, log entry 66). -/
def Desc.plan (d : Desc) (st : Stream) (n a : Nat) (r : Rec) : Plan :=
  let f := st.fit d
  if isMx d.mf then
    let (mate, out) := if f = .whole then (none, [⟨n, a, r⟩]) else pairUp st.mate ⟨n, a, r⟩
    let blk := (st.blk.filter fun k => !(out.any fun z => z.n == k.n && st.sameRun d z.r k.r)) ++ out
    let run := blk.filter fun k => st.sameRun d r k.r
    let full := d.blockFull (st.recTotal d) run
    let bs := (out.flatMap fun k => d.blocksOf k.n).eraseDups.filter full
    ⟨out.flatMap (d.plainWrites f) ++ d.blockWrites f run bs full, mate, blk, out.any fun k => k.r.asPoison⟩
  else
    let x := d.accept r
    ⟨[d.fitted f a (match x with | some bs => bs.length | none => d.memBytes) x], none, [], x.isNone⟩

/-- The records of a write stream that has come to its end and has still to write: the half that waits, and those of
blocks that are not full; their scales are formed from the elements at hand (DESIGN CHOICE, log entry 64). -/
def Stream.leftOver (st : Stream) (d : Desc) : List SWrite :=
  let f := st.fit d
  let wait := st.mate.toList
  wait.flatMap (d.plainWrites f) ++ (runs (st.blk ++ wait)).flatMap fun run =>
    let old := run.filter fun k => !(wait.contains k)
    let bs := (run.flatMap fun k => d.blocksOf k.n).eraseDups.filter fun b => !(d.blockFull (st.recTotal d) old b)
    d.blockWrites f run bs fun _ => true
where
  /-- The records held, by their runs. -/
  runs (ks : List MxRec) : List (List MxRec) :=
    if st.fit d = .whole then ((ks.map fun k => k.r.hdr.ck).eraseDups).map fun q => ks.filter fun k => k.r.hdr.ck == q else [ks]

/-- The stream takes the record at the head of its input link, and counts it as accepted (R258). -/
def State.takeIn (s : State) (c : CtxId) (l : LaySlot) (k : Nat) : State :=
  s.modLay c l fun x => (x.takeHead k s.cyc).progressed

/-- The stream accepts the record at its head, and ends with a status and a detail: a record that it does not write is
retired at its acceptance (R45). -/
def State.acceptEnd (s : State) (c : CtxId) (l : LaySlot) (pg : Pid) (n : Fin 4) (k status detail : Nat) : State :=
  ((s.takeIn c l k).modStream c l pg n fun x => { x with count := x.count + 1 }).endStream c l pg n status detail 0

/-- Writes the ranges of an accepted record and counts it; total ends the stream (R253, R257). A range that cannot be
written parks the stream with the record not taken, or ends it with the record retired. -/
def State.putRec (s : State) (c : CtxId) (l : LaySlot) (pg : Pid) (n : Fin 4) (k : Nat) (st : Stream) (total : Nat)
    (pl : Plan) (far : Bool) : SOp :=
  match s.streamWrites c l pg n far pl.ws with
  | (.error (.ends e), s1) => (none, s1.acceptEnd c l pg n k e 0)
  | (.error e, s1) => s1.streamStops c l pg n true e
  | (.ok _, s1) =>
    (none, (s1.takeIn c l k).modStream c l pg n fun x =>
      { x with count := st.count + 1, mate := pl.mate, blk := pl.blk, poison := x.poison || pl.bad,
               ending := if st.count + 1 = total then some (0, 0, 0) else x.ending })

/-- A record at an affine write stream (R253). -/
def State.affWrite (s : State) (c : CtxId) (l : LaySlot) (pg : Pid) (n : Fin 4) (k : Nat) (st : Stream) (d : Desc) (r : Rec) : SOp :=
  let i := r.hdr.seq.toNat
  if d.total ≤ i then (none, s.acceptEnd c l pg n k 0x15 0)
  else s.putRec c l pg n k st d.total (d.plan st i (d.addr i) r) d.far

/-- A record at a scatter stream (R254): elements 0 to e - 1, so that a record taken bit for bit writes no word past
them. -/
def State.scatter (s : State) (c : CtxId) (l : LaySlot) (pg : Pid) (n : Fin 4) (k : Nat) (st : Stream) (d : Desc) (r : Rec) : SOp :=
  let total := d.counts.headD 0
  s.putRec c l pg n k st total (d.plan st st.count (d.indexAddr (vword r.pay d.param)) r) d.far

/-- A record at a staging stream (R265). Where the pair is poisoned, the place that it names is marked and not written
(R257, R480; DESIGN CHOICE, log entry 67). -/
def State.stage (s : State) (c : CtxId) (l : LaySlot) (pg : Pid) (n : Fin 4) (x : Lay) (k : Nat) (st : Stream) (d : Desc) (r : Rec) :
    SOp :=
  let per := d.counts.headD 1
  let b := r.hdr.seq.toNat / per
  let i := r.hdr.seq.toNat % per
  let nb := bitsNat 27 16 d.param
  let bank := bitsNat 15 4 d.param + b % nb
  match s.streamRead c l pg n false (x.nearAddr bank (8 * r.hdr.ck.toNat)) 8 with
  | (.error (.ends e), s1) => (none, s1.acceptEnd c l pg n k e 0)
  | (.error e, s1) => s1.streamStops c l pg n false e
  | (.ok (pair, p), s1) =>
    let o := natAt pair 0 4 + (b / nb * per + i) * 64
    if natAt pair 4 4 ≤ b / nb || 65536 < o + 64 then
      (none, (s1.modStream c l pg n fun z => { z with poison := z.poison || p }).acceptEnd c l pg n k 0x13 0)
    else
      s1.putRec c l pg n k st (d.counts.getD 1 1) (d.plan st r.hdr.seq.toNat (x.nearAddr bank o) (if p then r.poisoned else r)) false

/-- What a write stream that has come to its end has still to write (R45, R256). -/
def State.writeLeft (s : State) (c : CtxId) (l : LaySlot) (pg : Pid) (n : Fin 4) (st : Stream) (d : Desc) : SOp :=
  match s.streamWrites c l pg n d.far (st.leftOver d) with
  | (.error (.ends _), s1) => (none, s1.modStream c l pg n fun x => { x with mate := none, blk := [] })
  | (.error e, s1) => s1.streamStops c l pg n true e
  | (.ok _, s1) => (none, s1.modStream c l pg n fun x => { x with mate := none, blk := [] })

/-! ### Compressed extents (R259 to R261) -/

/-- A token at an offset of an extent: what it is, and where the next one stands. -/
inductive Token where
  | zeros (n : Nat)
  | block (bs : List Byte)
  | stop (check : Nat)
  | bad
  deriving DecidableEq, Repr

/-- The words of a masked block (R259). -/
def maskWords : Nat → Nat → List Byte → List Byte
  | 0, _, _ => []
  | n + 1, m, bs =>
    if m % 2 = 1 then bs.take 4 ++ maskWords n (m / 2) (bs.drop 4) else [0, 0, 0, 0] ++ maskWords n (m / 2) bs

/-- The length of a token by its header and, for a masked block, its mask. -/
def tokenLen (h mask : Nat) : Nat :=
  if h < 0x80 then 1 else if h = 0x80 then 3 + 4 * popcN 16 mask else if h = 0x81 then 65 else if h = 0xfe then 5 else 1

/-- The token of bytes. -/
def tokenOf (bs : List Byte) : Token :=
  let h := (bs.headD 0).toNat
  if h < 0x80 then .zeros (h + 1)
  else if h = 0x80 then .block (maskWords 16 (natAt bs 1 2) (bs.drop 3))
  else if h = 0x81 then .block ((bs.drop 1).take 64)
  else if h = 0xfe then .stop (natAt bs 1 4)
  else .bad

/-- CRC-32C of a state as an extent holds it (R259). -/
def crcOut (x : Word) : Nat := (~~~x).toNat

/-- Reads n bytes at an offset of an extent after bytes already read of it. -/
def State.tokenMore (s : State) (c : CtxId) (l : LaySlot) (pg : Pid) (sl : Fin 4) (d : Desc) (len off : Nat) (bs : List Byte)
    (p : Bool) (n : Nat) : Except SStop (Option (List Byte) × Bool) × State :=
  if len < off + bs.length + n then (.ok (none, p), s)
  else
    match s.streamRead c l pg sl d.far (addrPlus d.base (off + bs.length)) n with
    | (.error e, s1) => (.error e, s1)
    | (.ok (cs, q), s1) => (.ok (some (bs ++ cs), p || q), s1)

/-- Reads the token at an offset: its header, the mask of a masked block, and what follows. None runs past the extent. -/
def State.readToken (s : State) (c : CtxId) (l : LaySlot) (pg : Pid) (sl : Fin 4) (d : Desc) (len off : Nat) :
    Except SStop (Option (Token × Nat) × Bool) × State :=
  match s.tokenMore c l pg sl d len off [] false 1 with
  | (.error e, s1) => (.error e, s1)
  | (.ok (none, p), s1) => (.ok (none, p), s1)
  | (.ok (some h, p), s1) =>
    let masked := (h.headD 0).toNat = 0x80
    match s1.tokenMore c l pg sl d len off h p (if masked then 2 else 0) with
    | (.error e, s2) => (.error e, s2)
    | (.ok (none, p), s2) => (.ok (none, p), s2)
    | (.ok (some hm, p), s2) =>
      let n := tokenLen (hm.headD 0).toNat (natAt hm 1 2)
      match s2.tokenMore c l pg sl d len off hm p (n - hm.length) with
      | (.error e, s3) => (.error e, s3)
      | (.ok (none, p), s3) => (.ok (none, p), s3)
      | (.ok (some bs, p), s3) => (.ok (some (tokenOf bs, n), p), s3)

/-- One block of a compressed read goes out as record number count (R255, R260). -/
def State.cmpEmit (s : State) (c : CtxId) (l : LaySlot) (pg : Pid) (n : Fin 4) (st : Stream) (d : Desc) (bs : List Byte)
    (poison : Bool) (scale : Byte) (f : Stream → Stream) : SOp :=
  let codes := elemsOf (codeBits d.mf) d.e (natOfBytes bs)
  let (cs, p) := if d.mf = d.rf then (codes, false)
    else
      let (ys, _, q) := roundList (fmtOf d.rf) (rmOf d.mode) d.sat (codes.map fun x => decodeElem (fmtOf d.mf) x scale) 1
      (ys, q)
  let h := streamHdr c l (s.reelCls c l pg) st.count d.recWords (if poison || p then 15 else d.rf)
    (d.cookie st.count) (if isMx d.rf then scale else 0)
  (none, (s.streamEmit c l pg n (codesRec h d cs)).modStream c l pg n fun x =>
    f { x with count := x.count + 1, blocks := x.blocks + 1, poison := x.poison || poison,
               crc := BitVec.ofNat 32 (crcBytes x.crc.toNat (padBytes 64 bs)) })

/-- A compressed read ends with a status at an offset; after an error the records left go out as poison before the
stream ends (R260). poison says whether what it read was poisoned (R257, R480). -/
def State.cmpEnd (s : State) (c : CtxId) (l : LaySlot) (pg : Pid) (n : Fin 4) (poison : Bool) (status off : Nat) : SOp :=
  (none, (s.modStream c l pg n fun x => { x with poison := x.poison || poison }).endStream c l pg n status off 0)

/-- The first operation of a compressed read: the extent's header (R259). A wrong block count ends the stream before it
emits (R260). -/
def State.cmpHeader (s : State) (c : CtxId) (l : LaySlot) (pg : Pid) (n : Fin 4) (d : Desc) : SOp :=
  match s.streamRead c l pg n d.far d.base 8 with
  | (.error e, s1) => s1.streamStops c l pg n false e
  | (.ok (hd, p), s1) =>
    if natAt hd 4 4 ≠ d.counts.headD 0 then s1.cmpEnd c l pg n p 0x22 4
    else (none, s1.modStream c l pg n fun x => { x with ext := some (natAt hd 0 4, p) })

/-- The next block of a compressed read from the token at its offset; sc is the block's scale, p0 the poison met so
far. -/
def State.cmpToken (s : State) (c : CtxId) (l : LaySlot) (pg : Pid) (n : Fin 4) (st : Stream) (d : Desc) (len : Nat)
    (sc : Byte) (p0 : Bool) : SOp :=
  let count0 := d.counts.headD 0
  match s.readToken c l pg n d len st.offset with
  | (.error e, s1) => s1.streamStops c l pg n false e
  | (.ok (tk, p1), s1) =>
    let p := p0 || p1
    match tk with
    | none => s1.cmpEnd c l pg n p 0x22 st.offset
    | some (.bad, _) => s1.cmpEnd c l pg n p 0x20 st.offset
    | some (.zeros k, m) =>
      if count0 < st.blocks + k then s1.cmpEnd c l pg n p 0x21 st.offset
      else s1.cmpEmit c l pg n st d [] p sc fun x => { x with zeros := k - 1, offset := x.offset + m }
    | some (.block bs, m) =>
      if count0 ≤ st.blocks then s1.cmpEnd c l pg n p 0x21 st.offset
      else s1.cmpEmit c l pg n st d bs p sc fun x => { x with offset := x.offset + m }
    | some (.stop ck, _) =>
      if st.blocks < count0 then s1.cmpEnd c l pg n p 0x22 st.offset
      else if st.offset + 5 ≠ len then s1.cmpEnd c l pg n p 0x24 st.offset
      else if ck ≠ crcOut st.crc then s1.cmpEnd c l pg n p 0x23 st.offset
      else s1.cmpEnd c l pg n p 0 0

/-- One operation of a compressed read (R260): a poison record after an error, the header, a block of the zero run under
way, or the next token. -/
def State.cmpRead (s : State) (c : CtxId) (l : LaySlot) (pg : Pid) (n : Fin 4) (st : Stream) (d : Desc) : SOp :=
  if st.ending.isSome then
    (none, (s.streamEmit c l pg n (s.poisonRec c l pg d st.count 16)).modStream c l pg n fun x => { x with count := x.count + 1 })
  else
    match st.ext with
    | none => s.cmpHeader c l pg n d
    | some (len, p0) =>
      let scales : Except SStop (List Byte × Bool) × State := if isMx d.mf && st.blocks < d.counts.headD 0 then
          s.streamRead c l pg n d.far (addrPlus d.aux (st.blocks * d.e / 128)) 1
        else (.ok ([0], false), s)
      match scales with
      | (.error e, s1) => s1.streamStops c l pg n false e
      | (.ok (sc, p1), s1) =>
        if 0 < st.zeros then s1.cmpEmit c l pg n st d [] (p0 || p1) (sc.headD 0) fun x => { x with zeros := x.zeros - 1 }
        else s1.cmpToken c l pg n st d len (sc.headD 0) (p0 || p1)

/-- The token of a block that is not all zeros (R261). -/
def blockToken (bs : List Byte) : List Byte :=
  let ws := wordsOfStr 16 (natOfBytes bs)
  let m := strOfElems 1 (ws.map fun w => if w = 0 then 0 else 1)
  if popcN 16 m = 16 then 0x81 :: padBytes 64 bs
  else 0x80 :: bytesOfNat 2 m ++ (ws.filter fun w => w != 0).flatMap fun (w : Word) => bytesOfNat 4 w.toNat

/-- The token of a zero run; none is nothing. -/
def zeroToken (n : Nat) : List Byte := if n = 0 then [] else [BitVec.ofNat 8 (n - 1)]

/-- A compressed write as it stands between two blocks: zero blocks pending, check state, blocks taken, tokens made. -/
structure Enc where
  zeros : Nat
  crc : Word
  blocks : Nat
  out : List Byte

/-- One block encoded (R261); the last of count0 is followed by the check. -/
def Enc.block (x : Enc) (count0 : Nat) (bs : List Byte) : Enc :=
  let blk := padBytes 64 bs
  let zero := blk.all fun b => b == 0
  let z := if zero then x.zeros + 1 else x.zeros
  let crc : Word := BitVec.ofNat 32 (crcBytes x.crc.toNat blk)
  let last := x.blocks + 1 = count0
  let flush := !zero || z = 128 || last
  ⟨if flush then 0 else z, crc, x.blocks + 1,
    x.out ++ (if flush then zeroToken z else []) ++ (if zero then [] else blockToken blk)
      ++ if last then 0xfe :: bytesOfNat 4 (crcOut crc) else []⟩

/-- The half of an mx8 block that a record is (R26): none where it is no mx8 record, else whether it is half 1. -/
def Rec.half (r : Rec) : Option Bool := if r.hdr.fmt = 12 && !r.malformed then some (r.hdr.ck.getLsbD 0) else none

/-- Whether records accepted one after the other keep the rule of mx8 halves (R26): each half 0 is followed by a half 1 of
its scale, which stands nowhere else. The last may be a half 0. -/
def halvesAgree : List Rec → Bool
  | [] => true
  | [a] => a.half != some true
  | a :: b :: rs =>
    match a.half with
    | none => halvesAgree (b :: rs)
    | some false => b.half == some true && a.hdr.scale == b.hdr.scale && halvesAgree rs
    | some true => false

/-- Whether records leave a half 0 waiting at their end. -/
def halfWaits (rs : List Rec) : Bool := match rs.getLast? with | some r => r.half == some false | none => false

/-- Groups of k. -/
def groupsOf {α : Type} (k : Nat) : Nat → List α → List (List α)
  | 0, _ => []
  | n + 1, xs => if xs.isEmpty then [] else xs.take k :: groupsOf k n (xs.drop k)

/-- The blocks of the records of one mx block as bytes, its scale formed from those that are converted (R27, R256). The
scale is stored nowhere: aux of a compressed write is its capacity, so that no scale array stands there (DESIGN CHOICE,
log entry 29). -/
def Desc.mxBlock (d : Desc) (rs : List Rec) : List (List Byte) :=
  let sc := blockScale (fmtOf d.mf) (blockAmax ((rs.filter d.scaled).flatMap fun r => recVals r d.e))
  rs.map fun r => if d.scaled r then d.pack (blockCodes (fmtOf d.mf) sc (rmOf d.mode) (recVals r d.e)) else r.bytes

/-- The blocks of the records that a compressed write takes together, none where one of them is poison, or mx8 halves do
not agree (R26). An mx8 block is that of two records, an mx4 block of one. -/
def Desc.cmpBlocks (d : Desc) (rs : List Rec) : Option (List (List Byte)) :=
  if rs.any Rec.asPoison || (isMx d.mf && !(halvesAgree rs)) then none
  else if isMx d.mf then some ((groupsOf (if d.mf = 12 then 2 else 1) rs.length rs).flatMap d.mxBlock)
  else
    let xs := rs.map d.accept
    if xs.all Option.isSome then some (xs.map fun x => x.getD []) else none

/-- Whether a compressed write must see the next record before it takes those at hand: an mx8 block lacks its second, or
a half 0 waits (R26, R27). -/
def Desc.cmpWaits (d : Desc) (rs : List Rec) : Bool := isMx d.mf && ((d.mf == 12 && rs.length % 2 == 1) || halfWaits rs)

/-- What a compressed write that met poison has reached of its destination: its bytes are free values (R261; log entry
2). -/
def State.cmpLeave (s : State) (c : CtxId) (l : LaySlot) (pg : Pid) (st : Stream) (d : Desc) : State :=
  match s.streamAt c l pg d.far true d.base st.offset with
  | (.error _, s1) => s1
  | (.ok ps, s1) =>
    let (bs, s2) := s1.freeBytes st.offset
    s2.putPieces c l ps bs

/-- A record at a compressed write (R261). One that must see the next first waits, its halves agreeing so far. -/
def State.cmpWrite (s : State) (c : CtxId) (l : LaySlot) (pg : Pid) (n : Fin 4) (k : Nat) (st : Stream) (d : Desc) (r : Rec) : SOp :=
  let count0 := d.counts.headD 0
  let i := st.blocks + st.blk.length
  let rs := st.blk.map MxRec.r ++ [r]
  if r.hdr.seq.toNat ≠ i % 2 ^ 24 then (none, s.acceptEnd c l pg n k 0x24 st.offset)
  else if d.cmpWaits rs && i + 1 < count0 && (d.cmpBlocks rs).isSome then
    (none, (s.takeIn c l k).modStream c l pg n fun x => { x with count := x.count + 1, blk := x.blk ++ [⟨i, 0, r⟩] })
  else
    match d.cmpBlocks rs with
    | none =>
      (none, (((s.cmpLeave c l pg st d).modStream c l pg n fun x => { x with poison := true, blk := [] }).acceptEnd c l pg n k 0x20
        st.offset))
    | some bs =>
      let enc := bs.foldl (fun x b => x.block count0 b) (⟨st.zeros, st.crc, st.blocks, []⟩ : Enc)
      let off := st.offset + enc.out.length
      let last := enc.blocks = count0
      if d.aux < off then (none, s.acceptEnd c l pg n k 0x22 st.offset)
      else
        let ws : List SWrite := (addrPlus d.base st.offset, enc.out.length, some enc.out)
          :: if last then [(d.base, 8, some (bytesOfNat 4 off ++ bytesOfNat 4 count0))] else []
        match s.streamWrites c l pg n d.far ws with
        | (.error (.ends e), s1) => (none, s1.acceptEnd c l pg n k e 0)
        | (.error e, s1) => s1.streamStops c l pg n true e
        | (.ok _, s1) =>
          (none, (s1.takeIn c l k).modStream c l pg n fun x =>
            { x with count := x.count + 1, blocks := enc.blocks, crc := enc.crc, offset := off, zeros := enc.zeros, blk := [],
                     ending := if last then some (0, off, 0) else x.ending })

/-! ### Requantising (R262) -/

/-- The elements n to m - 1 of the source, by records; fuel bounds the records. -/
def State.rqElems (s : State) (c : CtxId) (l : LaySlot) (pg : Pid) (sl : Fin 4) (d : Desc) :
    Nat → Nat → Nat → Except SStop Elems × State
  | 0, _, _ => (.ok ⟨[], [], false, 0⟩, s)
  | fuel + 1, n, m =>
    if m ≤ n then (.ok ⟨[], [], false, 0⟩, s)
    else
      let i := n / d.e
      match s.streamElems c l pg sl d d.param i (d.addr i) with
      | (.error e, s1) => (.error e, s1)
      | (.ok x, s1) =>
        let k := min (d.e - n % d.e) (m - n)
        match s1.rqElems c l pg sl d fuel (n + k) m with
        | (.error e, s2) => (.error e, s2)
        | (.ok y, s2) =>
          (.ok ⟨((x.codes.drop (n % d.e)).take k) ++ y.codes, ((x.vals.drop (n % d.e)).take k) ++ y.vals, x.poison || y.poison, x.scale⟩, s2)

/-- One block of 128 elements of a requantising stream (R262, R420). The scale of a last block of fewer is formed from
those it has (DESIGN CHOICE, log entry 64). -/
def State.rqBlock (s : State) (c : CtxId) (l : LaySlot) (pg : Pid) (n : Fin 4) (st : Stream) (d : Desc) : SOp :=
  let i := st.count
  let m := min (i + 128) d.elems
  match s.rqElems c l pg n d 128 i m with
  | (.error e, s1) => s1.streamStops c l pg n false e
  | (.ok x, s1) =>
    let bytes := ((m - i) * codeBits d.rf + 7) / 8
    let at_ := addrPlus d.aux (i * codeBits d.rf / 8)
    let sc := blockScale (fmtOf d.rf) (blockAmax x.vals)
    let (cs, q) :=
      if d.mf = d.rf then (x.codes, false)
      else if isMx d.rf then (blockCodes (fmtOf d.rf) sc (rmOf d.mode) x.vals, false)
      else let (ys, _, q) := roundList (fmtOf d.rf) (rmOf d.mode) d.sat x.vals 1; (ys, q)
    let bad := x.poison || q
    let ws : List SWrite := (at_, bytes, if bad then none else some (bytesOfNat bytes (strOfElems (codeBits d.rf) cs)))
      :: if isMx d.rf then [(addrPlus d.param (i / 128), 1, if bad then none else some [sc])] else []
    match s1.streamWrites c l pg n true ws with
    | (.error e, s2) => s2.streamStops c l pg n true e
    | (.ok _, s2) =>
      (none, s2.modStream c l pg n fun y =>
        { y with count := m, poison := y.poison || bad, ending := if m = d.elems then some (0, 0, 0) else y.ending })

end Sys2Proof.Machine
end

