-- ==== Sys2Proof/Machine/Fibre.lean ====
section
/-!
DEFINITION. Fibre registers (08 R266 to R272): the level operations, walks and braids, and the records they form. A
level operation works on a copy of its register and changes it only at its end, or at a trap.
-/
namespace Sys2Proof.Machine

/-- Why a level operation stops: its memory, or a malformed coordinate at a position with the register as it was before
the failing read (R268, R272). -/
inductive FStop where
  | mem (e : SStop)
  | trap (x : Fibre) (code pos : Nat)
  /-- A thread's read met poison at an address (R160, R172); a stream's reads do not stop on it. -/
  | poison (va : Nat)
  deriving DecidableEq, Repr

/-- A register being worked on, and whether poison was met. -/
structure FWork where
  f : Fibre
  bad : Bool
  deriving DecidableEq, Repr

/-- A computation over the units that the operation under way has read and not yet used in this turn. -/
abbrev FM := StateT (List SeenUnit) (Except FStop)

/-! ### Fields (R267) -/

/-- The level specifier (R266): 0 dense, 1 compressed, 2 bitmap, 3 singleton. -/
def Fibre.spec (x : Fibre) : Nat := x.control.toNat % 4
/-- Sorted. -/
def Fibre.sorted (x : Fibre) : Bool := x.control.getLsbD 2
/-- Unique. -/
def Fibre.unique (x : Fibre) : Bool := x.control.getLsbD 3
/-- The value mode vm: 0 none, 1 position, 2 element. -/
def Fibre.vm (x : Fibre) : Nat := bitsNat 5 4 x.control.toNat
/-- The parent register, where the parent valid flag is set. -/
def Fibre.parent? (x : Fibre) : Option (Fin 4) :=
  if x.flags.getLsbD 0 then some (Fin.ofNat 4 (bitsNat 7 6 x.control.toNat)) else none
/-- The level number. -/
def Fibre.level (x : Fibre) : Nat := bitsNat 5 4 x.format.toNat
/-- Bits of an element of the value format (R267). -/
def Fibre.valBits (x : Fibre) : Nat := fmtBits (fmtOf (BitVec.ofNat 4 x.format.toNat))
/-- Whether it is ready. -/
def Fibre.ready (x : Fibre) : Bool := x.state == 1
/-- Whether it is exhausted. -/
def Fibre.isExhausted (x : Fibre) : Bool := x.state == 2
/-- Exhausted where the position has reached the end (R268). -/
def Fibre.atEnd (x : Fibre) : Fibre := if x.p = x.pe then { x with state := 2 } else x
/-- The register trapped as it stood (R272). -/
def Fibre.trapped (x : Fibre) (code pos : Nat) : Fibre :=
  { x with state := 3, trap := BitVec.ofNat 8 code, trapPos := BitVec.ofNat 64 pos }

/-! ### Reads -/

/-- A reader of far memory: address, bytes; the number read and whether it was poisoned. -/
abbrev FRead := Nat → Nat → FM (Nat × Bool)

/-- A read of one or two units from those already made, in their order (R268): each read of an operation is one of its
own. One not yet made stops the operation, and so does poison where a thread reads (R160). -/
def logRead (exact : Bool) : FRead := fun va n seen =>
  let a := va % 2 ^ 64
  let give (bs : List Byte) (p : Bool) (rest : List SeenUnit) : Except FStop ((Nat × Bool) × List SeenUnit) :=
    if p && exact then .error (.poison a) else .ok ((natOfBytes bs, p), rest)
  match seen with
  | [] => .error (.mem (.want a n 0))
  | u :: us =>
    if n ≤ u.bytes.length then give u.bytes u.poison us
    else
      match us with
      | [] => .error (.mem (.want a n 1))
      | v :: vs => give (u.bytes ++ v.bytes) (u.poison || v.poison) vs

/-- A thread's fibre instruction performs the units after the first k of a read through the page's reel, those of one
event (R300, R330, R331). -/
def State.fibUnitT (s : State) (c : CtxId) (t : Tid) (l : LaySlot) (pg : Pid) (a n k : Nat) : Except SStop Unit × State :=
  match s.streamAt c l pg true false a n with
  | (.error e, s1) => (.error e, s1)
  | (.ok _, s1) =>
    let us := (s1.streamUnits c l true a n).drop k
    match s1.eventAt c l pg true false us with
    | (.error e, s2) => (.error e, s2)
    | (.ok ps, s2) =>
      if s2.piecesWait c l ps then (.error (.moved 0 0), s2)
      else
        let s3 := s2.pieceScan c l ps
        (.ok (), s3.modThread c t fun th => { th with seen := th.seen ++ s3.readUnits c l us ps })

/-- crd[p]. -/
def Fibre.readCrd (x : Fibre) (rd : FRead) (p : Nat) : FM (Nat × Bool) := rd (x.crd.toNat + 4 * p) 4
/-- pos[p]. -/
def Fibre.readPos (x : Fibre) (rd : FRead) (p : Nat) : FM (Nat × Bool) := rd (x.pos.toNat + 4 * p) 4

/-- The relation of two coordinates read, or a trap at the higher position (R268). -/
def Fibre.check (x : Fibre) (ca pb cb : Nat) : FM Unit :=
  if x.sorted && !(if x.unique then decide (ca < cb) else decide (ca ≤ cb)) then throw (.trap x 0x30 pb) else pure ()

/-- The bound on a coordinate (R268). -/
def Fibre.bound (x : Fibre) (p c : Nat) : FM Unit := if x.n.toNat ≤ c then throw (.trap x 0x31 p) else pure ()

/-- The first 1 bit at or after p and below pe, else pe (R266): bitmap words of 32 bits. -/
def nextBit (x : Fibre) (rd : FRead) (pe : Nat) : Nat → Nat → Bool → FM (Nat × Bool)
  | 0, _, b => pure (pe, b)
  | n + 1, p, b =>
    if pe ≤ p then pure (pe, b)
    else do
      let (w, q) ← rd (x.crd.toNat + 4 * (p / 32)) 4
      let v := w >>> (p % 32)
      if v = 0 then nextBit x rd pe n ((p / 32 + 1) * 32) (b || q) else pure (min pe (p + ctzN 32 v), b || q)

/-! ### The level operations (R268, R269) -/

/-- A coordinate read at p, bounded, as the register's c. -/
def Fibre.takeCrd (x : Fibre) (rd : FRead) (p : Nat) : FM FWork := do
  let (v, q) ← x.readCrd rd p
  x.bound p v
  pure ⟨{ x with c := BitVec.ofNat 32 v }, q⟩

/-- open (R268). A trap leaves what the pseudocode has assigned before the failing read: q, and p and pe where a
coordinate fails (R272). -/
def Fibre.opened (x : Fibre) (rd : FRead) (q : Nat) : FM FWork := do
  let n := x.n.toNat
  let x := { x with q := BitVec.ofNat 32 q, state := 1 }
  match x.spec with
  | 0 =>
    if 2 ^ 32 < q * n + n then throw (.trap x 0x31 q)
    else pure ⟨{ x with p := q * n, pe := q * n + n, c := 0 }.atEnd, false⟩
  | 1 =>
    let (a, p0) ← x.readPos rd q
    let (b, p1) ← x.readPos rd (q + 1)
    if b < a then throw (.trap x 0x32 (q + 1))
    else if a < b then
      let w ← { x with p := a, pe := b }.takeCrd rd a
      pure ⟨w.f.atEnd, w.bad || p0 || p1⟩
    else pure ⟨{ x with p := a, pe := b }.atEnd, p0 || p1⟩
  | 2 =>
    if 2 ^ 32 < q * n + n then throw (.trap x 0x31 q)
    else
      let (p, b) ← nextBit x rd (q * n + n) (n / 32 + 2) (q * n) false
      pure ⟨{ x with p := p, pe := q * n + n, c := BitVec.ofNat 32 (p - q * n) }.atEnd, b⟩
  | _ =>
    let w ← { x with p := q, pe := q + 1 }.takeCrd rd q
    pure ⟨w.f.atEnd, w.bad⟩

/-- step (R268). A trap leaves p advanced, as the pseudocode has it before the read (R272). -/
def Fibre.stepped (x : Fibre) (rd : FRead) : FM FWork := do
  match x.spec with
  | 2 =>
    let (p, b) ← nextBit x rd x.pe (x.n.toNat / 32 + 2) (x.p + 1) false
    pure ⟨{ x with p := p, c := BitVec.ofNat 32 (p - x.q.toNat * x.n.toNat) }.atEnd, b⟩
  | 1 =>
    let y := { x with p := x.p + 1 }
    if y.p < y.pe then
      let (v, q) ← y.readCrd rd y.p
      y.check y.c.toNat y.p v
      y.bound y.p v
      pure ⟨{ y with c := BitVec.ofNat 32 v }, q⟩
    else pure ⟨y.atEnd, false⟩
  | k => pure ⟨{ x with p := x.p + 1, c := if k = 0 && x.p + 1 < x.pe then x.c + 1 else x.c }.atEnd, false⟩

/-- A search range: lo with its coordinate, hi with its coordinate where it is below the end. -/
structure Bracket where
  lo : Nat
  clo : Nat
  hi : Nat
  chi : Nat
  bad : Bool

/-- The growing phase of the search (R269): fuel bounds the doublings. -/
def gallop (x : Fibre) (rd : FRead) (t : Nat) : Nat → Nat → Bracket → FM Bracket
  | 0, _, b => pure b
  | n + 1, len, b =>
    let h := b.lo + len
    if x.pe ≤ h then pure b
    else do
      let (ch, q) ← x.readCrd rd h
      x.check b.clo h ch
      x.bound h ch
      if t ≤ ch then pure { b with hi := h, chi := ch, bad := b.bad || q }
      else gallop x rd t n (2 * len) { b with lo := h, clo := ch, bad := b.bad || q }

/-- The halving phase of the search (R269): fuel bounds the halvings. -/
def bisect (x : Fibre) (rd : FRead) (t : Nat) : Nat → Bracket → FM Bracket
  | 0, b => pure b
  | n + 1, b =>
    if b.hi - b.lo ≤ 1 then pure b
    else do
      let m := (b.lo + b.hi) / 2
      let (cm, q) ← x.readCrd rd m
      x.check b.clo m cm
      x.bound m cm
      if b.hi < x.pe then x.check cm b.hi b.chi
      bisect x rd t n (if t ≤ cm then { b with hi := m, chi := cm, bad := b.bad || q }
        else { b with lo := m, clo := cm, bad := b.bad || q })

/-- A register at the entry of a skip: its skip-pending flag and its target (R269). -/
def Fibre.skipping (x : Fibre) (t : Nat) : Fibre := { x with flags := x.flags ||| 2, t := BitVec.ofNat 32 t }

/-- A register without a skip pending. -/
def Fibre.unskipped (x : Fibre) : Fibre := { x with flags := x.flags &&& 0xfd, t := 0 }

/-- skip (R269): the first position whose coordinate is t or more. The skip flag and target are set while it lasts, a
trap included, and clear at its exit. -/
def Fibre.skipped (x : Fibre) (rd : FRead) (t : Nat) : FM FWork := do
  let x := x.skipping t
  let done (y : Fibre) (b : Bool) : FWork := ⟨y.unskipped, b⟩
  if !x.ready || t ≤ x.c.toNat then pure (done x false)
  else
    let base := x.q.toNat * x.n.toNat
    match x.spec with
    | 0 =>
      pure (if t < x.n.toNat then done { x with p := base + t, c := BitVec.ofNat 32 t } false
        else done { x with p := x.pe, state := 2 } false)
    | 1 =>
      let b ← gallop x rd t 40 1 ⟨x.p, x.c.toNat, x.pe, 0, false⟩
      let b ← bisect x rd t 40 b
      pure (done (if b.hi = x.pe then { x with p := b.hi, state := 2 } else { x with p := b.hi, c := BitVec.ofNat 32 b.chi }) b.bad)
    | 2 =>
      let (p, b) ← nextBit x rd x.pe (x.n.toNat / 32 + 2) (base + t) false
      pure (done { x with p := p, c := BitVec.ofNat 32 (p - base) }.atEnd b)
    | _ => pure (done { x with p := x.pe, state := 2 } false)

/-! ### Entries and records (R270, R271) -/

/-- The value word of an input at its position (R270). -/
def Fibre.valueWord (x : Fibre) (rd : FRead) : FM (Nat × Bool) :=
  match x.vm with
  | 1 => pure (x.p, false)
  | 2 => rd (x.val.toNat + x.valBits / 8 * x.p) (x.valBits / 8)
  | _ => pure (0, false)

/-- The registers of a reel. -/
abbrev Fibs := Vector Fibre 4

/-- How a stream ends: status, detail, level. -/
abbrev EndWords := Option (Nat × Nat × Nat)

/-- What a fibre stream works on: the registers, those whose coordinate in hand came from poisoned memory, whether poison
was met at all (R257), and what its operation has read and not yet used. -/
structure Work where
  fibs : Fibs
  dirty : BitVec 4
  met : Bool
  seen : List SeenUnit

/-- Whether a register's coordinate in hand came from poisoned memory. -/
def Work.isDirty (w : Work) (i : Fin 4) : Bool := w.dirty.getLsbD i.val

/-- A register's poison noted: of the coordinate that it now holds, beside what it had where the coordinate only moved on
by a skip. -/
def Work.note (w : Work) (i : Fin 4) (keep q : Bool) : Work :=
  let bit : BitVec 4 := 1 <<< i.val
  { w with dirty := if q || (keep && w.isDirty i) then w.dirty ||| bit else w.dirty &&& ~~~bit, met := w.met || q }

/-- A record being formed: words so far, presence mask, entries, poison met. -/
structure Forming where
  w : Work
  words : List Word
  mask : Nat
  entries : Nat
  bad : Bool

/-- How forming a record comes out. -/
inductive Formed where
  | park (e : SStop)
  /-- The record's payload words, its mask, parent coordinate and poison, none where no entry was formed; and how the
  stream ends if it does. -/
  | done (w : Work) (r : Option (List Word × Nat × Option Word × Bool)) (ending : EndWords)

/-- A level operation on one register of several: the registers after it, or how it stops with the register trapped.
keep says that poison of the coordinate before it stays noted. -/
def onFib (w : Work) (i : Fin 4) (keep : Bool) (op : Fibre → FM FWork) : Except SStop (Work × EndWords) :=
  match op w.fibs[i.val] w.seen with
  | .error (.mem e) => .error e
  | .error (.poison _) => .ok (w.note i keep true, none)
  | .error (.trap x code pos) => .ok ({ w with fibs := w.fibs.set i.val (x.trapped code pos) }, some (code, pos, x.level))
  | .ok (y, rest) => .ok ({ w with fibs := w.fibs.set i.val y.f, seen := rest }.note i keep y.bad, none)

/-- The registers from one to its root (R271); fuel bounds the chain. -/
def chainOf (fs : Fibs) : Nat → Fin 4 → List (Fin 4)
  | 0, i => [i]
  | n + 1, i => i :: match fs[i.val].parent? with | some p => chainOf fs n p | none => []

/-- Whether a chain never comes back to a register. -/
def chainSound (fs : Fibs) (i : Fin 4) : Bool := (chainOf fs 4 i).length ≤ 4 && (chainOf fs 4 i).Nodup

/-- The parent of register i in a chain. -/
def parentIn (ch : List (Fin 4)) (i : Fin 4) : Option (Fin 4) := (ch.zip (ch.drop 1)).findSome? fun p => if p.1 = i then some p.2 else none

/-- The child of register i in a chain. -/
def childIn (ch : List (Fin 4)) (i : Fin 4) : Option (Fin 4) := (ch.zip (ch.drop 1)).findSome? fun p => if p.2 = i then some p.1 else none

/-- Brings a chain to an entry from register i (R271): an exhausted register steps its parent, a ready one reopens its
child. The answer says whether the innermost is ready; fuel bounds the positions passed. -/
def settleChain (rd : FRead) (ch : List (Fin 4)) : Nat → Work → Fin 4 → Except SStop (Work × Bool × EndWords)
  | 0, w, _ => .ok (w, false, none)
  | n + 1, w, i =>
    if (w.fibs[i.val]).ready then
      match childIn ch i with
      | none => .ok (w, true, none)
      | some k =>
        match onFib w k false (fun x => x.opened rd (w.fibs[i.val]).p) with
        | .error e => .error e
        | .ok (w1, some t) => .ok (w1, false, some t)
        | .ok (w1, none) => settleChain rd ch n w1 k
    else
      match parentIn ch i with
      | none => .ok (w, false, none)
      | some p =>
        match onFib w p false (fun x => if x.ready then x.stepped rd else pure ⟨x, false⟩) with
        | .error e => .error e
        | .ok (w1, some t) => .ok (w1, false, some t)
        | .ok (w1, none) => settleChain rd ch n w1 p

/-- Positions that a chain can pass at most. -/
def chainFuel : Nat := 2 ^ 140

/-- The record formed so far, with the parent's coordinate of a nested walk. -/
def Forming.record (x : Forming) (parent : Option Word) : Option (List Word × Nat × Option Word × Bool) :=
  if x.entries = 0 then none else some (x.words, x.mask, parent, x.bad)

/-- A record of a nested walk that its fibre's end closes (R271): the parent is stepped and the child reopened at once.
A fault there leaves that to the next operation. -/
def Forming.close (x : Forming) (rd : FRead) (ch : List (Fin 4)) (i : Fin 4) (parent : Option Word) : Formed :=
  let r := x.record parent
  if ch.length ≤ 1 || (x.w.fibs[i.val]).ready then .done x.w r none
  else
    match settleChain rd ch chainFuel x.w i with
    | .error (.want va n k) => .park (.want va n k)
    | .error _ => .done x.w r none
    | .ok (w, true, none) => .done w r none
    | .ok (w, _, t) => .done w r t

/-- Entries of one record of a walk from register i (R270, R271); fuel is the number of entries still to take. An entry
carries the poison of its own coordinate and of those above it, and of its value (R257). -/
def walkEntries (rd : FRead) (ch : List (Fin 4)) (i : Fin 4) (parent : Option Word) : Nat → Forming → Formed
  | 0, x => x.close rd ch i parent
  | n + 1, x =>
    let f := x.w.fibs[i.val]
    if !f.ready then x.close rd ch i parent
    else
      match f.valueWord rd x.w.seen with
      | .error (.mem e) => .park e
      | .error _ => .done x.w (x.record parent) none
      | .ok ((v, q), rest) =>
        let ws := if f.vm = 0 then [f.c] else [f.c, BitVec.ofNat 32 v]
        let y : Forming := { x with w := { x.w with seen := rest, met := x.w.met || q },
                                    words := x.words ++ ws, mask := x.mask ||| 2 ^ (if f.vm = 0 then 0 else x.entries),
                                    entries := x.entries + 1, bad := x.bad || q || ch.any x.w.isDirty }
        match onFib y.w i false (fun z => z.stepped rd) with
        | .error e => .park e
        | .ok (w1, some t) => .done w1 (y.record parent) (some t)
        | .ok (w1, none) => walkEntries rd ch i parent n { y with w := w1 }

/-- The next record of a walk (R270, R271): the chain is brought to an entry first; a root exhausted ends it. -/
def walkRecord (rd : FRead) (w : Work) (i : Fin 4) : Formed :=
  let ch := chainOf w.fibs 4 i
  let nested := 1 < ch.length
  let settled : Except SStop (Work × Bool × EndWords) :=
    if (w.fibs[(ch.getLastD i).val]).isExhausted then .ok (w, false, none)
    else if (w.fibs[i.val]).ready then .ok (w, true, none)
    else settleChain rd ch chainFuel w i
  match settled with
  | .error e => .park e
  | .ok (w1, _, some t) => .done w1 none (some t)
  | .ok (w1, false, none) => .done w1 none (some (0, 0, 0))
  | .ok (w1, true, none) =>
    let m := if (w1.fibs[i.val]).vm = 0 then 1 else 2
    let parent := if nested then (parentIn ch i).map fun p => (w1.fibs[p.val]).c else none
    walkEntries rd ch i parent ((if nested then 15 else 16) / m) ⟨w1, [], 0, 0, false⟩

/-- The inputs of a braid. -/
def braidInputs (fm : BitVec 4) : List (Fin 4) := (List.finRange 4).filter fun i => fm.getLsbD i.val

/-- Intersection brings its inputs to one coordinate (R271): the answer says whether all hold it. -/
def meetInputs (rd : FRead) (ins : List (Fin 4)) : Nat → Work → Except SStop (Work × Bool × EndWords)
  | 0, w => .ok (w, false, none)
  | n + 1, w =>
    if ins.any fun i => !((w.fibs[i.val]).ready) then .ok (w, false, none)
    else
      let top := ins.foldl (fun m i => max m ((w.fibs[i.val]).c).toNat) 0
      match ins.find? fun i => decide (((w.fibs[i.val]).c).toNat < top) with
      | none => .ok (w, true, none)
      | some i =>
        match onFib w i true (fun x => x.skipped rd top) with
        | .error e => .error e
        | .ok (w1, some t) => .ok (w1, false, some t)
        | .ok (w1, none) => meetInputs rd ins n w1

/-- Steps every input of a list; a braid compares as if every input were unique (R271). -/
def stepInputs (rd : FRead) : List (Fin 4) → Work → Except SStop (Work × EndWords)
  | [], w => .ok (w, none)
  | i :: is, w =>
    match onFib w i false (fun x => x.stepped rd) with
    | .error e => .error e
    | .ok (w1, some t) => .ok (w1, some t)
    | .ok (w1, none) => stepInputs rd is w1

/-- The value words of a braid's entry, in input order; an input without the entry gives 0. -/
def braidValues (rd : FRead) (fs : Fibs) (at_ : List (Fin 4)) : List (Fin 4) → FM (List Word × Bool)
  | [] => pure ([], false)
  | i :: is => do
    let (v, b) ← if at_.contains i then (fs[i.val]).valueWord rd else pure (0, false)
    let (vs, q) ← braidValues rd fs at_ is
    pure (BitVec.ofNat 32 v :: vs, b || q)

/-- Presence bits of an entry: bit j for the j-th input where it holds the entry. -/
def presence (ins at_ : List (Fin 4)) : Nat := strOfElems 1 (ins.map fun i => if at_.contains i then 1 else 0)

/-- Entries of one record of a braid (R270, R271). An entry carries the poison of the coordinates of the inputs that hold
it, and of its values (R257). -/
def braidEntries (rd : FRead) (ins : List (Fin 4)) (union : Bool) : Nat → Forming → Formed
  | 0, x => .done x.w (x.record none) none
  | n + 1, x =>
    let start : Except SStop (Work × Bool × EndWords) :=
      if union then .ok (x.w, ins.any fun i => (x.w.fibs[i.val]).ready, none) else meetInputs rd ins (2 ^ 40) x.w
    match start with
    | .error e => .park e
    | .ok (w, _, some t) => .done w (x.record none) (some t)
    | .ok (w, false, none) => .done w (x.record none) (if x.entries = 0 then some (0, 0, 0) else none)
    | .ok (w, true, none) =>
      let live := ins.filter fun i => (w.fibs[i.val]).ready
      let low : Nat := live.foldl (fun m i => min m ((w.fibs[i.val]).c).toNat) (2 ^ 32)
      let at_ := live.filter fun i => ((w.fibs[i.val]).c).toNat == low
      match braidValues rd w.fibs at_ ins w.seen with
      | .error (.mem e) => .park e
      | .error _ => .done w (x.record none) none
      | .ok ((vs, q), rest) =>
        let y : Forming := { w := { w with seen := rest, met := w.met || q },
                             words := x.words ++ BitVec.ofNat 32 low :: vs, entries := x.entries + 1,
                             mask := x.mask ||| (presence ins at_ * 2 ^ (x.entries * ins.length)),
                             bad := x.bad || q || at_.any w.isDirty }
        match stepInputs rd at_ y.w with
        | .error e => .park e
        | .ok (w1, some t) => .done w1 (y.record none) (some t)
        | .ok (w1, none) => braidEntries rd ins union n { y with w := w1 }

/-- The next record of a fibre stream. -/
def fibRecord (rd : FRead) (w : Work) (st : Stream) : Formed :=
  if st.braid then
    let ins := braidInputs st.fm
    braidEntries rd ins st.union (16 / (1 + ins.length)) ⟨w, [], 0, 0, false⟩
  else walkRecord rd w st.fb

/-- What a fibre stream of a reel starts a turn with. -/
def Stream.work (st : Stream) (fs : Fibs) : Work := ⟨fs, st.dirty, false, st.seen⟩

/-- Whether a fibre stream may start (R271, R294). -/
def fibStartable (fs : Fibs) (st : Stream) : Bool :=
  if st.braid then
    let ins := braidInputs st.fm
    2 ≤ ins.length && ins.all fun i => (fs[i.val]).ready && (fs[i.val]).sorted && ((fs[i.val]).n == (fs[(ins.headD 0).val]).n)
  else chainSound fs st.fb && (chainOf fs 4 st.fb).all fun i => (fs[i.val]).ready || (fs[i.val]).isExhausted

/-- The registers that a fibre stream uses: those it names, with their parent chains (R294). -/
def Stream.fibsUsed (st : Stream) (fs : Fibs) : List (Fin 4) :=
  if st.form = .fib then (if st.braid then (braidInputs st.fm).flatMap fun i => chainOf fs 4 i else chainOf fs 4 st.fb) else []

/-- Whether a running stream of a reel uses a register (R276, R294). -/
def Reel.fibBusy (r : Reel) (i : Fin 4) : Bool :=
  r.streams.toList.any fun st => st.running && (st.fibsUsed r.fibres).contains i

/-- The registers of a page's reel replaced. -/
def State.setFibs (s : State) (c : CtxId) (l : LaySlot) (pg : Pid) (fs : Fibs) : State :=
  s.modLay c l fun x => x.modReel pg.val fun r => { r with fibres := fs }

/-- What a fibre stream's operation has changed: the registers, and the poison that it has met (R257). -/
def State.keepWork (s : State) (c : CtxId) (l : LaySlot) (pg : Pid) (n : Fin 4) (w : Work) : State :=
  (s.setFibs c l pg w.fibs).modStream c l pg n fun x => { x with dirty := w.dirty, poison := x.poison || w.met }

/-- Makes the read that a level operation of a stream waits for; any other stop is the stream's. -/
def State.fibStops (s : State) (c : CtxId) (l : LaySlot) (pg : Pid) (n : Fin 4) : SStop → SOp
  | .want va m k =>
    match (s.modStream c l pg n fun x => { x with used := x.seen.length - k }).streamRead c l pg n true va m with
    | (.error e, s1) => s1.streamStops c l pg n false e
    | (.ok _, s1) => (none, s1)
  | e => s.streamStops c l pg n false e

/-- One record of a fibre stream goes out, or the stream ends, or parks (R270 to R272). -/
def State.fibEmit (s : State) (c : CtxId) (l : LaySlot) (pg : Pid) (n : Fin 4) (r : Reel) (st : Stream) : SOp :=
  match fibRecord (logRead false) (st.work r.fibres) st with
  | .park e => s.fibStops c l pg n e
  | .done w out ending =>
    let s1 := s.keepWork c l pg n w
    let s2 := match out with
      | none => s1
      | some (ws, mask, parent, bad) =>
        let v := vput vzero 0 ws
        let h := streamHdr c l r.cls st.count ws.length (if bad then 15 else 14) (BitVec.ofNat 8 mask) (BitVec.ofNat 8 (mask / 256))
        (s1.streamEmit c l pg n ⟨h, match parent with | some w => v.set 15 w | none => v, []⟩).modStream c l pg n fun x =>
          { x with count := x.count + 1 }
    match ending with
    | some (a, b, d) => (none, s2.endStream c l pg n a b d)
    | none => (none, s2)

/-! ### Skips of a stream (R302) -/

/-- Applies a skip to a register that a running stream uses, and reopens the levels below it where it moved; a trap ends
the stream, a memory stop leaves the skip still to come. The answer says whether the skip is over. -/
def State.applySkip (s : State) (c : CtxId) (l : LaySlot) (pg : Pid) (n : Fin 4) (r : Reel) (st : Stream) (i : Fin 4) (t : Nat) :
    SOp × Bool :=
  let rd := logRead false
  let ended (w : Work) : EndWords → SOp × Bool
    | some (a, b, d) => ((none, (s.keepWork c l pg n w).endStream c l pg n a b d), true)
    | none => ((none, s.keepWork c l pg n w), true)
  match onFib (st.work r.fibres) i true (fun x => x.skipped rd t) with
  | .error e => (s.fibStops c l pg n e, false)
  | .ok (w, some t) => ended w (some t)
  | .ok (w, none) =>
    let ch := if st.braid then [i] else chainOf w.fibs 4 st.fb
    if (w.fibs[i.val]).p = (r.fibres[i.val]).p || (childIn ch i).isNone then ended w none
    else
      match settleChain rd ch chainFuel w i with
      | .error e => (s.fibStops c l pg n e, false)
      | .ok (w1, _, t) => ended w1 t

/-- FIB_SKIP_APPLY (R302): the oldest skip whose hand-off is due reaches the reel; one for a register that no running
stream uses, or that is not ready, is discarded, and so is one for a register that is not sorted (R271; DESIGN CHOICE,
log entry 68). A stream applies it between entries, one read a turn; a record begun is formed again after it. -/
def execFibSkipApply (c : CtxId) (l : LaySlot) (pg : Pid) (n : Fin 4) (s : State) : Res :=
  match (s.lay? c l).bind fun x => x.reel? pg.val with
  | none => .next s
  | some r =>
    match r.skips with
    | [] => .next s
    | (i, t, reqs) :: rest =>
      let drop (s : State) : State := s.modLay c l fun x => x.modReel pg.val fun z => { z with skips := rest }
      if !(reqs.all fun q => s.performed q) then .next s
      else if !(r.fibBusy i) || !(r.fibres[i.val]).ready || !(r.fibres[i.val]).sorted then .next (drop s)
      else
        let st := r.streams[n.val]
        if st.st = .running && (st.fibsUsed r.fibres).contains i && st.parked.isNone && st.ending.isNone && !st.hold then
          let st0 : Stream := if st.skipping then st else { st with seen := [], used := 0, skipping := true }
          let ((_, s1), done) := (s.modStream c l pg n fun _ => st0).applySkip c l pg n r st0 i t.toNat
          .next (if done then (drop s1).modStream c l pg n Stream.opEnded else s1)
        else .next s

/-! ### The 64-byte form (R267) -/

/-- A register as bytes. -/
def fibreBytes (x : Fibre) : List Byte :=
  bytesOfNat 8 x.crd.toNat ++ bytesOfNat 8 x.pos.toNat ++ bytesOfNat 8 x.val.toNat ++ bytesOfNat 4 x.n.toNat
    ++ bytesOfNat 4 x.q.toNat ++ bytesOfNat 4 x.p ++ bytesOfNat 4 x.pe ++ bytesOfNat 4 x.c.toNat ++ bytesOfNat 4 x.t.toNat
    ++ [x.control, x.flags, x.format, x.state, x.trap, 0, 0, 0] ++ bytesOfNat 8 x.trapPos.toNat

/-- A register from bytes; an end of 2^32 is written as 0. -/
def fibreOf (bs : List Byte) : Fibre :=
  let pe := natAt bs 36 4
  { crd := BitVec.ofNat 64 (natAt bs 0 8), pos := BitVec.ofNat 64 (natAt bs 8 8), val := BitVec.ofNat 64 (natAt bs 16 8),
    n := BitVec.ofNat 32 (natAt bs 24 4), q := BitVec.ofNat 32 (natAt bs 28 4), p := natAt bs 32 4,
    pe := if pe = 0 && natAt bs 51 1 = 1 then 2 ^ 32 else pe, c := BitVec.ofNat 32 (natAt bs 40 4),
    t := BitVec.ofNat 32 (natAt bs 44 4), control := BitVec.ofNat 8 (natAt bs 48 1), flags := BitVec.ofNat 8 (natAt bs 49 1),
    format := BitVec.ofNat 8 (natAt bs 50 1), state := BitVec.ofNat 8 (natAt bs 51 1), trap := BitVec.ofNat 8 (natAt bs 52 1),
    trapPos := BitVec.ofNat 64 (natAt bs 56 8) }

/-- Whether a set-up breaks a rule of R301; i is its own register. -/
def setupBad (fs : Fibs) (i : Fin 4) (x : Fibre) : Bool :=
  x.n == 0 || bitsNat 7 6 x.format.toNat != 0 || x.vm == 3
    || (x.vm == 2 && !(8 ≤ x.valBits && x.valBits ≤ 32))
    || match x.parent? with | some p => p == i || !((fs[p.val]).ready) | none => false

/-- Whether a form of fib.load breaks a rule of R303. -/
def formBad (fs : Fibs) (i : Fin 4) (x : Fibre) (bs : List Byte) : Bool :=
  setupBad fs i x || 3 < x.state.toNat || bitsNat 7 2 x.flags.toNat != 0 || natAt bs 53 3 != 0
    || (if x.state = 3 then !(0x30 ≤ x.trap.toNat && x.trap.toNat ≤ 0x32) else x.trap != 0)

end Sys2Proof.Machine
end

