-- ==== Sys2Proof/Machine/StationMemory.lean ====
section
/-!
DEFINITION. The memory instructions (05 R152 to R172): in a station, checked where they stand and turned into requests
or buffered stores; in a thread, performed when they issue, or through a portal.
-/
namespace Sys2Proof.Machine

/-! ### Fields -/

/-- The semantics of an access: 0 relaxed, 1 acquire, 2 release, 3 both, 4 sequential (R72). -/
def semOf (o : MForm) : Nat := o.mod.toNat % 8

/-- Whether an access orders as a release somewhere beyond its own record (R318 row 5, R320). -/
def strongSem (o : MForm) : Bool := 2 ≤ semOf o && o.scope != 0

/-- Whether an access is relaxed, of itself or since its domain is its own record alone (R320). -/
def relaxedSem (o : MForm) : Bool := semOf o == 0 || (2 ≤ semOf o && o.scope == 0)

/-- Whether an atomic returns nothing (R162). -/
def noReturn (o : MForm) : Bool := o.mod.getLsbD 3

/-- sext(disp, 20). -/
def dispInt (o : MForm) : Int := o.disp.toInt

/-- Bytes of a group of words. -/
def bytesOfWords (ws : List Word) (n : Nat) : List Byte := (ws.flatMap fun w => bytesOfNat 4 w.toNat).take n

/-- What kind of access an instruction makes. -/
structure AccessKind where
  role : NearKind
  op : UOp
  align : Nat
  /-- It writes; it is a read-modify-write. -/
  wr : Bool
  rmw : Bool
  deriving DecidableEq, Repr

/-- What an access needs of its leaves (R400). -/
def AccessKind.need (k : AccessKind) : Need := ⟨!k.wr || k.rmw, k.wr, false⟩

/-! ### Stations: the base and the checks -/

/-- The base of a station's address (R153): a word for near space, a pair otherwise. -/
def Run.base (r : Run) (o : MForm) : Nat × Run :=
  match spaceOf o.sp with
  | .near =>
    let (v, r1) := r.word o.a
    (v.toNat, r1)
  | _ =>
    let (v, r1) := r.pair o.a
    (v.toNat, r1)

/-- The effective address: base, displacement and index offset, wrapped by space (R153, R161). -/
def effAddr (o : MForm) (base : Nat) (off : Int) : Nat :=
  match spaceOf o.sp with
  | .near => narrow 32 ((base : Int) + dispInt o + off)
  | _ => narrow 64 ((base : Int) + dispInt o + off)

/-- The checks of an access of elements where it stands (R153 to R157). -/
def State.checkAccess (s : State) (p : Place) (x : Lay) (o : MForm) (k : AccessKind) (elems : List (Nat × Nat))
    (dat cmp : List Byte) : Chk :=
  if elems.any fun e => e.1 % k.align != 0 then .fault 4
  else
    match spaceOf o.sp with
    | .near => s.checkNear p x k.role elems dat cmp
    | .far => s.checkFar p k.need elems dat cmp
    | .portal => s.checkPortal p k.need elems dat cmp

/-- A request of an execution with nothing performed yet. -/
def newReq (s : State) (p : Place) (x : Nat) (k : AccessKind) (portal posted : Bool) (us : List MUnit) (vas : List VaRef) : Req :=
  { id := s.nextId, place := p, owner := if posted then .nobody else .exec x, exec := x, op := k.op, vas := vas, wr := k.wr,
    atomic := k.rmw, portal := portal, units := us, got := [], perm := [], fwd := [], stage := .sent, after := [], posted := posted,
    relaxed := false, poison := false, unflushed := false, out := [], marked := false, born := s.cyc }

/-- Parks the execution in hand on a new request. -/
def State.parkOn (s : State) (p : Place) (f : Frame) (q : Req) : State :=
  { s with reqs := s.reqs ++ [q], nextId := q.id + 1, cur := .station p { f with st := .parked q.id } }

/-- Parks the execution in hand until its access is translated (R157, R403); without a park entry it stands. -/
def State.parkWalk (s : State) (p : Place) (f : Frame) (k : AccessKind) (portal : Bool) (nd : Node) (vas : List VaRef) : State :=
  match s.station? p with
  | none => s
  | some st =>
    if !st.parkFree then s
    else
      let q := newReq s p f.id k portal false [⟨nd, 0, 0, [], [], 0, 0⟩] vas
      s.parkOn p f { q with stage := s.waitStage q }

/-- Parks the execution in hand under the event that a refused translation raises (R401, R404); without a wait entry it is
sent again after 64 cycles (R403). -/
def State.parkDenied (s : State) (p : Place) (f : Frame) (k : AccessKind) (portal : Bool) (nd : Node) (vas : List VaRef)
    (cause va : Nat) : State :=
  match s.station? p with
  | none => s
  | some st =>
    let q := newReq s p f.id k portal false [⟨nd, 0, 0, [], [], 0, 0⟩] vas
    if !st.parkFree then s
    else if !(s.waitFree (s.waitUnit q)) then s.parkOn p f { q with stage := .retry (s.cyc + 64) }
    else
      let (tag, s1) := (s.parkOn p f q).joinEvent q cause va
      s1.modReq q.id fun y => { y with stage := .event tag }

/-- What follows the checks: a fault, a parking, or the access itself. -/
def State.afterCheck (s : State) (p : Place) (fr f : Frame) (o : MForm) (k : AccessKind) (c : Chk)
    (go : List MUnit → List VaRef → State) : State :=
  let portal := spaceOf o.sp == .portal
  match c with
  | .fault kind => s.faultExec p f kind 0 true
  | .miss nd vas => s.parkWalk p fr k portal nd vas
  | .denied nd cause va vas => s.parkDenied p fr k portal nd vas cause va
  | .ok us vas => go us vas

/-- Whether token queues hold an access of the execution in hand back (R171). -/
def State.tokHeld (s : State) (p : Place) (f : Frame) (us : List MUnit) : Bool :=
  match s.station? p with
  | some st => st.tokBlocks f.id f.waits (unitGranules us)
  | none => false

/-- A frame that has made one more access of some units. -/
def Frame.touch (f : Frame) (us : List MUnit) : Frame :=
  { f with touched := addGranules f.touched us, nacc := f.nacc + 1 }

/-- The byte of the latest buffered store over a place (R159). -/
def storeByte (nd : Node) (a : Nat) : List BufStore → Option Byte
  | [] => none
  | b :: bs =>
    match storeByte nd a bs with
    | some x => some x
    | none => (b.units.reverse.findSome? fun u =>
        if u.node == nd && u.addr ≤ a && a < u.addr + u.len then u.dat[a - u.addr]? else none)

/-- What the buffered stores of an execution supply to a load (R159). -/
def forwarded (us : List MUnit) (bs : List BufStore) : List (Option Byte) :=
  if bs.isEmpty then [] else us.flatMap fun u => (List.range u.len).map fun i => storeByte u.node (u.addr + i) bs

/-- A load goes out (R152, R159): the execution parks until its reply. perm is the order of an ldx's elements. -/
def State.issueLoad (s : State) (p : Place) (fr f : Frame) (o : MForm) (k : AccessKind) (us : List MUnit) (vas : List VaRef)
    (perm : List Nat := []) : State :=
  match s.station? p with
  | none => s
  | some st =>
    if !st.parkFree then s
    else if s.tokHeld p f us then { s with cur := .station p { fr with st := .held } }
    else
      let flush := us.any (fun u => u.node == .host) || (strongSem o && o.scope == 4)
      let q := newReq s p f.id k (spaceOf o.sp == .portal) false us vas
      s.parkOn p (f.touch us) { q with after := s.mustFollow f.r.past false false flush us, fwd := forwarded us f.stores,
                                       perm := perm, relaxed := semOf o == 0 }

/-- A store is buffered until its segment completes (R159). -/
def State.bufferStore (s : State) (p : Place) (f : Frame) (o : MForm) (us : List MUnit) (vas : List VaRef) : State :=
  let b : BufStore := { units := us, vas := vas, posted := relaxedSem o, rel := strongSem o, sys := o.scope == 4,
                        portal := spaceOf o.sp == .portal, ix := f.nacc, waits := f.waits }
  { s with cur := .station p { f.touch us with stores := f.stores ++ [b], ip := f.ip + 1 } }

/-- An atomic, or the claim of an stp, goes out; an atomic sends the buffered stores before it (R159, R168). -/
def State.issueAtomic (s : State) (p : Place) (fr f : Frame) (o : MForm) (k : AccessKind) (us : List MUnit) (vas : List VaRef) : State :=
  match s.station? p with
  | none => s
  | some st =>
    let blocked := s.tokHeld p f us || f.stores.any fun b => st.tokBlocks f.id b.waits (unitGranules b.units)
    if !st.parkFree then s
    else if blocked then { s with cur := .station p { fr with st := .held } }
    else
      let posted := noReturn o && relaxedSem o
      let (f1, s1) := if k.op = .claim then (f, s) else State.sendStores p f.stores f s
      let flush := us.any (fun u => u.node == .host) || (strongSem o && o.scope == 4)
      let after := s1.mustFollow f.r.past true (strongSem o) flush us ++ if k.op = .claim then [] else f1.perf.map Prod.snd
      let q := newReq s1 p f.id k (spaceOf o.sp == .portal) posted us vas
      let f2 := { f1.touch us with stores := if k.op = .claim then f1.stores else [] }
      let q1 := { q with after := after, relaxed := semOf o == 0 }
      if posted then
        { s1 with reqs := s1.reqs ++ [q1], nextId := q1.id + 1,
                  cur := .station p { f2 with r := f2.r.posts q1.id, perf := f2.perf ++ [(f1.nacc, q1.id)], ip := f2.ip + 1 } }
      else s1.parkOn p f2 q1

/-- Whether the execution in hand carries a poison record, on which nothing is written (R172). -/
def poisonStore (k : AccessKind) (f : Frame) : Bool := k.wr && f.r.isPoison

/-- The data operand of an access: of a 64-bit atomic in a station a word pair (R153, R164), otherwise a group of
words. -/
def Run.memWords (r : Run) (o : MForm) (k : AccessKind) (sp : Spec) : List Word × Run :=
  if k.rmw && o.sz == 1 then
    let (v, r1) := r.pair sp
    ([v.truncate 32, (v >>> 32).truncate 32], r1)
  else r.words sp (szWords o.sz)

/-- A station's access of one element (R152). -/
def stationAccess (o : MForm) (k : AccessKind) (useB useD : Bool) (s : State) (p : Place) (fr : Frame) : State :=
  match s.lay? p.ctx p.slot with
  | none => s
  | some x =>
    let n := szBytes o.sz
    let (base, r1) := (s.run p fr).base o
    let (bw, r2) := if useB then r1.memWords o k o.b else ([], r1)
    let (dw, r3) := if useD then r2.memWords o k o.d else ([], r2)
    let s1 := { s with free := r3.free }
    if poisonStore k fr then s1.faultExec p r3.f 9 0 true
    else
      let c := s1.checkAccess p x o k [(effAddr o base 0, n)] (bytesOfWords bw n) (bytesOfWords dw n)
      s1.afterCheck p fr r3.f o k c fun us vas =>
        match k.role, k.wr with
        | .store, _ => s1.bufferStore p r3.f o us vas
        | .rmw, _ | .stp, _ => s1.issueAtomic p fr r3.f o k us vas
        | _, _ => s1.issueLoad p fr r3.f o k us vas

/-- An order of n elements that n free values choose: each in turn goes to a place among those before it. -/
def shuffle (ws : List Word) : List Nat :=
  (List.range ws.length).foldl (fun acc i =>
    let j := (ws.getD i 0).toNat % (acc.length + 1)
    acc.take j ++ i :: acc.drop j) []

/-- Units in an order chosen, but for those of one address, which keep their own: the highest element's value is the one
left (R161). -/
def reseat : List MUnit → List MUnit → List MUnit
  | [], _ => []
  | u :: us, left =>
    let same (v : MUnit) : Bool := v.node == u.node && v.addr == u.addr
    (left.find? same).getD u :: reseat us (left.eraseP same)

/-- A station's gather or scatter of 4-byte elements (R161), unordered among themselves: free values choose their order
(R330; log entry 17). -/
def stationGather (o : MForm) (k : AccessKind) (s : State) (p : Place) (fr : Frame) : State :=
  match s.lay? p.ctx p.slot with
  | none => s
  | some x =>
    let g := szWords o.sz
    let (base, r1) := (s.run p fr).base o
    let (ix, r2) := r1.words o.b g
    let (dw, r3) := if k.wr then r2.words o.d g else ([], r2)
    let s1 := { s with free := r3.free }
    if poisonStore k fr then s1.faultExec p r3.f 9 0 true
    else
      let elems := ix.map fun w => (effAddr o base (4 * w.toInt), 4)
      let c := s1.checkAccess p x o k elems (bytesOfWords dw (4 * g)) []
      s1.afterCheck p fr r3.f o k c fun us vas =>
        let (ws, s2) := if us.length ≤ 1 then ([0], s1) else s1.takeFrees us.length
        let perm := shuffle ws
        let mixed := perm.filterMap fun i => us[i]?
        if k.wr then s2.bufferStore p r3.f o (reseat mixed us) vas else s2.issueLoad p fr r3.f o k mixed vas perm

/-! ### Threads (R153, R154, R160, R471) -/

/-- The effective address of a thread's access. -/
def State.threadEa (s : State) (c : CtxId) (t : Tid) (o : MForm) : Nat := narrow 64 (((s.readT c t o.a).toNat : Int) + dispInt o)

/-- A thread's read-modify-write of far memory (R162, R166), one unit (R330): a poisoned unit traps, and otherwise the
old bytes go on. -/
def State.withRmw (s : State) (c : CtxId) (t : Tid) (va n : Nat) (op : UOp) (dat cmp : List Byte)
    (f : List Byte → State → State) : State :=
  if s.walkWaits (s.dataUnit c) c va n then s.unitsLeft c t
  else
    match s.farRange c va n n ⟨true, true, false⟩ with
    | (.error e, s1) => s1.troubleAt c t e true
    | (.ok ps, s1) =>
      if ps.any fun p => s1.rowsBusy p.1 p.2 then s1.unitsLeft c t
      else
        let s2 := ps.foldl (fun z p => z.hbmScan p.1 p.2) s1
        let (old, bad) := s2.readPieces ps
        if bad then s2.troubleAt c t ⟨9, va⟩ true
        else
          match rmw op old dat cmp with
          | some bs => f old ((ps.foldl (fun z p => z.dirtyLines p.1 p.2) s2).writePieces ps bs)
          | none => f old s2

/-- Translates a portal access of a thread (R469): its units, or a trap. -/
def State.portalRange (s : State) (c : CtxId) (ea n align : Nat) (need : Need) (dat cmp : List Byte) :
    Except Trouble (List MUnit) × State :=
  match xTarget s c ea with
  | none => (.error ⟨3, ea⟩, s)
  | some tg =>
    if ea % align ≠ 0 then (.error ⟨4, ea⟩, s)
    else go tg (portalPieces tg (xVa ea) n) s []
where
  /-- Every piece in turn; the physical ranges gathered so far come last. -/
  go (tg : Nat) : List VPiece → State → List (Nat × Leaf × Nat) → Except Trouble (List MUnit) × State
    | [], s1, acc =>
      if leavesMatch tg acc.reverse then (.ok (s1.physUnits (nodeOfTarget tg) (portalPieces tg (xVa ea) n) acc.reverse dat cmp), s1)
      else (.error ⟨3, ea⟩, s1)
    | v :: vs, s1, acc =>
      match s1.translate v.unit c v.va need with
      | (.error e, s2) => (.error ⟨4 + e, (sext57 v.va).toNat⟩, s2)
      | (.ok lf, s2) => go tg vs s2 ((lf.pa + v.va % 65536, lf, v.len) :: acc)

/-- A thread's request at a portal; a posted one lets the thread go on (R152, R160). -/
def State.threadPortal (s : State) (c : CtxId) (t : Tid) (k : AccessKind) (ea n align : Nat) (posted : Bool) (d : Option Spec)
    (dat cmp : List Byte) : State :=
  match s.portalRange c ea n align k.need dat cmp with
  | (.error e, s1) => s1.troubleAt c t e k.wr
  | (.ok us, s1) =>
    let id := s1.nextId
    let q : Req :=
      { id := id, place := ⟨c, 0, 0, 0⟩, owner := .thread t, exec := 0, op := k.op, vas := [⟨ea, n⟩], wr := k.wr, atomic := k.rmw,
        portal := true, units := us, got := [], perm := [], fwd := [], stage := .sent, after := [], posted := posted, relaxed := false,
        poison := false, unflushed := k.op == .wr && us.any (fun u => u.node == .host), out := [], marked := false, born := s1.cyc }
    let s2 := { s1 with reqs := s1.reqs ++ [q], nextId := id + 1 }
    if posted then s2.advance c t else s2.modThread c t fun th => { th with wait := .portal id d }

/-- The low bytes of a thread's register. -/
def State.regBytes (s : State) (c : CtxId) (t : Tid) (sp : Spec) (n : Nat) : List Byte := bytesOfNat n (s.readT c t sp).toNat

/-- A thread's atomic (R162, R166): the target's operator is checked first (R474). -/
def threadRmw (i : Instr) (o : MForm) (k : AccessKind) (posted : Bool) (cmp : Bool) (s : State) (c : CtxId) (t : Tid) : State :=
  let n := szBytes o.sz
  let ea := s.threadEa c t o
  let dat := s.regBytes c t o.b n
  let old := if cmp then s.regBytes c t o.d n else []
  let d := if noReturn o then none else some o.d
  if spaceOf o.sp = .portal then
    match xTarget s c ea with
    | none => s.troubleAt c t ⟨3, ea⟩ true
    | some tg =>
      if !(s.supports c (nodeOfTarget tg) k.op n) then s.trapAt c t 1 ((encode i).getD 0).toNat
      else s.threadPortal c t k ea n n posted d dat old
  else
    s.withRmw c t ea n k.op dat old fun bs s1 =>
      match d with
      | some sp => s1.finishT c t sp (BitVec.ofNat 64 (natOfBytes bs))
      | none => s1.advance c t

/-! ### The instructions -/

/-- The access of a load. -/
def loadKind : AccessKind := ⟨.load, .rd, 1, false, false⟩
/-- The access of a store. -/
def storeKind : AccessKind := ⟨.store, .wr, 1, true, false⟩
/-- The access of an integer atomic. -/
def atomKind (o : MForm) : AccessKind :=
  ⟨.rmw, .atomI o.aop (if szBytes o.sz = 8 then 8 else 4), szBytes o.sz, true, true⟩
/-- The access of a float atomic. -/
def atomfKind (o : MForm) : AccessKind := ⟨.rmw, .atomF o.aop, szBytes o.sz, true, true⟩
/-- The access of a compare and swap. -/
def casKind (o : MForm) : AccessKind := ⟨.rmw, .cas, szBytes o.sz, true, true⟩

/-- Runs a memory instruction at its actor. -/
def runMem (s : State) (ft : CtxId → Tid → State) (fs : Place → Frame → State) : Res :=
  match s.cur with
  | .device => .next s
  | .thread c t => .next (threadFar s c t (ft c t))
  | .station p fr => .next (fs p fr)

/-- ld (R152 to R160). -/
def execLd (o : MForm) (s : State) : Res :=
  runMem s (fun c t =>
    let ea := s.threadEa c t o
    let n := szBytes o.sz
    if spaceOf o.sp = .portal then s.threadPortal c t loadKind ea n 1 false (some o.d) [] []
    else s.withRead c t ea n 1 fun bs s1 => s1.finishT c t o.d (BitVec.ofNat 64 (natOfBytes bs)))
    (stationAccess o loadKind false false s)

/-- st (R152 to R160). -/
def execSt (o : MForm) (s : State) : Res :=
  runMem s (fun c t =>
    let ea := s.threadEa c t o
    let bs := s.regBytes c t o.b (szBytes o.sz)
    if spaceOf o.sp = .portal then s.threadPortal c t storeKind ea bs.length 1 (semOf o == 0) none bs []
    else s.withWrite c t ea 1 bs fun s1 => s1.advance c t)
    (stationAccess o storeKind true false s)

/-- ldx (R161). -/
def execLdx (o : MForm) (s : State) : Res :=
  runMem s (fun _ _ => s) (stationGather o { loadKind with align := 4 } s)

/-- stx (R161). -/
def execStx (o : MForm) (s : State) : Res :=
  runMem s (fun _ _ => s) (stationGather o { storeKind with align := 4 } s)

/-- atom (R162). -/
def execAtom (o : MForm) (s : State) : Res :=
  runMem s (threadRmw (.atom o) o (atomKind o) (noReturn o && semOf o == 0) false s) (stationAccess o (atomKind o) true false s)

/-- atomf (R163), in stations only. -/
def execAtomf (o : MForm) (s : State) : Res :=
  runMem s (fun _ _ => s) (stationAccess o (atomfKind o) true false s)

/-- cas (R166): d holds what is compared. -/
def execCas (o : MForm) (s : State) : Res :=
  runMem s (threadRmw (.cas o) o (casKind o) false true s) (stationAccess o (casKind o) true true s)

/-- ldp (R168). -/
def execLdp (o : MForm) (s : State) : Res :=
  runMem s (fun _ _ => s) (stationAccess o ⟨.ldp, .ldp, szBytes o.sz, false, false⟩ false false s)

/-- stp (R168): its claim goes first. -/
def execStp (o : MForm) (s : State) : Res :=
  runMem s (fun _ _ => s) (stationAccess o ⟨.stp, .claim, szBytes o.sz, true, false⟩ true false s)

/-- A fence in record order (R318 rows 5, 6 and 9): a release part bars later writes, .sc every later access; the
domain .rec orders nothing (R320). -/
def fencePast (o : MForm) (ps : List Past) : List Past :=
  if o.scope = 0 then ps
  else ps.map fun q => { q with relFence := q.relFence || 2 ≤ semOf o, scFence := q.scFence || semOf o == 4 }

/-- fence (R169). In a thread every access is ordered already (R318 row 7); a release part at .sys waits for the flush
of its host writes (R475). -/
def execFence (o : MForm) (s : State) : Res :=
  match s.cur with
  | .device => .next s
  | .thread c t =>
    .next (if o.scope = 4 && 2 ≤ semOf o then threadFar s c t (s.advance c t) else s.advance c t)
  | .station p fr =>
    .next { s with cur := .station p { fr with r := { fr.r with past := fencePast o fr.r.past }, ip := fr.ip + 1 } }

/-- The lines of a range that has a good translation now, of those whose walk waits for no repair (R170). -/
def State.prefetch (s : State) (p : Place) (va n : Nat) : State :=
  if !(rangeCanonical va n) then s
  else
    (regionPieces va n).foldl (fun z q =>
      if z.walkBusy p.ctx q.1 then z
      else
      let z := z.walkScan p.ctx q.1
      match z.walk p.ctx q.1 with
      | .ok lf =>
        if lf.mt = 0 && lf.r then (granules 64 (lf.pa + q.1 % 65536) q.2).foldl (fun y g => y.installLine p.ctx p.slot g) z else z
      | .error _ => z) s

/-- prf (R170): it never faults; the lines go to the lay's cache. A thread has no lay. -/
def execPrf (o : MForm) (s : State) : Res :=
  match s.cur with
  | .device => .next s
  | .thread c t => .next (s.advance c t)
  | .station p fr =>
    let (base, r) := (s.run p fr).base o
    .next ((s.prefetch p (effAddr o base 0) (szBytes o.sz)).nextIp p r)

/-- otok.put (R171): the entry appended at firing covers the accesses so far. -/
def execOtokPut (o : MForm) (s : State) : Res :=
  match s.cur with
  | .station p fr =>
    .next { s with cur := .station p { fr with puts := fr.puts ++ [(Fin.ofNat 16 o.disp.toNat, fr.touched, fr.nacc)], ip := fr.ip + 1 } }
  | _ => .next s

/-- otok.wait (R171). -/
def execOtokWait (o : MForm) (s : State) : Res :=
  match s.cur with
  | .station p fr => .next { s with cur := .station p { fr with waits := fr.waits ++ [Fin.ofNat 16 o.disp.toNat], ip := fr.ip + 1 } }
  | _ => .next s

/-- TOKEN_ENTRY_RETIRE (R171): an entry whose covered accesses are performed retires. -/
def execTokenEntryRetire (p : Place) (e : Nat) (s : State) : Res :=
  match s.station? p with
  | none => .next s
  | some st =>
    if st.toks.any fun k => k.id == e && k.addrs.isSome && k.reqs.all fun r => s.performed r then
      .next (s.modStation p fun y => { y with toks := y.toks.filter fun k => k.id != e })
    else .next s

end Sys2Proof.Machine
end

