-- ==== Sys2Proof/Machine/Reel.lean ====
section
/-!
DEFINITION. The reel of a page at work (08 R250, R257, R258, 13 R387) and the instructions that start, stop and await
streams and drive fibre registers (09 R294 to R304).
-/
namespace Sys2Proof.Machine

/-! ### Conditions (R276) -/

/-- Conditions 1 and 5: a resident lay, and a page of it. -/
def State.layPage (s : State) (c : CtxId) (ls : BitVec 3) (pg : BitVec 6) : Except Nat Lay :=
  match s.resident? c (Fin.ofNat 8 ls.toNat) with
  | none => .error 1
  | some x => if x.npages ≤ pg.toNat then .error 5 else .ok x

/-- A status in bits [55:48], all else zero (R276). -/
def slotStatus (n : Nat) : DWord := BitVec.ofNat 64 (n * 2 ^ 48)

/-- The lay slot of a field. -/
def slotOf (ls : BitVec 3) : LaySlot := Fin.ofNat 8 ls.toNat
/-- The page of a field. -/
def pageOf (pg : BitVec 6) : Pid := Fin.ofNat 64 pg.toNat

/-! ### Operations of a reel (R387) -/

/-- Whether a compressed read still owes poison records after an error (R260); a wrong block count in the header
(status 0x22 at offset 4) ends it before it emits. -/
def Stream.owesPoison (st : Stream) : Bool :=
  match st.ending with
  | some (k, d, _) => st.form == .cmp && 0x20 ≤ k && k ≤ 0x24 && !(k == 0x22 && d == 4)
      && !((descOf st.desc).param.testBit 0) && st.count < (descOf st.desc).counts.headD 0
  | none => false

/-- Whether a stream that comes to its end has still to write records that it has accepted into an mx memory format:
those of a block not full, and a half 0 that waits (R26, R256). One that was dropped issues no access. -/
def Stream.owesWrite (st : Stream) : Bool :=
  match st.ending with
  | some (k, _, _) =>
    let d := descOf st.desc
    k != 0x11 && (st.form == .sca || st.form == .aff && d.param.testBit 0) && isMx d.mf && !(st.leftOver d).isEmpty
  | none => false

/-- Whether a stream that is to end has still something to emit or to write. -/
def Stream.owes (st : Stream) : Bool := st.owesPoison || st.owesWrite

/-- Whether a stream takes records at its input port as data to write. -/
def Stream.writes (st : Stream) : Bool :=
  match st.form with
  | .aff | .cmp => (descOf st.desc).param.testBit 0
  | .sca => true
  | _ => false

/-- Whether the output link of a slot has a free slot. -/
def Lay.outFree (x : Lay) (pg : Pid) (n : Fin 4) : Bool :=
  match x.linkFrom? ⟨pg, reelSid, n.val⟩ with
  | some k => x.hasSlot k
  | none => false

/-- The head record of the input link of a slot, with the link. -/
def Lay.inHead (x : Lay) (pg : Pid) (n : Fin 4) : Option (Nat × Rec) :=
  (x.linkTo? ⟨pg, reelSid, n.val⟩).bind fun k => (x.headRec? k).map fun r => (k, r)

/-- Whether an inject waits for a free slot on the output link of a stream slot (R151). -/
def State.injectWaits (s : State) (c : CtxId) (l : LaySlot) (pg : Pid) (n : Fin 4) : Bool :=
  (s.ctx c).threads.toList.any fun t =>
    match t.wait with
    | .inject _ l' pg' n' _ => l' == l && pg' == pg && n' == n
    | _ => false

/-- Whether a stream's next operation has what it needs, a slot of its output link among it. -/
def State.streamHas (s : State) (x : Lay) (pg : Pid) (n : Fin 4) (st : Stream) : Bool :=
  match st.form with
  | .rq => true
  | .gat =>
    match st.held with
    | some r => x.outFree pg n && !(s.gatherMate x pg n st (descOf st.desc) r).2
    | none => false
  | .fib => x.outFree pg n && !st.skipping
  | .sca => match x.inHead pg n with | some (_, r) => s.handoffDone r | none => false
  | .aff | .cmp =>
    if st.writes then (match x.inHead pg n with | some (_, r) => s.handoffDone r | none => false) else x.outFree pg n

/-- Whether a stream may move on: it runs, is not parked, and holds neither at a barrier nor, under a forced
pre-emption, at its stop point (R298, R387, R419). An operation that has issued an access before comes to its end. -/
def State.streamFree (s : State) (c : CtxId) (st : Stream) : Bool :=
  st.st == .running && st.parked.isNone && !st.hold && ((!st.barrier && (s.ctx c).preempt.isNone) || st.issued)

/-- Whether a slot's next operation can be performed now, but for the turn of an inject (R387). -/
def State.slotReady (s : State) (c : CtxId) (x : Lay) (pg : Pid) (n : Fin 4) (st : Stream) : Bool :=
  s.streamFree c st && (st.owesWrite || ((st.ending.isNone || st.owesPoison) && s.streamHas x pg n st))

/-- A slot's next operation, as far as it goes in this turn. -/
def State.streamOp (s : State) (c : CtxId) (l : LaySlot) (pg : Pid) (n : Fin 4) : SOp :=
  let s := s.modStream c l pg n fun x => { x with used := 0 }
  match s.lay? c l with
  | none => (none, s)
  | some x =>
    match x.reel? pg.val with
    | none => (none, s)
    | some r =>
      let st := r.streams[n.val]
      let d := descOf st.desc
      if st.owesWrite then s.writeLeft c l pg n st d
      else
        match st.form with
        | .rq => s.rqBlock c l pg n st d
        | .fib => s.fibEmit c l pg n r st
        | .gat => s.gatherEmit c l pg n x st d
        | .sca => match x.inHead pg n with | some (k, q) => s.scatter c l pg n k st d q | none => (none, s)
        | .aff =>
          if st.writes then
            match x.inHead pg n with
            | some (k, q) => if d.param.testBit 1 then s.stage c l pg n x k st d q else s.affWrite c l pg n k st d q
            | none => (none, s)
          else s.affRead c l pg n st d
        | .cmp =>
          if st.writes then
            match x.inHead pg n with
            | some (k, q) => s.cmpWrite c l pg n k st d q
            | none => (none, s)
          else s.cmpRead c l pg n st d

/-- Whether a slot's next access waits: for a row under repair (R486), at its bank (R235, R236), or for a
translation-wait entry (R403). -/
def State.slotWaits (s : State) (c : CtxId) (l : LaySlot) (pg : Pid) (n : Fin 4) : Bool := (s.streamOp c l pg n).1 == some (0, 0)

/-- Whether a slot's next operation can be performed now (R387). An inject that waits for the slot's output link takes
the free slot in its turn (R151). -/
def State.eligibleSlot (s : State) (c : CtxId) (l : LaySlot) (x : Lay) (pg : Pid) (n : Fin 4) (st : Stream) : Bool :=
  s.slotReady c x pg n st && !(x.outFree pg n && !st.writes && !st.lastInj && s.injectWaits c l pg n)
    && !(s.slotWaits c l pg n)

/-- The cost of a slot's next operation (R387): 16, or the bytes of its piece where they are more. A record that moves
no memory counts its payload of at most 64 bytes (DESIGN CHOICE, log entry 69). -/
def State.opCost (s : State) (c : CtxId) (l : LaySlot) (pg : Pid) (n : Fin 4) : Nat :=
  match (s.streamOp c l pg n).1 with
  | some (m, rest) => max 16 (min 64 (m + rest))
  | none => 64

/-- The arbitration loop of R387: the slot served, if any, the pointer and the deficits. -/
def drr (ws : Vector (Fin 4) 4) (elig running : Fin 4 → Bool) (cost : Fin 4 → Nat) :
    Nat → Fin 4 → Vector Nat 4 → Option (Fin 4) × Fin 4 × Vector Nat 4
  | 0, cur, ds => (none, cur, ds)
  | n + 1, cur, ds =>
    if elig cur && cost cur ≤ ds[cur.val] then (some cur, cur, ds.set cur.val (ds[cur.val] - cost cur))
    else
      let ds1 := if !(running cur) then ds.set cur.val 0 else ds
      let ds2 := if running cur && !(elig cur) then ds1.set cur.val (min (ds1[cur.val]) (64 * ((ws[cur.val]).val + 1))) else ds1
      let nx := cur + 1
      let ds3 := if elig nx then ds2.set nx.val (ds2[nx.val] + 64 * ((ws[nx.val]).val + 1)) else ds2
      drr ws elig running cost n nx ds3

/-- The slot that the arbitration serves next, with the reel's pointer and deficits after it. -/
def State.reelChoice (s : State) (c : CtxId) (l : LaySlot) (x : Lay) (pg : Pid) (r : Reel) :
    Option (Fin 4) × Fin 4 × Vector Nat 4 :=
  drr r.weights (fun n => s.eligibleSlot c l x pg n r.streams[n.val]) (fun n => (r.streams[n.val]).running)
    (fun n => s.opCost c l pg n) 5 r.ptr r.deficit

/-- The slot whose piece of memory is under way. -/
def State.setMid (s : State) (c : CtxId) (l : LaySlot) (pg : Pid) (m : Option (Fin 4)) : State :=
  s.modLay c l fun x => x.modReel pg.val fun r => { r with mid := m }

/-- A slot performs its next unit: the operation goes on while its piece has units left, and a record whose last unit
this was is formed or accepted at once (R387). -/
def State.reelPerform (s : State) (c : CtxId) (l : LaySlot) (pg : Pid) (n : Fin 4) : State :=
  let ended (s : State) : State := (s.modStream c l pg n Stream.opEnded).setMid c l pg none
  match s.streamOp c l pg n with
  | (none, s1) => ended s1
  | (some (_, rest), s1) =>
    if rest ≠ 0 then s1.setMid c l pg (some n)
    else
      match s1.streamOp c l pg n with
      | (none, s2) => ended s2
      | (some _, _) => s1.setMid c l pg none

/-- One round of a reel (R387), where the arbitration serves a slot that the test allows: the next unit of the piece
under way, or the cycle's one operation. -/
def State.reelRound (s : State) (c : CtxId) (l : LaySlot) (pg : Pid) (ok : Fin 4 → Bool) : State :=
  match s.lay? c l with
  | none => s
  | some x =>
    match x.reel? pg.val with
    | none => s
    | some r =>
      match r.mid with
      | some n =>
        if !(ok n) || s.slotWaits c l pg n then s
        else if s.eligibleSlot c l x pg n r.streams[n.val] then s.reelPerform c l pg n
        else s.setMid c l pg none
      | none =>
        if r.opAt = s.cyc + 1 then s
        else
          let (choice, p, ds) := s.reelChoice c l x pg r
          let s1 := s.modLay c l fun y => y.modReel pg.val fun z => { z with ptr := p, deficit := ds, opAt := s.cyc + 1 }
          match choice with
          | none => if (List.finRange 4).all ok then s1 else s
          | some n => if ok n then s1.reelPerform c l pg n else s

/-- REEL_OPERATION (R387). -/
def execReelOperation (c : CtxId) (l : LaySlot) (pg : Pid) (s : State) : Res := .next (s.reelRound c l pg fun _ => true)

/-- Whether a slot retires what arrives (R45, R296): its stream was stopped or has ended. -/
def Stream.retires (st : Stream) : Bool := st.st == .stopped || st.st == .ended

/-- A record that arrives at a slot that retires is retired (R45). -/
def State.retireArrival (s : State) (c : CtxId) (l : LaySlot) (pg : Pid) (n : Fin 4) : State :=
  match (s.lay? c l).bind fun x => x.inHead pg n with
  | some (k, _) => s.takeIn c l k
  | none => s

/-- WRITE_SIDE_ACCEPT (R255): the record at a write side is accepted when the arbitration serves the slot; a slot whose
stream was stopped or has ended retires it (R45). -/
def execWriteSideAccept (c : CtxId) (l : LaySlot) (pg : Pid) (n : Fin 4) (s : State) : Res :=
  match s.stream? c l pg n with
  | none => .next s
  | some st =>
    if !st.writes then .next s
    else if st.retires then .next (s.retireArrival c l pg n)
    else .next (s.reelRound c l pg fun m => m == n)

/-- GATHER_INDEX_ACCEPT (R254): a gather takes its next index record once the hand-off is due (R322). -/
def execGatherIndexAccept (c : CtxId) (l : LaySlot) (pg : Pid) (n : Fin 4) (s : State) : Res :=
  match s.lay? c l, s.stream? c l pg n with
  | some x, some st =>
    if st.form ≠ .gat then .next s
    else if st.retires then .next (s.retireArrival c l pg n)
    else
      match x.inHead pg n with
      | none => .next s
      | some (k, r) =>
        if s.streamFree c st && st.held.isNone && st.ending.isNone && s.handoffDone r then
          .next ((s.takeIn c l k).modStream c l pg n fun y =>
            if indexLen r = 0 then y else { y with held := some r, heldIx := 0 })
        else .next s
  | _, _ => .next s

/-! ### Start and end (R258, R294) -/

/-- A stream's descriptor or fibre set-up is valid at its start (R252, R262, R271). -/
def State.startable (x : Lay) (pg : Pid) (st : Stream) : Bool :=
  match x.reel? pg.val with
  | none => false
  | some r => if st.form = .fib then fibStartable r.fibres st else (descOf st.desc).valid st.form x.nbanks

/-- STREAM_START (R294): once the thread's earlier accesses are performed, the stream runs, or ends at once with status
0x10. -/
def execStreamStart (c : CtxId) (l : LaySlot) (pg : Pid) (n : Fin 4) (s : State) : Res :=
  match s.lay? c l, s.stream? c l pg n with
  | some x, some st =>
    if st.st = .starting && st.after.all (fun q => s.performed q) then
      .next (s.modStream c l pg n fun y =>
        { y with st := .running, after := [], ending := if State.startable x pg st then y.ending else some (0x10, 0, 0) })
    else .next s
  | _, _ => .next s

/-- The form number of a completion record (R258). -/
def SForm.code : SForm → Nat
  | .aff => 0 | .gat => 1 | .sca => 2 | .fib => 3 | .cmp => 4 | .rq => 5

/-- Records emitted or accepted, as a completion record counts them: a requantising stream emits and accepts none
(R252, R258). -/
def Stream.recCount (st : Stream) : Nat := if st.form = .rq then 0 else st.count

/-- A stream completion record (R258). -/
def complBytes (st : Stream) (status detail level : Nat) : List Byte :=
  [BitVec.ofNat 8 status, if st.poison then 1 else 0, BitVec.ofNat 8 st.form.code, BitVec.ofNat 8 level]
    ++ bytesOfNat 4 (min (2 ^ 32 - 1) st.recCount) ++ bytesOfNat 8 detail

/-- A slot's stream ends with a status (R258): it holds the completion record. -/
def Stream.finish (st : Stream) (status detail level : Nat) : Stream :=
  { st with st := if status = 1 then .stopped else .ended, compl := some (complBytes st status detail level),
            held := none, heldIx := 0, mate := none, blk := [], seen := [], used := 0, wdone := 0, issued := false, stopping := false, skipping := false,
            dirty := 0, ext := none,
            parked := none, barrier := false, hold := false, ending := none, after := [] }

/-- The armed pass notes what a stream that ends has met (R290). -/
def Lay.noteStream (x : Lay) (poison : Bool) (status : Nat) : Lay :=
  { x with pass := x.pass.map fun p => { p with poisonMet := p.poisonMet || poison, badEnd := p.badEnd || decide (2 < status) } }

/-- A stream that has come to its end ends (R258): a trap of a fibre stream raises its event (R272, R407). -/
def State.streamEnd (s : State) (c : CtxId) (l : LaySlot) (pg : Pid) (n : Fin 4) : State :=
  match s.stream? c l pg n with
  | none => s
  | some st =>
    match st.ending with
    | none => s
    | some (k, d, lv) =>
      if st.st ≠ .running || st.owes || st.parked.isSome then s
      else
        let s1 := (s.modStream c l pg n fun y => y.finish k d lv).modLay c l fun x => (x.noteStream st.poison k).stir
        if 0x30 ≤ k && k ≤ 0x32 then
          (s1.raiseEvent c
            { kind := 3, tag := 0, waiting := false, lay := l, pid := pg, src := 0x70, sub := BitVec.ofNat 8 (n.val + 16 * lv),
              cause := BitVec.ofNat 8 k, access := 0, region := 0, reqs := 0, va := BitVec.ofNat 64 d, fw := 0, loc := 0,
              r := none }).2
        else s1

/-- STREAM_END (R258). -/
def execStreamEnd (c : CtxId) (l : LaySlot) (pg : Pid) (n : Fin 4) (s : State) : Res := .next (s.streamEnd c l pg n)

/-- STREAM_STOP_POINT (R420): under forced pre-emption a running stream holds between two operations; what it has read
for a record not yet formed is discarded and read again. -/
def execStreamStopPoint (c : CtxId) (l : LaySlot) (pg : Pid) (n : Fin 4) (s : State) : Res :=
  match s.stream? c l pg n with
  | none => .next s
  | some st =>
    if st.running && (s.ctx c).preempt.isSome && st.wdone = 0 then
      .next (s.modStream c l pg n fun y => { y.opEnded with hold := true, seen := [], used := 0, skipping := false })
    else .next s

/-! ### Starting streams (R294) -/

/-- A slot as a new stream takes it. -/
def Stream.started (f : SForm) (desc : List Byte) (after : List Nat) : Stream :=
  { Stream.fresh with st := .starting, form := f, desc := desc, after := after, crc := 0xffffffff,
                      offset := if f = .cmp then 8 else 0 }

/-- The numbers of a thread's accesses that are not yet performed. -/
def State.threadReqs (s : State) (c : CtxId) (t : Tid) : List Nat :=
  (s.reqs.filter fun q => q.place.ctx == c && q.owner == .thread t && q.stage != .done).map Req.id

/-- Whether the ports that a form needs carry links (R276, R294). -/
def Lay.portsLinked (x : Lay) (pg : Pid) (n : Fin 4) (f : SForm) (desc : List Byte) : Bool :=
  let out := (x.linkFrom? ⟨pg, reelSid, n.val⟩).isSome
  let inp := (x.linkTo? ⟨pg, reelSid, n.val⟩).isSome
  match f with
  | .aff | .cmp => if (descOf desc).param.testBit 0 then inp else out
  | .gat => inp && out
  | .sca => inp
  | .fib => out
  | .rq => true

/-- Whether a lay has an armed pass (R285): one that pass.abort has ended is armed no more (R289). -/
def Lay.passOpen (x : Lay) : Bool := match x.pass with | some p => p.aborting.isNone && p.ended.isNone | none => false

/-- Whether, under lay.swap, a stream slot has left the old configuration: it has sent its reconfiguration record, or
its reel has adopted the successor. No record of the old pass may follow (R230): for the successor no pass is armed
(DESIGN CHOICE, log entry 70). -/
def Lay.reelGone (x : Lay) (pg : Pid) (n : Fin 4) : Bool :=
  x.succ.isSome && match x.reel? pg.val with
    | some r => r.adopted || (r.streams[n.val]).reconfSent
    | none => false

/-- Starts a stream in a slot for a thread after the checks of R276. -/
def State.startStream (s : State) (c : CtxId) (t : Tid) (o : FForm) (st : Stream) : State :=
  let fin (v : DWord) (s : State) : State := s.finishT c t o.d v
  match s.layPage c o.ls o.pg with
  | .error e => fin (slotStatus e) s
  | .ok x =>
    let pg := pageOf o.pg
    let n : Fin 4 := Fin.ofNat 4 o.sl.toNat
    match x.reel? pg.val with
    | none => fin (slotStatus 5) s
    | some r =>
      if !x.passOpen || x.reelGone pg n then fin (slotStatus 2) s
      else if (r.streams[n.val]).running || (st.fibsUsed r.fibres).any (fun i => r.fibBusy i) then fin (slotStatus 3) s
      else if !(x.portsLinked pg n st.form st.desc) then fin (slotStatus 4) s
      else fin 0 (s.modLay c (slotOf o.ls) fun y => (y.modStream pg.val n fun _ => st).stir)

/-- A stream-start instruction of a form with a descriptor: the thread reads it first (R251, R294). -/
def execStart (f : SForm) (o : FForm) (s : State) : Res :=
  onSlot o.ls s fun c t =>
    threadFar s c t (s.withRead c t (s.readT c t o.a).toNat 64 1 fun bs s1 =>
      s1.startStream c t o (Stream.started f bs (s1.threadReqs c t)))

/-- A stream-start instruction of a fibre form (R294). -/
def execStartFib (braid union : Bool) (o : FForm) (s : State) : Res :=
  onSlot o.ls s fun c t =>
    s.startStream c t o { Stream.started .fib [] (s.threadReqs c t) with
      fb := Fin.ofNat 4 o.fb.toNat, fm := o.fm, braid := braid, union := union }

/-- reel.aff (R294). -/
def execReelAff (o : FForm) (s : State) : Res := execStart .aff o s
/-- reel.gat (R294). -/
def execReelGat (o : FForm) (s : State) : Res := execStart .gat o s
/-- reel.sca (R294). -/
def execReelSca (o : FForm) (s : State) : Res := execStart .sca o s
/-- reel.cmp (R294). -/
def execReelCmp (o : FForm) (s : State) : Res := execStart .cmp o s
/-- reel.rq (R294). -/
def execReelRq (o : FForm) (s : State) : Res := execStart .rq o s
/-- reel.fib (R294). -/
def execReelFib (o : FForm) (s : State) : Res := execStartFib false false o s
/-- fib.isect (R294). -/
def execFibIsect (o : FForm) (s : State) : Res := execStartFib true false o s
/-- fib.union (R294). -/
def execFibUnion (o : FForm) (s : State) : Res := execStartFib true true o s

/-- reel.stop (R296): bit 0 of d is set where the slot runs no stream. An operation that has issued an access comes to
its end first. -/
def execReelStop (o : FForm) (s : State) : Res :=
  onSlot o.ls s fun c t =>
    match s.layPage c o.ls o.pg with
    | .error e => s.finishT c t o.d (slotStatus e)
    | .ok x =>
      let n : Fin 4 := Fin.ofNat 4 o.sl.toNat
      match x.stream? (pageOf o.pg).val n with
      | none => s.finishT c t o.d (slotStatus 5)
      | some st =>
        if st.running then
          (s.modStream c (slotOf o.ls) (pageOf o.pg) n fun y =>
            if !(y.ending.isNone || y.owesPoison) then y
            else if y.issued && y.ending.isNone then { y with stopping := true }
            else { y with ending := some (1, 0, 0), st := .running }).finishT c t o.d 0
        else s.finishT c t o.d 1

/-- What reel.wait returns (R297): the two halves of the completion record, or 0xff and 0. -/
def waitWords (st : Stream) : DWord × DWord :=
  match st.compl with
  | some bs => (BitVec.ofNat 64 (natAt bs 0 8), BitVec.ofNat 64 (natAt bs 8 8))
  | none => (0xff, 0)

/-- reel.wait writes its two destinations and completes. -/
def State.finishTwo (s : State) (c : CtxId) (t : Tid) (d e : Spec) (v w : DWord) : State :=
  (s.writeT c t d v).finishT c t e w

/-- reel.wait (R297). -/
def execReelWait (o : FForm) (s : State) : Res :=
  onSlot o.ls s fun c t =>
    match s.layPage c o.ls o.pg with
    | .error e => s.finishTwo c t o.d o.b (slotStatus e) 0
    | .ok x =>
      let n : Fin 4 := Fin.ofNat 4 o.sl.toNat
      match x.stream? (pageOf o.pg).val n with
      | none => s.finishTwo c t o.d o.b (slotStatus 5) 0
      | some st =>
        if st.running then
          s.modThread c t fun th => { th with wait := .reelWait o.d o.b (slotOf o.ls) (pageOf o.pg) n }
        else s.finishTwo c t o.d o.b (waitWords st).1 (waitWords st).2

/-- REEL_WAIT_WAKE (R297). -/
def execReelWaitWake (c : CtxId) (t : Tid) (s : State) : Res :=
  match (s.thread c t).wait with
  | .reelWait d e l pg n =>
    match s.stream? c l pg n with
    | none => .next (s.finishTwo c t d e (slotStatus 1) 0)
    | some st => if st.running then .next s else .next (s.finishTwo c t d e (waitWords st).1 (waitWords st).2)
  | _ => .next s

/-! ### Fibre registers (R300 to R304) -/

/-- The fibre result word (R300). -/
def fibWord (status : Nat) (x : Fibre) (low : Nat) : DWord :=
  BitVec.ofNat 64 (status * 2 ^ 40 + x.state.toNat * 2 ^ 32 + low % 2 ^ 32)

/-- A fibre instruction after conditions 1, 5 and 3: its lay, reel and register. -/
def withFibre (o : FForm) (s : State) (f : CtxId → Tid → Reel → Fin 4 → State) : Res :=
  onSlot o.ls s fun c t =>
    match s.layPage c o.ls o.pg with
    | .error e => s.finishT c t o.d (slotStatus e)
    | .ok x =>
      match x.reel? (pageOf o.pg).val with
      | none => s.finishT c t o.d (slotStatus 5)
      | some r =>
        let i : Fin 4 := Fin.ofNat 4 o.fb.toNat
        if r.fibBusy i then s.finishT c t o.d (slotStatus 3)
        else if (s.thread c t).dropped then s.finishT c t o.d (fibWord 0x11 r.fibres[i.val] (r.fibres[i.val]).c.toNat)
        else f c t r i

/-- The register of a lay's reel set. -/
def State.setFib (s : State) (c : CtxId) (o : FForm) (i : Fin 4) (x : Fibre) : State :=
  s.modLay c (slotOf o.ls) fun y => y.modReel (pageOf o.pg).val fun r => { r with fibres := r.fibres.set i.val x }

/-- A thread's fibre instruction parks under an event (R300). -/
def State.fibParks (s : State) (c : CtxId) (t : Tid) (o : FForm) (i : Fin 4) (skip : Option Word) (cause va : Nat) : State :=
  let (tag, s1) := s.raiseEvent c
    { kind := 1, tag := 0, waiting := true, lay := slotOf o.ls, pid := pageOf o.pg, src := 0x70, sub := 0,
      cause := BitVec.ofNat 8 cause, access := 0, region := regionOf va, reqs := 1, va := BitVec.ofNat 64 va, fw := 0,
      loc := 0, r := none }
  s1.modThread c t fun th =>
    { th with wait := .fibre tag (skip.map fun v => (slotOf o.ls, pageOf o.pg, i, v)), accs := [], seen := [] }

/-- What a level operation of a thread on a register x comes to (R300): poison is an exact trap, a malformed coordinate
traps the register, and one that has a read left stands. -/
def State.fibEnds (s : State) (c : CtxId) (t : Tid) (o : FForm) (i : Fin 4) (x : Fibre) : Except FStop (FWork × List SeenUnit) → State
  | .ok (w, _) => (s.setFib c o i w.f).finishT c t o.d (fibWord 0 w.f w.f.c.toNat)
  | .error (.poison va) => s.troubleAt c t ⟨9, va⟩ false
  | .error (.trap z code pos) =>
    let y := z.trapped code pos
    (s.setFib c o i y).finishT c t o.d (fibWord code y y.c.toNat)
  | .error (.mem (.want _ _ _)) => s.stand c t .units
  | .error (.mem _) => s.finishT c t o.d (fibWord 0x10 x x.c.toNat)

/-- A level operation of a thread on a register x (R300): it makes its reads unit by unit, and a fault parks it in a
translation-wait entry of the reel, where one is free (R403). -/
def State.fibThread (s : State) (c : CtxId) (t : Tid) (o : FForm) (i : Fin 4) (x : Fibre) (skip : Option Word) (op : FRead → FM FWork) :
    State :=
  let run (s : State) : Except FStop (FWork × List SeenUnit) := op (logRead true) (s.thread c t).seen
  match run s with
  | .error (.mem (.want a n k)) =>
    match s.fibUnitT c t (slotOf o.ls) (pageOf o.pg) a n k with
    | (.error (.park cause va), s1) =>
      if s1.waitFree (.reel c (slotOf o.ls) (pageOf o.pg)) then s1.fibParks c t o i skip cause va else s1.stand c t .units
    | (.error _, s1) => s1.stand c t .units
    | (.ok (), s1) => s1.fibEnds c t o i x (run s1)
  | r => s.fibEnds c t o i x r

/-- A register that is refused is closed (R301, R303); the rest of it is left open, and holds free values within its
layout (log entry 23). -/
def closedOf (w : Nat → Word) : Fibre :=
  let dw (i : Nat) : DWord := w i ++ w (i + 1)
  { crd := dw 0, pos := dw 2, val := dw 4, n := w 6, q := w 7, p := (w 8).toNat, pe := (w 9).toNat, c := w 10, t := w 11,
    control := (w 12).truncate 8, flags := (w 13).truncate 8 &&& 1, format := (w 14).truncate 8 &&& 0x3f, state := 0, trap := 0,
    trapPos := dw 15 }

/-- A fibre instruction whose register is refused: it is closed, with status 0x10 (R301, R303). -/
def State.fibRefused (s : State) (c : CtxId) (t : Tid) (o : FForm) (i : Fin 4) : State :=
  let (ws, s1) := s.takeFrees 17
  let y := closedOf fun k => ws.getD k 0
  (s1.setFib c o i y).finishT c t o.d (fibWord 0x10 y y.c.toNat)

/-- The register that a set-up gives (R301), before it is opened. -/
def setupOf (bs : List Byte) (lv : BitVec 2) : Fibre :=
  let fmt : Byte := BitVec.ofNat 8 (natAt bs 50 1 % 16 + 16 * lv.toNat)
  { Fibre.closed with
    crd := BitVec.ofNat 64 (natAt bs 0 8), pos := BitVec.ofNat 64 (natAt bs 8 8), val := BitVec.ofNat 64 (natAt bs 16 8),
    n := BitVec.ofNat 32 (natAt bs 24 4), control := BitVec.ofNat 8 (natAt bs 48 1),
    flags := BitVec.ofNat 8 (natAt bs 49 1 % 2), format := fmt }

/-- fib.open (R301). -/
def execFibOpen (o : FForm) (s : State) : Res :=
  withFibre o s fun c t r i =>
    threadFar s c t (s.withRead c t (s.readT c t o.a).toNat 51 1 fun bs s1 =>
      let x := setupOf bs o.lv
      if setupBad r.fibres i x || natAt bs 50 1 / 64 ≠ 0 then
        s1.fibRefused c t o i
      else
        let q := match x.parent? with
          | some p => (r.fibres[p.val]).p
          | none => (s.readT c t o.b).toNat % 2 ^ 32
        s1.fibThread c t o i { x with q := BitVec.ofNat 32 q } none fun rd => x.opened rd q)

/-- fib.skip (R302): in a thread the skip of R269, status 0x10 where the register is not sorted (R271); in a station a
control record that goes out when the segment completes. -/
def execFibSkip (o : FForm) (s : State) : Res :=
  match s.cur with
  | .station p f =>
    let rd := s.run p f
    let (v, r) := rd.word o.a
    let f1 := { r.f with skips := r.f.skips ++ [(pageOf o.pg, Fin.ofNat 4 o.fb.toNat, v)] }
    .next { s with free := r.free, cur := .station p { f1 with ip := f1.ip + 1 } }
  | _ =>
    withFibre o s fun c t r i =>
      let x := r.fibres[i.val]
      if !x.sorted then s.finishT c t o.d (fibWord 0x10 x x.c.toNat)
      else
        let v : Word := (s.readT c t o.a).truncate 32
        threadFar s c t (s.fibThread c t o i x (some v) fun rd => x.skipped rd v.toNat)

/-- A register as others see it: with its skip pending while a thread's fib.skip stands parked (R269). -/
def State.fibSeen (s : State) (c : CtxId) (l : LaySlot) (pg : Pid) (i : Fin 4) (x : Fibre) : Fibre :=
  (s.ctx c).threads.toList.foldl (fun y t =>
    match t.wait with
    | .fibre _ (some (l', pg', i', v)) => if l' = l && pg' = pg && i' = i then y.skipping v.toNat else y
    | _ => y) x

/-- fib.save (R303). -/
def execFibSave (o : FForm) (s : State) : Res :=
  withFibre o s fun c t r i =>
    let a := (s.readT c t o.a).toNat
    let x := s.fibSeen c (slotOf o.ls) (pageOf o.pg) i r.fibres[i.val]
    if a % 64 ≠ 0 then s.finishT c t o.d (slotStatus 6)
    else threadFar s c t (s.withWrite c t a 1 (fibreBytes x) fun s1 => s1.finishT c t o.d (fibWord 0 x x.c.toNat))

/-- fib.load (R303): a form with its skip pending is skipped at once (R269). -/
def execFibLoad (o : FForm) (s : State) : Res :=
  withFibre o s fun c t r i =>
    threadFar s c t (s.withRead c t (s.readT c t o.a).toNat 64 1 fun bs s1 =>
      let x := fibreOf bs
      if formBad r.fibres i x bs then
        s1.fibRefused c t o i
      else if x.flags.getLsbD 1 then s1.fibThread c t o i x none fun rd => x.skipped rd x.t.toNat
      else (s1.setFib c o i x).finishT c t o.d (fibWord 0 x x.c.toNat))

/-- fib.pos (R304): p, or c under the variant .c. -/
def execFibPos (o : FForm) (s : State) : Res :=
  withFibre o s fun c t r i =>
    let x := r.fibres[i.val]
    s.finishT c t o.d (fibWord 0 x (if o.mod.getLsbD 0 then x.c.toNat else x.p))

/-! ### Barriers (R298) -/

/-- A barrier is passed once every access that the stream has issued is performed: once no operation of it that has
issued one is under way, a parked one among them. -/
def Lay.passBarriers (x : Lay) (pg : Nat) : Lay :=
  x.modReel pg fun r => { r with streams := r.streams.map fun (st : Stream) => if st.issued then st else { st with barrier := false } }

/-- Whether a named stream still holds its barrier. -/
def Lay.barrierLeft (x : Lay) (pg : Nat) (mask : BitVec 4) : Bool :=
  (List.finRange 4).any fun n =>
    match x.stream? pg n with
    | some st => mask.getLsbD n.val && st.barrier && st.running
    | none => false

/-- sbar (R298). -/
def execSbar (o : YForm) (s : State) : Res :=
  onSlot o.ls s fun c t =>
    match s.layPage c o.ls o.pg with
    | .error e => s.finishT c t o.d (slotStatus e)
    | .ok _ =>
      let mask : BitVec 4 := o.imm16.truncate 4
      let s1 := s.modLay c (slotOf o.ls) fun x => x.modReel (pageOf o.pg).val fun r =>
        { r with streams := Vector.ofFn fun n => let st := r.streams[n.val]; if mask.getLsbD n.val && st.running then { st with barrier := true } else st }
      if o.imm16.getLsbD 4 then s1.modThread c t fun th => { th with wait := .sbar o.d (slotOf o.ls) (pageOf o.pg) mask }
      else s1.finishT c t o.d 0

/-- SBAR_PASSED (R298): streams pass their barriers; a waiting sbar of the page returns. -/
def execSbarPassed (c : CtxId) (l : LaySlot) (pg : Pid) (s : State) : Res :=
  let s1 := s.modLay c l fun x => x.passBarriers pg.val
  .next ((List.finRange 8).foldl (fun z t =>
    match (z.thread c t).wait with
    | .sbar d l' pg' mask =>
      let left := match z.lay? c l' with | some x => x.barrierLeft pg'.val mask | none => false
      if l' = l && pg' = pg && !left then z.finishT c t d 0 else z
    | _ => z) s1)

/-! ### Injection (R151) -/

/-- The status of inject before its payload is read (R151); 0 where every check passes. -/
def State.injectStatus (s : State) (c : CtxId) (o : YForm) (h : Nat) : Nat :=
  match s.resident? c (slotOf o.ls) with
  | none => 1
  | some x =>
    if x.npages ≤ o.pg.toNat then 6
    else if !x.passOpen then 2
    else if bitsNat 63 61 h != 0 || 16 < bitsNat 48 44 h then 3
    else if (x.linkFrom? ⟨pageOf o.pg, reelSid, o.imm16.toNat % 4⟩).isNone then 4
    else 0

/-- inject (R151): the checks, the payload's read, which follows every earlier access of the thread (R318 row 7), and the
wait until the record has left. -/
def execInject (o : YForm) (s : State) : Res :=
  onSlot o.ls s fun c t =>
    let h := (s.readT c t o.a).toNat
    let st := s.injectStatus c o h
    if st ≠ 0 then s.finishT c t o.d (BitVec.ofNat 64 st)
    else
      let n := bitsNat 48 44 h
      let put (bs : List Byte) (s1 : State) : State :=
        let r : Rec := ⟨hdrOfBits h c (slotOf o.ls), payOfBytes bs, []⟩
        s1.modThread c t fun th =>
          { th with wait := .inject o.d (slotOf o.ls) (pageOf o.pg) (Fin.ofNat 4 o.imm16.toNat) r, accs := [] }
      threadFar s c t (if n = 0 then put [] s else s.withRead c t (s.readT c t o.b).toNat (4 * n) 4 put)

/-- INJECT_RECORD_LEAVES (R151): the record takes a free slot and leaves, in turn with the records of the stream slot; a
pass that has ended gives status 2, a reconfiguration 5. -/
def execInjectRecordLeaves (c : CtxId) (t : Tid) (s : State) : Res :=
  match (s.thread c t).wait with
  | .inject d l pg n r =>
    match s.lay? c l with
    | none => .next (s.finishT c t d 1)
    | some x =>
      if x.succ.isSome then .next (s.finishT c t d 5)
      else if !x.passOpen then .next (s.finishT c t d 2)
      else
        match x.linkFrom? ⟨pg, reelSid, n.val⟩, x.stream? pg.val n with
        | some k, some st =>
          let yields := st.lastInj && !st.writes && s.slotReady c x pg n st
          if x.hasSlot k && (s.ctx c).preempt.isNone && !yields then
            .next ((s.modLay c l fun y =>
              ((y.push k (.data r)).modStream pg.val n fun (z : Stream) => { z with lastInj := true }).progressed).finishT c t d 0)
          else .next s
        | _, _ => .next s
  | _ => .next s

/-- Every inject that stalls at a slot ends with a status: 2 where another thread aborts the pass, 5 where one replaces
the lay (R151). -/
def State.endInjects (s : State) (c : CtxId) (l : LaySlot) (status : Nat) : State :=
  (List.finRange 8).foldl (fun z t =>
    match (z.thread c t).wait with
    | .inject d m _ _ _ => if m = l then z.finishT c t d (BitVec.ofNat 64 status) else z
    | _ => z) s

end Sys2Proof.Machine
end

