-- ==== Sys2Proof/Machine/Pass.lean ====
section
/-!
DEFINITION. Quiescence and the end of a pass (07 R221 to R226), arming and aborting one (09 R285 to R290), and the
placement of lays on pages (13 R383 to R386).
-/
namespace Sys2Proof.Machine

/-! ### Quiescence (R222) -/

/-- Whether an item is a record. -/
def Item.isData : Item → Bool
  | .data _ => true
  | .reconf => false

/-- Whether a link holds a record or a slot return. -/
def Link.busy (l : Link) : Bool := l.flight.any (fun i => i.1.isData) || l.buf.any Item.isData || l.back != 0

/-- Whether a station holds a record, or an ordering token not yet retired: the queues are empty in a quiescent lay
(R171). -/
def Station.busy (st : Station) : Bool :=
  !st.frames.isEmpty || st.exc.isSome || !st.toks.isEmpty || match st.body with
    | .bank b => !b.fifo.isEmpty
    | .splice b => !b.reorder.isEmpty
    | _ => false

/-- Whether a request belongs to a lay. -/
def Req.ofLay (q : Req) (c : CtxId) (l : LaySlot) : Bool :=
  q.place.ctx == c && q.place.slot == l && match q.owner with | .thread _ => false | _ => true

/-- Whether a thread's inject on a lay is in progress (R222). -/
def Thread.injects (t : Thread) (l : LaySlot) : Bool :=
  match t.wait with
  | .inject _ m _ _ _ => m == l
  | .stand _ => match decodeWord t.word with | .ok (.inject o) => slotOf o.ls == l | _ => false
  | _ => false

/-- Whether a lay holds an item of R222 other than a running stream. -/
def State.laySettled (s : State) (c : CtxId) (l : LaySlot) (x : Lay) : Bool :=
  !(x.links.any Link.busy) && !(x.stations.any Station.busy) && x.excBuf.isEmpty
    && !(s.reqs.any fun q => q.ofLay c l)
    && !(x.cleats.any fun k => !k.waiting.isEmpty || !k.pending.isEmpty || !k.arriving.isEmpty)
    && !(x.pages.any fun p => !p.reel.skips.isEmpty)
    && !((s.ctx c).threads.toList.any fun t => t.injects l)

/-- Whether a lay's streams are all at rest; a stream held at its stop point counts where held says so (R419). -/
def Lay.streamsRest (x : Lay) (held : Bool) : Bool :=
  !(x.pages.any fun p => p.reel.streams.toList.any fun st => st.running && !(held && st.hold))

/-- Whether a lay is quiescent (R222). -/
def State.quiescent (s : State) (c : CtxId) (l : LaySlot) (x : Lay) : Bool := s.laySettled c l x && x.streamsRest false

/-! ### The end of a pass (R221, R290) -/

/-- The cleats of a lay in order of page and number: they are kept so. -/
def Lay.doneCleat? (x : Lay) : Option Cleat := x.cleats.find? fun k => k.done

/-- An 8-byte cleat entry of a completion record (R290). -/
def cleatEntry (k : Option Cleat) : List Byte :=
  match k with
  | none => List.replicate 8 0
  | some k => [1, BitVec.ofNat 8 k.pid.val, BitVec.ofNat 8 k.num.val, k.gen] ++ bytesOfNat 4 (k.count - k.arrivals).toNat

/-- End kinds as bytes. -/
def PassEnd.code : PassEnd → Nat
  | .complete => 0 | .incomplete => 1 | .aborted => 2

/-- The pass completion record (R290). -/
def passRecord (x : Lay) (p : Pass) (c : CtxId) (l : LaySlot) (k : PassEnd) (now : Nat) : List Byte :=
  let dc := x.doneCleat?
  let ran := x.cleats.find? fun z => z.overrun
  let short := x.cleats.find? fun z => z.count != 0 && z.fired.toNat < z.budget.toNat
  let flags := (if ran.isSome then 1 else 0) + (if p.poisonMet then 2 else 0) + (if p.wedge then 4 else 0) + if p.badEnd then 8 else 0
  [BitVec.ofNat 8 k.code, BitVec.ofNat 8 flags, BitVec.ofNat 8 l.val, BitVec.ofNat 8 c.val]
    ++ (match dc with
      | some z => [BitVec.ofNat 8 z.pid.val, BitVec.ofNat 8 z.num.val, z.gen, z.fired]
          ++ bytesOfNat 4 (if k = .complete then 0 else (z.count - z.arrivals).toNat)
      | none => List.replicate 8 0)
    ++ bytesOfNat 4 x.passNo.toNat ++ cleatEntry ran ++ cleatEntry short ++ bytesOfNat 8 p.armedAt ++ bytesOfNat 8 now
    ++ List.replicate 16 0

/-- A thread's wait is told that a pass of a lay has ended, or that a wedge fault arrived (kind 3). -/
def Wait.told (w : Wait) (l : LaySlot) (k : Nat) : Wait :=
  match w with
  | .passWait d m Option.none => if m = l then .passWait d m (some k) else w
  | .cleatWait d m pg n b Option.none => if m = l then .cleatWait d m pg n b (some k) else w
  | .gmm d m a n Option.none => if m = l && k < 3 then .gmm d m a n (some k) else w
  | _ => w

/-- A cleat.wait is told that the pass of a lay is at its end, as pass.abort is performed (R289, R292). -/
def Wait.toldAbort (w : Wait) (l : LaySlot) : Wait :=
  match w with
  | .cleatWait d m pg n b Option.none => if m = l then .cleatWait d m pg n b (some 2) else w
  | _ => w

/-- Every thread of a context is told. -/
def State.tellWaits (s : State) (c : CtxId) (l : LaySlot) (k : Nat) : State :=
  s.modCtx c fun x => { x with threads := x.threads.map fun t => { t with wait := t.wait.told l k } }

/-- A pass.abort that waits for the pass of a lay ends (R288). -/
def State.endAborts (s : State) (c : CtxId) (l : LaySlot) : State :=
  (List.finRange 8).foldl (fun z t =>
    match (z.thread c t).wait with
    | .passAbort d m => if m = l then z.finishT c t d 0 else z
    | _ => z) s

/-- A stream stopped by reel.stop retires arrivals only until the pass ends (R296). -/
def Stream.passEnds (st : Stream) : Stream := if st.st = .stopped then { st with st := .idle } else st

/-- A function on every stream of a lay. -/
def Lay.mapStreams (x : Lay) (f : Stream → Stream) : Lay :=
  { x with pages := x.pages.map fun p => { p with reel := { p.reel with streams := p.reel.streams.map f } } }

/-- The armed pass of a lay ends (R289, R290): its record is written unit by unit, or the failure logged; then waiting
threads are told and a wfi notes cause 1 (R451). The pass keeps how and when it has ended until then. -/
def State.endPass (s : State) (c : CtxId) (l : LaySlot) (k0 : PassEnd) : State :=
  match s.lay? c l with
  | none => s
  | some x =>
    match x.pass with
    | none => s
    | some p =>
      let (k, now) := p.ended.getD (k0, p.aborting.getD s.cyc)
      let s0 := s.modLay c l fun y => { y with pass := y.pass.map fun q => { q with ended := some (k, now) } }
      let (w, s1) := s0.devWrite (.quiescenceSweep c l) 0 c p.compl.toNat (passRecord x p c l k now)
      if w = .more then s1
      else
        let s2 := if w = .done then s1
          else s1.logAdd 0x13 255 255 255 c.val p.compl.toNat 0 (l.val + x.passNo.toNat * 2 ^ 8)
        let s3 := s2.modLay c l fun y =>
          { (y.mapStreams Stream.passEnds) with pass := none, lastEnd := some k, wedged := false, sweeps := 0, moved := false }
        ((s3.tellWaits c l k.code).endAborts c l).wfiNote c 2

/-- How an armed pass that is quiescent ends (R221). -/
def Lay.endKind (x : Lay) (p : Pass) : PassEnd :=
  if p.aborting.isSome then .aborted
  else match x.doneCleat? with
    | some k => if k.budget.toNat ≤ k.fired.toNat then .complete else .incomplete
    | none => .incomplete

/-- QUIESCENCE_SWEEP (R223, R224): a sweep that finds no item and no change counts; the second one in a row declares
the lay quiescent, and an armed pass ends. Where its record is being written, that goes on. -/
def execQuiescenceSweep (c : CtxId) (l : LaySlot) (s : State) : Res :=
  match s.lay? c l with
  | none => .next s
  | some x =>
    if (x.pass.bind Pass.ended).isSome then .next (s.endPass c l .incomplete)
    else if !(s.quiescent c l x) then .next (s.modLay c l fun y => { y with sweeps := 0, moved := false })
    else if x.moved then .next (s.modLay c l fun y => { y with sweeps := 0, moved := false })
    else if x.sweeps = 0 then .next (s.modLay c l fun y => { y with sweeps := 1 })
    else
      match x.pass with
      | some p => .next (s.endPass c l (x.endKind p))
      | none => .next s

/-! ### Arming (R285) -/

/-- A bank at pass.arm: presence bits and claims cleared, a line bank's head row 0 (R246, R248). -/
def Bank.armed (b : Bank) : Bank := { b with pres := [], claims := [], head := 0 }

/-- A splice at pass.arm (R205, R206, R208, R210). The turn of merge.rr begins at list entry 0 after lay.load and stands
over pass.arm: R205 gives both for split.rr only (DESIGN CHOICE, log entry 62). -/
def Splice.armed (b : Splice) : Splice := { b with occ := 0, turn := false, e := 0, reorder := [], next := if b.mode = .splitRr then 0 else b.next }

/-- A station at pass.arm: its stall counters are cleared too (R389). -/
def Station.armed (st : Station) : Station :=
  { st with stall := Vector.replicate 4 0,
            body := match st.body with | .bank b => .bank b.armed | .splice b => .splice b.armed | b => b }

/-- A cleat at pass.arm (R217). -/
def Cleat.armed (k : Cleat) : Cleat := { k with fired := 0, pending := [] }

/-- Starts the bound streams in table order (R285): descriptor i for binding i. -/
def startBound (x : Lay) (after : List Nat) : List (Pid × Fin 4) → List (List Byte) → Lay
  | b :: bs, d :: ds => startBound (x.modStream b.1.val b.2 fun _ => Stream.started .aff d after) after bs ds
  | _, _ => x

/-- The lay with a pass armed (R285, R387). -/
def Lay.arm (x : Lay) (compl : DWord) (now : Nat) (group : Option (Nat × Nat)) (after : List Nat) (descs : List (List Byte)) : Lay :=
  let y := { x with
    passNo := x.passNo + 1, pass := some ⟨compl, now, false, group, none, none, false, false⟩, cleats := x.cleats.map Cleat.armed,
    stations := x.stations.map Station.armed, sweeps := 0, moved := true, wedged := false, wedgeTimer := 0,
    pages := x.pages.map fun p => { p with reel := { p.reel with ptr := 0, deficit := Vector.replicate 4 0 } } }
  startBound y after y.binds descs

/-- A list of bytes cut into n descriptors of 64. -/
def cutDescs : Nat → List Byte → List (List Byte)
  | 0, _ => []
  | n + 1, bs => bs.take 64 :: cutDescs n (bs.drop 64)

/-! ### Aborting (R288) -/

/-- A link without its records. -/
def Link.cleared (l : Link) : Link :=
  let fl := l.flight.filter fun i => !i.1.isData
  let bf := l.buf.filter fun i => !i.isData
  { l with flight := fl, buf := bf, back := 0, debt := 0, free := max 1 l.slots - fl.length - bf.length }

/-- A station without its records; claims stay where their presence write is on its way. -/
def Station.cleared (keep : List Nat) (st : Station) : Station :=
  { st with frames := [], toks := [], again := [], exc := none,
            body := match st.body with
              | .bank b => .bank { b with fifo := [], window := b.window.filter (fun k => keep.contains k),
                                          records := b.records.filter fun k => keep.contains k,
                                          claims := b.claims.filter fun k => keep.contains k.2 }
              | .splice b => .splice { b with reorder := [], occ := 0 }
              | b => b }

/-- Whether pass.abort removes a request of the lay unperformed (R288): it waits for a translation, for service, for
presence or for a tag; a flush goes out (R475). -/
def Req.abortDrops (q : Req) : Bool :=
  match q.stage with
  | .walk | .retry _ | .event _ | .presWait => true
  | .tagWait _ => q.op != .flush
  | .done => true
  | _ => q.op == .claim

/-- Events of a lay withdrawn (R288): those that awaited service do so no more. -/
def State.withdraw (s : State) (c : CtxId) (p : Event → Bool) : State :=
  s.modCtx c fun x =>
    { x with awaiting := x.awaiting.filter fun e => !(p e),
             heldEvents := x.heldEvents.map fun e => if p e then { e with waiting := false } else e,
             threads := x.threads.map fun t =>
               match t.wait with
               | .fibre tag _ => if x.awaiting.any fun e => p e && e.tag == tag then { t with wait := .none, accs := [], seen := [] } else t
               | _ => t }

/-- Every stream slot of a lay that has come to its end ends as it stands (R258, R272). -/
def State.endStreams (s : State) (c : CtxId) (l : LaySlot) : State :=
  match s.lay? c l with
  | none => s
  | some x => (List.range x.npages).foldl (fun z p => (List.finRange 4).foldl (fun y n => y.streamEnd c l (Fin.ofNat 64 p) n) z) s

/-- Retires every record of a lay and ends every stream still running with status 0x02 (R288): requests already sent are
performed and their replies discarded. -/
def State.abortLay (s : State) (c : CtxId) (l : LaySlot) : State :=
  let s0 := s.endStreams c l
  let s1 := s0.withdraw c fun e => e.lay == l && (e.kind.val == 1 || e.kind.val == 2)
  let reqs := (s1.reqs.filter fun q => !(q.ofLay c l && q.abortDrops)).map fun q =>
    if q.ofLay c l then { q with owner := .nobody } else q
  let keep := (reqs.filter fun q => q.ofLay c l && q.stage != .done).flatMap fun q => [q.id, q.exec]
  let s2 := { s1 with reqs := reqs }
  s2.modLay c l fun x =>
    { x with
      links := x.links.map Link.cleared, stations := x.stations.map (Station.cleared keep), excBuf := [],
      cleats := x.cleats.map fun k => { k with pending := [], waiting := k.waiting.map fun w => (w.1, w.2.1, w.2.2.1, true) },
      pages := (x.mapStreams fun st => if st.running then st.finish 2 0 0 else st).pages.map fun p => { p with reel := { p.reel with skips := [] } },
      pass := x.pass.map fun p =>
        { p with poisonMet := p.poisonMet || x.pages.any fun q => q.reel.streams.toList.any fun st => st.running && st.poison }
      moved := true, sweeps := 0 }

/-! ### Placement (R383 to R386) -/

/-- The die of a grid position (R196). -/
def dieAt (col row : Nat) : Die := Fin.ofNat 4 (col / 12 + 2 * (row / 7))

/-- The position index of a grid position on its die (R484). -/
def posAt (col row : Nat) : Nat := row % 7 * 12 + col % 12

/-- Whether a die serves (R487, R489). -/
def State.dieServes (s : State) (d : Die) : Bool := s.service.dstat[d.val] == 0

/-- Whether a resident lay owns a grid position (R386). -/
def State.owned (s : State) (col row : Nat) : Bool :=
  s.ctxs.toList.any fun x => x.lays.toList.any fun y =>
    match y with
    | some z => z.placed && z.pages.any fun p => p.gcol == col && p.grow == row
    | none => false

/-- The position that a physical page serves: its own, or for a spare the one it took over; none for a spare not in use
(R196, R485). -/
def Service.position (q : Service) (d : Die) (n : Nat) : Option Nat :=
  match q.serving.find? fun x => x.1 == d && x.2.2 == n with
  | some x => some x.2.1
  | none => if (sparePositions d).contains n then none else some n

/-- Whether the page at a position is on its way out of service (R485). -/
def Service.leaving (q : Service) (d : Die) (pos : Nat) : Bool := q.retiring.contains (d, q.pageOf d pos)

/-- Whether a grid position holds a free usable page (R383, R485, R487). -/
def State.pageFree (s : State) (col row : Nat) : Bool :=
  let d := dieAt col row
  col < 24 && row < 14 && s.dieServes d && (s.service.pagemap[d.val]).getLsbD (posAt col row)
    && !(s.service.leaving d (posAt col row)) && !(s.owned col row)

/-- The end of a channel's hop. -/
def chanEnd (ch : Chan) : Nat × Nat :=
  match ch.dir.val with
  | 0 => (ch.col.val + 1, ch.row.val)
  | 1 => (ch.col.val - 1, ch.row.val)
  | 2 => (ch.col.val, ch.row.val + 1)
  | _ => (ch.col.val, ch.row.val - 1)

/-- Whether a context may route through a channel (R215, R481, R487): three others at most, on serving dies. -/
def State.chanAllows (s : State) (c : CtxId) (ch : Chan) : Bool :=
  let others := (List.finRange 64).filter fun k => k != c && (s.ctx k).usesChan ch
  let e := chanEnd ch
  others.length ≤ 3 && !(s.chans.any fun x => x.ch == ch && x.failed) && s.dieServes (dieAt ch.col.val ch.row.val) && s.dieServes (dieAt e.1 e.2)

/-- Whether every route of a lay is allowed (R383). -/
def State.routesOk (s : State) (c : CtxId) (x : Lay) : Bool :=
  x.links.all fun l => (x.route l).all fun ch => s.chanAllows c ch

/-- The lay with its pages at an origin. -/
def Lay.placeAt (x : Lay) (o : Nat × Nat) : Lay :=
  { x with origin := o,
           pages := x.pages.map fun p => { p with gcol := ((o.1 : Int) + p.col).toNat, grow := ((o.2 : Int) + p.row).toNat } }

/-- Whether a lay may stand at an origin (R383). -/
def State.fits (s : State) (c : CtxId) (x : Lay) (o : Nat × Nat) : Bool :=
  let y := x.placeAt o
  (x.pages.all fun p => 0 ≤ (o.1 : Int) + p.col && 0 ≤ (o.2 : Int) + p.row) && (y.pages.all fun p => s.pageFree p.gcol p.grow)
    && s.routesOk c y

/-- Pages of a lay off a die. -/
def Lay.offDie (x : Lay) (d : Die) : Nat := (x.pages.filter fun p => dieAt p.gcol p.grow != d).length

/-- The placement of a lay (R383): the first origin in the order of its keys; none where no origin qualifies. -/
def State.place (s : State) (c : CtxId) (x : Lay) : Option Lay :=
  let home := (s.ctx c).home
  let all := (List.range 14).flatMap fun r => (List.range 24).map fun k => (k, r)
  ((all.filter fun o => s.fits c x o).foldl (fun best o =>
    match best with
    | none => some o
    | some b => if (x.placeAt o).offDie home < (x.placeAt b).offDie home then some o else some b) none).map x.placeAt

end Sys2Proof.Machine
end

