-- ==== Sys2Proof/Machine/Sm.lean ====
section
/-!
DEFINITION. The SM3 digest and SM2 signatures (19 R491, R492): GB/T 32905 and GB/T 32918.2, which the spec names, on the
curve that GB/T 32918.5 recommends (PRESUMED; log entry 6).
-/
namespace Sys2Proof.Machine

/-! ### SM3 (GB/T 32905) -/

/-- The eight words of the chaining value. -/
structure Sm3 where
  a : Word
  b : Word
  c : Word
  d : Word
  e : Word
  f : Word
  g : Word
  h : Word
  deriving DecidableEq, Repr

/-- The initial value. -/
def sm3Init : Sm3 := ⟨0x7380166f, 0x4914b2b9, 0x172442d7, 0xda8a0600, 0xa96f30bc, 0x163138aa, 0xe38dee4d, 0xb0fb0e4e⟩

/-- The permutation P0. -/
def sm3P0 (x : Word) : Word := x ^^^ x.rotateLeft 9 ^^^ x.rotateLeft 17

/-- The permutation P1. -/
def sm3P1 (x : Word) : Word := x ^^^ x.rotateLeft 15 ^^^ x.rotateLeft 23

/-- A number from bytes, the highest first. -/
def natOfBig (bs : List Byte) : Nat := bs.foldl (fun n b => 256 * n + b.toNat) 0

/-- n bytes of a number, the highest first. -/
def bigOfNat (n x : Nat) : List Byte := (List.range n).map fun i => BitVec.ofNat 8 (x / 256 ^ (n - 1 - i))

/-- A message padded to whole blocks of 64 bytes. -/
def sm3Pad (bs : List Byte) : List Byte :=
  bs ++ (0x80 : Byte) :: List.replicate ((119 - bs.length % 64) % 64) 0 ++ bigOfNat 8 (8 * bs.length)

/-- The 68 words of a block's expansion, the last first: n more after those at hand. -/
def sm3Expand : Nat → List Word → List Word
  | 0, w => w
  | n + 1, w =>
    let x := sm3P1 (w.getD 15 0 ^^^ w.getD 8 0 ^^^ (w.getD 2 0).rotateLeft 15) ^^^ (w.getD 12 0).rotateLeft 7 ^^^ w.getD 5 0
    sm3Expand n (x :: w)

/-- One round of the compression, with the words W_j and W_(j+4). -/
def sm3Round (j : Nat) (v : Sm3) (w w4 : Word) : Sm3 :=
  let t : Word := if j < 16 then 0x79cc4519 else 0x7a879d8a
  let a12 := v.a.rotateLeft 12
  let ss1 := (a12 + v.e + t.rotateLeft (j % 32)).rotateLeft 7
  let ff := if j < 16 then v.a ^^^ v.b ^^^ v.c else (v.a &&& v.b) ||| (v.a &&& v.c) ||| (v.b &&& v.c)
  let gg := if j < 16 then v.e ^^^ v.f ^^^ v.g else (v.e &&& v.f) ||| (~~~v.e &&& v.g)
  ⟨ff + v.d + (ss1 ^^^ a12) + (w ^^^ w4), v.a, v.b.rotateLeft 9, v.c, sm3P0 (gg + v.h + ss1 + w), v.e, v.f.rotateLeft 19, v.g⟩

/-- The compression of one block. -/
def sm3Block (v : Sm3) (bs : List Byte) : Sm3 :=
  let first := (List.range 16).map fun i => (BitVec.ofNat 32 (natOfBig ((bs.drop (4 * i)).take 4)) : Word)
  let ws := (sm3Expand 52 first.reverse).reverse
  let z := (List.range 64).foldl (fun x j => sm3Round j x (ws.getD j 0) (ws.getD (j + 4) 0)) v
  ⟨z.a ^^^ v.a, z.b ^^^ v.b, z.c ^^^ v.c, z.d ^^^ v.d, z.e ^^^ v.e, z.f ^^^ v.f, z.g ^^^ v.g, z.h ^^^ v.h⟩

/-- The blocks of a padded message. -/
def sm3Blocks : Nat → Sm3 → List Byte → Sm3
  | 0, v, _ => v
  | n + 1, v, bs => sm3Blocks n (sm3Block v (bs.take 64)) (bs.drop 64)

/-- The 32 bytes of the digest of a message. -/
def sm3Bytes (bs : List Byte) : List Byte :=
  let m := sm3Pad bs
  let v := sm3Blocks (m.length / 64) sm3Init m
  [v.a, v.b, v.c, v.d, v.e, v.f, v.g, v.h].flatMap fun (w : Word) => bigOfNat 4 w.toNat

/-- The digest of a message, its first byte lowest. -/
def sm3 (bs : List Byte) : BitVec 256 := BitVec.ofNat 256 (natOfBytes (sm3Bytes bs))

/-! ### The curve -/

/-- The field's prime. -/
def sm2P : Nat := 0xfffffffeffffffffffffffffffffffffffffffff00000000ffffffffffffffff

/-- The order of the base point. -/
def sm2N : Nat := 0xfffffffeffffffffffffffffffffffff7203df6b21c6052b53bbf40939d54123

/-- The coefficient a. -/
def sm2A : Nat := sm2P - 3

/-- The coefficient b. -/
def sm2B : Nat := 0x28e9fa9e9d9f5e344d5a9e4bcf6509a7f39789f515ab8f92ddbcbd414d940e93

/-- The base point. -/
def sm2G : Nat × Nat :=
  (0x32c4ae2c1f1981195f9904466a39c9948fe30bbff2660be1715a4589334c74c7,
    0xbc3736a2f4f6779c59bdcee36b692153d0a9877cc62a474002df32e52139f0a0)

/-- x ^ e modulo m, for an exponent of 256 bits. -/
def powMod (m x e : Nat) : Nat :=
  (List.range 256).foldr (fun i acc => let y := acc * acc % m; if e.testBit i then y * x % m else y) 1

/-- The inverse modulo a prime. -/
def invMod (m x : Nat) : Nat := powMod m x (m - 2)

/-- The sum of two points; none is the point at infinity. -/
def sm2Add (p q : Option (Nat × Nat)) : Option (Nat × Nat) :=
  match p, q with
  | none, q => q
  | p, none => p
  | some (x1, y1), some (x2, y2) =>
    if x1 = x2 && (y1 + y2) % sm2P = 0 then none
    else
      let k := if x1 = x2 then (3 * x1 * x1 + sm2A) * invMod sm2P (2 * y1 % sm2P) % sm2P
        else (y2 + sm2P - y1) * invMod sm2P ((x2 + sm2P - x1) % sm2P) % sm2P
      let x := (k * k + 2 * sm2P - x1 - x2) % sm2P
      some (x, (k * (x1 + sm2P - x) + sm2P - y1) % sm2P)

/-- A multiple of a point. -/
def sm2Mul (k : Nat) (p : Option (Nat × Nat)) : Option (Nat × Nat) :=
  (List.range 256).foldr (fun i acc => let d := sm2Add acc acc; if k.testBit i then sm2Add d p else d) none

/-! ### Signatures (GB/T 32918.2, R492) -/

/-- The default distinguishing identifier. -/
def sm2Id : List Byte := [0x31, 0x32, 0x33, 0x34, 0x35, 0x36, 0x37, 0x38, 0x31, 0x32, 0x33, 0x34, 0x35, 0x36, 0x37, 0x38]

/-- The two big-endian numbers of a key or signature of 64 bytes. -/
def bigPair (x : BitVec 512) : Nat × Nat :=
  let bs := bytesOfNat 64 x.toNat
  (natOfBig (bs.take 32), natOfBig (bs.drop 32))

/-- Two numbers as 64 bytes, each big-endian, the first byte lowest. -/
def pairBits (p : Nat × Nat) : BitVec 512 := BitVec.ofNat 512 (natOfBytes (bigOfNat 32 p.1 ++ bigOfNat 32 p.2))

/-- The number that a signature is taken over: the signer's digest Z and the digest of a message. -/
def sm2Hash (key : Nat × Nat) (digest : BitVec 256) : Nat :=
  let big (x : Nat) : List Byte := bigOfNat 32 x
  let z := sm3Bytes ([0x00, 0x80] ++ sm2Id ++ big sm2A ++ big sm2B ++ big sm2G.1 ++ big sm2G.2 ++ big key.1 ++ big key.2)
  natOfBig (sm3Bytes (z ++ bytesOfNat 32 digest.toNat))

/-- Whether a signature verifies over a digest under a key. -/
def sm2Verify (key : BitVec 512) (digest : BitVec 256) (sig : BitVec 512) : Bool :=
  let (r, s) := bigPair sig
  let t := (r + s) % sm2N
  if r = 0 || sm2N ≤ r || s = 0 || sm2N ≤ s || t = 0 then false
  else
    match sm2Add (sm2Mul s (some sm2G)) (sm2Mul t (some (bigPair key))) with
    | none => false
    | some (x, _) => (sm2Hash (bigPair key) digest + x) % sm2N == r

/-- The identity private key as a number from 1 to n - 2 (R491). -/
def identityNumber : Nat := 1 + Config.identityPrivate.toNat % (sm2N - 2)

/-- The public key of a private one, x then y. -/
def sm2Public (d : Nat) : BitVec 512 := pairBits ((sm2Mul d (some sm2G)).getD (0, 0))

/-- The identity public key (R497). -/
def identityKey : BitVec 512 := sm2Public identityNumber

/-- The signature of a digest by a private key with a nonce; none where the standard takes another nonce. -/
def sm2SignWith (d : Nat) (digest : BitVec 256) (k : Nat) : Option (BitVec 512) :=
  let r := (sm2Hash (bigPair (sm2Public d)) digest + ((sm2Mul k (some sm2G)).getD (0, 0)).1) % sm2N
  let s := invMod sm2N (1 + d) * (k + sm2N * sm2N - r * d) % sm2N
  if r = 0 || r + k = sm2N || s = 0 then none else some (pairBits (r, s))

/-- A signature of a digest by the identity key with the first nonce that serves. -/
def sm2Sign (digest : BitVec 256) (nonces : List Nat) : BitVec 512 :=
  (nonces.findSome? fun k => sm2SignWith identityNumber digest (1 + k % (sm2N - 1))).getD 0

end Sys2Proof.Machine
end

