-- ==== Sys2Proof/Machine/PassOps.lean ====
section
/-!
DEFINITION. The instructions that load, replace and clone lays, arm, await and abort passes, act on cleats, wait on
memory and launch groups (09 R278 to R293, R299, R305, R306), and the events that end their stalls.
-/
namespace Sys2Proof.Machine

/-! ### Loading (R278 to R280) -/

/-- The operator bytes of the targets that a context's XMASK names (R167, R474, R499). -/
def State.targetOps (s : State) (c : CtxId) : List Byte :=
  (List.range 13).filterMap fun t =>
    if (s.ctx c).port.xmask.getLsbD t then
      some (if t = 0 then (if (s.ctx c).prot then 0 else s.opByte .host) else s.opByte (nodeOfTarget t))
    else none

/-- The 64 bytes of a lay key (R496). -/
def keyBits (k : Vector DWord 8) : BitVec 512 := BitVec.ofNat 512 (natOfBytes (k.toList.flatMap fun (w : DWord) => bytesOfNat 8 w.toNat))

/-- A key or signature of 64 bytes. -/
def sigBits (bs : List Byte) : BitVec 512 := BitVec.ofNat 512 (natOfBytes (bs.take 64))

/-- The digest of a lay image: up to its signature, or whole (R397, R497). -/
def imageDigest (m : Image) (bs : List Byte) : BitVec 256 := sm3 (if m.sigAt = 0 then bs else bs.take m.sigAt)

/-- Whether an image's signature verifies under a lay key that is not zero (R397, R495). -/
def State.signed (s : State) (m : Image) (bs : List Byte) : Bool :=
  m.sigAt != 0 && s.secure.layKey.toList.any fun k =>
    keyBits k != 0 && sm2Verify (keyBits k) (imageDigest m bs) (sigBits (bs.drop m.sigAt))

/-- What the checks of an image before those of its pages find: cause 0x0f, or 0x10, or the image (R279). -/
def State.imageOf (s : State) (c : CtxId) (bs : List Byte) : Except Nat Image :=
  match readImage bs bs.length with
  | none => .error 0x0f
  | some m => if (s.ctx c).prot && !(s.signed m bs) then .error 0x10 else .ok m

/-- Reads an image for a thread's instruction: its header, then the rest of it; the bytes are none where the header is
bad. -/
def State.withImage (s : State) (c : CtxId) (t : Tid) (a : Nat) (f : Option (List Byte) → State → State) : State :=
  threadFar s c t (s.withRead c t a 64 1 fun h s1 =>
    match imageLen h with
    | none => f none s1
    | some n => s1.withRead c t (addrPlus a 64) (n - 64) 1 fun bs s2 => f (some (h ++ bs)) s2)

/-- A cause alone in a load result word (R280). -/
def causeWord (n : Nat) : DWord := BitVec.ofNat 64 n

/-- lay.load (R278): the checks in the order of R279, the placement, and the residency that begins when its banks are
zeroed. -/
def execLayLoad (o : YForm) (s : State) : Res :=
  onSlot o.ls s fun c t =>
    if (s.lay? c (slotOf o.ls)).isSome then s.finishT c t o.d (causeWord 0x0e)
    else
      let a := s.readT c t o.a
      s.withImage c t a.toNat fun bs? s1 =>
        match bs? with
        | none => s1.finishT c t o.d (causeWord 0x0f)
        | some bs =>
          match s1.imageOf c bs with
          | .error e => s1.finishT c t o.d (causeWord e)
          | .ok m =>
            let w := m.check (s1.targetOps c)
            if w ≠ 0 then s1.finishT c t o.d w
            else
              match s1.place c (m.make a (imageDigest m bs) (0, 0)) with
              | none => s1.finishT c t o.d (causeWord 0x0d)
              | some x =>
                (s1.setLay c (slotOf o.ls) (some { x with loading := true, zeroing := true })).modThread c t fun th =>
                  { th with wait := .layLoad o.d (slotOf o.ls) }

/-- LAY_LOAD_COMPLETE (R278): the bank zeroing has ended; the lay is resident and the thread goes on. -/
def execLayLoadComplete (c : CtxId) (l : LaySlot) (s : State) : Res :=
  match s.lay? c l with
  | none => .next s
  | some x =>
    if !x.loading then .next s
    else
      let s1 := s.modLay c l fun y => { y with loading := false, zeroing := false }
      .next ((List.finRange 8).foldl (fun z t =>
        match (z.thread c t).wait with
        | .layLoad d m => if m = l then z.finishT c t d 0 else z
        | _ => z) s1)

/-- What a lay leaves behind when its residency ends: lines of its caches and translations of its reels (R245, R402). -/
def State.dropLay (s : State) (c : CtxId) (l : LaySlot) : State :=
  { s with dir := s.dir.filter fun d => !(d.ctx == c && d.lay == l),
           tlb := s.tlb.filter fun e => match e.unit with | .reel k m _ => !(k == c && m == l) | _ => true }.setLay c l none

/-- lay.free (R281); a lay that is being replaced gives status 3 (R282). -/
def execLayFree (o : YForm) (s : State) : Res :=
  onSlot o.ls s fun c t =>
    match s.resident? c (slotOf o.ls) with
    | none => s.finishT c t o.d (slotStatus 1)
    | some x =>
      if x.pass.isSome || x.succ.isSome || !(s.quiescent c (slotOf o.ls) x) then s.finishT c t o.d (slotStatus 3)
      else (s.dropLay c (slotOf o.ls)).finishT c t o.d 0

/-! ### Replacing (R282) -/

/-- Whether a successor declares the pages of a lay at their places (R279, cause 0x11). -/
def sameShape (x : Lay) (m : Image) : Bool :=
  (x.pages.map fun p => (p.col, p.row)) == m.pages.map fun p => ((p.1 : Int), (p.2.1 : Int))

/-- A lay at the start of its replacement: nothing has adopted the successor (R227, R228). -/
def Lay.startSwap (x : Lay) (a : DWord) (bs : List Byte) (digest : BitVec 256) : Lay :=
  { x with
    succ := some ⟨a, bs, false⟩, digest := digest, stations := x.stations.map fun st => { st with adopted := false },
    cleats := x.cleats.map fun k => { k with adopted := false },
    pages := x.pages.map fun p =>
      { p with reel := { p.reel with adopted := false, streams := p.reel.streams.map fun (st : Stream) => { st with reconfSent := false } } } }

/-- Whether a stream slot may send its reconfiguration record: its stream is not running (R227). -/
def Stream.sendsReconf (st : Stream) : Bool := !st.reconfSent && !st.running

/-- A reconfiguration record leaves on a link; it takes no slot (R227). -/
def Link.sendReconf (l : Link) : Link := { l with flight := l.flight ++ [(.reconf, 0)] }

/-- The stream slots of a page's reel that run no stream send their reconfiguration records (R227). -/
def Lay.reelSends (x : Lay) (pg : Pid) : Lay :=
  match x.reel? pg.val with
  | none => x
  | some r =>
    let due (n : Fin 4) : Bool := !r.adopted && (r.streams[n.val]).sendsReconf
    let y : Lay := { x with links := x.links.map fun l =>
      if l.src.pid == pg && l.src.sid == reelSid && (List.finRange 4).any (fun n => n.val == l.src.port && due n) then l.sendReconf else l }
    y.modReel pg.val fun z => { z with streams := Vector.ofFn fun n => { z.streams[n.val] with reconfSent := (z.streams[n.val]).reconfSent || due n } }

/-- Every slot that runs no stream sends its reconfiguration record as lay.swap is performed (R227). -/
def Lay.reelsSend (x : Lay) : Lay := (List.range x.npages).foldl (fun y p => y.reelSends (Fin.ofNat 64 p)) x

/-- lay.swap (R282): stalled injects end with status 5 (R151); a successor's causes, 0x14 and 0x15 before the image,
0x11 with those of the whole image, 0x0d last. -/
def execLaySwap (o : YForm) (s : State) : Res :=
  onSlot o.ls s fun c t =>
    match s.resident? c (slotOf o.ls) with
    | none => s.finishT c t o.d (causeWord 0x14)
    | some x =>
      if x.succ.isSome then s.finishT c t o.d (causeWord 0x15)
      else
        let a := s.readT c t o.a
        s.withImage c t a.toNat fun bs? s1 =>
          match bs? with
          | none => s1.finishT c t o.d (causeWord 0x0f)
          | some bs =>
            match s1.imageOf c bs with
            | .error e => s1.finishT c t o.d (causeWord e)
            | .ok m =>
              let w := m.check (s1.targetOps c)
              if !(sameShape x m) then s1.finishT c t o.d (causeWord 0x11)
              else if w ≠ 0 then s1.finishT c t o.d w
              else if !(s1.routesOk c { x with links := m.makeLinks }) then s1.finishT c t o.d (causeWord 0x0d)
              else
                let s2 := s1.modLay c (slotOf o.ls) fun y => (y.startSwap a bs (imageDigest m bs)).reelsSend
                (s2.endInjects c (slotOf o.ls) 5).finishT c t o.d 0

/-! ### Cloning (R283, R284, R384) -/

/-- Whether an instruction bars a station from being cloned (R283). -/
def barsClone (i : Instr) : Bool :=
  match i with
  | .drop _ | .fork _ | .bight _ | .steer _ | .otokPut _ | .cleatTie _ => true
  | i => (destSpecs i).any fun d => isK d || isKv d

/-- The links that enter and that leave a station. -/
def Lay.stationLinks (x : Lay) (pid : Pid) (sid : Sid) : List Nat × List Nat :=
  ((List.finRange 4).filterMap fun p => x.linkTo? ⟨pid, sid, p.val⟩, (List.finRange 4).filterMap fun p => x.linkFrom? ⟨pid, sid, p.val⟩)

/-- The station that lay.clone may copy n times, with its one input and output link (R283). -/
def Lay.cloneable (x : Lay) (pid : Pid) (sid : Sid) (n : Nat) : Option (Station × Nat × Nat) :=
  match x.station? pid sid, x.stationLinks pid sid with
  | some st, ([i], [k]) =>
    let bad := (List.finRange 4).any fun g => match st.segs[g.val] with | some sg => sg.instrs.any barsClone | none => false
    if sidSite sid == .compute && !bad && x.npages + n ≤ 64 then some (st, i, k) else none
  | _, _ => none

/-- A link of a cloned station is of two slots where it was a handoff, since it leaves its page. -/
def Link.apart (l : Link) : Link := if l.slots = 0 then { l with slots := 2, free := 2 } else l

/-- A new link of two slots (R284). -/
def newLink (a b : End) : Link := { src := a, dst := b, slots := 2, free := 2, flight := [], buf := [], headAt := 0, back := 0, debt := 0 }

/-- A copy of a station as compute station 0 of a new page (R284). -/
def Station.copied (st : Station) (pid : Nat) : Station :=
  let seed := seedOf (st.seed ^^^ BitVec.ofNat 32 (pid * 256))
  { Station.fresh (Fin.ofNat 64 pid) 0 .compute with
    segs := st.segs, cmap := st.cmap, k := st.k, kv := st.kv, lfsr := seed, seed := seed }

/-- The stations of a new page without its copy: its sixteen banks in the roles of an image that lists none. -/
def newPageBanks (pid : Nat) : List Station :=
  (List.range 16).map fun n =>
    Station.fresh (Fin.ofNat 64 pid) (BitVec.ofNat 7 (32 + n)) (.bank (Bank.fresh (if 12 ≤ n then .cache else .buf) 1024))

/-- The stations of the new pages of a clone, first pid p, with the splices of the first (R284). -/
def cloneStations (st : Station) (p n : Nat) : List Station :=
  (List.range n).flatMap fun i =>
    let splices := if i = 0 then
        [Station.fresh (Fin.ofNat 64 p) 0x60 (.splice (Splice.fresh .splitRr ((List.range (n + 1)).map fun k => Fin.ofNat 4 k) 0xff)),
         Station.fresh (Fin.ofNat 64 p) 0x61 (.splice (Splice.fresh .mergeSeq ((List.range (n + 1)).map fun k => Fin.ofNat 4 k) 0xff))]
      else []
    st.copied (p + i) :: newPageBanks (p + i) ++ splices

/-- The links of a clone: from the split to the original and the copies, and from them to the merge (R284). -/
def cloneLinks (st : Station) (p n ip op : Nat) : List Link :=
  let a : Pid := Fin.ofNat 64 p
  newLink ⟨a, 0x60, 0⟩ ⟨st.pid, st.sid, ip⟩ :: newLink ⟨st.pid, st.sid, op⟩ ⟨a, 0x61, 0⟩
    :: (List.range n).flatMap fun i =>
      [newLink ⟨a, 0x60, i + 1⟩ ⟨Fin.ofNat 64 (p + i), 0, ip⟩, newLink ⟨Fin.ofNat 64 (p + i), 0, op⟩ ⟨a, 0x61, i + 1⟩]

/-- The lay with n copies of a station on new pages that have places already (R284). -/
def Lay.cloned (x : Lay) (st : Station) (n i k : Nat) (places : List (Nat × Nat)) : Lay :=
  let p := x.npages
  let a : Pid := Fin.ofNat 64 p
  let ip := (x.links[i]?.map fun l => l.dst.port).getD 0
  let op := (x.links[k]?.map fun l => l.src.port).getD 0
  let y := (x.modLink i fun l => { l.apart with dst := ⟨a, 0x60, 0⟩ }).modLink k fun l => { l.apart with src := ⟨a, 0x61, 0⟩ }
  { y with
    pages := x.pages ++ places.map fun q =>
      { col := (q.1 : Int) - x.origin.1, row := (q.2 : Int) - x.origin.2, gcol := q.1, grow := q.2,
        reel := Reel.fresh 0 (Vector.replicate 4 0) }
    stations := x.stations ++ cloneStations st p n
    links := y.links ++ cloneLinks st p n ip op
    cleats := x.cleats ++ (List.range n).flatMap fun j => (List.finRange 16).map fun m => Cleat.unlisted (p + j) m
    clones := x.clones ++ [(st.pid, st.sid, n)] }

/-- Hops between two grid places (R384). -/
def hops (a b : Nat × Nat) : Nat := (a.1 - b.1) + (b.1 - a.1) + (a.2 - b.2) + (b.2 - a.2)

/-- The grid in the order in which a page beside a place is sought: hops, row, column (R384). -/
def nearOrder (a : Nat × Nat) : List (Nat × Nat) :=
  let all := (List.range 14).flatMap fun r => (List.range 24).map fun k => (k, r)
  (List.range 38).flatMap fun n => all.filter fun q => hops a q == n

/-- Places for j more pages of a clone beside a place, one after the other, where the links that they bring are allowed
(R215, R384). -/
def State.clonePlaces (s : State) (c : CtxId) (x : Lay) (st : Station) (i k : Nat) (near : Nat × Nat) :
    Nat → List (Nat × Nat) → Option (List (Nat × Nat))
  | 0, ps => some ps
  | j + 1, ps =>
    match (nearOrder near).find? fun q =>
        s.pageFree q.1 q.2 && !(ps.contains q) && s.routesOk c (x.cloned st (ps.length + 1) i k (ps ++ [q])) with
    | none => none
    | some q => s.clonePlaces c x st i k near j (ps ++ [q])

/-- lay.clone (R283, R284). -/
def execLayClone (o : YForm) (s : State) : Res :=
  onSlot o.ls s fun c t =>
    match s.resident? c (slotOf o.ls) with
    | none => s.finishT c t o.d (causeWord 0x14)
    | some x =>
      if x.pass.isSome || x.succ.isSome || !(s.quiescent c (slotOf o.ls) x) then s.finishT c t o.d (causeWord 0x13)
      else
        let b := (s.readT c t o.b).toNat
        let n := o.imm16.toNat
        match if b < 128 && o.pg.toNat < x.npages then x.cloneable (pageOf o.pg) (BitVec.ofNat 7 b) n else none with
        | none => s.finishT c t o.d (causeWord 0x12)
        | some (st, i, k) =>
          let near := (x.pages[o.pg.toNat]?.map fun p => (p.gcol, p.grow)).getD (0, 0)
          match s.clonePlaces c x st i k near n [] with
          | none => s.finishT c t o.d (causeWord 0x0d)
          | some ps => (s.setLay c (slotOf o.ls) (some (x.cloned st n i k ps))).finishT c t o.d 0

/-! ### Passes (R285 to R289) -/

/-- pass.arm (R285). -/
def execPassArm (o : YForm) (s : State) : Res :=
  onSlot o.ls s fun c t =>
    match s.resident? c (slotOf o.ls) with
    | none => s.finishT c t o.d (slotStatus 1)
    | some x =>
      let b := s.readT c t o.b
      if x.inSwap then s.stand c t .swap
      else if x.pass.isSome || !(s.quiescent c (slotOf o.ls) x) then s.finishT c t o.d (slotStatus 3)
      else if b.toNat % 64 ≠ 0 then s.finishT c t o.d (slotStatus 6)
      else
        let n := x.binds.length
        let arm (bs : List Byte) (s1 : State) : State :=
          (s1.modLay c (slotOf o.ls) fun y => y.arm b s1.cyc none (s1.threadReqs c t) (cutDescs n bs)).finishT c t o.d 0
        threadFar s c t (if n = 0 then arm [] s else s.withRead c t (s.readT c t o.a).toNat (64 * n) 1 arm)

/-- pass.wait (R287). -/
def execPassWait (o : YForm) (s : State) : Res :=
  onSlot o.ls s fun c t =>
    match s.resident? c (slotOf o.ls) with
    | none => s.finishT c t o.d (slotStatus 1)
    | some x =>
      if x.pass.isSome then s.modThread c t fun th => { th with wait := .passWait o.d (slotOf o.ls) Option.none }
      else
        match x.lastEnd with
        | some k => s.finishT c t o.d (BitVec.ofNat 64 (k.code * 256))
        | none => s.finishT c t o.d (slotStatus 2)

/-- PASS_WAIT_WAKE (R287). -/
def execPassWaitWake (c : CtxId) (t : Tid) (s : State) : Res :=
  match (s.thread c t).wait with
  | .passWait d _ (some k) => .next (s.finishT c t d (BitVec.ofNat 64 (k * 256)))
  | _ => .next s

/-- pass.abort (R288): the pass is at its end, stalled injects end (R151), and the thread stalls until the pass's record
has been written. -/
def execPassAbort (o : YForm) (s : State) : Res :=
  onSlot o.ls s fun c t =>
    match s.resident? c (slotOf o.ls) with
    | none => s.finishT c t o.d (slotStatus 1)
    | some x =>
      if !x.passOpen then s.finishT c t o.d (slotStatus 2)
      else
        let s1 := (s.abortLay c (slotOf o.ls)).modLay c (slotOf o.ls) fun y =>
          { y with wedged := false, pass := y.pass.map fun p => { p with aborting := some s.cyc } }
        let s2 := (s1.modCtx c fun y =>
          { y with threads := y.threads.map fun t => { t with wait := t.wait.toldAbort (slotOf o.ls) } }).endInjects c (slotOf o.ls) 2
        s2.modThread c t fun th => { th with wait := .passAbort o.d (slotOf o.ls) }

/-! ### Cleats (R291 to R293) -/

/-- cleat.set (R291). -/
def execCleatSet (o : YForm) (s : State) : Res :=
  onSlot o.ls s fun c t =>
    match s.layPage c o.ls o.pg with
    | .error e => s.finishT c t o.d (slotStatus e)
    | .ok _ =>
      if 255 < o.imm16.toNat then s.finishT c t o.d (slotStatus 6)
      else
        let n : BitVec 24 := (s.readT c t o.a).truncate 24
        (s.modLay c (slotOf o.ls) fun x => x.modCleat (pageOf o.pg) (Fin.ofNat 16 o.cl.toNat) fun k =>
          { k with count := n, arrivals := 0, overrun := false, reqs := [],
                   budget := if o.imm16 = 0 then k.budget else o.imm16.truncate 8 }).finishT c t o.d 0

/-- Whether a released generation satisfies a wait (R292). -/
def Cleat.passes (k : Cleat) (b : Byte) : Bool := 1 ≤ (k.released - b).toNat && (k.released - b).toNat ≤ 128

/-- What cleat.wait returns (R292). -/
def Cleat.waitWord (k : Cleat) (flags : Nat) : DWord :=
  BitVec.ofNat 64 (k.gen.toNat + k.fired.toNat * 2 ^ 8 + (if k.overrun then 2 ^ 16 else 0) + flags)

/-- cleat.wait (R292). -/
def execCleatWait (o : YForm) (s : State) : Res :=
  onSlot o.ls s fun c t =>
    match s.layPage c o.ls o.pg with
    | .error e => s.finishT c t o.d (slotStatus e)
    | .ok x =>
      let n : Fin 16 := Fin.ofNat 16 o.cl.toNat
      let b : Byte := (s.readT c t o.b).truncate 8
      match x.cleat? (pageOf o.pg) n with
      | none => s.finishT c t o.d (slotStatus 5)
      | some k =>
        if k.passes b then s.finishT c t o.d (k.waitWord 0)
        else if !x.passOpen then s.finishT c t o.d (k.waitWord (2 ^ 63))
        else s.modThread c t fun th => { th with wait := .cleatWait o.d (slotOf o.ls) (pageOf o.pg) n b Option.none }

/-- CLEAT_WAIT_WAKE (R292). -/
def execCleatWaitWake (c : CtxId) (t : Tid) (s : State) : Res :=
  match (s.thread c t).wait with
  | .cleatWait d l pg n b woken =>
    match (s.lay? c l).bind fun x => x.cleat? pg n with
    | none => .next (s.finishT c t d (slotStatus 1))
    | some k =>
      if k.passes b then .next (s.finishT c t d (k.waitWord 0))
      else
        match woken with
        | some e => .next (s.finishT c t d (k.waitWord (if e < 3 then 2 ^ 63 else 2 ^ 62)))
        | Option.none => .next s
  | _ => .next s

/-- cleat.tie (R293): the arrival is delivered when the segment completes. -/
def execCleatTie (o : YForm) (s : State) : Res :=
  atStation s (fun _ => true) fun p fr =>
    let r := s.run p fr
    s.nextIp p { r with f := { fr with ties := fr.ties ++ [Fin.ofNat 16 o.cl.toNat] } }

/-! ### qwait (R299) -/

/-- qwait (R299): the word is read when it issues; where the condition does not hold the thread stalls. -/
def execQwait (o : YForm) (s : State) : Res :=
  atThread s fun c t =>
    let a := s.readT c t o.a
    let b := s.readT c t o.b
    threadFar s c t (s.withRead c t a.toNat 8 8 fun bs s1 =>
      let v : DWord := BitVec.ofNat 64 (natOfBytes bs)
      if qwaitHolds o.mod.toNat v b then s1.finishT c t o.d v
      else
        let limit := if o.imm16 = 0 then Option.none else some (s1.cyc + 1024 * o.imm16.toNat)
        s1.modThread c t fun th => { th with wait := .qwait o.d o.mod a b limit v, accs := [] })

/-- QWAIT_POLL (R299). -/
def execQwaitPoll (c : CtxId) (t : Tid) (s : State) : Res :=
  match (s.thread c t).wait with
  | .qwait d cond a b limit _ =>
    .next (s.withRead c t a.toNat 8 8 fun bs s1 =>
      let v : DWord := BitVec.ofNat 64 (natOfBytes bs)
      if qwaitHolds cond.toNat v b then s1.finishT c t d v
      else s1.modThread c t fun th => { th with wait := .qwait d cond a b limit v, accs := [] })
  | _ => .next s

/-- QWAIT_TIMEOUT (R299). -/
def execQwaitTimeout (c : CtxId) (t : Tid) (s : State) : Res :=
  match (s.thread c t).wait with
  | .qwait d _ _ _ (some n) v => if n ≤ s.cyc then .next (s.finishT c t d v) else .next s
  | _ => .next s

/-! ### Grouped launch (R305, R306) -/

/-- A gmm descriptor. -/
structure Gmm where
  rows : Nat
  groups : Nat
  g : Nat
  f : Nat
  template : Nat
  area : Nat
  mul : Nat
  add : Nat
  np : Nat
  /-- Control, row stride, group stride and count multiplier of each patch entry. -/
  patches : List (Nat × Int × Int × Nat)
  deriving DecidableEq, Repr

/-- The descriptor of a head of 64 bytes and its patch entries. -/
def gmmOf (h ps : List Byte) : Gmm :=
  let np := natAt h 48 1
  { rows := natAt h 0 8, groups := natAt h 8 4, g := natAt h 12 4, f := natAt h 16 8, template := natAt h 24 8,
    area := natAt h 32 8, mul := natAt h 40 4, add := natAt h 44 4, np := np,
    patches := (List.range np).map fun i =>
      (natAt ps (16 * i) 4, sextN 32 (natAt ps (16 * i + 4) 4), sextN 32 (natAt ps (16 * i + 8) 4), natAt ps (16 * i + 12) 4) }

/-- Whether a descriptor keeps the ranges of R305. -/
def Gmm.valid (x : Gmm) (a : Nat) (h : List Byte) : Bool :=
  a % 64 == 0 && 1 ≤ x.groups && x.groups ≤ 65535 && x.np ≤ 8 && x.area % 64 == 0 && natAt h 49 15 == 0
    && x.patches.all fun p => p.1 < 16 && 1 ≤ p.2.2.2

/-- The result of gmm (R306). -/
def gmmWord (status g : Nat) : DWord := BitVec.ofNat 64 (status * 2 ^ 8 + g % 2 ^ 32 * 2 ^ 16)

/-- A list of bytes with n bytes at i replaced. -/
def putAt (bs : List Byte) (i : Nat) (new : List Byte) : List Byte := bs.take i ++ new ++ bs.drop (i + new.length)

/-- A descriptor of the template as one group changes it (R306). -/
def patchDesc (x : Gmm) (n g : Nat) (p : Nat × Int × Int × Nat) (d : List Byte) : List Byte :=
  let d1 := if p.1.testBit 0 then putAt d (16 + 4 * (p.1 / 2 % 4)) (bytesOfNat 4 (n * p.2.2.2)) else d
  if p.1.testBit 3 then
    putAt d1 0 (bytesOfNat 8 (narrow 64 ((natAt d 0 8 : Nat) + (x.f : Int) * p.2.1 + (g : Int) * p.2.2.1)))
  else d1

/-- The template's descriptors, patched; entries beyond them are not used. -/
def patchAll (x : Gmm) (n g : Nat) : List (Nat × Int × Int × Nat) → List (List Byte) → List (List Byte)
  | p :: ps, d :: ds => patchDesc x n g p d :: patchAll x n g ps ds
  | _, ds => ds

/-- Reads a gmm descriptor for a thread. -/
def State.withGmm (s : State) (c : CtxId) (t : Tid) (a : Nat) (f : Gmm → List Byte → State → State) : State :=
  s.withRead c t a 64 1 fun h s1 =>
    let np := natAt h 48 1
    if np = 0 || 8 < np then f (gmmOf h []) h s1
    else s1.withRead c t (addrPlus a 64) (16 * np) 1 fun ps s2 => f (gmmOf h ps) h s2

/-- Arms the pass of group g with n rows (R306), as pass.arm arms: it stalls while the lay is replaced, and needs
condition 3. The instruction then waits for its pass. -/
def State.gmmArm (s : State) (c : CtxId) (t : Tid) (d : Spec) (l : LaySlot) (a : DWord) (x : Gmm) (n : Nat) : State :=
  match s.resident? c l with
  | none => s.finishT c t d (slotStatus 1)
  | some y =>
    if y.inSwap then s.modThread c t fun th => { th with wait := .stand .swap, accs := [], seen := [] }
    else if y.pass.isSome || !(s.quiescent c l y) then s.finishT c t d (slotStatus 3)
    else
      let k := y.binds.length
      let arm (bs : List Byte) (s1 : State) : State :=
        let s2 := s1.modLay c l fun z =>
          let z1 := { z with cleats := z.cleats.map fun (q : Cleat) =>
            if q.done then { q with count := BitVec.ofNat 24 (n * x.mul + x.add), arrivals := 0, reqs := [] } else q }
          z1.arm (BitVec.ofNat 64 (addrPlus x.area (64 * x.g))) s1.cyc (some (x.g, n)) (s1.threadReqs c t)
            (patchAll x n x.g x.patches (cutDescs k bs))
        s2.modThread c t fun th => { th with wait := .gmm d l a n Option.none, accs := [], seen := [] }
      if k = 0 then arm [] s else s.withRead c t x.template (64 * k) 1 arm

/-- Groups from g on (R306): empty ones are passed over with their progress stored; fuel bounds them. -/
def State.gmmRun (s : State) (c : CtxId) (t : Tid) (d : Spec) (l : LaySlot) (a : DWord) : Nat → Gmm → State
  | 0, x => s.finishT c t d (gmmWord 0 x.g)
  | fuel + 1, x =>
    if x.groups ≤ x.g then s.finishT c t d (gmmWord 0 x.g)
    else s.withRead c t (addrPlus x.rows (4 * x.g)) 4 1 fun bs s1 =>
      let n := natOfBytes bs
      if n = 0 then
        s1.withWrite c t (addrPlus a.toNat 12) 1 (bytesOfNat 4 (x.g + 1) ++ bytesOfNat 8 x.f) fun s2 =>
          s2.gmmRun c t d l a fuel { x with g := x.g + 1 }
      else if 2 ^ 24 - 1 < n * x.mul + x.add then s1.finishT c t d (gmmWord 2 x.g)
      else s1.gmmArm c t d l a x n

/-- gmm (R305, R306): a pass of its own armed for the next group is waited for. -/
def execGmm (o : YForm) (s : State) : Res :=
  onSlot o.ls s fun c t =>
    let l := slotOf o.ls
    let a := s.readT c t o.a
    match s.resident? c l with
    | none => s.finishT c t o.d (slotStatus 1)
    | some x =>
      let own := x.pass.bind Pass.gmm
      if x.inSwap then s.stand c t .swap
      else if own.isNone && (x.pass.isSome || !(s.quiescent c l x)) then s.finishT c t o.d (slotStatus 3)
      else threadFar s c t (s.withGmm c t a.toNat fun m h s1 =>
        match own with
        | some (g, n) =>
          if g = m.g then s1.modThread c t fun th => { th with wait := .gmm o.d l a n Option.none, accs := [] }
          else s1.finishT c t o.d (slotStatus 3)
        | none =>
          if !(m.valid a.toNat h) then s1.finishT c t o.d (gmmWord 3 m.g) else s1.gmmRun c t o.d l a m.groups m)

/-- GMM_GROUP_ADVANCE (R306): the group's pass has ended; its progress, the rows read before among it, is stored and the
next group begins. -/
def execGmmGroupAdvance (c : CtxId) (t : Tid) (s : State) : Res :=
  match (s.thread c t).wait with
  | .gmm d l a n (some k) =>
    .next (s.withGmm c t a.toNat fun m _ s1 =>
      if k ≠ 0 then s1.finishT c t d (gmmWord 1 m.g)
      else
        let f := (m.f + n) % 2 ^ 64
        s1.withWrite c t (addrPlus a.toNat 12) 1 (bytesOfNat 4 (m.g + 1) ++ bytesOfNat 8 f) fun s2 =>
          s2.gmmRun c t d l a m.groups { m with g := m.g + 1, f := f })
  | _ => .next s

end Sys2Proof.Machine
end

