-- ==== Sys2Proof/Machine/Network.lean ====
section
/-!
DEFINITION. What moves records between stations: links and mesh channels (07 R200 to R216), splices and bights (07 R205
to R211), fifo banks (08 R242), releases of cleats (07 R220, 10 R324) and the wedge report (07 R225, R226).
-/
namespace Sys2Proof.Machine

/-! ### Links and channels -/

/-- A channel's state, as trained where nothing is noted. -/
def State.chan (s : State) (ch : Chan) : ChanSt := (s.chans.find? fun x => x.ch == ch).getD ⟨ch, 0, 0, false, false⟩

/-- Replaces a channel's state. -/
def State.setChan (s : State) (x : ChanSt) : State := { s with chans := (s.chans.filter fun y => y.ch != x.ch) ++ [x] }

/-- A flit has passed a channel: its failures in a row are forgotten (R481). -/
def State.flitPassed (s : State) (ch : Chan) : State := { s with chans := s.chans.filter fun y => y.ch != ch }

/-- Whether the record on a channel can leave it: the channel is up and its flit is not at its sixteenth failure. -/
def State.chanLets (s : State) (ch : Chan) : Bool := s.chanUp ch && decide ((s.chan ch).fails < 16)

/-- The channel that an item n hops along a route stands on. -/
def hopChan (rt : List Chan) (n : Nat) : Option Chan := if n = 0 then none else rt[n - 1]?

/-- Whether an item may leave the channel it stands on. -/
def State.mayHop (s : State) (rt : List Chan) (n : Nat) : Bool := match hopChan rt n with | some ch => s.chanLets ch | none => true

/-- The state after an item has left the channel it stood on. -/
def State.hopped (s : State) (rt : List Chan) (n : Nat) : State := match hopChan rt n with | some ch => s.flitPassed ch | none => s

/-- LINK_DELIVERY (R200): the oldest item on its way reaches the receiver's buffer once its route is behind it. -/
def execLinkDelivery (c : CtxId) (l : LaySlot) (k : Nat) (s : State) : Res :=
  match s.lay? c l with
  | none => .next s
  | some x =>
    match x.links[k]? with
    | none => .next s
    | some lk =>
      match lk.flight with
      | [] => .next s
      | (it, n) :: rest =>
        let rt := x.route lk
        if n = rt.length && s.mayHop rt n then
          .next ((s.hopped rt n).modLay c l fun y => (y.modLink k fun z =>
            { z with flight := rest, buf := z.buf ++ [it], headAt := if z.buf.isEmpty then s.cyc else z.headAt }).stir)
        else .next s

/-- SLOT_RETURN (R201). -/
def execSlotReturn (c : CtxId) (l : LaySlot) (k : Nat) (s : State) : Res :=
  .next (s.modLay c l fun x =>
    match x.links[k]? with
    | some z => if z.back = 0 then x else (x.modLink k fun y => { y with back := y.back - 1, free := y.free + 1 }).stir
    | none => x)

/-- The items of a link that may take their next hop, foremost first, each with its place and the hops it has taken: those
short of the route's end that stand behind no other item on their channel; ok says which hops may be taken. -/
def hopsOf (len : Nat) (ok : Nat → Bool) : List (Item × Nat) → Nat → Option Nat → List (Nat × Nat)
  | [], _, _ => []
  | (_, n) :: rest, i, prev =>
    let clear := match prev with | some m => decide (n < m) | none => true
    (if n < len && clear && ok n then [(i, n)] else []) ++ hopsOf len ok rest (i + 1) (some n)

/-- The items of a link that may take their next hop: channels that carry flits are on their way. -/
def State.nextHops (s : State) (x : Lay) (lk : Link) : List (Nat × Nat) :=
  let rt := x.route lk
  hopsOf rt.length (fun n => s.mayHop rt n && match rt[n]? with | some ch => s.chanUp ch | none => false) lk.flight 0 none

/-- Whether a request for a shared slot still stands: an item of its link is to cross the channel next. -/
def State.asks (s : State) (q : ChanAsk) : Bool :=
  match (s.lay? q.ctx q.lay).bind fun x => x.links[q.link]?.map fun lk => (x, lk) with
  | some (x, lk) => (s.nextHops x lk).any fun h => (x.route lk)[h.2]? == some q.ch
  | none => false

/-- Whether a request for a shared slot comes before another (R215): in the order made; of one fabric cycle, the contexts
by turns after the one that took the last slot. -/
def State.askBefore (s : State) (a b : ChanAsk) : Bool :=
  let last := match s.chanTurn.find? fun x => x.1 == a.ch with | some x => x.2.val | none => 63
  let turn (q : ChanAsk) : Nat := (q.ctx.val + 63 - last) % 64
  a.at_ < b.at_ || (a.at_ == b.at_ && turn a < turn b)

/-- The request that a link makes for a shared slot, noted where it is a new one. -/
def State.askFor (s : State) (ch : Chan) (c : CtxId) (l : LaySlot) (k : Nat) : ChanAsk × State :=
  match s.chanAsks.find? fun q => q.ch == ch && q.ctx == c && q.lay == l && q.link == k with
  | some q => (q, s)
  | none => let q : ChanAsk := ⟨ch, c, l, k, s.cyc⟩; (q, { s with chanAsks := s.chanAsks ++ [q] })

/-- Whether a channel's slot is an item's now: the one reserved for its context, or a shared one, granted in the order of
the requests made for it (R215). The state then no longer holds its request. -/
def State.grantSlot (s : State) (ch : Chan) (c : CtxId) (l : LaySlot) (k : Nat) : Bool × State :=
  let s0 := { s with chanAsks := s.chanAsks.filter s.asks }
  let (q, s1) := s0.askFor ch c l k
  let done := { s1 with chanAsks := s1.chanAsks.filter fun y => y != q }
  if s.ownSlotFree c ch then (true, done)
  else if s.sharedFree ch && !(s1.chanAsks.any fun y => y.ch == ch && s1.askBefore y q) then
    (true, { done with chanTurn := (ch, c) :: done.chanTurn.filter fun y => y.1 != ch })
  else (false, s1)

/-- The first of some items of a link that is granted its slot moves on; those before it ask for theirs (R215). -/
def State.advanceFirst (s : State) (c : CtxId) (l : LaySlot) (k : Nat) (rt : List Chan) : List (Nat × Nat) → State
  | [] => s
  | (i, n) :: hs =>
    match rt[n]? with
    | none => s.advanceFirst c l k rt hs
    | some ch =>
      match s.grantSlot ch c l k with
      | (false, s1) => s1.advanceFirst c l k rt hs
      | (true, s1) => (s1.hopped rt n).modLay c l fun y => (y.modLink k fun z =>
          { z with flight := z.flight.modify i fun q => (q.1, q.2 + 1) }).stir

/-- CHANNEL_ADVANCE (R215): a record of a link takes a slot of the next channel of its route, or asks for one. -/
def execChannelAdvance (c : CtxId) (l : LaySlot) (k : Nat) (s : State) : Res :=
  match s.lay? c l with
  | none => .next s
  | some x =>
    match x.links[k]? with
    | none => .next s
    | some lk => .next (s.advanceFirst c l k (x.route lk) (s.nextHops x lk))

/-! ### Flits (R212, R214) -/

/-- The kind field of a header flit. -/
inductive FlitKind where
  | record | reconf | release
  deriving DecidableEq, Repr

/-- The code of a kind. -/
def FlitKind.code : FlitKind → Nat
  | .record => 0 | .reconf => 1 | .release => 2

/-- Where a header flit is addressed: die, page, station and input port. -/
structure FlitTo where
  die : Die
  page : Nat
  sid : Sid
  port : Fin 4
  deriving DecidableEq, Repr

/-- The presence mask of a payload: a bit for each word that is not zero. -/
def presenceMask (v : Vec16) : Nat := (List.range 16).foldl (fun m j => if v.toList.getD j 0 = 0 then m else m + 2 ^ j) 0

/-- The header flit of a record (R212). -/
def headerFlit (k : FlitKind) (a : FlitTo) (r : Rec) : BitVec 128 :=
  BitVec.ofNat 128 (eventBytes.hdrNat r.hdr + presenceMask r.pay * 2 ^ 64 + a.port.val * 2 ^ 88 + a.sid.toNat * 2 ^ 90
    + a.page * 2 ^ 97 + a.die.val * 2 ^ 104 + k.code * 2 ^ 106)

/-- Words four to a flit, the lowest in bits [31:0]; fuel bounds the flits. -/
def packFlits : Nat → List Word → List (BitVec 128)
  | 0, _ => []
  | n + 1, ws => if ws.isEmpty then [] else BitVec.ofNat 128 (strOfWords (ws.take 4)) :: packFlits n (ws.drop 4)

/-- The flits of a record (R212, R214): its header flit, then the words that are not zero. -/
def recordFlits (k : FlitKind) (a : FlitTo) (r : Rec) : List (BitVec 128) :=
  headerFlit k a r :: packFlits 4 (r.pay.toList.filter fun w => w != 0)

/-- The words of data flits put at the places of a presence mask, every absent one zero (R214). -/
def placeWords (mask : Nat) : Nat → List Word → List Word
  | 0, _ => []
  | n + 1, ws =>
    let j := 15 - n
    if mask.testBit j then ws.headD 0 :: placeWords mask n ws.tail else 0 :: placeWords mask n ws

/-- The payload that the input port restores from flits (R214). -/
def flitsPayload (fs : List (BitVec 128)) : List Word :=
  placeWords (bitsNat 79 64 (fs.headD 0).toNat) 16
    (fs.tail.flatMap fun (f : BitVec 128) => (List.range 4).map fun i => BitVec.ofNat 32 (f.toNat / 2 ^ (32 * i)))

/-- FLIT_RETRY (R481): the flit in hand on a channel fails once more. -/
def execFlitRetry (ch : Chan) (s : State) : Res :=
  let x := s.chan ch
  if x.training || x.failed || 16 ≤ x.fails then .next s else .next (s.setChan { x with fails := x.fails + 1 })

/-- The fault-log place of a channel: the die of the position it leaves and the physical page that serves it (R482). -/
def State.chanPlace (s : State) (ch : Chan) : Nat × Nat :=
  let d := dieAt ch.col.val ch.row.val
  (d.val, s.service.pageOf d (posAt ch.col.val ch.row.val))

/-- CHANNEL_RETRAIN (R481): after sixteen failures in a row; logged. -/
def execChannelRetrain (ch : Chan) (s : State) : Res :=
  let x := s.chan ch
  if x.training || x.failed || x.fails < 16 || 3 ≤ x.retrains then .next s
  else
    let p := s.chanPlace ch
    .next ((s.setChan { x with fails := 0, retrains := x.retrains + 1, training := true }).logAdd 7 p.1 p.2 ch.dir.val 255 0 0
      (x.retrains + 1))

/-- CHANNEL_RETRAIN_DONE (R481). -/
def execChannelRetrainDone (ch : Chan) (s : State) : Res :=
  let x := s.chan ch
  if x.training then .next (s.setChan { x with training := false }) else .next s

/-! ### Splices (R205) -/

/-- A splice's link on an output port, where it has a free slot. -/
def Lay.outLink? (x : Lay) (p : Place) (port : Fin 4) : Option Nat :=
  (x.linkFrom? ⟨p.pid, p.sid, port.val⟩).bind fun k => if x.hasSlot k then some k else none

/-- The link on an input port and its head record. -/
def Lay.headAt? (x : Lay) (p : Place) (port : Fin 4) : Option (Nat × Rec) :=
  (x.linkTo? ⟨p.pid, p.sid, port.val⟩).bind fun k => (x.headRec? k).map fun r => (k, r)

/-- A splice takes the head of link k and passes copies of it on links outs; the splice changes as f says. Bights count
it, and the wedge timer restarts (R208, R225). -/
def State.splicePass (s : State) (p : Place) (k : Nat) (r : Rec) (outs : List Nat) (f : Splice → Splice) : State :=
  s.modLay p.ctx p.slot fun x =>
    let ls := outs.filterMap fun n => x.links[n]?
    let y := ((x.takeHead k s.cyc).modStation p.pid p.sid fun st => st.modSplice f).loopMove p.pid p.sid ls
    (outs.foldl (fun z n => z.push n (.data r)) y).progressed

/-- A splice of a mode at a place: its lay and itself. -/
def State.spliceAt (s : State) (p : Place) (m : SMode) : Option (Lay × Station × Splice) :=
  match s.lay? p.ctx p.slot, s.station? p with
  | some x, some st =>
    match st.splice? with
    | some b => if b.mode == m && !st.dead then some (x, st, b) else none
    | none => none
  | _, _ => none

/-- All of a list of links, or none. -/
def allSome {α : Type} : List (Option α) → Option (List α)
  | [] => some []
  | none :: _ => none
  | some x :: xs => (allSome xs).map fun ys => x :: ys

/-- SPLICE_BCAST (R205): it fires only when each listed port has a free slot. -/
def execSpliceBcast (p : Place) (s : State) : Res :=
  match s.spliceAt p .bcast with
  | none => .next s
  | some (x, _, b) =>
    match x.headAt? p 0, allSome (b.ports.map fun q => x.outLink? p q) with
    | some (k, r), some outs => .next (s.splicePass p k r outs id)
    | _, _ => .next s

/-- Passes the head of i0 to one listed port. -/
def State.splitTo (s : State) (p : Place) (x : Lay) (b : Splice) (i : Nat) (f : Splice → Splice) : State :=
  match x.headAt? p 0, x.outLink? p (b.ports.getD i 0) with
  | some (k, r), some n => s.splicePass p k r [n] f
  | _, _ => s

/-- SPLICE_SPLIT_RR (R205): strict turn. -/
def execSpliceSplitRr (p : Place) (s : State) : Res :=
  match s.spliceAt p .splitRr with
  | none => .next s
  | some (x, _, b) => .next (s.splitTo p x b b.next fun z => { z with next := (z.next + 1) % z.ports.length })

/-- The list entry that a record goes to under split.hash (R205, R123). -/
def hashEntry (b : Splice) (r : Rec) : Nat := hashMix 0 (vword r.pay b.opt.toNat).toNat % b.ports.length

/-- SPLICE_SPLIT_HASH (R205). -/
def execSpliceSplitHash (p : Place) (s : State) : Res :=
  match s.spliceAt p .splitHash with
  | none => .next s
  | some (x, _, b) =>
    match x.headAt? p 0 with
    | none => .next s
    | some (_, r) => .next (s.splitTo p x b (hashEntry b r) id)

/-- Heads at the listed ports: list entry, link, record, and the cycle it became head. -/
def Lay.mergeHeads (x : Lay) (p : Place) (b : Splice) : List (Nat × Fin 4 × Nat × Rec × Nat) :=
  (List.range b.ports.length).filterMap fun i =>
    let q := b.ports.getD i 0
    (x.headAt? p q).map fun h => (i, q, h.1, h.2, (x.links[h.1]?.map Link.headAt).getD 0)

/-- SPLICE_MERGE_ARR (R205): the head that became head first, the lower port where two did in one cycle. -/
def execSpliceMergeArr (p : Place) (s : State) : Res :=
  match s.spliceAt p .mergeArr with
  | none => .next s
  | some (x, _, b) =>
    let best := (x.mergeHeads p b).foldl (fun acc h =>
      match acc with
      | none => some h
      | some g => if h.2.2.2.2 < g.2.2.2.2 || (h.2.2.2.2 == g.2.2.2.2 && h.2.1 < g.2.1) then some h else some g) none
    match best, x.outLink? p 0 with
    | some (_, _, k, r, _), some n => .next (s.splicePass p k r [n] id)
    | _, _ => .next s

/-- SPLICE_MERGE_RR (R205): cyclic turn, ports without a head passed over. -/
def execSpliceMergeRr (p : Place) (s : State) : Res :=
  match s.spliceAt p .mergeRr with
  | none => .next s
  | some (x, _, b) =>
    let hs := x.mergeHeads p b
    let pick := (List.range b.ports.length).findSome? fun i => hs.find? fun h => h.1 == (b.next + i) % b.ports.length
    match pick, x.outLink? p 0 with
    | some (i, _, k, r, _), some n => .next (s.splicePass p k r [n] fun z => { z with next := (i + 1) % z.ports.length })
    | _, _ => .next s

/-! ### merge.seq (R206) -/

/-- The distance of a record's tag from the expected one. -/
def tagDistance (b : Splice) (r : Rec) : Nat := (r.hdr.seq - b.e).toNat

/-- The reorder entry of a record. -/
def reorderEntry (r : Rec) : Nat := r.hdr.seq.toNat % 64

/-- Whether a reorder entry holds a record. -/
def Splice.holdsEntry (b : Splice) (n : Nat) : Bool := b.reorder.any fun x => x.1 == n

/-- The splice with a record in its reorder buffer. -/
def Splice.keep (r : Rec) (b : Splice) : Splice := { b with reorder := b.reorder ++ [(reorderEntry r, r)] }

/-- MERGE_SEQ_ACCEPT (R206): a head within 64 of the expected tag is accepted; one whose entry is taken is diverted as a
sequence duplicate. A diverted record returns after flt.retry (R409). -/
def execMergeSeqAccept (p : Place) (s : State) : Res :=
  match s.spliceAt p .mergeSeq with
  | none => .next s
  | some (x, st, b) =>
    match st.exc with
    | some e =>
      if !e.refire || 64 ≤ tagDistance b e.r then .next s
      else
        let s1 := s.modStation p fun y => { y with exc := none }
        if b.holdsEntry (reorderEntry e.r) then
          .next ((s1.modLay p.ctx p.slot fun y => y.loopMove p.pid p.sid []).enterExc p e.r (faultWord 0x0b none 0 0) false)
        else .next (s1.modLay p.ctx p.slot fun y => (y.modStation p.pid p.sid fun z => z.modSplice (Splice.keep e.r)).stir)
    | none =>
      match (x.mergeHeads p b).find? fun h => decide (tagDistance b h.2.2.2.1 < 64) with
      | none => .next s
      | some (_, _, k, r, _) =>
        let s1 := s.modLay p.ctx p.slot fun y => (y.takeHead k s.cyc).stir
        if b.holdsEntry (reorderEntry r) then
          .next ((s1.modLay p.ctx p.slot fun y => y.loopMove p.pid p.sid []).enterExc p r (faultWord 0x0b none 0 0) false)
        else .next (s1.modStation p fun z => z.modSplice (Splice.keep r))

/-- MERGE_SEQ_PASS (R206): the expected record is passed to o0, or retired where it is of the hole class. -/
def execMergeSeqPass (p : Place) (s : State) : Res :=
  match s.spliceAt p .mergeSeq with
  | none => .next s
  | some (x, st, b) =>
    let n := b.e.toNat % 64
    match b.reorder.find? fun y => y.1 == n with
    | none => .next s
    | some (_, r) =>
      let go (z : Splice) : Splice := { z with reorder := z.reorder.filter fun y => y.1 != n, e := z.e + 1 }
      if st.exc.isSome then .next s
      else if r.hdr.cls.toNat = b.opt.toNat then
        .next (s.modLay p.ctx p.slot fun y => ((y.modStation p.pid p.sid fun z => z.modSplice go).loopMove p.pid p.sid []).stir)
      else
        match x.outLink? p 0 with
        | none => .next s
        | some k =>
          .next (s.modLay p.ctx p.slot fun y =>
            let ls := match y.links[k]? with | some l => [l] | none => []
            (((y.modStation p.pid p.sid fun z => z.modSplice go).loopMove p.pid p.sid ls).push k (.data r)).progressed)

/-! ### Bight entries (R210) -/

/-- BIGHT_ADMIT (R210). -/
def execBightAdmit (p : Place) (s : State) : Res :=
  match s.spliceAt p .bight with
  | none => .next s
  | some (x, _, b) =>
    match x.outLink? p 0 with
    | none => .next s
    | some n =>
      let fresh := if b.occ + 2 ≤ x.loopCapacity p.pid p.sid then x.headAt? p 0 else none
      let again := x.headAt? p 1
      match fresh, again with
      | some (k, r), some (k', r') =>
        if b.turn then .next (s.splicePass p k' r' [n] fun z => { z with turn := false })
        else .next (s.splicePass p k r [n] fun z => { z with turn := true, occ := z.occ + 1 })
      | some (k, r), none => .next (s.splicePass p k r [n] fun z => { z with occ := z.occ + 1 })
      | none, some (k, r) => .next (s.splicePass p k r [n] id)
      | none, none => .next s

/-! ### fifo banks (R242) -/

/-- Records that a fifo bank holds. -/
def fifoDepth : Nat := 1024

/-- FIFO_ENQUEUE (R242): the head that the scan of R199 finds. -/
def execFifoEnqueue (p : Place) (s : State) : Res :=
  match s.lay? p.ctx p.slot, s.station? p with
  | some x, some st =>
    match st.bank? with
    | none => .next s
    | some b =>
      if b.role ≠ .fifo || fifoDepth ≤ b.fifo.length || st.dead then .next s
      else
        match (scanOrder st.lastPort).findSome? fun i => (x.headAt? p i).map fun h => (i, h.1, h.2) with
        | none => .next s
        | some (i, k, r) =>
          .next (s.modLay p.ctx p.slot fun y => (((y.takeHead k s.cyc).modStation p.pid p.sid fun z =>
            { z with lastPort := i, body := .bank { b with fifo := b.fifo ++ [r] } })).progressed)
  | _, _ => .next s

/-- FIFO_DEQUEUE (R242). -/
def execFifoDequeue (p : Place) (s : State) : Res :=
  match s.lay? p.ctx p.slot, s.station? p with
  | some x, some st =>
    match st.bank?, x.outLink? p 0 with
    | some b, some k =>
      match b.fifo with
      | [] => .next s
      | r :: rest =>
        if b.role ≠ .fifo then .next s
        else
          .next (s.modLay p.ctx p.slot fun y =>
            let ls := match y.links[k]? with | some l => [l] | none => []
            (((y.modStation p.pid p.sid fun z => { z with body := .bank { b with fifo := rest } }).loopMove p.pid p.sid ls).push k
              (.data r)).progressed)
    | _, _ => .next s
  | _, _ => .next s

/-! ### Releases (R220, R324) -/

/-- CLEAT_RELEASE (R324): the oldest generation not yet released is, once the accesses of its tying records are
performed. -/
def execCleatRelease (c : CtxId) (l : LaySlot) (pg : Pid) (n : Fin 16) (s : State) : Res :=
  match (s.lay? c l).bind fun x => x.cleat? pg n with
  | none => .next s
  | some k =>
    match k.waiting with
    | [] => .next s
    | (g, f, rs, unsent) :: rest =>
      if rs.all fun r => s.performed r then
        let s1 := s.modLay c l fun x => (x.modCleat pg n fun z =>
          { z with waiting := rest, released := g, pending := if z.link.isSome && !unsent then z.pending ++ [(g, f)] else z.pending }).stir
        .next (if k.link.isNone then s1.wfiNote c 4 else s1)
      else .next s

/-- A release record (R220). -/
def releaseRec (c : CtxId) (l : LaySlot) (g f : Byte) : Rec :=
  ⟨{ lay := l, ctx := c, cls := 7, len := 1, fmt := 0, ck := 0, scale := 0, seq := g.zeroExtend 24 },
    vzero.set 0 (BitVec.ofNat 32 (g.toNat + 256 * f.toNat)), []⟩

/-- RELEASE_RECORD_SEND (R220). -/
def execReleaseRecordSend (c : CtxId) (l : LaySlot) (pg : Pid) (n : Fin 16) (s : State) : Res :=
  match s.lay? c l with
  | none => .next s
  | some x =>
    match x.cleat? pg n with
    | none => .next s
    | some k =>
      match k.pending, k.link with
      | (g, f) :: rest, some i =>
        if x.hasSlot i then
          .next (s.modLay c l fun y =>
            ((y.modCleat pg n fun z => { z with pending := rest }).push i (.data (releaseRec c l g f))).stir)
        else .next s
      | _, _ => .next s

/-! ### The wedge report (R225, R226) -/

/-- The lowest input port of a station whose head cannot fire, as the reason of R226; none where no head is held. -/
def Lay.heldReason (x : Lay) (p : Place) (st : Station) : Option Nat :=
  let noOut (q : Fin 4) : Bool := (x.outLink? p q).isNone
  let held : Option Nat := match st.body with
  | .splice b =>
    match b.mode with
    | .seg => segHeld
    | .bcast => (x.headAt? p 0).bind fun _ => if b.ports.any noOut then some 0 else none
    | .splitRr => (x.headAt? p 0).bind fun _ => if noOut (b.ports.getD b.next 0) then some 0 else none
    | .splitHash => (x.headAt? p 0).bind fun h => if noOut (b.ports.getD (hashEntry b h.2) 0) then some 0 else none
    | .mergeArr | .mergeRr => if !(x.mergeHeads p b).isEmpty && noOut 0 then some 0 else none
    | .mergeSeq =>
      (sortBy (fun (h k : Nat × Fin 4 × Nat × Rec × Nat) => decide (h.2.1.val ≤ k.2.1.val)) (x.mergeHeads p b)).findSome? fun h =>
        if 64 ≤ tagDistance b h.2.2.2.1 then
          some (if !(b.holdsEntry (b.e.toNat % 64)) then 6 else if st.exc.isSome && !(noOut 0) then 7 else 0)
        else if st.exc.isSome then some 7 else none
    | .bight =>
      if (x.headAt? p 0).isSome && noOut 0 then some 0
      else if (x.headAt? p 0).isSome && x.loopCapacity p.pid p.sid < b.occ + 2 then some 5
      else if (x.headAt? p 1).isSome && noOut 0 then some 0 else none
  | .bank b => if b.role = .fifo then (if fifoDepth ≤ b.fifo.length && anyHead then some 0 else none) else segHeld
  | _ => segHeld
  if st.dead && anyHead then some (held.getD 7) else held
where
  /-- Whether any input port has a head. -/
  anyHead : Bool := (List.finRange 4).any fun i => (x.headAt? p i).isSome
  /-- A station that runs segments. -/
  segHeld : Option Nat :=
    (List.finRange 4).findSome? fun i =>
      match x.headAt? p i with
      | none => none
      | some (_, r) =>
        let stop := if st.mayFire then [] else [7]
        match st.intake r with
        | .divert _ => stop.min?
        | .run _ g _ => (stop ++ x.holdReasons st g).min?

/-- Records in a list of items. -/
def dataCount (is : List Item) : Nat := (is.filter Item.isData).length

/-- An entry of the report for a full link. -/
def linkEntry (l : Link) : Nat :=
  l.src.pid.val + 2 ^ 6 * l.src.sid.toNat + 2 ^ 13 * (l.src.port % 4) + 2 ^ 15 * l.dst.pid.val + 2 ^ 21 * l.dst.sid.toNat
    + 2 ^ 28 * (l.dst.port % 4) + 2 ^ 30 * l.slots + 2 ^ 34 * max 1 l.slots

/-- An entry for a held station. -/
def Lay.stationEntry (x : Lay) (p : Place) (st : Station) (reason : Nat) : Nat :=
  let waiting := ((List.finRange 4).map fun i =>
    match x.linkTo? ⟨p.pid, p.sid, i.val⟩ with
    | some k => (x.links[k]?.map fun l => dataCount l.buf).getD 0
    | none => 0).sum
  let inside := match st.splice? with | some b => if b.mode == .mergeSeq then b.reorder.length else st.frames.length | none => st.frames.length
  2 ^ 62 + p.pid.val + 2 ^ 6 * p.sid.toNat + 2 ^ 13 * min 63 waiting + 2 ^ 19 * min 127 inside + 2 ^ 26 * reason

/-- An entry for a cleat with arrivals. -/
def cleatWord (k : Cleat) : Nat :=
  2 ^ 63 + k.pid.val + 2 ^ 6 * k.num.val + 2 ^ 10 * k.arrivals.toNat + 2 ^ 34 * k.count.toNat + if k.overrun then 2 ^ 58 else 0

/-- The place of a link in the order of the report: by the page and station it ends at, as R360 lists them (DEDUCED, log
entry 71). -/
def Link.rank (l : Link) : Nat := l.dst.pid.val * 2 ^ 9 + l.dst.sid.toNat * 4 + l.dst.port

/-- Whether a link is full: a handoff's register holds a record, or every slot of another is taken (R226). -/
def Link.isFull (l : Link) : Bool := if l.slots = 0 then l.flight.any (fun i => i.1.isData) || l.buf.any Item.isData else l.free == 0

/-- The entries of the report in order: full links, held stations, cleats with arrivals (R226). -/
def wedgeEntries (x : Lay) (c : CtxId) (l : LaySlot) : List Nat :=
  let full := sortBy (fun (a b : Link) => decide (a.rank ≤ b.rank)) (x.links.filter fun k => k.isFull && k.src.sid != cleatSid && k.src.sid != excSid)
  full.map linkEntry
    ++ (x.stations.filterMap fun st =>
      let p : Place := ⟨c, l, st.pid, st.sid⟩
      (x.heldReason p st).map fun n => x.stationEntry p st n)
    ++ (x.cleats.filter fun k => k.arrivals != 0).map cleatWord

/-- The wedge report (R226). -/
def wedgeReport (x : Lay) (c : CtxId) (l : LaySlot) (limit : Nat) : List Byte :=
  let es := wedgeEntries x c l
  let n := min 62 es.length
  let w0 := l.val + 2 ^ 16 * n + (if 62 < es.length then 2 ^ 24 else 0) + 2 ^ 32 * (limit / 1024 % 65536)
  let w1 := match x.doneCleat? with
    | some k => (k.count - k.arrivals).toNat + 2 ^ 24 * k.gen.toNat + 2 ^ 32 * k.pid.val + 2 ^ 40 * k.num.val + if k.overrun then 2 ^ 44 else 0
    | none => 0
  padBytes 512 (bytesOfNat 8 w0 ++ bytesOfNat 8 w1 ++ (es.take 62).flatMap fun e => bytesOfNat 8 e)

/-- WEDGE_TIMER_EXPIRY (R225): wdg is set, the event raised, the report written, the timer restarted; waiting threads
learn of it (R287, R292). A report that is being written goes on first. -/
def execWedgeTimerExpiry (c : CtxId) (l : LaySlot) (s : State) : Res :=
  match s.lay? c l with
  | none => .next s
  | some x =>
    let lim := (s.ctx c).inForce.wlimit.toNat
    let a := (s.ctx c).inForce.wreport.toNat
    if (s.job? (.wedgeTimerExpiry c l) 0).isSome then .next (s.devWrite (.wedgeTimerExpiry c l) 0 c a []).2
    else if x.wedgeTimer < lim || (a ≠ 0 && s.walkWaits (s.dataUnit c) c a 512) then .next s
    else
      let s1 := s.modLay c l fun y => { y with wedged := true, wedgeTimer := 0, pass := y.pass.map fun p => { p with wedge := true } }
      let s2 := (s1.raiseEvent c
        { kind := 4, tag := 0, waiting := false, lay := l, pid := 0, src := 0, sub := 0, cause := 0, access := 0, region := 0,
          reqs := 0, va := 0, fw := 0, loc := 0, r := none }).2
      let s3 := if a = 0 then s2
        else
          match s2.devWrite (.wedgeTimerExpiry c l) 0 c a (wedgeReport x c l lim) with
          | (.failed, z) => z.logAdd 0x0d 255 255 255 c.val a 0 0
          | (_, z) => z
      .next (s3.tellWaits c l 3)

end Sys2Proof.Machine
end

