-- ==== Sys2Proof/Machine/Save.lean ====
section
/-!
DEFINITION. The save area (14 R422 to R427): the bytes of the header, of thread blocks and of lay blocks, what they hold
when they are read back, and SAVENEED (14 R417).
-/
namespace Sys2Proof.Machine

/-! ### Numbers as bytes -/

/-- The bytes of words. -/
def wordBytes (ws : List Word) : List Byte := ws.flatMap fun (w : Word) => bytesOfNat 4 w.toNat

/-- Zeros. -/
def zeros (n : Nat) : List Byte := List.replicate n 0

/-- One byte of a number. -/
def byteOf (n : Nat) : Byte := BitVec.ofNat 8 n

/-- A flag as a byte. -/
def flagByte (b : Bool) : Byte := if b then 1 else 0

/-- The vector of 64 bytes at i. -/
def vecAt (bs : List Byte) (i : Nat) : Vec16 := vofStr (natAt bs i 64)

/-- The word at i. -/
def wordAt (bs : List Byte) (i : Nat) : Word := BitVec.ofNat 32 (natAt bs i 4)

/-- The byte at i. -/
def byteAt (bs : List Byte) (i : Nat) : Nat := natAt bs i 1

/-! ### Chunks (R424) -/

/-- A chunk. -/
structure Chunk where
  kind : Nat
  pid : Nat
  sid : Nat
  index : Nat
  pay : List Byte
  deriving DecidableEq, Repr

/-- The payload length rounded up to 16. -/
def round16 (n : Nat) : Nat := (n + 15) / 16 * 16

/-- A chunk as bytes. -/
def Chunk.bytes (k : Chunk) : List Byte :=
  bytesOfNat 2 k.kind ++ [byteOf k.pid, byteOf k.sid] ++ bytesOfNat 2 k.index ++ zeros 2 ++ bytesOfNat 4 k.pay.length ++ zeros 4
    ++ padBytes (round16 k.pay.length) k.pay

/-- The chunks of a block up to its end chunk; fuel bounds them. -/
def readChunks : Nat → List Byte → List Chunk
  | 0, _ => []
  | n + 1, bs =>
    let len := natAt bs 8 4
    let k : Chunk := ⟨natAt bs 0 2, byteAt bs 2, byteAt bs 3, natAt bs 4 2, (bs.drop 16).take len⟩
    if k.kind = 1 || bs.length < 16 then [] else k :: readChunks n (bs.drop (16 + round16 len))

/-- Stall counters as bytes. -/
def stallBytes (st : Station) : List Byte := wordBytes st.stall.toList

/-- Stall counters at i. -/
def stallAt (bs : List Byte) (i : Nat) : Vector Word 4 := Vector.ofFn fun n => wordAt bs (i + 4 * n.val)

/-! ### Stations -/

/-- A compute station (kind 0x10). -/
def computePay (st : Station) : List Byte :=
  wordBytes st.k.toList ++ (st.kv.toList.flatMap fun (v : Vec16) => wordBytes v.toList) ++ bytesOfNat 4 st.lfsr.toNat
    ++ [byteOf st.lastPort.val] ++ zeros 3 ++ stallBytes st ++ zeros 8

/-- A compute station read back. -/
def computeBack (st : Station) (bs : List Byte) : Station :=
  { st with
    k := Vector.ofFn fun n => wordAt bs (4 * n.val), kv := Vector.ofFn fun n => vecAt bs (48 + 64 * n.val), lfsr := wordAt bs 304,
    lastPort := Fin.ofNat 4 (byteAt bs 308), stall := stallAt bs 312 }

/-- Role codes (R394). -/
def Role.code : Role → Nat
  | .buf => 0 | .fifo => 1 | .cache => 2 | .pres => 3 | .line => 4

/-- A bank station (kind 0x30). -/
def bankPay (st : Station) (b : Bank) : List Byte :=
  [byteOf b.role.code, 0, 0, 0] ++ bytesOfNat 4 b.head ++ stallBytes st ++ zeros 40
    ++ (match b.role with
      | .fifo | .cache => []
      | _ => readBytes b.dat 0 65536)
    ++ if b.role = .pres then (List.range 2048).map fun i => byteOf ((List.range 8).foldl (fun a j => if b.pres.contains (8 * i + j) then a + 2 ^ j else a) 0) else []

/-- A bank station read back. -/
def bankBack (st : Station) (b : Bank) (bs : List Byte) : Station :=
  { st with
    stall := stallAt bs 8,
    body := .bank { b with
      role := roleOf (byteAt bs 0), head := natAt bs 4 4, dat := writeBytes [] 0 ((bs.drop 64).take 65536),
      pres := (List.range 16384).filter fun w => (byteAt bs (65600 + w / 8)).testBit (w % 8) } }

/-- A tile block (R425). -/
def tileBytes (t : Tile) : List Byte :=
  (t.cols.toList.flatMap fun (v : Vec16) => wordBytes v.toList) ++ t.scales.toList
    ++ padBytes 16 [byteOf (t.fmt.getD 0).toNat, (match t.chunk with | some n => byteOf n.toNat | none => 0xff),
      byteOf ((if t.poison then 1 else 0) + if t.fmt.isNone then 2 else 0)]

/-- A tile block at i. -/
def tileAt (bs : List Byte) (i : Nat) : Tile :=
  let fl := byteAt bs (i + 4162)
  { cols := Vector.ofFn fun n => vecAt bs (i + 64 * n.val), scales := Vector.ofFn fun n => byteOf (byteAt bs (i + 4096 + n.val)),
    fmt := if fl.testBit 1 then none else some (BitVec.ofNat 4 (byteAt bs (i + 4160))),
    chunk := if byteAt bs (i + 4161) = 0xff then none else some (BitVec.ofNat 16 (byteAt bs (i + 4161))), poison := fl.testBit 0 }

/-- An accumulator (R425). -/
def accBytes (a : Vector AccRow 32) : List Byte :=
  (a.toList.flatMap fun (r : AccRow) => wordBytes r.vals.toList)
    ++ a.toList.flatMap fun (r : AccRow) => bytesOfNat 4 (r.mask.toNat + (if r.half then 16 else 0) + r.scale.toNat * 256)

/-- An accumulator at i. -/
def accAt (bs : List Byte) (i : Nat) : Vector AccRow 32 :=
  Vector.ofFn fun r =>
    let w := natAt bs (i + 8192 + 4 * r.val) 4
    ⟨Vector.ofFn fun j => wordAt bs (i + 256 * r.val + 4 * j.val), BitVec.ofNat 4 w, w.testBit 4, byteOf (w / 256)⟩

/-- The owner of a working vector (R425). -/
def ownerBytes (w : WVec) : List Byte :=
  let p := [byteOf w.next, flagByte w.poison]
  padBytes 16 (match w.owner with
    | none => [0, 0, 0, 0] ++ p
    | some (.expand g a r) => [1, byteOf g.val, byteOf a.val, byteOf r.val] ++ p
    | some (.absorb g k n) => [2, byteOf g.val, byteOf k.val, byteOf n.toNat] ++ p)

/-- A working vector with its owner read back. -/
def workAt (bs : List Byte) : WVec :=
  let o := 107584
  let b (i : Nat) : Nat := byteAt bs (o + i)
  { vals := Vector.ofFn fun n => wordAt bs (107328 + 4 * n.val),
    owner := match b 0 with
      | 1 => some (.expand (Fin.ofNat 4 (b 1)) (Fin.ofNat 4 (b 2)) (Fin.ofNat 32 (b 3)))
      | 2 => some (.absorb (Fin.ofNat 4 (b 1)) (Fin.ofNat 64 (b 2)) (BitVec.ofNat 16 (b 3)))
      | _ => none
    next := b 4, poison := b 5 == 1 }

/-- A matrix station (kind 0x40). -/
def matrixPay (st : Station) (m : Matrix) : List Byte :=
  tileBytes m.ta ++ tileBytes m.tb
    ++ padBytes 16 (match m.swap with | some n => [1, 0] ++ bytesOfNat 2 n.toNat | none => [0])
    ++ (m.acc.toList.flatMap accBytes)
    ++ ((List.range 1024).flatMap fun n => wordBytes (m.uSlot n).toList)
    ++ padBytes 16 ([byteOf (m.ufmt.getD 0).toNat, 0] ++ bytesOfNat 2 m.udc)
    ++ (List.range 128).map (fun i => byteOf ((List.range 8).foldl (fun a j => if m.upoison.contains (8 * i + j) then a + 2 ^ j else a) 0))
    ++ wordBytes m.w.vals.toList ++ ownerBytes m.w
    ++ padBytes 16 (bytesOfNat 4 st.lfsr.toNat ++ [byteOf st.lastPort.val])

/-- A matrix station read back. -/
def matrixBack (st : Station) (bs : List Byte) : Station :=
  let uf := byteAt bs 107184
  let m : Matrix :=
    { ta := tileAt bs 0, tb := tileAt bs 4176,
      swap := if byteAt bs 8352 = 1 then some (BitVec.ofNat 16 (natAt bs 8354 2)) else none,
      acc := Vector.ofFn fun a => accAt bs (8368 + 8320 * a.val),
      u := (List.range 1024).filterMap fun n => let v := vecAt bs (41648 + 64 * n); if v = vzero then none else some (n, v),
      ufmt := if uf = 0 then none else some (BitVec.ofNat 4 uf), udc := natAt bs 107186 2,
      upoison := (List.range 1024).filter fun n => (byteAt bs (107200 + n / 8)).testBit (n % 8), w := workAt bs }
  { st with body := .matrix m, lfsr := wordAt bs 107600, lastPort := Fin.ofNat 4 (byteAt bs 107604) }

/-- Splice mode codes (R394). -/
def SMode.code : SMode → Nat
  | .seg => 0 | .bcast => 1 | .splitRr => 2 | .splitHash => 3 | .mergeArr => 4 | .mergeRr => 5 | .mergeSeq => 6 | .bight => 7

/-- A splice (kind 0x50); its turn is stored as the port that comes next. -/
def splicePay (st : Station) (b : Splice) : List Byte :=
  [byteOf b.mode.code, flagByte b.turn, byteOf (b.ports.getD b.next 0).val, byteOf st.lastPort.val] ++ bytesOfNat 3 b.e.toNat ++ [0] ++ bytesOfNat 4 b.occ
    ++ zeros 4 ++ stallBytes st

/-- A splice read back; its occupancy too, which equals that of the records placed. -/
def spliceBack (st : Station) (b : Splice) (bs : List Byte) : Station :=
  { st with
    lastPort := Fin.ofNat 4 (byteAt bs 3), stall := stallAt bs 16,
    body := .splice { b with turn := byteAt bs 1 == 1, next := b.ports.findIdx fun q => q.val == byteAt bs 2, e := BitVec.ofNat 24 (natAt bs 4 3), occ := natAt bs 8 4 } }

/-- The chunk kind and payload of a station. -/
def stationChunk (st : Station) : Chunk :=
  let at_ (k : Nat) (p : List Byte) : Chunk := ⟨k, st.pid.val, st.sid.toNat, 0, p⟩
  match st.body with
  | .compute => at_ 0x10 (computePay st)
  | .bank b => at_ 0x30 (bankPay st b)
  | .matrix m => at_ 0x40 (matrixPay st m)
  | .splice b => at_ 0x50 (splicePay st b)

/-- A station from its chunk. -/
def stationBack (st : Station) (k : Chunk) : Station :=
  match st.body with
  | .compute => if k.kind = 0x10 then computeBack st k.pay else st
  | .bank b => if k.kind = 0x30 then bankBack st b k.pay else st
  | .matrix _ => if k.kind = 0x40 then matrixBack st k.pay else st
  | .splice b => if k.kind = 0x50 then spliceBack st b k.pay else st

/-! ### Reels (R426) and cleats -/

/-- The descriptor bytes of a slot; a fibre stream's are its form, fb and fm. -/
def slotDesc (st : Stream) : List Byte :=
  if st.form = .fib then padBytes 64 [byteOf st.form.code, byteOf st.fb.val, byteOf st.fm.toNat]
  else padBytes 64 st.desc

/-- The state code of a slot. -/
def slotState : StreamSt → Nat
  | .idle => 0 | .starting => 1 | .running => 1 | .stopped => 2 | .ended => 3

/-- A slot block. -/
def slotBytes (st : Stream) : List Byte :=
  slotDesc st ++ [byteOf st.form.code, byteOf (slotState st.st), flagByte st.poison, 0] ++ bytesOfNat 4 st.count ++ bytesOfNat 8 st.offset
    ++ bytesOfNat 4 st.blocks ++ bytesOfNat 4 st.crc.toNat ++ bytesOfNat 2 st.zeros ++ bytesOfNat 2 st.heldIx ++ zeros 4
    ++ padBytes 16 (st.compl.getD []) ++ zeros 16

/-- Stream forms by code (R258). -/
def formOf (n : Nat) : SForm :=
  match n with
  | 0 => .aff | 1 => .gat | 2 => .sca | 3 => .fib | 4 => .cmp | _ => .rq

/-- A slot read back over what the layout lacks, whether a braid is a union among it: one of zeros has no completion
record, and one that was before its start is so again. -/
def slotAt (old : Stream) (bs : List Byte) (i : Nat) : Stream :=
  let b (n : Nat) : Nat := byteAt bs (i + n)
  let c := (bs.drop (i + 96)).take 16
  { old with
    held := none, parked := none, hold := false, seen := [], wdone := 0,
    st := (match b 65 with | 0 => .idle | 1 => if old.st = .starting then .starting else .running | 2 => .stopped | _ => .ended), form := formOf (b 64),
    desc := (bs.drop i).take 64, fb := Fin.ofNat 4 (b 1), fm := BitVec.ofNat 4 (b 2), braid := b 64 == 3 && b 2 != 0,
    poison := b 66 == 1, count := natAt bs (i + 68) 4, offset := natAt bs (i + 72) 8,
    blocks := natAt bs (i + 80) 4, crc := wordAt bs (i + 84), zeros := natAt bs (i + 88) 2, heldIx := natAt bs (i + 90) 2,
    compl := if c.all fun x => x == 0 then none else some c }

/-- A fibre register with a skip on its way to it (R302, R420): the greatest target. -/
def fibreSaved (r : Reel) (i : Fin 4) : Fibre :=
  let x := r.fibres[i.val]
  let ts := (r.skips.filter fun k => k.1 == i).map fun k => k.2.1.toNat
  match ts.max? with
  | some t => { x with t := BitVec.ofNat 32 t, flags := x.flags ||| 2 }
  | none => x

/-- A reel (kind 0x60). -/
def reelPay (r : Reel) : List Byte :=
  (r.streams.toList.flatMap slotBytes) ++ ((List.finRange 4).flatMap fun i => fibreBytes (fibreSaved r i)) ++ [byteOf r.ptr.val, 0]
    ++ (r.deficit.toList.flatMap fun n => bytesOfNat 2 n) ++ zeros 6

/-- A reel read back: a pending skip is made again from its beginning (R420). -/
def reelBack (r : Reel) (bs : List Byte) : Reel :=
  let fs : Vector Fibre 4 := Vector.ofFn fun i => fibreOf ((bs.drop (512 + 64 * i.val)).take 64)
  let busy (i : Fin 4) : Bool := (fs[i.val]).flags.getLsbD 1
  { r with
    streams := Vector.ofFn fun n => slotAt r.streams[n.val] bs (128 * n.val),
    fibres := Vector.ofFn fun i => if busy i then { fs[i.val] with flags := (fs[i.val]).flags &&& 1 } else fs[i.val],
    mid := none, opAt := 0, ptr := Fin.ofNat 4 (byteAt bs 768), deficit := Vector.ofFn fun n => natAt bs (770 + 2 * n.val) 2,
    skips := (List.finRange 4).filterMap fun i => if busy i then some (i, (fs[i.val]).t, []) else none }

/-- A cleat (kind 0x70). -/
def cleatPay (k : Cleat) : List Byte :=
  bytesOfNat 3 k.count.toNat ++ [k.budget] ++ bytesOfNat 3 k.arrivals.toNat ++ [k.gen, k.fired, flagByte k.overrun, byteOf k.pending.length,
    k.released] ++ zeros 4

/-- A cleat read back: its pending releases are the generations up to the released one (R220). -/
def cleatBack (k : Cleat) (bs : List Byte) : Cleat :=
  let n := byteAt bs 10
  let r := byteAt bs 11
  let f := byteAt bs 8
  { k with
    count := BitVec.ofNat 24 (natAt bs 0 3), budget := byteOf (byteAt bs 3), arrivals := BitVec.ofNat 24 (natAt bs 4 3),
    gen := byteOf (byteAt bs 7), fired := byteOf f, overrun := byteAt bs 9 == 1, released := byteOf r,
    pending := (List.range n).map fun i => (byteOf (r + 256 - (n - 1 - i)), byteOf (f - (n - 1 - i))) }

/-! ### Records (R427) -/

/-- A record of a lay and where it is: page, station, location, two ports. -/
structure Kept where
  pid : Nat
  sid : Nat
  loc : Nat
  p1 : Nat
  p2 : Nat
  r : Rec
  deriving DecidableEq, Repr

/-- A record chunk. -/
def Kept.chunk (k : Kept) : Chunk :=
  ⟨0x90, k.pid, k.sid, 0, bytesOfNat 8 (eventBytes.hdrNat k.r.hdr) ++ wordBytes k.r.pay.toList ++ [byteOf k.loc, byteOf k.p1, byteOf k.p2]
    ++ zeros 5⟩

/-- A record chunk read back. -/
def keptOf (c : CtxId) (l : LaySlot) (k : Chunk) : Kept :=
  ⟨k.pid, k.sid, byteAt k.pay 72, byteAt k.pay 73, byteAt k.pay 74, hdrOfBits (natAt k.pay 0 8) c l, vecAt k.pay 8, []⟩
where
  /-- A record from its parts. -/
  hdrOfBits (h : Nat) (c : CtxId) (l : LaySlot) : Hdr := Machine.hdrOfBits h c l

/-- The records of a list of items. -/
def itemRecs (is : List Item) : List Rec := is.filterMap fun i => match i with | .data r => some r | .reconf => none

/-- Records at an input port: that of an occupied handoff, behind any put back, stands in the sender's register. -/
def portKept (x : Lay) (pid : Pid) (sid : Sid) (i : Fin 4) : List Kept :=
  match x.linkTo? ⟨pid, sid, i.val⟩ with
  | none => []
  | some k =>
    match x.links[k]? with
    | none => []
    | some l =>
      let rs := itemRecs l.buf ++ itemRecs (l.flight.map Prod.fst)
      (if l.slots = 0 then rs.take l.debt else rs).map fun r => ⟨pid.val, sid.toNat, 0, i.val, 0, r⟩

/-- The record in an output register. -/
def outKept (x : Lay) (pid : Pid) (sid : Sid) (i : Fin 4) : List Kept :=
  match x.linkFrom? ⟨pid, sid, i.val⟩ with
  | none => []
  | some k =>
    match x.links[k]? with
    | none => []
    | some l =>
      let rs := itemRecs l.buf ++ itemRecs (l.flight.map Prod.fst)
      if l.slots = 0 then (rs.drop l.debt).map fun r => ⟨pid.val, sid.toNat, 1, i.val, 0, r⟩ else []

/-- Frames that wait to leave, in firing order, and frames that wait for the exception register, in fault order. -/
def Station.waiting (st : Station) : List Frame := st.frames.filter Frame.completed

/-- A frame put in the order of its fault. -/
def insertDone (f : Frame) : List Frame → List Frame
  | [] => [f]
  | g :: gs => if f.doneAt < g.doneAt then f :: g :: gs else g :: insertDone f gs

/-- Faulted frames in the order in which they faulted. -/
def Station.faultedFrames (st : Station) : List Frame := (st.frames.filter Frame.isFaulted).foldr insertDone []

/-- The records that a station holds, by location. -/
def stationKept (x : Lay) (st : Station) : List Kept :=
  let at_ (loc p1 p2 : Nat) (r : Rec) : Kept := ⟨st.pid.val, st.sid.toNat, loc, p1, p2, r⟩
  ((List.finRange 4).flatMap fun i => portKept x st.pid st.sid i) ++ ((List.finRange 4).flatMap fun i => outKept x st.pid st.sid i)
    ++ (match st.bank? with | some b => b.fifo.map (at_ 2 0 0) | none => [])
    ++ (match st.splice? with
      | some b => (List.range 64).filterMap fun n => (b.reorder.find? fun q => q.1 == n).map fun q => at_ 3 n 0 q.2
      | none => [])
    ++ (match st.exc with | some e => if e.held.isSome then [] else [at_ 4 0 0 e.r] | none => [])
    ++ (if x.handler == some (st.pid, st.sid) then x.excBuf.map fun e => at_ 5 0 0 e.r else [])
    ++ (match st.exc with | some e => if e.held.isSome then [at_ 6 0 0 e.r] else [] | none => [])
    ++ (st.waiting.map fun f => at_ 7 f.port.val ((exitPorts f.exit).headD 0).val f.r)
    ++ ((st.faultedFrames ++ st.frames.filter Frame.unfinished).map fun f => at_ 9 f.port.val 0 f.orig)

/-- The records that a reel holds. -/
def reelKept (x : Lay) (pid : Nat) (r : Reel) : List Kept :=
  ((List.finRange 4).flatMap fun i => portKept x (Fin.ofNat 64 pid) reelSid i)
    ++ (List.finRange 4).filterMap fun n => (r.streams[n.val]).held.map fun q => ⟨pid, reelSid.toNat, 8, n.val, 0, q⟩

/-- Every record of a lay in the order of its chunks. -/
def Lay.kept (x : Lay) : List Kept :=
  (List.range x.npages).flatMap fun pid =>
    ((x.stations.filter fun st => st.pid.val == pid).flatMap fun st => stationKept x st)
      ++ match x.reel? pid with | some r => reelKept x pid r | none => []

/-! ### Every station of a page -/

/-- A station that the image does not declare (R394): no segments; its counters count a pass as idle, which a bank's sum
gives (R389). -/
def Lay.blank (x : Lay) (pid sid : Nat) : Station :=
  let b := x.station? (Fin.ofNat 64 pid) 0x20
  let idle := min (2 ^ 32 - 1) ((b.map fun st => (st.stall.toList.map fun (w : Word) => w.toNat).sum).getD 0)
  let body : Body := match sid / 32 with
    | 0 => .compute
    | 2 => .matrix Matrix.initial
    | _ => .splice (Splice.fresh .seg [] 0xff)
  { Station.fresh (Fin.ofNat 64 pid) (BitVec.ofNat 7 sid) body with stall := (Vector.replicate 4 0).set 3 (BitVec.ofNat 32 idle) }

/-- The station at a place of a page: as declared, or blank. -/
def Lay.stationOr (x : Lay) (pid sid : Nat) : Option Station :=
  if x.npages ≤ pid || !(stationSid sid) then none
  else some ((x.station? (Fin.ofNat 64 pid) (BitVec.ofNat 7 sid)).getD (x.blank pid sid))

/-- The stations of a page in the order of sids (R6, R424). -/
def Lay.everyStation (x : Lay) (pid : Nat) : List Station := (List.range 128).filterMap fun sid => x.stationOr pid sid

/-! ### Blocks -/

/-- The chunks of a lay block (R424). -/
def Lay.chunks (x : Lay) : List Chunk :=
  (x.clones.map fun k => ⟨0x80, k.1.val, k.2.1.toNat, 0, padBytes 16 [byteOf k.1.val, byteOf k.2.1.toNat, byteOf k.2.2]⟩)
    ++ ((List.range x.npages).flatMap fun pid =>
      ((x.everyStation pid).map stationChunk)
        ++ (match x.reel? pid with | some r => [⟨0x60, pid, reelSid.toNat, 0, reelPay r⟩] | none => [])
        ++ ((x.cleats.filter fun k => k.pid.val == pid).map fun k => ⟨0x70, pid, 0, k.num.val, cleatPay k⟩))
    ++ x.kept.map Kept.chunk ++ [⟨1, 0, 0, 0, []⟩]

/-- A lay block as bytes. -/
def Lay.block (x : Lay) : List Byte := x.chunks.flatMap Chunk.bytes

/-- Granules of a block whose source is poisoned: offset in the block and length (R479). -/
def blockPoison (x : Lay) : List (Nat × Nat) :=
  (x.chunks.foldl (fun (acc : Nat × List (Nat × Nat)) k =>
    let marks := if k.kind = 0x30 then
        match (x.station? (Fin.ofNat 64 k.pid) (BitVec.ofNat 7 k.sid)).bind Station.bank? with
        | some b => b.poison.map fun g => (acc.1 + 16 + 64 + 8 * g, 8)
        | none => []
      else []
    (acc.1 + 16 + round16 k.pay.length, acc.2 ++ marks)) (0, [])).2

/-- A thread block (R423). -/
def threadBlock (th : Thread) : List Byte :=
  padBytes 448 (bytesOfNat 8 th.pc.toNat ++ ((List.range 31).flatMap fun i => bytesOfNat 8 (th.s[i + 1]?.getD 0).toNat) ++ wordBytes th.lc.toList
    ++ [th.pset, flagByte th.inTrap, 0, 0]
    ++ bytesOfNat 4 ((List.range 4).foldl (fun a i => match th.loops[i]? with | some l => if l.active then a + 2 ^ i else a | none => a) 0)
    ++ (th.loops.toList.flatMap fun (l : LoopEnt) => bytesOfNat 8 l.s.toNat) ++ (th.loops.toList.flatMap fun (l : LoopEnt) => bytesOfNat 8 l.e.toNat)
    ++ bytesOfNat 8 th.epc.toNat ++ bytesOfNat 8 th.tcause.toNat ++ bytesOfNat 8 th.tval.toNat)

/-- A doubleword at i. -/
def dwordAt (bs : List Byte) (i : Nat) : DWord := BitVec.ofNat 64 (natAt bs i 8)

/-- A thread continues from its block (R428). -/
def threadBack (th : Thread) (bs : List Byte) : Thread :=
  { th with
    pc := dwordAt bs 0, s := Vector.ofFn fun i => if i.val = 0 then 0 else dwordAt bs (8 * i.val),
    lc := Vector.ofFn fun i => wordAt bs (256 + 4 * i.val), p := byteOf (byteAt bs 272) ||| 1, inTrap := (byteAt bs 273).testBit 0,
    loops := Vector.ofFn fun i => ⟨(natAt bs 276 4).testBit i.val, dwordAt bs (280 + 8 * i.val), dwordAt bs (312 + 8 * i.val)⟩,
    epc := dwordAt bs 344, tcause := dwordAt bs 352, tval := dwordAt bs 360, halted := false, wait := .none, dropped := false, age := 0 }

/-- A lay-slot descriptor (R422): the lay, its block's offset, whether its pages are kept. -/
def slotDescriptor (x : Option Lay) (off : Nat) (kept : Bool) : List Byte :=
  match x with
  | none => zeros 32
  | some y =>
    bytesOfNat 8 y.image.toNat ++ bytesOfNat 8 off ++ bytesOfNat 4 y.passNo.toNat
      ++ [byteOf (1 + (if y.pass.isSome then 2 else 0) + if kept then 4 else 0), byteOf y.origin.1, byteOf y.origin.2, 0]
      ++ bytesOfNat 8 (match y.pass with | some p => p.compl.toNat | none => 0)

/-- Offsets of the lay blocks from byte 4,096 on, each 64-byte aligned, and the end. -/
def blockOffsets : List (Option Nat) → Nat → List Nat × Nat
  | [], a => ([], a)
  | none :: xs, a => let (os, e) := blockOffsets xs a; (0 :: os, e)
  | some n :: xs, a =>
    let b := (a + 63) / 64 * 64
    let (os, e) := blockOffsets xs (b + n)
    (b :: os, e)

/-- The header of a save area (R422) but for its descriptors. -/
def saveHeader (x : Ctx) (c : CtxId) (forced : Bool) (total now drained : Nat) : List Byte :=
  [0x53, 0x41, 0x56, 0x45, 1, 0, flagByte forced, byteOf x.nthr] ++ bytesOfNat 8 total
    ++ [byteOf c.val, byteOf x.prio.val, flagByte x.prot, byteOf x.home.val] ++ bytesOfNat 4 x.hsn.toNat ++ bytesOfNat 8 now
    ++ bytesOfNat 8 drained ++ bytesOfNat 8 x.tvec.toNat ++ [x.evthr, 0] ++ bytesOfNat 2 x.nextTag.toNat ++ zeros 12

/-- The first part of a save area: the header, with descriptors, and the thread blocks. -/
def savePrefix (x : Ctx) (c : CtxId) (forced : Bool) (offs : List Nat) (total now drained : Nat) : List Byte :=
  padBytes 512 (saveHeader x c forced total now drained
      ++ (List.finRange 8).flatMap fun l => slotDescriptor x.lays[l.val] (offs.getD l.val 0) !forced)
    ++ x.tids.flatMap fun t => threadBlock (x.thread t)

/-! ### SAVENEED (R417) -/

/-- The bytes of a station's chunk. -/
def stationNeed (st : Station) : Nat :=
  16 + match st.body with
    | .compute => 336
    | .bank b => match b.role with | .fifo | .cache => 64 | .pres => 67648 | _ => 65600
    | .matrix _ => 107616
    | .splice _ => 32

/-- The record places of a lay: eight of each linked input port, one of each handoff's register, those of fifo queues and
reorder buffers, one exception register of each of a page's 36 stations, and a handler's buffer. -/
def Lay.recordPlaces (x : Lay) : Nat :=
  (x.links.filter fun l => decide (l.slots ≠ 0)).length * 8 + (x.links.filter fun l => decide (l.slots = 0)).length * 9
    + 36 * x.npages + (x.stations.map fun st =>
      match st.body with
        | .bank b => if b.role = .fifo then fifoDepth else 0
        | .splice b => if b.mode = .mergeSeq then 64 else 0
        | _ => 0).sum
    + if x.handler.isSome then 8 else 0

/-- The bytes of a lay block with every record place taken. -/
def Lay.need (x : Lay) : Nat :=
  32 * x.clones.length + ((List.range x.npages).map fun pid => ((x.everyStation pid).map stationNeed).sum).sum + x.npages * (800 + 16 * 32) + 96 * x.recordPlaces + 16

/-- SAVENEED of a context. -/
def Ctx.saveNeed (x : Ctx) : Nat :=
  let sizes := x.lays.toList.map fun l => l.map Lay.need
  if sizes.all Option.isNone then 512 + 448 * x.nthr else (blockOffsets sizes 4096).2

end Sys2Proof.Machine
end

