-- ==== Sys2Proof/Machine/Sysregs.lean ====
section
/-!
DEFINITION. The registers of the device, of launch ports and of contexts: what they read as (15 R441 to R445, 17 R466,
R467), the rules under which writes are kept (15 R440 to R444, 17 R465 to R467, 18 R482, 19 R495, R496, R502), and the
events of host writes to them.
-/
namespace Sys2Proof.Machine

/-! ### What registers read as -/

/-- CAP_ATOMIC (R329): log2 of each memory's unit; 0 for a port without a peer. -/
def State.capAtomic (s : State) : DWord :=
  BitVec.ofNat 64 (0x356 + ((List.finRange 12).map fun n =>
    if s.links.trained[n.val] then (max 3 (s.links.peerUnit[n.val]).toNat % 16) * 2 ^ (16 + 4 * n.val) else 0).sum)

/-- The usable pages of a die (R8, R442, R501). -/
def State.usablePages (s : State) (d : Die) : Nat :=
  if s.service.unbooted[d.val] then 0 else popcN 84 (s.service.pagemap[d.val]).toNat

/-- CAP_UNITS (R442): eight portals, 16 threads a die, trained ports, 12 stacks, usable pages of each die. -/
def State.capUnits (s : State) : DWord :=
  BitVec.ofNat 64 (8 * 2 ^ 56 + 16 * 2 ^ 48 + (s.links.trained.toList.filter id).length * 2 ^ 40 + 12 * 2 ^ 32
    + ((List.finRange 4).map fun d => s.usablePages d * 2 ^ (8 * d.val)).sum)

/-- The code of a context state (R367). -/
def CtxSt.code : CtxSt → Nat
  | .free => 0 | .queued => 1 | .running => 2 | .stopped => 3 | .ending => 4

/-- LSTAT (R367). -/
def Ctx.lstat (x : Ctx) : DWord := BitVec.ofNat 64 (x.port.lcode.toNat + x.st.code * 2 ^ 8 + x.port.lseq.toNat * 2 ^ 32)

/-- PSTAT [2:0] (R417): stopping while a thread has still to end its instruction, draining, saving, or as last left. -/
def Ctx.pstatCode (x : Ctx) : Nat :=
  match x.preempt with
  | some p => if p.drained then 3 else if x.tids.any fun t => (x.thread t).wait != .none then 1 else 2
  | none => x.port.pstat.toNat

/-- PSTAT (R417): the cycles drained so far count while the drain goes on. -/
def State.pstat (s : State) (c : CtxId) : DWord :=
  let x := s.ctx c
  let n := match x.preempt with
    | some p => if p.drained then x.port.drained.toNat else s.cyc - p.at_
    | none => x.port.drained.toNat
  BitVec.ofNat 64 (x.pstatCode + (if x.port.held then 8 else 0) + n % 2 ^ 32 * 2 ^ 32)

/-- SAVENEED (R417): 0 for a free context (R441). -/
def Ctx.saveneed (x : Ctx) : DWord := if x.st = .free then 0 else BitVec.ofNat 64 x.saveNeed

/-- Whether a station has stall counters (R389). -/
def Station.counts (st : Station) : Bool :=
  match st.body with
  | .compute | .bank _ => true
  | .matrix _ => false
  | .splice b => b.mode == .seg

/-- A stall counter by the station that imm16 selects (R445); all ones where there is none. -/
def State.stallReg (s : State) (c : CtxId) (n : Fin 4) (sel : Nat) : DWord :=
  match s.resident? c (Fin.ofNat 8 (sel / 2 ^ 13)) with
  | none => 0xffffffffffffffff
  | some x =>
    match x.stationOr (sel / 2 ^ 7 % 64) (sel % 128) with
    | some st => if st.counts then (st.stall[n.val]).zeroExtend 64 else 0xffffffffffffffff
    | none => 0xffffffffffffffff

/-- Whether the map of R441 gives a number the scope context. -/
def sregCtx (n : Nat) : Bool := n == 0x107 || (0x200 ≤ n && n < 0x300)

/-- Whether reading or writing a register needs privilege (R441). -/
def sregPriv (wr : Bool) (n : Nat) : Bool := wr && [0x10, 0x11, 0x105, 0x200, 0x201, 0x202, 0x207, 0x208, 0x20a, 0x20b].contains n

/-- The value of a system register of context c; th is the issuing thread's (R440, R441). -/
def State.sregValue (s : State) (c : CtxId) (th : Thread) (n sel : Nat) : DWord :=
  let x := s.ctx c
  let p := x.port
  if sregCtx n && x.st == .free then 0
  else
    match n with
    | 0x000 => s.capAtomic
    | 0x001 => s.capUnits
    | 0x010 => s.qage.zeroExtend 64
    | 0x011 => s.issage.zeroExtend 64
    | 0x100 => p.hseq.zeroExtend 64
    | 0x101 => p.dseq.zeroExtend 64
    | 0x102 => x.lstat
    | 0x103 => p.cbase
    | 0x104 => p.cdepth.zeroExtend 64
    | 0x105 => p.spawn
    | 0x106 => p.priv
    | 0x200 => p.ptroot
    | 0x201 => p.fqbase
    | 0x202 => p.fqdepth.zeroExtend 64
    | 0x203 => x.fqhead.zeroExtend 64
    | 0x204 => x.fqtail.zeroExtend 64
    | 0x205 => x.tvec
    | 0x206 => x.evthr.zeroExtend 64
    | 0x207 => p.savepa
    | 0x208 => p.savelen
    | 0x209 => x.saveneed
    | 0x20a => p.pdead.zeroExtend 64
    | 0x20c => s.pstat c
    | 0x20d => x.wlimit.zeroExtend 64
    | 0x20e => x.wreport
    | 0x300 => th.epc
    | 0x301 => th.tcause
    | 0x302 => th.tval
    | 0x400 => s.stallReg c 0 sel
    | 0x401 => s.stallReg c 1 sel
    | 0x402 => s.stallReg c 2 sel
    | 0x403 => s.stallReg c 3 sel
    | _ => 0

/-! ### What writes keep -/

/-- Whether a number is a multiple of another. -/
def aligned (n : Nat) (v : DWord) : Bool := v.toNat % n == 0

/-- The state with the links' registers changed. -/
def State.modLinks (s : State) (f : Links → Links) : State := { s with links := f s.links }

/-- The state with the security and power registers changed. -/
def State.modSecure (s : State) (f : Secure → Secure) : State := { s with secure := f s.secure }

/-- The state with the service registers changed. -/
def State.modService (s : State) (f : Service → Service) : State := { s with service := f s.service }

/-- A value kept where a rule holds. -/
def keep (b : Bool) (s : State) : Option State := if b then some s else none

/-- A context register that lives for the context is kept unless the context is free (R467). -/
def State.live (s : State) (c : CtxId) (b : Bool) (f : Ctx → Ctx) : Option State :=
  keep (b && (s.ctx c).st != .free) (s.modCtx c f)

/-- A register written with the bits of its width (R440, R466): none where its rule refuses the value. CDEPTH with a
bit of [7:5] set is refused, as R441 has it, though R367 marks those bits reserved, of which R16 says that writes are
ignored (DESIGN CHOICE, log entry 36). -/
def State.putReg (s : State) (r : HostReg) (v : DWord) : Option State :=
  let w32 : Word := v.truncate 32
  let w8 : Byte := v.truncate 8
  match r with
  | .qage => keep (w32 != 0) { s with qage := w32 }
  | .issage => keep (v.truncate 16 != (0 : BitVec 16)) { s with issage := v.truncate 16 }
  | .hostcap => keep (w8.toNat < 64) (s.modLinks fun l => { l with hostcap := w8 })
  | .xtimeout => keep (1 ≤ w32.toNat && w32.toNat ≤ 1000000) (s.modLinks fun l => { l with xtimeout := w32 })
  | .hwbase => keep (aligned (2 ^ 30) v) (s.modLinks fun l => { l with hwbase := v })
  | .pwbase n => keep (aligned (2 ^ 30) v) (s.modLinks fun l => { l with pwbase := l.pwbase.set n.val v })
  | .pwsize n => keep (aligned (2 ^ 30) v) (s.modLinks fun l => { l with pwsize := l.pwsize.set n.val v })
  | .fwaddr => some (s.modService fun q => { q with fwaddr := v })
  | .attaddr => some (s.modSecure fun q => { q with attaddr := v })
  | .pwrcap =>
    let n := v.toNat % 2 ^ 16
    keep (1200 ≤ n && n ≤ 3600) (s.modSecure fun q => { q with pwrcap := v.truncate 16 })
  | .tlimit => keep (70 ≤ w8.toNat && w8.toNat ≤ 100) (s.modSecure fun q => { q with tlimit := w8 })
  | .msixTable n => some (s.modLinks fun l => l.putTable n v)
  | .cbase c => some (s.modPort c fun p => { p with cbase := v &&& ~~~(0xf : DWord) })
  | .cdepth c => keep (w8.toNat ≤ 16) (s.modPort c fun p => { p with cdepth := w8 })
  | .spawn c => some (s.modPort c fun p => { p with spawn := v })
  | .priv c => some (s.modPort c fun p => { p with priv := v &&& 1 })
  | .xmask c => keep (v.toNat < 2 ^ 13) (s.modPort c fun p => { p with xmask := v })
  | .intctl c => keep (v.toNat < 2) (s.modPort c fun p => { p with intctl := v })
  | .markid c => keep ((s.ctx c).st == .free) (s.modPort c fun p => { p with markid := w32 })
  | .ptroot c => keep (aligned 4096 v) (s.modPort c fun p => { p with ptroot := v })
  | .fqbase c => keep (aligned 128 v) (s.modPort c fun p => { p with fqbase := v })
  | .fqdepth c => keep (w8.toNat ≤ 12) (s.modPort c fun p => { p with fqdepth := w8 })
  | .savepa c => keep (aligned 4096 v) (s.modPort c fun p => { p with savepa := v })
  | .savelen c => some (s.modPort c fun p => { p with savelen := v })
  | .pdead c => keep (w32 != 0) (s.modPort c fun p => { p with pdead := w32 })
  | .wlimit c =>
    let k := w32 &&& 0x03fffc00
    s.live c (k != 0) fun x => { x with wlimit := k }
  | .wreport c => s.live c (aligned 64 v) fun x => { x with wreport := v }
  | .tvec c => s.live c (aligned 8 v) fun x => { x with tvec := v }
  | .evthr c => s.live c (w8.toNat < 8 || w8 == 0xff) fun x => { x with evthr := w8 }

/-- A write of FQTAIL consumes written entries only (R443); it is ignored while the context is free. -/
def State.putFqtail (s : State) (c : CtxId) (v : Word) : Option State :=
  let x := s.ctx c
  s.live c ((x.fqhead - v).toNat ≤ (x.fqhead - x.fqtail).toNat) fun y => { y with fqtail := v }

/-- The register that a system-register number names, for writes without an effect of their own. -/
def sregHost (c : CtxId) (n : Nat) : Option HostReg :=
  match n with
  | 0x010 => some .qage
  | 0x011 => some .issage
  | 0x103 => some (.cbase c)
  | 0x104 => some (.cdepth c)
  | 0x105 => some (.spawn c)
  | 0x200 => some (.ptroot c)
  | 0x201 => some (.fqbase c)
  | 0x202 => some (.fqdepth c)
  | 0x205 => some (.tvec c)
  | 0x206 => some (.evthr c)
  | 0x207 => some (.savepa c)
  | 0x208 => some (.savelen c)
  | 0x20a => some (.pdead c)
  | 0x20d => some (.wlimit c)
  | 0x20e => some (.wreport c)
  | _ => none

/-! ### The events of host writes -/

/-- REGISTER_WRITE (R466, R467): a value that breaks its register's rule leaves it unchanged. -/
def execRegisterWrite (reg : HostReg) (v : DWord) (s : State) : Res := .next ((s.putReg reg v).getD s)

/-- FQTAIL_WRITE (R443): FAULT_EVENT_WRITE then finds room for held events. -/
def execFqtailWrite (c : CtxId) (v : Word) (s : State) : Res := .next ((s.putFqtail c v).getD s)

/-- FLTAIL_WRITE (R482): under the rule of R443. -/
def execFltailWrite (v : Word) (s : State) : Res :=
  .next (if (s.log.head - v).toNat ≤ (s.log.head - s.log.tail).toNat then { s with log := { s.log with tail := v } } else s)

/-- WAKE_WRITE (R451): ignored while the context is free (R467). -/
def execWakeWrite (c : CtxId) (s : State) : Res := .next (if (s.ctx c).st = .free then s else s.wfiNote c 8)

/-- Whether a protected context exists (R495). -/
def State.anyProtected (s : State) : Bool := s.ctxs.toList.any fun x => x.prot && x.st != .free

/-- PROTECTED_KEY_WRITE (R495, R496). -/
def execProtectedKeyWrite (reg : KeyReg) (v : DWord) (s : State) : Res :=
  if s.anyProtected then .next s
  else
    .next (match reg with
      | .layKey k part => s.modSecure fun q => { q with layKey := q.layKey.set k.val ((q.layKey[k.val]).set part.val v) }
      | .pxBase => if aligned (2 ^ 30) v then s.modSecure fun q => { q with pxbase := v } else s
      | .pxSize => if aligned (2 ^ 30) v then s.modSecure fun q => { q with pxsize := v } else s)

/-- BRINGUP_WRITE (R496, R502): only while every context is free; [7:3] must be zero. -/
def execBringupWrite (v : Byte) (s : State) : Res :=
  if v.toNat < 8 && s.ctxs.toList.all fun x => x.st == .free then .next (s.modSecure fun q => { q with bringup := v }) else .next s

end Sys2Proof.Machine
end

