-- ==== Sys2Proof/Machine/Launch.lean ====
section
/-!
DEFINITION. Launching and ending contexts (13 R367 to R375, R366; 15 R434 to R436, R448): the launch port, the
dispatcher's decisions, completion records, and teardown.
-/
namespace Sys2Proof.Machine

/-! ### The launch word and its acceptance -/

/-- Whether a launch word keeps the rules of R368. -/
def launchOk (w : List Byte) : Bool :=
  natAt w 0 8 % 8 == 0 && canonical (natAt w 0 8) && natAt w 16 8 == 0 && 1 ≤ natAt w 28 1 && natAt w 28 1 ≤ 8
    && natAt w 29 1 < 4 && natAt w 30 1 < 2 && natAt w 31 1 == 0

/-- The host sequence number of a launch word. -/
def launchSeq (w : List Byte) : Word := wordAt w 24

/-- Whether a launch word asks for a protected context. -/
def launchProt (w : List Byte) : Bool := natAt w 30 1 == 1

/-- The bytes of a digest, the first lowest. -/
def digestBytes (d : BitVec 256) : List Byte := bytesOfNat 32 d.toNat

/-- KP of R499: the first 16 bytes of the digest of the mark seed and MARKID. -/
def markKey (id : Word) : BitVec 128 := (sm3 (Config.markSeed.toList ++ bytesOfNat 4 id.toNat)).truncate 128

/-- The registers in force of a context that begins or has ended: those that live for the context at their start (R417,
R444). -/
def InForce.renewed (y : InForce) : InForce := { y with fqtail := 0, wlimit := 65536, wreport := 0 }

/-- A context as the acceptance of a launch word leaves it (R370, R417, R444): queued, its registers at their start. -/
def Ctx.accepted (x : Ctx) (w : List Byte) (now : Nat) : Ctx :=
  { Ctx.reset with
    port := { x.port with hseq := launchSeq w }, inForce := x.inForce.renewed,
    st := .queued, nthr := natAt w 28 1, prio := Fin.ofNat 4 (natAt w 29 1), prot := launchProt w, entry := dwordAt w 0,
    argp := dwordAt w 8, hsn := launchSeq w, kp := markKey x.port.markid, queuedAt := some now }

/-- The state with context c accepted: a launch ends P3 (R503). -/
def State.accept (s : State) (c : CtxId) (w : List Byte) : State :=
  (s.modCtx c fun x => x.accepted w s.cyc).modSecure fun q => { q with pstate := q.pstate.map fun p => if p = 3 then 2 else p }

/-- The conditions that a host launch and a spawn share, in their order: codes 3, 1 and 2 (R370). -/
def State.launchCode (s : State) (c : CtxId) (w : List Byte) (bad : Bool) : Nat :=
  if bad then 3 else if (s.ctx c).st ≠ .free then 1 else if launchSeq w ≠ (s.ctx c).port.hseq + 1 then 2 else 0

/-! ### The host's launches -/

/-- Bytes put into the staged ones from an offset on. -/
def stageBytes (v : Vector Byte 32) (off : Nat) (bs : List Byte) : Vector Byte 32 :=
  Vector.ofFn fun i => if off ≤ i.val && i.val < off + bs.length then bs.getD (i.val - off) 0 else v[i]

/-- LAUNCH_WRITE (R369, R465, R501): ignored before BSTAT reads 6 and where it leaves the 32 bytes; with byte 31 it
triggers. -/
def execLaunchWrite (c : CtxId) (off : Nat) (bytes : List Byte) (s : State) : Res :=
  if s.secure.bstat ≠ 6 || 32 < off + bytes.length || bytes.isEmpty then .next s
  else
    .next (s.modPort c fun p =>
      let v := stageBytes p.launch off bytes
      { p with launch := v, triggers := if off + bytes.length = 32 then p.triggers ++ [(s.cyc, v.toList)] else p.triggers })

/-- Whether the dispatcher comes to a step now (R374): its steps of one fabric cycle are taken in their order, teardowns
by context at 1 to 64, launches by port at 65 to 128, spawns by context and thread at 129 to 640, the start at 641. -/
def State.stepDue (s : State) (rank : Nat) : Bool := s.dispatched ≤ rank

/-- The oldest trigger of a port that has reached the dispatcher: in the cycle after its write (R369). -/
def State.trigger? (s : State) (c : CtxId) : Option (List Byte) :=
  match (s.ctx c).port.triggers with
  | (t, w) :: _ => if t < s.cyc then some w else none
  | [] => none

/-- Whether a launch trigger has reached the dispatcher at a port below a number. -/
def State.triggerBelow (s : State) (n : Nat) : Bool :=
  (List.finRange 64).any fun c => decide (c.val < n) && (s.trigger? c).isSome

/-- Whether a spawn of a context and thread waits whose place in the dispatcher's order lies below a number. -/
def State.spawnBelow (s : State) (n : Nat) : Bool :=
  (List.finRange 64).any fun c => (List.finRange 8).any fun t =>
    decide (129 + 8 * c.val + t.val < n) && match (s.thread c t).wait with | .spawn _ _ _ => true | _ => false

/-- HOST_LAUNCH (R370): the oldest trigger of a port is accepted, or refused with its code in LSTAT, after the triggers
of the ports below (R374). -/
def execHostLaunch (c : CtxId) (s : State) : Res :=
  match s.trigger? c with
  | none => .next s
  | some w =>
    if s.triggerBelow c.val || !(s.stepDue (65 + c.val)) then .next s
    else
    let s1 := { s.modPort c (fun p => { p with triggers := p.triggers.tail }) with dispatched := 65 + c.val }
    let n := s1.launchCode c w (!(launchOk w))
    .next (if n = 0 then s1.accept c w else s1.modPort c fun p => { p with lcode := BitVec.ofNat 8 n, lseq := launchSeq w })

/-! ### Spawning -/

/-- ctx.spawn (R434): the request waits for the dispatcher. -/
def execCtxSpawn (o : ZForm) (s : State) : Res :=
  atThread s fun c t =>
    let a := (s.readT c t o.a).toNat
    let b := (s.readT c t o.b).toNat
    if b % 32 ≠ 0 then s.troubleAt c t ⟨4, b⟩ false
    else threadFar s c t (s.withRead c t b 32 1 fun w s1 =>
      if 64 ≤ a then s1.finishT c t o.d 3
      else s1.modThread c t fun th => { th with wait := .spawn o.d (Fin.ofNat 64 a) w })

/-- SPAWN_DECISION (R370, R374, R375): host launches and the spawns of lower contexts and threads are decided first. -/
def execSpawnDecision (c : CtxId) (t : Tid) (s : State) : Res :=
  match (s.thread c t).wait with
  | .spawn d k w =>
    let x := s.ctx c
    let rank := 129 + 8 * c.val + t.val
    let late := x.st == .ending && match x.endInfo with | some e => decide (e.at_ < s.cyc) | none => true
    if s.triggerBelow 64 || s.spawnBelow rank || !(s.stepDue rank) then .next s
    else
      let n := if late then 5
        else if !(x.inForce.spawn.getLsbD k.val) then 4
        else s.launchCode k w (!(launchOk w) || (launchProt w && !x.prot))
      .next ((if n = 0 then { s with dispatched := rank }.accept k w else { s with dispatched := rank }).finishT c t d (BitVec.ofNat 64 n))
  | _ => .next s

/-! ### Completion records (R372) -/

/-- A completion record. -/
def completionRecord (d hsn : Word) (kind : Nat) (c : CtxId) (thread : Byte) (value : Word) : List Byte :=
  bytesOfNat 4 d.toNat ++ bytesOfNat 4 hsn.toNat ++ [byteOf kind, byteOf c.val, thread, 0] ++ bytesOfNat 4 value.toNat

/-- An event consumes a device sequence number: the record is written unit by unit, or its failure logged, and then DSEQ
advances (R372); false while units are left. -/
def State.complete (s : State) (ev : Instr) (c : CtxId) (kind : Nat) (thread : Byte) (value : Word) : Bool × State :=
  let x := s.ctx c
  let d := x.port.dseq + 1
  let a := addrPlus x.inForce.cbase.toNat (16 * (d.toNat % 2 ^ x.inForce.cdepth.toNat))
  let (w, s1) := if x.inForce.cbase = 0 && (s.job? ev d.toNat).isNone then (.done, s)
    else s.devWrite ev d.toNat c a (completionRecord d x.hsn kind c thread value)
  if w = .more then (false, s1)
  else (true, (if w = .done then s1 else s1.logAdd 0x0c 255 255 255 c.val a 0 d.toNat).modPort c fun p => { p with dseq := d })

/-- notify (R448): the thread stalls until DSEQ has advanced. -/
def execNotify (o : ZForm) (s : State) : Res :=
  atThread s fun c t =>
    let v : Word := (s.readT c t o.a).truncate 32
    (s.modCtx c fun x => { x with notices := x.notices ++ [⟨t, v, o.mod.getLsbD 1⟩] }).modThread c t fun th => { th with wait := .notify }

/-- DSEQ_ADVANCE (R372, R448): the oldest notify of a context completes once every earlier access of its thread has been
performed; .irq raises vector c. -/
def execDseqAdvance (c : CtxId) (s : State) : Res :=
  match (s.ctx c).notices with
  | [] => .next s
  | n :: rest =>
    if s.threadPending c n.thread then .next s
    else
      let (done, s0) := s.complete (.dseqAdvance c) c 0 (byteOf n.thread.val) n.value
      if !done then .next s0
      else
      let s1 := s0.modCtx c fun x => { x with notices := rest }
      let s2 := if (s1.thread c n.thread).wait = .notify then s1.advance c n.thread else s1
      .next (if n.irq then s2.raiseVec c.val else s2)

/-! ### The end of a context (R366, R435, R436) -/

/-- ctx.exit (R435). -/
def execCtxExit (o : ZForm) (s : State) : Res :=
  atThread s fun c t => s.beginEnd c false (byteOf t.val) ((s.readT c t o.a).truncate 32)

/-- A context whose own ctx.exit issues in this fabric cycle takes it before a kill of it (R436). -/
def State.exitFirst (s : State) (k : CtxId) : State :=
  match s.issueOn (s.ctx k).home with
  | .instr (.ctxExit o) s1 =>
    match s1.cur with
    | .thread k' t =>
      if k' = k then { s1.beginEnd k false (byteOf t.val) ((s1.readT k t o.a).truncate 32) with cur := s.cur } else s
    | _ => s
  | _ => s

/-- ctx.kill (R436); a context that kills itself writes no destination. -/
def execCtxKill (o : ZForm) (s : State) : Res :=
  atThread s fun c t =>
    let a := (s.readT c t o.a).toNat
    let k : CtxId := Fin.ofNat 64 a
    let x := s.ctx c
    if 64 ≤ a then s.finishT c t o.d 3
    else if k ≠ c && !(x.port.spawn.getLsbD k.val) && !(x.port.priv.getLsbD 0) then s.finishT c t o.d 1
    else if k = c then s.beginKill k
    else
      let s1 := s.exitFirst k
      if (s1.ctx k).st = .free || (s1.ctx k).st = .ending then s1.finishT c t o.d 2 else (s1.beginKill k).finishT c t o.d 0

/-- KILL_WRITE (R467). -/
def execKillWrite (c : CtxId) (s : State) : Res := .next ((s.exitFirst c).beginKill c)

/-- Whether a thread stops for teardown without ending its instruction: R277, and ctx.spawn (R375). -/
def Thread.stopsForEnd (th : Thread) : Bool :=
  match th.wait with
  | .spawn _ _ _ => true
  | _ => th.yields

/-- The threads of a context stop: what they wait for is left not performed. -/
def State.stopThreads (s : State) (c : CtxId) : State :=
  s.modCtx c fun x => { x with threads := x.threads.map fun t => { t with wait := .none, accs := [], seen := [] } }

/-- Ends the armed pass of a slot as pass.abort does, and retires the records of its lay (R288). -/
def State.endSlot (s : State) (c : CtxId) (l : LaySlot) : State :=
  (s.abortLay c l).modLay c l fun y =>
    { y with pass := y.pass.map fun p => { p with aborting := some (p.aborting.getD s.cyc) } }

/-- A context of which nothing remains but its port (R366, R402). -/
def State.freeCtx (s : State) (c : CtxId) : State :=
  let s1 := s.modCtx c fun x => { Ctx.reset with port := { x.port with pstat := 0, held := false }, inForce := x.inForce.renewed }
  { s1 with jobs := s1.jobs.filter fun j => jobCtx j.ev != some c, tlb := s1.tlb.filter fun e => e.ctx != c, reqs := s1.reqs.filter fun q => q.place.ctx != c }

/-- TEARDOWN (R366): the dispatcher has it from the fabric cycle after the context entered ending (R374); once stalled
instructions that must end have ended, the passes of the context are aborted; once every access of it has been
performed, the records of its passes are written, its lays are freed, its own record is written and it is free. -/
def execTeardown (c : CtxId) (s : State) : Res :=
  let x := s.ctx c
  match x.endInfo with
  | none => .next s
  | some e =>
    if x.st ≠ .ending || s.cyc ≤ e.at_ || x.threads.toList.any fun t => !t.stopsForEnd then .next s
    else
      let s1 := (List.finRange 8).foldl (fun z l => z.endSlot c l) (s.stopThreads c)
      if (s1.reqs.any fun q => q.place.ctx == c && q.stage != .done) || 1 + c.val < s.dispatched then .next s1
      else
        let s2 := (List.finRange 8).foldl (fun z l => z.endPass c l .aborted) s1
        if (s2.ctx c).lays.toList.any fun y => match y with | some x => x.pass.isSome | none => false then .next s2
        else
          let s3 := (List.finRange 8).foldl (fun z l => z.dropLay c l) s2
          match s3.complete (.teardown c) c (if e.kill then 2 else 1) e.thread e.value with
          | (false, s4) => .next s4
          | (true, s4) => .next { s4.freeCtx c with dispatched := 1 + c.val }

end Sys2Proof.Machine
end

