-- ==== Sys2Proof/Machine/Preempt.lean ====
section
/-!
DEFINITION. Stopping a context and starting it again (14 R418 to R421, R428; 15 R437; 13 R376 to R378, R385): yield,
forced pre-emption with its drain and its save engine, the dispatcher's starts, and resuming from the save area.
-/
namespace Sys2Proof.Machine

/-! ### The save area in HBM -/

/-- Bytes at an address of the save area as units to be written, with those that meet a range of bad ones marked, each an
offset and a length (R421, R479). -/
def saveUnits (a : Nat) (bs : List Byte) (bad : List (Nat × Nat)) : List (Nat × List Byte × Bool) :=
  (jobUnits [(a, bs.length)] bs).map fun u => (u.1, u.2.1, bad.any fun g => u.1 < a + g.1 + g.2 && a + g.1 < u.1 + u.2.1.length)

/-- The address of a context's save area, as the save engine and the dispatcher have it (R417, R440). -/
def State.saveArea (s : State) (c : CtxId) : Nat := (s.ctx c).inForce.savepa.toNat

/-- Bytes of the save area. -/
def State.savedAt (s : State) (c : CtxId) (off n : Nat) : List Byte := (s.hbmRead (s.saveArea c + off) n).1

/-- A context stops and joins the tail of its queue, unless it is held (R418, R419). -/
def Ctx.stopNow (x : Ctx) (now : Nat) (hold : Bool) : Ctx :=
  { x with st := .stopped, preempt := none, yielding := false, resumes := true,
           queuedAt := if hold then none else some (x.queuedAt.getD now), port := { x.port with held := hold } }

/-- Whether the lays of a context stand still: it is stopped, or the save engine is at work (R418, R421). -/
def Ctx.frozen (x : Ctx) : Bool := x.st == .stopped || match x.preempt with | some p => p.drained | none => false

/-! ### Cooperative yield (R418, R437) -/

/-- The threads' stalled instructions that R277 lets be left not performed are left so. -/
def State.leaveWaits (s : State) (c : CtxId) : State :=
  s.modCtx c fun x => { x with threads := x.threads.map fun t => if t.yields then { t with wait := .none, accs := [], seen := [] } else t }

/-- The lays of a context with their slots. -/
def State.laysOf (s : State) (c : CtxId) : List (LaySlot × Lay) :=
  (List.finRange 8).filterMap fun l => (s.lay? c l).map fun x => (l, x)

/-- What yield finds: 1 an armed pass, 2 a lay that is not quiescent or is being replaced, 0 otherwise. -/
def State.yieldCode (s : State) (c : CtxId) : Nat :=
  if (s.laysOf c).any fun x => x.2.pass.isSome then 1
  else if (s.laysOf c).any fun x => x.2.inSwap || !(s.quiescent c x.1 x.2) then 2 else 0

/-- Whether a write of the device's own for a context is under way, other than one of its save area. -/
def State.jobLeft (s : State) (c : CtxId) : Bool := s.jobs.any fun j => jobCtx j.ev == some c && j.ev != .saveEngineDone c

/-- Whether a yield of a thread waits: another thread has an instruction that must end first (R277, R418), or an access
for the context's threads is not yet performed (R326). -/
def State.yieldWaits (s : State) (c : CtxId) (t : Tid) : Bool :=
  ((s.ctx c).tids.any fun k => (k != t && !((s.thread c k).yields)) || s.reqs.any fun q => q.place.ctx == c && q.owner == .thread k)
    || s.jobLeft c

/-- A yield with code 0 goes on (R418): the units of the save area are written one by one, and with the last the context
stops. A forced pre-emption requested meanwhile acts on the stopped context (R437). -/
def State.yieldSave (s : State) (c : CtxId) (t : Tid) (us : List (Nat × List Byte × Bool)) : State :=
  match s.devPut (.saveEngineDone c) 1 us with
  | (false, s1) => s1
  | (true, s1) =>
    (s1.modThread c t fun th => { th with wait := .none }).modCtx c fun x =>
      { x.stopNow s1.cyc false with preempt := x.preempt.map fun p => { p with drained := true } }

/-- yield (R418): it waits for the other threads to reach a boundary; with code 0 the threads are saved and the context
stops. In a context that has meanwhile begun to end it ends without effect (R436). -/
def execYield (o : ZForm) (s : State) : Res :=
  atThread s fun c t =>
    let x := s.ctx c
    if x.st ≠ .running then s.advance c t
    else if x.yielding then s.yieldSave c t []
    else if s.yieldWaits c t then s.stand c t .yield
    else
      let s1 := s.leaveWaits c
      let n := s1.yieldCode c
      let s2 := s1.finishT c t o.d (BitVec.ofNat 64 n)
      if n ≠ 0 then s2
      else
        let y := s2.ctx c
        let s3 := (s2.stand c t .yield).modCtx c fun z => { z with yielding := true }
        s3.yieldSave c t (saveUnits (s.saveArea c) (savePrefix y c false [] (512 + 448 * y.nthr) s2.cyc 0) [])

/-! ### Forced pre-emption (R419) -/

/-- Whether the save area lies in the protected extent (R498). -/
def State.areaInExtent (s : State) (c : CtxId) : Bool :=
  s.secure.pxbase.toNat ≤ s.saveArea c && s.saveArea c + (s.ctx c).saveNeed ≤ s.secure.pxbase.toNat + s.secure.pxsize.toNat

/-- Whether the save area is large enough, and inside the extent for a protected context (R419, R498). -/
def State.canSave (s : State) (c : CtxId) : Bool :=
  let x := s.ctx c
  decide (x.saveNeed ≤ x.inForce.savelen.toNat) && (!x.prot || s.areaInExtent c)

/-- Whether a forced pre-emption acts on a context: it runs, or it was stopped by yield (R419, R421). -/
def Ctx.mayForce (x : Ctx) : Bool := x.preempt.isNone && (x.st == .running || (x.st == .stopped && x.port.pstat != 4))

/-- A forced pre-emption of a context that may be saved begins: its threads stop; the lays of one stopped by yield need
no drain. -/
def State.force (s : State) (c : CtxId) (hold : Bool) : State :=
  (s.leaveWaits c).modCtx c fun x =>
    { x with prq := true, preempt := some ⟨s.cyc, hold, x.st == .stopped⟩,
             port := { x.port with drained := 0, pstat := 0 } }

/-- PREEMPT_REQUEST (R419): PREQ bit 0; refused where the state would not fit. -/
def State.requestPreempt (s : State) (c : CtxId) (hold : Bool) : State :=
  if !(s.ctx c).mayForce then s
  else if s.canSave c then s.force c hold
  else (s.modPort c fun p => { p with pstat := 5 }).raiseVec 65

/-- PREEMPT_RELEASE_HOLD (R419): PREQ bit 2. -/
def State.releaseHold (s : State) (c : CtxId) : State :=
  s.modCtx c fun x =>
    { x with
      port := { x.port with held := false },
      preempt := x.preempt.map fun p => { p with hold := false },
      queuedAt := if x.st == .stopped && x.preempt.isNone then some (x.queuedAt.getD s.cyc) else x.queuedAt }

/-- PREEMPT_REQUEST (R419). -/
def execPreemptRequest (c : CtxId) (hold : Bool) (s : State) : Res := .next (s.requestPreempt c hold)

/-- PREEMPT_RELEASE_HOLD (R419). -/
def execPreemptReleaseHold (c : CtxId) (s : State) : Res := .next (s.releaseHold c)

/-! ### The end of the drain (R421, steps 1 to 3) -/

/-- Records on their way reach the receiver, and slots on their way the sender. -/
def Link.delivered (now : Nat) (l : Link) : Link :=
  { l with buf := l.buf ++ l.flight.map Prod.fst, flight := [], free := l.free + l.back, back := 0,
           headAt := if l.buf.isEmpty then now else l.headAt }

/-- A record goes back to the head of an input port. -/
def Lay.putBack (x : Lay) (pid : Pid) (sid : Sid) (port : Nat) (r : Rec) : Lay :=
  match x.linkTo? ⟨pid, sid, port⟩ with
  | none => x
  | some k =>
    x.modLink k fun l =>
      let m := { l with buf := .data r :: l.buf }
      if l.slots ≠ 0 && 0 < l.free then { m with free := l.free - 1 } else { m with debt := l.debt + 1 }

/-- An execution as it was when its segment began. -/
def Frame.restarted (f : Frame) (st : Station) : Frame :=
  { newFrame f.id f.port f.orig (match st.intake f.orig with | .run _ _ r => r | .divert _ => f.orig) f.seg st with why := f.why }

/-- An execution in progress is rolled back (R47, R421): what it has issued and nothing has performed is withdrawn, and
its record goes to the head of its arrival port; to the exception register that it
fired from; or to the head of the handler's buffer. -/
def State.rollBack (s : State) (p : Place) (f : Frame) : State :=
  let s0 := (s.dropExec p f.id).withdrawReqs fun q => q.place == p && q.owner == .nobody && q.exec == f.id
  match s.station? p with
  | none => s
  | some st =>
    if f.port.val = 4 && st.exc.isSome then
      s0.modStation p fun y => { y.takeFrame f.id with frames := insertFrame (f.restarted y) (y.takeFrame f.id).frames }
    else
      let s1 := (s0.modStation p fun y => y.takeFrame f.id).modLay p.ctx p.slot fun x =>
        x.returnSlots p.pid p.sid (st.emitsOf f.seg)
      let inReg (h : Bool) (z : State) : State :=
        z.modStation p fun y => { y with exc := some ⟨f.orig, 0, locWord p.pid p.sid, h, none, true, f.why⟩ }
      if f.port.val < 4 then
        (s1.modLay p.ctx p.slot fun x => x.putBack p.pid p.sid f.port.val f.orig).modStation p fun y =>
          { y with again := (f.port, f.id) :: y.again }
      else if f.port.val = 4 then inReg false s1
      else if f.refired then inReg true s1
      else
        match f.why with
        | some (loc, fw) => s1.modLay p.ctx p.slot fun x => { x with excBuf := ⟨f.orig, fw, loc, false, none, false, none⟩ :: x.excBuf }
        | none => inReg true s1

/-- Whether an atomic of an execution is out on a link, where nothing can withdraw it (log entry 39). -/
def State.atomOut (s : State) (f : Frame) : Bool := s.reqs.any fun q => q.exec == f.id && isRmw q.op && q.stage == .linked

/-- Whether a parked execution has faulted and waits for a place to do so in. -/
def Frame.isDoomed (f : Frame) : Bool := match f.st with | .doomed _ => true | _ => false

/-- Whether an execution in progress has performed no atomic and is rolled back, or waits under an event (R421). One that
is to fault is kept as it stands. -/
def State.rolls (s : State) (f : Frame) : Bool :=
  f.unfinished && !f.isDoomed && (!(f.atomDone || s.atomOut f) || match f.st with
    | .parked r => s.reqs.any fun q => q.id == r && match q.stage with | .event _ => true | _ => false
    | _ => false)

/-- Every execution of a station that is to be rolled back is, the youngest first, so that firing order is kept. -/
def State.rollStation (s : State) (p : Place) : State :=
  match s.station? p with
  | none => s
  | some st => st.frames.foldr (fun f z => if s.rolls f then z.rollBack p f else z) s

/-- Window entries and claims of accesses that have been withdrawn go. -/
def Station.tidied (live : List Nat) (st : Station) : Station :=
  match st.body with
  | .bank b =>
    let own := st.frames.map Frame.id
    { st with body := .bank { b with window := b.window.filter (fun k => live.contains k || own.contains k),
                                     records := b.records.filter fun k => live.contains k || own.contains k,
                                     claims := b.claims.filter fun k => live.contains k.2 } }
  | _ => st

/-- Whether a stream has performed units of a write and is to perform the rest of it. -/
def Stream.midWrite (st : Stream) : Bool := st.running && st.wdone != 0 && st.parked.isNone

/-- A stream holds at its stop point; a parked access is abandoned there, and what it has read for a record not yet formed
is discarded; a write under way is performed first (R326, R420, R421). -/
def Stream.stopped (st : Stream) : Stream :=
  if st.running && !st.midWrite then { { st with parked := none }.opEnded with hold := true } else st

/-- One lay at the end of the drain. -/
def State.freezeLay (s : State) (c : CtxId) (l : LaySlot) : State :=
  match s.lay? c l with
  | none => s
  | some x =>
    let s1 := s.modLay c l fun y => { y with links := y.links.map (Link.delivered s.cyc) }
    let s2 := x.stations.foldl (fun z st => z.rollStation ⟨c, l, st.pid, st.sid⟩) s1
    let live := (s2.reqs.filter fun q => q.ofLay c l && q.stage != .done).flatMap fun q => [q.id, q.exec]
    s2.modLay c l fun y => { (y.mapStreams Stream.stopped) with stations := y.stations.map (Station.tidied live) }

/-- Steps 1 to 3 of R421: what is on its way arrives, executions are rolled back, events of kinds 1 and 2 are
withdrawn. -/
def State.freeze (s : State) (c : CtxId) : State :=
  let s1 := (List.finRange 8).foldl (fun z l => z.freezeLay c l) s
  (s1.withdraw c fun e => e.kind.val == 1 || e.kind.val == 2).modCtx c fun x =>
    { x with preempt := x.preempt.map fun p => { p with drained := true },
             port := { x.port with drained := match x.preempt with | some p => BitVec.ofNat 32 (s.cyc - p.at_) | none => 0 } }

/-- Whether the threads of a context have stopped and no lay of it is being replaced (R419). -/
def State.drainReady (s : State) (c : CtxId) : Bool :=
  let x := s.ctx c
  (match x.preempt with | some p => !p.drained | none => false) && x.st == .running
    && x.tids.all (fun t => (x.thread t).wait == .none) && (s.laysOf c).all fun y => !y.2.inSwap

/-- DRAIN_END (R419, step 3): nothing is left but streams that hold. -/
def execDrainEnd (c : CtxId) (s : State) : Res :=
  .next (if s.drainReady c && (s.laysOf c).all fun y => s.laySettled c y.1 y.2 && y.2.streamsRest true then s.freeze c else s)

/-- DRAIN_DEADLINE (R419, step 3): PDEAD fabric cycles have passed since the request. -/
def execDrainDeadline (c : CtxId) (s : State) : Res :=
  let late := match (s.ctx c).preempt with | some p => decide (p.at_ + (s.ctx c).inForce.pdead.toNat ≤ s.cyc) | none => false
  .next (if s.drainReady c && late then s.freeze c else s)

/-! ### The save engine (R421, steps 4 to 7) -/

/-- Whether every access still issued has been performed and every execution that had to has completed (R421, step 4). -/
def State.saveReady (s : State) (c : CtxId) : Bool :=
  !(s.reqs.any fun q => q.place.ctx == c) && !(s.jobLeft c)
    && (s.laysOf c).all fun y =>
      y.2.stations.all (fun st => !(st.frames.any fun f =>
          st.mayLeave f || !f.outst.isEmpty || (f.unfinished && !f.isDoomed && (f.atomDone || f.port.val != 4))))
        && y.2.cleats.all (fun k => k.waiting.isEmpty && k.arriving.isEmpty)
        && !(y.2.pages.any fun p => p.reel.streams.toList.any Stream.midWrite)

/-- The units of lay blocks at their offsets from an address, with the poison of their banks (R421, R479). -/
def blockUnits (base : Nat) : List (Option Lay) → List Nat → List (Nat × List Byte × Bool)
  | some x :: xs, a :: as => saveUnits (base + a) x.block (blockPoison x) ++ blockUnits base xs as
  | none :: xs, _ :: as => blockUnits base xs as
  | _, _ => []

/-- The save engine reads the banks of a context's lays, and finds the errors that have struck them (R478). -/
def State.scanBanks (s : State) (c : CtxId) : State :=
  if s.upkeep.bankFlaws.isEmpty then s
  else (s.laysOf c).foldl (fun z x => (List.range x.2.nbanks).foldl (fun y k => y.bankScan c x.1 k 0 65536) z) s

/-- Steps 5 and 6 of R421 begin: cached lines are given up, and what the area is to hold is read: the units to be
written. -/
def State.saveBegin (s : State) (c : CtxId) : State × List (Nat × List Byte × Bool) :=
  let s0 := (s.withdraw c fun e => e.kind.val == 1).modCtx c fun x => { x with lays := x.lays.map fun l => l.map fun y => y.mapStreams Stream.stopped }
  let s1 := { s0 with dir := s0.dir.filter fun d => d.ctx != c }.scanBanks c
  let x := s1.ctx c
  let lays := x.lays.toList
  let (offs, stop) := blockOffsets (lays.map fun l => l.map fun y => y.block.length) 4096
  let total := if lays.all Option.isNone then 512 + 448 * x.nthr else stop
  let base := s1.saveArea c
  let first := if x.st = .stopped then saveUnits (base + 64) ((List.finRange 8).flatMap fun l => slotDescriptor x.lays[l.val] (offs.getD l.val 0) false) []
    else saveUnits base (savePrefix x c true offs total s1.cyc x.port.drained.toNat) []
  (s1, first ++ blockUnits base lays offs)

/-- A lay whose pages are given up at a yield point, which ends its being wedged (R61); what the save area has no
place for stays with the device. -/
def Lay.givenUp (x : Lay) : Lay := { x with placed := false, wedged := false }

/-- SAVE_ENGINE_DONE (R421): once everything issued is performed the engine writes the area, a unit in each turn (R312);
with the last one pages are given up, PSTAT reads 4 and vector 65 is raised. -/
def execSaveEngineDone (c : CtxId) (s : State) : Res :=
  match (s.ctx c).preempt with
  | none => .next s
  | some p =>
    let under := (s.job? (.saveEngineDone c) 0).isSome
    if !p.drained || !(under || s.saveReady c) then .next s
    else
      let (s1, us) := if under then (s, []) else s.saveBegin c
      match s1.devPut (.saveEngineDone c) 0 us with
      | (false, s2) => .next s2
      | (true, s2) =>
        .next ((s2.modCtx c fun y =>
          { y.stopNow s2.cyc p.hold with
            lays := y.lays.map fun l => l.map Lay.givenUp, port := { y.port with pstat := 4, held := p.hold } }).raiseVec 65)

/-! ### Resuming (R428) -/

/-- What becomes of an attempt to place and load the lays of a context. -/
inductive Resumed where
  /-- A lay cannot be placed: the context stays in its queue (R385). -/
  | noRoom
  /-- A load fails: the context is torn down as a kill (R428). -/
  | dead
  /-- What is to be read lies in a row under repair: the dispatcher waits (R486). -/
  | waits
  | ok (s : State)

/-- Records put at their places (R427, R428), that of an output register behind those of its receiver's buffer: fault
words and exits come from what the device kept of the station. -/
def Kept.place (old : Lay) (x : Lay) (k : Kept) : Lay :=
  let pid : Pid := Fin.ofNat 64 k.pid
  let sid : Sid := BitVec.ofNat 7 k.sid
  let onBank (f : Bank → Bank) : Lay := x.modStation pid sid fun st => match st.body with | .bank b => { st with body := .bank (f b) } | _ => st
  match k.loc with
  | 0 => match x.linkTo? ⟨pid, sid, k.p1⟩ with
    | some n => x.modLink n fun l =>
      let reg := if l.slots = 0 && l.free = 0 then 1 else 0
      let i := l.buf.length - reg
      { l with buf := l.buf.take i ++ .data k.r :: l.buf.drop i, debt := l.debt + 1 }
    | none => x
  | 1 => match x.linkFrom? ⟨pid, sid, k.p1⟩ with
    | some n => x.modLink n fun l => { l with buf := l.buf ++ [.data k.r], free := 0 }
    | none => x
  | 2 => onBank fun b => { b with fifo := b.fifo ++ [k.r] }
  | 3 => x.modStation pid sid fun st => st.modSplice fun b => { b with reorder := b.reorder ++ [(k.p1, k.r)] }
  | 4 | 6 => x.modStation pid sid fun st =>
      { st with exc := ((old.station? pid sid).bind Station.exc).map fun e => { e with r := k.r } }
  | 5 =>
    match old.excBuf[x.excBuf.length]? with
    | some e => { x with excBuf := x.excBuf ++ [{ e with r := k.r }] }
    | none => x
  | 8 => x.modStream k.pid (Fin.ofNat 4 k.p1) fun st => { st with held := some k.r }
  | _ => x

/-- Executions that the device kept at a station, with the records of their chunks: completed ones and faulted ones in the
order of their chunks. -/
def keptFrames (st : Station) (ks : List Kept) : List Frame :=
  let mine := ks.filter fun k => k.pid == st.pid.val && k.sid == st.sid.toNat
  let put (fs : List Frame) (rs : List Kept) (g : Frame → Rec → Frame) : List Frame :=
    (fs.zip rs).map fun x => g x.1 x.2.r
  let a := put st.waiting (mine.filter fun k => k.loc == 7) fun f r => { f with r := { r with past := f.r.past } }
  let b := put st.faultedFrames (mine.filter fun k => k.loc == 9) fun f r => { f with orig := r }
  (a ++ b ++ st.frames.filter Frame.unfinished).foldl (fun acc f => insertFrame f acc) []

/-- Slots of links as the records placed and the reservations of the executions kept leave them (R204, R428): a record of
the buffer takes a slot, and those beyond the slots are owed; a handoff has its register for one. -/
def Lay.recount (x : Lay) : Lay :=
  let reserved (l : Link) : Nat :=
    ((x.stations.filter fun st => st.pid == l.src.pid && st.sid == l.src.sid).flatMap fun st => st.frames.filter fun f =>
      !f.isFaulted && (st.emitsOf f.seg).any fun q => q.val == l.src.port).length
  { x with links := x.links.map fun l =>
      if l.slots = 0 then { l with free := 1 - (l.buf.length - l.debt + reserved l) }
      else
        let n := l.buf.length + reserved l
        { l with free := l.slots - n, debt := n - l.slots } }

/-- A cleat from its chunk, with what the layout lacks. -/
def Chunk.onCleat (ks : List Chunk) (k : Cleat) : Cleat :=
  match ks.find? fun q => q.kind == 0x70 && q.pid == k.pid.val && q.index == k.num.val with
  | some q => cleatBack k q.pay
  | none => k

/-- A station from its chunk, with what the layout lacks as the device kept it. -/
def Chunk.onStation (ks : List Chunk) (recs : List Kept) (old : Lay) (st : Station) : Station :=
  let st1 := match ks.find? fun q => q.kind != 0x90 && q.kind != 0x80 && q.kind != 0x60 && q.kind != 0x70 && q.pid == st.pid.val
      && q.sid == st.sid.toNat with
    | some q => stationBack st q
    | none => st
  match old.station? st.pid st.sid with
  | none => st1
  | some o =>
    { st1 with
      frames := keptFrames o recs, again := o.again, dead := o.dead,
      body := match st1.body, o.body with
        | .bank b, .bank z => .bank { b with poison := z.poison }
        | b, _ => b }

/-- A loaded lay as its block makes it again (R428, steps 4 to 6); desc is its slot descriptor. -/
def Lay.restored (x old : Lay) (c : CtxId) (l : LaySlot) (ks : List Chunk) (desc : List Byte) : Lay :=
  let recs := (ks.filter fun k => k.kind == 0x90).map (keptOf c l)
  let y : Lay := { x with
    stations := x.stations.map (Chunk.onStation ks recs old),
    cleats := x.cleats.map (Chunk.onCleat ks),
    pages := (List.range x.npages).filterMap fun i => (x.pages[i]?).map fun p =>
      let base := match old.reel? i with | some r => { r with skips := [] } | none => p.reel
      { p with reel := match ks.find? fun q => q.kind == 0x60 && q.pid == i with | some q => reelBack base q.pay | none => p.reel }
    passNo := wordAt desc 16,
    pass := if (byteAt desc 20).testBit 1 then old.pass.map fun p => { p with compl := dwordAt desc 24 } else none,
    lastEnd := old.lastEnd, wedged := false, wedgeTimer := 0, moved := true, sweeps := 0 }
  (recs.foldl (Kept.place old) y).recount

/-- The pages that a lay had before any clone. -/
def Lay.basePages (x : Lay) : Nat := x.npages - (x.clones.map fun k => k.2.2).sum

/-- The clones of a lay in a slot applied again, at places given or sought (R384, R428), none of them on a page of its
own: none where one has no room. -/
def State.reclone (s : State) (c : CtxId) (l : LaySlot) (again : Bool) : List (Pid × Sid × Nat) → List (Nat × Nat) → Lay → Option Lay
  | [], _, x => some x
  | (pid, sid, n) :: ks, ps, x =>
    match x.cloneable pid sid n with
    | none => none
    | some (st, i, k) =>
      let near := (x.pages[pid.val]?.map fun p => (p.gcol, p.grow)).getD (0, 0)
      match if again then some (ps.take n) else (s.setLay c l (some x)).clonePlaces c x st i k near n [] with
      | none => none
      | some qs => s.reclone c l again ks (ps.drop n) (x.cloned st n i k qs)

/-- A lay of an image at its former places where they are free, else placed afresh (R385). -/
def State.replace (s : State) (c : CtxId) (l : LaySlot) (old base : Lay) : Option Lay :=
  let spots := (old.pages.drop old.basePages).map fun p => (p.gcol, p.grow)
  let former := (s.reclone c l true old.clones spots (base.placeAt old.origin)).bind fun x =>
    if (x.pages.all fun p => s.pageFree p.gcol p.grow) && s.routesOk c x then some x else none
  match former with
  | some x => some x
  | none => (s.place c base).bind fun x => s.reclone c l false old.clones [] x

/-- The image of a lay, loaded again as lay.load does (R428): none where that fails. -/
def State.reload (s : State) (c : CtxId) (a : Nat) : Option (Lay × State) :=
  match s.farRead c a 64 1 with
  | (.error _, _) => none
  | (.ok h, s1) =>
    match imageLen h with
    | none => none
    | some n =>
      match s1.farRead c (addrPlus a 64) (n - 64) 1 with
      | (.error _, _) => none
      | (.ok bs, s2) =>
        match s2.imageOf c (h ++ bs) with
        | .error _ => none
        | .ok m => if m.check (s2.targetOps c) ≠ 0 then none else some (m.make (BitVec.ofNat 64 a) (imageDigest m (h ++ bs)) (0, 0), s2)

/-- Whether reading an image waits for a row under repair (R486). -/
def State.reloadWaits (s : State) (c : CtxId) (a : Nat) : Bool :=
  s.readWaits c a 64 || match (s.farRead c a 64 1).1 with
    | .ok h => match imageLen h with | some n => s.readWaits c (addrPlus a 64) (n - 64) | none => false
    | .error _ => false

/-- The chunks of a lay block that the save area holds at an offset, and the bytes they take. -/
def State.savedBlock (s : State) (c : CtxId) (off : Nat) (old : Lay) : List Chunk × Nat :=
  let bs := s.savedAt c off (max old.need old.block.length)
  let ks := readChunks bs.length bs
  (ks, (ks.map fun k => k.bytes.length).sum + 16)

/-- The engine reads a part of the save area: none where it waits for a row under repair (R486); else with the errors
found that have struck it (R478). -/
def State.savedScan (s : State) (c : CtxId) (off n : Nat) : Option State :=
  if s.rowsBusy (s.saveArea c + off) n then none else some (s.hbmScan (s.saveArea c + off) n)

/-- The record held for a kind-2 event raises a new one (R428). -/
def State.reraise (s : State) (p : Place) : State :=
  match s.station? p with
  | none => s
  | some st =>
    match st.exc with
    | some e => if e.held.isSome then (s.enterExc p e.r e.fw true e.why).modStation p fun y =>
        { y with exc := y.exc.map fun z => { z with fromHandler := e.fromHandler } } else s
    | none => s

/-- The lays of a context that were given up are placed, loaded and restored in slot order (R385, R428). -/
def State.resumeLays (s : State) (c : CtxId) : List LaySlot → Resumed
  | [] => .ok s
  | l :: ls =>
    match s.lay? c l with
    | none => s.resumeLays c ls
    | some old =>
      if old.placed then s.resumeLays c ls
      else
        let desc := s.savedAt c (64 + 32 * l.val) 32
        let a := natAt desc 0 8
        let off := natAt desc 8 8
        let (ks, len) := s.savedBlock c off old
        if s.reloadWaits c a then .waits
        else
          match s.reload c a with
          | none => .dead
          | some (base, s1) =>
            match s1.replace c l old base with
            | none => .noRoom
            | some x =>
              match s1.savedScan c off len with
              | none => .waits
              | some s2 =>
                let y := x.restored old c l ks desc
                let s3 := s2.setLay c l (some y)
                (y.stations.foldl (fun z st => z.reraise ⟨c, l, st.pid, st.sid⟩) s3).resumeLays c ls

/-! ### Starts (R376 to R378) -/

/-- The effective level of a context's queue entry (R377). -/
def State.queueLevel (s : State) (c : CtxId) : Nat :=
  let x := s.ctx c
  min 3 (x.prio.val + (s.cyc - x.queuedAt.getD s.cyc) / s.qageNow.toNat)

/-- Whether the entry of one context comes before that of another (R377). -/
def State.entryBefore (s : State) (a b : CtxId) : Bool :=
  let la := s.queueLevel a
  let lb := s.queueLevel b
  let ta := (s.ctx a).queuedAt.getD 0
  let tb := (s.ctx b).queuedAt.getD 0
  decide (lb < la) || (la == lb && (decide (ta < tb) || (ta == tb && decide (a.val ≤ b.val))))

/-- The contexts in the queues, in the order in which they are tried. -/
def State.queue (s : State) : List CtxId :=
  sortBy s.entryBefore ((List.finRange 64).filter fun c => (s.ctx c).queuedAt.isSome && (s.ctx c).preempt.isNone)

/-- Whether the threads of a context hold positions on its home die: those of an ending one until they stop. -/
def Ctx.holdsPositions (x : Ctx) : Bool :=
  x.st == .running || (x.st == .ending && x.threads.toList.any fun t => !t.stopsForEnd)

/-- The free thread positions of a die; none while it does not serve (R378, R487). -/
def State.freePositions (s : State) (d : Die) : List (Fin 16) :=
  if !(s.dieServes d) then []
  else (List.finRange 16).filter fun n =>
    !(s.ctxs.toList.any fun x => x.home == d && x.holdsPositions && x.tids.any fun t => (x.thread t).pos == n)

/-- The home die of an entry that starts (R378): the previous one, or the one with the most free positions. -/
def State.homeFor (s : State) (c : CtxId) : Option Die :=
  let x := s.ctx c
  let room (d : Die) : Nat := (s.freePositions d).length
  if x.resumes && x.nthr ≤ room x.home then some x.home
  else ((List.finRange 4).filter fun d => x.nthr ≤ room d).foldl (fun b d =>
    match b with
    | none => some d
    | some e => if room e < room d then some d else some e) none

/-- A thread at the start of a context (R365). -/
def Ctx.firstThread (x : Ctx) : Thread := { Thread.reset with pc := x.entry, s := (Vector.replicate 32 0).set 1 x.argp }

/-- A context runs, with its threads at the lowest free positions in order (R378). -/
def State.startAt (s : State) (c : CtxId) (ps : List (Fin 16)) (thread : Tid → Thread) : State :=
  s.modCtx c fun x =>
    { x with
      st := .running, queuedAt := none, resumes := false, prq := false, port := { x.port with pstat := 0, held := false },
      threads := Vector.ofFn fun t => if t.val < x.nthr then { thread t with pos := ps.getD t.val 0 } else Thread.reset }

/-- Starts, or resumes, the first entry of a list that can be (R378). -/
def State.startFirst (s : State) : List CtxId → State
  | [] => s
  | c :: cs =>
    match s.homeFor c with
    | none => s
    | some d =>
      let ps := s.freePositions d
      let s1 := s.modCtx c fun x => { x with home := d }
      if !(s.ctx c).resumes then s1.startAt c ps fun _ => (s.ctx c).firstThread
      else
        match s1.savedScan c 0 (512 + 448 * (s.ctx c).nthr) with
        | none => s
        | some s2 =>
          match s2.resumeLays c (List.finRange 8) with
          | .noRoom => s.startFirst cs
          | .waits => s
          | .dead => s.beginKill c
          | .ok s3 => s3.startAt c ps fun t => threadBack (s3.thread c t) (s3.savedAt c (512 + 448 * t.val) 448)

/-- CONTEXT_START (R378): at most one a fabric cycle, after the dispatcher's other steps (R374). -/
def execContextStart (s : State) : Res :=
  if s.triggerBelow 64 || s.spawnBelow 641 || !(s.stepDue 641) then .next s
  else .next { s.startFirst s.queue with dispatched := 642 }

end Sys2Proof.Machine
end

