-- ==== Sys2Proof/Machine/Service.lean ====
section
/-!
DEFINITION. Soft errors, repair and recovery (18 R478, R481, R484 to R490), and accesses to HBM from outside (17 R476).
-/
namespace Sys2Proof.Machine

/-! ### Making contexts leave (R485, R487) -/

/-- A context is made to leave its pages: saved by force, or torn down where its state does not fit. -/
def State.evict (s : State) (c : CtxId) : State :=
  if !(s.ctx c).mayForce then s else if s.canSave c then s.force c false else s.beginKill c

/-- Every context that a test names is made to leave. -/
def State.evictAll (s : State) (p : Ctx → Bool) : State :=
  (List.finRange 64).foldl (fun z c => if p (s.ctx c) then z.evict c else z) s

/-- Whether a context has a lay with a page at a position of a die. -/
def Ctx.usesPos (x : Ctx) (d : Die) (pos : Nat) : Bool :=
  x.lays.toList.any fun l =>
    match l with
    | some y => y.placed && y.pages.any fun p => dieAt p.gcol p.grow == d && posAt p.gcol p.grow == pos
    | none => false

/-! ### Retiring a page (R484, R485) -/

/-- The retirement of a physical page begins: the allocator stops using it and its contexts leave. -/
def State.beginRetire (s : State) (d : Die) (n : Nat) : State :=
  if s.service.retired.contains (d, n) || s.service.retiring.contains (d, n) then s
  else
    let s1 := s.modService fun q => { q with rstat := 1, retiring := q.retiring ++ [(d, n)] }
    match s.service.position d n with
    | some pos => s1.evictAll fun x => x.usesPos d pos
    | none => s1

/-- RETIRE (R485): refused while RSTAT is 1 and for a page already retired or on its way out. -/
def execRetire (v : BitVec 16) (s : State) : Res :=
  let d : Die := Fin.ofNat 4 v.toNat
  let n := v.toNat / 4
  if 84 ≤ n then .next s
  else if s.service.rstat = 1 || s.service.retired.contains (d, n) || s.service.retiring.contains (d, n) then
    .next (s.modService fun q => { q with rstat := 4 })
  else .next (s.beginRetire d n)

/-- Spare pages of a die that are neither in use nor retired (R5, R485). -/
def State.freeSpares (s : State) (d : Die) : List Nat :=
  (sparePositions d).filter fun n =>
    !(s.service.serving.any fun x => x.1 == d && x.2.2 == n) && !(s.service.retired.contains (d, n)) && !(s.service.retiring.contains (d, n))

/-- The service registers once a page is out: its position goes to the spare named, or is given up. -/
def Service.pageOut (q : Service) (d : Die) (n : Nat) (spare : Option Nat) : Service :=
  let rest := q.retiring.filter fun x => x != (d, n)
  let q1 := { q with retiring := rest, retired := q.retired ++ [(d, n)] }
  match q.position d n, spare with
  | none, _ => { q1 with rstat := if rest.isEmpty then 2 else 1 }
  | some pos, some m =>
    { q1 with rstat := if rest.isEmpty then 2 else 1,
              serving := (q.serving.filter fun x => !(x.1 == d && x.2.1 == pos)) ++ [(d, pos, m)] }
  | some pos, none =>
    { q1 with rstat := if rest.isEmpty then 3 else 1,
              serving := q.serving.filter fun x => !(x.1 == d && x.2.1 == pos),
              pagemap := q.pagemap.set d.val (q.pagemap[d.val] &&& ~~~((1 : BitVec 128) <<< pos)) }

/-- Whether a channel ends at a position of a die. -/
def Chan.endsAt (ch : Chan) (d : Die) (pos : Nat) : Bool :=
  let e := chanEnd ch
  (dieAt ch.col.val ch.row.val == d && posAt ch.col.val ch.row.val == pos) || (dieAt e.1 e.2 == d && posAt e.1 e.2 == pos)

/-- RETIRE_COMPLETE (R485): once no lay holds the page, a spare takes its position or the position is given up; logged.
A spare's channels are new. -/
def execRetireComplete (s : State) : Res :=
  match s.service.retiring with
  | [] => .next s
  | (d, n) :: _ =>
    let pos := s.service.position d n
    if (match pos with | some p => s.ctxs.toList.any fun x => x.usesPos d p | none => false) then .next s
    else
      let spare := (s.freeSpares d).head?
      let code := match pos, spare with | some _, none => 3 | _, _ => 2
      let s1 := s.modService fun q => q.pageOut d n spare
      let s2 := match pos, spare with
        | some p, some _ => { s1 with chans := s1.chans.filter fun ch => !(Chan.endsAt ch.ch d p) }
        | _, _ => s1
      .next (s2.logAdd 0x0e d.val n 255 255 0 0 code)

/-- The pages at both ends of a channel begin to retire (R481, R501). -/
def State.retireEnds (s : State) (ch : Chan) : State :=
  let at_ (z : State) (col row : Nat) : State :=
    let d := dieAt col row
    if (z.service.pagemap[d.val]).getLsbD (posAt col row) then z.beginRetire d (z.service.pageOf d (posAt col row)) else z
  let e := chanEnd ch
  at_ (at_ s ch.col.val ch.row.val) e.1 e.2

/-- A channel is failed: logged, and its end pages retire. -/
def State.failChan (s : State) (x : ChanSt) : State :=
  let p := s.chanPlace x.ch
  ((s.setChan { x with failed := true, training := false }).logAdd 8 p.1 p.2 x.ch.dir.val 255 0 0 x.retrains).retireEnds x.ch

/-- CHANNEL_FAIL (R481): after three retrains without a flit passing. -/
def execChannelFail (ch : Chan) (s : State) : Res :=
  let x := s.chan ch
  if x.training || x.failed || x.fails < 16 || x.retrains < 3 then .next s else .next (s.failChan x)

/-! ### Uncorrectable errors of protected state (R478) -/

/-- Logs kind 0x09 with the row of R478's table, counted from 1. -/
def State.logState (s : State) (die page st ctx row : Nat) : State := s.logAdd 9 die page st ctx 0 0 row

/-- The matrix state of a station changed, in its body and in an execution under way. -/
def Station.modMatrix (st : Station) (f : Matrix → Matrix) : Station :=
  let g (x : Frame) : Frame := { x with mx := x.mx.map f }
  match st.body with
  | .matrix m => { st with body := .matrix (f m), frames := st.frames.map g }
  | _ => st

/-- STATE_ECC_ERROR (R478): what each structure's uncorrectable error leaves. -/
def execStateEccError (t : EccTarget) (s : State) : Res :=
  match t with
  | .slots p =>
    match s.station? p with
    | none => .next s
    | some _ =>
      let g := s.pageAt p.ctx p.slot p.pid.val
      .next ((s.modStation p fun st => { st with dead := true }).logState g.1 g.2 p.sid.toNat p.ctx.val 4)
  | .acc p a row =>
    .next (s.modStation p fun st => st.modMatrix fun m =>
      { m with acc := m.acc.set a.val ((m.acc[a.val]).set row.val { (m.acc[a.val])[row.val] with mask := 0xf }) })
  | .tile p loading =>
    .next (s.modStation p fun st => st.modMatrix fun m =>
      if loading then { m with tb := { m.tb with poison := true } } else { m with ta := { m.ta with poison := true } })
  | .uslot p n => .next (s.modStation p fun st => st.modMatrix fun m => { m with upoison := insertN n.val m.upoison })
  | .work p => .next (s.modStation p fun st => st.modMatrix fun m => { m with w := { m.w with poison := true } })
  | .stream c l pg n =>
    match s.stream? c l pg n with
    | some st => .next (if st.running then s.endStream c l pg n 0x10 0 0 else s)
    | none => .next s
  | .tlb n => .next { s with tlb := s.tlb.eraseIdx n }
  | .thread c =>
    if (s.ctx c).st = .free then .next s else .next ((s.beginKill c).logState (s.ctx c).home.val 255 255 c.val 8)

/-! ### Draining a die (R487 to R489) -/

/-- Whether a route crosses a die. -/
def Lay.crosses (x : Lay) (d : Die) : Bool :=
  x.links.any fun l => (x.route l).any fun ch =>
    let e := chanEnd ch
    dieAt ch.col.val ch.row.val == d || dieAt e.1 e.2 == d

/-- Whether a context's threads, pages or routes use a die (R487). -/
def Ctx.usesDie (x : Ctx) (d : Die) : Bool :=
  (x.holdsPositions && x.home == d)
    || x.lays.toList.any fun l =>
      match l with
      | some y => y.placed && ((y.pages.any fun p => dieAt p.gcol p.grow == d) || y.crosses d)
      | none => false

/-- DSTAT of a die. -/
def State.dieState (s : State) (d : Die) : Nat := (s.service.dstat[d.val]).toNat

/-- A die's state changes: logged (R488). -/
def State.setDie (s : State) (d : Die) (n : Nat) : State :=
  (s.modService fun q => { q with dstat := q.dstat.set d.val (BitVec.ofNat 8 n) }).logAdd 0x0f d.val 255 255 255 0 0 n

/-- Whether a die is drained, whatever its last load did. -/
def State.dieIsDrained (s : State) (d : Die) : Bool := s.dieState d == 2 || s.dieState d == 4 || s.dieState d == 5

/-- DIE_DRAIN (R487, R488): on a die that is serving. -/
def execDieDrain (d : Die) (s : State) : Res :=
  if s.dieState d = 0 then .next ((s.setDie d 1).evictAll fun x => x.usesDie d) else .next s

/-- DIE_DRAINED (R487). -/
def execDieDrained (d : Die) (s : State) : Res :=
  if s.dieState d = 1 && !(s.ctxs.toList.any fun x => x.usesDie d) then .next (s.setDie d 2) else .next s

/-- DIE_RETURN (R488): a die without verified firmware stays out (R494, R501). -/
def execDieReturn (d : Die) (s : State) : Res :=
  if s.dieIsDrained d && !s.service.unbooted[d.val] then .next (s.setDie d 0) else .next s

/-- DIE_LOAD_FIRMWARE (R488). -/
def execDieLoadFirmware (d : Die) (s : State) : Res :=
  if s.dieIsDrained d then
    .next ((s.modService fun q => { q with loadFrom := q.loadFrom.set d.val q.fwaddr }).setDie d 3)
  else .next s

/-- A DIECTL write (R484, R488): one of [4:2] set and [7:5] zero, or nothing. -/
def State.dieControl (s : State) (v : Byte) : Res :=
  let d : Die := Fin.ofNat 4 v.toNat
  match v.toNat / 4 with
  | 1 => execDieDrain d s
  | 2 => execDieReturn d s
  | 4 => execDieLoadFirmware d s
  | _ => .next s

/-! ### Firmware images (R493, R494) -/

/-- A firmware image at an HBM address, its header's body length read from it; none where the bytes are poisoned. -/
def State.firmwareAt (s : State) (a : Nat) : Option (List Byte) :=
  let (h, p) := s.hbmRead a 256
  if p then none
  else
    let (bs, p1) := s.hbmRead a (256 + natAt h 12 4)
    if p1 then none else some bs

/-- The security version of an image. -/
def imageSvn (bs : List Byte) : Nat := natAt bs 8 4

/-- Whether an image verifies as one of a kind (R494). -/
def imageVerifies (kind : Nat) (bs : List Byte) : Bool :=
  natAt bs 0 4 == 0x4d495746 && natAt bs 4 2 == 1 && natAt bs 6 1 == kind && natAt bs 7 1 == 0 && natAt bs 12 4 % 64 == 0
    && natAt bs 80 112 == 0 && (Config.minSvn kind).toNat ≤ imageSvn bs && sm3 ((bs.drop 16).take 64) == Config.rootDigest
    && sm2Verify (sigBits (bs.drop 16)) (sm3 (bs.take 192 ++ bs.drop 256)) (sigBits (bs.drop 192))

/-- The images of kinds 0 to 2 that stand back to back at an address, where all of them verify (R494). -/
def State.firmwareSet (s : State) (a : Nat) : Option (List (List Byte)) :=
  match s.firmwareAt a with
  | none => none
  | some r =>
    match s.firmwareAt (a + r.length) with
    | none => none
    | some w =>
      match s.firmwareAt (a + r.length + w.length) with
      | none => none
      | some q => if imageVerifies 0 r && imageVerifies 1 w && imageVerifies 2 q then some [r, w, q] else none

/-- The bytes of n firmware images that stand back to back, by their headers. -/
def State.firmwareSpan (s : State) (a : Nat) : Nat → Nat
  | 0 => 0
  | n + 1 => let k := 256 + natAt (s.hbmRead a 256).1 12 4; k + s.firmwareSpan (a + k) n

/-- A read of n firmware images finds the errors that have struck them (R478); false where it waits for a row under repair
(R486). -/
def State.firmwareScan (s : State) (a n : Nat) : Bool × State :=
  let k := s.firmwareSpan a n
  if s.rowsBusy a k then (false, s) else (true, s.hbmScan a k)

/-- Images of kinds 0 to 2 come into force on a die (R488, R501). -/
def State.installImages (s : State) (d : Die) (is : List (List Byte)) : State :=
  s.modSecure fun q =>
    { q with fwDigest := q.fwDigest.set d.val (Vector.ofFn fun k : Fin 3 => sm3 (is.getD k.val [])),
             fwsvn := q.fwsvn.set d.val (BitVec.ofNat 8 (is.foldl (fun m i => min m (imageSvn i)) (2 ^ 32 - 1))) }

/-- FIRMWARE_LOAD_DONE (R488, R494): all three images, or none. -/
def execFirmwareLoadDone (d : Die) (s : State) : Res :=
  if s.dieState d ≠ 3 then .next s
  else
    let (read, s1) := s.firmwareScan (s.service.loadFrom[d.val]).toNat 3
    if !read then .next s
    else
    match s1.firmwareSet (s.service.loadFrom[d.val]).toNat with
    | none => .next (s1.setDie d 4)
    | some is =>
      .next (((s1.installImages d is).modService fun q => { q with unbooted := q.unbooted.set d.val false }).setDie d 5)

/-! ### Accesses from outside (R464, R465, R476) -/

/-- The place and length of an access, within its window. -/
def outsideRange : OutsideOp → Nat × Nat
  | .read a n => (a, n)
  | .write a bs => (a, bs.length)
  | .atomic _ n a _ _ => (a, n)

/-- Whether an access overlaps the protected extent (R498). -/
def State.meetsExtent (s : State) (a n : Nat) : Bool :=
  let b := s.secure.pxbase.toNat
  decide (0 < n) && decide (a < b + s.secure.pxsize.toNat) && decide (b < a + n)

/-- What the last access from outside returned. -/
def State.answer (s : State) (r : Option (List Byte)) : State := s.modLinks fun l => { l with reply := r }

/-- The operation of an outside atomic: of 4 or 8 bytes and aligned to its size (R473, R464). -/
def outsideAtom (op : BitVec 4) (size a : Nat) : Option UOp :=
  if (size ≠ 4 && size ≠ 8) || a % size ≠ 0 || 9 < op.toNat then none
  else some (if op = 9 then .cas else .atomI op size)

/-- The answer to an access from outside whose units have all been performed: a read that met a mark, and an atomic on a
marked granule, are answered with an error (R472, R480). -/
def OutAcc.reply (o : OutAcc) : Option (List Byte) :=
  if o.bad then none else match o.op with | .write _ _ => some [] | _ => some o.got

/-- An access from outside at a physical base (R476): divided into far units, an atomic into one. -/
def outAccess (party : Option (Fin 12)) (base : Nat) (o : OutsideOp) : OutAcc :=
  let (a, n) := outsideRange o
  ⟨party, base, o, match o with | .atomic _ _ _ _ _ => [(base + a, n)] | _ => hbmUnits (base + a) n, [], false⟩

/-- One unit of an access from outside is performed in HBM (R476, R480). -/
def State.outUnit (s : State) (o : OutAcc) (a n : Nat) : OutAcc × State :=
  let s1 := s.hbmScan a n
  let (old, bad) := s1.hbmRead a n
  match o.op with
  | .read _ _ => ({ o with todo := o.todo.tail, got := o.got ++ old, bad := o.bad || bad }, s1)
  | .write b bs =>
    ({ o with todo := o.todo.tail }, (s1.dirtyLines a n).hbmWrite a ((bs.drop (a - (o.base + b))).take n))
  | .atomic op _ b v cmp =>
    let o1 := { o with todo := o.todo.tail, got := old, bad := bad }
    match outsideAtom op n b with
    | none => ({ o1 with bad := true }, s1)
    | some u =>
      if bad then (o1, s1)
      else
        match rmw u old (bytesOfNat n v.toNat) (bytesOfNat n cmp.toNat) with
        | some bs => (o1, (s1.dirtyLines a n).hbmWrite a bs)
        | none => (o1, s1)

/-- Whether two accesses from outside touch a byte in common. -/
def OutAcc.meets (x y : OutAcc) : Bool :=
  let (a, n) := outsideRange x.op
  let (b, m) := outsideRange y.op
  decide (x.base + a < y.base + b + m) && decide (y.base + b < x.base + a + n)

/-- The next unit of the n-th access from outside under way: after every earlier access of its party that touches a byte
of it (R318 row 1); one of a row under repair waits (R486). The last one's answer goes out. -/
def State.outsideStep (s : State) (n : Nat) : State :=
  match s.outside[n]? with
  | none => s
  | some o =>
    if (s.outside.take n).any fun x => x.party == o.party && x.meets o then s
    else
    match o.todo with
    | [] => { s with outside := s.outside.eraseIdx n }.answer o.reply
    | (a, k) :: _ =>
      if s.rowsBusy a k then s
      else
        let (o1, s1) := s.outUnit o a k
        if o1.todo.isEmpty then { s1 with outside := s1.outside.eraseIdx n }.answer o1.reply
        else { s1 with outside := s1.outside.set n o1 }

/-- An access from outside begins with its first unit. -/
def State.performOutside (s : State) (party : Option (Fin 12)) (base : Nat) (o : OutsideOp) : State :=
  { s with outside := s.outside ++ [outAccess party base o] }.outsideStep s.outside.length

/-- PEER_INBOUND_REQUEST (R476, R498). -/
def execPeerInboundRequest (n : Fin 12) (o : OutsideOp) (s : State) : Res :=
  let (a, len) := outsideRange o
  let base := (s.links.pwbase[n.val]).toNat
  if s.links.pwsize[n.val] = 0 || (s.links.pwsize[n.val]).toNat < a + len || s.meetsExtent (base + a) len then
    .next ((s.answer none).logAdd 0x0b 255 255 n.val 255 (base + a) 0 n.val)
  else .next (s.performOutside (some n) base o)

/-- HOST_BAR2_ACCESS (R464, R465, R476, R498): the port completes add, swap and compare-and-swap only. -/
def execHostBar2Access (o : OutsideOp) (s : State) : Res :=
  let (a, len) := outsideRange o
  let base := s.links.hwbase.toNat
  let lacks := match o with | .atomic op _ _ _ _ => op != 0 && op != 8 && op != 9 | _ => false
  if 2 ^ 30 < a + len then .next (s.answer none)
  else if s.meetsExtent (base + a) len then
    .next ((s.answer (match o with | .read _ n => some (List.replicate n 0xff) | _ => none)).logAdd 0x0b 255 255 255 255 (base + a) 0 255)
  else if lacks then .next (s.answer none)
  else .next (s.performOutside none base o)

/-! ### After a host crash (R473, R490) -/

/-- HOST_PORT_RESET (R490): the MSI-X state only. -/
def execHostPortReset (s : State) : Res := .next (s.modLinks fun l => { l with msixTable := msixMasked, msixPending := 0 })

/-- PEER_LINK_TRAINED (R473, R477). -/
def execPeerLinkTrained (n : Fin 12) (ops : Byte) (unit : BitVec 4) (s : State) : Res :=
  .next (s.modLinks fun l =>
    { l with trained := l.trained.set n.val true, peerOps := l.peerOps.set n.val ops, peerUnit := l.peerUnit.set n.val unit })

end Sys2Proof.Machine
end

