-- ==== Sys2Proof/Machine/Platform.lean ====
section
/-!
DEFINITION. Security, bring-up and power (19 R497 to R505): attestation, the mark kernel and the mark stage, module
reset and its phases, temperature, power caps and idle states.
-/
namespace Sys2Proof.Machine

/-! ### Attestation (R497) -/

/-- ATTREQ (R496, R497): ignored while a report is under way; refused where ATTADDR is not aligned. -/
def execAttreq (v : Byte) (s : State) : Res :=
  if 64 ≤ v.toNat || s.secure.attstat = 1 then .next s
  else if !(aligned 1024 s.secure.attaddr) then .next (s.modSecure fun q => { q with attstat := 3 })
  else .next (s.modSecure fun q => { q with attstat := 1, attctx := Fin.ofNat 64 v.toNat, attbuf := q.attaddr })

/-- FWSVN (R496). -/
def State.fwsvnReg (s : State) : Nat := natOfBytes s.secure.fwsvn.toList

/-- The digest that a lay slot reports: of its image, or of its successor once lay.swap has issued; zero where empty. -/
def slotDigest (l : Option Lay) : BitVec 256 :=
  match l with
  | some x => if x.loading then 0 else x.digest
  | none => 0

/-- Bytes 0 to 959 of a report. -/
def State.reportBody (s : State) (c : CtxId) (nonce : List Byte) : List Byte :=
  let x := s.ctx c
  [(0x41 : Byte), 0x54, 0x53, 0x54, 1, 0, byteOf c.val, byteOf ((if x.prot then 1 else 0) + 2 * x.st.code)]
    ++ bytesOfNat 8 s.cyc ++ bytesOfNat 8 Config.fuseId.toNat ++ List.replicate 8 0 ++ padBytes 32 nonce
    ++ bytesOfNat 64 identityKey.toNat
    ++ padBytes 384 ((s.secure.fwDigest.toList.flatMap fun v => v.toList).flatMap digestBytes)
    ++ padBytes 256 (x.lays.toList.flatMap fun l => digestBytes (slotDigest l))
    ++ bytesOfNat 4 s.fwsvnReg
    ++ (match s.secure.kernel with | some k => digestBytes (sm3 k) | none => List.replicate 32 0) ++ List.replicate 156 0

/-- The report with its signature, for which the nonces of the standard are at hand. -/
def State.report (s : State) (c : CtxId) (nonce : List Byte) (ks : List Nat) : List Byte :=
  let b := s.reportBody c nonce
  b ++ bytesOfNat 64 (sm2Sign (sm3 b) ks).toNat

/-- Numbers of 256 bits that nothing fixes: the nonces of a signature (log entry 6). -/
def State.takeNonces (s : State) : List Nat × State :=
  let (ws, s1) := s.takeFrees 32
  ((List.range 4).map fun i => strOfWords ((ws.drop (8 * i)).take 8), s1)

/-- A report's units: the nonce is read and the report made, as it begins. -/
def State.reportUnits (s : State) : List (Nat × List Byte × Bool) × State :=
  let a := s.secure.attbuf.toNat
  let s0 := s.hbmScan (a + 32) 32
  let (ks, s1) := s0.takeNonces
  (jobUnits [(a, 1024)] (s1.report s.secure.attctx (s0.hbmRead (a + 32) 32).1 ks), s1)

/-- ATTESTATION_DONE (R497): the nonce is read, the report written over the buffer unit by unit, and ATTSTAT reads 2. -/
def execAttestationDone (s : State) : Res :=
  if s.secure.attstat ≠ 1 then .next s
  else
    let ready := (s.job? .attestationDone 0).isSome
    if !ready && s.rowsBusy (s.secure.attbuf.toNat + 32) 32 then .next s
    else
      let (us, s1) := if ready then ([], s) else s.reportUnits
      let (done, s2) := s1.devPut .attestationDone 0 us
      .next (if done then s2.modSecure fun q => { q with attstat := 2 } else s2)

/-! ### The mark kernel and the mark stage (R499, R500) -/

/-- MARKLOAD (R500). -/
def execMarkload (v : DWord) (s : State) : Res :=
  if s.secure.markst = 1 then .next s else .next (s.modSecure fun q => { q with markst := 1, markAddr := v })

/-- MARK_KERNEL_VERIFIED (R494, R500): a refused image leaves the kernel in force. -/
def execMarkKernelVerified (s : State) : Res :=
  if s.secure.markst ≠ 1 then .next s
  else
    let (read, s1) := s.firmwareScan s.secure.markAddr.toNat 1
    if !read then .next s
    else
      match s1.firmwareAt s.secure.markAddr.toNat with
      | some bs =>
        if imageVerifies 3 bs then .next (s1.modSecure fun q => { q with markst := 2, kernel := some bs })
        else .next (s1.modSecure fun q => { q with markst := 3 })
      | none => .next (s1.modSecure fun q => { q with markst := 3 })

/-- What the mark stage sends for the bytes of a piece (R499): as many bytes as the piece has. -/
def markedBytes (k : List Byte) (kp : BitVec 128) (va : Nat) (bs : List Byte) : List Byte :=
  padBytes bs.length (Config.markFn k kp (sext57 va) bs)

/-- The units that follow a unit without a gap in its piece of an access. -/
def unitRun (u : MUnit) : List MUnit → List MUnit
  | [] => []
  | v :: vs => if v.node == u.node && v.base == u.base && v.va == u.va + u.len then v :: unitRun v vs else []

/-- Units with new bytes, in order. -/
def unitsWith : List MUnit → List Byte → List MUnit
  | [], _ => []
  | u :: us, bs => { u with dat := bs.take u.len } :: unitsWith us (bs.drop u.len)

/-- The host units of a write with the bytes that the mark stage sends, a piece at a time; n bounds the pieces (log
entry 48). -/
def markUnits (mk : Nat → List Byte → List Byte) : Nat → List MUnit → List MUnit
  | 0, us => us
  | _ + 1, [] => []
  | n + 1, u :: us =>
    if u.node != .host then u :: markUnits mk n us
    else
      let run := u :: unitRun u us
      unitsWith run (mk u.va (run.flatMap MUnit.dat)) ++ markUnits mk n (us.drop (run.length - 1))

/-- MARK_STAGE_WRITE (R499, R500): the mark stage accepts a protected context's host write, all of it at once, marked by
the kernel in force; it then goes out. Without a kernel it is not sent, logged, and counts as performed. -/
def execMarkStageWrite (r : Nat) (s : State) : Res :=
  match s.req? r with
  | none => .next s
  | some q =>
    match q.units with
    | [] => .next s
    | u :: _ =>
      if !q.atPortal || !(s.needsMark q u) || !(s.afterDone q) then .next s
      else
        match s.secure.kernel with
        | some k =>
          let us := markUnits (markedBytes k (s.ctx q.place.ctx).kp) q.units.length q.units
          .next (s.modReq r fun x => { x with units := us, marked := true })
        | none =>
          let left := q.units.filter fun v => v.node != .host
          .next (((s.logAdd 0x10 255 255 255 q.place.ctx.val (sext57 u.va).toNat 0 q.place.ctx.val).modReq r fun x =>
            { x with units := left, marked := true, unflushed := false }).nextUnit r)

/-! ### Module reset and bring-up (R501) -/

/-- Whether a reset now restores service: not after a trip while a die is at TLIMIT or above (R505). -/
def State.mayReset (s : State) : Bool := !s.secure.tripped || s.secure.temp.toList.all fun t => decide (t.toNat < s.secure.tlimit.toNat)

/-- MODULE_RESET (R501): every register at its reset value; what is outside the module, what the temperature is, what
HBM holds until phase 3 and which spare rows are used stay. -/
def execModuleReset (s : State) : Res :=
  if !s.mayReset then .next s
  else
    let z := State.reset
    .next { z with
      sched := s.sched, free := s.free, hbm := s.hbm, hbmPoison := s.hbmPoison, hostMem := s.hostMem, peerMem := s.peerMem,
      secure := { z.secure with temp := s.secure.temp }, links := { z.links with msgs := s.links.msgs },
      upkeep := { z.upkeep with spareUsed := s.upkeep.spareUsed, hopeless := s.upkeep.hopeless } }

/-- Phase 2 for a die: the images read from its flash are in force where all of them verify; else it stays out (R494,
R501). -/
def State.bootDie (flash : List (List Byte)) (s : State) (d : Die) : State :=
  let image (k : Nat) : List Byte := flash.getD (3 * d.val + k) []
  if (List.range 3).all fun k => imageVerifies k (image k) then s.installImages d ((List.range 3).map image)
  else s.modService fun q => { q with dstat := q.dstat.set d.val 4, unbooted := q.unbooted.set d.val true }

/-- BRINGUP_PHASE_END (R501). What flash holds is outside the model: the event brings the images read. -/
def execBringupPhaseEnd (flash : List (List Byte)) (failed : List Chan) (s : State) : Res :=
  let s1 := s.modSecure fun q => { q with bstat := q.bstat + 1 }
  match s.secure.bstat.toNat with
  | 1 | 5 => .next s1
  | 2 => .next ((List.finRange 4).foldl (State.bootDie flash) s1)
  | 3 => .next { s1 with hbm := [], hbmPoison := [] }
  | 4 => .next (failed.foldl (fun z ch => if (z.chan ch).failed then z else z.failChan (z.chan ch)) s1)
  | _ => .next s

/-! ### Power and temperature (R503 to R505) -/

/-- Whether the power or the temperature holds a die in P1. -/
def State.tooHot (s : State) (d : Die) : Bool :=
  decide (s.secure.pwrcap.toNat < s.secure.watts) || decide (s.secure.tlimit.toNat ≤ (s.secure.temp[d.val]).toNat)

/-- A die enters or leaves P1; the device chooses its duty from 4 to 15 (R504; a free value). -/
def State.throttle (s : State) (d : Die) : State :=
  if 2 ≤ (s.secure.pstate[d.val]).toNat then s
  else if s.tooHot d then
    let (w, s1) := s.takeFree
    s1.modSecure fun q => { q with pstate := q.pstate.set d.val 1, duty := q.duty.set d.val (BitVec.ofNat 4 (4 + w.toNat % 12)) }
  else s.modSecure fun q => { q with pstate := q.pstate.set d.val 0, duty := q.duty.set d.val 0 }

/-- Every context is lost without a completion record (R505). -/
def State.loseContexts (s : State) : State :=
  { s with ctxs := s.ctxs.map fun x => { Ctx.reset with port := x.port, inForce := x.inForce.renewed }, reqs := [], tlb := [], dir := [], jobs := [] }

/-- TEMP_SAMPLE (R505): a crossing of TLIMIT upward is logged; 105 degrees trip the module. -/
def execTempSample (d : Die) (t : Byte) (s : State) : Res :=
  let lim := s.secure.tlimit.toNat
  let s1 := s.modSecure fun q => { q with temp := q.temp.set d.val t }
  let s2 := if (s.secure.temp[d.val]).toNat < lim && lim ≤ t.toNat then s1.logAdd 0x11 d.val 255 255 255 0 0 d.val else s1
  if 105 ≤ t.toNat && !s.secure.tripped then
    .next ((s2.logAdd 0x12 d.val 255 255 255 0 0 d.val).loseContexts.modSecure fun q => { q with tripped := true })
  else .next (s2.throttle d)

/-- POWER_AVERAGE_SAMPLE (R503, R504). -/
def execPowerAverageSample (watts : Nat) (s : State) : Res :=
  .next ((List.finRange 4).foldl (fun z d => z.throttle d) (s.modSecure fun q => { q with watts := watts }))

/-- POWER_IDLE_TIMER (R503): 1 ms is 2,000,000 fabric cycles. -/
def execPowerIdleTimer (d : Die) (s : State) : Res :=
  if 200000000 ≤ s.secure.moduleIdle then
    .next (s.modSecure fun q => { q with pstate := Vector.replicate 4 3, duty := Vector.replicate 4 0 })
  else if 2000000 ≤ s.secure.idle[d.val] && (s.secure.pstate[d.val]).toNat < 2 then
    .next (s.modSecure fun q => { q with pstate := q.pstate.set d.val 2, duty := q.duty.set d.val 0 })
  else .next s

end Sys2Proof.Machine
end

