-- ==== Sys2Proof/Machine/Clock.lean ====
section
/-!
DEFINITION. The passing of a fabric cycle (00 R9, R10): the counters that count cycles. Threads that stay ready (13 R381),
stall counters (13 R389), wedge timers (07 R225), idle times and the ends of idle power states (19 R503).
-/
namespace Sys2Proof.Machine

/-! ### Stall counters (R389) -/

/-- The reasons that hold back the records at the head of a station's input ports; a record that may start, or that is
diverted, gives none. -/
def Lay.headReasons (x : Lay) (st : Station) : List (List Nat) :=
  (List.finRange 4).filterMap fun i =>
    match x.linkTo? ⟨st.pid, st.sid, i.val⟩ with
    | none => none
    | some k =>
      match x.headRec? k with
      | none => none
      | some r => match st.intake r with | .divert _ => none | .run _ g _ => some (x.holdReasons st g)

/-- Which of its four counters a station counts this cycle with: out, full, busy or idle, the first that applies. -/
def Lay.stallKind (x : Lay) (st : Station) : Fin 4 :=
  let hs := if st.runsSegments && st.mayFire then x.headReasons st else []
  let behind := st.frames.any fun f => (f.st == .leaving || f.returns) && st.heldByOrder f
  if behind || hs.any (fun r => r.contains 0) then 0
  else if hs.any (fun r => !r.isEmpty) then 1
  else if st.frames.isEmpty then 3 else 2

/-- A station after a cycle of an armed pass: one counter counts, up to its limit. -/
def Station.count (st : Station) (n : Fin 4) : Station :=
  let v := st.stall[n.val]
  { st with stall := st.stall.set n.val (if v = 0xffffffff then v else v + 1) }

/-! ### One lay, one thread, one context -/

/-- Whether a fault event of a lay awaits its service (R225). -/
def Ctx.eventOpen (x : Ctx) (l : LaySlot) : Bool := x.awaiting.any fun e => e.lay == l && (e.kind.val == 1 || e.kind.val == 2)

/-- A lay after a cycle: the arrivals of the cycle counted; stall counters while a pass is armed; the wedge timer
while it is not quiescent and no event of it is open. -/
def Lay.tick (x : Lay) (quiet opened : Bool) : Lay :=
  let x := x.countArrivals
  { x with
    stations := if x.pass.isSome then x.stations.map fun st => if st.counts then st.count (x.stallKind st) else st else x.stations,
    wedgeTimer := if quiet || opened then x.wedgeTimer else x.wedgeTimer + 1 }

/-- A thread after a cycle: one that was ready and did not issue in it grows older (R381); one whose stall has ended
is ready from now on (R380). -/
def Thread.tick (ready : Bool) (now : Nat) (th : Thread) : Thread :=
  { th with woke := false, age := if ready && th.issuedAt != now then th.age + 1 else th.age }

/-- The registers in force in the next cycle (R440). -/
def Ctx.nextInForce (x : Ctx) : InForce :=
  { spawn := x.port.spawn, cbase := x.port.cbase, cdepth := x.port.cdepth, fqbase := x.port.fqbase, fqdepth := x.port.fqdepth,
    fqtail := x.fqtail, savepa := x.port.savepa, savelen := x.port.savelen, pdead := x.port.pdead, wlimit := x.wlimit,
    wreport := x.wreport }

/-- A context after a cycle. Its stall counters count as long as a lay is resident, while the save engine works too (R389,
R429). -/
def State.tickCtx (s : State) (c : CtxId) : Ctx :=
  let x := s.ctx c
  { x with
    inForce := x.nextInForce,
    threads := Vector.ofFn fun t => (x.thread t).tick (x.ready t) s.cyc,
    lays := if x.st == .stopped then x.lays
      else Vector.ofFn fun l => (s.lay? c l).map fun y => y.tick (x.frozen || s.quiescent c l y) (x.eventOpen l) }

/-! ### Power states (R503) -/

/-- Whether a die has a running context or a resident lay. -/
def State.dieActive (s : State) (d : Die) : Bool :=
  s.ctxs.toList.any fun x =>
    (x.st == .running && x.home == d)
      || x.lays.toList.any fun l => match l with | some y => y.placed && y.pages.any fun p => dieAt p.gcol p.grow == d | none => false

/-- Whether the module has a running context. -/
def State.anyRunning (s : State) : Bool := s.ctxs.toList.any fun x => x.st == .running

/-- The power state of a die after a cycle: a start or a placement ends P2; P3 ends with a launch, or where a context
runs. -/
def State.wake (s : State) (d : Die) : BitVec 2 :=
  let p := s.secure.pstate[d.val]
  if p = 2 && s.dieActive d then 0 else if p = 3 && s.anyRunning then 2 else p

/-- The idle times and power states after a cycle. -/
def State.tickPower (s : State) : Secure :=
  { s.secure with
    idle := Vector.ofFn fun d => if s.dieActive d then 0 else s.secure.idle[d.val] + 1,
    moduleIdle := if s.anyRunning then 0 else s.secure.moduleIdle + 1,
    pstate := Vector.ofFn fun d => s.wake d }

/-- Dies that have left P2 in this cycle go to P1 where the power or the temperature asks for it (R503). -/
def State.woken (s : State) (old : Vector (BitVec 2) 4) : State :=
  (List.finRange 4).foldl (fun z d => if old[d.val] = 2 && z.secure.pstate[d.val] = 0 then z.throttle d else z) s

/-- One fabric cycle passes. -/
def State.tick (s : State) : State :=
  { s with
    cyc := s.cyc + 1, half := false, qageNow := s.qage, issageNow := s.issage, dispatched := 0,
    issued := Vector.replicate 4 false, ctxs := Vector.ofFn fun c => s.tickCtx c, secure := s.tickPower }.woken s.secure.pstate

end Sys2Proof.Machine
end

