-- ==== Sys2Proof/Machine/Reconf.lean ====
section
/-!
DEFINITION. Tail-following reconfiguration (07 R227 to R230, 09 R282): stations, reels and cleats adopt the successor
image one after the other, banks change role together, and the successor then stands in the slot.
-/
namespace Sys2Proof.Machine

/-- Whether an item is a reconfiguration record. -/
def Item.isReconf : Item → Bool
  | .reconf => true
  | .data _ => false

/-- Whether the head of a link's buffer is a reconfiguration record. -/
def Link.headReconf (l : Link) : Bool := match l.buf with | .reconf :: _ => true | _ => false

/-- A reconfiguration record at the head of a link is taken. -/
def Link.takeReconf (l : Link) : Link := if l.headReconf then { l with buf := l.buf.tail } else l

/-- Reconfiguration records at the input ports of a station or reel are taken. -/
def Lay.takeReconfs (x : Lay) (pid : Pid) (sid : Sid) : Lay :=
  { x with links := x.links.map fun l => if l.dst.pid == pid && l.dst.sid == sid then l.takeReconf else l }

/-- A reconfiguration record leaves on every output port of a station that carries a link. -/
def Lay.sendReconfs (x : Lay) (pid : Pid) (sid : Sid) : Lay :=
  { x with links := x.links.map fun l => if l.src.pid == pid && l.src.sid == sid then l.sendReconf else l }

/-- Whether a reconfiguration record has arrived on every input port that carries a link; a re-entry input counts as
arrived while its bight is empty (R228). -/
def Lay.reconfArrived (x : Lay) (pid : Pid) (sid : Sid) : Bool :=
  let empty := match (x.station? pid sid).bind Station.splice? with | some b => b.mode == .bight && b.occ == 0 | none => false
  x.links.all fun l => !(l.dst.pid == pid && l.dst.sid == sid) || l.headReconf || (empty && l.dst.port == 1)

/-- Whether a station has nothing under way: no execution, no record held, no access unperformed (R228). A handler has
not as long as a record of the old pass is left that could still fault (R230; log entry 44). -/
def State.stationRests (s : State) (p : Place) (x : Lay) (st : Station) : Bool :=
  !st.busy && !(s.reqs.any fun q => q.place == p && q.stage != .done)
    && (x.handler != some (st.pid, st.sid) || s.quiescent p.ctx p.slot x)

/-- The station as the successor image gives it, but for what changes with its role (R228). -/
def Station.adopt (st : Station) (m : Image) : Station :=
  match m.station? st.pid.val st.sid.toNat with
  | none => { st with segs := Vector.replicate 4 none, cmap := Vector.replicate 8 none, adopted := true }
  | some e =>
    let n := e.make
    { st with
      segs := n.segs, cmap := n.cmap, k := n.k, kv := n.kv, lfsr := n.lfsr, seed := n.seed, ordered := n.ordered, adopted := true,
      body := match st.body, n.body with | .splice _, .splice b => .splice b | b, _ => b }

/-- Whether a segment ties to a cleat. -/
def Seg.ties (g : Seg) (n : Fin 16) : Bool :=
  g.instrs.any fun i => match i with | .cleatTie o => o.cl.toNat == n.val | _ => false

/-- Whether every station that ties to a cleat has adopted the successor (R227). -/
def Lay.tiersAdopted (x : Lay) (k : Cleat) : Bool :=
  x.stations.all fun st => st.pid != k.pid || st.adopted || !(st.segs.toList.any fun g => match g with | some g => g.ties k.num | none => false)

/-- The reel of a page sends what is due, and adopts once every slot has sent and every input has its record (R227,
R282). -/
def Lay.adoptReel (x : Lay) (pg : Pid) (m : Image) : Lay :=
  let y := x.reelSends pg
  match y.reel? pg.val with
  | none => y
  | some r =>
    if !r.adopted && r.streams.toList.all (fun (st : Stream) => st.reconfSent) && r.skips.isEmpty && y.reconfArrived pg reelSid then
      let page := m.pages.getD pg.val (0, 0, 0, 0)
      (y.takeReconfs pg reelSid).modReel pg.val fun _ =>
        Reel.fresh (BitVec.ofNat 3 page.2.2.1) (Vector.ofFn fun n => Fin.ofNat 4 (page.2.2.2 / 4 ^ n.val))
    else y

/-- The cleats of a page whose tying stations have adopted, and whose releases are sent, send their reconfiguration
records, after which nothing leaves on their links (R227); they take the successor's values once the old pass has
ended, whose record still tells of them (R282, R290; log entry 44). -/
def Lay.adoptCleats (x : Lay) (pg : Pid) (m : Image) : Lay :=
  let due (k : Cleat) : Bool :=
    k.pid == pg && !k.adopted && k.waiting.isEmpty && k.pending.isEmpty && k.arriving.isEmpty && x.tiersAdopted k
  let goes := (x.cleats.filter due).filterMap fun (k : Cleat) => k.link
  let news := m.makeCleats []
  { x with
    links := (List.range x.links.length).filterMap fun i => (x.links[i]?).map fun l => if goes.contains i then l.sendReconf else l,
    cleats := x.cleats.map fun k =>
      if !(due k) then k
      else if x.pass.isSome then { k with link := none }
      else { (news.find? fun n => n.pid == k.pid && n.num == k.num).getD k with link := none, adopted := true } }

/-- Whether the successor stands in every part of the lay, the old pass has ended and no reconfiguration record is left
(R230). -/
def Lay.swapDone (x : Lay) (u : Succ) : Bool :=
  u.roleDone && !x.zeroing && x.pass.isNone && x.stations.all (fun st => st.adopted) && x.cleats.all (fun k => k.adopted)
    && x.pages.all (fun p => p.reel.adopted) && !(x.links.any fun l => l.buf.any Item.isReconf || l.flight.any fun i => i.1.isReconf)

/-- The successor takes the slot (R2, R230, R282): as lay.load makes it, at the places of the old lay; reels and cleats
keep what has been done to them since they adopted. -/
def Lay.succeed (x : Lay) (u : Succ) (m : Image) : Lay :=
  let y := m.make u.image x.digest x.origin
  { y with
    pages := x.pages,
    cleats := x.cleats.map fun k =>
      { k with link := (y.cleats.find? fun n => n.pid == k.pid && n.num == k.num).bind fun (n : Cleat) => n.link } }

/-- What is done at the end of each step of a reconfiguration: the successor stands once all is done. -/
def State.endSwap (s : State) (c : CtxId) (l : LaySlot) : State :=
  match s.lay? c l with
  | none => s
  | some x =>
    match x.succ with
    | none => s
    | some u =>
      match readImage u.bytes u.bytes.length with
      | none => s
      | some m => if x.swapDone u then s.setLay c l (some (x.succeed u m)) else s

/-- RECONFIG_ADOPT (R227, R228): a station, the reel of a page (station 0x70) or the cleats of a page (station 0x7e). -/
def execReconfigAdopt (p : Place) (s : State) : Res :=
  match s.lay? p.ctx p.slot with
  | none => .next s
  | some x =>
    match x.succ.bind fun u => readImage u.bytes u.bytes.length with
    | none => .next s
    | some m =>
      let s1 :=
        if p.sid = reelSid then s.modLay p.ctx p.slot fun y => y.adoptReel p.pid m
        else if p.sid = cleatSid then s.modLay p.ctx p.slot fun y => y.adoptCleats p.pid m
        else
          match x.station? p.pid p.sid with
          | none => s
          | some st =>
            if st.adopted then s.modLay p.ctx p.slot fun y => y.takeReconfs p.pid p.sid
            else if x.reconfArrived p.pid p.sid && s.stationRests p x st then
              s.modLay p.ctx p.slot fun y =>
                (((y.takeReconfs p.pid p.sid).modStation p.pid p.sid fun z => z.adopt m).sendReconfs p.pid p.sid).stir
            else s
      .next (s1.endSwap p.ctx p.slot)

/-- A bank at the role change point: the successor's role, emptied (R229, R239). -/
def Station.changeRole (st : Station) (m : Image) : Station :=
  match st.body with
  | .bank _ =>
    let row := match m.station? st.pid.val st.sid.toNat with | some e => if e.row = 0 then 1024 else e.row | none => 1024
    { st with body := .bank (Bank.fresh (roleOf (m.bankRole st.pid.val st.sid.toNat)) row) }
  | _ => st

/-- ROLE_CHANGE_POINT (R229): once every compute and bank station has adopted; cache lines are written back and given up,
and zeroing begins. -/
def execRoleChangePoint (c : CtxId) (l : LaySlot) (s : State) : Res :=
  match s.lay? c l with
  | none => .next s
  | some x =>
    match x.succ with
    | none => .next s
    | some u =>
      match readImage u.bytes u.bytes.length with
      | none => .next s
      | some m =>
        let ready := x.stations.all fun st => st.adopted || !(sidSite st.sid == .compute || sidSite st.sid == .bank)
        if u.roleDone || !ready then .next s
        else
          let s1 := { s with dir := s.dir.filter fun d => !(d.ctx == c && d.lay == l) }
          .next (s1.modLay c l fun y =>
            { y with inter := Fin.ofNat 4 m.inter, stations := y.stations.map fun st => st.changeRole m, zeroing := true,
                     succ := some { u with roleDone := true } })

/-- BANK_ZEROING_DONE (R239). -/
def execBankZeroingDone (c : CtxId) (l : LaySlot) (s : State) : Res :=
  match s.lay? c l with
  | none => .next s
  | some x => if x.loading then .next s else .next ((s.modLay c l fun y => { y with zeroing := false }).endSwap c l)

end Sys2Proof.Machine
end

