-- ==== Sys2Proof/Machine/System.lean ====
section
/-!
DEFINITION. System instructions of a thread (15 R437 to R451): traps and return, system registers, shootdown, cache
control, servicing fault events, halting and waiting; and the events that end their stalls.
-/
namespace Sys2Proof.Machine

/-! ### Traps and return -/

/-- An illegal-instruction trap of an instruction (R431, R416): TVAL is its word. -/
def State.illegal (s : State) (c : CtxId) (t : Tid) (i : Instr) : State := s.trapAt c t 1 ((encode i).getD 0).toNat

/-- trap (R438): the instruction completes before it traps. -/
def execTrap (o : ZForm) (s : State) : Res :=
  atThread s fun c t =>
    let s1 := s.advance c t
    s1.takeTrap c t (s1.thread c t).pc (BitVec.ofNat 64 (0x0a + o.imm16.toNat * 2 ^ 16)) 0

/-- eret (R439). -/
def execEret (o : ZForm) (s : State) : Res :=
  atThread s fun c t => if (s.thread c t).inTrap then s.returnTrap c t else s.illegal c t (.eret o)

/-- halt (R450): the thread stops with its pc at the instruction. -/
def execHalt (_o : ZForm) (s : State) : Res := atThread s fun c t => s.modThread c t fun th => { th with halted := true }

/-! ### System registers (R440, R441) -/

/-- The context that an instruction acts on (R430). -/
def targetOf (o : ZForm) (c : CtxId) : CtxId := if o.mod.getLsbD 0 then Fin.ofNat 64 o.imm16.toNat else c

/-- Whether a context is privileged (R431). -/
def State.privileged (s : State) (c : CtxId) : Bool := (s.ctx c).port.priv.getLsbD 0

/-- Whether a use of format Z lacks the privilege it needs: under .o, or for the register's sake (R430, R431). -/
def State.lacksPriv (s : State) (c : CtxId) (o : ZForm) (reg : Bool) : Bool := (o.mod.getLsbD 0 || reg) && !s.privileged c

/-- sysrd. -/
def execSysrd (o : ZForm) (s : State) : Res :=
  atThread s fun c t =>
    if s.lacksPriv c o (sregPriv false o.sreg.toNat) then s.illegal c t (.sysrd o)
    else s.finishT c t o.d (s.sregValue (targetOf o c) (s.thread c t) o.sreg.toNat o.imm16.toNat)

/-- A write of PREQ (R417, R419): none where [7:3] is not zero. -/
def State.putPreq (s : State) (c : CtxId) (v : Byte) : Option State :=
  if 8 ≤ v.toNat then none
  else
    let s1 := if v.getLsbD 0 then s.requestPreempt c (v.getLsbD 1) else s
    some (if v.getLsbD 2 then s1.releaseHold c else s1)

/-- A write of a system register of context k by thread t of context c: none where it is refused (R440 to R444). -/
def State.putSreg (s : State) (c : CtxId) (t : Tid) (k : CtxId) (n : Nat) (v : DWord) : Option State :=
  if sregCtx n && (s.ctx k).st == .free then none
  else
    match n with
    | 0x107 => some (s.wfiNote k 8)
    | 0x204 => s.putFqtail k (v.truncate 32)
    | 0x20b => s.putPreq k (v.truncate 8)
    | 0x300 => some (s.modThread c t fun th => { th with epc := v &&& ~~~(7 : DWord) })
    | _ => (sregHost k n).bind fun r => s.putReg r v

/-- syswr: status 0 for written, 1 for refused. -/
def execSyswr (o : ZForm) (s : State) : Res :=
  atThread s fun c t =>
    if s.lacksPriv c o (sregPriv true o.sreg.toNat) then s.illegal c t (.syswr o)
    else
      match s.putSreg c t (targetOf o c) o.sreg.toNat (s.readT c t o.a) with
      | some s1 => s1.finishT c t o.d 0
      | none => s.finishT c t o.d 1

/-! ### Shootdown (R405, R446) -/

/-- Whether a region of 57-bit addresses lies in a range of b bytes from a, widened to whole regions; b = 0 is all. -/
def inShoot (a b : DWord) (region : Nat) : Bool :=
  let lo := a.toNat / 65536
  let n := (a.toNat + b.toNat - 1) / 65536 - lo
  b == 0 || decide ((((sext57 (region * 65536)).toNat / 65536) + 2 ^ 48 - lo) % 2 ^ 48 ≤ n)

/-- Whether addresses that an access was translated from touch the range. -/
def vasMeet (a b : DWord) (vs : List VaRef) : Bool :=
  vs.any fun v => inShoot a b (regionOf v.va) || inShoot a b (regionOf (v.va + v.len - 1))

/-- Whether a request holds a translation (R405): it is sent and not performed. -/
def Req.translated (q : Req) : Bool :=
  match q.stage with
  | .walk | .retry _ | .event _ | .done => false
  | _ => true

/-- Whether nothing issued before a mark still uses a translation of the range (R405, condition 3): no request, and no
store buffered at a segment. -/
def State.shootDone (s : State) (mark : Nat) (k : CtxId) (a b : DWord) : Bool :=
  !(s.reqs.any fun q => q.place.ctx == k && (decide (q.id < mark) || decide (q.exec < mark)) && q.translated && vasMeet a b q.vas)
    && (s.laysOf k).all fun y => y.2.stations.all fun st => !(st.frames.any fun f =>
      decide (f.id < mark) && f.stores.any fun b' => vasMeet a b b'.vas)

/-- tlb.inv (R446): the entries go at once; the thread waits for the accesses that used them. -/
def execTlbInv (o : ZForm) (s : State) : Res :=
  atThread s fun c t =>
    if s.lacksPriv c o false then s.illegal c t (.tlbInv o)
    else
      let k := targetOf o c
      let a := s.readT c t o.a
      let b := s.readT c t o.b
      { s with tlb := s.tlb.filter fun e => !(e.ctx == k && inShoot a b e.region) }.modThread c t fun th =>
        { th with wait := .tlbInv s.nextId k a b }

/-- TLB_INV_COMPLETE (R405). -/
def execTlbInvComplete (c : CtxId) (t : Tid) (s : State) : Res :=
  match (s.thread c t).wait with
  | .tlbInv mark k a b => if s.shootDone mark k a b then .next (s.advance c t) else .next s
  | _ => .next s

/-! ### Cache control (R447) -/

/-- Lines that n bytes of HBM touch are written back, and given up where give says so. -/
def State.cleanLines (s : State) (give : Bool) (a n : Nat) : State :=
  let hit (d : DirLine) : Bool := (granules 64 a n).contains d.line
  { s with dir := if give then s.dir.filter fun d => !(hit d) else s.dir.map fun d => if hit d then { d with dirty := false } else d }

/-- The pages of a range in order: the first that fails traps, after those before it (R447); a walk waits for a row under
repair, and finds the errors that have struck it (R478, R486). -/
def State.cleanPages (s : State) (c : CtxId) (t : Tid) (give : Bool) : List (Nat × Nat) → State
  | [] => s.advance c t
  | (v, n) :: ps =>
    let va := v % 2 ^ 64
    if !(canonical va) then s.troubleAt c t ⟨3, va⟩ false
    else if s.walkBusy c va then s.stand c t .units
    else
      let s := s.walkScan c va
      match s.walk c va with
      | .error e => s.troubleAt c t ⟨4 + e, va⟩ false
      | .ok lf => (if lf.mt = 0 then s.cleanLines give (lf.pa + va % 65536) n else s).cleanPages c t give ps

/-- cwb. -/
def execCwb (o : ZForm) (s : State) : Res :=
  atThread s fun c t => s.cleanPages c t false (regionPieces (s.readT c t o.a).toNat (s.readT c t o.b).toNat)

/-- cinv. -/
def execCinv (o : ZForm) (s : State) : Res :=
  atThread s fun c t => s.cleanPages c t true (regionPieces (s.readT c t o.a).toNat (s.readT c t o.b).toNat)

/-! ### Servicing fault events (R409, R449) -/

/-- The requests that wait under an event of a context. -/
def State.eventReqs (s : State) (c : CtxId) (tag : BitVec 16) : List Req :=
  s.reqs.filter fun q => q.place.ctx == c && q.stage == .event tag

/-- A joined execution faults with kind 0x0a (R409). -/
def State.dropReqExec (s : State) (q : Req) : State :=
  match q.owner, s.station? q.place with
  | .exec x, some st =>
    match st.frame? x with
    | some f =>
      if f.st = .parked q.id then
        (s.dropReq q.id).doomExec q.place st f 0x0a
      else s.dropReq q.id
    | none => s.dropReq q.id
  | _, _ => s.dropReq q.id

/-- The streams of a lay, by page and slot, that are parked under a tag. -/
def parkedStreams (x : Lay) (tag : BitVec 16) : List (Pid × Fin 4) :=
  (List.range x.npages).flatMap fun pg => (List.finRange 4).filterMap fun n =>
    match x.stream? pg n with
    | some st => if st.parked = some tag then some (Fin.ofNat 64 pg, n) else none
    | none => none

/-- Threads whose fibre instruction waits under a tag go on: to repeat its access, or told that it was dropped (R300). -/
def State.releaseFibre (s : State) (c : CtxId) (tag : BitVec 16) (drop : Bool) : State :=
  s.modCtx c fun x => { x with threads := x.threads.map fun t =>
    match t.wait with | .fibre n _ => if n = tag then { t with wait := .none, dropped := drop } else t | _ => t }

/-- Nothing that is cached of a context's region stays, so that the next access walks (R449). -/
def State.forgetRegion (s : State) (c : CtxId) (region : Nat) : State :=
  { s with tlb := s.tlb.filter fun x => !(x.ctx == c && x.region == region) }

/-- An event of kind 1 is serviced (R409). A retry walks its region anew (R449): page tables lie in HBM, which an
access of the servicing thread has reached when the next instruction issues. -/
def State.serviceFar (s : State) (c : CtxId) (e : Event) (retry : Bool) : State :=
  if retry then
    let s0 := s.forgetRegion c e.region
    let s1 := { s0 with reqs := s0.reqs.map fun (q : Req) =>
      if q.place.ctx = c && q.stage == Stage.event e.tag then { q with stage := .walk, born := s.cyc } else q }
    (s1.modLay c e.lay fun x => x.mapStreams fun st => if st.parked = some e.tag then { st with parked := none } else st).releaseFibre
      c e.tag false
  else
    let s1 := (s.eventReqs c e.tag).foldl (fun z q => z.dropReqExec q) s
    let s2 := match s.lay? c e.lay with
      | some x => (parkedStreams x e.tag).foldl (fun (z : State) (k : Pid × Fin 4) =>
          (z.modStream c e.lay k.1 k.2 fun st => { st with parked := none }).endStream c e.lay k.1 k.2 0x11 e.va.toNat 0) s1
      | none => s1
    s2.releaseFibre c e.tag true

/-- An event of kind 2 is serviced (R409): the held record fires again from its register, where it counts in its loops
again unless it is a handler's (R208), or it is retired. -/
def State.serviceHeld (s : State) (c : CtxId) (e : Event) (retry : Bool) : State :=
  let sid : Sid := e.src.truncate 7
  let mine (st : Station) : Bool := match st.exc with | some x => x.held == some e.tag | none => false
  let mineRuns (st : Station) : Bool := match st.exc with | some x => x.fromHandler | none => false
  match (s.lay? c e.lay).bind fun x => x.station? e.pid sid with
  | none => s
  | some st =>
    if !(mine st) then s
    else if retry then
      s.modLay c e.lay fun x =>
        let y := x.modStation e.pid sid fun y => { y with exc := y.exc.map fun z => { z with held := none, refire := true } }
        (if mineRuns st then y else y.loopRejoin e.pid sid).stir
    else s.modLay c e.lay fun x => (x.modStation e.pid sid fun y => { y with exc := none }).stir

/-- Services the event of a context that carries a tag; one that awaits none has no effect (R409, R449). -/
def State.serviceEvent (s : State) (c : CtxId) (tag : BitVec 16) (retry : Bool) : State :=
  match (s.ctx c).awaiting.find? fun e => e.tag == tag with
  | none => s
  | some e =>
    let s1 := s.modCtx c fun x =>
      { x with awaiting := x.awaiting.filter fun y => y.tag != tag,
               heldEvents := x.heldEvents.map fun y => if y.tag == tag && y.waiting then { y with waiting := false } else y }
    if e.kind.val = 1 then s1.serviceFar c e retry else s1.serviceHeld c e retry

/-- flt.retry (R449). -/
def execFltRetry (o : ZForm) (s : State) : Res :=
  atThread s fun c t =>
    if s.lacksPriv c o false then s.illegal c t (.fltRetry o)
    else (s.serviceEvent (targetOf o c) ((s.readT c t o.a).truncate 16) true).advance c t

/-- flt.drop (R449). -/
def execFltDrop (o : ZForm) (s : State) : Res :=
  atThread s fun c t =>
    if s.lacksPriv c o false then s.illegal c t (.fltDrop o)
    else (s.serviceEvent (targetOf o c) ((s.readT c t o.a).truncate 16) false).advance c t

/-! ### Waiting (R451) -/

/-- wfi (R451). -/
def execWfi (o : ZForm) (s : State) : Res :=
  atThread s fun c t => s.modThread c t fun th =>
    { th with wait := .wfi o.d (if o.imm16 = 0 then Option.none else some (s.cyc + o.imm16.toNat * 1024)) 0 }

/-- WFI_WAKE (R451): the causes that have occurred. -/
def execWfiWake (c : CtxId) (t : Tid) (s : State) : Res :=
  match (s.thread c t).wait with
  | .wfi d _ m => if m = 0 then .next s else .next (s.finishT c t d (m.zeroExtend 64))
  | _ => .next s

/-- WFI_TIMEOUT (R451). -/
def execWfiTimeout (c : CtxId) (t : Tid) (s : State) : Res :=
  match (s.thread c t).wait with
  | .wfi d (some n) m => if n ≤ s.cyc then .next (s.finishT c t d ((m ||| 0x80).zeroExtend 64)) else .next s
  | _ => .next s

end Sys2Proof.Machine
end

