-- ==== Sys2Proof/Machine/Dispatch.lean ====
section
/-!
DEFINITION. What each instruction and each event of the device does: one arm per row of spec/opcode_table.json.
-/
namespace Sys2Proof.Machine

def exec (i : Instr) (s : State) : Host.Outcome State Fault Refusal :=
  match i with
  | .add o => Sys2Proof.Machine.execAdd o s
  | .sub o => Sys2Proof.Machine.execSub o s
  | .mul o => Sys2Proof.Machine.execMul o s
  | .mulh o => Sys2Proof.Machine.execMulh o s
  | .mad o => Sys2Proof.Machine.execMad o s
  | .div o => Sys2Proof.Machine.execDiv o s
  | .rem o => Sys2Proof.Machine.execRem o s
  | .addc o => Sys2Proof.Machine.execAddc o s
  | .and o => Sys2Proof.Machine.execAnd o s
  | .or o => Sys2Proof.Machine.execOr o s
  | .xor o => Sys2Proof.Machine.execXor o s
  | .andn o => Sys2Proof.Machine.execAndn o s
  | .not o => Sys2Proof.Machine.execNot o s
  | .shl o => Sys2Proof.Machine.execShl o s
  | .shr o => Sys2Proof.Machine.execShr o s
  | .sar o => Sys2Proof.Machine.execSar o s
  | .rol o => Sys2Proof.Machine.execRol o s
  | .ror o => Sys2Proof.Machine.execRor o s
  | .clz o => Sys2Proof.Machine.execClz o s
  | .ctz o => Sys2Proof.Machine.execCtz o s
  | .popc o => Sys2Proof.Machine.execPopc o s
  | .brev o => Sys2Proof.Machine.execBrev o s
  | .min o => Sys2Proof.Machine.execMin o s
  | .max o => Sys2Proof.Machine.execMax o s
  | .abs o => Sys2Proof.Machine.execAbs o s
  | .neg o => Sys2Proof.Machine.execNeg o s
  | .sel o => Sys2Proof.Machine.execSel o s
  | .cmp o => Sys2Proof.Machine.execCmp o s
  | .lea o => Sys2Proof.Machine.execLea o s
  | .mov o => Sys2Proof.Machine.execMov o s
  | .bfx o => Sys2Proof.Machine.execBfx o s
  | .bfi o => Sys2Proof.Machine.execBfi o s
  | .byteperm o => Sys2Proof.Machine.execByteperm o s
  | .hash o => Sys2Proof.Machine.execHash o s
  | .cvti o => Sys2Proof.Machine.execCvti o s
  | .addImm o => Sys2Proof.Machine.execAddImm o s
  | .andImm o => Sys2Proof.Machine.execAndImm o s
  | .orImm o => Sys2Proof.Machine.execOrImm o s
  | .xorImm o => Sys2Proof.Machine.execXorImm o s
  | .shlImm o => Sys2Proof.Machine.execShlImm o s
  | .shrImm o => Sys2Proof.Machine.execShrImm o s
  | .sarImm o => Sys2Proof.Machine.execSarImm o s
  | .cmpImm o => Sys2Proof.Machine.execCmpImm o s
  | .movi o => Sys2Proof.Machine.execMovi o s
  | .fadd o => Sys2Proof.Machine.execFadd o s
  | .fsub o => Sys2Proof.Machine.execFsub o s
  | .fmul o => Sys2Proof.Machine.execFmul o s
  | .fma o => Sys2Proof.Machine.execFma o s
  | .fnma o => Sys2Proof.Machine.execFnma o s
  | .fmin o => Sys2Proof.Machine.execFmin o s
  | .fmax o => Sys2Proof.Machine.execFmax o s
  | .fabs o => Sys2Proof.Machine.execFabs o s
  | .fneg o => Sys2Proof.Machine.execFneg o s
  | .fcmp o => Sys2Proof.Machine.execFcmp o s
  | .fcvt o => Sys2Proof.Machine.execFcvt o s
  | .frnd o => Sys2Proof.Machine.execFrnd o s
  | .fscale o => Sys2Proof.Machine.execFscale o s
  | .frcp o => Sys2Proof.Machine.execFrcp o s
  | .frsq o => Sys2Proof.Machine.execFrsq o s
  | .fsqrt o => Sys2Proof.Machine.execFsqrt o s
  | .fexp2 o => Sys2Proof.Machine.execFexp2 o s
  | .flog2 o => Sys2Proof.Machine.execFlog2 o s
  | .ftanh o => Sys2Proof.Machine.execFtanh o s
  | .i2f o => Sys2Proof.Machine.execI2f o s
  | .f2i o => Sys2Proof.Machine.execF2i o s
  | .fqnt o => Sys2Proof.Machine.execFqnt o s
  | .fdq o => Sys2Proof.Machine.execFdq o s
  | .fred o => Sys2Proof.Machine.execFred o s
  | .fdot o => Sys2Proof.Machine.execFdot o s
  | .smxUpd o => Sys2Proof.Machine.execSmxUpd o s
  | .smxMerge o => Sys2Proof.Machine.execSmxMerge o s
  | .perm o => Sys2Proof.Machine.execPerm o s
  | .shuf o => Sys2Proof.Machine.execShuf o s
  | .bcast o => Sys2Proof.Machine.execBcast o s
  | .rot o => Sys2Proof.Machine.execRot o s
  | .zip o => Sys2Proof.Machine.execZip o s
  | .unzip o => Sys2Proof.Machine.execUnzip o s
  | .pack o => Sys2Proof.Machine.execPack o s
  | .unpack o => Sys2Proof.Machine.execUnpack o s
  | .cmpr o => Sys2Proof.Machine.execCmpr o s
  | .expd o => Sys2Proof.Machine.execExpd o s
  | .lmask o => Sys2Proof.Machine.execLmask o s
  | .lsel o => Sys2Proof.Machine.execLsel o s
  | .movw o => Sys2Proof.Machine.execMovw o s
  | .swap o => Sys2Proof.Machine.execSwap o s
  | .emit o => Sys2Proof.Machine.execEmit o s
  | .fork o => Sys2Proof.Machine.execFork o s
  | .drop o => Sys2Proof.Machine.execDrop o s
  | .steer o => Sys2Proof.Machine.execSteer o s
  | .bight o => Sys2Proof.Machine.execBight o s
  | .tag o => Sys2Proof.Machine.execTag o s
  | .setcls o => Sys2Proof.Machine.execSetcls o s
  | .setlen o => Sys2Proof.Machine.execSetlen o s
  | .setfmt o => Sys2Proof.Machine.execSetfmt o s
  | .setck o => Sys2Proof.Machine.execSetck o s
  | .setscale o => Sys2Proof.Machine.execSetscale o s
  | .raise o => Sys2Proof.Machine.execRaise o s
  | .nop o => Sys2Proof.Machine.execNop o s
  | .inject o => Sys2Proof.Machine.execInject o s
  | .ld o => Sys2Proof.Machine.execLd o s
  | .st o => Sys2Proof.Machine.execSt o s
  | .ldx o => Sys2Proof.Machine.execLdx o s
  | .stx o => Sys2Proof.Machine.execStx o s
  | .atom o => Sys2Proof.Machine.execAtom o s
  | .atomf o => Sys2Proof.Machine.execAtomf o s
  | .cas o => Sys2Proof.Machine.execCas o s
  | .fence o => Sys2Proof.Machine.execFence o s
  | .otokPut o => Sys2Proof.Machine.execOtokPut o s
  | .otokWait o => Sys2Proof.Machine.execOtokWait o s
  | .prf o => Sys2Proof.Machine.execPrf o s
  | .ldp o => Sys2Proof.Machine.execLdp o s
  | .stp o => Sys2Proof.Machine.execStp o s
  | .mma o => Sys2Proof.Machine.execMma o s
  | .tld o => Sys2Proof.Machine.execTld o s
  | .tswap o => Sys2Proof.Machine.execTswap o s
  | .tzero o => Sys2Proof.Machine.execTzero o s
  | .accz o => Sys2Proof.Machine.execAccz o s
  | .accrd o => Sys2Proof.Machine.execAccrd o s
  | .accrdUl o => Sys2Proof.Machine.execAccrdUl o s
  | .ulset o => Sys2Proof.Machine.execUlset o s
  | .reelAff o => Sys2Proof.Machine.execReelAff o s
  | .reelGat o => Sys2Proof.Machine.execReelGat o s
  | .reelSca o => Sys2Proof.Machine.execReelSca o s
  | .reelFib o => Sys2Proof.Machine.execReelFib o s
  | .reelCmp o => Sys2Proof.Machine.execReelCmp o s
  | .reelRq o => Sys2Proof.Machine.execReelRq o s
  | .reelStop o => Sys2Proof.Machine.execReelStop o s
  | .reelWait o => Sys2Proof.Machine.execReelWait o s
  | .fibOpen o => Sys2Proof.Machine.execFibOpen o s
  | .fibSkip o => Sys2Proof.Machine.execFibSkip o s
  | .fibIsect o => Sys2Proof.Machine.execFibIsect o s
  | .fibUnion o => Sys2Proof.Machine.execFibUnion o s
  | .fibSave o => Sys2Proof.Machine.execFibSave o s
  | .fibLoad o => Sys2Proof.Machine.execFibLoad o s
  | .fibPos o => Sys2Proof.Machine.execFibPos o s
  | .layLoad o => Sys2Proof.Machine.execLayLoad o s
  | .layFree o => Sys2Proof.Machine.execLayFree o s
  | .laySwap o => Sys2Proof.Machine.execLaySwap o s
  | .layClone o => Sys2Proof.Machine.execLayClone o s
  | .passArm o => Sys2Proof.Machine.execPassArm o s
  | .passWait o => Sys2Proof.Machine.execPassWait o s
  | .passAbort o => Sys2Proof.Machine.execPassAbort o s
  | .cleatSet o => Sys2Proof.Machine.execCleatSet o s
  | .cleatWait o => Sys2Proof.Machine.execCleatWait o s
  | .cleatTie o => Sys2Proof.Machine.execCleatTie o s
  | .sbar o => Sys2Proof.Machine.execSbar o s
  | .qwait o => Sys2Proof.Machine.execQwait o s
  | .gmm o => Sys2Proof.Machine.execGmm o s
  | .br o => Sys2Proof.Machine.execBr o s
  | .brc o => Sys2Proof.Machine.execBrc o s
  | .jmp o => Sys2Proof.Machine.execJmp o s
  | .call o => Sys2Proof.Machine.execCall o s
  | .ret o => Sys2Proof.Machine.execRet o s
  | .loop o => Sys2Proof.Machine.execLoop o s
  | .ctxSpawn o => Sys2Proof.Machine.execCtxSpawn o s
  | .ctxExit o => Sys2Proof.Machine.execCtxExit o s
  | .ctxKill o => Sys2Proof.Machine.execCtxKill o s
  | .yield o => Sys2Proof.Machine.execYield o s
  | .trap o => Sys2Proof.Machine.execTrap o s
  | .eret o => Sys2Proof.Machine.execEret o s
  | .sysrd o => Sys2Proof.Machine.execSysrd o s
  | .syswr o => Sys2Proof.Machine.execSyswr o s
  | .tlbInv o => Sys2Proof.Machine.execTlbInv o s
  | .cwb o => Sys2Proof.Machine.execCwb o s
  | .cinv o => Sys2Proof.Machine.execCinv o s
  | .notify o => Sys2Proof.Machine.execNotify o s
  | .fltRetry o => Sys2Proof.Machine.execFltRetry o s
  | .fltDrop o => Sys2Proof.Machine.execFltDrop o s
  | .halt o => Sys2Proof.Machine.execHalt o s
  | .wfi o => Sys2Proof.Machine.execWfi o s
  | .stationFire p => Sys2Proof.Machine.execStationFire p s
  | .recordDeparture p x => Sys2Proof.Machine.execRecordDeparture p x s
  | .linkDelivery c l k => Sys2Proof.Machine.execLinkDelivery c l k s
  | .slotReturn c l k => Sys2Proof.Machine.execSlotReturn c l k s
  | .channelAdvance c l k => Sys2Proof.Machine.execChannelAdvance c l k s
  | .exceptionRegisterEntry p => Sys2Proof.Machine.execExceptionRegisterEntry p s
  | .exceptionNetworkDelivery p => Sys2Proof.Machine.execExceptionNetworkDelivery p s
  | .handlerRun c l => Sys2Proof.Machine.execHandlerRun c l s
  | .replyArrival r o => Sys2Proof.Machine.execReplyArrival r o s
  | .nearRequestArrival r => Sys2Proof.Machine.execNearRequestArrival r s
  | .bankOperationStart r e => Sys2Proof.Machine.execBankOperationStart r e s
  | .ldpWake r => Sys2Proof.Machine.execLdpWake r s
  | .presenceRetryResend r => Sys2Proof.Machine.execPresenceRetryResend r s
  | .stpClaimGrant r => Sys2Proof.Machine.execStpClaimGrant r s
  | .tokenEntryRetire p e => Sys2Proof.Machine.execTokenEntryRetire p e s
  | .bightAdmit p => Sys2Proof.Machine.execBightAdmit p s
  | .spliceBcast p => Sys2Proof.Machine.execSpliceBcast p s
  | .spliceSplitRr p => Sys2Proof.Machine.execSpliceSplitRr p s
  | .spliceSplitHash p => Sys2Proof.Machine.execSpliceSplitHash p s
  | .spliceMergeArr p => Sys2Proof.Machine.execSpliceMergeArr p s
  | .spliceMergeRr p => Sys2Proof.Machine.execSpliceMergeRr p s
  | .mergeSeqAccept p => Sys2Proof.Machine.execMergeSeqAccept p s
  | .mergeSeqPass p => Sys2Proof.Machine.execMergeSeqPass p s
  | .fifoEnqueue p => Sys2Proof.Machine.execFifoEnqueue p s
  | .fifoDequeue p => Sys2Proof.Machine.execFifoDequeue p s
  | .cleatRelease c l pg n => Sys2Proof.Machine.execCleatRelease c l pg n s
  | .releaseRecordSend c l pg n => Sys2Proof.Machine.execReleaseRecordSend c l pg n s
  | .quiescenceSweep c l => Sys2Proof.Machine.execQuiescenceSweep c l s
  | .wedgeTimerExpiry c l => Sys2Proof.Machine.execWedgeTimerExpiry c l s
  | .streamStart c l pg n => Sys2Proof.Machine.execStreamStart c l pg n s
  | .reelOperation c l pg => Sys2Proof.Machine.execReelOperation c l pg s
  | .writeSideAccept c l pg n => Sys2Proof.Machine.execWriteSideAccept c l pg n s
  | .gatherIndexAccept c l pg n => Sys2Proof.Machine.execGatherIndexAccept c l pg n s
  | .fibSkipApply c l pg n => Sys2Proof.Machine.execFibSkipApply c l pg n s
  | .streamEnd c l pg n => Sys2Proof.Machine.execStreamEnd c l pg n s
  | .streamStopPoint c l pg n => Sys2Proof.Machine.execStreamStopPoint c l pg n s
  | .translationWalkDone r => Sys2Proof.Machine.execTranslationWalkDone r s
  | .translationRetryResend r => Sys2Proof.Machine.execTranslationRetryResend r s
  | .faultEventWrite c => Sys2Proof.Machine.execFaultEventWrite c s
  | .eventTrap c => Sys2Proof.Machine.execEventTrap c s
  | .hbmRequest r e => Sys2Proof.Machine.execHbmRequest r e s
  | .hbmRowRepairDone row => Sys2Proof.Machine.execHbmRowRepairDone row s
  | .portalRequest r => Sys2Proof.Machine.execPortalRequest r s
  | .portalTimeout r => Sys2Proof.Machine.execPortalTimeout r s
  | .postedWriteFlush r => Sys2Proof.Machine.execPostedWriteFlush r s
  | .peerInboundRequest n o => Sys2Proof.Machine.execPeerInboundRequest n o s
  | .hostBar2Access o => Sys2Proof.Machine.execHostBar2Access o s
  | .flitRetry ch => Sys2Proof.Machine.execFlitRetry ch s
  | .channelRetrain ch => Sys2Proof.Machine.execChannelRetrain ch s
  | .channelFail ch => Sys2Proof.Machine.execChannelFail ch s
  | .stateEccError t => Sys2Proof.Machine.execStateEccError t s
  | .launchWrite c off bytes => Sys2Proof.Machine.execLaunchWrite c off bytes s
  | .hostLaunch c => Sys2Proof.Machine.execHostLaunch c s
  | .spawnDecision c t => Sys2Proof.Machine.execSpawnDecision c t s
  | .contextStart => Sys2Proof.Machine.execContextStart s
  | .teardown c => Sys2Proof.Machine.execTeardown c s
  | .dseqAdvance c => Sys2Proof.Machine.execDseqAdvance c s
  | .killWrite c => Sys2Proof.Machine.execKillWrite c s
  | .wakeWrite c => Sys2Proof.Machine.execWakeWrite c s
  | .fqtailWrite c v => Sys2Proof.Machine.execFqtailWrite c v s
  | .fltailWrite v => Sys2Proof.Machine.execFltailWrite v s
  | .preemptRequest c hold => Sys2Proof.Machine.execPreemptRequest c hold s
  | .preemptReleaseHold c => Sys2Proof.Machine.execPreemptReleaseHold c s
  | .drainEnd c => Sys2Proof.Machine.execDrainEnd c s
  | .drainDeadline c => Sys2Proof.Machine.execDrainDeadline c s
  | .saveEngineDone c => Sys2Proof.Machine.execSaveEngineDone c s
  | .reconfigAdopt p => Sys2Proof.Machine.execReconfigAdopt p s
  | .roleChangePoint c l => Sys2Proof.Machine.execRoleChangePoint c l s
  | .layLoadComplete c l => Sys2Proof.Machine.execLayLoadComplete c l s
  | .injectRecordLeaves c t => Sys2Proof.Machine.execInjectRecordLeaves c t s
  | .passWaitWake c t => Sys2Proof.Machine.execPassWaitWake c t s
  | .cleatWaitWake c t => Sys2Proof.Machine.execCleatWaitWake c t s
  | .reelWaitWake c t => Sys2Proof.Machine.execReelWaitWake c t s
  | .sbarPassed c l pg => Sys2Proof.Machine.execSbarPassed c l pg s
  | .qwaitPoll c t => Sys2Proof.Machine.execQwaitPoll c t s
  | .qwaitTimeout c t => Sys2Proof.Machine.execQwaitTimeout c t s
  | .wfiTimeout c t => Sys2Proof.Machine.execWfiTimeout c t s
  | .wfiWake c t => Sys2Proof.Machine.execWfiWake c t s
  | .tlbInvComplete c t => Sys2Proof.Machine.execTlbInvComplete c t s
  | .gmmGroupAdvance c t => Sys2Proof.Machine.execGmmGroupAdvance c t s
  | .retire v => Sys2Proof.Machine.execRetire v s
  | .retireComplete => Sys2Proof.Machine.execRetireComplete s
  | .dieDrain d => Sys2Proof.Machine.execDieDrain d s
  | .dieDrained d => Sys2Proof.Machine.execDieDrained d s
  | .dieReturn d => Sys2Proof.Machine.execDieReturn d s
  | .dieLoadFirmware d => Sys2Proof.Machine.execDieLoadFirmware d s
  | .firmwareLoadDone d => Sys2Proof.Machine.execFirmwareLoadDone d s
  | .markload v => Sys2Proof.Machine.execMarkload v s
  | .markKernelVerified => Sys2Proof.Machine.execMarkKernelVerified s
  | .markStageWrite r => Sys2Proof.Machine.execMarkStageWrite r s
  | .attreq v => Sys2Proof.Machine.execAttreq v s
  | .attestationDone => Sys2Proof.Machine.execAttestationDone s
  | .protectedKeyWrite reg v => Sys2Proof.Machine.execProtectedKeyWrite reg v s
  | .bringupWrite v => Sys2Proof.Machine.execBringupWrite v s
  | .registerWrite reg v => Sys2Proof.Machine.execRegisterWrite reg v s
  | .moduleReset => Sys2Proof.Machine.execModuleReset s
  | .bringupPhaseEnd flash failed => Sys2Proof.Machine.execBringupPhaseEnd flash failed s
  | .hostPortReset => Sys2Proof.Machine.execHostPortReset s
  | .peerLinkTrained n ops unit => Sys2Proof.Machine.execPeerLinkTrained n ops unit s
  | .tempSample d t => Sys2Proof.Machine.execTempSample d t s
  | .powerAverageSample watts => Sys2Proof.Machine.execPowerAverageSample watts s
  | .powerIdleTimer d => Sys2Proof.Machine.execPowerIdleTimer d s
  | .channelRetrainDone ch => Sys2Proof.Machine.execChannelRetrainDone ch s
  | .bankZeroingDone c l => Sys2Proof.Machine.execBankZeroingDone c l s

end Sys2Proof.Machine
end

