-- ==== Sys2Proof/Machine/Host.lean ====
section
/-!
DEFINITION. BAR0 as the host sees it (17 R465 to R467, 18 R482, R484, 19 R496): what an offset reads as, and what a write
to it does.
-/
namespace Sys2Proof.Machine

/-! ### Offsets -/

/-- The register of a page of context c that a host write stores with no further effect (R467). -/
def pageReg (c : CtxId) (off : Nat) : Option HostReg :=
  match off with
  | 0x058 => some (.cbase c)
  | 0x060 => some (.cdepth c)
  | 0x800 => some (.spawn c)
  | 0x808 => some (.priv c)
  | 0x818 => some (.xmask c)
  | 0x820 => some (.intctl c)
  | 0x828 => some (.markid c)
  | 0x840 => some (.ptroot c)
  | 0x848 => some (.fqbase c)
  | 0x850 => some (.fqdepth c)
  | 0x868 => some (.savepa c)
  | 0x870 => some (.savelen c)
  | 0x880 => some (.pdead c)
  | 0x898 => some (.wlimit c)
  | 0x8a0 => some (.wreport c)
  | 0x8a8 => some (.tvec c)
  | 0x8b0 => some (.evthr c)
  | _ => none

/-- The device register that a host write stores with no further effect (R466, R484, R496); the MSI-X table (R465). -/
def deviceReg (off : Nat) : Option HostReg :=
  if 0x4000 ≤ off && off < 0x4420 then some (.msixTable (Fin.ofNat 132 ((off - 0x4000) / 8)))
  else if 0x48 ≤ off && off < 0x108 then
    some (if (off - 0x48) % 16 = 0 then .pwbase (Fin.ofNat 12 ((off - 0x48) / 16)) else .pwsize (Fin.ofNat 12 ((off - 0x48) / 16)))
  else
    match off with
    | 0x020 => some .qage
    | 0x028 => some .issage
    | 0x030 => some .hostcap
    | 0x038 => some .xtimeout
    | 0x040 => some .hwbase
    | 0x218 => some .fwaddr
    | 0x330 => some .attaddr
    | 0x460 => some .pwrcap
    | 0x478 => some .tlimit
    | _ => none

/-- The context page that holds an offset, with the place in it (R465). -/
def ctxPage (off : Nat) : Option (CtxId × Nat) :=
  if 0x10000 ≤ off && off < 0x50000 then some (Fin.ofNat 64 ((off - 0x10000) / 4096), off % 4096) else none

/-! ### Reads -/

/-- Eight bytes of a page of context c (R467). -/
def State.pageRead (s : State) (c : CtxId) (off : Nat) : DWord :=
  let v (n : Nat) : DWord := s.sregValue c Thread.reset n 0
  match off with
  | 0x040 => v 0x100
  | 0x048 => v 0x101
  | 0x050 => v 0x102
  | 0x058 => v 0x103
  | 0x060 => v 0x104
  | 0x800 => v 0x105
  | 0x808 => v 0x106
  | 0x818 => (s.ctx c).port.xmask
  | 0x820 => (s.ctx c).port.intctl
  | 0x828 => (s.ctx c).port.markid.zeroExtend 64
  | 0x840 => (s.ctx c).port.ptroot
  | 0x848 => (s.ctx c).port.fqbase
  | 0x850 => (s.ctx c).port.fqdepth.zeroExtend 64
  | 0x858 => v 0x203
  | 0x860 => v 0x204
  | 0x868 => (s.ctx c).port.savepa
  | 0x870 => (s.ctx c).port.savelen
  | 0x878 => v 0x209
  | 0x880 => (s.ctx c).port.pdead.zeroExtend 64
  | 0x890 => s.pstat c
  | 0x898 => v 0x20d
  | 0x8a0 => v 0x20e
  | 0x8a8 => v 0x205
  | 0x8b0 => v 0x206
  | _ => 0

/-- A byte for each of a list, the first lowest. -/
def packBytes (bs : List Byte) : DWord := BitVec.ofNat 64 (natOfBytes bs)

/-- CAP_XOPS0 and CAP_XOPS1 (R466, R473). -/
def State.capXops (s : State) (hi : Bool) : DWord :=
  let peer (n : Nat) : Byte := s.opByte (.peer (Fin.ofNat 12 n))
  if hi then packBytes ((List.range 5).map fun m => peer (7 + m)) else packBytes (s.opByte .host :: (List.range 7).map peer)

/-- PWRSTAT (R496). -/
def State.pwrstat (s : State) : DWord :=
  packBytes ((List.finRange 4).map fun d => byteOf ((s.secure.pstate[d.val]).toNat + 16 * (s.secure.duty[d.val]).toNat))

/-- Eight bytes of the device registers (R466, R484, R496). -/
def State.deviceRead (s : State) (off : Nat) : DWord :=
  let q := s.secure
  let l := s.links
  if 0x48 ≤ off && off < 0x108 then
    let n : Fin 12 := Fin.ofNat 12 ((off - 0x48) / 16)
    if (off - 0x48) % 16 = 0 then l.pwbase[n.val] else l.pwsize[n.val]
  else if 0x240 ≤ off && off < 0x280 then
    let m := (s.service.pagemap[(Fin.ofNat 4 ((off - 0x240) / 16)).val]).toNat
    let d : Die := Fin.ofNat 4 ((off - 0x240) / 16)
    if s.service.unbooted[d.val] then 0 else BitVec.ofNat 64 (if off % 16 = 0 then m else m / 2 ^ 64)
  else if 0x340 ≤ off && off < 0x440 then
    (q.layKey[(Fin.ofNat 4 ((off - 0x340) / 64)).val])[(Fin.ofNat 8 ((off - 0x340) / 8)).val]
  else
    match off with
    | 0x000 => s.capAtomic
    | 0x008 => s.capUnits
    | 0x010 => s.capXops false
    | 0x018 => s.capXops true
    | 0x020 => s.qage.zeroExtend 64
    | 0x028 => s.issage.zeroExtend 64
    | 0x030 => l.hostcap.zeroExtend 64
    | 0x038 => l.xtimeout.zeroExtend 64
    | 0x040 => l.hwbase
    | 0x208 => s.service.rstat.zeroExtend 64
    | 0x218 => s.service.fwaddr
    | 0x220 => packBytes s.service.dstat.toList
    | 0x308 => q.bstat.zeroExtend 64
    | 0x310 => q.bringup.zeroExtend 64
    | 0x318 => Config.fuseId
    | 0x320 => packBytes q.fwsvn.toList
    | 0x330 => q.attaddr
    | 0x338 => q.attstat.zeroExtend 64
    | 0x440 => q.pxbase
    | 0x448 => q.pxsize
    | 0x458 => BitVec.ofNat 64 (q.markst.toNat + if q.kernel.isSome then 4 else 0)
    | 0x460 => q.pwrcap.zeroExtend 64
    | 0x468 => s.pwrstat
    | 0x470 => packBytes q.temp.toList
    | 0x478 => q.tlimit.zeroExtend 64
    | _ => 0

/-- Eight bytes of the fault log (R482). -/
def State.logRead (s : State) (off : Nat) : DWord :=
  match off with
  | 0x8000 => s.log.head.zeroExtend 64
  | 0x8008 => s.log.tail.zeroExtend 64
  | 0x8010 => s.log.lost.zeroExtend 64
  | _ =>
    if 0x8040 ≤ off then BitVec.ofNat 64 (natAt (s.log.entries[(Fin.ofNat 63 ((off - 0x8040) / 64)).val]) ((off - 0x8040) % 64) 8) else 0

/-- Eight bytes of BAR0 at an aligned offset; an offset without a register reads 0 (R465). -/
def State.bar0 (s : State) (off : Nat) : DWord :=
  match ctxPage off with
  | some (c, o) => s.pageRead c o
  | none =>
    if off < 0x1000 then s.deviceRead off
    else if 0x4000 ≤ off && off < 0x4420 then s.links.msixTable[(Fin.ofNat 132 ((off - 0x4000) / 8)).val]
    else if 0x5000 ≤ off && off < 0x5010 then BitVec.ofNat 64 (s.links.msixPending.toNat / 2 ^ (8 * (off - 0x5000)))
    else if 0x8000 ≤ off && off < 0x9000 then s.logRead off
    else 0

/-- Whether an access lies within the LAUNCH bytes of a context's page (R465). -/
def launchAccess (off n : Nat) : Option CtxId :=
  match ctxPage off with
  | some (c, o) => if o + n ≤ 32 then some c else none
  | none => none

/-- What a host read of BAR0 returns: zeros from LAUNCH, all ones for an access of another form (R465). -/
def State.bar0Read (s : State) (off n : Nat) : List Byte :=
  if (launchAccess off n).isSome then List.replicate n 0
  else if n = 8 && off % 8 = 0 then bytesOfNat 8 (s.bar0 off).toNat
  else List.replicate n 0xff

/-! ### Writes -/

/-- A write to a page of context c (R419, R443, R451, R467). -/
def State.pageWrite (s : State) (c : CtxId) (off : Nat) (v : DWord) : Res :=
  match pageReg c off with
  | some r => execRegisterWrite r v s
  | none =>
    match off with
    | 0x068 => execWakeWrite c s
    | 0x810 => execKillWrite c s
    | 0x860 => execFqtailWrite c (v.truncate 32) s
    | 0x888 => .next (if (s.ctx c).st = .free then s else (s.putPreq c (v.truncate 8)).getD s)
    | _ => .next s

/-- A write to the device registers, the fault log or the MSI-X table (R466, R482, R484, R496). -/
def State.deviceWrite (s : State) (off : Nat) (v : DWord) : Res :=
  match deviceReg off with
  | some r => execRegisterWrite r v s
  | none =>
    if 0x340 ≤ off && off < 0x440 then
      execProtectedKeyWrite (.layKey (Fin.ofNat 4 ((off - 0x340) / 64)) (Fin.ofNat 8 ((off - 0x340) / 8))) v s
    else
      match off with
      | 0x200 => execRetire (v.truncate 16) s
      | 0x210 => s.dieControl (v.truncate 8)
      | 0x300 => if v.toNat % 65536 = 0x7273 then execModuleReset s else .next s
      | 0x310 => execBringupWrite (v.truncate 8) s
      | 0x328 => execAttreq (v.truncate 8) s
      | 0x440 => execProtectedKeyWrite .pxBase v s
      | 0x448 => execProtectedKeyWrite .pxSize v s
      | 0x450 => execMarkload v s
      | 0x8008 => execFltailWrite (v.truncate 32) s
      | _ => .next s

/-- A host write to BAR0: LAUNCH takes any form, every other register aligned accesses of eight bytes (R465). -/
def State.bar0Write (s : State) (off : Nat) (bs : List Byte) : Res :=
  match launchAccess off bs.length with
  | some c => execLaunchWrite c (off % 4096) bs s
  | none =>
    if bs.length ≠ 8 || off % 8 ≠ 0 then .next s
    else
      match ctxPage off with
      | some (c, o) => s.pageWrite c o (packBytes bs)
      | none => s.deviceWrite off (packBytes bs)

end Sys2Proof.Machine
end

