-- ==== Sys2Proof/Machine/Outside.lean ====
section
/-!
DEFINITION. What the world outside does to memory of its own, which turns a module may take at all, and the default
turn of the schedule.
-/
namespace Sys2Proof.Machine

/-- The host writes its own memory. -/
def State.hostWrites (s : State) (a : Nat) (bs : List Byte) : State := { s with hostMem := writeBytes s.hostMem a bs }

/-- A peer's memory changes. -/
def State.peerWrites (s : State) (n : Fin 12) (a : Nat) (bs : List Byte) : State :=
  { s with peerMem := s.peerMem.set n.val (writeBytes s.peerMem[n.val] a bs) }

/-- Whether a tripped module takes a turn (R505): only BAR0 registers, the fault log and a module reset act. -/
def trippedTurn : Turn → Bool
  | .event .moduleReset | .event (.fltailWrite _) | .event (.registerWrite _ _) | .event (.tempSample _ _) => true
  | .bar0Write _ _ | .bar0Read _ _ | .hostWrite _ _ | .peerWrite _ _ _ => true
  | _ => false

/-- The context whose lays an event moves on: firing, splices, reels, exception moves, sweeps. -/
def movesLay : Instr → Option CtxId
  | .stationFire p | .exceptionRegisterEntry p | .exceptionNetworkDelivery p | .bightAdmit p | .spliceBcast p | .spliceSplitRr p
  | .spliceSplitHash p | .spliceMergeArr p | .spliceMergeRr p | .mergeSeqAccept p | .mergeSeqPass p | .fifoEnqueue p
  | .fifoDequeue p | .reconfigAdopt p => some p.ctx
  | .handlerRun c _ | .releaseRecordSend c _ _ _ | .quiescenceSweep c _ | .wedgeTimerExpiry c _ | .streamStart c _ _ _
  | .reelOperation c _ _ | .writeSideAccept c _ _ _ | .gatherIndexAccept c _ _ _ | .fibSkipApply c _ _ _ | .streamEnd c _ _ _
  | .streamStopPoint c _ _ _ | .roleChangePoint c _ | .injectRecordLeaves c _ | .sbarPassed c _ _ => some c
  | _ => none

/-- The context whose work under way an event completes: departures, links, tokens, releases. -/
def settlesLay : Instr → Option CtxId
  | .recordDeparture p _ | .tokenEntryRetire p _ => some p.ctx
  | .linkDelivery c _ _ | .slotReturn c _ _ | .channelAdvance c _ _ | .cleatRelease c _ _ _ => some c
  | _ => none

/-- Whether an event goes on with what it has begun: a write of the device's own (R312), or a stream's write, which is
performed before the engine saves (R326). -/
def State.goesOn (s : State) (e : Instr) : Bool :=
  s.jobs.any (fun j => j.ev == e) || match e with
    | .reelOperation c l pg => match (s.lay? c l).bind fun x => x.reel? pg.val with
      | some r => r.streams.toList.any Stream.midWrite
      | none => false
    | _ => false

/-- Whether a stop bars a turn: once a drain is over only what is under way goes on, and in a stopped context that the
engine does not save nothing does. -/
def State.stopBars (s : State) (t : Turn) : Bool :=
  let still (c : CtxId) : Bool := (s.ctx c).st == .stopped && (s.ctx c).preempt.isNone
  match t with
  | .station p n =>
    let done := match s.station? p with | some st => st.frames.any fun f => f.id == n && f.atomDone | none => false
    still p.ctx || ((s.ctx p.ctx).frozen && !done)
  | .event e =>
    (match movesLay e with | some c => (s.ctx c).frozen && !(s.goesOn e) | none => false)
      || match settlesLay e with | some c => still c | none => false
  | _ => false

/-- Whether the module takes a turn. -/
def State.allowed (s : State) (t : Turn) : Bool := (!s.secure.tripped || trippedTurn t) && !(s.stopBars t)

/-- The state after an event, where it acts on the requests. -/
def State.movedReqs (s : State) : Res → Option State
  | .next s1 => if s1.reqs = s.reqs then none else some s1
  | _ => none

/-- The next step of a request (R315): it is translated, reaches its bank, HBM or portal and is performed, with no error
met on the way, and its reply arrives; none where it waits for something else. -/
def State.requestGoes (s : State) (r : Nat) : Option State :=
  [execTranslationWalkDone r s, execTranslationRetryResend r s, execNearRequestArrival r s, execBankOperationStart r .clean s,
    execLdpWake r s, execPresenceRetryResend r s, execHbmRequest r .clean s, execPortalRequest r s, execMarkStageWrite r s,
    execReplyArrival r .ok s, execPostedWriteFlush r s].findSome? s.movedReqs

/-- The turn of a request. -/
def State.requestStep (s : State) (r : Nat) : Res := .next ((s.requestGoes r).getD s)

/-- Whether what a thread's instruction stands for is over (R380). -/
def State.standOver (s : State) (c : CtxId) (t : Tid) : Bool :=
  let th := s.thread c t
  match th.wait with
  | .stand .accesses => !(s.threadPending c t)
  | .stand .units => s.upkeep.repairing.isEmpty && match th.fibreReel c with | some u => s.waitFree u | none => true
  | .stand .slot => match th.slot? with | some l => !(s.slotHeld c t l) | none => true
  | .stand .swap => match th.slot?.bind (s.lay? c) with | some x => !x.inSwap | none => true
  | .stand .yield =>
    let x := s.ctx c
    if x.st ≠ .running then true
    else if x.yielding then (match s.job? (.saveEngineDone c) 1 with | some j => !(s.jobBusy j) | none => true)
    else !(s.yieldWaits c t)
  | _ => false

/-- A thread whose stalled instruction can be performed now. -/
def State.standsOver (s : State) : Option (CtxId × Tid) :=
  (List.finRange 64).findSome? fun c => ((List.finRange 8).find? fun t => s.standOver c t).map fun t => (c, t)

/-- Whether a write of the device's own can go on now (R315). -/
def State.jobGoes (s : State) (j : DevJob) : Bool :=
  !(s.jobBusy j) && match j.ev with
    | .teardown c => decide (s.dispatched ≤ 1 + c.val)
    | .saveEngineDone _ => j.part == 0
    | _ => true

/-- A reel with an operation under way that can go on: each access that it has issued is performed (R315). -/
def State.reelGoes (s : State) : Option Instr :=
  (List.finRange 64).findSome? fun c => (s.laysOf c).findSome? fun y => (List.range y.2.npages).findSome? fun pg =>
    match y.2.reel? pg with
    | none => none
    | some r =>
      let pid : Pid := Fin.ofNat 64 pg
      let goes (n : Fin 4) : Bool := (r.streams[n.val]).issued && s.eligibleSlot c y.1 y.2 pid n r.streams[n.val]
      if (match r.mid with | some n => goes n | none => r.opAt != s.cyc + 1 && (List.finRange 4).any goes) then some (.reelOperation c y.1 pid)
      else none

/-- The turn of an empty schedule: an instruction that stands and can go on is performed, then a request that can go
on takes its next step (R315), then a write of the device's own and a stream's operation under way go on, then an access
from outside takes its next unit (R476), and a repair ends (R486); then the lowest die that has a ready thread and has not
issued in this cycle issues; otherwise a cycle passes (entry 11). -/
def State.defaultTurn (s : State) : Turn :=
  match s.standsOver with
  | some (c, t) => .resume c t
  | none =>
    match s.reqs.find? fun q => (s.requestGoes q.id).isSome with
    | some q => .request q.id
    | none =>
    match (s.jobs.find? s.jobGoes).map DevJob.ev <|> s.reelGoes with
    | some e => .event e
    | none =>
      match (List.range s.outside.length).find? fun n => (s.outsideStep n).outside != s.outside with
      | some n => .outside n
      | none =>
        match s.upkeep.repairing with
        | (row, _) :: _ => .repaired row
        | [] => match (List.finRange 4).find? fun d => !s.issued[d.val] && (s.select d).isSome with | some d => .issue d | none => .tick

end Sys2Proof.Machine
end

