-- ==== Sys2Proof/Machine/Step.lean ====
section
/-!
DEFINITION. One step of the module: the turn at the head of the schedule, or the default turn where it is empty.
-/
namespace Sys2Proof.Machine

/-- The state after an instruction's or event's own effect: the execution in hand goes back to its station. -/
def finish (r : Res) : Res :=
  match r with
  | .next s => .next s.settle
  | .fault e => .fault e
  | .refused e => .refused e

/-- One turn. -/
def runTurn (t : Turn) (s : State) : Res :=
  match t with
  | .tick => .next s.tick
  | .half => .next { s with half := true }
  | .issue d =>
    match s.issueOn d with
    | .idle => .next s
    | .trapped s' => .next s'
    | .instr i s' => finish (exec i s')
  | .resume c t =>
    match s.resumeOn c t with
    | some (i, s') => finish (exec i s')
    | none => .next s
  | .outside n => .next (s.outsideStep n)
  | .repaired row => execHbmRowRepairDone row s
  | .request r => finish ({ s with cur := .device }.requestStep r)
  | .flaw a bad => .next { s with upkeep := { s.upkeep with flaws := s.upkeep.flaws ++ [(a, bad)] } }
  | .bankFlaw p o bad => .next { s with upkeep := { s.upkeep with bankFlaws := s.upkeep.bankFlaws ++ [(p, o, bad)] } }
  | .station p n =>
    match s.takeTurn p n with
    | some (i, s') => finish (exec i s')
    | none => .next s
  | .event e => finish (exec e { s with cur := .device })
  | .bar0Write off bs => finish ({ s with cur := .device }.bar0Write off bs)
  | .bar0Read off n => .next (s.answer (some (s.bar0Read off n)))
  | .hostWrite a bs => .next (s.hostWrites a bs)
  | .peerWrite n a bs => .next (s.peerWrites n a bs)

/-- One step: the turn at the head of the schedule is taken, or the default turn (R381; log entry 11). A tripped
module takes only the turns of R505. -/
def step (s : State) : Res :=
  match s.sched with
  | t :: rest => if s.allowed t then runTurn t { s with sched := rest } else .next { s with sched := rest }
  | [] => if s.allowed s.defaultTurn then runTurn s.defaultTurn s else .next s

/-- s with an instruction's word placed so that step fetches and runs it next (log entry 13). -/
def State.withFetchWord (s : State) (_nbits w : Nat) : State := loadWord s w

end Sys2Proof.Machine
end

