-- ==== Sys2Proof/Safety.lean ====
section
/-!
DEFINITION. What the statements are made of: memories in canonical form, a step that completes, and what an
instruction of each shape may change at most.
-/
namespace Sys2Proof.Machine

/-- The memories of the module are in canonical form and its poison marks rise (R479). -/
def State.memOk (s : State) : Bool :=
  memWf s.hbm && memWf s.hostMem && s.peerMem.toList.all memWf && risingFrom 0 s.hbmPoison

/-- A step that neither faults nor is turned away. -/
def StepsSafely (s : State) : Prop := ∃ t, step s = .next t

/-! ### What may differ between two states -/

/-- Nothing differs outside one thread: not another context, not what the context holds beside its threads, not its
other threads, and nothing that no context holds, memory included. -/
def SameButThread (s t : State) (c : CtxId) (x : Tid) : Prop :=
  { t with ctxs := s.ctxs } = s ∧ (∀ k, k ≠ c → t.ctx k = s.ctx k) ∧
  { t.ctx c with threads := (s.ctx c).threads } = s.ctx c ∧ ∀ y, y ≠ x → t.thread c y = s.thread c y

/-- A thread that has written at most the destination d, and predicates where preds says so, and gone on (R59, R309):
its other registers stand. Where no active loop ends at its pc, its loops stand and its pc is eight on. -/
def WroteAndWentOn (x y : Thread) (d : Spec) (preds : Bool) : Prop :=
  (∀ n : Fin 32, n.val ≠ d.toNat → y.getS n = x.getS n) ∧
  (preds = false → d ≠ 0x28 → y.p = x.p) ∧
  (y.epc = x.epc ∧ y.tcause = x.tcause ∧ y.tval = x.tval ∧ y.inTrap = x.inTrap ∧ y.halted = x.halted ∧ y.age = x.age ∧
    y.pos = x.pos) ∧
  (loopsEndingAt x x.pc = [] →
    y.pc = x.pc + 8 ∧ y.loops = x.loops ∧ ∀ n : Fin 4, 0x24 + n.val ≠ d.toNat → y.lc[n.val] = x.lc[n.val])

/-- Nothing differs outside the segment execution in hand but the count of free values: no memory, no register of a
context, no station. -/
def SameButExec (s t : State) : Prop := { t with cur := s.cur, free := s.free } = s

/-- An execution that has written at most the destination specifiers ds, the predicates where preds says so, and gone on
to its next instruction: its record, k and kv registers stand elsewhere, the header but for its poison tag (R28), and
what it holds buffered. -/
def ExecWroteAndWentOn (f h : Frame) (g : Nat) (ds : List Spec) (preds : Bool) : Prop :=
  h.ip = f.ip + 1 ∧ (preds = false → h.q = f.q) ∧
  (∀ n : Fin 16, (∀ d ∈ ds, 16 ≤ d.toNat ∨ n.val < d.toNat ∨ d.toNat + g ≤ n.val) → h.r.pay[n.val] = f.r.pay[n.val]) ∧
  (∀ n : Fin 12, (∀ d ∈ ds, d.toNat < 16 ∨ 28 ≤ d.toNat ∨ 16 + n.val < d.toNat ∨ d.toNat + g ≤ 16 + n.val) → h.k[n.val] = f.k[n.val]) ∧
  (∀ n : Fin 4, (∀ d ∈ ds, d.toNat ≠ 28 + n.val) → h.kv[n.val] = f.kv[n.val]) ∧
  { h.r.hdr with fmt := f.r.hdr.fmt } = f.r.hdr ∧ h.r.past = f.r.past ∧ h.orig = f.orig ∧ h.mx = f.mx ∧ h.st = f.st ∧
  h.stores = f.stores ∧ h.ties = f.ties ∧ h.skips = f.skips

/-- What a lane computation at a station leaves (R54, R57, R65): the sources read together before the destination group
of g words is written with lanes of w bits, the LFSR and the free values as the result says, the record tagged poison
where it says so. -/
def State.lanesDone (s : State) (p : Place) (f : Frame) (srcs : List (Src × Option Fmt)) (d : Spec) (w g : Nat)
    (res : List (List Nat) → Run → LaneOut) : State :=
  let (ls, r) := (s.run p f).readAll srcs
  let out := res ls r
  s.nextIp p { r with f := ({ r.f with lfsr := out.lfsr }.putLanes d w g out.lanes).poisonIf out.poison, free := out.free }

end Sys2Proof.Machine
end

