-- ==== Sys2Proof/WellFormed.lean ====
section
/-!
DEFINITION. Well-formed instructions: those that some site of the module accepts (03 R82, R93).
-/
namespace Sys2Proof

/-- Whether an instruction is valid at a site: it has no defect there (R93). -/
def validAt (k : Machine.Site) (i : Instr) : Bool := Machine.defectCause k i == none

/-- Whether an instruction is valid somewhere. An event of the device has no encoding, and its operands are bounded by
their types. -/
def wellFormed (i : Instr) : Bool := (Machine.sitesOf i).isEmpty || (Machine.sitesOf i).any fun k => validAt k i

end Sys2Proof
end

