-- ==== Sys2Proof/Certificates/Slice0/Obligations.lean ====
section
/-!
DEFINITION. The statements for the provers: encodings, what a step does, invariants and frames, and for every
instruction and every event of the device the next state that it answers.
-/

open Sys2Proof Sys2Proof.Machine

/-! ### Encodings, steps, traps and branches -/

/-- Words put together from the bit maps of R67 to R80 decode to the instructions they stand for: one a format and more. -/
def Obligations.WordsDecode : Prop :=
  decodeWord 0x2000801d01640000 = .ok (.fadd ⟨0, 8, 0, 0x1d, 0, 1, 3, 2, false, 0, false, 0, false⟩) ∧
  decodeWord 0x600440006a000040 = .ok (.ld ⟨1, 4, 0, 0, 3, 1, 2, 0, 0x40⟩) ∧
  decodeWord 0xb0443000fffffffd = .ok (.brc ⟨1, 3, 0, false, 0, 0xfffffffd⟩) ∧
  decodeWord 0xa000204020000000 = .ok (.layLoad ⟨0, 2, 1, 0, 1, 0, 0, 0⟩) ∧
  decodeWord 0xa200310520000000 = .ok (.passArm ⟨0, 3, 4, 5, 1, 0, 0, 0⟩) ∧
  decodeWord 0xa240600020000000 = .ok (.passWait ⟨0, 6, 0, 0, 1, 0, 0, 0⟩) ∧
  decodeWord 0x944000c000400000 = .ok (.fibSkip ⟨0, 0, 3, 0, 0, 0, 1, 0, 0, 0⟩) ∧
  decodeWord 0xc04000c000000000 = .ok (.ctxExit ⟨0, 0, 3, 0, 0, 0⟩) ∧
  decodeWord 0 = .ok (.add ⟨0, 0, 0, 0, 0, 0, 0, 0, false, 0, false, 0, false⟩) ∧ decodeWord 0x00c0000000000001 = .error .reservedBits ∧
  decodeWord 0xffc0000000000000 = .error .unassignedOpcode

/-- Decoding the word of an instruction gives the instruction, at every value of every field (R63 to R91). -/
def Claims.DecodeOfEncode : Prop := ∀ (i : Instr) (w : DWord), encode i = some w → decodeWord w = .ok i

/-- A word that decodes is the word of the instruction it decodes to: no bit of it is dropped (R63 to R92). -/
def Claims.EncodeOfDecode : Prop := ∀ (i : Instr) (w : DWord), decodeWord w = .ok i → encode i = some w

/-- Decoding the word of an instruction gives it back, and a word that decodes is the word of its instruction. -/
def Obligations.EncodingRoundTrip : Prop :=
  Claims.DecodeOfEncode ∧ Claims.EncodeOfDecode

/-- A die whose selector takes a thread of no due event trap, whose fetch gives a word that decodes to an instruction
valid in sequencer code, runs that instruction in that thread (R94, R381): the step is its meaning, and then the
execution in hand is put back; the thread keeps the word, and an instruction that stands runs again from it in a turn of
its own (R380). So does a step whose schedule is empty, by the default turn (the schedule and its default are the model's
own choice, log entry 11). A station's turn runs the execution's next instruction (R48), and an event's
turn is the event's meaning. -/
def Obligations.StepRunsTheInstruction : Prop :=
  (∀ (s s2 : State) (d : Die) (rest : List Turn) (c : CtxId) (t : Tid) (w : DWord) (i : Instr),
    let s0 := { s with sched := rest }
    let s1 := s0.noteIssue d c t
    (s.sched = .issue d :: rest ∨ (s.sched = [] ∧ rest = [] ∧ s.defaultTurn = .issue d)) →
    s.allowed (.issue d) = true → s.issued[d.val] = false → s0.select d = some (c, t) →
    (s1.ctx c).eventTrapDue t = false →
    s1.fetch c (s1.thread c t).pc = (.ok w, s2) →
    decodeWord w = .ok i → validAt .seq i = true →
    (isBranch i = false ∨ loopsEndingAt (s1.thread c t) (s1.thread c t).pc = []) →
    step s = finish (exec i { s2.modThread c t (fun th => { th with word := w }) with cur := .thread c t })) ∧
  (∀ (s : State) (c : CtxId) (t : Tid) (rest : List Turn) (k : Stand) (i : Instr),
    (s.sched = .resume c t :: rest ∨ (s.sched = [] ∧ rest = [] ∧ s.defaultTurn = .resume c t)) →
    s.allowed (.resume c t) = true → (s.thread c t).wait = .stand k → decodeWord (s.thread c t).word = .ok i →
    step s = finish (exec i { ({ s with sched := rest }.modThread c t fun th => { th with wait := .none, woke := true }) with
      cur := .thread c t })) ∧
  (∀ (s s1 : State) (p : Place) (n : Nat) (rest : List Turn) (i : Instr),
    s.sched = .station p n :: rest → s.allowed (.station p n) = true →
    { s with sched := rest }.takeTurn p n = some (i, s1) → step s = finish (exec i s1)) ∧
  (∀ (s : State) (rest : List Turn) (e : Instr),
    s.sched = .event e :: rest → s.allowed (.event e) = true →
    step s = finish (exec e { s with sched := rest, cur := .device }))

/-- What the spec gives for reset (R501, with R364, R377, R381, R431, R466, R482, R489, R503, R505): bring-up phase 1,
cycle 0, every context free without privilege, no request, translation or log entry, every die serving. -/
def Claims.ResetState : Prop :=
  let s := State.reset
  s.cyc = 0 ∧ s.secure.bstat = 1 ∧ s.qage = 0x100000 ∧ s.issage = 256 ∧
  (∀ c, (s.ctx c).st = .free ∧ (s.ctx c).port.priv = 0 ∧ (s.ctx c).port.hseq = 0 ∧ (s.ctx c).port.dseq = 0 ∧ (s.ctx c).port.pdead = 40000) ∧
  s.reqs = [] ∧ s.tlb = [] ∧ s.dir = [] ∧ s.log.head = 0 ∧ s.log.tail = 0 ∧
  (∀ d : Die, s.service.dstat[d.val] = 0 ∧ s.secure.pstate[d.val] = 0) ∧ s.links.xtimeout = 10000 ∧
  s.secure.tlimit = 95 ∧ s.secure.pwrcap = 3600 ∧ s.secure.tripped = false ∧ s.secure.markst = 0

/-- Memory at reset is in canonical form: the start of the invariant of MemoryStaysCanonical. -/
def Claims.ResetMemoryCanonical : Prop := State.reset.memOk = true

/-- What the module holds after reset, with its memory in canonical form. -/
def Obligations.ResetHolds : Prop :=
  Claims.ResetState ∧ Claims.ResetMemoryCanonical

/-- Every step keeps the memories of the module in canonical form: cells at rising addresses, none of value 0, which is
what an unlisted byte reads as (the model's own choice, log entry 3). -/
def Obligations.MemoryStaysCanonical : Prop := ∀ s t : State, s.memOk = true → step s = .next t → t.memOk = true

/-- Every instruction and every event of the device answers a next state in every state, and so does every step: the
model neither faults nor refuses. A turn whose conditions do not hold changes nothing (the model's own choice, log
entry 14). -/
def Obligations.EveryStepAnswers : Prop := (∀ (i : Instr) (s : State), ∃ t, exec i s = .next t) ∧ ∀ s : State, StepsSafely s

/-- A tripped module (R505) in which every context is free, as the trip leaves it, stays so: no step starts a context or
writes the module's memory, no thread's registers change, and a step that ends the trip is a module reset (from a write of
RESET or as an event of its own), made where every temperature is below TLIMIT: it leaves what exec of moduleReset gives. -/
def Obligations.TrippedStaysIdle : Prop :=
  ∀ s t : State, s.secure.tripped = true → (∀ c, (s.ctx c).st = .free) → step s = .next t →
    (∀ c, (t.ctx c).st = .free) ∧ t.hbm = s.hbm ∧
    (t.secure.tripped = true → ∀ c, (t.ctx c).threads = (s.ctx c).threads) ∧
    (t.secure.tripped = false → s.mayReset = true ∧ ∃ rest,
      exec .moduleReset { s with sched := rest, cur := .device } = .next t)

/-- Taking a trap (R415): with a vector and outside a trap, EPC, TCAUSE and TVAL are saved, the in-trap flag is set, the
pc goes to TVEC, and nothing else differs but that the thread no longer stalls or halts. Without a vector, or inside a
trap, a queued, running or stopped context enters its teardown as a kill of thread 0xff and value 0, and a save under way
is given up. -/
def Claims.TakeTrap : Prop :=
  ∀ (s : State) (c : CtxId) (t : Tid) (epc cause val : DWord),
    ((s.ctx c).tvec ≠ 0 → (s.thread c t).inTrap = false →
      let u := s.takeTrap c t epc cause val
      u.thread c t = { (s.thread c t).ended with epc := epc, tcause := cause, tval := val, inTrap := true, pc := (s.ctx c).tvec,
                                                 halted := false } ∧
      SameButThread s u c t) ∧
    ((s.ctx c).tvec = 0 ∨ (s.thread c t).inTrap = true → (s.ctx c).st ≠ .free → (s.ctx c).st ≠ .ending →
      let u := s.takeTrap c t epc cause val
      u.ctx c = { s.ctx c with st := .ending, endInfo := some ⟨true, 0xff, 0, s.cyc⟩, queuedAt := none, preempt := none,
                               yielding := false } ∧
      (∀ k, k ≠ c → u.ctx k = s.ctx k) ∧ { u with ctxs := s.ctxs, jobs := s.jobs } = s ∧
      u.jobs = s.jobs.filter fun j => j.ev != .saveEngineDone c)

/-- eret (R439): in a trap, pc := EPC, the flag is cleared and nothing else differs; outside one it is an
illegal-instruction trap with TVAL its word. A syswr of EPC stores bits [2:0] zero. -/
def Claims.EretInstruction : Prop :=
  ∀ (s : State) (c : CtxId) (t : Tid) (o z : ZForm), s.cur = .thread c t →
    ((s.thread c t).inTrap = true → ∃ u, exec (.eret o) s = .next u ∧
      u.thread c t = { s.thread c t with pc := (s.thread c t).epc, inTrap := false } ∧ SameButThread s u c t) ∧
    ((s.thread c t).inTrap = false → ∀ w, encode (.eret o) = some w →
      exec (.eret o) s = .next (s.takeTrap c t (s.thread c t).pc 1 w)) ∧
    (z.sreg = 0x300 → z.mod = 0 → (s.ctx c).st = .running → ∃ u, exec (.syswr z) s = .next u ∧
      (u.thread c t).epc = s.readT c t z.a &&& ~~~7)

/-- Taking a trap saves EPC, TCAUSE and TVAL and enters TVEC or kills the context; eret returns. -/
def Obligations.TrapEntryAndReturn : Prop :=
  Claims.TakeTrap ∧ Claims.EretInstruction

/-- trap n (R438): the thread goes on first and traps then, with TCAUSE[7:0] = 0x0a, TCAUSE[31:16] = n, TVAL = 0 and EPC
the pc it went on to, which the loop step gives where an active loop ends; eret returns there. With TVEC = 0, or in a
handler, the context is ended as a kill. -/
def Obligations.TrapInstruction : Prop :=
  ∀ (s : State) (c : CtxId) (t : Tid) (o z : ZForm), s.cur = .thread c t →
    let u := s.advance c t
    (loopsEndingAt (s.thread c t) (s.thread c t).pc = [] → (u.thread c t).pc = (s.thread c t).pc + 8) ∧
    ((s.ctx c).tvec ≠ 0 → (s.thread c t).inTrap = false → ∃ v w, exec (.trap o) s = .next v ∧
      v.thread c t = { u.thread c t with epc := (u.thread c t).pc, tcause := BitVec.ofNat 64 (0x0a + o.imm16.toNat * 2 ^ 16), tval := 0,
                                         inTrap := true, pc := (s.ctx c).tvec, halted := false } ∧ (v.thread c t).wait = .none ∧
      SameButThread s v c t ∧
      exec (.eret z) v = .next w ∧ (w.thread c t).pc = (u.thread c t).pc ∧ (w.thread c t).inTrap = false) ∧
    ((s.ctx c).tvec = 0 ∨ (s.thread c t).inTrap = true → exec (.trap o) s = .next (u.beginKill c))

/-- The status word (R60): fev in [7:0], the slots of resident lays in [15:8], prq in [16], wdg in [17], zero above; a
sequencer source 0x23 reads it, and no destination writes it. -/
def Obligations.StatusWord : Prop :=
  ∀ (s : State) (c : CtxId) (t : Tid),
    let w := s.readT c t 0x23
    (w.extractLsb' 0 8).toNat = min 255 ((s.ctx c).heldEvents.length + ((s.ctx c).fqhead - (s.ctx c).fqtail).toNat) ∧
    (∀ n : LaySlot, w.getLsbD (8 + n.val) = true ↔ ∃ x, s.lay? c n = some x ∧ x.loading = false) ∧
    (w.getLsbD 16 = (s.ctx c).prq) ∧
    (w.getLsbD 17 = true ↔ ∃ (n : LaySlot) (x : Lay), s.lay? c n = some x ∧ x.wedged = true) ∧
    (∀ k, 18 ≤ k → w.getLsbD k = false) ∧
    ∀ v, (s.thread c t).write 0x23 v = s.thread c t

/-- brc (R79, R307): taken exactly where the signed 64-bit value of a compares with zero as its modifier says, 0 .eq,
1 .ne, 2 .lt, 3 .ge, 4 .le, 5 .gt, and its predicate lets it; it goes on otherwise. The modifiers 6 to 15 are reserved, and
every other branch carries modifier 0: such words are invalid. -/
def Obligations.ConditionalBranch : Prop :=
  (∀ (s : State) (c : CtxId) (t : Tid) (o : JForm), s.cur = .thread c t → o.mod.toNat < 6 →
    let v := (s.readT c t o.a).toInt
    let compares : Prop := match o.mod.toNat with
      | 0 => v = 0 | 1 => v ≠ 0 | 2 => v < 0 | 3 => 0 ≤ v | 4 => v ≤ 0 | _ => 0 < v
    let lets := (s.thread c t).getP o.pi != o.pn
    (compares → lets = true → exec (.brc o) s = .next (takeOffset o s c t) ∧
      ((takeOffset o s c t).thread c t).pc = (s.thread c t).pc + 8 * o.off.signExtend 64) ∧
    (¬ compares ∨ lets = false → exec (.brc o) s = .next (s.advance c t))) ∧
  (∀ (o : JForm) (x : Site), 6 ≤ o.mod.toNat → validAt x (.brc o) = false) ∧
  (∀ (o : JForm) (x : Site), o.mod ≠ 0 → ∀ i ∈ [Instr.br o, .jmp o, .call o, .ret o, .loop o], validAt x i = false)

/-- The branches in a thread (R78, R307, R308): where the predicate holds, br goes to pc + 8 × off, call writes pc + 8 to
its register and goes there, jmp goes to a + 8 × off and ret to a where that is aligned, and traps with cause 2 and that
address where it is not; where it fails they go on. loop with no overlap sets its counter and entry and enters the body,
or with a count of 0 passes over it. -/
def Claims.Branches : Prop :=
  ∀ (s : State) (c : CtxId) (t : Tid) (o : JForm), s.cur = .thread c t →
    let th := s.thread c t
    let ok := th.getP o.pi != o.pn
    let near := th.pc + 8 * o.off.signExtend 64
    let far := s.readT c t o.a + 8 * o.off.signExtend 64
    let back := s.readT c t o.a
    (ok = false → exec (.br o) s = .next (s.advance c t) ∧ exec (.jmp o) s = .next (s.advance c t) ∧
      exec (.call o) s = .next (s.advance c t) ∧ exec (.ret o) s = .next (s.advance c t)) ∧
    (ok = true →
      (∃ u, exec (.br o) s = .next u ∧ (u.thread c t).pc = near ∧ (u.thread c t).s = th.s ∧ SameButThread s u c t) ∧
      (∃ u, exec (.call o) s = .next u ∧ (u.thread c t).pc = near ∧
        (∀ n : Fin 32, o.a.toNat = n.val → n ≠ 0 → (u.thread c t).getS n = th.pc + 8) ∧
        (∀ n : Fin 32, o.a.toNat ≠ n.val → (u.thread c t).getS n = th.getS n) ∧ SameButThread s u c t) ∧
      (far.toNat % 8 = 0 → ∃ u, exec (.jmp o) s = .next u ∧ (u.thread c t).pc = far ∧ (u.thread c t).s = th.s ∧ SameButThread s u c t) ∧
      (far.toNat % 8 ≠ 0 → exec (.jmp o) s = .next (s.takeTrap c t th.pc 2 far)) ∧
      (back.toNat % 8 = 0 → ∃ u, exec (.ret o) s = .next u ∧ (u.thread c t).pc = back ∧ (u.thread c t).s = th.s ∧ SameButThread s u c t) ∧
      (back.toNat % 8 ≠ 0 → exec (.ret o) s = .next (s.takeTrap c t th.pc 2 back))) ∧
    ((∀ n : Fin 4, (th.loops[n.val]).active = false) →
      let v : Word := back.truncate 32
      ∃ u, exec (.loop o) s = .next u ∧ (u.thread c t).lc[o.lc.toNat]? = some v ∧
        (u.thread c t).loops[o.lc.toNat]? = some ⟨v != 0, th.pc + 8, near⟩ ∧
        (u.thread c t).pc = (if v = 0 then near + 8 else th.pc + 8) ∧ SameButThread s u c t)

/-- The loop step (R309) at the end of one active loop: while more than one round is left the counter falls by one and the
pc goes back to the body's start; at the last the counter is 0, the loop inactive and the pc eight on. Nothing else
differs but what a completed instruction clears. -/
def Claims.LoopStep : Prop :=
  ∀ (th : Thread) (n : Fin 4) (l : LoopEnt), th.loops[n.val] = l → l.active = true → l.e = th.pc →
    (∀ m : Fin 4, m ≠ n → (th.loops[m.val]).active = false ∨ (th.loops[m.val]).e ≠ th.pc) →
    let v := th.lc[n.val]
    (2 ≤ v.toNat → th.advance = { th.ended with lc := th.lc.set n.val (v - 1), pc := l.s }) ∧
    (v.toNat < 2 → th.advance = { th.ended with lc := th.lc.set n.val 0, loops := th.loops.set n.val { l with active := false },
                                                pc := th.pc + 8 })

/-- br, jmp, call, ret and loop go where the rules say, and the loop step counts a body's rounds. -/
def Obligations.BranchesAndLoops : Prop :=
  Claims.Branches ∧ Claims.LoopStep

/-! ### Integer arithmetic and the operands of a station -/

/-- The lane instructions of a thread, by the fields of format L. -/
def Claims.threadLane : List (LForm → Instr) :=
  [Instr.add, .sub, .mul, .mulh, .mad, .div, .rem, .addc, .and, .or, .xor, .andn, .not, .shl, .shr, .sar, .rol, .ror,
    .clz, .ctz, .popc, .brev, .min, .max, .abs, .neg, .sel, .cmp, .lea, .mov, .bfx, .bfi, .byteperm, .hash, .cvti]

/-- The lane instructions of a segment, by the fields of format L. -/
def Claims.segmentLane : List (LForm → Instr) :=
  [Instr.add, .sub, .mul, .mulh, .mad, .div, .rem, .addc, .and, .or, .xor, .andn, .not, .shl, .shr, .sar, .rol, .ror,
    .clz, .ctz, .popc, .brev, .min, .max, .abs, .neg, .sel, .cmp, .lea, .mov, .bfx, .bfi, .byteperm, .hash, .cvti,
    .fadd, .fsub, .fmul, .fma, .fnma, .fmin, .fmax, .fabs, .fneg, .fcmp, .fcvt, .frnd, .fscale, .frcp, .frsq, .fsqrt,
    .fexp2, .flog2, .ftanh, .i2f, .f2i, .fqnt, .fdq, .fred, .fdot, .smxUpd, .smxMerge, .perm, .shuf, .bcast, .rot, .zip,
    .unzip, .pack, .unpack, .cmpr, .expd, .lmask, .lsel, .movw, .swap]

/-- Predication (R68): with pe set, where the predicate pi, exclusive-or pn, is 0 the instruction has no effect at all: a
thread goes on to its next instruction, and a station's execution too, with no destination written, no draw taken and no
fault; where it is 1 the instruction does what it does unpredicated. With pe clear and pi or pn set a word is invalid,
whatever a predicate holds, for no check reads one. -/
def Obligations.Predication : Prop :=
  (∀ (s : State) (c : CtxId) (t : Tid) (o : LForm), s.cur = .thread c t → o.pe = true → ∀ k ∈ Claims.threadLane,
    ((s.thread c t).getP o.pi != o.pn) = false → exec (k o) s = .next (s.advance c t)) ∧
  (∀ (s : State) (c : CtxId) (t : Tid) (o : LForm), s.cur = .thread c t → o.pe = true → ∀ k ∈ Claims.threadLane,
    ((s.thread c t).getP o.pi != o.pn) = true → exec (k o) s = exec (k { o with pe := false, pi := 0, pn := false }) s) ∧
  (∀ (s : State) (p : Place) (f : Frame) (o : LForm), s.cur = .station p f → o.pe = true → ∀ k ∈ Claims.segmentLane,
    ((f.getQ o.pi != o.pn) = false → exec (k o) s = .next { s with cur := .station p { f with ip := f.ip + 1 } }) ∧
    ((f.getQ o.pi != o.pn) = true → exec (k o) s = exec (k { o with pe := false, pi := 0, pn := false }) s)) ∧
  (∀ (s : State) (p : Place) (f : Frame) (o : KForm), s.cur = .station p f → o.pe = true →
    ∀ k ∈ [Instr.tag, .setcls, .setlen, .setfmt, .setck, .setscale, .raise],
      ((f.getQ o.pi != o.pn) = false → exec (k o) s = .next { s with cur := .station p { f with ip := f.ip + 1 } }) ∧
      ((f.getQ o.pi != o.pn) = true → exec (k o) s = exec (k { o with pe := false, pi := 0, pn := false }) s)) ∧
  (∀ (o : LForm) (x : Site), o.pe = false → (o.pi ≠ 0 ∨ o.pn = true) → ∀ k ∈ Claims.segmentLane, validAt x (k o) = false) ∧
  (∀ (o : KForm) (x : Site), o.pe = false → (o.pi ≠ 0 ∨ o.pn = true) →
    ∀ k ∈ [Instr.tag, .setcls, .setlen, .setfmt, .setck, .setscale, .raise], validAt x (k o) = false)

/-- The integer instructions in a thread (R110, R115 to R118): where the predicate holds, a thread writes to d, of the
64-bit values of a, b and c, the wrapped, saturated or other result that the rules give, and goes on. -/
def Claims.ThreadInteger : Prop :=
  ∀ (s : State) (c : CtxId) (t : Tid) (o : LForm), s.cur = .thread c t → (s.thread c t).predOk o.pe o.pi o.pn = true →
    let a := s.readT c t o.a
    let b := s.readT c t o.b
    let k := s.readT c t o.c
    let done (v : DWord) : Res := .next (s.finishT c t o.d v)
    let sat (f : Int → Int → Int) : DWord :=
      if o.mod = 1 then BitVec.ofInt 64 (max (-2 ^ 63) (min (2 ^ 63 - 1) (f a.toInt b.toInt)))
      else if o.mod = 2 then BitVec.ofInt 64 (max 0 (min (2 ^ 64 - 1) (f a.toNat b.toNat)))
      else BitVec.ofInt 64 (f a.toInt b.toInt)
    let sum := a.toNat + b.toNat + (k &&& 1).toNat
    exec (.add o) s = done (sat (· + ·)) ∧
    exec (.sub o) s = done (sat (· - ·)) ∧
    exec (.mul o) s = done (sat (· * ·)) ∧
    exec (.mulh o) s = done (if o.mod = 1 then BitVec.ofNat 64 (a.toNat * b.toNat / 2 ^ 64) else BitVec.ofInt 64 (a.toInt * b.toInt / 2 ^ 64)) ∧
    exec (.mad o) s = done (a * b + k) ∧
    exec (.div o) s = done (if b = 0 then -1 else if o.mod = 1 then a / b else a.sdiv b) ∧
    exec (.rem o) s = done (if b = 0 then a else if o.mod = 1 then a % b else a.srem b) ∧
    exec (.addc o) s = done (if o.mod = 1 then BitVec.ofNat 64 (sum / 2 ^ 64) else BitVec.ofNat 64 sum) ∧
    exec (.and o) s = done (a &&& b) ∧ exec (.or o) s = done (a ||| b) ∧ exec (.xor o) s = done (a ^^^ b) ∧
    exec (.andn o) s = done (a &&& ~~~b) ∧ exec (.not o) s = done (~~~a) ∧
    exec (.shl o) s = done (a <<< b) ∧ exec (.shr o) s = done (a >>> b) ∧ exec (.sar o) s = done (a.sshiftRight b.toNat) ∧
    exec (.rol o) s = done (a.rotateLeft (b.toNat % 64)) ∧ exec (.ror o) s = done (a.rotateRight (b.toNat % 64)) ∧
    exec (.min o) s = done (if o.mod = 1 then (if b.ult a then b else a) else (if b.slt a then b else a)) ∧
    exec (.max o) s = done (if o.mod = 1 then (if a.ult b then b else a) else (if a.slt b then b else a)) ∧
    exec (.abs o) s = done (if a.slt 0 then -a else a) ∧ exec (.neg o) s = done (-a) ∧
    exec (.sel o) s = done (if k = 0 then b else a) ∧ exec (.lea o) s = done (a + b <<< o.mod.toNat) ∧
    exec (.mov o) s = done a

/-- cmp in a thread (R118): d gets all ones where the condition holds and zero elsewhere, and under qw the predicate qd
gets the condition; .eq, .ne, .lt, .ge, .le and .gt, signed, or unsigned under bit 3 of the modifier. Where d is the
predicate set too, it is written first and the named predicate after it: the model's choice, log entry 59. -/
def Claims.ThreadCompare : Prop :=
  ∀ (s : State) (c : CtxId) (t : Tid) (o : LForm), s.cur = .thread c t → (s.thread c t).predOk o.pe o.pi o.pn = true →
    (o.mod &&& 7).toNat < 6 →
    let x : Int := if o.mod.getLsbD 3 then (s.readT c t o.a).toNat else (s.readT c t o.a).toInt
    let y : Int := if o.mod.getLsbD 3 then (s.readT c t o.b).toNat else (s.readT c t o.b).toInt
    let holds : Bool := [decide (x = y), decide (x ≠ y), decide (x < y), decide (y ≤ x), decide (x ≤ y), decide (y < x)].getD
      (o.mod &&& 7).toNat false
    exec (.cmp o) s = .next (s.modThread c t fun th =>
      let u := th.write o.d (if holds then -1 else 0)
      (if o.qw then u.setP o.qd holds else u).advance)

/-- The field and bit-count instructions in a thread (R115, R120 to R124): clz and ctz count up to the first one bit and
give 64 for zero, popc counts the ones, brev reverses, bfx takes a field and extends it, bfi replaces a field of the old
d, byteperm chooses bytes of a and b by nibbles of c, hash folds bytes or mixes, and cvti extends or saturates from the
width that c names. -/
def Claims.ThreadFields : Prop :=
  ∀ (s : State) (c : CtxId) (t : Tid) (o : LForm), s.cur = .thread c t → (s.thread c t).predOk o.pe o.pi o.pn = true →
    let a := s.readT c t o.a
    let b := s.readT c t o.b
    let k := s.readT c t o.c
    let old := s.readT c t o.d
    let done (v : DWord) : Res := .next (s.finishT c t o.d v)
    (∃ n : Nat, exec (.clz o) s = done (BitVec.ofNat 64 n) ∧ n ≤ 64 ∧ (n < 64 → a.getLsbD (63 - n) = true) ∧
      ∀ i < n, a.getLsbD (63 - i) = false) ∧
    (∃ n : Nat, exec (.ctz o) s = done (BitVec.ofNat 64 n) ∧ n ≤ 64 ∧ (n < 64 → a.getLsbD n = true) ∧ ∀ i < n, a.getLsbD i = false) ∧
    exec (.popc o) s = done (BitVec.ofNat 64 ((List.range 64).countP fun i => a.getLsbD i)) ∧
    (∃ v : DWord, exec (.brev o) s = done v ∧ ∀ i < 64, v.getLsbD i = a.getLsbD (63 - i)) ∧
    (let field : BitVec (min 64 k.toNat) := BitVec.ofNat _ (a >>> b).toNat; exec (.bfx o) s = done (if o.mod = 1 then field.signExtend 64 else field.zeroExtend 64)) ∧
    (∃ v : DWord, exec (.bfi o) s = done v ∧
      ∀ i < 64, v.getLsbD i = if b.toNat ≤ i ∧ i < b.toNat + k.toNat then a.getLsbD (i - b.toNat) else old.getLsbD i) ∧
    (∃ v : DWord, exec (.byteperm o) s = done v ∧ ∀ i < 8,
      let x := (k.extractLsb' (4 * i) 4).toNat
      v.extractLsb' (8 * i) 8 = if x < 8 then a.extractLsb' (8 * x) 8 else b.extractLsb' (8 * (x - 8)) 8) ∧
    (o.mod = 1 → exec (.hash o) s = done (BitVec.ofNat 64 (hashMix (a.toNat % 2 ^ 32) (b.toNat % 2 ^ 32)))) ∧
    (∀ n : Fin 4, o.mod.toNat = 2 * n.val →
      exec (.hash o) s = done (BitVec.ofNat 64 (crcBytes (a.toNat % 2 ^ 32) (bytesOfNat ([8, 1, 2, 4].getD n.val 0) b.toNat)))) ∧
    (∀ sb, tyBits (BitVec.ofNat 4 (o.c.toNat % 16)) = sb → 0 < sb →
      let x : BitVec sb := BitVec.ofNat sb a.toNat
      exec (.cvti o) s = done (if o.mod.getLsbD 0 then x.zeroExtend 64 else x.signExtend 64))

/-- The integer, compare, bit-count and field instructions of a thread complete with the results the rules give. -/
def Obligations.ThreadIntegerResults : Prop :=
  Claims.ThreadInteger ∧ Claims.ThreadCompare ∧ Claims.ThreadFields

/-- One lane of w bits (R114 to R118): the results of the lane functions as bit-vector operations of the width, at
every width. -/
def Claims.LaneLaws : Prop :=
  ∀ (w : Nat) (m : BitVec 4) (a b c : BitVec w), 0 < w →
    addLane 0 w a.toNat b.toNat = (a + b).toNat ∧ subLane 0 w a.toNat b.toNat = (a - b).toNat ∧
    mulLane 0 w a.toNat b.toNat = (a * b).toNat ∧ madLane w a.toNat b.toNat c.toNat = (a * b + c).toNat ∧
    (addLane 1 w a.toNat b.toNat = (BitVec.ofInt w (max (-2 ^ (w - 1)) (min (2 ^ (w - 1) - 1) (a.toInt + b.toInt)))).toNat) ∧
    (subLane 2 w a.toNat b.toNat = a.toNat - b.toNat) ∧
    (mulLane 2 w a.toNat b.toNat = min (2 ^ w - 1) (a.toNat * b.toNat)) ∧
    (b ≠ 0 → divLane 0 w a.toNat b.toNat = (a.sdiv b).toNat ∧ divLane 1 w a.toNat b.toNat = (a / b).toNat ∧
      remLane 0 w a.toNat b.toNat = (a.srem b).toNat ∧ remLane 1 w a.toNat b.toNat = (a % b).toNat) ∧
    (b = 0 → divLane m w a.toNat b.toNat = 2 ^ w - 1 ∧ remLane m w a.toNat b.toNat = a.toNat) ∧
    notLane w a.toNat = (~~~a).toNat ∧ andnLane w a.toNat b.toNat = (a &&& ~~~b).toNat ∧
    shlLane w a.toNat b.toNat = (a <<< b).toNat ∧ shrLane w a.toNat b.toNat = (a >>> b).toNat ∧
    sarLane w a.toNat b.toNat = (a.sshiftRight b.toNat).toNat ∧
    rolLane w a.toNat b.toNat = (a.rotateLeft (b.toNat % w)).toNat ∧ rorLane w a.toNat b.toNat = (a.rotateRight (b.toNat % w)).toNat ∧
    minLane 0 w a.toNat b.toNat = (if b.slt a then b else a).toNat ∧ maxLane 0 w a.toNat b.toNat = (if a.slt b then b else a).toNat ∧
    absLane w a.toNat = (if a.slt 0 then -a else a).toNat ∧ negLane w a.toNat = (-a).toNat

/-- The lane functions that count, choose, extract, hash and convert, and the saturating forms (R115 to R118, R120 to
R124), at every width of a lane: each is the bit-vector result that its rule names. hash.crc is the CRC-32C whose check
value is that of RFC 3720, and hash.mix is one-to-one for each b. -/
def Claims.LaneFields : Prop :=
  (∀ (w : Nat) (m : BitVec 4) (a b c d : BitVec w), 0 < w →
    let hi : Int := 2 ^ (w - 1) - 1
    let clamp (v : Int) : Nat := (BitVec.ofInt w (max (-2 ^ (w - 1)) (min hi v))).toNat
    let len := min c.toNat w
    let field : BitVec len := BitVec.ofNat len (a >>> b).toNat
    let wide (x : BitVec w) : BitVec (w + 1) := x.zeroExtend (w + 1)
    addLane 2 w a.toNat b.toNat = min (2 ^ w - 1) (a.toNat + b.toNat) ∧
    subLane 1 w a.toNat b.toNat = clamp (a.toInt - b.toInt) ∧ mulLane 1 w a.toNat b.toNat = clamp (a.toInt * b.toInt) ∧
    minLane 1 w a.toNat b.toNat = min a.toNat b.toNat ∧ maxLane 1 w a.toNat b.toNat = max a.toNat b.toNat ∧
    mulhLane 0 w a.toNat b.toNat = ((a.signExtend (2 * w) * b.signExtend (2 * w)).extractLsb' w w).toNat ∧
    mulhLane 1 w a.toNat b.toNat = ((a.zeroExtend (2 * w) * b.zeroExtend (2 * w)).extractLsb' w w).toNat ∧
    addcLane 0 w a.toNat b.toNat c.toNat = (a + b + (c &&& 1)).toNat ∧
    addcLane 1 w a.toNat b.toNat c.toNat = ((wide a + wide b + wide (c &&& 1)).getLsbD w).toNat ∧
    leaLane m w a.toNat b.toNat = (a + b <<< m.toNat).toNat ∧
    ((m &&& 7).toNat < 6 →
      let x : Int := if m.getLsbD 3 then a.toNat else a.toInt
      let y : Int := if m.getLsbD 3 then b.toNat else b.toInt
      cmpLane m w a.toNat b.toNat = [decide (x = y), decide (x ≠ y), decide (x < y), decide (y ≤ x), decide (x ≤ y),
        decide (y < x)].getD (m &&& 7).toNat false) ∧
    (let n := clzN w a.toNat; n ≤ w ∧ (n < w → a.getLsbD (w - 1 - n) = true) ∧ ∀ i < n, a.getLsbD (w - 1 - i) = false) ∧
    (let n := ctzN w a.toNat; n ≤ w ∧ (n < w → a.getLsbD n = true) ∧ ∀ i < n, a.getLsbD i = false) ∧
    popcN w a.toNat = (List.range w).countP (fun i => a.getLsbD i) ∧
    brevN w a.toNat < 2 ^ w ∧ (∀ i < w, (brevN w a.toNat).testBit i = a.getLsbD (w - 1 - i)) ∧
    bfxLane 0 w a.toNat b.toNat c.toNat = (field.zeroExtend w).toNat ∧
    bfxLane 1 w a.toNat b.toNat c.toNat = (field.signExtend w).toNat ∧
    bfiLane w a.toNat b.toNat c.toNat d.toNat < 2 ^ w ∧
    (∀ i < w, (bfiLane w a.toNat b.toNat c.toNat d.toNat).testBit i =
      if b.toNat ≤ i ∧ i < b.toNat + c.toNat then a.getLsbD (i - b.toNat) else d.getLsbD i)) ∧
  (∀ (w : Nat) (a b c : BitVec w), w = 32 ∨ w = 64 → bytepermLane w a.toNat b.toNat c.toNat < 2 ^ w ∧ ∀ k < w / 8,
    let x := (c.extractLsb' (4 * k) 4).toNat
    elemAt 8 k (bytepermLane w a.toNat b.toNat c.toNat) =
      (if x < w / 8 then (a.extractLsb' (8 * x) 8).toNat
       else if x < w / 4 then (b.extractLsb' (8 * (x - w / 8)) 8).toNat else 0)) ∧
  (∀ (w : Nat) (n : Fin 4) (a b : BitVec w), w = 32 ∨ w = 64 →
    hashLane (BitVec.ofNat 4 (2 * n.val)) w a.toNat b.toNat =
      crcBytes (a.toNat % 2 ^ 32) ((bytesOfNat (w / 8) b.toNat).take ([w / 8, 1, 2, 4].getD n.val 0)) ∧
    hashLane 1 w a.toNat b.toNat = hashMix (a.toNat % 2 ^ 32) (b.toNat % 2 ^ 32)) ∧
  crcBytes 0xffffffff ((List.range 9).map fun i => BitVec.ofNat 8 (0x31 + i)) ^^^ 0xffffffff = 0xe3069283 ∧
  hashMix 0 0 = 0 ∧ (∀ x y b : Word, hashMix x.toNat b.toNat = hashMix y.toNat b.toNat → x = y) ∧
  (∀ (sb w : Nat) (x : BitVec sb), 0 < sb → 0 < w →
    cvtiLane 0 sb w x.toNat = (x.signExtend w).toNat ∧ cvtiLane 1 sb w x.toNat = (x.zeroExtend w).toNat ∧
    cvtiLane 2 sb w x.toNat = (BitVec.ofInt w (max (-2 ^ (w - 1)) (min (2 ^ (w - 1) - 1) x.toInt))).toNat ∧
    cvtiLane 3 sb w x.toNat = min (2 ^ w - 1) x.toNat)

/-- One lane of every width computes the bit-vector operation of its width. -/
def Obligations.LaneLaws : Prop :=
  Claims.LaneLaws ∧ Claims.LaneFields

/-- The integer instructions at a station (R109, R115 to R118, R65): where the predicate holds, the sources are read
together as lanes, each lane of d gets the lane function of theirs, and the execution goes on; cmp writes lane masks and,
under qw, the predicate that any lane holds. -/
def Obligations.StationInteger : Prop :=
  ∀ (s : State) (p : Place) (f : Frame) (o : LForm), s.cur = .station p f → f.predOk o.pe o.pi o.pn = true →
    let w := wBits o.w
    let g := gWords o.g
    let n := 32 * g / w
    let src (x : Spec) : Src × Option Fmt := (⟨x, w, n, g, false⟩, none)
    let one (h : Nat → Nat) : Res := .next (s.lanesDone p f [src o.a] o.d w g fun ls r =>
      ⟨(ls.getD 0 []).map h, r.f.lfsr, r.free, false, false⟩)
    let two (h : Nat → Nat → Nat) : Res := .next (s.lanesDone p f [src o.a, src o.b] o.d w g fun ls r =>
      ⟨List.zipWith h (ls.getD 0 []) (ls.getD 1 []), r.f.lfsr, r.free, false, false⟩)
    let three (h : Nat → Nat → Nat → Nat) : Res := .next (s.lanesDone p f [src o.a, src o.b, src o.c] o.d w g fun ls r =>
      ⟨zip3 h (ls.getD 0 []) (ls.getD 1 []) (ls.getD 2 []), r.f.lfsr, r.free, false, false⟩)
    (∀ k ∈ [(Instr.add, addLane o.mod w), (.sub, subLane o.mod w), (.mul, mulLane o.mod w), (.mulh, mulhLane o.mod w),
        (.div, divLane o.mod w), (.rem, remLane o.mod w), (.and, (· &&& ·)), (.or, (· ||| ·)), (.xor, (· ^^^ ·)),
        (.andn, andnLane w), (.shl, shlLane w), (.shr, shrLane w), (.sar, sarLane w), (.rol, rolLane w), (.ror, rorLane w),
        (.min, minLane o.mod w), (.max, maxLane o.mod w), (.lea, leaLane o.mod w), (.hash, hashLane o.mod w)],
      exec (k.1 o) s = two k.2) ∧
    (∀ k ∈ [(Instr.not, notLane w), (.clz, clzN w), (.ctz, ctzN w), (.popc, popcN w), (.brev, brevN w), (.abs, absLane w),
        (.neg, negLane w), (.mov, id)], exec (k.1 o) s = one k.2) ∧
    (∀ k ∈ [(Instr.mad, madLane w), (.addc, addcLane o.mod w), (.sel, fun a b c => if c ≠ 0 then a else b),
        (.bfx, bfxLane o.mod w), (.byteperm, bytepermLane w)], exec (k.1 o) s = three k.2) ∧
    exec (.bfi o) s = .next (s.lanesDone p f [src o.a, src o.b, src o.c, (⟨o.d, w, n, g, true⟩, none)] o.d w g fun ls r =>
      ⟨List.zipWith (fun h d => h d) (List.zipWith (fun h c => h c) (List.zipWith (bfiLane w) (ls.getD 0 []) (ls.getD 1 []))
        (ls.getD 2 [])) (ls.getD 3 []), r.f.lfsr, r.free, false, false⟩) ∧
    (let sb := tyBits (BitVec.ofNat 4 (o.c.toNat % 16)); exec (.cvti o) s = .next (s.lanesDone p f [(⟨o.a, sb, n, cvtWords g sb w, false⟩, none)] o.d w g fun ls r =>
        ⟨(ls.getD 0 []).map (cvtiLane o.mod sb w), r.f.lfsr, r.free, false, false⟩)) ∧
    (let (ls, r) := (s.run p f).readAll [src o.a, src o.b];
      let hs := List.zipWith (cmpLane o.mod w) (ls.getD 0 []) (ls.getD 1 [])
      let h := r.f.putLanes o.d w g (hs.map (maskLane w))
      exec (.cmp o) s = .next (s.nextIp p { r with f := if o.qw then h.setQ o.qd (hs.any id) else h }))

/-- The immediate forms (R70, R119): a thread writes the result of a's value and the sign-extended immediate; a station
writes that of every lane of a and the immediate as a lane; movi writes the immediate alone. -/
def Obligations.Immediates : Prop :=
  (∀ (s : State) (c : CtxId) (t : Tid) (o : IForm), s.cur = .thread c t →
    let a := s.readT c t o.a
    let i : DWord := o.imm.signExtend 64
    let done (v : DWord) : Res := .next (s.finishT c t o.d v)
    (o.mod = 0 → exec (.addImm o) s = done (a + i)) ∧
    (o.mod = 1 → exec (.addImm o) s = done (BitVec.ofInt 64 (max (-2 ^ 63) (min (2 ^ 63 - 1) (a.toInt + i.toInt))))) ∧
    (o.mod = 2 → exec (.addImm o) s = done (BitVec.ofInt 64 (min (2 ^ 64 - 1) (a.toNat + i.toNat)))) ∧
    exec (.andImm o) s = done (a &&& i) ∧ exec (.orImm o) s = done (a ||| i) ∧ exec (.xorImm o) s = done (a ^^^ i) ∧
    exec (.shlImm o) s = done (a <<< i) ∧ exec (.shrImm o) s = done (a >>> i) ∧ exec (.sarImm o) s = done (a.sshiftRight i.toNat) ∧
    exec (.movi o) s = done i ∧
    (o.mod = 2 → exec (.cmpImm o) s = done (if a.slt i then -1 else 0)) ∧
    (o.mod = 10 → exec (.cmpImm o) s = done (if a.ult i then -1 else 0)) ∧
    (o.mod = 0 ∨ o.mod = 8 → exec (.cmpImm o) s = done (if a = i then -1 else 0)) ∧
    (o.mod = 1 ∨ o.mod = 9 → exec (.cmpImm o) s = done (if a = i then 0 else -1)) ∧
    (o.mod = 3 → exec (.cmpImm o) s = done (if a.slt i then 0 else -1)) ∧
    (o.mod = 11 → exec (.cmpImm o) s = done (if a.ult i then 0 else -1)) ∧
    (o.mod = 4 → exec (.cmpImm o) s = done (if i.slt a then 0 else -1)) ∧
    (o.mod = 12 → exec (.cmpImm o) s = done (if i.ult a then 0 else -1)) ∧
    (o.mod = 5 → exec (.cmpImm o) s = done (if i.slt a then -1 else 0)) ∧
    (o.mod = 13 → exec (.cmpImm o) s = done (if i.ult a then -1 else 0))) ∧
  (∀ (s : State) (p : Place) (f : Frame) (o : IForm), s.cur = .station p f →
    let w := wBits o.w
    let g := gWords o.g
    let n := 32 * g / w
    let i := (o.imm.signExtend 64).toNat % 2 ^ w
    (∀ k ∈ [(Instr.addImm, addLane o.mod w), (.andImm, (· &&& ·)), (.orImm, (· ||| ·)), (.xorImm, (· ^^^ ·)), (.shlImm, shlLane w),
        (.shrImm, shrLane w), (.sarImm, sarLane w), (.cmpImm, fun a b => maskLane w (cmpLane o.mod w a b))],
      exec (k.1 o) s = .next (s.lanesDone p f [(⟨o.a, w, n, g, false⟩, none)] o.d w g fun ls r =>
        ⟨(ls.getD 0 []).map fun a => k.2 a i, r.f.lfsr, r.free, false, false⟩)) ∧
    exec (.movi o) s = .next (s.lanesDone p f [] o.d w g fun _ r => ⟨List.replicate n i, r.f.lfsr, r.free, false, false⟩))

/-- What a source reads at a station (R54 to R57, R42, R33): a payload group gives its elements, the lowest bits first;
a k register, a header field, zero, ones, the station's numbers and a small constant fill every lane; lane gives each
lane its number; rnd draws once a word of its group. -/
def Claims.StationSources : Prop :=
  ∀ (r : Run) (x : Src) (ws : List Word), x.kg = false →
    let n := x.sp.toNat
    let all (v : Nat) : List Nat × Run := (List.replicate x.n (v % 2 ^ x.w), r)
    (n < 16 → n + x.g ≤ 16 → r.f.r.isPoison = false →
      r.lanes x none ws = ((List.range x.n).map fun i => elemAt x.w i (strOfWords ((r.f.r.pay.toList.drop n).take x.g)), r)) ∧
    (∀ m : Fin 12, n = 16 + m.val → r.lanes x none ws = all (r.f.k[m.val]).toNat) ∧
    (∀ m : Fin 4, n = 28 + m.val → x.g ≤ 16 →
      r.lanes x none ws = ((List.range x.n).map fun i => elemAt x.w i (strOfWords ((r.f.kv[m.val]).toList.take x.g)), r)) ∧
    (n = 0x20 → r.lanes x none ws = all r.f.r.hdr.seq.toNat) ∧ (n = 0x21 → r.lanes x none ws = all r.f.r.hdr.cls.toNat) ∧
    (n = 0x22 → r.lanes x none ws = all r.f.r.hdr.fmt.toNat) ∧ (n = 0x23 → r.lanes x none ws = all r.f.r.hdr.len.toNat) ∧
    (n = 0x24 → r.lanes x none ws = all r.f.r.hdr.scale.toNat) ∧ (n = 0x25 → r.lanes x none ws = all r.f.r.hdr.ck.toNat) ∧
    (n = 0x26 → r.lanes x none ws = all r.f.r.hdr.ctx.val) ∧ (n = 0x27 → r.lanes x none ws = all r.f.r.hdr.lay.val) ∧
    (n = 0x28 → r.lanes x none ws = all 0) ∧ (n = 0x29 → r.lanes x none ws = ((List.range x.n).map fun i => i % 2 ^ x.w, r)) ∧
    (n = 0x2a → r.lanes x none ws = all r.env.sid) ∧ (n = 0x2b → r.lanes x none ws = all r.env.pid) ∧
    (n = 0x2c → r.lanes x none ws = all r.env.did) ∧ (n = 0x2d → x.w ≤ 32 → r.lanes x none ws = all r.env.acyc) ∧
    (n = 0x2e → r.readAll [(x, none)] =
      ([elemsOf x.w x.n (strOfWords ((List.range x.g).map fun j => lfsrIter (j + 1) r.f.lfsr))],
        { r with f := { r.f with lfsr := lfsrIter x.g r.f.lfsr } })) ∧
    (n = 0x2f → r.lanes x none ws = (List.replicate x.n (2 ^ x.w - 1), r)) ∧
    (∀ m : Fin 16, n = 0x30 + m.val →
      r.lanes x none ws = (List.replicate x.n (BitVec.ofInt x.w ((m.val : Int) - 8)).toNat, r))

/-- Sources are read together, before any result is written (R65): the lanes of each do not depend on the others. The
draws of rnd sources are taken once a word (R33, R109); that several rnd sources share them in the order in which the lanes
first read their words, a before b, so that two of 32-bit lanes take turns, is the model's choice, as is how a wide group of
k registers is read (log entries 22 and 10). -/
def Claims.SourcesReadTogether : Prop :=
  ∀ (r : Run) (x y : Src) (fx fy : Option Fmt), r.f.r.isPoison = false →
    let all := x.draws 0 ++ y.draws 1
    let dx := (x.draws 0).map (drawWord all r.f.lfsr)
    let dy := (y.draws 1).map (drawWord all r.f.lfsr)
    r.readAll [(x, fx), (y, fy)] =
      ([(r.lanes x fx dx).1, (r.lanes y fy dy).1], { r with f := { r.f with lfsr := lfsrIter all.length r.f.lfsr } }) ∧
    all.length = (if x.sp = 0x2e then x.g else 0) + (if y.sp = 0x2e then y.g else 0) ∧
    (x.sp = 0x2e → y.sp = 0x2e → x.w = 32 → y.w = 32 → x.g = y.g →
      dx = (List.range x.g).map (fun j => lfsrIter (2 * j + 1) r.f.lfsr) ∧
      dy = (List.range x.g).map (fun j => lfsrIter (2 * j + 2) r.f.lfsr))

/-- A group of lanes written to the payload, a kv register or k registers reads back as it was written (R54, R57). -/
def Claims.GroupReadsBack : Prop :=
  ∀ (r : Run) (sp : Spec) (w g : Nat) (ls : List Nat) (ws : List Word), w ∈ [8, 16, 32, 64] → 0 < g → ls.length * w = 32 * g →
    (∀ x ∈ ls, x < 2 ^ w) → r.f.r.isPoison = false →
    (sp.toNat + g ≤ 16 ∨ (16 ≤ sp.toNat ∧ sp.toNat + g ≤ 28) ∨ (28 ≤ sp.toNat ∧ sp.toNat < 32 ∧ g ≤ 16)) →
    (({ r with f := r.f.putLanes sp w g ls }).lanes ⟨sp, w, ls.length, g, true⟩ none ws).1 = ls

/-- What every source of a station reads, that sources are read together, and that a group written reads back. -/
def Obligations.StationOperands : Prop :=
  Claims.StationSources ∧ Claims.SourcesReadTogether ∧ Claims.GroupReadsBack

/-! ### Lane moves and numbers -/

/-- A finite value as a real number. -/
def Claims.IsReal (v : Val) (y : ℝ) : Prop :=
  match v with
  | .fin s m e => y = (if s then -1 else 1) * m * (2 : ℝ) ^ e
  | _ => False

/-- A value rounds as a real number does (R29 to R31, R125): where two numbers other than 0 enclose the real number and round
alike, the value rounds so too, in every mode, with the same draw. -/
def Claims.RoundsAs (v : Val) (y : ℝ) (ty : Fmt) : Prop :=
  ∀ (mode : Rm) (sat : Bool) (l : Word) (lo hi : Val) (a b : ℝ), Claims.IsReal lo a → Claims.IsReal hi b → a ≠ 0 → b ≠ 0 →
    a ≤ y → y ≤ b → roundTo lo ty mode sat l = roundTo hi ty mode sat l → roundTo v ty mode sat l = roundTo lo ty mode sat l

/-- The lane moves at a station (R141): every lane of d is a lane of the sources that the rules choose, or zero; expd.m
keeps the old lane. -/
def Claims.LaneMoves : Prop :=
  ∀ (s : State) (p : Place) (f : Frame) (o : LForm), s.cur = .station p f → f.predOk o.pe o.pi o.pn = true →
    let w := wBits o.w
    let g := gWords o.g
    let n := 32 * g / w
    let src (x : Spec) : Src × Option Fmt := (⟨x, w, n, g, false⟩, none)
    let at' (l : List Nat) (i : Nat) : Nat := l.getD i 0
    let two (h : List Nat → List Nat → Nat → Nat) : Res := .next (s.lanesDone p f [src o.a, src o.b] o.d w g fun ls r =>
      ⟨(List.range n).map (h (ls.getD 0 []) (ls.getD 1 [])), r.f.lfsr, r.free, false, false⟩)
    let ones (b : List Nat) : List Nat := (List.range b.length).filter fun i => at' b i != 0
    (o.mod ≠ 1 → exec (.perm o) s = two fun a b i => if at' b i < n then at' a (at' b i) else 0) ∧
    (o.mod = 1 → exec (.perm o) s = .next (s.lanesDone p f [src o.a, src o.b, src o.c] o.d w g fun ls r =>
      ⟨(List.range n).map fun i =>
        let x := at' (ls.getD 1 []) i
        if x < n then at' (ls.getD 0 []) x else if x < 2 * n then at' (ls.getD 2 []) (x - n) else 0, r.f.lfsr, r.free, false, false⟩)) ∧
    exec (.shuf o) s = two (fun a b i => at' a (i ^^^ (at' b i % n))) ∧
    exec (.bcast o) s = two (fun a b _ => at' a (at' b 0 % n)) ∧
    (o.mod ≠ 1 → exec (.rot o) s = two fun a b i => at' a ((i + at' b 0) % n)) ∧
    (o.mod = 1 → exec (.rot o) s = two fun a b i => if i + at' b 0 < n then at' a (i + at' b 0) else 0) ∧
    (o.mod ≠ 1 → exec (.zip o) s = two fun a b i => if i % 2 = 0 then at' a (i / 2) else at' b (i / 2)) ∧
    (o.mod = 1 → exec (.zip o) s = two fun a b i => if i % 2 = 0 then at' a (n / 2 + i / 2) else at' b (n / 2 + i / 2)) ∧
    (o.mod ≠ 1 → exec (.unzip o) s = two fun a b i => if i < n / 2 then at' a (2 * i) else at' b (2 * (i - n / 2))) ∧
    (o.mod = 1 → exec (.unzip o) s = two fun a b i => if i < n / 2 then at' a (2 * i + 1) else at' b (2 * (i - n / 2) + 1)) ∧
    exec (.cmpr o) s = two (fun a b i => match (ones b)[i]? with | some j => at' a j | none => 0) ∧
    (o.mod ≠ 1 → exec (.expd o) s = two fun a b i => if at' b i ≠ 0 then at' a ((ones b).filter fun j => decide (j < i)).length else 0) ∧
    (o.mod = 1 → exec (.expd o) s = .next (s.lanesDone p f [src o.a, src o.b, (⟨o.d, w, n, g, true⟩, none)] o.d w g fun ls r =>
      ⟨(List.range n).map fun i =>
        let b := ls.getD 1 []
        if at' b i ≠ 0 then at' (ls.getD 0 []) ((ones b).filter fun j => decide (j < i)).length else at' (ls.getD 2 []) i,
        r.f.lfsr, r.free, false, false⟩))

/-- pack, unpack, lmask, lsel, movw and swap at a station (R142 to R144): pack narrows a's lanes and then b's, unpack
extends one half of a's, lmask gives a bit a lane, lsel chooses by the bits of a mask, movw takes or puts one word, and
swap exchanges two groups. -/
def Claims.LaneMoves2 : Prop :=
  ∀ (s : State) (p : Place) (f : Frame) (o : LForm), s.cur = .station p f → f.predOk o.pe o.pi o.pn = true →
    let w := wBits o.w
    let g := gWords o.g
    let n := 32 * g / w
    let src (x : Spec) : Src × Option Fmt := (⟨x, w, n, g, false⟩, none)
    let word (x : Spec) : Src × Option Fmt := (⟨x, 32, g, g, false⟩, none)
    let out (r : Run) (ls : List Nat) : LaneOut := ⟨ls, r.f.lfsr, r.free, false, false⟩
    (o.mod = 0 → exec (.pack o) s = .next (s.lanesDone p f [src o.a, src o.b] o.d (w / 2) g fun ls r =>
      out r ((ls.getD 0 [] ++ ls.getD 1 []).map fun x => x % 2 ^ (w / 2)))) ∧
    (o.mod = 1 → exec (.pack o) s = .next (s.lanesDone p f [src o.a, src o.b] o.d (w / 2) g fun ls r =>
      out r ((ls.getD 0 [] ++ ls.getD 1 []).map fun x => satS (w / 2) (sextN w x)))) ∧
    (o.mod = 2 → exec (.pack o) s = .next (s.lanesDone p f [src o.a, src o.b] o.d (w / 2) g fun ls r =>
      out r ((ls.getD 0 [] ++ ls.getD 1 []).map fun x => satU (w / 2) (sextN w x)))) ∧
    exec (.unpack o) s = .next (s.lanesDone p f [(⟨o.a, w / 2, 2 * n, g, false⟩, none)] o.d w g fun ls r =>
      out r ((((ls.getD 0 []).drop (if o.mod.getLsbD 1 then n else 0)).take n).map fun x =>
        if o.mod.getLsbD 0 then narrow w (sextN (w / 2) x) else x)) ∧
    exec (.lmask o) s = .next (s.lanesDone p f [src o.a] o.d 1 2 fun ls r =>
      out r ((ls.getD 0 []).map fun x => if x = 0 then 0 else 1)) ∧
    ((o.c = 0x28 ∨ o.c = 0x2f) → exec (.lsel o) s = .next (s.lanesDone p f [src o.a, src o.b] o.d w g fun ls r =>
      out r (chooseLanes (if o.c = 0x28 then 0 else 2 ^ 64 - 1) 0 (ls.getD 0 []) (ls.getD 1 [])))) ∧
    (o.c ≠ 0x28 → o.c ≠ 0x2f → let (ls, r) := (s.run p f).readAll [src o.a, src o.b];
      let (m, r1) := r.pair o.c
      exec (.lsel o) s = .next (s.nextIp p { r1 with f := r1.f.putLanes o.d w g (chooseLanes m.toNat 0 (ls.getD 0 []) (ls.getD 1 [])) })) ∧
    (o.mod ≠ 1 → let (ls, r) := (s.run p f).readAll [word o.a, word o.b];
      exec (.movw o) s = .next (s.nextIp p { r with f := r.f.putWords o.d [BitVec.ofNat 32 ((ls.getD 0 []).getD ((ls.getD 1 []).getD 0 0 % g) 0)] })) ∧
    (o.mod = 1 → exec (.movw o) s = .next (s.lanesDone p f
      [(⟨o.a, 32, 1, 1, false⟩, none), word o.b, (⟨o.d, 32, g, g, true⟩, none)] o.d 32 g fun ls r =>
      out r ((ls.getD 2 []).set ((ls.getD 1 []).getD 0 0 % g) ((ls.getD 0 []).getD 0 0)))) ∧
    (let (ls, r) := (s.run p f).readAll [(⟨o.d, 32, g, g, true⟩, none), (⟨o.a, 32, g, g, true⟩, none)];
      exec (.swap o) s = .next (s.nextIp p { r with f := (r.f.putLanes o.d 32 g (ls.getD 1 [])).putLanes o.a 32 g (ls.getD 0 []) }))

/-- unzip undoes zip, and expd undoes cmpr where the mask holds (R141). -/
def Claims.MovesUndo : Prop :=
  (∀ (x y : LaneIn), x.n % 2 = 0 → x.a.length = x.n → x.b.length = x.n → y.n = x.n →
    y.a = (List.range x.n).map (zipLane false x) → y.b = (List.range x.n).map (zipLane true x) →
    (List.range x.n).map (unzipLane false y) = x.a ∧ (List.range x.n).map (unzipLane true y) = x.b) ∧
  (∀ (x y : LaneIn) (m : Bool), x.a.length = x.n → x.b.length = x.n → y.n = x.n → y.b = x.b →
    y.a = (List.range x.n).map (cmprLane x) → ∀ i < x.n, x.b.getD i 0 ≠ 0 → expdLane m y i = x.a.getD i 0)

/-- The lane moves complete with the lanes the rules choose; unzip undoes zip, and expd undoes cmpr. -/
def Obligations.LaneMoves : Prop :=
  Claims.LaneMoves ∧ Claims.LaneMoves2 ∧ Claims.MovesUndo

/-- The float instructions that round (R125, R126, R131, R132, R135) at a station: the exact values of the sources are
combined, and each result is rounded in lane order to the type under the mode and .sat. An infinite a of fscale under .sat
saturates as every exact result does, and fdq reads a small constant as its integer: the model's choices, log entries 60
and 63. -/
def Obligations.FloatArithmetic : Prop :=
  ∀ (s : State) (p : Place) (f : Frame) (o : LForm), s.cur = .station p f → f.predOk o.pe o.pi o.pn = true →
    let ty := fmtOf o.ty
    let from' := fmtOf (BitVec.ofNat 4 (o.c.toNat % 16))
    let w := wBits o.w
    let g := gWords o.g
    let n := 32 * g / w
    let src (x : Spec) : Src × Option Fmt := (⟨x, w, n, g, false⟩, some ty)
    let rounded (r : Run) (vs : List Val) : LaneOut :=
      let (xs, l, bad) := roundList ty (modRm o.mod) (modSat o.mod) vs r.f.lfsr
      ⟨xs, l, r.free, bad, false⟩
    let two (h : Val → Val → Val) : Res := .next (s.lanesDone p f [src o.a, src o.b] o.d w g fun ls r =>
      rounded r (List.zipWith (fun a b => h (valueOf ty a) (valueOf ty b)) (ls.getD 0 []) (ls.getD 1 [])))
    let three (h : Val → Val → Val → Val) : Res := .next (s.lanesDone p f [src o.a, src o.b, src o.c] o.d w g fun ls r =>
      rounded r (List.zipWith (fun k c => k (valueOf ty c))
        (List.zipWith (fun a b => h (valueOf ty a) (valueOf ty b)) (ls.getD 0 []) (ls.getD 1 [])) (ls.getD 2 [])))
    let m := modRm o.mod
    exec (.fadd o) s = two (fun a b => addVal a b m) ∧ exec (.fsub o) s = two (fun a b => addVal a b.negate m) ∧
    exec (.fmul o) s = two mulVal ∧
    exec (.fma o) s = three (fun a b c => addVal (mulVal a b) c m) ∧ exec (.fnma o) s = three (fun a b c => addVal (mulVal a.negate b) c m) ∧
    exec (.fscale o) s = .next (s.lanesDone p f [src o.a, (⟨o.b, w, n, g, false⟩, none)] o.d w g fun ls r =>
      rounded r (List.zipWith (fun a b => (valueOf ty a).scale (sextN w b)) (ls.getD 0 []) (ls.getD 1 []))) ∧
    (let sb := tyBits (BitVec.ofNat 4 (o.c.toNat % 16))
     let v := if tyBits o.ty = 4 then 4 else w
     let k := 32 * g / v
     let a : Src × Option Fmt := (⟨o.a, sb, k, cvtWords g sb (dstBits o), false⟩, some from')
     (∀ i ∈ [Instr.fcvt, .f2i], exec (i o) s = .next (s.lanesDone p f [a] o.d v g fun ls r =>
       rounded r ((ls.getD 0 []).map fun x => decodeElem from' x 0))) ∧
     exec (.i2f o) s = .next (s.lanesDone p f [a] o.d v g fun ls r => rounded r ((ls.getD 0 []).map (valueOf from'))) ∧
     exec (.fdq o) s = .next (s.lanesDone p f [a, (⟨o.b, 32, 1, 1, false⟩, none)] o.d v g fun ls r =>
       rounded r ((ls.getD 0 []).map fun x => decodeElem from' x (BitVec.ofNat 8 ((ls.getD 1 []).headD 0)))))

/-- The other float instructions at a station (R127 to R130, R133, R134, R136, R137): fmin and fmax choose a value, fabs
and fneg work on the sign, fcmp writes masks and its predicate, frnd rounds to integers, the six functions round their value
of each lane in order (SpecialInputs, AlgebraicFunctions and TranscendentalFunctions say which), fqnt quantises under the
scale of its amax or gives that scale, fred reduces by the tree and fdot rounds one exact sum. A lane whose enclosure does
not decide is a free value, and fqnt of type 0 gives the scale alone: the model's choices, log entries 51 and 52. -/
def Claims.FloatFunctions : Prop :=
  ∀ (s : State) (p : Place) (f : Frame) (o : LForm), s.cur = .station p f → f.predOk o.pe o.pi o.pn = true →
    let ty := fmtOf o.ty
    let v := valueOf ty
    let w := wBits o.w
    let g := gWords o.g
    let n := 32 * g / w
    let m := modRm o.mod
    let src (x : Spec) : Src × Option Fmt := (⟨x, w, n, g, false⟩, some ty)
    let out (r : Run) (ls : List Nat) : LaneOut := ⟨ls, r.f.lfsr, r.free, false, false⟩
    let oneWord (r : Run) (x : Nat) (l : Word) : State :=
      s.nextIp p { r with f := { r.f with lfsr := l }.putWords o.d [BitVec.ofNat 32 x] }
    exec (.fmin o) s = .next (s.lanesDone p f [src o.a, src o.b] o.d w g fun ls r =>
      out r (List.zipWith (fun a b => exactCode ty (minVal (v a) (v b))) (ls.getD 0 []) (ls.getD 1 []))) ∧
    exec (.fmax o) s = .next (s.lanesDone p f [src o.a, src o.b] o.d w g fun ls r =>
      out r (List.zipWith (fun a b => exactCode ty (maxVal (v a) (v b))) (ls.getD 0 []) (ls.getD 1 []))) ∧
    exec (.fabs o) s = .next (s.lanesDone p f [src o.a] o.d w g fun ls r => out r ((ls.getD 0 []).map (signCode ty false))) ∧
    exec (.fneg o) s = .next (s.lanesDone p f [src o.a] o.d w g fun ls r => out r ((ls.getD 0 []).map (signCode ty true))) ∧
    (let (ls, r) := (s.run p f).readAll [src o.a, src o.b];
      let hs := List.zipWith (fun a b => fcmpVal (o.mod.toNat % 8) (v a) (v b)) (ls.getD 0 []) (ls.getD 1 [])
      let h := r.f.putLanes o.d w g (hs.map (maskLane w))
      exec (.fcmp o) s = .next (s.nextIp p { r with f := if o.qw then h.setQ o.qd (hs.any id) else h })) ∧
    exec (.frnd o) s = .next (s.lanesDone p f [src o.a] o.d w g fun ls r =>
      let (xs, l) := rndLanes ty m (ls.getD 0 []) r.f.lfsr
      ⟨xs, l, r.free, false, false⟩) ∧
    (∀ k ∈ [(Instr.frcp, UnFn.frcp), (.frsq, .frsq), (.fsqrt, .fsqrt), (.fexp2, .fexp2), (.flog2, .flog2), (.ftanh, .ftanh)],
      exec (k.1 o) s = .next (s.lanesDone p f [src o.a] o.d w g fun ls r =>
        let (xs, l, k) := unLanes o k.2 (ls.getD 0 []) r.f.lfsr r.free
        ⟨xs, l, k, false, false⟩)) ∧
    (∀ (fn : UnFn) (xs : List Nat) (vs : List Val) (l : Word) (k : Nat), xs.map (fun x => unVal fn (v x)) = vs.map some →
      unLanes o fn xs l k = ((roundList ty m (modSat o.mod) vs l).1, (roundList ty m (modSat o.mod) vs l).2.1, k)) ∧
    (o.ty = 0 → let (ls, r) := (s.run p f).readAll [(⟨o.b, 32, 1, 1, false⟩, some .fp32)];
      exec (.fqnt o) s = .next (oneWord r (blockScale (fmtOf (BitVec.ofNat 4 (o.c.toNat % 16)))
        (valueOf .fp32 ((ls.getD 0 []).headD 0))).toNat r.f.lfsr)) ∧
    (o.ty ≠ 0 →
      let from' := fmtOf (BitVec.ofNat 4 (o.c.toNat % 16))
      let sb := tyBits (BitVec.ofNat 4 (o.c.toNat % 16))
      let d := if tyBits o.ty = 4 then 4 else w
      exec (.fqnt o) s = .next (s.lanesDone p f
        [(⟨o.a, sb, 32 * g / d, cvtWords g sb (dstBits o), false⟩, some from'), (⟨o.b, 32, 1, 1, false⟩, some .fp32)] o.d d g fun ls r =>
        let (xs, l, bad) := qntLanes ty from' (blockScale ty (valueOf .fp32 ((ls.getD 1 []).headD 0))) m (ls.getD 0 []) r.f.lfsr
        ⟨xs, l, r.free, bad, false⟩)) ∧
    (let (ls, r) := (s.run p f).readAll [src o.a];
      let a := ls.getD 0 []
      (o.c.toNat % 4 = 1 → exec (.fred o) s =
        .next (oneWord r (a.tail.foldl (redMax ty) (redMax ty (a.headD 0) (a.headD 0))) r.f.lfsr)) ∧
      (let add (x y : Nat) (k : Word) : Nat × Word :=
        ((roundTo (addVal (v x) (v y) m) ty m (modSat o.mod) k).1.getD 0, (roundTo (addVal (v x) (v y) m) ty m (modSat o.mod) k).2);
       let (x, l) := treeReduce add 7 a r.f.lfsr;
       o.c.toNat % 4 ≠ 1 → exec (.fred o) s = .next (oneWord r x l))) ∧
    (let d := if tyBits o.ty = 4 then 4 else w
     let a (x : Spec) : Src × Option Fmt := (⟨x, d, 32 * g / d, g, false⟩, some ty)
     let (ls, r) := (s.run p f).readAll [a o.a, a o.b, (⟨o.c, 32, 1, 1, false⟩, some .fp32)];
     let sum := (List.zipWith (fun x y => mulVal (v x) (v y)) (ls.getD 0 []) (ls.getD 1 [])).foldl (fun acc p => addVal acc p m)
       (valueOf .fp32 ((ls.getD 2 []).headD 0))
     let (x, l) := roundTo sum .fp32 m (modSat o.mod) r.f.lfsr
     exec (.fdot o) s = .next (oneWord r (x.getD 0) l))

/-- The special inputs of the six functions (R129): infinities, zeros, negative numbers, a logarithm of 1, and NaN, which
gives NaN in each. -/
def Claims.SpecialInputs : Prop :=
  ∀ (s : Bool) (m : Nat) (e : Int), m ≠ 0 →
    let zero (s : Bool) : Val := .fin s 0 e
    (∀ fn, unVal fn .nan = some .nan) ∧
    unVal .frcp (.inf s) = some (.fin s 0 0) ∧ unVal .frcp (zero s) = some (.inf s) ∧
    unVal .frsq (.inf true) = some .nan ∧ unVal .frsq (.fin true m e) = some .nan ∧ unVal .frsq (zero s) = some (.inf s) ∧
    unVal .frsq (.inf false) = some (.fin false 0 0) ∧
    unVal .fsqrt (.inf true) = some .nan ∧ unVal .fsqrt (.fin true m e) = some .nan ∧ unVal .fsqrt (zero s) = some (.fin s 0 0) ∧
    unVal .fsqrt (.inf false) = some (.inf false) ∧
    unVal .fexp2 (.inf true) = some (.fin false 0 0) ∧ unVal .fexp2 (.inf false) = some (.inf false) ∧
    unVal .fexp2 (zero s) = some (.fin false 1 0) ∧
    unVal .flog2 (.inf true) = some .nan ∧ unVal .flog2 (.fin true m e) = some .nan ∧ unVal .flog2 (zero s) = some (.inf true) ∧
    (∀ k : Nat, unVal .flog2 (.fin false (2 ^ k) (-(k : Int))) = some (.fin false 0 0)) ∧ unVal .flog2 (.inf false) = some (.inf false) ∧
    unVal .ftanh (.inf s) = some (.fin s 1 0) ∧ unVal .ftanh (zero s) = some (.fin s 0 0)

/-- The online softmax at a station (R138, R139): from the pair m1, l1 and the lanes of d on the one side and a scored value,
or another triple, on the other, the pair becomes the greater m and the rounded l1 × t1 + lx × t2, and each lane its acc × t1 +
vx × t2, where t is 1 for the operand that holds the maximum and 2 to the exact difference, rounded once, for the other.
Draws are taken for l first and then for the lanes, and nothing else of the frame changes. A power whose enclosure does not
decide is a free value (the model's choice, log entry 51). -/
def Claims.Softmax : Prop :=
  ∀ (s : State) (p : Place) (f : Frame) (o : LForm), s.cur = .station p f → f.predOk o.pe o.pi o.pn = true →
    let g := gWords o.g
    let v := valueOf .fp32
    let grp (sp : Spec) : Src × Option Fmt := (⟨sp, 32, g, g, false⟩, some .fp32)
    let pair (sp : Spec) : Src × Option Fmt := (⟨sp, 32, 2, 2, false⟩, none)
    let factor (m mn : Val) (k : Nat) : Val × Nat :=
      if eqVal m mn then (.fin false 1 0, k)
      else match unVal .fexp2 (addVal m mn.negate .rne) with
        | some y => (v (roundNe y .fp32), k)
        | none => (v (Config.freeWord k).toNat, k + 1)
    let done (r : Run) (m1 l1 mx lx : Nat) (acc vx : List Nat) : State :=
      let mn := maxVal (v m1) (v mx)
      let (t1, k1) := factor (v m1) mn r.free
      let (t2, k2) := factor (v mx) mn k1
      let sum (x y : Nat) : Val := addVal (mulVal (v x) t1) (mulVal (v y) t2) (modRm o.mod)
      let (l, lf) := roundTo (sum l1 lx) .fp32 (modRm o.mod) (modSat o.mod) r.f.lfsr
      let xs := roundList .fp32 (modRm o.mod) (modSat o.mod) (List.zipWith sum acc vx) lf
      let f1 : Frame := { r.f with lfsr := xs.2.1 }
      s.nextIp p ⟨r.env, (f1.putWords o.a [BitVec.ofNat 32 (exactCode .fp32 mn), BitVec.ofNat 32 (l.getD 0)]).putLanes o.d 32 g xs.1, k2⟩
    (let (ls, r) := (s.run p f).readAll [pair o.a, grp o.b, (⟨o.c, 32, 1, 1, false⟩, some .fp32), (⟨o.d, 32, g, g, true⟩, none)];
      exec (.smxUpd o) s = .next (done r ((ls.getD 0 []).getD 0 0) ((ls.getD 0 []).getD 1 0) ((ls.getD 2 []).getD 0 0) 0x3f800000
        (ls.getD 3 []) (ls.getD 1 []))) ∧
    (let (ls, r) := (s.run p f).readAll [pair o.a, grp o.b, pair o.c, (⟨o.d, 32, g, g, true⟩, none)];
      exec (.smxMerge o) s = .next (done r ((ls.getD 0 []).getD 0 0) ((ls.getD 0 []).getD 1 0) ((ls.getD 2 []).getD 0 0)
        ((ls.getD 2 []).getD 1 0) (ls.getD 3 []) (ls.getD 1 [])))

/-- smx.merge is commutative in its two triples, bit for bit (R139). -/
def Claims.MergeCommutes : Prop :=
  ∀ (mode : Rm) (sat : Bool) (m1 l1 m2 l2 : Nat) (acc1 acc2 : List Nat) (l : Word) (k : Nat),
    smxFold mode sat m1 l1 m2 l2 acc1 acc2 l k = smxFold mode sat m2 l2 m1 l1 acc2 acc1 l k

/-- The other float instructions and the online softmax complete with the results the rules give. -/
def Obligations.FloatFunctionsAndSoftmax : Prop :=
  Claims.FloatFunctions ∧ Claims.SpecialInputs ∧ Claims.Softmax ∧ Claims.MergeCommutes

/-- Stochastic rounding (R31): a magnitude m of units 2^e, not a whole number of units 2^k, goes up where the first
sixteen bits of its remainder and the draw's sixteen low bits carry, and down otherwise; a whole number stands. One draw
is taken either way. -/
def Claims.StochasticRounding : Prop :=
  ∀ (neg : Bool) (m : Nat) (e k : Int) (l : Word), e < k →
    let u := 2 ^ (k - e).toNat
    (roundUnits neg m e k .rsto l).2 = lfsrStep l ∧
    (m % u = 0 → (roundUnits neg m e k .rsto l).1 * u = m) ∧
    (m % u ≠ 0 → (roundUnits neg m e k .rsto l).1 =
      if 65536 ≤ (m % u) * 65536 / u + ((lfsrStep l).extractLsb' 0 16).toNat then m / u + 1 else m / u)

/-- Rounding keeps what a format can hold (R19, R29, R131): a code that is not NaN comes back, in every mode, with .sat
where it is no infinity. -/
def Claims.RoundingKeepsCodes : Prop :=
  ∀ (ty : Fmt) (x : Nat) (m : Rm) (l : Word), ty ∈ [Fmt.fp32, .bf16, .fp16, .e4m3, .e5m2, .e3m2, .e2m1] → x < 2 ^ fmtBits ty →
    valueOf ty x ≠ .nan → (roundTo (valueOf ty x) ty m false l).1 = some x ∧
      ((∀ b, valueOf ty x ≠ .inf b) → (roundTo (valueOf ty x) ty m true l).1 = some x)

/-- Rounding to nearest even gives the nearest count of units, and the even one of two equally near (R29). -/
def Claims.RoundingIsNearest : Prop :=
  ∀ (neg : Bool) (m : Nat) (e k : Int) (l : Word), e < k →
    let u := 2 ^ (k - e).toNat
    let n := (roundUnits neg m e k .rne l).1
    (∀ j : Nat, ((n * u : Int) - m).natAbs ≤ ((j * u : Int) - m).natAbs) ∧
    (∀ j : Nat, j ≠ n → ((n * u : Int) - m).natAbs = ((j * u : Int) - m).natAbs → n % 2 = 0)

/-- Stochastic rounding follows its draw, rounding keeps every code, and nearest even is nearest. -/
def Obligations.Rounding : Prop :=
  Claims.StochasticRounding ∧ Claims.RoundingKeepsCodes ∧ Claims.RoundingIsNearest

/-! ### Record control and matrix -/

/-- The terminators (R145 to R147): at a station, with no store still buffered, each completes the execution. It waits to
leave by the ports that the word names, in the order of completion, and the station takes over its k and kv registers. One
whose stores are not all acknowledged takes a park entry until they are (R158). -/
def Claims.Terminators : Prop :=
  ∀ (s : State) (p : Place) (st : Station) (f : Frame) (o : KForm), s.cur = .station p f → s.station? p = some st → f.stores = [] →
    (f.outst = [] ∨ st.parkFree = true) →
    let done : FrameSt := if f.outst = [] then .leaving else .acking
    let out (x : BitVec 3) : Fin 4 := Fin.ofNat 4 x.toNat
    let leaves (i : Instr) (e : Exit) : Prop := ∃ u st', exec i s = .next u ∧
      u.cur = .station p { f with st := done, exit := e, doneAt := s.nextId } ∧
      u.station? p = some st' ∧ st'.k = f.k ∧ st'.kv = f.kv ∧ u.hbm = s.hbm ∧ u.reqs = s.reqs
    leaves (.emit o) (.port (out o.pt)) ∧ leaves (.bight o) (.port (out o.pt)) ∧
    leaves (.fork o) (.fork (out o.pt) (out o.pf)) ∧ leaves (.drop o) .drop ∧
    (o.ia = true → leaves (.steer o) (.port
      (out (if f.q.getLsbD (o.imm.toNat % 4) != o.imm.getLsbD 2 then o.pt else o.pf)))) ∧
    (o.ia = false → ∃ u h, exec (.steer o) s = .next u ∧ u.cur = .station p h ∧ h.st = done ∧
      h.exit = .port (out (if ((s.run p f).word o.a).1 = 0 then o.pf else o.pt)))

/-- The buffered stores of an execution are performed when it completes, in program order (R48, R159): where no token
holds them, and a park entry is free for the acknowledgements that the record waits for, each becomes one request with its units
and addresses, after the requests there were, and none is left. -/
def Claims.CompletionSendsStores : Prop :=
  ∀ (s : State) (p : Place) (st : Station) (f : Frame) (o : KForm), s.cur = .station p f → s.station? p = some st →
    (st.parkFree = true ∨ f.outst = [] ∧ ∀ b ∈ f.stores, b.posted = true) →
    (∀ b ∈ f.stores, st.tokBlocks f.id b.waits (unitGranules b.units) = false) →
    ∃ (u : State) (qs : List Req) (h : Frame), exec (.emit o) s = .next u ∧ u.reqs = s.reqs ++ qs ∧ u.cur = .station p h ∧ h.stores = [] ∧
      qs.map Req.units = f.stores.map BufStore.units ∧ qs.map Req.vas = f.stores.map BufStore.vas ∧
      (∀ q ∈ qs, q.op = .wr ∧ q.stage = .sent ∧ q.place = p) ∧ (qs.map Req.id).Pairwise (· < ·) ∧
      (∀ (i j : Nat) (a b : Req), i < j → qs[i]? = some a → qs[j]? = some b → a.id ∈ b.after)

/-- A terminator completes the execution, and completion performs its buffered stores in order. -/
def Obligations.Terminators : Prop :=
  Claims.Terminators ∧ Claims.CompletionSendsStores

/-- The header writers (R148): the field gets the low bits of the immediate, or of the operand's word; setfmt leaves the
tag of a poison record (R28). Nothing else changes but the draws of a random operand. -/
def Claims.HeaderWriters : Prop :=
  ∀ (s : State) (p : Place) (f : Frame) (o : KForm), s.cur = .station p f → f.predOk o.pe o.pi o.pn = true →
    let v : Word := if o.ia then o.imm else ((s.run p f).word o.a).1
    let r : Run := if o.ia then s.run p f else ((s.run p f).word o.a).2
    let put (h : Hdr → Hdr) : Res := .next (s.nextIp p { r with f := { r.f with r := { r.f.r with hdr := h r.f.r.hdr } } })
    exec (.tag o) s = put (fun h => { h with seq := v.setWidth 24 }) ∧ exec (.setcls o) s = put (fun h => { h with cls := v.setWidth 3 }) ∧
    exec (.setlen o) s = put (fun h => { h with len := v.setWidth 5 }) ∧ exec (.setck o) s = put (fun h => { h with ck := v.setWidth 8 }) ∧
    exec (.setscale o) s = put (fun h => { h with scale := v.setWidth 8 }) ∧
    exec (.setfmt o) s = put (fun h => if h.fmt = 15 then h else { h with fmt := v.setWidth 4 })

/-- raise (R149, R411, R413): where the exception register is empty, no earlier fault waits for it and the lay has a
handler, the record enters it as it arrived, with the fault word of kind 0x0c, the instruction's index, the segment and
the low sixteen bits of the value; the execution is gone, and its stores with it. -/
def Claims.RaiseFaults : Prop :=
  ∀ (s : State) (p : Place) (x : Lay) (st : Station) (f : Frame) (o : KForm), s.cur = .station p f →
    f.predOk o.pe o.pi o.pn = true → s.lay? p.ctx p.slot = some x → x.handler.isSome = true → s.station? p = some st →
    st.exc = none → (∀ g ∈ st.frames, ∀ w, g.st ≠ .faulted w) → f.port ≠ 5 →
    let v : Word := if o.ia then o.imm else ((s.run p f).word o.a).1
    let fw : Word := BitVec.ofNat 32 (0x0c + 2 ^ 8 * (f.ip % 16) + 2 ^ 12 + 2 ^ 13 * f.seg.val + 2 ^ 16 * (v.toNat % 2 ^ 16))
    ∃ u st', exec (.raise o) s = .next u ∧ u.cur = .device ∧ u.station? p = some st' ∧ u.hbm = s.hbm ∧
      st'.exc = some ⟨f.orig, fw, BitVec.ofNat 32 (p.pid.val + 2 ^ 6 * p.sid.toNat), false, none, false, f.why⟩ ∧
      st'.k = st.k ∧ st'.kv = st.kv

/-- nop (R150) goes on in a thread and at a station, and nothing else changes. -/
def Claims.Nop : Prop :=
  (∀ (s : State) (c : CtxId) (t : Tid) (o : KForm), s.cur = .thread c t → exec (.nop o) s = .next (s.advance c t)) ∧
  (∀ (s : State) (p : Place) (f : Frame) (o : KForm), s.cur = .station p f →
    exec (.nop o) s = .next { s with cur := .station p { f with ip := f.ip + 1 } })

/-- The header writers, raise and nop complete with their own effects. -/
def Obligations.HeaderRaiseNop : Prop :=
  Claims.HeaderWriters ∧ Claims.RaiseFaults ∧ Claims.Nop

/-- inject (R151): with an open pass, a page of the lay and a link at the named reel output, a good header makes a record
of its own fields, with the context and the slot filled in and the payload's bytes read; the thread waits until that
record has left. A check that fails gives its status in d instead. The instruction is performed once no other of the slot
comes before it (R275), and its read once the thread's portal accesses are performed (R318). -/
def Claims.Inject : Prop :=
  ∀ (s : State) (c : CtxId) (t : Tid) (o : YForm), s.cur = .thread c t →
    let l : LaySlot := Fin.ofNat 8 o.ls.toNat
    let h := s.readT c t o.a
    let n := (h.extractLsb' 44 5).toNat
    let stops (k : Nat) : Prop := exec (.inject o) s = .next (s.finishT c t o.d (BitVec.ofNat 64 k))
    s.slotHeld c t l = false →
    (s.lay? c l = none → stops 1) ∧
    ∀ x, s.lay? c l = some x →
      (x.npages ≤ o.pg.toNat → stops 6) ∧
      (o.pg.toNat < x.npages → x.passOpen = false → stops 2) ∧
      (o.pg.toNat < x.npages → x.passOpen = true →
        ((h.extractLsb' 61 3 ≠ 0 ∨ 16 < n) → stops 3) ∧
        (h.extractLsb' 61 3 = 0 → n ≤ 16 →
          (x.linkFrom? ⟨Fin.ofNat 64 o.pg.toNat, reelSid, o.imm16.toNat % 4⟩ = none → stops 4) ∧
          ((x.linkFrom? ⟨Fin.ofNat 64 o.pg.toNat, reelSid, o.imm16.toNat % 4⟩).isSome = true →
            let hdr : Hdr := ⟨l, c, h.extractLsb' 49 3, h.extractLsb' 44 5, h.extractLsb' 40 4, h.extractLsb' 32 8, h.extractLsb' 24 8,
              h.extractLsb' 0 24⟩
            let waits (r : Rec) (u : State) : State := u.modThread c t fun th =>
              { th with wait := .inject o.d l (Fin.ofNat 64 o.pg.toNat) (Fin.ofNat 4 o.imm16.toNat) r, accs := [] }
            s.threadPending c t = false →
            (n = 0 → exec (.inject o) s = .next (waits ⟨hdr, vzero, []⟩ s)) ∧
            (∀ bs u, n ≠ 0 → s.threadRead c t (s.readT c t o.b).toNat (4 * n) 4 = (.ok bs, u) →
              exec (.inject o) s = .next (waits ⟨hdr, payOfBytes bs, []⟩ u)))))

/-- INJECT_RECORD_LEAVES (R151): the record that a thread waits to inject takes a slot of its link once one is free and the
context drains for no pre-emption, in turn with the records of the stream slot, and the thread goes on with 0 in d; where
the pass has ended it goes on with 2, where the lay is being swapped with 5. -/
def Claims.InjectLeaves : Prop :=
  ∀ (s : State) (c : CtxId) (t : Tid) (x : Lay) (d : Spec) (l : LaySlot) (pg : Pid) (m : Fin 4) (r : Rec),
    (s.thread c t).wait = .inject d l pg m r → s.lay? c l = some x →
    (∀ k st, x.succ = none → x.passOpen = true → x.linkFrom? ⟨pg, reelSid, m.val⟩ = some k → x.stream? pg.val m = some st →
      (st.lastInj = false ∨ st.writes = true ∨ s.slotReady c x pg m st = false) → x.hasSlot k = true → (s.ctx c).preempt = none →
      exec (.injectRecordLeaves c t) s = .next ((s.setLay c l (some (((x.push k (.data r)).modStream pg.val m fun (z : Stream) =>
        { z with lastInj := true }).progressed))).finishT c t d 0)) ∧
    (x.succ.isSome = true → exec (.injectRecordLeaves c t) s = .next (s.finishT c t d 5)) ∧
    (x.succ = none → x.passOpen = false → exec (.injectRecordLeaves c t) s = .next (s.finishT c t d 2))

/-- inject builds a record, waits for its link and gives its status. -/
def Obligations.Inject : Prop :=
  Claims.Inject ∧ Claims.InjectLeaves

/-- The matrix instructions at a matrix station (R181 to R193): mma under no unlay stage adds the group sums of a record
into its row, or spoils the row where record, tile or tag is bad; tld fills a column of the loading tile; tswap swaps or
counts uses; tzero empties the loading tile; accz clears a row or an accumulator; accrd reads a quarter out as a record of
16 words and may clear it; ulset writes a slot of u. mma under expand, tld under absorb and accrd.ul are as their
functions say. The execution goes on. A second tswap of a segment replaces the first one's count, and a load after a tswap
acts on the loading tile at once: the model's choice, log entry 26; accrd.ul of elements that u lacks gives free values, log
entry 2. -/
def Claims.MatrixInstructions : Prop :=
  ∀ (s : State) (p : Place) (f : Frame) (m : Matrix) (o : XForm), s.cur = .station p f → f.mx = some m →
    let h := f.r.hdr
    let pay : Vec16 := vput vzero 0 ((s.run p f).fWords 0 16).1
    let r := ((s.run p f).fWords 0 16).2
    let done (g : Frame) : Res := .next (s.nextIp p { r with f := g })
    let puts (n : Matrix) : Res := done { f with mx := some n }
    let a : Fin 4 := Fin.ofNat 4 o.acc.toNat
    let row : Fin 32 := Fin.ofNat 32 (h.ck.toNat / 2)
    (f.r.isPoison = false → pay = f.r.pay) ∧
    (o.um ≠ 1 → o.aty ≠ 12 → exec (.mma o) s = puts
      (if h.fmt = 15 ∨ m.ta.poison = true ∨ (m.ta.fmt.isSome = true ∧ m.ta.fmt ≠ some o.bty) ∨ (o.um = 2 ∧ m.ta.chunk ≠ some o.n16)
       then (m.modRow a row fun x => { x with mask := 0xf }).use
       else
         let avs := decodeAll (fmtOf o.aty) h.scale (recElems (fmtOf o.aty) h.len.toNat pay)
         (m.modRow a row fun x =>
           { x with vals := Vector.ofFn fun j => addGroups x.vals[j] (groupSums avs (m.ta.column (fmtOf o.bty) j)) }).use)) ∧
    (o.um ≠ 1 → exec (.mma o) s = puts (mmaPlain o m h pay)) ∧
    (o.um = 1 → exec (.mma o) s = done { f with mx := some (mmaExpand o m h pay f.seg f.lfsr).1, lfsr := (mmaExpand o m h pay f.seg f.lfsr).2 }) ∧
    (o.um ≠ 2 → exec (.tld o) s = puts (let t := m.tb.tagFor o.bty none;
      { m with tb := { t with cols := t.cols.setIfInBounds (h.seq.toNat % 64) pay,
                              scales := t.scales.setIfInBounds (h.seq.toNat % 64) (if o.bty = 12 ∨ o.bty = 13 then h.scale else 0x7f),
                              poison := t.poison || h.fmt == 15 } })) ∧
    (o.um = 2 → exec (.tld o) s = done { f with mx := some (tldAbsorb o m h pay f.seg f.lfsr).1, lfsr := (tldAbsorb o m h pay f.seg f.lfsr).2 }) ∧
    (o.n16 = 0 → exec (.tswap o) s = puts { m with ta := m.tb, tb := Tile.empty, swap := none }) ∧
    (o.n16 ≠ 0 → exec (.tswap o) s = puts { m with swap := some o.n16 }) ∧
    ((∀ x y z, m.w.owner ≠ some (.absorb x y z)) → exec (.tzero o) s = puts { m with tb := Tile.empty }) ∧
    (∀ x y z, m.w.owner = some (.absorb x y z) → exec (.tzero o) s = puts { m with tb := Tile.empty, w := WVec.empty }) ∧
    (o.n16.getLsbD 15 = true → exec (.accz o) s = puts { m with acc := m.acc.set a.val (m.acc[a.val].map fun x =>
      { x with vals := Vector.replicate 64 0, mask := 0, half := false }) }) ∧
    (o.n16.getLsbD 15 = false → exec (.accz o) s = puts (m.modRow a row fun x =>
      { x with vals := Vector.replicate 64 0, mask := 0, half := false })) ∧
    (∀ q : Fin 4, o.n16.toNat % 4 = q.val →
      let old := m.row a row
      let words : Vec16 := Vector.ofFn fun i => (old.vals[16 * q.val + i.val]'(by omega))
      let hdr : Hdr := { h with len := 16, scale := 0, fmt := if old.mask.getLsbD q.val || h.fmt == 15 then 15 else 1 }
      (o.n16.getLsbD 2 = false → exec (.accrd o) s = done { f with r := { f.r with hdr := hdr, pay := words } }) ∧
      (o.n16.getLsbD 2 = true → exec (.accrd o) s = (let n := m.modRow a row fun x =>
          { x with vals := Vector.ofFn fun i => if i.val / 16 = q.val then 0 else x.vals[i], mask := x.mask &&& ~~~((1 : BitVec 4) <<< q.val) }
        done { f with r := { f.r with hdr := hdr, pay := words }, mx := some n }))) ∧
    (let c := o.n16.toNat / 8 % 8
     let q := o.n16.toNat % 8
     let x := ulElems m (m.row a row) c (fmtOf o.bty) (modRm o.mod) (modSat o.mod) ((List.range 16).map fun j => 16 * q + j) f.lfsr
     let bad := (m.row a row).mask ≠ 0 ∨ m.udc < 64 * c + 64 ∨ m.uPoisoned (64 * c) 64 (16 * q) 16 = true ∨ h.fmt = 15
     let hdr : Hdr := { h with len := if o.bty = 1 then 16 else 8, scale := 0, fmt := if bad then 15 else o.bty }
     let out (ws : List Word) : Frame := { f with lfsr := x.2, r := { f.r with pay := vput f.r.pay 0 ws, hdr := hdr } }
     (m.uReaches c = true → exec (.accrdUl o) s = done (out (wordsOfStr hdr.len.toNat (strOfElems (fmtBits (fmtOf o.bty)) x.1)))) ∧
     (m.uReaches c = false → ∃ ws, ws.length = hdr.len.toNat ∧
       exec (.accrdUl o) s = .next (s.nextIp p { r with f := out ws, free := r.free + hdr.len.toNat }))) ∧
    exec (.ulset o) s = puts { m with u := putSlot (h.seq.toNat % 1024) pay m.u, ufmt := some o.bty, udc := o.n16.toNat,
                                      upoison := if h.fmt = 15 then insertN (h.seq.toNat % 1024) m.upoison else eraseN (h.seq.toNat % 1024) m.upoison }

/-- A slot of u reads as it was last written, and no other slot changes (R193), where the store is in order. -/
def Claims.UslotReadsBack : Prop :=
  ∀ (m : Matrix) (n k : Nat) (v : Vec16), (m.u.map Prod.fst).Pairwise (· < ·) → (∀ x ∈ m.u, x.2 ≠ vzero) →
    let u := putSlot n v m.u
    (u.map Prod.fst).Pairwise (· < ·) ∧ (∀ x ∈ u, x.2 ≠ vzero) ∧
    ({ m with u := u }).uSlot k = if k = n then v else m.uSlot k

/-- The matrix instructions complete at a matrix station, and a slot of u reads back. -/
def Obligations.MatrixInstructions : Prop :=
  Claims.MatrixInstructions ∧ Claims.UslotReadsBack

/-! ### Memory instructions -/

/-- A far access of a thread's instruction as it stands, or as it begins: its whole range is then translated and checked
at once, and cut into its unit accesses (R160, R328, R330). -/
def Claims.ThreadAccess (s : State) (c : CtxId) (t : Tid) (ea n : Nat) (wr : Bool) (x : ThreadAcc) (s1 : State) : Prop :=
  let found := (s.thread c t).accs.find? fun y => y.va == ea && y.len == n && y.wr == wr
  (found = some x ∧ s1 = s) ∨
  (found = none ∧ ∃ ps s0, s.farRange c ea n 1 ⟨!wr, wr, false⟩ = (.ok ps, s0) ∧
    x = ⟨ea, n, wr, ps.flatMap fun p => hbmUnits p.1 p.2, [], false⟩ ∧ s1 = s0.modThread c t fun th => th.putAcc x)

/-- A far load of a thread (R153, R154, R160, R328, R330): where no portal access of the thread stands, its checked access
reads the next unit, or under the bring-up mode those of one stack. With the last one d gets the bytes, least significant
first, zero-extended, where none was poisoned; before, the instruction stands and notes what it has read. No byte of memory
changes. That a unit is read in a turn of its own is the model's choice, log entry 18. -/
def Claims.ThreadLoad : Prop :=
  ∀ (s s1 : State) (c : CtxId) (t : Tid) (o : MForm) (x : ThreadAcc),
    s.cur = .thread c t → spaceOf o.sp = .far → s.upkeep.flaws = [] → s.upkeep.repairing = [] → s.threadPending c t = false →
    let ea := (s.readT c t o.a + o.disp.signExtend 64).toNat
    let n := szBytes o.sz
    Claims.ThreadAccess s c t ea n false x s1 → x.todo ≠ [] →
    let us := s1.stackEvent 64 x.todo
    (∀ v ∈ us, v.1 + v.2 ≤ hbmSize) →
    let bad := x.bad || us.any fun v => isPoisoned 32 s.hbmPoison v.1 v.2
    let y : ThreadAcc := { x with todo := x.todo.drop us.length, got := x.got ++ us.flatMap (fun v => readBytes s.hbm v.1 v.2), bad := bad }
    let s2 := s1.modThread c t fun th => th.putAcc y
    s2.hbm = s.hbm ∧ s2.reqs = s.reqs ∧ us ≠ [] ∧ (s.secure.bringup.getLsbD 0 = false → us = x.todo.take 1) ∧
    (y.todo = [] → bad = false → exec (.ld o) s = .next (s2.finishT c t o.d (BitVec.ofNat 64 (natOfBytes y.got)))) ∧
    (y.todo ≠ [] → exec (.ld o) s = .next (s2.modThread c t fun th =>
      { th with wait := if th.wait = .none then .stand .units else th.wait }))

/-- A far store of a thread (R153, R154, R160, R328, R330): its checked access writes the next unit, or under the bring-up
mode those of one stack: the bytes of b in their order stand there, and every other byte of HBM is as before. With the last
unit the thread goes on with every register unchanged; before, the instruction stands and notes what it has written. That a
unit is written in a turn of its own is the model's choice, log entry 18. -/
def Claims.ThreadStore : Prop :=
  ∀ (s s1 : State) (c : CtxId) (t : Tid) (o : MForm) (x : ThreadAcc),
    s.cur = .thread c t → spaceOf o.sp = .far → s.upkeep.flaws = [] → s.upkeep.repairing = [] → memWf s.hbm = true →
    s.threadPending c t = false →
    let ea := (s.readT c t o.a + o.disp.signExtend 64).toNat
    let n := szBytes o.sz
    Claims.ThreadAccess s c t ea n true x s1 → x.todo ≠ [] →
    let us := s1.stackEvent 64 x.todo
    let done := n - (x.todo.map Prod.snd).sum
    let y : ThreadAcc := { x with todo := x.todo.drop us.length }
    (x.todo.map Prod.snd).sum ≤ n → (∀ v ∈ us, v.1 + v.2 ≤ hbmSize) →
    ∃ u, exec (.st o) s = .next u ∧ us ≠ [] ∧ (s.secure.bringup.getLsbD 0 = false → us = x.todo.take 1) ∧
      (∀ pre v post, us = pre ++ v :: post → (∀ w ∈ post, w.1 + w.2 ≤ v.1 ∨ v.1 + v.2 ≤ w.1) →
        ∀ i < v.2, readByte u.hbm (v.1 + i) = (s.readT c t o.b).extractLsb' (8 * (done + (pre.map Prod.snd).sum + i)) 8) ∧
      (∀ a, (∀ v ∈ us, a < v.1 ∨ v.1 + v.2 ≤ a) → readByte u.hbm a = readByte s.hbm a) ∧
      (y.todo = [] → u.ctxs = ((s1.modThread c t fun th => th.putAcc y).advance c t).ctxs) ∧
      (y.todo ≠ [] → u.ctxs = (s1.modThread c t fun th =>
        { th.putAcc y with wait := if th.wait = .none then .stand .units else th.wait }).ctxs) ∧
      u.hostMem = s.hostMem ∧ u.peerMem = s.peerMem ∧ u.reqs = s.reqs

/-- The far atomics of a thread (R162, R166): aligned, in a region it may read and write, without poison, atom leaves the
operator's result in memory and cas the new bytes where the old ones equal d's; the old bytes go to d, but under the
form that returns nothing. Every other byte is as before. -/
def Claims.ThreadAtomics : Prop :=
  ∀ (s s1 : State) (c : CtxId) (t : Tid) (o : MForm) (lf : Leaf), s.cur = .thread c t → spaceOf o.sp = .far →
    s.upkeep.flaws = [] → s.upkeep.repairing = [] → memWf s.hbm = true →
    let ea := (s.readT c t o.a + o.disp.signExtend 64).toNat
    let n := szBytes o.sz
    (n = 4 ∨ n = 8) → s.threadPending c t = false → rangeCanonical ea n = true → ea % n = 0 →
    s.translate (s.dataUnit c) c ea ⟨true, true, false⟩ = (.ok lf, s1) → lf.mt = 0 →
    let pa := lf.pa + ea % 65536
    pa + n ≤ hbmSize → isPoisoned 32 s.hbmPoison pa n = false →
    let old := readBytes s.hbm pa n
    let v := (s.readT c t o.b).toNat % 2 ^ (8 * n)
    (∃ u, exec (.atom o) s = .next u ∧ readBytes u.hbm pa n = bytesOfNat n (atomInt o.aop (8 * n) (natOfBytes old) v) ∧
      (∀ a, a < pa ∨ pa + n ≤ a → readByte u.hbm a = readByte s.hbm a) ∧
      u.ctxs = (if o.mod.getLsbD 3 then s1.advance c t else s1.finishT c t o.d (BitVec.ofNat 64 (natOfBytes old))).ctxs) ∧
    (o.mod.getLsbD 3 = false → ∃ u, exec (.cas o) s = .next u ∧
      readBytes u.hbm pa n = (if old = bytesOfNat n (s.readT c t o.d).toNat then bytesOfNat n (s.readT c t o.b).toNat else old) ∧
      (∀ a, a < pa ∨ pa + n ≤ a → readByte u.hbm a = readByte s.hbm a) ∧
      u.ctxs = (s1.finishT c t o.d (BitVec.ofNat 64 (natOfBytes old))).ctxs)

/-- The physical ranges of a far access of a thread (R153, R160, R399): one where its bytes lie in one region, two where they
lie in two, each at the place in its leaf that the address has in its region. -/
def Claims.ThreadRange : Prop :=
  ∀ (s s0 : State) (c : CtxId) (ea n k : Nat) (need : Need) (lf : Leaf), s.upkeep.repairing = [] → 0 < n → n ≤ 65536 →
    rangeCanonical ea n = true → ea % k = 0 → s.translate (s.dataUnit c) c ea need = (.ok lf, s0) → lf.mt = 0 →
    let n1 := 65536 - ea % 65536
    (n ≤ n1 → s.farRange c ea n k need = (.ok [(lf.pa + ea % 65536, n)], s0)) ∧
    (n1 < n → ∀ l2 s2, s0.translate (s.dataUnit c) c (ea + n1) need = (.ok l2, s2) → l2.mt = 0 →
      s.farRange c ea n k need = (.ok [(lf.pa + ea % 65536, n1), (l2.pa, n - n1)], s2)) ∧
    (n1 < n → ∀ e s2, s0.translate (s.dataUnit c) c (ea + n1) need = (.error e, s2) →
      s.farRange c ea n k need = (.error ⟨4 + e, ea + n1⟩, s2))

/-- Loads, stores and atomics of a thread complete, with the frame of memory. -/
def Obligations.ThreadMemory : Prop :=
  Claims.ThreadLoad ∧ Claims.ThreadStore ∧ Claims.ThreadAtomics ∧ Claims.ThreadRange

/-- Where a thread's far access traps (R160, R172, R416): TVAL and EPC are the address and the pc, cause 3 for a range that is
not canonical, 4 for a misaligned atomic, 5 to 8 for what translation refuses, of the second region too, 6 for memory that is
not HBM, 9 for poison that a load or an atomic meets, which a load takes once its last unit has been read, and 0x200 more for
a write; nothing is written. The order of the checks, the address of a second region's failure and when a load's poison is
taken are the model's choice (log entries 17, 35 and 18). -/
def Obligations.ThreadAccessTraps : Prop :=
  ∀ (s : State) (c : CtxId) (t : Tid) (o : MForm), s.cur = .thread c t → spaceOf o.sp = .far → s.threadPending c t = false →
    s.upkeep.repairing = [] →
    let ea := (s.readT c t o.a + o.disp.signExtend 64).toNat
    let n := szBytes o.sz
    let trapAt (u : State) (cause va : Nat) : State := u.takeTrap c t (s.thread c t).pc (BitVec.ofNat 64 cause) (BitVec.ofNat 64 va)
    let trap (u : State) (cause : Nat) : State := trapAt u cause ea
    let near (need : Need) (e : Except Nat Leaf) (s1 : State) : Prop := rangeCanonical ea n = true ∧ s.translate (s.dataUnit c) c ea need = (e, s1)
    let rd : Need := ⟨true, false, false⟩
    let wr : Need := ⟨false, true, false⟩
    let rw' : Need := ⟨true, true, false⟩
    (rangeCanonical ea n = false → ((s.thread c t).accs = [] → exec (.ld o) s = .next (trap s 3) ∧ exec (.st o) s = .next (trap s 0x203)) ∧
      exec (.atom o) s = .next (trap s 0x203) ∧ exec (.cas o) s = .next (trap s 0x203)) ∧
    (rangeCanonical ea n = true → ea % n ≠ 0 → exec (.atom o) s = .next (trap s 0x204) ∧ exec (.cas o) s = .next (trap s 0x204)) ∧
    (∀ e s1, (s.thread c t).accs = [] →
      (near rd (.error e) s1 → exec (.ld o) s = .next (trap s1 (4 + e))) ∧ (near wr (.error e) s1 → exec (.st o) s = .next (trap s1 (0x204 + e)))) ∧
    (∀ e s1, ea % n = 0 → near rw' (.error e) s1 →
      exec (.atom o) s = .next (trap s1 (0x204 + e)) ∧ exec (.cas o) s = .next (trap s1 (0x204 + e))) ∧
    (∀ lf s1 e s2, (s.thread c t).accs = [] → lf.mt = 0 → 65536 < ea % 65536 + n →
      let next := ea + (65536 - ea % 65536)
      (near rd (.ok lf) s1 → s1.translate (s.dataUnit c) c next rd = (.error e, s2) → exec (.ld o) s = .next (trapAt s2 (4 + e) next)) ∧
      (near wr (.ok lf) s1 → s1.translate (s.dataUnit c) c next wr = (.error e, s2) → exec (.st o) s = .next (trapAt s2 (0x204 + e) next))) ∧
    (∀ lf s1, lf.mt ≠ 0 → ea % 65536 + n ≤ 65536 →
      ((s.thread c t).accs = [] → (near rd (.ok lf) s1 → exec (.ld o) s = .next (trap s1 6)) ∧
        (near wr (.ok lf) s1 → exec (.st o) s = .next (trap s1 0x206))) ∧
      (ea % n = 0 → near rw' (.ok lf) s1 → exec (.atom o) s = .next (trap s1 0x206) ∧ exec (.cas o) s = .next (trap s1 0x206))) ∧
    (∀ lf s1, ea % n = 0 → ea % 65536 + n ≤ 65536 → lf.mt = 0 → s.upkeep.flaws = [] → near rw' (.ok lf) s1 →
      let pa := lf.pa + ea % 65536
      pa + n ≤ hbmSize → isPoisoned 32 s.hbmPoison pa n = true →
      exec (.atom o) s = .next (trap s1 0x209) ∧ exec (.cas o) s = .next (trap s1 0x209)) ∧
    (∀ x s1, Claims.ThreadAccess s c t ea n false x s1 → x.todo ≠ [] → s.upkeep.flaws = [] →
      let us := s1.stackEvent 64 x.todo
      (∀ v ∈ us, v.1 + v.2 ≤ hbmSize) → x.todo.drop us.length = [] →
      (x.bad = true ∨ ∃ v ∈ us, isPoisoned 32 s.hbmPoison v.1 v.2 = true) →
      exec (.ld o) s = .next (trap (s1.modThread c t fun th => th.putAcc
        { x with todo := [], got := x.got ++ us.flatMap (fun v => readBytes s.hbm v.1 v.2), bad := true }) 9))

/-- A portal access of a thread (R160, R469, R471): where its range translates, one request goes out with the access's
units. A posted store lets the thread go on; every other access stalls it until the reply. -/
def Obligations.ThreadPortal : Prop :=
  ∀ (s s1 : State) (c : CtxId) (t : Tid) (o : MForm) (us : List MUnit), s.cur = .thread c t → spaceOf o.sp = .portal →
    s.threadPending c t = false →
    let ea := (s.readT c t o.a + o.disp.signExtend 64).toNat
    let n := szBytes o.sz
    let bs := bytesOfNat n (s.readT c t o.b).toNat
    let stalls (i : Instr) (op : UOp) (d : Option Spec) : Prop := ∃ u q, exec i s = .next u ∧ u.reqs = s1.reqs ++ [q] ∧ q.id = s1.nextId ∧
      q.op = op ∧ q.units = us ∧ q.owner = .thread t ∧ q.place.ctx = c ∧ q.stage = .sent ∧
      u.ctxs = (s1.modThread c t fun th => { th with wait := .portal s1.nextId d }).ctxs
    (s.portalRange c ea n 1 ⟨true, false, false⟩ [] [] = (.ok us, s1) → stalls (.ld o) .rd (some o.d)) ∧
    (s.portalRange c ea n 1 ⟨false, true, false⟩ bs [] = (.ok us, s1) →
      (o.mod.toNat % 8 ≠ 0 → stalls (.st o) .wr none) ∧
      (o.mod.toNat % 8 = 0 → ∃ u q, exec (.st o) s = .next u ∧ u.reqs = s1.reqs ++ [q] ∧ q.op = .wr ∧ q.units = us ∧
        q.posted = true ∧ u.ctxs = (s1.advance c t).ctxs)) ∧
    (∀ tg, xTarget s c ea = some tg → s.supports c (nodeOfTarget tg) .cas n = true →
      s.portalRange c ea n n ⟨true, true, false⟩ bs (bytesOfNat n (s.readT c t o.d).toNat) = (.ok us, s1) →
      o.mod.getLsbD 3 = false → stalls (.cas o) .cas (some o.d)) ∧
    (∀ tg, xTarget s c ea = some tg → s.supports c (nodeOfTarget tg) (.atomI o.aop (if n = 8 then 8 else 4)) n = true →
      s.portalRange c ea n n ⟨true, true, false⟩ bs [] = (.ok us, s1) →
      let op : UOp := .atomI o.aop (if n = 8 then 8 else 4)
      (o.mod.getLsbD 3 = false → stalls (.atom o) op (some o.d)) ∧
      (o.mod.getLsbD 3 = true → o.mod.toNat % 8 ≠ 0 → stalls (.atom o) op none) ∧
      (o.mod = 8 → ∃ u q, exec (.atom o) s = .next u ∧ u.reqs = s1.reqs ++ [q] ∧ q.op = op ∧ q.units = us ∧ q.posted = true ∧
        u.ctxs = (s1.advance c t).ctxs))

/-- The loads of a station (R152 to R159, R161, R168): where the checks of R153 to R157 pass, no token holds the access and
a park entry is free, the access goes out as one request with its units, and the execution parks on it. ldx reads one
word at each index, its elements in an order of their own (R330). -/
def Claims.StationLoads : Prop :=
  ∀ (s : State) (p : Place) (x : Lay) (st : Station) (f : Frame) (o : MForm) (us : List MUnit) (vas : List VaRef),
    s.cur = .station p f → s.lay? p.ctx p.slot = some x → s.station? p = some st → st.parkFree = true →
    st.tokBlocks f.id f.waits (unitGranules us) = false →
    let n := szBytes o.sz
    let (base, r1) := (s.run p f).base o
    let parks (r : Run) (i : Instr) (op : UOp) : Prop := ∃ u q, exec i s = .next u ∧ u.reqs = s.reqs ++ [q] ∧ q.id = s.nextId ∧
      q.op = op ∧ q.units = us ∧ q.vas = vas ∧ q.owner = .exec f.id ∧ q.place = p ∧ q.stage = .sent ∧ u.hbm = s.hbm ∧ u.ctxs = s.ctxs ∧
      u.cur = .station p { (r.f.touch us) with st := .parked s.nextId }
    ({ s with free := r1.free }.checkAccess p x o loadKind [(effAddr o base 0, n)] [] [] = .ok us vas → parks r1 (.ld o) .rd) ∧
    ({ s with free := r1.free }.checkAccess p x o ⟨.ldp, .ldp, n, false, false⟩ [(effAddr o base 0, n)] [] [] = .ok us vas →
      parks r1 (.ldp o) .ldp) ∧
    (let (ix, r2) := r1.words o.b (szWords o.sz);
      { s with free := r2.free }.checkAccess p x o { loadKind with align := 4 } (ix.map fun (w : Word) => (effAddr o base (4 * w.toInt), 4)) [] [] =
        .ok us vas →
      ∃ u q, exec (.ldx o) s = .next u ∧ u.reqs = s.reqs ++ [q] ∧ q.id = s.nextId ∧ q.op = .rd ∧ q.units.Perm us ∧
        q.units = q.perm.filterMap (fun i => us[i]?) ∧ q.vas = vas ∧ q.owner = .exec f.id ∧ q.place = p ∧ q.stage = .sent ∧
        u.hbm = s.hbm ∧ u.ctxs = s.ctxs ∧ ∃ h, u.cur = .station p h ∧ h.st = .parked s.nextId ∧ h.k = r2.f.k ∧ h.kv = r2.f.kv ∧ h.r = r2.f.r ∧
          h.ip = f.ip)

/-- The stores of a station (R48, R159, R161): where the checks pass, the store is buffered behind those before it, with
its units, and the execution goes on; nothing is written yet. It is posted where it is relaxed, of itself or since its domain
is its own record alone (R152, R320). The elements of stx are in an order of their own, but for those of one address (R161,
R330). On a poison record st and stx fault with kind 9, and so do the atomics and stp (R172). -/
def Claims.StationStores : Prop :=
  ∀ (s : State) (p : Place) (x : Lay) (f : Frame) (o : MForm) (us : List MUnit) (vas : List VaRef),
    s.cur = .station p f → s.lay? p.ctx p.slot = some x →
    let n := szBytes o.sz
    let g := szWords o.sz
    let (base, r1) := (s.run p f).base o
    let (ws, r2) := r1.words o.b g
    let (dw, r3) := r2.words o.d g
    let (_, ra) := r1.memWords o (atomKind o) o.b
    let (_, rc) := ra.memWords o (casKind o) o.d
    let posted : Bool := o.mod.toNat % 8 == 0 || (decide (2 ≤ o.mod.toNat % 8) && o.scope == 0)
    let faults (i : Instr) (r : Run) : Prop := exec i s = .next ({ s with free := r.free }.faultExec p r.f 9 0 true)
    let next (r : Run) (b : BufStore) : Frame := { (r.f.touch us) with stores := f.stores ++ [b], ip := f.ip + 1 }
    let buffers (r : Run) (i : Instr) : Prop := ∃ b, exec i s = .next { s with free := r.free, cur := .station p (next r b) } ∧ b.units = us ∧ b.vas = vas ∧ b.posted = posted
    (f.r.isPoison = false →
      { s with free := r2.free }.checkAccess p x o storeKind [(effAddr o base 0, n)] (bytesOfWords ws n) [] = .ok us vas →
      buffers r2 (.st o)) ∧
    (f.r.isPoison = false → { s with free := r3.free }.checkAccess p x o { storeKind with align := 4 }
        (ws.map fun (w : Word) => (effAddr o base (4 * w.toInt), 4)) (bytesOfWords dw (4 * g)) [] = .ok us vas →
      ∃ u h b, exec (.stx o) s = .next u ∧ u.cur = .station p h ∧ h.stores = f.stores ++ [b] ∧ h.ip = f.ip + 1 ∧ h.k = r3.f.k ∧
        h.kv = r3.f.kv ∧ h.r = r3.f.r ∧ b.units.Perm us ∧ b.vas = vas ∧ b.posted = posted ∧
        (∀ nd a, b.units.filter (fun v => v.node == nd && v.addr == a) = us.filter fun v => v.node == nd && v.addr == a) ∧
        u.hbm = s.hbm ∧ u.ctxs = s.ctxs ∧ u.reqs = s.reqs) ∧
    (f.r.isPoison = true → faults (.st o) r2 ∧ faults (.stx o) r3 ∧ faults (.atom o) ra ∧ faults (.atomf o) ra ∧ faults (.cas o) rc ∧
      faults (.stp o) r2)

/-- The atomics of a station, and stp (R159, R162, R163, R166, R168): where the checks pass and no token holds the access
or a buffered store, the buffered stores go out first, in program order, but for stp, whose claim goes alone; the access goes
out after them as one request that follows each. An atomic without a return that is relaxed lets the execution go on; the
others park it. -/
def Claims.StationAtomics : Prop :=
  ∀ (s : State) (p : Place) (x : Lay) (st : Station) (f : Frame) (o : MForm) (us : List MUnit) (vas : List VaRef),
    s.cur = .station p f → s.lay? p.ctx p.slot = some x → s.station? p = some st → st.parkFree = true →
    (∀ b ∈ f.stores, st.tokBlocks f.id b.waits (unitGranules b.units) = false) →
    f.r.isPoison = false → st.tokBlocks f.id f.waits (unitGranules us) = false →
    let n := szBytes o.sz
    let g := szWords o.sz
    let (base, r1) := (s.run p f).base o
    let (bw, r2) := r1.memWords o (atomKind o) o.b
    let (dw, r3) := r2.memWords o (casKind o) o.d
    let (cw, r4) := r1.words o.b g
    let relaxed : Bool := o.mod.toNat % 8 == 0 || (decide (2 ≤ o.mod.toNat % 8) && o.scope == 0)
    let sends (i : Instr) (stores : List BufStore) (ok : State → List Req → Req → Frame → Prop) : Prop :=
      ∃ u qs q h, exec i s = .next u ∧ u.reqs = s.reqs ++ qs ++ [q] ∧ u.cur = .station p h ∧ ok u qs q h ∧
        qs.map Req.units = stores.map BufStore.units ∧ (∀ y ∈ qs, y.op = .wr ∧ y.stage = .sent ∧ y.id < q.id ∧ y.id ∈ q.after) ∧
        (∀ (i j : Nat) (a b : Req), i < j → qs[i]? = some a → qs[j]? = some b → a.id ∈ b.after) ∧
        q.units = us ∧ q.vas = vas ∧ q.stage = .sent ∧ u.hbm = s.hbm ∧ u.ctxs = s.ctxs
    let parks (i : Instr) (op : UOp) : Prop := sends i f.stores fun _ _ q h =>
      q.op = op ∧ q.posted = false ∧ h.st = .parked q.id ∧ h.ip = f.ip ∧ h.stores = []
    let goes (i : Instr) (op : UOp) : Prop := sends i f.stores fun _ _ q h =>
      q.op = op ∧ q.posted = true ∧ h.st = f.st ∧ h.ip = f.ip + 1 ∧ h.stores = []
    let checks (ws : List Word) (r : Run) (k : AccessKind) (cmp : List Byte) : Prop :=
      { s with free := r.free }.checkAccess p x o k [(effAddr o base 0, n)] (bytesOfWords ws n) cmp = .ok us vas
    (noReturn o = false ∨ relaxed = false →
      (checks bw r2 (atomKind o) [] → parks (.atom o) (atomKind o).op) ∧ (checks bw r2 (atomfKind o) [] → parks (.atomf o) (.atomF o.aop)) ∧
      (checks bw r3 (casKind o) (bytesOfWords dw n) → parks (.cas o) .cas)) ∧
    (noReturn o = true → relaxed = true →
      (checks bw r2 (atomKind o) [] → goes (.atom o) (atomKind o).op) ∧ (checks bw r2 (atomfKind o) [] → goes (.atomf o) (.atomF o.aop))) ∧
    (noReturn o = false → checks cw r4 ⟨.stp, .claim, n, true, false⟩ [] →
      sends (.stp o) [] fun u qs q h => q.op = .claim ∧ q.posted = false ∧ q.id = s.nextId ∧ h.st = .parked q.id ∧ h.ip = f.ip ∧
        h.stores = f.stores ∧ qs = [] ∧ u.nextId = s.nextId + 1)

/-- Loads, stores, atomics and presence stores of a station complete: as requests, or buffered. -/
def Obligations.StationMemory : Prop :=
  Claims.StationLoads ∧ Claims.StationStores ∧ Claims.StationAtomics

/-- fence, prf and the ordering tokens (R169 to R171, R318, R320): a fence of a domain beyond the record marks the
record's posted accesses, a thread goes on; prf goes on and touches no register of the execution but its draws;
otok.put notes what the execution has touched, and otok.wait the queue that later accesses wait on. That a thread's release
fence at .sys stands while a portal access of it does, and that a domain beyond the record orders towards every party, are
the model's choices (log entries 57 and 16). -/
def Obligations.FenceAndTokens : Prop :=
  (∀ (s : State) (c : CtxId) (t : Tid) (o : MForm), s.cur = .thread c t →
    ((o.scope ≠ 4 ∨ o.mod.toNat % 8 < 2 ∨ s.threadPending c t = false) → exec (.fence o) s = .next (s.advance c t)) ∧
    (o.scope = 4 → 2 ≤ o.mod.toNat % 8 → s.threadPending c t = true → (s.thread c t).wait = .none →
      exec (.fence o) s = .next (s.stand c t .accesses)) ∧
    exec (.prf o) s = .next (s.advance c t)) ∧
  (∀ (s : State) (p : Place) (f : Frame) (o : MForm), s.cur = .station p f →
    let sem := o.mod.toNat % 8
    (o.scope = 0 → exec (.fence o) s = .next { s with cur := .station p { f with ip := f.ip + 1 } }) ∧
    (let marked := f.r.past.map fun q => { q with relFence := q.relFence || decide (2 ≤ sem), scFence := q.scFence || decide (sem = 4) }
     o.scope ≠ 0 → exec (.fence o) s = .next { s with cur := .station p { f with ip := f.ip + 1, r := { f.r with past := marked } } }) ∧
    (∃ u h, exec (.prf o) s = .next u ∧ u.cur = .station p h ∧ { h with lfsr := f.lfsr } = { f with ip := f.ip + 1 } ∧
      u.hbm = s.hbm ∧ u.ctxs = s.ctxs ∧ u.reqs = s.reqs) ∧
    (let h := { f with puts := f.puts ++ [(Fin.ofNat 16 o.disp.toNat, f.touched, f.nacc)], ip := f.ip + 1 }
     exec (.otokPut o) s = .next { s with cur := .station p h }) ∧
    exec (.otokWait o) s = .next { s with cur := .station p { f with waits := f.waits ++ [Fin.ofNat 16 o.disp.toNat], ip := f.ip + 1 } }) ∧
  (∀ (s : State) (p : Place) (st : Station) (e : Nat) (k : TokEntry), s.station? p = some st → k ∈ st.toks → k.id = e →
    k.addrs.isSome = true → (∀ r ∈ k.reqs, ∀ q ∈ s.reqs, q.id = r → q.stage = .done) →
    exec (.tokenEntryRetire p e) s = .next (s.modStation p fun y => { y with toks := y.toks.filter fun k => k.id != e }))

/-! ### Requests, banks and HBM -/

/-- What a write of the device's own does (R312, R328, R331): its next unit, or under the bring-up mode those of one stack,
is written, and nothing else of memory; with the last unit the event is over, and before the event keeps what is left. -/
def Claims.DeviceWrites (s : State) (r : Res) (ev : Instr) (part : Nat) (todo : List (Nat × List Byte × Bool)) (ends : State → Prop) : Prop :=
  let n := (s.stackEvent 64 (todo.map fun u => (u.1, u.2.1.length))).length
  ∃ u, r = .next u ∧ u.hbm = (todo.take n).foldl (fun m w => writeBytes m w.1 w.2.1) s.hbm ∧
    (todo.drop n = [] → ends u) ∧
    (todo.drop n ≠ [] → u.job? ev part = some ⟨ev, part, todo.drop n⟩ ∧ u.ctxs = s.ctxs ∧ u.links = s.links)

/-- Near requests at their bank (R235, R236, R246, R247): an arriving request enters the window, after those before it and
among those of its cycle by sender, and the bank's own stands under its record's entry; an eligible
operation is performed on the bank's bytes, and the last unit of a request that is answered makes it done; an ldp whose
words are not all present waits, and re-enters the window at its head once they are and it has room; one that was answered
retry is sent again after its delay. A request of more than one unit keeps its place while the next is at this bank, and goes
on to the next unit's node otherwise. -/
def Claims.BankEvents : Prop :=
  ∀ (s : State) (r k : Nat) (q : Req) (x : Lay) (b : Bank), s.req? r = some q → q.bank? = some k →
    s.lay? q.place.ctx q.place.slot = some x → x.bankAt? k = some b → s.reqs.Pairwise (fun a b => a.id ≠ b.id) →
    s.upkeep.bankFlaws = [] →
    let after (u : State) (h : Bank → Bank) : Prop := ∃ y, u.lay? q.place.ctx q.place.slot = some y ∧ y.bankAt? k = some (h b)
    let ready : Prop := q.stage = .window ∧ s.eligible b q k = true ∧ s.afterDone q = true
    (q.stage = .sent → s.afterDone q = true → q.isOwn k = false → r ∉ b.window → b.window.length < 32 →
      ∃ u, exec (.nearRequestArrival r) s = .next u ∧ u.req? r = some { q with stage := .window, born := s.cyc } ∧
        after u (fun b => { b with window := s.enterWindow q b.window })) ∧
    (q.stage = .sent → s.afterDone q = true → q.isOwn k = true → q.exec ∈ b.window →
      ∃ u, exec (.nearRequestArrival r) s = .next u ∧ u.req? r = some { q with stage := .window, born := s.cyc } ∧ after u id) ∧
    (q.stage = .sent → s.afterDone q = true → q.isOwn k = true → q.exec ∉ b.window → b.window.length < 32 → b.records.length < 24 →
      ∃ u, exec (.nearRequestArrival r) s = .next u ∧ u.req? r = some { q with stage := .window, born := s.cyc } ∧
        after u (fun b => { b with window := b.window ++ [q.exec], records := b.records ++ [q.exec] })) ∧
    (∀ v w rest, q.units = v :: w :: rest → ready → b.poisoned v.addr v.len = false → s.secure.bringup.getLsbD 0 = false →
      (q.op = .rd ∨ q.op = .wr) → ∃ u, exec (.bankOperationStart r .clean) s = .next u ∧
        u.req? r = some { q with units := w :: rest, got := q.got ++ (if q.op = .rd then b.read v.addr v.len else []),
                                 stage := if w.node = .bank k then .window else .sent } ∧
        ∃ y c, u.lay? q.place.ctx q.place.slot = some y ∧ y.bankAt? k = some c ∧
          c.dat = (if q.op = .rd then b.dat else (b.write v.addr v.dat).dat) ∧ (w.node = .bank k → c.window = b.window)) ∧
    (∀ v, q.units = [v] → ready → q.posted = false → q.unflushed = false →
      b.poisoned v.addr v.len = false →
      (q.op = .rd ∨ (q.op = .ldp ∧ b.present v.addr v.len = true) →
        ∃ u, exec (.bankOperationStart r .clean) s = .next u ∧
          u.req? r = some { q with units := [], got := q.got ++ b.read v.addr v.len, stage := .done } ∧
          ∃ y c, u.lay? q.place.ctx q.place.slot = some y ∧ y.bankAt? k = some c ∧ c.dat = b.dat ∧ c.pres = b.pres) ∧
      (q.op = .wr → ∃ u, exec (.bankOperationStart r .clean) s = .next u ∧ u.req? r = some { q with units := [], stage := .done } ∧
        ∃ y c, u.lay? q.place.ctx q.place.slot = some y ∧ y.bankAt? k = some c ∧ c.dat = (b.write v.addr v.dat).dat ∧
          c.head = (b.write v.addr v.dat).head) ∧
      (∀ op n, q.op = .atomI op n → ∃ u, exec (.bankOperationStart r .clean) s = .next u ∧
        u.req? r = some { q with units := [], got := q.got ++ b.read v.addr v.len, stage := .done } ∧
        ∃ y c, u.lay? q.place.ctx q.place.slot = some y ∧ y.bankAt? k = some c ∧
          c.dat = (b.write v.addr (byWords n (atomInt op (8 * n)) v.len (b.read v.addr v.len) v.dat)).dat) ∧
      (q.op = .ldp → b.present v.addr v.len = false →
        ∃ u st, exec (.bankOperationStart r .clean) s = .next u ∧ u.req? r = some { q with stage := st } ∧
          (st = .presWait ∨ st = .retry (s.cyc + 64)) ∧ after u (fun b =>
            { b with window := b.window.filter (fun w => w != q.windowKey k), records := b.records.filter fun w => w != q.windowKey k }))) ∧
    (∀ v, q.units = [v] → q.stage = .presWait → b.present v.addr v.len = true → b.window.length < 32 →
      (q.isOwn k = true → b.records.length < 24) →
      ∃ u, exec (.ldpWake r) s = .next u ∧ u.req? r = some { q with stage := .window, born := 0 } ∧
        after u (fun b => { b with window := q.windowKey k :: b.window,
                                   records := if q.isOwn k then q.exec :: b.records else b.records })) ∧
    (∀ t, q.stage = .retry t → q.op = .ldp → t ≤ s.cyc →
      ∃ u, exec (.presenceRetryResend r) s = .next u ∧ u.req? r = some { q with stage := .sent })

/-- stp's claim (R168): where no word of its range is present or claimed, the claim is granted and the words are claimed;
the grant sends the buffered stores and after them the presence write in its place, on which the execution parks. The
presence write makes the words present and ends the claims. Where a word is present or claimed the claim is refused, and its
execution faults with kind 8, once a place is free (R203, R411). -/
def Claims.PresenceStore : Prop :=
  (∀ (s : State) (r k : Nat) (q : Req) (x : Lay) (b : Bank) (v : MUnit), s.req? r = some q → q.units = [v] → v.node = .bank k →
    s.lay? q.place.ctx q.place.slot = some x → x.bankAt? k = some b → q.stage = .window → s.eligible b q k = true →
    s.afterDone q = true → b.poisoned v.addr v.len = false → b.role = .pres →
    s.upkeep.bankFlaws = [] → s.reqs.Pairwise (fun a b => a.id ≠ b.id) →
    (q.op = .claim → b.taken v.addr v.len = false → ∃ u y c, exec (.bankOperationStart r .clean) s = .next u ∧
      u.req? r = some { q with got := [0], stage := .done } ∧ u.lay? q.place.ctx q.place.slot = some y ∧ y.bankAt? k = some c ∧
      c.claims = b.claims ++ (wordsOf v.addr v.len).map fun w => (w, q.exec)) ∧
    (q.op = .claim → b.taken v.addr v.len = true → ∃ u y c, exec (.bankOperationStart r .clean) s = .next u ∧
      u.req? r = some { q with got := [1], stage := .done } ∧ u.lay? q.place.ctx q.place.slot = some y ∧ y.bankAt? k = some c ∧
      c.claims = b.claims ∧ c.dat = b.dat ∧ c.pres = b.pres) ∧
    (q.op = .stp → q.posted = false → q.unflushed = false → ∃ u y c, exec (.bankOperationStart r .clean) s = .next u ∧
      u.lay? q.place.ctx q.place.slot = some y ∧ y.bankAt? k = some c ∧ c.dat = writeBytes b.dat v.addr v.dat ∧
      (∀ w ∈ wordsOf v.addr v.len, w ∈ c.pres ∧ ∀ z ∈ c.claims, z.1 ≠ w) ∧ ∀ w ∈ b.pres, w ∈ c.pres)) ∧
  (∀ (s : State) (r n : Nat) (q : Req) (st : Station) (f : Frame), s.req? r = some q → s.station? q.place = some st →
    q.owner = .exec n → st.frame? n = some f → q.op = .claim → q.stage = .done → q.got = [0] → f.st = .parked r →
    ∃ u qs w, exec (.stpClaimGrant r) s = .next u ∧ u.reqs = (s.dropReq r).reqs ++ qs ++ [w] ∧
      qs.map Req.units = f.stores.map BufStore.units ∧ (∀ z ∈ qs, z.op = .wr ∧ z.stage = .sent ∧ z.id ∈ w.after) ∧
      w.id = s.nextId + f.stores.length ∧ w.op = .stp ∧ w.stage = .sent ∧ w.units = q.units ∧
      ∃ st' h, u.station? q.place = some st' ∧ st'.frame? n = some h ∧ h.st = .parked w.id ∧ h.stores = []) ∧
  (∀ (s : State) (r n : Nat) (q : Req) (l : LinkReply) (x : Lay) (st : Station) (f : Frame), s.req? r = some q →
    s.lay? q.place.ctx q.place.slot = some x → x.handler.isSome = true → s.station? q.place = some st → q.owner = .exec n →
    st.frame? n = some f → q.op = .claim → q.stage = .done → q.got = [1] → f.st = .parked r → f.port ≠ 5 →
    ∃ u st', exec (.replyArrival r l) s = .next u ∧ u.req? r = none ∧ u.station? q.place = some st' ∧
      let fw : Word := BitVec.ofNat 32 (8 + 2 ^ 8 * (f.ip % 16) + 2 ^ 12 + 2 ^ 13 * f.seg.val)
      (st.placesUsed < placeLimit st.sid → st.exc = none → (∀ g ∈ st.frames, ∀ w, g.st ≠ .faulted w) → st'.frame? n = none ∧
        st'.exc = some ⟨f.orig, fw, BitVec.ofNat 32 (q.place.pid.val + 2 ^ 6 * q.place.sid.toNat), false, none, false, f.why⟩) ∧
      (placeLimit st.sid ≤ st.placesUsed → st'.exc = st.exc ∧ st'.frame? n = some { f with st := .doomed 8 }))

/-- Near requests and presence stores are performed at their bank in the order of its window. -/
def Obligations.BanksPerform : Prop :=
  Claims.BankEvents ∧ Claims.PresenceStore

/-- A bank's bytes read back as written, and no other offset changes (R233, R239), outside the line role. -/
def Claims.BankReadsBack : Prop :=
  ∀ (b : Bank) (o : Nat) (bs : List Byte), b.role ≠ .line → b.role ≠ .pres → memWf b.dat = true →
    (b.write o bs).read o bs.length = bs ∧
    (∀ a n, a + n ≤ o ∨ o + bs.length ≤ a → (b.write o bs).read a n = b.read a n) ∧
    memWf (b.write o bs).dat = true ∧ (b.write o bs).pres = b.pres ∧ (b.write o bs).window = b.window

/-- The operators of atom (R162) on a word of 32 or 64 bits: add, and, or, xor, signed and unsigned minimum and maximum,
and exchange. -/
def Claims.AtomicOperators : Prop :=
  ∀ (w : Nat) (a v : BitVec w), 0 < w →
    atomInt 0 w a.toNat v.toNat = (a + v).toNat ∧ atomInt 1 w a.toNat v.toNat = (a &&& v).toNat ∧
    atomInt 2 w a.toNat v.toNat = (a ||| v).toNat ∧ atomInt 3 w a.toNat v.toNat = (a ^^^ v).toNat ∧
    atomInt 4 w a.toNat v.toNat = (if v.slt a then v else a).toNat ∧ atomInt 5 w a.toNat v.toNat = (if a.slt v then v else a).toNat ∧
    atomInt 6 w a.toNat v.toNat = (if v.ult a then v else a).toNat ∧ atomInt 7 w a.toNat v.toNat = (if a.ult v then v else a).toNat ∧
    atomInt 8 w a.toNat v.toNat = v.toNat

/-- A bank reads back what was written, and the atomic operators on a word. -/
def Obligations.BanksAndOperators : Prop :=
  Claims.BankReadsBack ∧ Claims.AtomicOperators

/-- Requests to HBM (R244, R480, R486): performed once those before them are and the row is not under repair. A read takes
the bytes, a write puts them, and the last unit makes an answered request done. A finished row repair lets its row's
accesses go on. -/
def Claims.HbmEvents : Prop :=
  (∀ (s : State) (r : Nat) (q : Req) (v : MUnit), s.req? r = some q → q.units = [v] → v.node = .hbm → q.stage = .sent →
    s.afterDone q = true → s.rowsBusy v.addr v.len = false → s.upkeep.flaws = [] →
    v.addr + v.len ≤ hbmSize → v.addr + v.dat.length ≤ hbmSize → q.posted = false → q.unflushed = false →
    s.reqs.Pairwise (fun a b => a.id ≠ b.id) →
    (q.op = .rd → ∃ u, exec (.hbmRequest r .clean) s = .next u ∧ u.hbm = s.hbm ∧ u.req? r = some { q with
      units := [], got := q.got ++ readBytes s.hbm v.addr v.len, stage := .done, poison := q.poison || isPoisoned 32 s.hbmPoison v.addr v.len }) ∧
    (q.op = .wr → ∃ u, exec (.hbmRequest r .clean) s = .next u ∧ u.hbm = writeBytes s.hbm v.addr v.dat ∧
      u.hbmPoison = clearMarks 32 s.hbmPoison v.addr v.dat.length ∧ u.req? r = some { q with units := [], stage := .done }) ∧
    (q.op = .cas → isPoisoned 32 s.hbmPoison v.addr v.len = false → ∃ u, exec (.hbmRequest r .clean) s = .next u ∧
      u.hbm = (if readBytes s.hbm v.addr v.len = v.cmp then writeBytes s.hbm v.addr v.dat else s.hbm) ∧
      u.req? r = some { q with units := [], got := q.got ++ readBytes s.hbm v.addr v.len, stage := .done }) ∧
    (isRmw q.op = true → isPoisoned 32 s.hbmPoison v.addr v.len = true → ∃ u y, exec (.hbmRequest r .clean) s = .next u ∧
      u.hbm = s.hbm ∧ u.req? r = some y ∧ y.poison = true ∧ y.stage = .done)) ∧
  (∀ (s : State) (row a : Nat), (row, a) ∈ s.upkeep.repairing → ∃ u, exec (.hbmRowRepairDone row) s = .next u ∧
    (∀ b, (row, b) ∉ u.upkeep.repairing) ∧
    (∀ k b, k ≠ row → ((k, b) ∈ u.upkeep.repairing ↔ (k, b) ∈ s.upkeep.repairing)) ∧ u.hbm = s.hbm)

/-- Translations under way (R403, R404, R449): a walk by one of the die's walkers ends for every request that waits for its
region there. One that misses nothing else goes on; the leaf is cached. A refused one caches nothing and parks the request under an event, whose tag it holds; a request sent again after a retry walks where an
entry is free, and is answered retry again where none is. -/
def Claims.TranslationEvents : Prop :=
  ∀ (s : State) (r : Nat) (q : Req), s.req? r = some q → q.id = r → s.reqs.Pairwise (fun a b => a.id ≠ b.id) →
    (∀ v, q.stage = .walk → q.vas = [v] → s.untranslated q = [v] →
      s.upkeep.flaws = [] → s.walkBusy q.place.ctx v.va = false →
      (q.place.ctx, regionOf v.va) ∈ s.walking (s.dieOf q.place) →
      let alone : Prop := ∀ y ∈ s.reqs, y.id ≠ r → s.walkKey y ≠ some (q.place.ctx, regionOf v.va) ∨ s.dieOf y.place ≠ s.dieOf q.place
      (∀ lf, s.walk q.place.ctx v.va = .ok lf → lf.grants q.need = true → (q.portal = true ∨ lf.mt = 0) →
        ∃ u, exec (.translationWalkDone r) s = .next u ∧ u.req? r = none ∧ (alone →
          u.tlb = (s.tlbFill (q.unitFor v.va) q.place.ctx (regionOf v.va) lf).tlb ∧
          ∀ n st f, q.owner = .exec n → s.station? q.place = some st → st.frame? n = some f → f.st = .parked r →
            ∃ st', u.station? q.place = some st' ∧ st'.frame? n = some { f with st := .resumed })) ∧
      (∀ e, s.walk q.place.ctx v.va = .error e → alone → ∃ u tag, exec (.translationWalkDone r) s = .next u ∧
        u.req? r = some { q with stage := .event tag } ∧ u.tlb = s.tlb ∧ ∃ ev ∈ (u.ctx q.place.ctx).awaiting, ev.tag = tag)) ∧
    (∀ t, q.stage = .retry t → q.op ≠ .ldp → t ≤ s.cyc → ∃ u, exec (.translationRetryResend r) s = .next u ∧
      u.req? r = some { q with
        stage := if s.waitFree (s.waitUnit q) then .walk else .retry (s.cyc + 64), born := s.cyc })

/-- HBM performs the requests it holds, and walks, retries and poisoned walks of the translation go on. -/
def Obligations.HbmAndTranslation : Prop :=
  Claims.HbmEvents ∧ Claims.TranslationEvents

/-- Requests at portals (R466, R471 to R475): one takes a tag and waits for its reply, in the order of arrival where none
was free, but a posted host write goes out at once and waits for its flush; a good reply performs the unit in the target's
memory; a failed reply, an operator that the target lacks, or no reply within XTIMEOUT, ends the unit with a poisoned answer
and an entry of kind 0x0a in the fault log; a flush takes a tag as a request of no bytes, and its reply, good or not, ends the write. -/
def Claims.PortalEvents : Prop :=
  ∀ (s : State) (r : Nat) (q : Req), s.req? r = some q → s.reqs.Pairwise (fun a b => a.id ≠ b.id) →
    (∀ v, q.units = [v] → (v.node = .host ∨ ∃ n, v.node = .peer n) → s.needsMark q v = false →
      (q.stage = .sent → s.afterDone q = true →
        (¬(q.op = .wr ∧ v.node = .host) → s.tagsUsed (tagPool v) < portalTags (tagPool v) →
          (∀ y ∈ s.reqs, ∀ p n, y.tagPlace = some (p, n) → p ≠ tagPool v) →
          ∃ u, exec (.portalRequest r) s = .next u ∧ u.req? r = some { q with stage := .linked, born := s.cyc }) ∧
        (¬(q.op = .wr ∧ v.node = .host) → portalTags (tagPool v) ≤ s.tagsUsed (tagPool v) →
          ∃ u, exec (.portalRequest r) s = .next u ∧ u.req? r = some { q with stage := .tagWait s.nextId } ∧ u.nextId = s.nextId + 1) ∧
        (q.op = .wr → v.node = .host → q.unflushed = true → ∃ u, exec (.portalRequest r) s = .next u ∧
          u.hostMem = writeBytes s.hostMem v.addr v.dat ∧ u.req? r = some { q with units := [], stage := .linked, born := s.cyc, out := q.out ++ [v] })) ∧
      (∀ m, q.stage = .tagWait m → s.afterDone q = true → ¬(q.op = .wr ∧ v.node = .host) →
        s.tagsUsed (tagPool v) < portalTags (tagPool v) →
        (∀ y ∈ s.reqs, ∀ n, y.tagPlace = some (tagPool v, n) → m ≤ n) →
        ∃ u, exec (.portalRequest r) s = .next u ∧ u.req? r = some { q with stage := .linked, born := s.cyc }) ∧
      (q.stage = .linked → q.posted = false → q.unflushed = false → s.supports q.place.ctx v.node q.op v.len = true →
        (q.op = .rd → ∃ u, exec (.replyArrival r .ok) s = .next u ∧
          u.req? r = some { q with units := [], got := q.got ++ readBytes (s.outMem v.node) v.addr v.len, stage := .done }) ∧
        (q.op = .wr → ∃ u, exec (.replyArrival r .ok) s = .next u ∧
          u.outMem v.node = writeBytes (s.outMem v.node) v.addr v.dat ∧ u.req? r = some { q with units := [], stage := .done })) ∧
      (q.stage = .linked → q.posted = false → q.unflushed = false →
        let number := match v.node with | .peer n => n.val | _ => v.addr / 4096 % 2
        let fails (e : Instr) (code : Nat) : Prop := ∃ u y, exec e s = .next u ∧ u.req? r = some y ∧ y.stage = .done ∧ y.units = [] ∧
          (returnsData q.op = true → y.poison = true) ∧ u.hostMem = s.hostMem ∧ u.peerMem = s.peerMem ∧
          ((s.log.head - s.log.tail).toNat ≠ 63 → u.log.head = s.log.head + 1 ∧ u.log.entries[s.log.head.toNat % 63]? =
            some (logBytes s.cyc 0x0a 255 255 number q.place.ctx.val (q.vas.headD ⟨0, 0⟩).va 0 code))
        (q.born + 2000 * s.links.xtimeout.toNat ≤ s.cyc → fails (.portalTimeout r) 4) ∧
        (fails (.replyArrival r .unsupported) 1 ∧ fails (.replyArrival r .abort) 2 ∧ fails (.replyArrival r .poisoned) 3 ∧
          fails (.replyArrival r .ualink) 5) ∧
        (s.supports q.place.ctx v.node q.op v.len = false → fails (.replyArrival r .ok) 1))) ∧
    (let flush : MUnit := ⟨.host, 0, 0, [], [], 0, 0⟩
     (q.unflushed = true → q.stage = .linked → q.units = [] → s.tagsUsed 0 < portalTags 0 →
      (∀ y ∈ s.reqs, ∀ p n, y.tagPlace = some (p, n) → p ≠ 0) →
      ∃ u, exec (.postedWriteFlush r) s = .next u ∧ u.hostMem = s.hostMem ∧
        u.req? r = some { q with op := .flush, units := [flush], stage := .linked, born := s.cyc }) ∧
     (q.op = .flush → q.unflushed = true → q.stage = .linked → q.units = [flush] → ∀ l, ∃ u, exec (.replyArrival r l) s = .next u ∧
      u.hostMem = s.hostMem ∧ (q.posted = true → u.req? r = none) ∧
      (q.posted = false → ∃ y, u.req? r = some y ∧ y.stage = .done ∧ y.units = [] ∧ y.unflushed = false ∧ y.poison = q.poison)))

/-- A finished request reaches whoever waits (R152, R158, R160, R161, R203): a parked execution takes the data, in the order of
its elements, into its destination and goes on; a thread writes its register and goes on, or traps with cause 9 on poison; a
posted access of a thread that failed is a trap at a boundary of the thread (R472). -/
def Claims.RepliesResume : Prop :=
  (∀ (s : State) (r n : Nat) (q : Req) (l : LinkReply) (st : Station) (f : Frame) (o : MForm), s.req? r = some q → q.id = r →
    q.stage = .done → q.owner = .exec n → s.station? q.place = some st → st.frame? n = some f → f.st = .parked r → q.op ≠ .claim →
    q.fwd = [] → (st.nextInstr f = some (.ld o) ∨ st.nextInstr f = some (.ldx o) ∨ st.nextInstr f = some (.ldp o) ∨ st.nextInstr f = some (.cas o)) →
    ∃ u st', exec (.replyArrival r l) s = .next u ∧ u.req? r = none ∧ u.station? q.place = some st' ∧
      let bs := inOrder q.perm q.got
      let h := (f.putWords o.d (wordsOfStr ((bs.length + 3) / 4) (natOfBytes bs))).poisonIf q.poison
      st'.frame? n = some { h with ip := f.ip + 1, st := .resumed }) ∧
  (∀ (s : State) (r : Nat) (q : Req) (l : LinkReply) (t : Tid) (d : Spec), s.req? r = some q → q.id = r → q.stage = .done →
    q.owner = .thread t → q.posted = false → (s.thread q.place.ctx t).wait = .portal r (some d) → ∃ u, exec (.replyArrival r l) s = .next u ∧ u.req? r = none ∧
      let c := q.place.ctx
      (q.poison = false → u.thread c t = ((s.thread c t).write d (BitVec.ofNat 64 (natOfBytes q.got))).advance) ∧
      (q.poison = true → (s.ctx c).tvec ≠ 0 → (s.thread c t).inTrap = false → (u.thread c t).pc = (s.ctx c).tvec ∧
        (u.thread c t).tcause = (if q.wr then 0x209 else 9) ∧ (u.thread c t).epc = (s.thread c t).pc)) ∧
  (∀ (s : State) (r : Nat) (q : Req) (l : LinkReply) (t : Tid), s.req? r = some q → q.id = r → q.stage = .done →
    q.owner = .thread t → q.posted = true → q.poison = true → (s.thread q.place.ctx t).yields = true →
    let c := q.place.ctx
    (s.ctx c).tvec ≠ 0 → (s.thread c t).inTrap = false → ∃ u, exec (.replyArrival r l) s = .next u ∧ u.req? r = none ∧
      (u.thread c t).pc = (s.ctx c).tvec ∧ (u.thread c t).tcause = (if q.wr then 0x209 else 9) ∧ (u.thread c t).epc = (s.thread c t).pc)

/-- Portals perform, time out and flush requests, and a reply resumes whoever waits. -/
def Obligations.PortalsAndReplies : Prop :=
  Claims.PortalEvents ∧ Claims.RepliesResume

/-- The fault queue (R408, R415, R468): while it has room, the oldest event held is written at its head, 128 bytes unit by
unit, and with the last unit the head moves one on; INTCTL bit 0 raises the context's vector. The event thread traps at a boundary, with cause 0x10
and EPC its pc. The module's fault log takes a tail by the rule of R443 (R482). -/
def Claims.FaultQueue : Prop :=
  (∀ (s : State) (c : CtxId) (e : Event) (es : List Event), (s.ctx c).heldEvents = e :: es → (s.ctx c).st ≠ .free →
    let x := s.ctx c
    let size := 2 ^ (x.inForce.fqdepth.toNat % 16)
    let a := x.inForce.fqbase.toNat + 128 * (x.fqhead.toNat % size)
    let ev : Instr := .faultEventWrite c
    let begins := jobUnits [(a, 128)] (eventBytes e)
    s.upkeep.repairing = [] → a + 128 ≤ hbmSize →
    begins.flatMap (fun w => w.2.1) = eventBytes e ∧ begins.map (fun w => (w.1, w.2.1.length)) = hbmUnits a 128 ∧
    ∀ todo, ((s.job? ev x.fqhead.toNat = none ∧ (x.fqhead - x.inForce.fqtail).toNat < size ∧ todo = begins) ∨
        (todo <:+ begins ∧ todo ≠ [] ∧ s.job? ev x.fqhead.toNat = some ⟨ev, x.fqhead.toNat, todo⟩)) →
      Claims.DeviceWrites s (exec ev s) ev x.fqhead.toNat todo fun u =>
        u.ctx c = { x with heldEvents := es, fqhead := x.fqhead + 1 } ∧ (∀ k, k ≠ c → u.ctx k = s.ctx k) ∧
        u.links = (if x.port.intctl.getLsbD 0 then s.links.raised c.val else s.links)) ∧
  (∀ (s : State) (c : CtxId) (t : Tid), (s.ctx c).eventTrapDue t = true → (s.ctx c).st = .running → (s.ctx c).preempt = none →
    (s.thread c t).yields = true → exec (.eventTrap c) s = .next (s.takeTrap c t (s.thread c t).pc 0x10 0)) ∧
  (∀ (s : State) (v : Word), ((s.log.head - v).toNat ≤ (s.log.head - s.log.tail).toNat →
      exec (.fltailWrite v) s = .next { s with log := { s.log with tail := v } }) ∧
    ((s.log.head - s.log.tail).toNat < (s.log.head - v).toNat → exec (.fltailWrite v) s = .next s))

/-- Two events of the device, each done where its conditions hold. The event trap (R415): where events stand in the fault
queue of a running context that drains for no pre-emption, its event thread, outside a trap and with no instruction under
way but one that may be left (R277), is at TVEC with the in-trap flag set, TCAUSE 0x10, TVAL 0 and EPC its pc; without a
vector the context ends. A write of FLTAIL between the tail and the head sets it (R443, R482). -/
def Claims.EventTrapAndLogTail : Prop :=
  (∀ (s : State) (c : CtxId) (t : Tid), let x := s.ctx c
    let th := s.thread c t
    x.st = .running → x.preempt = none → x.fqhead ≠ x.fqtail → x.evthr.toNat = t.val → t.val < x.nthr → th.inTrap = false →
    th.yields = true →
    (x.tvec ≠ 0 → ∃ u, exec (.eventTrap c) s = .next u ∧ (u.thread c t).pc = x.tvec ∧ (u.thread c t).inTrap = true ∧
      (u.thread c t).tcause = 0x10 ∧ (u.thread c t).tval = 0 ∧ (u.thread c t).epc = th.pc ∧ (u.thread c t).s = th.s ∧
      (u.thread c t).wait = .none ∧ (∀ k, k ≠ t → u.thread c k = s.thread c k) ∧ (∀ k, k ≠ c → u.ctx k = s.ctx k) ∧ u.hbm = s.hbm) ∧
    (x.tvec = 0 → exec (.eventTrap c) s = .next (s.beginKill c))) ∧
  (∀ (s : State) (v : Word), (s.log.head - v).toNat ≤ (s.log.head - s.log.tail).toNat →
    exec (.fltailWrite v) s = .next { s with log := { s.log with tail := v } })

/-- The fault queue is written in order, the event thread traps, and the log takes its tail. -/
def Obligations.FaultQueues : Prop :=
  Claims.FaultQueue ∧ Claims.EventTrapAndLogTail

/-! ### Stations, links and splices -/

/-- What moves records (R147, R200 to R204, R215): a station that may fires its segment on the head that the scan of its
ports finds, which leaves its port's buffer; a completed record that may leave goes onto the link of its port, a dropped
one nowhere, and the two of a fork onto both links; of a link's records that may hop, foremost first, one takes the next channel
of its route where its context's own slot is free, or a shared one that nothing asked for before, and one behind it does
where that one finds none and asks; a record reaches the receiver's buffer at the route's end, and slots return. -/
def Claims.FabricMoves : Prop :=
  (∀ (s : State) (p : Place) (x : Lay) (st : Station) (i g : Fin 4) (k : Nat) (lk : Link) (r r' : Rec) (sg : Seg),
    s.lay? p.ctx p.slot = some x → s.station? p = some st → st.runsSegments = true → st.dead = false → st.exc = none → st.again = [] →
    (∀ f ∈ st.frames, f.id < s.nextId ∧ f.isFaulted = false) → x.nextIntake st = some (i, k, r) → x.links[k]? = some lk → st.intake r = .run g sg r' →
    ∃ u y st' h lk', exec (.stationFire p) s = .next u ∧ u.lay? p.ctx p.slot = some y ∧ u.station? p = some st' ∧
      st'.frame? s.nextId = some h ∧ h.r = r' ∧ h.orig = r ∧ h.seg = g ∧ h.ip = 0 ∧ h.st = .running ∧ h.q = 0 ∧ h.k = st.k ∧
      h.kv = st.kv ∧ h.lfsr = st.lfsr ∧ h.mx = st.matrix? ∧ st'.lastPort = i ∧ y.links[k]? = some lk' ∧ lk'.buf = lk.buf.tail ∧ u.hbm = s.hbm) ∧
  (∀ (s : State) (p : Place) (n : Nat) (x : Lay) (st : Station) (f : Frame), s.lay? p.ctx p.slot = some x → s.station? p = some st →
    st.frame? n = some f → st.mayLeave f = true →
    (∀ q k lk, f.exit = .port q → x.linkFrom? ⟨p.pid, p.sid, q.val⟩ = some k → x.links[k]? = some lk →
      ∃ u y st', exec (.recordDeparture p n) s = .next u ∧ u.lay? p.ctx p.slot = some y ∧ u.station? p = some st' ∧
        st'.frame? n = none ∧ y.links[k]? = some { lk with flight := lk.flight ++ [(.data (f.r.leave (s.livePast f.r.past)), 0)] }) ∧
    (f.exit = .drop → ∃ u y st', exec (.recordDeparture p n) s = .next u ∧ u.lay? p.ctx p.slot = some y ∧ u.station? p = some st' ∧
      st'.frame? n = none ∧ y.links.map Link.flight = x.links.map Link.flight) ∧
    (∀ q q' k k' lk lk', f.exit = .fork q q' → q ≠ q' → x.linkFrom? ⟨p.pid, p.sid, q.val⟩ = some k →
      x.linkFrom? ⟨p.pid, p.sid, q'.val⟩ = some k' → x.links[k]? = some lk → x.links[k']? = some lk' →
      let gone : Item × Nat := (.data (f.r.leave (s.livePast f.r.past)), 0)
      ∃ u y st', exec (.recordDeparture p n) s = .next u ∧ u.lay? p.ctx p.slot = some y ∧ u.station? p = some st' ∧ st'.frame? n = none ∧
        y.links[k]? = some { lk with flight := lk.flight ++ [gone] } ∧ y.links[k']? = some { lk' with flight := lk'.flight ++ [gone] })) ∧
  (∀ (s : State) (c : CtxId) (l : LaySlot) (k n : Nat) (x : Lay) (lk : Link) (it : Item) (rest : List (Item × Nat)),
    s.lay? c l = some x → x.links[k]? = some lk →
    let becomes (i : Instr) (z : Link) : Prop := ∃ u y, exec i s = .next u ∧ u.lay? c l = some y ∧ y.links[k]? = some z ∧
      (∀ j, j ≠ k → y.links[j]? = x.links[j]?) ∧ y.stations = x.stations
    (0 < lk.back → becomes (.slotReturn c l k) { lk with back := lk.back - 1, free := lk.free + 1 }) ∧
    (lk.flight = (it, n) :: rest → s.mayHop (x.route lk) n = true →
      (n = (x.route lk).length → becomes (.linkDelivery c l k) { lk with
        flight := rest, buf := lk.buf ++ [it], headAt := if lk.buf.isEmpty then s.cyc else lk.headAt }) ∧
      (∀ ch, (x.route lk)[n]? = some ch → s.chanUp ch = true → ∃ hs, s.nextHops x lk = (0, n) :: hs)) ∧
    (∀ i m hs ch, s.nextHops x lk = (i, m) :: hs → (x.route lk)[m]? = some ch →
      let moved (j : Nat) : Link := { lk with flight := lk.flight.modify j fun z => (z.1, z.2 + 1) }
      ((s.ownSlotFree c ch = true ∨ s.sharedFree ch = true ∧ ∀ q ∈ s.chanAsks, q.ch ≠ ch) →
        becomes (.channelAdvance c l k) (moved i)) ∧
      (s.ownSlotFree c ch = false → s.sharedFree ch = false →
        (hs = [] → ∃ u, exec (.channelAdvance c l k) s = .next u ∧ u.ctxs = s.ctxs ∧
          ∃ q ∈ u.chanAsks, q.ch = ch ∧ q.ctx = c ∧ q.lay = l ∧ q.link = k) ∧
        (∀ j m' hs' ch', hs = (j, m') :: hs' → (x.route lk)[m']? = some ch' → s.ownSlotFree c ch' = true →
          becomes (.channelAdvance c l k) (moved j)))))

/-- The flits of a record (R212, R214): the header flit carries the header, a bit for each word that is not zero, the port,
the station, the page, the die and the kind; the words that are not zero follow, four to a flit, and the port restores
the payload from them. -/
def Claims.RecordFlits : Prop :=
  ∀ (k : FlitKind) (a : FlitTo) (r : Rec),
    let fs := recordFlits k a r
    let h := fs.headD 0
    flitsPayload fs = r.pay.toList ∧
    fs.length = 1 + ((r.pay.toList.filter fun w => w != 0).length + 3) / 4 ∧
    (h.extractLsb' 0 24 = r.hdr.seq ∧ h.extractLsb' 24 8 = r.hdr.scale ∧ h.extractLsb' 32 8 = r.hdr.ck ∧ h.extractLsb' 40 4 = r.hdr.fmt ∧
      h.extractLsb' 44 5 = r.hdr.len ∧ h.extractLsb' 49 3 = r.hdr.cls ∧ (h.extractLsb' 52 6).toNat = r.hdr.ctx.val ∧
      (h.extractLsb' 58 3).toNat = r.hdr.lay.val) ∧
    (∀ j : Fin 16, h.getLsbD (64 + j.val) = (r.pay[j.val] != 0)) ∧
    (a.page < 128 → (h.extractLsb' 88 2).toNat = a.port.val ∧ h.extractLsb' 90 7 = a.sid ∧ (h.extractLsb' 97 7).toNat = a.page ∧
      (h.extractLsb' 104 2).toNat = a.die.val ∧ (h.extractLsb' 106 22).toNat = k.code)

/-- The channels (R481): a flit that fails is counted, up to sixteen in a row; then the channel retrains, at most three times
in a row, with a log entry, and is not up meanwhile; after it the channel is as before. -/
def Claims.ChannelRepair : Prop :=
  ∀ (s : State) (ch : Chan), let x := s.chan ch
    (x.training = false → x.failed = false →
      (x.fails < 16 → ∃ u, exec (.flitRetry ch) s = .next u ∧ u.chan ch = { x with fails := x.fails + 1 } ∧ u.log = s.log) ∧
      (16 ≤ x.fails → x.retrains < 3 → ∃ u, exec (.channelRetrain ch) s = .next u ∧
        u.chan ch = { x with fails := 0, retrains := x.retrains + 1, training := true } ∧ u.chanUp ch = false ∧
        (s.log.head - s.log.tail ≠ 63 → u.log.head = s.log.head + 1))) ∧
    (x.training = true → ∃ u, exec (.channelRetrainDone ch) s = .next u ∧ u.chan ch = { x with training := false } ∧ u.ctxs = s.ctxs)

/-- Stations fire, records leave and travel as their flits, slots return, and a failing channel retrains. -/
def Obligations.FabricMovesRecords : Prop :=
  Claims.FabricMoves ∧ Claims.RecordFlits ∧ Claims.ChannelRepair

/-- The way of a faulted record (R411, R413): an execution that waits with a fault enters the empty exception register, as
its record arrived, and before it a parked one that is to fault takes a free place and faults; the register's record goes to the handler's buffer while that has room; the handler's segment 3
takes the oldest, alone, with the location and fault words in its k10 and k11. -/
def Obligations.ExceptionPath : Prop :=
  (∀ (s : State) (p : Place) (x : Lay) (st : Station) (f : Frame) (w : Word), s.lay? p.ctx p.slot = some x → s.station? p = some st →
    x.handler.isSome = true → st.exc = none → st.doomed? = none → firstFaulted st.frames = some f → f.st = .faulted w → f.port ≠ 5 →
    ∃ u st', exec (.exceptionRegisterEntry p) s = .next u ∧ u.station? p = some st' ∧ st'.frame? f.id = none ∧
      st'.exc = some ⟨f.orig, w, BitVec.ofNat 32 (p.pid.val + 2 ^ 6 * p.sid.toNat), false, none, false, f.why⟩) ∧
  (∀ (s : State) (p : Place) (x : Lay) (st : Station) (f : Frame) (n : Nat), s.lay? p.ctx p.slot = some x → s.station? p = some st →
    x.handler.isSome = true → st.exc = none → st.doomed? = some (f, n) → st.placesUsed < placeLimit st.sid →
    (∀ g ∈ st.frames, g.isFaulted = false) → f.port ≠ 5 →
    ∃ u st', exec (.exceptionRegisterEntry p) s = .next u ∧ u.station? p = some st' ∧ st'.frame? f.id = none ∧
      st'.exc = some ⟨f.orig, faultWord n (some f.ip) f.seg.val 0, BitVec.ofNat 32 (p.pid.val + 2 ^ 6 * p.sid.toNat), false, none, false, f.why⟩) ∧
  (∀ (s : State) (p : Place) (x : Lay) (st : Station) (e : ExcRec), s.lay? p.ctx p.slot = some x → s.station? p = some st →
    st.exc = some e → e.held = none → e.refire = false → x.handler.isSome = true → x.excBuf.length < 8 →
    ∃ u y st', exec (.exceptionNetworkDelivery p) s = .next u ∧ u.lay? p.ctx p.slot = some y ∧ u.station? p = some st' ∧
      st'.exc = none ∧ y.excBuf = x.excBuf ++ [e] ∧ y.links = x.links) ∧
  (∀ (s : State) (c : CtxId) (l : LaySlot) (x : Lay) (pid : Pid) (sid : Sid) (e : ExcRec) (rest : List ExcRec) (st : Station) (g : Seg),
    s.lay? c l = some x → x.handler = some (pid, sid) → x.excBuf = e :: rest → x.station? pid sid = some st → st.segs[3] = some g →
    st.dead = false → st.exc = none → st.again = [] → st.frames.any Frame.unfinished = false → x.holdReasons st g = [] →
    (∀ f ∈ st.frames, f.id < s.nextId ∧ f.isFaulted = false) →
    ∃ u y st' h, exec (.handlerRun c l) s = .next u ∧ u.lay? c l = some y ∧ y.excBuf = rest ∧ y.station? pid sid = some st' ∧
      st'.frame? s.nextId = some h ∧ h.r = e.r.trim ∧ h.orig = e.r ∧ h.seg = 3 ∧ h.ip = 0 ∧ h.port = 5 ∧ h.k[10] = e.loc ∧ h.k[11] = e.fw ∧
      ∀ n : Fin 10, h.k[n.val] = st.k[n.val])

/-- The splices (R205, R206, R210): each mode passes the head that its rule chooses, unchanged, onto the links that its
rule names, where each has a slot, and waits without one; the turn of split.rr moves on only with a record, and that of
merge.rr passes over ports without a head. merge.seq takes heads within 64 of the expected
tag into its buffer, or diverts a duplicate, and passes the expected one, or retires it where it is of the hole class. A
bight admits a fresh record only while its loop has room for it and one more, and counts it. -/
def Claims.SplicesPass : Prop :=
  ∀ (s : State) (p : Place) (x : Lay) (st : Station) (b : Splice), s.lay? p.ctx p.slot = some x → s.station? p = some st →
    st.body = .splice b → st.dead = false →
    let head (i : Fin 4) (k : Nat) (r : Rec) : Prop := x.headAt? p i = some (k, r)
    let stays (i : Instr) : Prop := exec i s = .next s
    let passes (i : Instr) (k : Nat) (r : Rec) (outs : List Nat) (f : Splice → Splice) : Prop := exec i s = .next (s.splicePass p k r outs f)
    (∀ k r outs, b.mode = .bcast → head 0 k r → allSome (b.ports.map fun q => x.outLink? p q) = some outs → passes (.spliceBcast p) k r outs id) ∧
    (∀ k r n, b.mode = .splitRr → head 0 k r → x.outLink? p (b.ports.getD b.next 0) = some n →
      passes (.spliceSplitRr p) k r [n] fun z => { z with next := (z.next + 1) % z.ports.length }) ∧
    (∀ k r n, b.mode = .splitHash → head 0 k r →
      x.outLink? p (b.ports.getD (hashMix 0 (vword r.pay b.opt.toNat).toNat % b.ports.length) 0) = some n → passes (.spliceSplitHash p) k r [n] id) ∧
    (∀ i q k r t n, b.mode = .mergeArr → (i, q, k, r, t) ∈ x.mergeHeads p b → x.outLink? p 0 = some n →
      (∀ h ∈ x.mergeHeads p b, h = (i, q, k, r, t) ∨ t < h.2.2.2.2 ∨ (t = h.2.2.2.2 ∧ q < h.2.1)) → passes (.spliceMergeArr p) k r [n] id) ∧
    (∀ d i q k r t n, b.mode = .mergeRr → d < b.ports.length → i = (b.next + d) % b.ports.length → (i, q, k, r, t) ∈ x.mergeHeads p b →
      (∀ d' < d, ∀ h ∈ x.mergeHeads p b, h.1 ≠ (b.next + d') % b.ports.length) → x.outLink? p 0 = some n →
      passes (.spliceMergeRr p) k r [n] fun z => { z with next := (i + 1) % z.ports.length }) ∧
    ((b.mode = .bcast → (∃ q ∈ b.ports, x.outLink? p q = none) → stays (.spliceBcast p)) ∧
      (b.mode = .splitRr → x.headAt? p 0 = none ∨ x.outLink? p (b.ports.getD b.next 0) = none → stays (.spliceSplitRr p)) ∧
      (∀ k r, b.mode = .splitHash → head 0 k r →
        x.outLink? p (b.ports.getD (hashMix 0 (vword r.pay b.opt.toNat).toNat % b.ports.length) 0) = none → stays (.spliceSplitHash p)) ∧
      (b.mode = .mergeRr → x.mergeHeads p b = [] ∨ x.outLink? p 0 = none → stays (.spliceMergeRr p)) ∧
      (b.mode = .mergeArr → x.mergeHeads p b = [] ∨ x.outLink? p 0 = none → stays (.spliceMergeArr p))) ∧
    (b.mode = .mergeSeq → st.exc = none → x.handler.isSome = true →
      (∀ i q k r t, (x.mergeHeads p b).find? (fun h => decide (tagDistance b h.2.2.2.1 < 64)) = some (i, q, k, r, t) →
        ∃ u y, exec (.mergeSeqAccept p) s = .next u ∧ u.lay? p.ctx p.slot = some y ∧ y.links = (x.takeHead k s.cyc).links ∧
          ∃ st', u.station? p = some st' ∧
            if b.holdsEntry (reorderEntry r) then st'.exc = some ⟨r, 0x0b, BitVec.ofNat 32 (p.pid.val + 2 ^ 6 * p.sid.toNat), false, none, false, none⟩
            else st'.exc = none ∧ st'.body = .splice { b with reorder := b.reorder ++ [(reorderEntry r, r)] }) ∧
      (∀ r, b.reorder.find? (fun y => y.1 == b.e.toNat % 64) = some (b.e.toNat % 64, r) →
        let gone : Splice := { b with reorder := b.reorder.filter fun y => y.1 != b.e.toNat % 64, e := b.e + 1 }
        let done (z : Lay → Lay) : Prop := ∃ u y st', exec (.mergeSeqPass p) s = .next u ∧ u.lay? p.ctx p.slot = some y ∧
          y.links = (z x).links ∧ u.station? p = some st' ∧ st'.body = .splice gone
        (r.hdr.cls.toNat = b.opt.toNat → done id) ∧
        (∀ k, r.hdr.cls.toNat ≠ b.opt.toNat → x.outLink? p 0 = some k → done fun y => y.push k (.data r)))) ∧
    (∀ k r k' r' n, b.mode = .bight → x.outLink? p 0 = some n →
      let room : Prop := b.occ + 2 ≤ x.loopCapacity p.pid p.sid
      (room → head 0 k r → x.headAt? p 1 = none → passes (.bightAdmit p) k r [n] fun z => { z with occ := z.occ + 1 }) ∧
      (¬ room ∨ x.headAt? p 0 = none → head 1 k' r' → passes (.bightAdmit p) k' r' [n] id) ∧
      (room → head 0 k r → head 1 k' r' → b.turn = true → passes (.bightAdmit p) k' r' [n] fun z => { z with turn := false }) ∧
      (room → head 0 k r → head 1 k' r' → b.turn = false →
        passes (.bightAdmit p) k r [n] fun z => { z with turn := true, occ := z.occ + 1 }))

/-- What passing a record on does (R205, R208): the receiver of the head lets it go, and each link out gets a copy in a
slot of its own; no other record of the lay moves, and the splice is as the mode says. -/
def Claims.SplicePassMoves : Prop :=
  ∀ (s : State) (p : Place) (x : Lay) (st : Station) (b : Splice) (k n : Nat) (lk ln : Link) (r : Rec) (f : Splice → Splice),
    s.lay? p.ctx p.slot = some x → s.station? p = some st → st.body = .splice b → x.links[k]? = some lk →
    x.links[n]? = some ln → k ≠ n →
    ∃ y st' lk', (s.splicePass p k r [n] f).lay? p.ctx p.slot = some y ∧ (s.splicePass p k r [n] f).station? p = some st' ∧
      y.links[n]? = some { ln with free := ln.free - 1, flight := ln.flight ++ [(.data r, 0)] } ∧
      y.links[k]? = some lk' ∧ lk'.buf = lk.buf.tail ∧ lk'.headAt = s.cyc ∧ lk'.flight = lk.flight ∧
      (∀ j, j ≠ k → j ≠ n → y.links[j]? = x.links[j]?) ∧ st'.body = .splice (f b) ∧ { s.splicePass p k r [n] f with ctxs := s.ctxs } = s

/-- fifo banks and releases (R220, R242, R324): the head that the scan finds joins the bank's queue, and the oldest leaves
by o0; the oldest generation of a cleat that is not yet released is released once what its records asked for is
performed, its release record waits, and is sent once its link has a slot. -/
def Claims.FifoAndReleases : Prop :=
  (∀ (s : State) (p : Place) (x : Lay) (st : Station) (b : Bank), s.lay? p.ctx p.slot = some x → s.station? p = some st →
    st.body = .bank b → b.role = .fifo → st.dead = false →
    (∀ i k r, b.fifo.length < 1024 → (scanOrder st.lastPort).findSome? (fun i => (x.headAt? p i).map fun h => (i, h.1, h.2)) = some (i, k, r) →
      ∃ u y st', exec (.fifoEnqueue p) s = .next u ∧ u.lay? p.ctx p.slot = some y ∧ u.station? p = some st' ∧
        st'.body = .bank { b with fifo := b.fifo ++ [r] } ∧ st'.lastPort = i ∧ y.links = (x.takeHead k s.cyc).links) ∧
    (∀ k r rest, b.fifo = r :: rest → x.outLink? p 0 = some k →
      ∃ u y st', exec (.fifoDequeue p) s = .next u ∧ u.lay? p.ctx p.slot = some y ∧ u.station? p = some st' ∧
        st'.body = .bank { b with fifo := rest } ∧ y.links = (x.push k (.data r)).links)) ∧
  (∀ (s : State) (c : CtxId) (l : LaySlot) (pg : Pid) (n : Fin 16) (x : Lay) (k : Cleat), s.lay? c l = some x → x.cleat? pg n = some k →
    (∀ g f rs unsent rest, k.waiting = (g, f, rs, unsent) :: rest → (∀ r ∈ rs, s.performed r = true) →
      ∃ u y, exec (.cleatRelease c l pg n) s = .next u ∧ u.lay? c l = some y ∧ y.cleat? pg n = some { k with
        waiting := rest, released := g, pending := if k.link.isSome = true ∧ unsent = false then k.pending ++ [(g, f)] else k.pending }) ∧
    (∀ g f rest i, k.pending = (g, f) :: rest → k.link = some i → x.hasSlot i = true →
      ∃ u y r, exec (.releaseRecordSend c l pg n) s = .next u ∧ u.lay? c l = some y ∧ y.cleat? pg n = some { k with pending := rest } ∧
        y.links = (x.push i (.data r)).links ∧ r.hdr.cls = 7 ∧ r.hdr.len = 1 ∧ r.hdr.seq.toNat = g.toNat ∧ r.hdr.ctx = c ∧ r.hdr.lay = l ∧
        (r.pay[0]).toNat = g.toNat + 256 * f.toNat))

/-- Each splice passes the head its rule chooses; fifo banks and cleat releases. -/
def Obligations.Splices : Prop :=
  Claims.SplicesPass ∧ Claims.SplicePassMoves ∧ Claims.FifoAndReleases

/-! ### Reels -/

/-- The starts of streams (R251, R276, R294, R301): a form with a descriptor reads its 64 bytes first; the slot then holds
the new stream, which waits for the thread's accesses, and d is 0. The status is 1 for no lay, 5 for no page, 2 for no
open pass or a slot that has left the lay's configuration, 3 where the slot or a register that the walk uses is busy, 4
where a port it needs has no link, and then nothing starts. That a slot which lay.swap has passed counts as having no open
pass is the model's choice, log entry 70. -/
def Claims.StreamsStart : Prop :=
  ∀ (s : State) (c : CtxId) (t : Tid) (o : FForm), s.cur = .thread c t →
    let l := slotOf o.ls
    let pg := pageOf o.pg
    let n : Fin 4 := Fin.ofNat 4 o.sl.toNat
    s.slotHeld c t l = false →
    let answers (i : Instr) (s1 : State) (st : Stream) : Prop :=
      let status (k : Nat) : Prop := exec i s = .next (s1.finishT c t o.d (BitVec.ofNat 64 (k * 2 ^ 48)))
      (s1.resident? c l = none → status 1) ∧
      ∀ x r, s1.resident? c l = some x → (x.npages ≤ o.pg.toNat → status 5) ∧
        (x.reel? pg.val = some r → o.pg.toNat < x.npages →
          let busy : Prop := (r.streams[n.val]).running = true ∨ ∃ j ∈ st.fibsUsed r.fibres, r.fibBusy j = true
          let here : Prop := x.passOpen = true ∧ x.reelGone pg n = false
          (¬ here → status 2) ∧ (here → busy → status 3) ∧
          (here → ¬ busy → x.portsLinked pg n st.form st.desc = false → status 4) ∧
          (here → ¬ busy → x.portsLinked pg n st.form st.desc = true → ∃ u, exec i s = .next u ∧
            u.stream? c l pg n = some st ∧ (∀ m, m ≠ n → u.stream? c l pg m = s1.stream? c l pg m) ∧
            u.thread c t = ((s1.thread c t).write o.d 0).advance ∧ u.hbm = s1.hbm))
    (∀ k ∈ [(Instr.reelAff, SForm.aff), (.reelGat, .gat), (.reelSca, .sca), (.reelCmp, .cmp), (.reelRq, .rq)], ∀ bs s1,
      s.threadPending c t = false → s.threadRead c t (s.readT c t o.a).toNat 64 1 = (.ok bs, s1) →
      answers (k.1 o) s1 (Stream.started k.2 bs (s1.threadReqs c t))) ∧
    (∀ k ∈ [(Instr.reelFib, false, false), (.fibIsect, true, false), (.fibUnion, true, true)],
      answers (k.1 o) s { Stream.started .fib [] (s.threadReqs c t) with
        fb := Fin.ofNat 4 o.fb.toNat, fm := o.fm, braid := k.2.1, union := k.2.2 })

/-- reel.stop, reel.wait and sbar (R296 to R298): a stop ends a running stream with status 1, once the operation that has
issued an access is over, and d is 1 where none runs; a wait returns the completion record in its two destinations, 0xff and 0 where there is none, and stalls while the stream
runs; sbar sets barriers on the running streams its mask names, which hold until SBAR_PASSED finds no
issued access of the stream left, for which .w waits. -/
def Claims.StreamsStop : Prop :=
  (∀ (s : State) (c : CtxId) (t : Tid) (o : FForm) (x : Lay) (st : Stream), s.cur = .thread c t →
    s.resident? c (slotOf o.ls) = some x → s.slotHeld c t (slotOf o.ls) = false → o.pg.toNat < x.npages →
    let n : Fin 4 := Fin.ofNat 4 o.sl.toNat
    s.stream? c (slotOf o.ls) (pageOf o.pg) n = some st →
    (st.running = true → ∃ u, exec (.reelStop o) s = .next u ∧ u.thread c t = ((s.thread c t).write o.d 0).advance ∧
      u.stream? c (slotOf o.ls) (pageOf o.pg) n = some (if st.ending ≠ none ∧ st.owesPoison = false then st
        else if st.ending = none ∧ st.issued = true then { st with stopping := true }
        else { st with st := .running, ending := some (1, 0, 0) })) ∧
    (st.parked = none → st.stopping = true → st.ending = none → (st.opEnded).ending = some (1, 0, 0)) ∧
    (st.running = false → exec (.reelStop o) s = .next (s.finishT c t o.d 1)) ∧
    (st.running = true → exec (.reelWait o) s = .next (s.modThread c t fun th =>
      { th with wait := .reelWait o.d o.b (slotOf o.ls) (pageOf o.pg) n })) ∧
    (st.running = false → st.compl = none → exec (.reelWait o) s = .next ((s.writeT c t o.d 0xff).finishT c t o.b 0)) ∧
    (∀ bs, st.running = false → st.compl = some bs → exec (.reelWait o) s =
      .next ((s.writeT c t o.d (BitVec.ofNat 64 (natAt bs 0 8))).finishT c t o.b (BitVec.ofNat 64 (natAt bs 8 8))))) ∧
  (∀ (s : State) (c : CtxId) (t : Tid) (d e : Spec) (l : LaySlot) (pg : Pid) (n : Fin 4) (st : Stream) (bs : List Byte),
    (s.thread c t).wait = .reelWait d e l pg n → s.stream? c l pg n = some st → st.running = false → st.compl = some bs →
    exec (.reelWaitWake c t) s =
      .next ((s.writeT c t d (BitVec.ofNat 64 (natAt bs 0 8))).finishT c t e (BitVec.ofNat 64 (natAt bs 8 8)))) ∧
  (∀ (s : State) (c : CtxId) (t : Tid) (o : YForm) (x : Lay), s.cur = .thread c t → s.resident? c (slotOf o.ls) = some x →
    s.slotHeld c t (slotOf o.ls) = false → o.pg.toNat < x.npages → ∃ u, exec (.sbar o) s = .next u ∧
      (∀ n st, s.stream? c (slotOf o.ls) (pageOf o.pg) n = some st → u.stream? c (slotOf o.ls) (pageOf o.pg) n =
        some (if o.imm16.getLsbD n.val && st.running then { st with barrier := true } else st)) ∧
      u.thread c t = if o.imm16.getLsbD 4 then { s.thread c t with wait := .sbar o.d (slotOf o.ls) (pageOf o.pg) (o.imm16.truncate 4) }
        else ((s.thread c t).write o.d 0).advance) ∧
  (∀ (s : State) (c : CtxId) (l : LaySlot) (pg : Pid) (n : Fin 4) (st : Stream), s.stream? c l pg n = some st →
    ∃ u, exec (.sbarPassed c l pg) s = .next u ∧
      u.stream? c l pg n = some (if st.issued = true then st else { st with barrier := false }))

/-- Reel instructions start, stop and wait for streams, and sbar waits for barriers. -/
def Obligations.StreamsStartAndStop : Prop :=
  Claims.StreamsStart ∧ Claims.StreamsStop

/-- The fibre instructions of a thread (R300 to R304), where the page is of a resident lay and no stream uses the register:
fib.open sets the register up from its descriptor and opens it at its parent's position or b, fib.skip skips a sorted one,
fib.save writes its 64 bytes, fib.load reads them, fib.pos gives p or c; d gets the result word. A level operation reads a
unit at a time, and stands while it has one to read; a fault on it parks the thread, poison traps it, and a malformed level
traps the register, as it stood before the failing read (log entry 31). A register refused is closed; the rest of it is
free (log entry 23). After flt.drop the status is 0x11. At a station fib.skip keeps a control record that goes out at
completion. -/
def Claims.FibreInstructions : Prop :=
  (∀ (s : State) (c : CtxId) (t : Tid) (o : FForm) (x : Lay) (r : Reel), s.cur = .thread c t →
    let l := slotOf o.ls
    let pg := pageOf o.pg
    let i : Fin 4 := Fin.ofNat 4 o.fb.toNat
    s.resident? c l = some x → s.slotHeld c t l = false → o.pg.toNat < x.npages → x.reel? pg.val = some r → r.fibBusy i = false →
    let f := r.fibres[i.val]
    let a := (s.readT c t o.a).toNat
    let put (s1 : State) (y : Fibre) (status : Nat) : Res := .next ((s1.setFib c o i y).finishT c t o.d
      (BitVec.ofNat 64 (status * 2 ^ 40 + y.state.toNat * 2 ^ 32 + y.c.toNat)))
    let level (s1 : State) (i' : Instr) (skip : Option Word) (op : FRead → FM FWork) : Prop :=
      let ends (u : State) : Prop :=
        (∀ w rest, op (logRead true) (u.thread c t).seen = .ok (w, rest) → exec i' s = put u w.f 0) ∧
        (∀ z code pos, op (logRead true) (u.thread c t).seen = .error (.trap z code pos) → exec i' s = put u (z.trapped code pos) code) ∧
        (∀ va, op (logRead true) (u.thread c t).seen = .error (.poison va) → exec i' s = .next (u.trapAt c t 9 va))
      ends s1 ∧
      (∀ va m k u, op (logRead true) (s1.thread c t).seen = .error (.mem (.want va m k)) →
        (s1.fibUnitT c t l pg va m k = (.ok (), u) → ends u ∧
          (∀ va' m' k', op (logRead true) (u.thread c t).seen = .error (.mem (.want va' m' k')) → exec i' s = .next (u.stand c t .units))) ∧
        (∀ cause v, s1.fibUnitT c t l pg va m k = (.error (.park cause v), u) → u.waitFree (.reel c l pg) = true →
          exec i' s = .next (u.fibParks c t o i skip cause v)))
    let refused (s1 : State) (i' : Instr) : Prop :=
      let z := s1.takeFrees 17
      let y := closedOf fun k => z.1.getD k 0
      exec i' s = put z.2 y 0x10 ∧ y.state = 0 ∧ y.trap = 0
    let low (m : Nat) : DWord := BitVec.ofNat 64 (f.state.toNat * 2 ^ 32 + m % 2 ^ 32)
    ((s.thread c t).dropped = true → ∀ i' ∈ [Instr.fibOpen o, .fibSkip o, .fibSave o, .fibLoad o, .fibPos o],
      exec i' s = .next (s.finishT c t o.d (0x110000000000 + low f.c.toNat))) ∧
    ((s.thread c t).dropped = false →
    exec (.fibPos o) s = .next (s.finishT c t o.d (low (if o.mod.getLsbD 0 then f.c.toNat else f.p))) ∧
    (a % 64 ≠ 0 → exec (.fibSave o) s = .next (s.finishT c t o.d 0x6000000000000)) ∧
    (∀ s1, a % 64 = 0 → s.threadPending c t = false → s.threadWrite c t a 1 (fibreBytes (s.fibSeen c l pg i f)) = (.ok (), s1) →
      exec (.fibSave o) s = .next (s1.finishT c t o.d (low f.c.toNat))) ∧
    (∀ bs s1, s.threadPending c t = false → s.threadRead c t a 64 1 = (.ok bs, s1) →
      (formBad r.fibres i (fibreOf bs) bs = true → refused s1 (.fibLoad o)) ∧
      (formBad r.fibres i (fibreOf bs) bs = false → (fibreOf bs).flags.getLsbD 1 = false → exec (.fibLoad o) s = put s1 (fibreOf bs) 0) ∧
      (formBad r.fibres i (fibreOf bs) bs = false → (fibreOf bs).flags.getLsbD 1 = true →
        level s1 (.fibLoad o) none fun rd => (fibreOf bs).skipped rd (fibreOf bs).t.toNat)) ∧
    (∀ bs s1, s.threadPending c t = false → s.threadRead c t a 51 1 = (.ok bs, s1) →
      let y := setupOf bs o.lv
      let q := match y.parent? with | some p => (r.fibres[p.val]).p | none => (s.readT c t o.b).toNat % 2 ^ 32
      (setupBad r.fibres i y = true ∨ natAt bs 50 1 / 64 ≠ 0 → refused s1 (.fibOpen o)) ∧
      (setupBad r.fibres i y = false → natAt bs 50 1 / 64 = 0 →
        level s1 (.fibOpen o) none fun rd => y.opened rd q)) ∧
    (s.threadPending c t = false → f.sorted = true →
      level s (.fibSkip o) (some (BitVec.ofNat 32 a)) fun rd => f.skipped rd (a % 2 ^ 32)) ∧
    (f.sorted = false → exec (.fibSkip o) s = .next (s.finishT c t o.d (0x100000000000 + low f.c.toNat))))) ∧
  (∀ (s : State) (p : Place) (f : Frame) (o : FForm), s.cur = .station p f → ∃ u h, exec (.fibSkip o) s = .next u ∧
    u.cur = .station p h ∧ h.ip = f.ip + 1 ∧ h.skips = f.skips ++ [(pageOf o.pg, Fin.ofNat 4 o.fb.toNat, ((s.run p f).word o.a).1)] ∧
    h.r = f.r ∧ h.k = f.k ∧ h.kv = f.kv)

/-- Bytes of a fibre register read back as the register (R267, R303), whatever it holds within its fields' ranges. -/
def Claims.FibreFormReadsBack : Prop :=
  ∀ x : Fibre, x.p < 2 ^ 32 → x.pe ≤ 2 ^ 32 → (x.pe = 2 ^ 32 → x.state = 1) → (x.pe = 0 → x.state ≠ 1) →
    (fibreBytes x).length = 64 ∧ fibreOf (fibreBytes x) = x

/-- The fibre instructions complete, and the 64 bytes of a register read back. -/
def Obligations.FibreRegisters : Prop :=
  Claims.FibreInstructions ∧ Claims.FibreFormReadsBack

/-- What the reels do (R253 to R257, R271, R294, R302, R387, R420): a started stream runs once its thread's accesses are
performed, or ends with status 0x10 where it is not valid; REEL_OPERATION performs the next unit of the slot that the
arbitration serves, or of the piece under way, and a write side's of its own slot; a gather takes its index record; a
skip is applied or discarded, that of an unsorted register too (log entry 68); under a forced pre-emption a stream holds between operations. -/
def Claims.ReelsWork : Prop :=
  ∀ (s : State) (c : CtxId) (l : LaySlot) (pg : Pid) (x : Lay) (r : Reel), s.lay? c l = some x → x.reel? pg.val = some r →
    (∀ n : Fin 4, let st := r.streams[n.val]
      (st.st = .starting → (∀ q ∈ st.after, s.performed q = true) → ∃ u y, exec (.streamStart c l pg n) s = .next u ∧
        u.stream? c l pg n = some y ∧ y.st = .running ∧ y.after = [] ∧ y.form = st.form ∧ y.desc = st.desc ∧
        (State.startable x pg st = true → y.ending = st.ending) ∧ (State.startable x pg st = false → y.ending = some (0x10, 0, 0))) ∧
      (st.running = true → (s.ctx c).preempt.isSome = true → st.wdone = 0 →
        ∃ u, exec (.streamStopPoint c l pg n) s = .next u ∧ u.stream? c l pg n = some { st.opEnded with hold := true, seen := [], used := 0, skipping := false } ∧ u.hbm = s.hbm) ∧
      (∀ k q, st.form = .gat → st.held = none → st.ending = none → s.streamFree c st = true → x.inHead pg n = some (k, q) →
        s.handoffDone q = true → indexLen q ≠ 0 →
        ∃ u y, exec (.gatherIndexAccept c l pg n) s = .next u ∧ u.lay? c l = some y ∧ y.links = (x.takeHead k s.cyc).links ∧
          u.stream? c l pg n = some { st with held := some q, heldIx := 0 })) ∧
    (∀ n p ds, r.mid = none → r.opAt ≠ s.cyc + 1 → s.reelChoice c l x pg r = (some n, p, ds) →
      let s1 := s.modLay c l fun y => y.modReel pg.val fun z => { z with ptr := p, deficit := ds, opAt := s.cyc + 1 }
      exec (.reelOperation c l pg) s = .next (s1.reelPerform c l pg n) ∧
      ((r.streams[n.val]).writes = true → (r.streams[n.val]).st = .running →
        exec (.writeSideAccept c l pg n) s = .next (s1.reelPerform c l pg n))) ∧
    (∀ n, r.mid = some n → s.eligibleSlot c l x pg n r.streams[n.val] = true →
      exec (.reelOperation c l pg) s = .next (s.reelPerform c l pg n)) ∧
    (∀ i t reqs rest n, r.skips = (i, t, reqs) :: rest → (∀ q ∈ reqs, s.performed q = true) →
      let dropped (z : State) : State := z.modLay c l fun y => y.modReel pg.val fun w => { w with skips := rest }
      (r.fibBusy i = false ∨ (r.fibres[i.val]).ready = false ∨ (r.fibres[i.val]).sorted = false →
        exec (.fibSkipApply c l pg n) s = .next (dropped s)) ∧
      (let st := r.streams[n.val]
       r.fibBusy i = true → (r.fibres[i.val]).ready = true → (r.fibres[i.val]).sorted = true → st.st = .running →
       i ∈ st.fibsUsed r.fibres → st.parked = none → st.ending = none → st.hold = false →
       let st0 : Stream := if st.skipping = true then st else { st with seen := [], used := 0, skipping := true }
       let z := (s.modStream c l pg n fun _ => st0).applySkip c l pg n r st0 i t.toNat
       exec (.fibSkipApply c l pg n) s = .next (if z.2 = true then (dropped z.1.2).modStream c l pg n Stream.opEnded else z.1.2)))

/-- The end of a stream (R258, R290): its slot holds the completion record, status, poison, form, level, count and detail,
byte by byte, and the armed pass notes what it met; the count of reel.rq is 0 (log entry 73); a trap raises an event of kind 3. -/
def Claims.StreamEndRecord : Prop :=
  ∀ (s : State) (c : CtxId) (l : LaySlot) (pg : Pid) (n : Fin 4) (x : Lay) (st : Stream) (k d lv : Nat), s.lay? c l = some x →
    s.stream? c l pg n = some st → st.st = .running → st.ending = some (k, d, lv) → st.owes = false → st.parked = none →
    ∃ u y z bs, exec (.streamEnd c l pg n) s = .next u ∧ u.stream? c l pg n = some y ∧ u.lay? c l = some z ∧
      y.st = (if k = 1 then .stopped else .ended) ∧ y.compl = some bs ∧ y.ending = none ∧ bs.length = 16 ∧
      natAt bs 0 1 = k % 256 ∧ natAt bs 1 1 = (if st.poison then 1 else 0) ∧ natAt bs 2 1 = st.form.code ∧ natAt bs 3 1 = lv % 256 ∧
      natAt bs 4 4 = min (2 ^ 32 - 1) (if st.form = .rq then 0 else st.count) ∧ natAt bs 8 8 = d % 2 ^ 64 ∧
      (∀ p, x.pass = some p → z.pass = some { p with poisonMet := p.poisonMet || st.poison, badEnd := p.badEnd || decide (2 < k) }) ∧
      (0x30 ≤ k ∧ k ≤ 0x32 → ∃ e, (u.ctx c).heldEvents = (s.ctx c).heldEvents ++ [e] ∧ e.kind = 3 ∧ e.lay = l ∧ e.pid = pg ∧
        e.cause.toNat = k ∧ e.va = BitVec.ofNat 64 d) ∧
      (¬ (0x30 ≤ k ∧ k ≤ 0x32) → (u.ctx c).heldEvents = (s.ctx c).heldEvents)

/-- An affine stream's address (R253): record n lies at the base plus, for each dimension, its index, taken from the counts
in turn with the first fastest, times its stride, modulo 2^64. -/
def Claims.AffineAddress : Prop :=
  ∀ (d : Desc) (c0 c1 c2 c3 : Nat) (s0 s1 s2 s3 : Int) (i0 i1 i2 i3 : Nat), d.counts = [c0, c1, c2, c3] → d.strides = [s0, s1, s2, s3] →
    d.dims = 4 → i0 < c0 → i1 < c1 → i2 < c2 → i3 < c3 →
    (d.addr (i0 + c0 * (i1 + c1 * (i2 + c2 * i3))) : Int) = (d.base + i0 * s0 + i1 * s1 + i2 * s2 + i3 * s3) % 2 ^ 64

/-- What the reels perform, how a stream ends, and where an affine stream's record lies. -/
def Obligations.ReelsWork : Prop :=
  Claims.ReelsWork ∧ Claims.StreamEndRecord ∧ Claims.AffineAddress

/-! ### Lays and passes -/

/-- Loading and freeing lays (R278 to R281): lay.load into a free slot reads the image, checks it in order, gives the first
cause that it finds, 0x0d where no place is free, and otherwise puts the lay in the slot, loading, while the thread waits;
when the banks are zeroed the lay is resident and the thread goes on with 0. lay.free of a quiescent lay without a pass
gives the slot up, with status 3 where it is not, and 1 where there is none. Instructions of one slot are performed one at a
time, in the order in which they issue (R275). That 0x0e comes before the image's causes is the model's choice, log entry 34. -/
def Claims.LaysLoadAndFree : Prop :=
  (∀ (s : State) (c : CtxId) (t : Tid) (o : YForm), s.cur = .thread c t →
    let l := slotOf o.ls
    let a := s.readT c t o.a
    s.slotHeld c t l = false →
    (∀ x, s.lay? c l = some x → exec (.layLoad o) s = .next (s.finishT c t o.d 0x0e)) ∧
    (∀ h s1 n bs bs' s2 m, s.lay? c l = none → s.threadPending c t = false → s.threadRead c t a.toNat 64 1 = (.ok h, s1) →
      imageLen h = some n → s1.threadRead c t (addrPlus a.toNat 64) (n - 64) 1 = (.ok bs', s2) → bs = h ++ bs' → s2.imageOf c bs = .ok m →
      (m.check (s2.targetOps c) ≠ 0 → exec (.layLoad o) s = .next (s2.finishT c t o.d (m.check (s2.targetOps c)))) ∧
      (m.check (s2.targetOps c) = 0 → s2.place c (m.make a (imageDigest m bs) (0, 0)) = none →
        exec (.layLoad o) s = .next (s2.finishT c t o.d 0x0d)) ∧
      (∀ x, m.check (s2.targetOps c) = 0 → s2.place c (m.make a (imageDigest m bs) (0, 0)) = some x →
        ∃ u, exec (.layLoad o) s = .next u ∧ u.lay? c l = some { x with loading := true, zeroing := true } ∧
          u.thread c t = { s2.thread c t with wait := .layLoad o.d l } ∧ u.hbm = s.hbm)) ∧
    (∀ h s1 n bs bs' s2 e, s.lay? c l = none → s.threadPending c t = false → s.threadRead c t a.toNat 64 1 = (.ok h, s1) →
      imageLen h = some n → s1.threadRead c t (addrPlus a.toNat 64) (n - 64) 1 = (.ok bs', s2) → bs = h ++ bs' → s2.imageOf c bs = .error e →
      exec (.layLoad o) s = .next (s2.finishT c t o.d (BitVec.ofNat 64 e))) ∧
    (∀ h s1, s.lay? c l = none → s.threadPending c t = false → s.threadRead c t a.toNat 64 1 = (.ok h, s1) → imageLen h = none →
      exec (.layLoad o) s = .next (s1.finishT c t o.d 0x0f)) ∧
    (s.lay? c l = none → exec (.layFree o) s = .next (s.finishT c t o.d 0x1000000000000)) ∧
    (∀ x, s.lay? c l = some x →
      let free : Prop := x.pass = none ∧ x.succ = none ∧ s.quiescent c l x = true
      (¬ free → exec (.layFree o) s = .next (s.finishT c t o.d 0x3000000000000)) ∧
      (free → ∃ u, exec (.layFree o) s = .next u ∧ u.lay? c l = none ∧ (∀ m, m ≠ l → u.lay? c m = s.lay? c m) ∧
        u.thread c t = ((s.thread c t).write o.d 0).advance ∧ u.hbm = s.hbm))) ∧
  (∀ (s : State) (c : CtxId) (l : LaySlot) (x : Lay), s.lay? c l = some x → x.loading = true →
    ∃ u, exec (.layLoadComplete c l) s = .next u ∧ u.lay? c l = some { x with loading := false, zeroing := false } ∧
      ∀ t d, (s.thread c t).wait = .layLoad d l → u.thread c t = ((s.thread c t).write d 0).advance)

/-- Replacing and cloning a resident lay (R282 to R284): lay.swap gives 0x15 while a replacement goes on, 0x11 for other
pages, and otherwise starts the replacement: every stream slot that runs no stream sends its reconfiguration record (R227); lay.clone gives 0x13 where a pass is armed, 0x12 where the station may not be
copied, 0x0d where their pages find no place, and otherwise adds the copies with their splices and links. Both give 0x14 for no
lay. That 0x11 comes before the causes of the image's parts is the model's choice, log entry 34, and so are the names and
links of a clone's new page, log entry 45. -/
def Claims.LaysSwapAndClone : Prop :=
  ∀ (s : State) (c : CtxId) (t : Tid) (o : YForm), s.cur = .thread c t →
    let l := slotOf o.ls
    let a := s.readT c t o.a
    let gives (i : Instr) (s1 : State) (v : DWord) : Prop := exec i s = .next (s1.finishT c t o.d v)
    s.slotHeld c t l = false →
    (s.lay? c l = none → gives (.laySwap o) s 0x14 ∧ gives (.layClone o) s 0x14) ∧
    ∀ x, s.lay? c l = some x →
      (x.succ.isSome = true → gives (.laySwap o) s 0x15) ∧
      (∀ h s1 n bs bs' s2 m, x.succ = none → s.threadPending c t = false → s.threadRead c t a.toNat 64 1 = (.ok h, s1) →
        imageLen h = some n → s1.threadRead c t (addrPlus a.toNat 64) (n - 64) 1 = (.ok bs', s2) → bs = h ++ bs' → s2.imageOf c bs = .ok m →
        (sameShape x m = false → gives (.laySwap o) s2 0x11) ∧
        (sameShape x m = true → m.check (s2.targetOps c) = 0 → s2.routesOk c { x with links := m.makeLinks } = true →
          (∀ d pg n r, (s.thread c t).wait ≠ .inject d l pg n r) →
          ∃ u y, exec (.laySwap o) s = .next u ∧ u.lay? c l = some y ∧ y.succ = some ⟨a, bs, false⟩ ∧ y.pass = x.pass ∧
            y.links = ((x.startSwap a bs (imageDigest m bs)).reelsSend).links ∧ (∀ st ∈ y.stations, st.adopted = false) ∧ u.thread c t = ((s.thread c t).write o.d 0).advance)) ∧
      (x.pass.isSome = true ∨ x.succ.isSome = true ∨ s.quiescent c l x = false → gives (.layClone o) s 0x13) ∧
      (x.pass = none → x.succ = none → s.quiescent c l x = true →
        let b := (s.readT c t o.b).toNat
        (128 ≤ b ∨ x.npages ≤ o.pg.toNat → gives (.layClone o) s 0x12) ∧
        (b < 128 → o.pg.toNat < x.npages →
          (x.cloneable (pageOf o.pg) (BitVec.ofNat 7 b) o.imm16.toNat = none → gives (.layClone o) s 0x12) ∧
          (∀ st i k q, x.cloneable (pageOf o.pg) (BitVec.ofNat 7 b) o.imm16.toNat = some (st, i, k) → x.pages[o.pg.toNat]? = some q →
            s.clonePlaces c x st i k (q.gcol, q.grow) o.imm16.toNat [] = none → gives (.layClone o) s 0x0d) ∧
          (∀ st i k ps q, x.cloneable (pageOf o.pg) (BitVec.ofNat 7 b) o.imm16.toNat = some (st, i, k) → x.pages[o.pg.toNat]? = some q →
            s.clonePlaces c x st i k (q.gcol, q.grow) o.imm16.toNat [] = some ps →
            exec (.layClone o) s = .next ((s.setLay c l (some (x.cloned st o.imm16.toNat i k ps))).finishT c t o.d 0))))

/-- lay.load, lay.free, lay.swap and lay.clone complete with the statuses of their rules. -/
def Obligations.LaysLoadAndChange : Prop :=
  Claims.LaysLoadAndFree ∧ Claims.LaysSwapAndClone

/-- The steps of a replacement (R227 to R229, R239): a reel sends a reconfiguration record on the port of each slot that
runs no stream, and once all have and those of its inputs have come it is as the successor's; the cleats of a page send theirs
once every station that ties to them has adopted and their releases are gone, after which nothing leaves on their links, and
take the successor's values once the old pass has ended (log entry 44); a station that rests, at each of whose inputs the reconfiguration
record has come, takes them, adopts the successor's segments and sends the record on; once every compute and bank station
has, the banks change role, their lines are given up and zeroing begins; zeroing ends. -/
def Obligations.ReplacementSteps : Prop :=
  (∀ (s : State) (p : Place) (x : Lay) (u : Succ) (m : Image) (st : Station), s.lay? p.ctx p.slot = some x → x.succ = some u →
    readImage u.bytes u.bytes.length = some m → p.sid ≠ reelSid → p.sid ≠ cleatSid → x.station? p.pid p.sid = some st →
    st.adopted = false → x.reconfArrived p.pid p.sid = true → s.stationRests p x st = true → u.roleDone = false →
    ∃ v y, exec (.reconfigAdopt p) s = .next v ∧ v.lay? p.ctx p.slot = some y ∧ y.station? p.pid p.sid = some (st.adopt m) ∧
      (st.adopt m).adopted = true ∧ y.links = ((x.takeReconfs p.pid p.sid).sendReconfs p.pid p.sid).links) ∧
  (∀ (s : State) (c : CtxId) (l : LaySlot) (pg : Pid) (x : Lay) (u : Succ) (m : Image) (r : Reel), s.lay? c l = some x →
    x.succ = some u → readImage u.bytes u.bytes.length = some m → u.roleDone = false → x.reel? pg.val = some r → r.adopted = false →
    ∃ v y, exec (.reconfigAdopt ⟨c, l, pg, reelSid⟩) s = .next v ∧ v.lay? c l = some y ∧ y.stations = x.stations ∧
      (∀ (k : Nat) (lk : Link), x.links[k]? = some lk → ¬ (lk.dst.pid = pg ∧ lk.dst.sid = reelSid) → y.links[k]? = some
        (if lk.src.pid = pg ∧ lk.src.sid = reelSid ∧ ∃ n : Fin 4, n.val = lk.src.port ∧ (r.streams[n.val]).running = false ∧
            (r.streams[n.val]).reconfSent = false
          then { lk with flight := lk.flight ++ [(.reconf, 0)] } else lk)) ∧
      (∀ z : Reel, y.reel? pg.val = some z →
        ((∃ n : Fin 4, (r.streams[n.val]).running = true ∧ (r.streams[n.val]).reconfSent = false) → z.adopted = false) ∧
        ((∀ n : Fin 4, (r.streams[n.val]).running = false) → r.skips = [] → x.reconfArrived pg reelSid = true →
          let e := m.pages.getD pg.val (0, 0, 0, 0)
          z = Reel.fresh (BitVec.ofNat 3 e.2.2.1) (Vector.ofFn fun n => Fin.ofNat 4 (e.2.2.2 / 4 ^ n.val)) ∧ z.adopted = true))) ∧
  (∀ (s : State) (c : CtxId) (l : LaySlot) (pg : Pid) (n : Fin 16) (x : Lay) (u : Succ) (m : Image) (k : Cleat), s.lay? c l = some x →
    x.succ = some u → readImage u.bytes u.bytes.length = some m → u.roleDone = false → x.cleat? pg n = some k → k.adopted = false →
    ∃ v y, exec (.reconfigAdopt ⟨c, l, pg, cleatSid⟩) s = .next v ∧ v.lay? c l = some y ∧ y.stations = x.stations ∧
      let due : Prop := k.waiting = [] ∧ k.pending = [] ∧ k.arriving = [] ∧ x.tiersAdopted k = true
      (¬ due → y.cleat? pg n = some k) ∧
      (due → (∀ (i : Nat) (lk : Link), k.link = some i → x.links[i]? = some lk → y.links[i]? = some { lk with flight := lk.flight ++ [(.reconf, 0)] }) ∧
        (x.pass.isSome = true → y.cleat? pg n = some { k with link := none }) ∧
        (∀ k', x.pass = none → (m.makeCleats []).find? (fun q => q.pid == pg && q.num == n) = some k' →
          y.cleat? pg n = some { k' with link := none, adopted := true }))) ∧
  (∀ (s : State) (c : CtxId) (l : LaySlot) (x : Lay) (u : Succ) (m : Image), s.lay? c l = some x → x.succ = some u →
    readImage u.bytes u.bytes.length = some m → u.roleDone = false →
    (∀ st ∈ x.stations, sidSite st.sid = .compute ∨ sidSite st.sid = .bank → st.adopted = true) →
    ∃ v y, exec (.roleChangePoint c l) s = .next v ∧ v.lay? c l = some y ∧ y.zeroing = true ∧ y.succ = some { u with roleDone := true } ∧
      y.stations = x.stations.map (fun st => st.changeRole m) ∧ (∀ d ∈ v.dir, ¬ (d.ctx = c ∧ d.lay = l)) ∧ v.hbm = s.hbm) ∧
  (∀ (s : State) (c : CtxId) (l : LaySlot) (x : Lay), s.lay? c l = some x → x.loading = false → x.succ = none →
    ∃ v, exec (.bankZeroingDone c l) s = .next v ∧ v.lay? c l = some { x with zeroing := false })

/-- The passes (R285 to R289): pass.arm of a quiescent lay arms one, counts it, clears what a pass begins with and starts
the bound streams, with status 3 where one is armed, 6 where the record's address is not aligned, and stands while the lay is
being replaced; pass.wait stalls while
one is armed and gives how the last one ended otherwise, 2 in [55:48] where none was; pass.abort retires the lay's records, ends
its wedge and every wait for its cleats, and stalls until the record is written. -/
def Claims.PassInstructions : Prop :=
  (∀ (s : State) (c : CtxId) (t : Tid) (o : YForm), s.cur = .thread c t →
    let l := slotOf o.ls
    let b := s.readT c t o.b
    let gives (i : Instr) (v : DWord) : Prop := exec i s = .next (s.finishT c t o.d v)
    s.slotHeld c t l = false →
    (s.lay? c l = none → gives (.passArm o) 0x1000000000000 ∧ gives (.passWait o) 0x1000000000000 ∧ gives (.passAbort o) 0x1000000000000) ∧
    ∀ x, s.lay? c l = some x →
      (x.inSwap = true → exec (.passArm o) s = .next (s.stand c t .swap)) ∧
      (x.inSwap = false →
        (x.pass.isSome = true ∨ s.quiescent c l x = false → gives (.passArm o) 0x3000000000000) ∧
        (x.pass = none → s.quiescent c l x = true →
          (b.toNat % 64 ≠ 0 → gives (.passArm o) 0x6000000000000) ∧
          (b.toNat % 64 = 0 → s.threadPending c t = false → ∀ bs s1,
            (if x.binds = [] then bs = [] ∧ s1 = s else s.threadRead c t (s.readT c t o.a).toNat (64 * x.binds.length) 1 = (.ok bs, s1)) →
            ∃ u y, exec (.passArm o) s = .next u ∧ u.lay? c l = some y ∧
              y = x.arm b s.cyc none (s.threadReqs c t) (cutDescs x.binds.length bs) ∧ y.passNo = x.passNo + 1 ∧
              y.pass = some ⟨b, s.cyc, false, none, none, none, false, false⟩ ∧ u.thread c t = ((s.thread c t).write o.d 0).advance))) ∧
      (x.pass.isSome = true → exec (.passWait o) s = .next (s.modThread c t fun th => { th with wait := .passWait o.d l none })) ∧
      (x.pass = none → x.lastEnd = none → gives (.passWait o) 0x2000000000000) ∧
      (∀ k, x.pass = none → x.lastEnd = some k → gives (.passWait o) (match k with | .complete => 0 | .incomplete => 0x100 | .aborted => 0x200)) ∧
      (x.pass = none → gives (.passAbort o) 0x2000000000000) ∧
      (∀ p, x.pass = some p → p.aborting.isSome = true ∨ p.ended.isSome = true → gives (.passAbort o) 0x2000000000000) ∧
      (∀ p, x.pass = some p → p.aborting = none → p.ended = none → ∃ u y q, exec (.passAbort o) s = .next u ∧ u.lay? c l = some y ∧ y.pass = some q ∧
        q.aborting = some s.cyc ∧ q.compl = p.compl ∧ y.wedged = false ∧ (∀ st ∈ y.stations, st.frames = [] ∧ st.exc = none) ∧ y.excBuf = [] ∧
        (∀ k ∈ y.links, dataCount k.buf = 0 ∧ k.back = 0) ∧ (u.thread c t).wait = .passAbort o.d l ∧ u.hbm = s.hbm ∧
        (∀ t' d pg n v, t' ≠ t → (s.thread c t').wait = .cleatWait d l pg n v none → (u.thread c t').wait = .cleatWait d l pg n v (some 2)))) ∧
  (∀ (s : State) (c : CtxId) (t : Tid) (d : Spec) (l : LaySlot) (k : Nat), (s.thread c t).wait = .passWait d l (some k) →
    exec (.passWaitWake c t) s = .next (s.finishT c t d (BitVec.ofNat 64 (k * 256))))

/-- The end of a pass (R221, R223, R290): the second sweep in a row that finds a lay quiescent and unmoved ends its pass,
as aborted, as complete where the done cleat has fired its budget, and as incomplete otherwise; the record goes to its
address unit by unit, or, where the address is refused, an entry to the fault log; then every thread that waits is told, and
no pass is armed any more. -/
def Claims.PassesEnd : Prop :=
  ∀ (s : State) (c : CtxId) (l : LaySlot) (x : Lay), s.lay? c l = some x →
    let ev : Instr := .quiescenceSweep c l
    (x.pass.bind Pass.ended = none → s.quiescent c l x = false ∨ x.moved = true → ∃ u, exec (.quiescenceSweep c l) s = .next u ∧
      u.lay? c l = some { x with sweeps := 0, moved := false }) ∧
    (x.pass.bind Pass.ended = none → s.quiescent c l x = true → x.moved = false → x.sweeps = 0 → ∃ u, exec (.quiescenceSweep c l) s = .next u ∧
      u.lay? c l = some { x with sweeps := 1 }) ∧
    (∀ p k now, x.pass = some p → s.upkeep.repairing = [] →
      (p.ended = some (k, now) ∨ p.ended = none ∧ s.quiescent c l x = true ∧ x.moved = false ∧ x.sweeps ≠ 0 ∧ now = p.aborting.getD s.cyc ∧
        k = (if p.aborting.isSome then .aborted else
          match x.doneCleat? with | some q => if q.budget.toNat ≤ q.fired.toNat then .complete else .incomplete | none => .incomplete)) →
      let s0 := s.modLay c l fun y => { y with pass := y.pass.map fun q => { q with ended := some (k, now) } }
      let ends (u : State) : Prop := ∃ y, u.lay? c l = some y ∧ y.pass = none ∧ y.lastEnd = some k ∧ y.wedged = false ∧
        (∀ t d, (s.thread c t).wait = .passWait d l none → (u.thread c t).wait = .passWait d l (some k.code)) ∧
        (∀ t d, (s.thread c t).wait = .passAbort d l → u.thread c t = ((s.thread c t).write d 0).advance)
      let inside (us : List (Nat × List Byte × Bool)) : Prop := ∀ w ∈ us, w.1 + w.2.1.length ≤ hbmSize
      (∀ todo, s.job? ev 0 = some ⟨ev, 0, todo⟩ → inside todo → Claims.DeviceWrites s0 (exec ev s) ev 0 todo ends) ∧
      (s.job? ev 0 = none →
        (∀ ps s1, s0.farRange c p.compl.toNat 64 1 ⟨false, true, false⟩ = (.ok ps, s1) →
          let us := jobUnits ps (passRecord x p c l k now)
          inside us → Claims.DeviceWrites s1 (exec ev s) ev 0 us ends) ∧
        (∀ e s1, s0.farRange c p.compl.toNat 64 1 ⟨false, true, false⟩ = (.error e, s1) →
          ∃ u, exec ev s = .next u ∧ ends u ∧ u.hbm = s1.hbm ∧ (s1.log.head - s1.log.tail ≠ 63 → u.log.head = s1.log.head + 1))))

/-- pass.arm, pass.wait and pass.abort complete, and a quiescent lay ends its pass. -/
def Obligations.Passes : Prop :=
  Claims.PassInstructions ∧ Claims.PassesEnd

/-- Cleats (R217 to R219, R291 to R293): cleat.set sets the count and clears the arrivals, and the budget where imm16 gives
one; cleat.wait returns where a generation after b has been released, or no pass is armed, and stalls otherwise; an
arrival counts, and the one that fills the count ends a generation and the count begins again; at a station cleat.tie
notes an arrival that completion delivers, which is counted as the cycle ends, after a cleat.set of that cycle (R291). An
arrival at a cleat of count 0 sets overrun alone, and one beyond the budget counts and sets it. -/
def Obligations.CleatsCount : Prop :=
  (∀ (s : State) (c : CtxId) (t : Tid) (o : YForm) (x : Lay) (k : Cleat), s.cur = .thread c t → s.lay? c (slotOf o.ls) = some x →
    s.slotHeld c t (slotOf o.ls) = false → o.pg.toNat < x.npages → x.cleat? (pageOf o.pg) (Fin.ofNat 16 o.cl.toNat) = some k →
    let d := s.finishT c t o.d
    let b : Byte := (s.readT c t o.b).truncate 8
    let word (fl : Nat) : DWord := BitVec.ofNat 64 (k.gen.toNat + k.fired.toNat * 2 ^ 8 + (if k.overrun then 2 ^ 16 else 0) + fl)
    let after : Prop := 1 ≤ (k.released - b).toNat ∧ (k.released - b).toNat ≤ 128
    (255 < o.imm16.toNat → exec (.cleatSet o) s = .next (d 0x6000000000000)) ∧
    (o.imm16.toNat ≤ 255 → ∃ u y, exec (.cleatSet o) s = .next u ∧ u.lay? c (slotOf o.ls) = some y ∧
      y.cleat? (pageOf o.pg) (Fin.ofNat 16 o.cl.toNat) = some { k with count := (s.readT c t o.a).truncate 24, arrivals := 0, overrun := false, reqs := [], budget := if o.imm16 = 0 then k.budget else o.imm16.truncate 8 } ∧
      u.thread c t = ((s.thread c t).write o.d 0).advance) ∧
    (after → exec (.cleatWait o) s = .next (d (word 0))) ∧
    (¬ after → x.passOpen = false → exec (.cleatWait o) s = .next (d (word (2 ^ 63)))) ∧
    (¬ after → x.passOpen = true → exec (.cleatWait o) s = .next (s.modThread c t fun th =>
      { th with wait := .cleatWait o.d (slotOf o.ls) (pageOf o.pg) (Fin.ofNat 16 o.cl.toNat) b none }))) ∧
  (∀ (s : State) (c : CtxId) (t : Tid) (d : Spec) (l : LaySlot) (pg : Pid) (n : Fin 16) (b : Byte) (w : Option Nat) (x : Lay) (k : Cleat),
    (s.thread c t).wait = .cleatWait d l pg n b w → s.lay? c l = some x → x.cleat? pg n = some k →
    (k.passes b = true → exec (.cleatWaitWake c t) s = .next (s.finishT c t d (k.waitWord 0))) ∧
    (∀ e, k.passes b = false → w = some e → exec (.cleatWaitWake c t) s =
      .next (s.finishT c t d (k.waitWord (if e < 3 then 2 ^ 63 else 2 ^ 62))))) ∧
  (∀ (s : State) (p : Place) (f : Frame) (o : YForm), s.cur = .station p f → exec (.cleatTie o) s =
    .next { s with cur := .station p { f with ties := f.ties ++ [Fin.ofNat 16 o.cl.toNat], ip := f.ip + 1 } }) ∧
  (∀ (k : Cleat) (rs : List Nat), k.count ≠ 0 → (k.arrivals.toNat + 1 < k.count.toNat →
      (k.arrive rs).arrivals = k.arrivals + 1 ∧ (k.arrive rs).gen = k.gen ∧ (k.arrive rs).waiting = k.waiting) ∧
    (k.arrivals.toNat + 1 = k.count.toNat → (k.arrive rs).arrivals = 0 ∧ (k.arrive rs).gen = k.gen + 1 ∧
      (k.arrive rs).waiting.length = k.waiting.length + 1 ∧ (k.fired ≠ 255 → (k.arrive rs).fired = k.fired + 1)) ∧
    (k.budget.toNat ≤ k.fired.toNat ∨ k.overrun = true → (k.arrive rs).overrun = true) ∧
    (k.fired.toNat < k.budget.toNat → k.overrun = false → k.pending.length < 255 → (k.arrive rs).overrun = false)) ∧
  (∀ (k : Cleat) (rs : List Nat), k.count = 0 → k.arrive rs = { k with overrun := true }) ∧
  (∀ (x : Lay) (pg : Pid) (n : Fin 16) (k : Cleat) (rs : List Nat), x.cleat? pg n = some k →
    (x.arrive pg n rs).cleat? pg n = some { k with arriving := k.arriving ++ [rs] } ∧
    (x.countArrivals).cleat? pg n = some (k.arriving.foldl Cleat.arrive { k with arriving := [] }))

/-- qwait (R299): it reads an aligned word when it issues, and at each poll; where the condition holds d gets the word and
the thread goes on, otherwise the thread stalls, until a limit of 1024 cycles times imm16 is over, when d gets the word
last read. -/
def Claims.QueueWaits : Prop :=
  ∀ (s : State) (c : CtxId) (t : Tid), let met (cond : BitVec 4) (v b : DWord) : Bool := qwaitHolds cond.toNat v b
    (∀ (o : YForm) bs s1, s.cur = .thread c t → s.threadPending c t = false → s.threadRead c t (s.readT c t o.a).toNat 8 8 = (.ok bs, s1) →
      let v : DWord := BitVec.ofNat 64 (natOfBytes bs)
      (met o.mod v (s.readT c t o.b) = true → exec (.qwait o) s = .next (s1.finishT c t o.d v)) ∧
      (met o.mod v (s.readT c t o.b) = false → exec (.qwait o) s = .next (s1.modThread c t fun th =>
        { th with wait := .qwait o.d o.mod (s.readT c t o.a) (s.readT c t o.b) (if o.imm16 = 0 then none else some (s.cyc + 1024 * o.imm16.toNat)) v,
                  accs := [] }))) ∧
    (∀ d cond a b limit w, (s.thread c t).wait = .qwait d cond a b limit w →
      (∀ bs s1, s.threadRead c t a.toNat 8 8 = (.ok bs, s1) →
        let v : DWord := BitVec.ofNat 64 (natOfBytes bs)
        (met cond v b = true → exec (.qwaitPoll c t) s = .next (s1.finishT c t d v)) ∧
        (met cond v b = false → exec (.qwaitPoll c t) s = .next (s1.modThread c t fun th => { th with wait := .qwait d cond a b limit v, accs := [] }))) ∧
      (∀ n, limit = some n → n ≤ s.cyc → exec (.qwaitTimeout c t) s = .next (s.finishT c t d w)))

/-- gmm (R305, R306), where the thread's reads give the descriptor m: an invalid one gives status 3; past the last group the
status is 0 with the group's number; a group with rows arms a pass of its own, with the done cleat's count from the rows
and its completion record in its place of the area, and the thread waits; a count of more than 24 bits gives 2. When that
pass has completed the progress is stored and the next group begins; where it ended otherwise the status is 1. A lay with
another pass gives 3, as an invalid descriptor does, one that is not aligned among them (log entry 45); while the lay is being replaced the instruction stands; a pass that it armed before is waited for; that a group whose pass ended before an event trap let gmm issue again is armed
again is the model's reading, log entry 44. -/
def Claims.GroupedLaunch : Prop :=
  (∀ (s : State) (c : CtxId) (t : Tid) (o : YForm), s.cur = .thread c t →
    let l := slotOf o.ls
    let a := s.readT c t o.a
    s.slotHeld c t l = false →
    (s.lay? c l = none → exec (.gmm o) s = .next (s.finishT c t o.d 0x1000000000000)) ∧
    ∀ x, s.lay? c l = some x →
      (x.inSwap = true → exec (.gmm o) s = .next (s.stand c t .swap)) ∧
      (x.inSwap = false →
        (x.pass.bind Pass.gmm = none → x.pass.isSome = true ∨ s.quiescent c l x = false →
          exec (.gmm o) s = .next (s.finishT c t o.d 0x3000000000000)) ∧
        ∀ m h s1, s.threadPending c t = false → (∀ f, s.withGmm c t a.toNat f = f m h s1) →
          (∀ g n, x.pass.bind Pass.gmm = some (g, n) →
            (g = m.g → exec (.gmm o) s = .next (s1.modThread c t fun th => { th with wait := .gmm o.d l a n none, accs := [] })) ∧
            (g ≠ m.g → exec (.gmm o) s = .next (s1.finishT c t o.d 0x3000000000000))) ∧
          (x.pass = none → s.quiescent c l x = true →
            (m.valid a.toNat h = false → exec (.gmm o) s = .next (s1.finishT c t o.d (BitVec.ofNat 64 (0x300 + m.g % 2 ^ 32 * 2 ^ 16)))) ∧
            (m.valid a.toNat h = true → m.groups ≤ m.g →
              exec (.gmm o) s = .next (s1.finishT c t o.d (BitVec.ofNat 64 (m.g % 2 ^ 32 * 2 ^ 16)))) ∧
            (∀ bs s2 s3, m.valid a.toNat h = true → m.g < m.groups →
              let n := natOfBytes bs
              s1.threadRead c t (addrPlus m.rows (4 * m.g)) 4 1 = (.ok bs, s2) → n ≠ 0 →
              (2 ^ 24 ≤ n * m.mul + m.add →
                exec (.gmm o) s = .next (s2.finishT c t o.d (BitVec.ofNat 64 (0x200 + m.g % 2 ^ 32 * 2 ^ 16)))) ∧
              (n * m.mul + m.add < 2 ^ 24 → s2.lay? c l = some x → s2.quiescent c l x = true →
                (if x.binds = [] then s3 = s2 else ∃ ds, s2.threadRead c t m.template (64 * x.binds.length) 1 = (.ok ds, s3)) →
                s3.lay? c l = some x →
                ∃ u y p, exec (.gmm o) s = .next u ∧ u.lay? c l = some y ∧ y.pass = some p ∧ p.gmm = some (m.g, n) ∧
                  p.compl = BitVec.ofNat 64 (addrPlus m.area (64 * m.g)) ∧ y.passNo = x.passNo + 1 ∧
                  (∀ k, y.doneCleat? = some k → k.count = BitVec.ofNat 24 (n * m.mul + m.add) ∧ k.arrivals = 0) ∧
                  (u.thread c t).wait = .gmm o.d l a n none))))) ∧
  (∀ (s : State) (c : CtxId) (t : Tid) (d : Spec) (l : LaySlot) (a : DWord) (n k : Nat) (m : Gmm) (h : List Byte) (s1 : State),
    (s.thread c t).wait = .gmm d l a n (some k) → (∀ f, s.withGmm c t a.toNat f = f m h s1) →
    (k ≠ 0 → exec (.gmmGroupAdvance c t) s = .next (s1.finishT c t d (BitVec.ofNat 64 (0x100 + m.g % 2 ^ 32 * 2 ^ 16)))) ∧
    (∀ s2, k = 0 →
      s1.threadWrite c t (addrPlus a.toNat 12) 1 (bytesOfNat 4 (m.g + 1) ++ bytesOfNat 8 ((m.f + n) % 2 ^ 64)) = (.ok (), s2) →
      m.groups ≤ m.g + 1 → exec (.gmmGroupAdvance c t) s = .next (s2.finishT c t d (BitVec.ofNat 64 ((m.g + 1) % 2 ^ 32 * 2 ^ 16)))))

/-- The wedge timer (R225, R226): at its limit the lay is wedged, its pass notes it, an event of kind 4 is raised, every
waiting pass.wait and cleat.wait is told, and the timer begins again; an expiry while a report is being written writes on (log
entry 20). Where WREPORT is not 0 the report's 512 bytes are written there unit by unit, and where that address is refused
an entry goes to the fault log. -/
def Claims.WedgeFault : Prop :=
  ∀ (s : State) (c : CtxId) (l : LaySlot) (x : Lay), s.lay? c l = some x → s.upkeep.repairing = [] →
    let ev : Instr := .wedgeTimerExpiry c l
    let a := (s.ctx c).inForce.wreport.toNat
    let inside (us : List (Nat × List Byte × Bool)) : Prop := ∀ w ∈ us, w.1 + w.2.1.length ≤ hbmSize
    (∀ todo, s.job? ev 0 = some ⟨ev, 0, todo⟩ → inside todo → Claims.DeviceWrites s (exec ev s) ev 0 todo fun _ => True) ∧
    (s.job? ev 0 = none → (s.ctx c).inForce.wlimit.toNat ≤ x.wedgeTimer →
      ∃ u y e, exec ev s = .next u ∧ u.lay? c l = some y ∧ y.wedged = true ∧ y.wedgeTimer = 0 ∧
        (∀ p, x.pass = some p → y.pass = some { p with wedge := true }) ∧ (u.ctx c).heldEvents = (s.ctx c).heldEvents ++ [e] ∧
        e.kind = 4 ∧ e.lay = l ∧
        (∀ t d, (s.thread c t).wait = .passWait d l none → (u.thread c t).wait = .passWait d l (some 3)) ∧
        (∀ t d pg n b, (s.thread c t).wait = .cleatWait d l pg n b none → (u.thread c t).wait = .cleatWait d l pg n b (some 3)) ∧
        (a = 0 → u.hbm = s.hbm) ∧
        (∀ ps, a ≠ 0 → (s.farRange c a 512 1 ⟨false, true, false⟩).1 = .ok ps →
          let us := jobUnits ps (wedgeReport x c l (s.ctx c).inForce.wlimit.toNat)
          let n := (s.stackEvent 64 (us.map fun w => (w.1, w.2.1.length))).length
          inside us → u.hbm = (us.take n).foldl (fun m w => writeBytes m w.1 w.2.1) s.hbm ∧
            (us.drop n ≠ [] → u.job? ev 0 = some ⟨ev, 0, us.drop n⟩)) ∧
        (∀ z, a ≠ 0 → s.upkeep.flaws = [] → (s.farRange c a 512 1 ⟨false, true, false⟩).1 = .error z → u.hbm = s.hbm ∧
          (s.log.head - s.log.tail ≠ 63 → u.log.head = s.log.head + 1)))

/-- The wedge report (R226): 512 bytes; word 0 holds the slot, the number of entries, whether some were left out and the
limit over 1,024, word 1 the completion cleat, and the entries follow from byte 16: full links, then held stations, then
cleats with arrivals, each with its fields in their places. -/
def Claims.WedgeReport : Prop :=
  ∀ (x : Lay) (c : CtxId) (l : LaySlot) (limit : Nat),
    let bs := wedgeReport x c l limit
    let es := wedgeEntries x c l
    bs.length = 512 ∧ natAt bs 0 1 = l.val ∧ natAt bs 2 1 = min 62 es.length ∧ natAt bs 3 1 = (if 62 < es.length then 1 else 0) ∧
    natAt bs 4 2 = limit / 1024 % 65536 ∧
    (∀ k, x.doneCleat? = some k → natAt bs 8 3 = (k.count - k.arrivals).toNat ∧ natAt bs 11 1 = k.gen.toNat ∧ natAt bs 12 1 = k.pid.val ∧
      natAt bs 13 1 = k.num.val + (if k.overrun then 16 else 0)) ∧
    (∀ i e, i < 62 → es[i]? = some e → natAt bs (16 + 8 * i) 8 = e) ∧
    (∀ lk ∈ x.links, lk.isFull = true → lk.src.sid ≠ cleatSid → lk.src.sid ≠ excSid → ∃ e ∈ es, bitsNat 63 62 e = 0 ∧
      bitsNat 5 0 e = lk.src.pid.val ∧ bitsNat 12 6 e = lk.src.sid.toNat ∧ bitsNat 14 13 e = lk.src.port % 4 ∧
      bitsNat 20 15 e = lk.dst.pid.val ∧ bitsNat 27 21 e = lk.dst.sid.toNat ∧ bitsNat 29 28 e = lk.dst.port % 4 ∧
      (lk.slots < 15 → bitsNat 33 30 e = lk.slots ∧ bitsNat 37 34 e = max 1 lk.slots)) ∧
    (∀ st ∈ x.stations, ∀ n, x.heldReason ⟨c, l, st.pid, st.sid⟩ st = some n → ∃ e ∈ es, bitsNat 63 62 e = 1 ∧
      bitsNat 5 0 e = st.pid.val ∧ bitsNat 12 6 e = st.sid.toNat ∧ (n < 16 → bitsNat 29 26 e = n)) ∧
    (∀ k ∈ x.cleats, k.arrivals ≠ 0 → ∃ e ∈ es, bitsNat 63 62 e = 2 ∧ bitsNat 5 0 e = k.pid.val ∧ bitsNat 9 6 e = k.num.val ∧
      bitsNat 33 10 e = k.arrivals.toNat ∧ bitsNat 57 34 e = k.count.toNat ∧ bitsNat 58 58 e = if k.overrun then 1 else 0)

/-- qwait, the grouped launch, the wedge timer and its report. -/
def Obligations.WaitsLaunchesWedges : Prop :=
  Claims.QueueWaits ∧ Claims.GroupedLaunch ∧ Claims.WedgeFault ∧ Claims.WedgeReport

/-! ### System instructions -/

/-- System registers (R430, R431, R440, R441): where the thread has the privilege that the use needs, sysrd writes the
register's value into d, and syswr writes it and gives 0, or leaves it where its rule refuses and gives 1. What some
registers of each kind read as, and the rules of some writes, are spelt out; a host's register write keeps the same
rules. That PRIV keeps bit 0 of any value, and that CDEPTH refuses one with a bit of [7:5] set, are the model's readings, log
entry 36. -/
def Claims.SystemRegisters : Prop :=
  (∀ (s : State) (c : CtxId) (t : Tid) (o : ZForm), s.cur = .thread c t →
    let k : CtxId := if o.mod.getLsbD 0 then Fin.ofNat 64 o.imm16.toNat else c
    let x := (s.ctx k)
    let a := s.readT c t o.a
    let reads (n : Nat) (v : DWord) : Prop := o.sreg.toNat = n → exec (.sysrd o) s = .next (s.finishT c t o.d v)
    let writes (n : Nat) (u : State) : Prop := o.sreg.toNat = n → exec (.syswr o) s = .next (u.finishT c t o.d 0)
    let refuses (n : Nat) : Prop := o.sreg.toNat = n → exec (.syswr o) s = .next (s.finishT c t o.d 1)
    (o.mod.getLsbD 0 = false ∨ (s.ctx c).port.priv.getLsbD 0 = true →
      exec (.sysrd o) s = .next (s.finishT c t o.d (s.sregValue k (s.thread c t) o.sreg.toNat o.imm16.toNat)) ∧
      reads 0x10 (s.qage.zeroExtend 64) ∧ reads 0x100 (x.port.hseq.zeroExtend 64) ∧ reads 0x106 x.port.priv ∧
      reads 0x300 (s.thread c t).epc ∧ reads 0x301 (s.thread c t).tcause ∧ reads 0x302 (s.thread c t).tval ∧
      (x.st ≠ .free → reads 0x205 x.tvec ∧ reads 0x203 (x.fqhead.zeroExtend 64)) ∧ (x.st = .free → reads 0x205 0 ∧ reads 0x200 0) ∧
      writes 0x103 (s.modCtx k fun y => { y with port := { y.port with cbase := a &&& ~~~0xf } }) ∧
      (x.st ≠ .free → a.toNat % 8 = 0 → writes 0x205 (s.modCtx k fun y => { y with tvec := a })) ∧
      (x.st ≠ .free → a.toNat % 8 ≠ 0 → refuses 0x205) ∧ (x.st = .free → refuses 0x205) ∧ (16 < (a.toNat % 256) → refuses 0x104) ∧
      writes 0x300 (s.modThread c t fun th => { th with epc := a &&& ~~~7 })) ∧
    ((s.ctx c).port.priv.getLsbD 0 = true →
      (a.toNat % 2 ^ 32 ≠ 0 → writes 0x10 { s with qage := a.truncate 32 }) ∧ (a.toNat % 2 ^ 32 = 0 → refuses 0x10) ∧
      (x.st ≠ .free → a.toNat % 4096 = 0 → writes 0x200 (s.modCtx k fun y => { y with port := { y.port with ptroot := a } })) ∧
      (a.toNat % 4096 ≠ 0 → refuses 0x200) ∧
      writes 0x105 (s.modCtx k fun y => { y with port := { y.port with spawn := a } }))) ∧
  (∀ (s : State) (r : HostReg) (v : DWord),
    (∀ u, s.putReg r v = some u → exec (.registerWrite r v) s = .next u) ∧ (s.putReg r v = none → exec (.registerWrite r v) s = .next s)) ∧
  (∀ (s : State) (c : CtxId) (v : DWord), ∃ u, exec (.registerWrite (.priv c) v) s = .next u ∧
    (u.ctx c).port.priv = v &&& 1 ∧ ∀ k, k ≠ c → u.ctx k = s.ctx k)

/-- Privilege (R430, R431): a use of .o, or a write of a register that needs it, by a context whose bit is clear is an
illegal-instruction trap with the word in TVAL, and no state changes otherwise. -/
def Claims.PrivilegeTraps : Prop :=
  ∀ (s : State) (c : CtxId) (t : Tid) (o : ZForm), s.cur = .thread c t → (s.ctx c).port.priv.getLsbD 0 = false →
    let traps (i : Instr) : Prop := ∀ w, encode i = some w → exec i s = .next (s.takeTrap c t (s.thread c t).pc 1 w)
    (o.mod.getLsbD 0 = true → traps (.sysrd o) ∧ traps (.syswr o) ∧ traps (.tlbInv o) ∧ traps (.fltRetry o) ∧ traps (.fltDrop o)) ∧
    (o.sreg.toNat ∈ [0x10, 0x11, 0x105, 0x200, 0x201, 0x202, 0x207, 0x208, 0x20a, 0x20b] → traps (.syswr o))

/-- System registers read and write by their rules, and a use without its privilege traps. -/
def Obligations.SystemRegisters : Prop :=
  Claims.SystemRegisters ∧ Claims.PrivilegeTraps

/-- No instruction, of a thread or of a segment, changes a context's privilege bit, whether it is protected, or what the
security and power registers hold (R431, R495, R496). -/
def Obligations.NoInstructionGrantsPrivilege : Prop :=
  ∀ (i : Instr) (s t : State) (x : Site), validAt x i = true → exec i s = .next t → t.secure = s.secure ∧
    ∀ c, (t.ctx c).port.priv = (s.ctx c).port.priv ∧ (t.ctx c).prot = (s.ctx c).prot ∧ (t.ctx c).kp = (s.ctx c).kp

/-- FQTAIL (R443): v is taken where (FQHEAD − v) mod 2^32 is no greater than (FQHEAD − FQTAIL) mod 2^32, and refused with
status 1 otherwise; an event held is then written, unit by unit, once the new value is in force, from the next cycle on (R440), where the queue has
room. -/
def Obligations.FqtailWrites : Prop :=
  ∀ (s : State) (c : CtxId) (v : Word), (s.ctx c).st ≠ .free →
    let x := s.ctx c
    let taken : Prop := (x.fqhead - v).toNat ≤ (x.fqhead - x.fqtail).toNat
    let u := s.modCtx c fun y => { y with fqtail := v }
    (taken → exec (.fqtailWrite c v) s = .next u) ∧ (¬ taken → exec (.fqtailWrite c v) s = .next s) ∧
    (∀ (t : Tid) (o : ZForm), s.cur = .thread c t → o.mod = 0 → o.sreg = 0x204 → v = (s.readT c t o.a).truncate 32 →
      (taken → exec (.syswr o) s = .next (u.finishT c t o.d 0)) ∧ (¬ taken → exec (.syswr o) s = .next (s.finishT c t o.d 1))) ∧
    (∀ e es, taken → x.heldEvents = e :: es → (x.fqhead - v).toNat < 2 ^ (x.port.fqdepth.toNat % 16) → s.upkeep.repairing = [] →
      s.job? (.faultEventWrite c) x.fqhead.toNat = none →
      ∃ w j, exec (.faultEventWrite c) (u.modCtx c fun y => { y with inForce := y.nextInForce }) = .next w ∧
        w.job? (.faultEventWrite c) x.fqhead.toNat = some j ∧ j.todo ≠ [] ∧
        j.todo <:+ jobUnits [(x.port.fqbase.toNat + 128 * (x.fqhead.toNat % 2 ^ (x.port.fqdepth.toNat % 16)), 128)] (eventBytes e))

/-- The end of a context by itself or another (R366, R435, R436, R467): ctx.exit begins its teardown with kind exit, its
thread and its value; ctx.kill and a host's KILL write begin one as a kill with thread 0xff and value 0, and ctx.kill gives
the first code that applies; a save that is under way is given up. A context whose own ctx.exit issues in the same cycle takes that one (R436). -/
def Claims.ExitAndKill : Prop :=
  ∀ (s : State) (c : CtxId) (t : Tid) (o : ZForm), s.cur = .thread c t → (s.ctx c).st = .running →
    let ends (z : State) (k : CtxId) (e : EndInfo) : State :=
      { z with jobs := z.jobs.filter fun j => j.ev != Instr.saveEngineDone k }.modCtx k fun x =>
        { x with st := .ending, endInfo := some e, queuedAt := none, preempt := none, yielding := false }
    let ended (k : CtxId) (e : EndInfo) : State := ends s k e
    let a := (s.readT c t o.a).toNat
    let k : CtxId := Fin.ofNat 64 a
    let gives (v : DWord) : Prop := exec (.ctxKill o) s = .next (s.finishT c t o.d v)
    let may : Prop := k = c ∨ (s.ctx c).port.spawn.getLsbD k.val = true ∨ (s.ctx c).port.priv.getLsbD 0 = true
    let gone : Prop := (s.ctx k).st = .free ∨ (s.ctx k).st = .ending
    let noExit (m : CtxId) : Prop := ∀ o' s1, s.issueOn (s.ctx m).home ≠ .instr (.ctxExit o') s1
    exec (.ctxExit o) s = .next (ended c ⟨false, BitVec.ofNat 8 t.val, (s.readT c t o.a).truncate 32, s.cyc⟩) ∧
    (64 ≤ a → gives 3) ∧ (a < 64 → ¬ may → gives 1) ∧ (a < 64 → may → noExit k → gone → gives 2) ∧
    (a < 64 → k = c → exec (.ctxKill o) s = .next (ended c ⟨true, 0xff, 0, s.cyc⟩)) ∧
    (a < 64 → may → noExit k → ¬ gone → k ≠ c → exec (.ctxKill o) s = .next ((ended k ⟨true, 0xff, 0, s.cyc⟩).finishT c t o.d 0)) ∧
    (∀ o' s1 t', a < 64 → may → k ≠ c → s.issueOn (s.ctx k).home = .instr (.ctxExit o') s1 → s1.cur = .thread k t' →
      (s1.ctx k).st = .running → exec (.ctxKill o) s =
        .next ({ ends s1 k ⟨false, BitVec.ofNat 8 t'.val, (s1.readT k t' o'.a).truncate 32, s1.cyc⟩ with cur := s.cur }.finishT c t o.d 2)) ∧
    ∀ m, noExit m → ((s.ctx m).st ≠ .free → (s.ctx m).st ≠ .ending → exec (.killWrite m) s = .next (ended m ⟨true, 0xff, 0, s.cyc⟩)) ∧
      ((s.ctx m).st = .free → exec (.killWrite m) s = .next s)

/-- Asking for a context, stopping and telling the host (R418, R434, R437, R448, R450, R451): ctx.spawn with an aligned b
reads the launch word and waits for the answer, with code 3 for a at 64 or above; yield stands until the other threads may
stop and their accesses are performed, gives 1 where a pass is armed, 2 where a lay is not quiescent, and otherwise gives 0,
writes the header and the threads to the save area unit by unit, and with the last one stops the context; notify waits for DSEQ; halt
halts; wfi waits for its causes and its limit, and either ends it with the causes in d. -/
def Claims.SpawnYieldAndWait : Prop :=
  (∀ (s : State) (c : CtxId) (t : Tid) (o : ZForm), s.cur = .thread c t →
    let a := (s.readT c t o.a).toNat
    let b := (s.readT c t o.b).toNat
    (b % 32 ≠ 0 → exec (.ctxSpawn o) s = .next (s.takeTrap c t (s.thread c t).pc 4 (BitVec.ofNat 64 b))) ∧
    (∀ w s1, b % 32 = 0 → s.threadPending c t = false → s.threadRead c t b 32 1 = (.ok w, s1) →
      (64 ≤ a → exec (.ctxSpawn o) s = .next (s1.finishT c t o.d 3)) ∧
      (a < 64 → exec (.ctxSpawn o) s = .next (s1.modThread c t fun th => { th with wait := .spawn o.d (Fin.ofNat 64 a) w }))) ∧
    (let ev : Instr := .saveEngineDone c
      let waits : Prop := (∃ k : Tid, k.val < (s.ctx c).nthr ∧
          ((k ≠ t ∧ (s.thread c k).yields = false) ∨ ∃ q ∈ s.reqs, q.place.ctx = c ∧ q.owner = .thread k)) ∨
        ∃ j ∈ s.jobs, jobCtx j.ev = some c ∧ j.ev ≠ ev
      let stops (z u : State) : Prop := (u.ctx c).st = .stopped ∧ (u.ctx c).resumes = true ∧ (u.ctx c).queuedAt.isSome = true ∧
        (u.ctx c).yielding = false ∧ u.thread c t = { z.thread c t with wait := .none } ∧ (∀ k, k ≠ t → u.thread c k = z.thread c k) ∧
        (∀ l, u.lay? c l = z.lay? c l) ∧ ∀ m, m ≠ c → u.ctx m = z.ctx m
      let inside (us : List (Nat × List Byte × Bool)) : Prop := ∀ w ∈ us, w.1 + w.2.1.length ≤ hbmSize
      (s.ctx c).st = .running →
      ((s.ctx c).yielding = false → waits → exec (.yield o) s = .next (s.stand c t .yield)) ∧
      ((s.ctx c).yielding = false → ¬ waits →
        let n := (s.leaveWaits c).yieldCode c
        let s2 := (s.leaveWaits c).finishT c t o.d (BitVec.ofNat 64 n)
        let s3 := (s2.stand c t .yield).modCtx c fun x => { x with yielding := true }
        let us := saveUnits (s.saveArea c) (savePrefix (s2.ctx c) c false [] (512 + 448 * (s.ctx c).nthr) s.cyc 0) []
        (n ≠ 0 → exec (.yield o) s = .next s2) ∧
        (n = 0 → s.job? ev 1 = none → s.upkeep.repairing = [] → inside us → Claims.DeviceWrites s3 (exec (.yield o) s) ev 1 us (stops s3))) ∧
      (∀ us, (s.ctx c).yielding = true → s.job? ev 1 = some ⟨ev, 1, us⟩ → s.upkeep.repairing = [] → inside us →
        Claims.DeviceWrites s (exec (.yield o) s) ev 1 us (stops s))) ∧
    (∃ u, exec (.notify o) s = .next u ∧ (u.thread c t).wait = .notify ∧ (u.thread c t).pc = (s.thread c t).pc ∧
      (u.ctx c).notices = (s.ctx c).notices ++ [⟨t, (s.readT c t o.a).truncate 32, o.mod.getLsbD 1⟩]) ∧
    exec (.halt o) s = .next (s.modThread c t fun th => { th with halted := true }) ∧
    exec (.wfi o) s = .next (s.modThread c t fun th =>
      { th with wait := .wfi o.d (if o.imm16 = 0 then none else some (s.cyc + o.imm16.toNat * 1024)) 0 })) ∧
  (∀ (s : State) (c : CtxId) (t : Tid) (d : Spec) (lim : Option Nat) (m : BitVec 8), (s.thread c t).wait = .wfi d lim m →
    (m ≠ 0 → exec (.wfiWake c t) s = .next (s.finishT c t d (m.zeroExtend 64))) ∧
    (∀ n, lim = some n → n ≤ s.cyc → exec (.wfiTimeout c t) s = .next (s.finishT c t d ((m ||| 0x80).zeroExtend 64)))) ∧
  (∀ (s : State) (c : CtxId), (s.ctx c).st ≠ .free → ∃ u, exec (.wakeWrite c) s = .next u ∧
    ∀ t d lim m, (s.thread c t).wait = .wfi d lim m → (u.thread c t).wait = .wfi d lim (m ||| 8))

/-- ctx.exit, ctx.kill, ctx.spawn, yield, notify, halt and wfi complete. -/
def Obligations.ContextsEndAndWait : Prop :=
  Claims.ExitAndKill ∧ Claims.SpawnYieldAndWait

/-- Shootdown and cache control (R405, R446, R447): tlb.inv drops the named context's cached translations of the range at
once and keeps the others, and returns once nothing that was issued before it still uses one; cwb writes the dirty lines
of its range back and cinv gives them up, each going on past the last page; no byte of memory changes. -/
def Claims.ShootdownAndCaches : Prop :=
  (∀ (s : State) (c : CtxId) (t : Tid) (o : ZForm), s.cur = .thread c t → o.mod.getLsbD 0 = false ∨ (s.ctx c).port.priv.getLsbD 0 = true →
    let k : CtxId := if o.mod.getLsbD 0 then Fin.ofNat 64 o.imm16.toNat else c
    let a := s.readT c t o.a
    let b := s.readT c t o.b
    ∃ u, exec (.tlbInv o) s = .next u ∧ (∀ e, e ∈ u.tlb ↔ e ∈ s.tlb ∧ ¬ (e.ctx = k ∧ inShoot a b e.region = true)) ∧
      (b = 0 → ∀ e ∈ u.tlb, e.ctx ≠ k) ∧ u.hbm = s.hbm ∧ (u.thread c t).wait = .tlbInv s.nextId k a b ∧
      (u.thread c t).pc = (s.thread c t).pc) ∧
  (∀ (s : State) (c : CtxId) (t : Tid) (n : Nat) (k : CtxId) (a b : DWord), (s.thread c t).wait = .tlbInv n k a b → s.shootDone n k a b = true →
    exec (.tlbInvComplete c t) s = .next (s.advance c t)) ∧
  (∀ (s : State) (c : CtxId) (t : Tid) (o : ZForm) (lf : Leaf), s.cur = .thread c t →
    let a := (s.readT c t o.a).toNat
    let n := (s.readT c t o.b).toNat
    (n = 0 → exec (.cwb o) s = .next (s.advance c t) ∧ exec (.cinv o) s = .next (s.advance c t)) ∧
    (0 < n → a % 65536 + n ≤ 65536 → canonical a = true → s.upkeep.flaws = [] → s.upkeep.repairing = [] → s.walk c a = .ok lf →
      let pa := lf.pa + a % 65536
      (lf.mt = 0 → exec (.cwb o) s = .next ((s.cleanLines false pa n).advance c t) ∧
        exec (.cinv o) s = .next ((s.cleanLines true pa n).advance c t)) ∧
      (lf.mt ≠ 0 → exec (.cwb o) s = .next (s.advance c t) ∧ exec (.cinv o) s = .next (s.advance c t)))) ∧
  (∀ (s : State) (pa n : Nat), let lines := granules 64 pa n
    { s.cleanLines false pa n with dir := s.dir } = s ∧ { s.cleanLines true pa n with dir := s.dir } = s ∧
    (∀ d, d ∈ (s.cleanLines true pa n).dir ↔ d ∈ s.dir ∧ d.line ∉ lines) ∧
    (∀ d ∈ (s.cleanLines false pa n).dir, d.line ∈ lines → d.dirty = false) ∧
    (∀ d, d.line ∉ lines → (d ∈ (s.cleanLines false pa n).dir ↔ d ∈ s.dir)))

/-- flt.retry and flt.drop (R409, R449): an event of kind 1 that awaits service is served, and awaits it no more; a retry
sends the requests that wait under its tag to their walks, with nothing cached of the region, and wakes the streams and
fibre instructions; a drop takes the
requests away and ends such a stream with status 0x11. One of kind 2 fires its record again, or retires it. A tag that no
event carries has no effect. -/
def Claims.FaultService : Prop :=
  ∀ (s : State) (c : CtxId) (t : Tid) (o : ZForm), s.cur = .thread c t → o.mod.getLsbD 0 = false →
    let tag : BitVec 16 := (s.readT c t o.a).truncate 16
    ((∀ e ∈ (s.ctx c).awaiting, e.tag ≠ tag) →
      exec (.fltRetry o) s = .next (s.advance c t) ∧ exec (.fltDrop o) s = .next (s.advance c t)) ∧
    (∀ e, (s.ctx c).awaiting.find? (fun e => e.tag == tag) = some e → e.kind = 1 →
      (∃ u, exec (.fltRetry o) s = .next u ∧ (∀ z ∈ (u.ctx c).awaiting, z.tag ≠ tag) ∧
        u.reqs = s.reqs.map (fun q => if q.place.ctx = c ∧ q.stage = .event tag then { q with stage := .walk, born := s.cyc } else q) ∧
        (∀ z, z ∈ u.tlb ↔ z ∈ s.tlb ∧ ¬ (z.ctx = c ∧ z.region = e.region)) ∧
        (∀ pg n st, s.stream? c e.lay pg n = some st → st.parked = some tag → u.stream? c e.lay pg n = some { st with parked := none }) ∧
        (∀ k sk, k ≠ t → (s.thread c k).wait = .fibre tag sk → (u.thread c k).wait = .none ∧ (u.thread c k).dropped = false)) ∧
      (∃ u, exec (.fltDrop o) s = .next u ∧ e ∉ (u.ctx c).awaiting ∧
        (s.reqs.Pairwise (fun a b => a.id ≠ b.id) → ∀ q ∈ u.reqs, q.place.ctx = c → q.stage ≠ .event tag) ∧
        (∀ pg n st, s.stream? c e.lay pg n = some st → st.parked = some tag →
          u.stream? c e.lay pg n = some { st with parked := none, ending := some (0x11, e.va.toNat, 0) }) ∧
        (∀ k sk, k ≠ t → (s.thread c k).wait = .fibre tag sk → (u.thread c k).wait = .none ∧ (u.thread c k).dropped = true))) ∧
    (∀ e x st z, (s.ctx c).awaiting.find? (fun e => e.tag == tag) = some e → e.kind = 2 → s.lay? c e.lay = some x →
      x.station? e.pid (e.src.truncate 7) = some st → st.exc = some z → z.held = some tag →
      (∃ u y st', exec (.fltRetry o) s = .next u ∧ u.lay? c e.lay = some y ∧ y.station? e.pid (e.src.truncate 7) = some st' ∧
        st'.exc = some { z with held := none, refire := true }) ∧
      (∃ u y st', exec (.fltDrop o) s = .next u ∧ u.lay? c e.lay = some y ∧ y.station? e.pid (e.src.truncate 7) = some st' ∧ st'.exc = none))

/-- tlb.inv, cwb, cinv, flt.retry and flt.drop complete. -/
def Obligations.ShootdownAndService : Prop :=
  Claims.ShootdownAndCaches ∧ Claims.FaultService

/-! ### Contexts, service, security and power -/

/-- An entry goes to the fault log while it has room (R482). -/
def Claims.Logged (s u : State) (e : List Byte) : Prop :=
  (s.log.head - s.log.tail).toNat ≠ 63 → u.log.head = s.log.head + 1 ∧ u.log.entries[s.log.head.toNat % 63]? = some e

/-- Launches (R368 to R370, R374, R375): a write of LAUNCH stages its bytes, with byte 31 it triggers; from the cycle after
that the oldest trigger is accepted where the word keeps its rules, the context is free and its number follows HSEQ, and refused with 3, 1 or 2 in LSTAT
otherwise; a spawn is accepted under the same conditions, or answered with 5, 4, 3, 1 or 2. Both are decided in the
dispatcher's order: no launch of a lower port, and before a spawn no launch and no spawn of a lower context and thread,
waits. An accepted context is queued with what its word says. -/
def Claims.LaunchesAccepted : Prop :=
  let okWord (w : List Byte) : Prop := natAt w 0 8 % 8 = 0 ∧ canonical (natAt w 0 8) = true ∧ natAt w 16 8 = 0 ∧ 1 ≤ natAt w 28 1 ∧
    natAt w 28 1 ≤ 8 ∧ natAt w 29 1 < 4 ∧ natAt w 30 1 < 2 ∧ natAt w 31 1 = 0
  let code (s : State) (c : CtxId) (w : List Byte) (bad : Prop) (n : Nat) : Prop :=
    (bad ∧ n = 3) ∨ (¬ bad ∧ (s.ctx c).st ≠ .free ∧ n = 1) ∨
    (¬ bad ∧ (s.ctx c).st = .free ∧ BitVec.ofNat 32 (natAt w 24 4) ≠ (s.ctx c).port.hseq + 1 ∧ n = 2) ∨
    (¬ bad ∧ (s.ctx c).st = .free ∧ BitVec.ofNat 32 (natAt w 24 4) = (s.ctx c).port.hseq + 1 ∧ n = 0)
  let queued (s u : State) (c : CtxId) (w : List Byte) : Prop := let y := u.ctx c
    y.st = .queued ∧ y.port.hseq = (s.ctx c).port.hseq + 1 ∧ y.entry = BitVec.ofNat 64 (natAt w 0 8) ∧ y.argp = BitVec.ofNat 64 (natAt w 8 8) ∧
    y.nthr = natAt w 28 1 ∧ y.prio.val = natAt w 29 1 ∧ y.prot = (natAt w 30 1 == 1) ∧ y.queuedAt = some s.cyc ∧ y.tvec = 0 ∧ y.wlimit = 65536 ∧ y.wreport = 0 ∧
    y.inForce = { (s.ctx c).inForce with fqtail := 0, wlimit := 65536, wreport := 0 } ∧ y.fqhead = 0 ∧ y.fqtail = 0 ∧ y.lays = Vector.replicate 8 none
  (∀ (s : State) (c : CtxId) (off : Nat) (bs : List Byte), s.secure.bstat = 6 → bs ≠ [] → off + bs.length ≤ 32 →
    ∃ u, exec (.launchWrite c off bs) s = .next u ∧ (u.ctx c).port.launch = stageBytes (s.ctx c).port.launch off bs ∧
      (u.ctx c).port.triggers = (if off + bs.length = 32 then (s.ctx c).port.triggers ++ [(s.cyc, (u.ctx c).port.launch.toList)] else (s.ctx c).port.triggers)) ∧
  (∀ (s : State) (c : CtxId) (w : List Byte) (at_ : Nat) (rest : List (Nat × List Byte)) (n : Nat), (s.ctx c).port.triggers = (at_, w) :: rest → at_ < s.cyc →
    s.triggerBelow c.val = false → s.stepDue (65 + c.val) = true →
    code s c w (¬ okWord w) n → ∃ u, exec (.hostLaunch c) s = .next u ∧ (u.ctx c).port.triggers = rest ∧ (∀ k, k ≠ c → u.ctx k = s.ctx k) ∧
      (n = 0 → queued s u c w) ∧
      (n ≠ 0 → u.ctx c = { s.ctx c with port := { (s.ctx c).port with triggers := rest, lcode := BitVec.ofNat 8 n, lseq := BitVec.ofNat 32 (natAt w 24 4) } })) ∧
  (∀ (s : State) (c k : CtxId) (t : Tid) (d : Spec) (w : List Byte) (n : Nat), (s.thread c t).wait = .spawn d k w → s.triggerBelow 64 = false →
    s.spawnBelow (129 + 8 * c.val + t.val) = false → s.stepDue (129 + 8 * c.val + t.val) = true →
    (if (s.ctx c).st = .ending ∧ ∀ e, (s.ctx c).endInfo = some e → e.at_ < s.cyc then n = 5 else if (s.ctx c).inForce.spawn.getLsbD k.val = false then n = 4
      else code s k w (¬ okWord w ∨ (natAt w 30 1 = 1 ∧ (s.ctx c).prot = false)) n) →
    ∃ u, exec (.spawnDecision c t) s = .next u ∧
      (n ≠ 0 ∨ k ≠ c → u.thread c t = ((s.thread c t).write d (BitVec.ofNat 64 n)).advance) ∧
      (n = 0 → k ≠ c → queued s u k w) ∧ (n ≠ 0 → ∀ m, m ≠ c → u.ctx m = s.ctx m))

/-- A start (R365, R378): the first entry of the queue that is not a resumption runs on the die with the most free thread
positions, the lowest where several have as many, at its lowest free positions; each thread begins at the entry with the
argument pointer in s1, its other registers zero. -/
def Claims.ContextsStart : Prop :=
  ∀ (s : State) (c : CtxId) (cs : List CtxId) (d : Die), s.queue = c :: cs → (s.ctx c).resumes = false →
    s.triggerBelow 64 = false → s.spawnBelow 641 = false → s.stepDue 641 = true →
    let x := s.ctx c
    (∀ e, (s.freePositions e).length ≤ (s.freePositions d).length) → (∀ e, (s.freePositions e).length = (s.freePositions d).length → d ≤ e) →
    x.nthr ≤ (s.freePositions d).length →
    ∃ u, exec .contextStart s = .next u ∧ (u.ctx c).st = .running ∧ (u.ctx c).home = d ∧ (u.ctx c).queuedAt = none ∧
      (∀ k, k ≠ c → u.ctx k = s.ctx k) ∧ u.hbm = s.hbm ∧
      ∀ t : Tid, t.val < x.nthr → let th := u.thread c t
        th.pc = x.entry ∧ th.getS 1 = x.argp ∧ (∀ n : Fin 32, n ≠ 1 → th.getS n = 0) ∧ th.inTrap = false ∧ th.halted = false ∧
        some th.pos = (s.freePositions d)[t.val]?

/-- Completion records and teardown (R366, R372, R374, R448): the oldest notify of a context, its thread's accesses performed,
writes its 16-byte record at CBASE unit by unit, or a fault-log entry of kind 0x0c where that address is refused; then DSEQ
advances and the thread goes on, with a vector under .irq. TEARDOWN, from the cycle after the context entered ending and in
the dispatcher's order, of a context whose stalled instructions may end and whose accesses are performed consumes a sequence
number, with a record of its own, and frees it. -/
def Claims.CompletionRecords : Prop :=
  let record (d hsn : Word) (kind : Nat) (c : CtxId) (th : Byte) (v : Word) : List Byte :=
    bytesOfNat 4 d.toNat ++ bytesOfNat 4 hsn.toNat ++ [BitVec.ofNat 8 kind, BitVec.ofNat 8 c.val, th, 0] ++ bytesOfNat 4 v.toNat
  let inside (us : List (Nat × List Byte × Bool)) : Prop := ∀ w ∈ us, w.1 + w.2.1.length ≤ hbmSize
  let consumes (s z : State) (c : CtxId) (ev : Instr) (rec_ : List Byte) (irq : Bool) (ends : State → Prop) : Prop :=
    let d := (s.ctx c).port.dseq + 1
    let y := (s.ctx c).inForce
    let a := addrPlus y.cbase.toNat (16 * (d.toNat % 2 ^ y.cdepth.toNat))
    let after (k u : State) : Prop := ends u ∧ (u.ctx c).port.dseq = d ∧ u.links = (if irq then k.links.raised c.val else k.links)
    (∀ todo, z.job? ev d.toNat = some ⟨ev, d.toNat, todo⟩ → inside todo → Claims.DeviceWrites z (exec ev s) ev d.toNat todo (after z)) ∧
    (z.job? ev d.toNat = none →
      (y.cbase = 0 → ∃ u, exec ev s = .next u ∧ after z u ∧ u.hbm = s.hbm) ∧
      (∀ ps s1, y.cbase ≠ 0 → z.farRange c a 16 1 ⟨false, true, false⟩ = (.ok ps, s1) → inside (jobUnits ps rec_) →
        Claims.DeviceWrites s1 (exec ev s) ev d.toNat (jobUnits ps rec_) (after s1)) ∧
      (∀ e s1, y.cbase ≠ 0 → z.farRange c a 16 1 ⟨false, true, false⟩ = (.error e, s1) → ∃ u, exec ev s = .next u ∧ ends u ∧
        (u.ctx c).port.dseq = d ∧ u.hbm = s1.hbm ∧ Claims.Logged s1 u (logBytes s1.cyc 0x0c 255 255 255 c.val a 0 d.toNat)))
  (∀ (s : State) (c : CtxId) (n : Notice) (rest : List Notice), (s.ctx c).notices = n :: rest → s.threadPending c n.thread = false →
    (s.thread c n.thread).wait = .notify → s.upkeep.repairing = [] →
    let x := s.ctx c
    consumes s s c (.dseqAdvance c) (record (x.port.dseq + 1) x.hsn 0 c (BitVec.ofNat 8 n.thread.val) n.value) n.irq fun u =>
      (u.ctx c).notices = rest ∧ u.thread c n.thread = (s.thread c n.thread).advance ∧ ∀ k, k ≠ c → u.ctx k = s.ctx k) ∧
  (∀ (s : State) (c : CtxId) (e : EndInfo), (s.ctx c).st = .ending → (s.ctx c).endInfo = some e → e.at_ < s.cyc →
    s.dispatched ≤ 1 + c.val → (∀ t, (s.thread c t).stopsForEnd = true) → (∀ l, s.lay? c l = none) →
    (∀ q ∈ s.reqs, q.place.ctx = c → q.stage = .done) → s.upkeep.repairing = [] →
    let x := s.ctx c
    let z := (List.finRange 8).foldl (fun y l => y.dropLay c l) ((List.finRange 8).foldl (fun y l => y.endSlot c l) (s.stopThreads c))
    consumes s z c (.teardown c) (record (x.port.dseq + 1) x.hsn (if e.kill then 2 else 1) c e.thread e.value) false fun u =>
      (u.ctx c).st = .free ∧ (u.ctx c).port.hseq = x.port.hseq ∧ (u.ctx c).port.pstat = 0 ∧ (∀ k, k ≠ c → u.ctx k = s.ctx k) ∧
      (∀ z ∈ u.tlb, z.ctx ≠ c) ∧ (∀ q ∈ u.reqs, q.place.ctx ≠ c))

/-- Launches are accepted or refused, contexts start, and completion records are written. -/
def Obligations.LaunchesAndRecords : Prop :=
  Claims.LaunchesAccepted ∧ Claims.ContextsStart ∧ Claims.CompletionRecords

/-- The queues (R377): an entry's level is min(3, level + ⌊w ÷ QAGE⌋), w the cycles since its entry time, with QAGE 2^20 at
reset and a written one in force from the next fabric cycle (R440); entries stand in falling level, then the oldest first, then in rising context number. -/
def Obligations.QueueOrder : Prop :=
  (∀ (s : State) (c : CtxId) (n : Nat), (s.ctx c).queuedAt = some n → s.queueLevel c = min 3 ((s.ctx c).prio.val + (s.cyc - n) / s.qageNow.toNat)) ∧
  State.reset.qageNow.toNat = 2 ^ 20 ∧ State.reset.qage = State.reset.qageNow ∧ (∀ s : State, s.tick.qageNow = s.qage) ∧
  (∀ (s : State) (c : CtxId), c ∈ s.queue ↔ (s.ctx c).queuedAt.isSome = true ∧ (s.ctx c).preempt = none) ∧
  ∀ s : State, s.queue.Pairwise fun a b => s.queueLevel b < s.queueLevel a ∨ (s.queueLevel a = s.queueLevel b ∧
    ((s.ctx a).queuedAt.getD 0 < (s.ctx b).queuedAt.getD 0 ∨ ((s.ctx a).queuedAt.getD 0 = (s.ctx b).queuedAt.getD 0 ∧ a.val < b.val)))

/-- Forced pre-emption (R419 to R423; the model's choices are log entries 38 and 39): a request stops a running context whose
state fits, or one that yield stopped, its threads leaving what they may leave; it reads PSTAT 5 with vector 65 where the
state does not fit, and does nothing to any other context. The drain ends when the lays have settled, or at its deadline,
with the cycles it took in PSTAT; the save engine then writes the area unit by unit and, with the last, gives the lays up,
PSTAT reads 4, vector 65 is raised and the context waits in its queue unless it is held, until the hold is released. -/
def Obligations.ForcedPreemption : Prop :=
  let inside (us : List (Nat × List Byte × Bool)) : Prop := ∀ w ∈ us, w.1 + w.2.1.length ≤ hbmSize
  (∀ (s : State) (c : CtxId) (h : Bool), let x := s.ctx c
    let acts : Prop := x.preempt = none ∧ (x.st = .running ∨ (x.st = .stopped ∧ x.port.pstat ≠ 4))
    (acts → s.canSave c = true → ∃ u, exec (.preemptRequest c h) s = .next u ∧
      (u.ctx c).preempt = some ⟨s.cyc, h, x.st == .stopped⟩ ∧ (u.ctx c).prq = true ∧ (u.ctx c).st = x.st ∧ (u.ctx c).port.pstat = 0 ∧
      (∀ t, (u.thread c t).pc = (s.thread c t).pc ∧ (u.thread c t).s = (s.thread c t).s ∧
        (u.thread c t).wait = (if (s.thread c t).yields then .none else (s.thread c t).wait)) ∧
      u.hbm = s.hbm ∧ u.links = s.links ∧ ∀ k, k ≠ c → u.ctx k = s.ctx k) ∧
    (acts → s.canSave c = false → ∃ u, exec (.preemptRequest c h) s = .next u ∧ (u.ctx c).port.pstat = 5 ∧ (u.ctx c).preempt = none ∧
      (u.ctx c).threads = x.threads ∧ u.hbm = s.hbm ∧ u.links = s.links.raised 65) ∧
    (¬ acts → exec (.preemptRequest c h) s = .next s)) ∧
  (∀ (s : State) (c : CtxId) (p : Preempt), (s.ctx c).preempt = some p → p.drained = false → (s.ctx c).st = .running →
    (∀ t : Tid, t.val < (s.ctx c).nthr → (s.thread c t).wait = .none) → (∀ l x, s.lay? c l = some x → x.inSwap = false) →
    let ends (i : Instr) : Prop := ∃ u, exec i s = .next u ∧ (u.ctx c).preempt = some { p with drained := true } ∧ u.hbm = s.hbm ∧
      (u.ctx c).port.drained = BitVec.ofNat 32 (s.cyc - p.at_) ∧ ∀ t : Tid, t.val < (s.ctx c).nthr → u.thread c t = s.thread c t
    ((∀ l x, s.lay? c l = some x → (s.laySettled c l x && x.streamsRest true) = true) → ends (.drainEnd c)) ∧
    (p.at_ + (s.ctx c).inForce.pdead.toNat ≤ s.cyc → ends (.drainDeadline c))) ∧
  (∀ (s : State) (c : CtxId) (p : Preempt), (s.ctx c).preempt = some p → p.drained = true → s.upkeep.repairing = [] →
    let ev : Instr := .saveEngineDone c
    let ends (k u : State) : Prop := (u.ctx c).st = .stopped ∧ (u.ctx c).preempt = none ∧ (u.ctx c).resumes = true ∧
      (u.ctx c).port.pstat = 4 ∧ (u.ctx c).port.held = p.hold ∧ (u.ctx c).queuedAt.isSome = (!p.hold) ∧
      (∀ l x, u.lay? c l = some x → x.placed = false) ∧ u.links = k.links.raised 65
    (∀ todo, s.job? ev 0 = some ⟨ev, 0, todo⟩ → inside todo → Claims.DeviceWrites s (exec ev s) ev 0 todo (ends s)) ∧
    (s.job? ev 0 = none → s.saveReady c = true → let b := s.saveBegin c
      (inside b.2 → Claims.DeviceWrites b.1 (exec ev s) ev 0 b.2 (ends b.1)) ∧
      ((∀ l, s.lay? c l = none) → (s.ctx c).st = .running → s.saveArea c + 4096 ≤ hbmSize →
        b.2.flatMap (fun w => w.2.1) = savePrefix (s.ctx c) c true (List.replicate 8 0) (512 + 448 * (s.ctx c).nthr) s.cyc
          (s.ctx c).port.drained.toNat))) ∧
  (∀ (s : State) (c : CtxId), ∃ u, exec (.preemptReleaseHold c) s = .next u ∧ (u.ctx c).port.held = false ∧
    (∀ p, (s.ctx c).preempt = some p → (u.ctx c).preempt = some { p with hold := false }) ∧
    ((s.ctx c).st = .stopped → (s.ctx c).preempt = none → (u.ctx c).queuedAt.isSome = true) ∧ (u.ctx c).threads = (s.ctx c).threads ∧
    (u.ctx c).st = (s.ctx c).st ∧ u.hbm = s.hbm ∧ ∀ k, k ≠ c → u.ctx k = s.ctx k)

/-- Repair (R478, R481, R482, R485; corners are log entry 47): after three retrains a channel fails, is logged and is up no more; a page retires unless it
is out already or another is under way, and once no lay holds it a free spare takes its position, or the position goes
out of PAGEMAP with status 3, and that is logged; errors in the state of a station, a stream, a translation or a thread leave what R478
gives. -/
def Claims.RepairEvents : Prop :=
  (∀ (s : State) (ch : Chan), let x := s.chan ch
    x.training = false → x.failed = false → 16 ≤ x.fails → 3 ≤ x.retrains →
    ∃ u, exec (.channelFail ch) s = .next u ∧ (u.chan ch).failed = true ∧ u.chanUp ch = false ∧ u.hbm = s.hbm ∧
      Claims.Logged s u (logBytes s.cyc 8 (s.chanPlace x.ch).1 (s.chanPlace x.ch).2 x.ch.dir.val 255 0 0 x.retrains)) ∧
  (∀ (s : State) (v : BitVec 16), v.toNat / 4 < 84 →
    let k : Die × Nat := (Fin.ofNat 4 v.toNat, v.toNat / 4)
    let no : Prop := s.service.rstat = 1 ∨ k ∈ s.service.retired ∨ k ∈ s.service.retiring
    (no → ∃ u, exec (.retire v) s = .next u ∧ u.service.rstat = 4 ∧ u.service.retiring = s.service.retiring ∧ u.ctxs = s.ctxs) ∧
    (¬ no → ∃ u, exec (.retire v) s = .next u ∧ u.service.rstat = 1 ∧ u.service.retiring = s.service.retiring ++ [k])) ∧
  (∀ (s : State) (d : Die) (n pos : Nat) (rest : List (Die × Nat)), s.service.retiring = (d, n) :: rest → s.service.position d n = some pos →
    (s.ctxs.toList.any fun x => x.usesPos d pos) = false → (d, n) ∉ rest →
    ∃ u, exec .retireComplete s = .next u ∧ (d, n) ∈ u.service.retired ∧ u.service.retiring = rest ∧
      Claims.Logged s u (logBytes s.cyc 0x0e d.val n 255 255 0 0 (if s.freeSpares d = [] then 3 else 2)) ∧
      (∀ m ms, s.freeSpares d = m :: ms → (d, pos, m) ∈ u.service.serving ∧ (rest = [] → u.service.rstat = 2) ∧ u.service.pagemap = s.service.pagemap) ∧
      (s.freeSpares d = [] → (u.service.pagemap[d.val]).getLsbD pos = false ∧ (rest = [] → u.service.rstat = 3))) ∧
  (∀ (s : State) (p : Place) (st : Station) (m : Matrix) (a : Fin 4) (row : Fin 32) (ld : Bool) (n : Fin 1024), s.station? p = some st →
    (∃ u st', exec (.stateEccError (.slots p)) s = .next u ∧ u.station? p = some st' ∧ st'.dead = true) ∧
    (st.body = .matrix m →
      let gives (e : EccTarget) (k : Matrix) : Prop := ∃ u st', exec (.stateEccError e) s = .next u ∧ u.station? p = some st' ∧ st'.body = .matrix k
      gives (.acc p a row) { m with acc := m.acc.set a.val ((m.acc[a.val]).set row.val { (m.acc[a.val])[row.val] with mask := 0xf }) } ∧
      gives (.tile p ld) (if ld then { m with tb := { m.tb with poison := true } } else { m with ta := { m.ta with poison := true } }) ∧
      gives (.uslot p n) { m with upoison := insertN n.val m.upoison } ∧ gives (.work p) { m with w := { m.w with poison := true } })) ∧
  (∀ (s : State) (c : CtxId) (l : LaySlot) (pg : Pid) (n : Fin 4) (st : Stream), s.stream? c l pg n = some st → st.running = true →
    ∃ u, exec (.stateEccError (.stream c l pg n)) s = .next u ∧ u.stream? c l pg n = some { st with ending := some (0x10, 0, 0) }) ∧
  (∀ (s : State) (c : CtxId), (s.ctx c).st = .running → ∃ u, exec (.stateEccError (.thread c)) s = .next u ∧ (u.ctx c).st = .ending ∧
    (u.ctx c).endInfo = some ⟨true, 0xff, 0, s.cyc⟩)

/-- Service of a die (R487 to R489, R494): a serving die begins to drain and is drained once nothing uses it; a drained one
returns where its firmware was verified, or loads an image set, all of which must verify (log entry 47); each change of its state is logged. -/
def Claims.DieService : Prop :=
  ∀ (s : State) (d : Die), let stat (u : State) : Nat := (u.service.dstat[d.val]).toNat
    let goes (i : Instr) (n : Nat) : Prop := ∃ u, exec i s = .next u ∧ stat u = n ∧
      Claims.Logged s u (logBytes s.cyc 0x0f d.val 255 255 255 0 0 n) ∧ ∀ e : Die, e ≠ d → u.service.dstat[e.val] = s.service.dstat[e.val]
    let drained : Prop := stat s = 2 ∨ stat s = 4 ∨ stat s = 5
    (stat s = 0 → goes (.dieDrain d) 1) ∧
    (stat s = 1 → (∀ c, (s.ctx c).usesDie d = false) → goes (.dieDrained d) 2) ∧
    (drained → s.service.unbooted[d.val] = false → goes (.dieReturn d) 0) ∧
    (drained → goes (.dieLoadFirmware d) 3) ∧
    (stat s = 3 → s.upkeep.flaws = [] → s.upkeep.repairing = [] →
      match s.firmwareSet (s.service.loadFrom[d.val]).toNat with
      | none => goes (.firmwareLoadDone d) 4
      | some is => goes (.firmwareLoadDone d) 5 ∧ ∃ u, exec (.firmwareLoadDone d) s = .next u ∧ u.service.unbooted[d.val] = false ∧
          ∀ k : Fin 3, (u.secure.fwDigest[d.val])[k.val] = sm3 (is.getD k.val [])) ∧
    (s.service.unbooted[d.val] = true → exec (.dieReturn d) s = .next s)

/-- Accesses from outside (R464, R465, R473, R476, R480, R490, R498; the model's choices are log entry 48): a peer's request
within its window, and a host's access to BAR2 within its GiB, that one unit covers reads or writes HBM at the window's base
at once; a longer one is under way, its units in rising order after every earlier access of the same party that shares a
byte with it, and its last unit gives the answer; an atomic of 4 or 8 aligned bytes is one unit, answered with the old
value. A read or an atomic of a poisoned granule is answered with an error. An access outside the peer's window or in the
protected extent touches nothing, is answered with an error, a read of BAR2 with all ones, and is logged; one beyond the
GiB and a host atomic other than add, swap and compare-and-swap are answered with an error. A trained link says what its
peer can do, and a reset of the host port sets the MSI-X state alone as at reset. -/
def Claims.OutsideAccesses : Prop :=
  let one (s : State) (a k : Nat) : Prop := 0 < k ∧ a + k ≤ hbmSize ∧ s.meetsExtent a k = false ∧ s.rowsBusy a k = false ∧
    s.upkeep.flaws = [] ∧ a / 32 = (a + k - 1) / 32
  let first (s : State) (party : Option (Fin 12)) (o : OutAcc) : Prop := ∀ x ∈ s.outside, x.party = party → x.meets o = false
  let served (s : State) (party : Option (Fin 12)) (i : OutsideOp → Instr) (base lim : Nat) : Prop :=
    (∀ a k, a + k ≤ lim → one s (base + a) k → first s party ⟨party, base, .read a k, [], [], false⟩ →
      ∃ u, exec (i (.read a k)) s = .next u ∧ u.hbm = s.hbm ∧ u.outside = s.outside ∧
      u.links.reply = (if isPoisoned 32 s.hbmPoison (base + a) k then none else some (readBytes s.hbm (base + a) k))) ∧
    (∀ a bs, a + bs.length ≤ lim → one s (base + a) bs.length → first s party ⟨party, base, .write a bs, [], [], false⟩ →
      ∃ u, exec (i (.write a bs)) s = .next u ∧
      u.hbm = writeBytes s.hbm (base + a) bs ∧ u.ctxs = s.ctxs ∧ u.outside = s.outside ∧ u.links.reply = some []) ∧
    (∀ o, let r := outsideRange o
      r.1 + r.2 ≤ lim → s.meetsExtent (base + r.1) r.2 = false → (∀ op n a v w, o = .atomic op n a v w → op = 0 ∨ op = 8 ∨ op = 9) →
      ∃ todo, todo = (match o with | .atomic _ n a _ _ => [(base + a, n)] | _ => hbmUnits (base + r.1) r.2) ∧
      exec (i o) s = .next ({ s with outside := s.outside ++ [(⟨party, base, o, todo, [], false⟩ : OutAcc)] }.outsideStep s.outside.length))
  (∀ (s : State) (n : Fin 12), let base := (s.links.pwbase[n.val]).toNat
    let lim := (s.links.pwsize[n.val]).toNat
    (s.links.pwsize[n.val] ≠ 0 → served s (some n) (.peerInboundRequest n) base lim) ∧
    ∀ o, let r := outsideRange o
      s.links.pwsize[n.val] = 0 ∨ lim < r.1 + r.2 ∨ s.meetsExtent (base + r.1) r.2 = true →
      ∃ u, exec (.peerInboundRequest n o) s = .next u ∧ u.links.reply = none ∧ u.hbm = s.hbm ∧ u.outside = s.outside ∧
        Claims.Logged s u (logBytes s.cyc 0x0b 255 255 n.val 255 (base + r.1) 0 n.val)) ∧
  (∀ s : State, let base := s.links.hwbase.toNat
    served s none .hostBar2Access base (2 ^ 30) ∧
    ∀ o, let r := outsideRange o
      (r.1 + r.2 ≤ 2 ^ 30 → s.meetsExtent (base + r.1) r.2 = true → ∃ u, exec (.hostBar2Access o) s = .next u ∧
        u.links.reply = (match o with | .read _ k => some (List.replicate k 0xff) | _ => none) ∧ u.hbm = s.hbm ∧ u.outside = s.outside ∧
        Claims.Logged s u (logBytes s.cyc 0x0b 255 255 255 255 (base + r.1) 0 255)) ∧
      (2 ^ 30 < r.1 + r.2 ∨ (s.meetsExtent (base + r.1) r.2 = false ∧ ∃ op n a v w, o = .atomic op n a v w ∧ op ≠ 0 ∧ op ≠ 8 ∧ op ≠ 9) →
        ∃ u, exec (.hostBar2Access o) s = .next u ∧ u.links.reply = none ∧ u.hbm = s.hbm ∧ u.outside = s.outside)) ∧
  (∀ (s : State) (n : Nat) (o : OutAcc) (a k : Nat) (rest : List (Nat × Nat)), s.outside[n]? = some o → o.todo = (a, k) :: rest →
    (∀ x ∈ s.outside.take n, x.party = o.party → x.meets o = false) →
    s.rowsBusy a k = false → s.upkeep.flaws = [] → a + k ≤ hbmSize →
    let u := s.outsideStep n
    let old := readBytes s.hbm a k
    let bad := isPoisoned 32 s.hbmPoison a k
    (∀ b m, o.op = .read b m →
      u.hbm = s.hbm ∧
      (rest = [] → u.outside = s.outside.eraseIdx n ∧ u.links.reply = if (o.bad || bad) = true then none else some (o.got ++ old)) ∧
      (rest ≠ [] → u.outside = s.outside.set n { o with todo := rest, got := o.got ++ old, bad := o.bad || bad })) ∧
    (∀ b bs, o.op = .write b bs → u.hbm = writeBytes s.hbm a ((bs.drop (a - (o.base + b))).take k)) ∧
    (∀ op size b v w, o.op = .atomic op size b v w → rest = [] → u.outside = s.outside.eraseIdx n ∧
      (bad = true ∨ size ≠ 4 ∧ size ≠ 8 ∨ b % size ≠ 0 ∨ 9 < op.toNat → u.hbm = s.hbm ∧ u.links.reply = none) ∧
      (bad = false → size = 4 ∨ size = 8 → b % size = 0 → op.toNat ≤ 9 → u.links.reply = some old ∧
        ∀ bs, rmw (if op = 9 then .cas else .atomI op size) old (bytesOfNat size v.toNat) (bytesOfNat size w.toNat) = some bs →
          u.hbm = writeBytes s.hbm a bs))) ∧
  (∀ (s : State) (n : Fin 12) (ops : Byte) (unit : BitVec 4), ∃ u, exec (.peerLinkTrained n ops unit) s = .next u ∧
    u.links.trained[n.val] = true ∧ u.links.peerOps[n.val] = ops ∧ u.links.peerUnit[n.val] = unit ∧ { u with links := s.links } = s) ∧
  (∀ s : State, exec .hostPortReset s =
    .next { s with links := { s.links with msixTable := State.reset.links.msixTable, msixPending := 0 } })

/-- Repair, service of a die and accesses from outside. -/
def Obligations.ServiceFromOutside : Prop :=
  Claims.RepairEvents ∧ Claims.DieService ∧ Claims.OutsideAccesses

/-- Attestation and the mark kernel (R495 to R500; the model's choices are log entries 6 and 48): a request with an aligned
buffer is under way until its signed report, 1024 bytes, has been written there unit by unit; MARKLOAD names an image, which
comes into force where it verifies as the fourth kind and is refused otherwise; a protected context's host write is marked
whole before it goes out, and without a kernel is not sent, is logged and counts as performed; keys and the extent are
written only while no protected context exists, and BRINGUP only while every context is free. -/
def Claims.SecurityEvents : Prop :=
  (∀ (s : State) (v : Byte), v.toNat < 64 → s.secure.attstat ≠ 1 →
    (s.secure.attaddr.toNat % 1024 = 0 → ∃ u, exec (.attreq v) s = .next u ∧ u.secure.attstat = 1 ∧ u.secure.attctx.val = v.toNat ∧
      u.secure.attbuf = s.secure.attaddr) ∧
    (s.secure.attaddr.toNat % 1024 ≠ 0 → ∃ u, exec (.attreq v) s = .next u ∧ u.secure.attstat = 3)) ∧
  (∀ s : State, s.secure.attstat = 1 → s.upkeep.repairing = [] → s.upkeep.flaws = [] →
    let ev : Instr := .attestationDone
    let a := s.secure.attbuf.toNat
    let ends (u : State) : Prop := u.secure.attstat = 2
    let n := s.takeNonces
    let us := jobUnits [(a, 1024)] (n.2.report s.secure.attctx (readBytes s.hbm (a + 32) 32) n.1)
    (∀ todo, s.job? ev 0 = some ⟨ev, 0, todo⟩ → (∀ w ∈ todo, w.1 + w.2.1.length ≤ hbmSize) →
      Claims.DeviceWrites s (exec ev s) ev 0 todo ends) ∧
    (s.job? ev 0 = none → a + 1024 ≤ hbmSize → (us.flatMap fun w => w.2.1).length = 1024 ∧
      Claims.DeviceWrites n.2 (exec ev s) ev 0 us ends)) ∧
  (∀ (s : State) (v : DWord), s.secure.markst ≠ 1 → ∃ u, exec (.markload v) s = .next u ∧ u.secure.markst = 1 ∧ u.secure.markAddr = v ∧
    u.secure.kernel = s.secure.kernel) ∧
  (∀ s : State, s.secure.markst = 1 → s.upkeep.repairing = [] → s.upkeep.flaws = [] → ∃ u, exec .markKernelVerified s = .next u ∧
    match s.firmwareAt s.secure.markAddr.toNat with
    | some bs => if imageVerifies 3 bs then u.secure.markst = 2 ∧ u.secure.kernel = some bs
        else u.secure.markst = 3 ∧ u.secure.kernel = s.secure.kernel
    | none => u.secure.markst = 3 ∧ u.secure.kernel = s.secure.kernel) ∧
  (∀ (s : State) (r : Nat) (q : Req) (v : MUnit) (us : List MUnit), s.req? r = some q → q.units = v :: us → q.atPortal = true →
    (s.ctx q.place.ctx).prot = true → v.node = .host → q.op = .wr → q.marked = false → (∀ a ∈ q.after, s.performed a = true) →
    (∀ k, s.secure.kernel = some k →
      let mark := markedBytes k (s.ctx q.place.ctx).kp
      ∃ u, exec (.markStageWrite r) s = .next u ∧ u.hostMem = s.hostMem ∧
        u.req? r = some { q with units := markUnits mark q.units.length q.units, marked := true } ∧
        (us = [] → v.dat.length = v.len → 
          let sent : MUnit := { v with dat := padBytes v.len (Config.markFn k (s.ctx q.place.ctx).kp (sext57 v.va) v.dat) }
          u.req? r = some { q with marked := true, units := [sent] })) ∧
    (s.secure.kernel = none → ∃ u, exec (.markStageWrite r) s = .next u ∧ u.hostMem = s.hostMem ∧
      (∀ y, u.req? r = some y → ∀ w ∈ y.units, w.node ≠ .host) ∧
      Claims.Logged s u (logBytes s.cyc 0x10 255 255 255 q.place.ctx.val (sext57 v.va).toNat 0 q.place.ctx.val))) ∧
  (∀ (s : State) (k : Fin 4) (part : Fin 8) (v : DWord),
    ((∀ c, (s.ctx c).prot = false ∨ (s.ctx c).st = .free) → ∃ u, exec (.protectedKeyWrite (.layKey k part) v) s = .next u ∧
      (u.secure.layKey[k.val])[part.val] = v ∧ ∀ e : Fin 4, e ≠ k → u.secure.layKey[e.val] = s.secure.layKey[e.val]) ∧
    (∀ c, (s.ctx c).prot = true → (s.ctx c).st ≠ .free → ∀ reg, exec (.protectedKeyWrite reg v) s = .next s)) ∧
  (∀ (s : State) (v : Byte), v.toNat < 8 → ((∀ c, (s.ctx c).st = .free) → ∃ u, exec (.bringupWrite v) s = .next u ∧ u.secure.bringup = v) ∧
    (∀ c, (s.ctx c).st ≠ .free → exec (.bringupWrite v) s = .next s))

/-- Reset and bring-up (R494, R501, R505; what a reset keeps and how an image is checked are log entries 6, 7 and 9): a module
reset leaves every register as at reset and keeps what lies outside the module, the messages that have left it, HBM and the
spare rows in use; after a trip it does nothing while a die is at TLIMIT. A phase that ends moves BSTAT on: phase 2 puts the
images read from a die's flash in force where all of them verify and leaves the die out otherwise, phase 3 zeroes HBM, and phase 4
fails the channels whose training failed. -/
def Claims.ResetAndBringup : Prop :=
  (∀ s : State, s.mayReset = true → ∃ u, exec .moduleReset s = .next u ∧ u.ctxs = State.reset.ctxs ∧ u.reqs = [] ∧ u.tlb = [] ∧ u.dir = [] ∧
    u.jobs = [] ∧ u.cyc = 0 ∧ u.log = State.reset.log ∧ u.service = State.reset.service ∧
    u.links = { State.reset.links with msgs := s.links.msgs } ∧ u.outside = [] ∧
    u.upkeep = { State.reset.upkeep with spareUsed := s.upkeep.spareUsed, hopeless := s.upkeep.hopeless } ∧
    u.secure = { State.reset.secure with temp := s.secure.temp } ∧
    u.hbm = s.hbm ∧ u.hbmPoison = s.hbmPoison ∧ u.hostMem = s.hostMem ∧ u.peerMem = s.peerMem) ∧
  (∀ s : State, s.mayReset = false → exec .moduleReset s = .next s) ∧
  (∀ (s : State) (flash : List (List Byte)) (bad : List Chan), s.secure.bstat.toNat < 6 → 1 ≤ s.secure.bstat.toNat →
    ∃ u, exec (.bringupPhaseEnd flash bad) s = .next u ∧ u.secure.bstat = s.secure.bstat + 1 ∧
      (s.secure.bstat = 3 → u.hbm = [] ∧ u.hbmPoison = []) ∧ (s.secure.bstat ≠ 3 → u.hbm = s.hbm) ∧
      (s.secure.bstat = 2 → ∀ d : Die, let image (k : Nat) : List Byte := flash.getD (3 * d.val + k) []
        let ok := (List.range 3).all fun k => imageVerifies k (image k)
        u.service.dstat[d.val] = (if ok then s.service.dstat[d.val] else 4) ∧
        u.service.unbooted[d.val] = (if ok then s.service.unbooted[d.val] else true) ∧
        ∀ k : Fin 3, (u.secure.fwDigest[d.val])[k.val] = if ok then sm3 (image k.val) else (s.secure.fwDigest[d.val])[k.val]) ∧
      (s.secure.bstat = 4 → ∀ ch ∈ bad, u.chanUp ch = false))

/-- Power and temperature (R503 to R505): a sample sets TEMP; one that crosses TLIMIT upward is logged; at 105 degrees an
untripped module trips, which is logged, and every context is lost; a die over its power or temperature is held in P1 with a duty of 4 to
15, and returns to P0 below; an idle die sleeps, and an idle module. -/
def Claims.PowerEvents : Prop :=
  (∀ (s : State) (d : Die) (v : Byte),
    (105 ≤ v.toNat → s.secure.tripped = false → ∃ u, exec (.tempSample d v) s = .next u ∧ u.secure.tripped = true ∧ u.secure.temp[d.val] = v ∧
      (∀ c, (u.ctx c).st = .free ∧ (u.ctx c).port = (s.ctx c).port) ∧ u.reqs = [] ∧ u.jobs = [] ∧ u.hbm = s.hbm ∧
      (s.secure.tlimit.toNat ≤ (s.secure.temp[d.val]).toNat → Claims.Logged s u (logBytes s.cyc 0x12 d.val 255 255 255 0 0 d.val))) ∧
    (v.toNat < 105 → ∃ u, exec (.tempSample d v) s = .next u ∧ u.secure.temp[d.val] = v ∧ u.ctxs = s.ctxs ∧ u.hbm = s.hbm ∧
      ((s.secure.temp[d.val]).toNat < s.secure.tlimit.toNat → s.secure.tlimit.toNat ≤ v.toNat →
        Claims.Logged s u (logBytes s.cyc 0x11 d.val 255 255 255 0 0 d.val)) ∧
      (s.secure.tlimit.toNat ≤ v.toNat → (s.secure.pstate[d.val]).toNat < 2 →
        u.secure.pstate[d.val] = 1 ∧ 4 ≤ (u.secure.duty[d.val]).toNat) ∧
      (v.toNat < s.secure.tlimit.toNat → s.secure.watts ≤ s.secure.pwrcap.toNat → (s.secure.pstate[d.val]).toNat < 2 →
        u.secure.pstate[d.val] = 0))) ∧
  (∀ (s : State) (w : Nat), ∃ u, exec (.powerAverageSample w) s = .next u ∧ u.secure.watts = w ∧ u.ctxs = s.ctxs ∧
    (s.secure.pwrcap.toNat < w → ∀ d : Die, (s.secure.pstate[d.val]).toNat < 2 → u.secure.pstate[d.val] = 1 ∧ 4 ≤ (u.secure.duty[d.val]).toNat)) ∧
  (∀ (s : State) (d : Die),
    (200000000 ≤ s.secure.moduleIdle → ∃ u, exec (.powerIdleTimer d) s = .next u ∧ ∀ e : Die, u.secure.pstate[e.val] = 3) ∧
    (s.secure.moduleIdle < 200000000 → 2000000 ≤ s.secure.idle[d.val] → (s.secure.pstate[d.val]).toNat < 2 →
      ∃ u, exec (.powerIdleTimer d) s = .next u ∧ u.secure.pstate[d.val] = 2 ∧ u.ctxs = s.ctxs))

/-- Attestation, the mark kernel, bring-up, power and temperature. -/
def Obligations.SecurityAndPlatform : Prop :=
  Claims.SecurityEvents ∧ Claims.ResetAndBringup ∧ Claims.PowerEvents

/-! ### Frames -/

/-- What an integer, field or immediate instruction of a thread may change (R59, R65, R68, R309): its destination, the
predicate of cmp, and its pc, counters and loops as its completion gives them; no other register, no other thread, no
memory, nothing else. -/
def Claims.ThreadFrame : Prop :=
  (∀ (s t : State) (c : CtxId) (x : Tid) (o : LForm), s.cur = .thread c x →
    ∀ k ∈ [Instr.add, .sub, .mul, .mulh, .mad, .div, .rem, .addc, .and, .or, .xor, .andn, .not, .shl, .shr, .sar, .rol, .ror,
      .clz, .ctz, .popc, .brev, .min, .max, .abs, .neg, .sel, .lea, .mov, .bfx, .bfi, .byteperm, .hash, .cvti],
      exec (k o) s = .next t → SameButThread s t c x ∧ WroteAndWentOn (s.thread c x) (t.thread c x) o.d false) ∧
  (∀ (s t : State) (c : CtxId) (x : Tid) (o : LForm), s.cur = .thread c x → exec (.cmp o) s = .next t →
    SameButThread s t c x ∧ WroteAndWentOn (s.thread c x) (t.thread c x) o.d true ∧
      (o.qw = false → o.d ≠ 0x28 → (t.thread c x).p = (s.thread c x).p)) ∧
  (∀ (s t : State) (c : CtxId) (x : Tid) (o : IForm), s.cur = .thread c x →
    ∀ k ∈ [Instr.addImm, .andImm, .orImm, .xorImm, .shlImm, .shrImm, .sarImm, .cmpImm, .movi],
      exec (k o) s = .next t → SameButThread s t c x ∧ WroteAndWentOn (s.thread c x) (t.thread c x) o.d false)

/-- What a lane instruction of a station may change (R28, R54, R65, R68): its destination group, the predicate of a
compare, the poison tag, the draws and its place in the segment; no other word of the record, no other k or kv register,
no memory, nothing outside the execution. -/
def Claims.StationFrame : Prop :=
  ∀ (s t : State) (p : Place) (f : Frame) (o : LForm) (i : IForm), s.cur = .station p f →
    let frame (k : Instr) (g : Nat) (ds : List Spec) (preds : Bool) : Prop := exec k s = .next t →
      ∃ h, t.cur = .station p h ∧ SameButExec s t ∧ ExecWroteAndWentOn f h g ds preds
    let g := gWords o.g
    (∀ k ∈ [Instr.add, .sub, .mul, .mulh, .mad, .div, .rem, .addc, .and, .or, .xor, .andn, .not, .shl, .shr, .sar, .rol, .ror,
      .clz, .ctz, .popc, .brev, .min, .max, .abs, .neg, .sel, .lea, .mov, .bfx, .bfi, .byteperm, .hash, .cvti,
      .fadd, .fsub, .fmul, .fma, .fnma, .fmin, .fmax, .fabs, .fneg, .fcvt, .frnd, .fscale, .frcp, .frsq, .fsqrt, .fexp2, .flog2,
      .ftanh, .i2f, .f2i, .fqnt, .fdq, .fred, .fdot, .perm, .shuf, .bcast, .rot, .zip, .unzip, .pack, .unpack, .cmpr, .expd,
      .lsel, .movw], frame (k o) g [o.d] false) ∧
    (∀ k ∈ [Instr.cmp, .fcmp], frame (k o) g [o.d] true) ∧ frame (.swap o) g [o.d, o.a] false ∧ frame (.lmask o) 2 [o.d] false ∧
    (∀ k ∈ [Instr.smxUpd, .smxMerge], frame (k o) (max 2 g) [o.d, o.a] false) ∧
    (∀ k ∈ [Instr.addImm, .andImm, .orImm, .xorImm, .shlImm, .shrImm, .sarImm, .cmpImm, .movi], frame (k i) (gWords i.g) [i.d] false)

/-- The integer and immediate instructions of a thread and the lane instructions of a station change nothing but what
the rules name. -/
def Obligations.Frames : Prop :=
  Claims.ThreadFrame ∧ Claims.StationFrame

/-! ### Lane moves and numbers, continued -/

/-- frcp, frsq and fsqrt of a number other than 0 (R129): the value that is rounded is correctly rounded 1/a, 1/√a and √a,
in every mode and every type that they accept. -/
def Claims.AlgebraicFunctions : Prop :=
  ∀ (ty : Fmt) (x : Nat) (y : ℝ), ty ∈ [Fmt.fp32, .bf16, .fp16] → x < 2 ^ fmtBits ty → Claims.IsReal (valueOf ty x) y → y ≠ 0 →
    (∃ v, unVal .frcp (valueOf ty x) = some v ∧ Claims.RoundsAs v (1 / y) ty) ∧
    (0 < y → (∃ v, unVal .frsq (valueOf ty x) = some v ∧ Claims.RoundsAs v (1 / Real.sqrt y) ty) ∧
      ∃ v, unVal .fsqrt (valueOf ty x) = some v ∧ Claims.RoundsAs v (Real.sqrt y) ty)

/-- fexp2, flog2 and ftanh of a number other than 0 (R129): where the enclosure decides, the value that is rounded is
correctly rounded 2^a, log2 a of a positive a, and tanh a, in every mode and every type that they accept. Where it does not,
the result is a free value (the model's choice, log entry 51). -/
def Claims.TranscendentalFunctions : Prop :=
  ∀ (ty : Fmt) (x : Nat) (y : ℝ) (v : Val), ty ∈ [Fmt.fp32, .bf16, .fp16] → x < 2 ^ fmtBits ty →
    Claims.IsReal (valueOf ty x) y → y ≠ 0 →
    (unVal .fexp2 (valueOf ty x) = some v → Claims.RoundsAs v ((2 : ℝ) ^ y) ty) ∧
    (0 < y → unVal .flog2 (valueOf ty x) = some v → Claims.RoundsAs v (Real.logb 2 y) ty) ∧
    (unVal .ftanh (valueOf ty x) = some v → Claims.RoundsAs v (Real.tanh y) ty)

/-- What the algebraic and the transcendental functions of a lane compute. -/
def Obligations.SpecialFunctions : Prop :=
  Claims.AlgebraicFunctions ∧ Claims.TranscendentalFunctions

/-! ### Contexts, service, security and power, continued -/

/-- A stopped context resumes (R378, R418, R428; the model's choices are log entries 38 and 39): where the first entry of the
queue was stopped, its home die has room and its lays stand or are loaded again, CONTEXT_START runs it there, and each
thread's registers, predicates, counters, loops, trap registers and pc are those that its block of the save area holds; so
a thread that was saved goes on as it was. Where a load fails the context ends as a kill. -/
def Claims.ContextsResume : Prop :=
  ∀ (s : State) (c : CtxId) (cs : List CtxId), s.queue = c :: cs → (s.ctx c).resumes = true →
    s.triggerBelow 64 = false → s.spawnBelow 641 = false → s.stepDue 641 = true → s.upkeep.repairing = [] → s.upkeep.flaws = [] →
    (s.ctx c).nthr ≤ (s.freePositions (s.ctx c).home).length →
    let x := s.ctx c
    let z := s.modCtx c fun y => { y with home := x.home }
    let starts (k : State) : Prop := ∃ u, exec .contextStart s = .next u ∧ (u.ctx c).st = .running ∧ (u.ctx c).home = (k.ctx c).home ∧
      (u.ctx c).queuedAt = none ∧ (u.ctx c).resumes = false ∧ (u.ctx c).port.pstat = 0 ∧ (u.ctx c).lays = (k.ctx c).lays ∧ u.hbm = k.hbm ∧
      ∀ t : Tid, t.val < x.nthr → t.val < (k.ctx c).nthr → let at_ := (k.ctx c).inForce.savepa.toNat + 512 + 448 * t.val
        let th := u.thread c t
        some th.pos = (s.freePositions x.home)[t.val]? ∧ th.wait = .none ∧ th.halted = false ∧
        ∀ old : Thread, at_ + 448 ≤ hbmSize → readBytes k.hbm at_ 448 = threadBlock old → old.s[0] = 0 → old.p.getLsbD 0 = true →
          th.pc = old.pc ∧ th.s = old.s ∧ th.p = old.p ∧ th.lc = old.lc ∧ th.loops = old.loops ∧ th.epc = old.epc ∧
          th.tcause = old.tcause ∧ th.tval = old.tval ∧ th.inTrap = old.inTrap
    ((∀ l y, s.lay? c l = some y → y.placed = true) → starts s) ∧
    (∀ k, z.resumeLays c (List.finRange 8) = .ok k → starts k) ∧
    (z.resumeLays c (List.finRange 8) = .dead → x.st = .stopped → ∃ u, exec .contextStart s = .next u ∧ (u.ctx c).st = .ending ∧
      (u.ctx c).endInfo = some ⟨true, 0xff, 0, s.cyc⟩)

/-- The block of a thread (R423) is 448 bytes, and a thread that takes it up again (R428) has the registers, predicates,
counters, loops, trap registers and pc that were saved. -/
def Claims.ThreadBlockReadsBack : Prop :=
  ∀ th : Thread, th.s[0] = 0 → th.p.getLsbD 0 = true →
    let u := threadBack Thread.reset (threadBlock th)
    (threadBlock th).length = 448 ∧ u.pc = th.pc ∧ u.s = th.s ∧ u.p = th.p ∧ u.lc = th.lc ∧ u.loops = th.loops ∧ u.epc = th.epc ∧
    u.tcause = th.tcause ∧ u.tval = th.tval ∧ u.inTrap = th.inTrap

/-- A stopped context resumes with every thread as its block of the save area holds it. -/
def Obligations.Resumption : Prop :=
  Claims.ContextsResume ∧ Claims.ThreadBlockReadsBack
end

