-- ==== Sys2Proof/Laws/Memory.lean ====
section
/-!
SUPPORT. Memory: what a write leaves, and that every operation keeps the canonical form.
-/
namespace Sys2Proof.Machine

/-! ### The canonical form -/

theorem memWfFrom_mono {lo lo' : Nat} {m : Mem} (h : memWfFrom lo m = true) (le : lo' ≤ lo) : memWfFrom lo' m = true := by
  cases m with
  | nil => rfl
  | cons c m =>
    simp only [memWfFrom, Bool.and_eq_true, decide_eq_true_eq] at h ⊢
    exact ⟨⟨by omega, h.1.2⟩, h.2⟩

theorem memWfFrom_putCell {lo a : Nat} {b : Byte} {m : Mem} (h : memWfFrom (a + 1) m = true) (le : lo ≤ a) :
    memWfFrom lo (putCell a b m) = true := by
  unfold putCell
  split
  · exact memWfFrom_mono h (by omega)
  · next hb => simp only [memWfFrom, Bool.and_eq_true, decide_eq_true_eq, bne_iff_ne]; exact ⟨⟨le, hb⟩, h⟩

/-- A byte written keeps the canonical form. -/
theorem memWfFrom_writeByte {lo a : Nat} (b : Byte) : {m : Mem} → memWfFrom lo m = true → lo ≤ a →
    memWfFrom lo (writeByte m a b) = true := by
  intro m
  induction m generalizing lo with
  | nil => intro _ le; exact memWfFrom_putCell rfl le
  | cons c m ih =>
    intro h le
    simp only [memWfFrom, Bool.and_eq_true, decide_eq_true_eq] at h
    unfold writeByte
    split
    · next e => subst e; exact memWfFrom_putCell h.2 le
    · split
      · next lt =>
        refine memWfFrom_putCell ?_ le
        simp only [memWfFrom, Bool.and_eq_true, decide_eq_true_eq]
        exact ⟨⟨by omega, h.1.2⟩, h.2⟩
      · next ne lt =>
        simp only [memWfFrom, Bool.and_eq_true, decide_eq_true_eq]
        exact ⟨⟨h.1.1, h.1.2⟩, ih h.2 (by omega)⟩

/-- A byte written keeps a memory canonical. -/
theorem memWf_writeByte {m : Mem} (h : memWf m = true) (a : Nat) (b : Byte) : memWf (writeByte m a b) = true :=
  memWfFrom_writeByte b h (Nat.zero_le a)

/-- Bytes written keep a memory canonical. -/
theorem memWf_writeBytes {m : Mem} (h : memWf m = true) (a : Nat) (bs : List Byte) : memWf (writeBytes m a bs) = true := by
  induction bs generalizing m a with
  | nil => exact h
  | cons b bs ih => exact ih (memWf_writeByte h a b) (a + 1)

/-! ### Read after write -/

theorem readByte_of_lt {lo a : Nat} {m : Mem} (h : memWfFrom lo m = true) (lt : a < lo) : readByte m a = 0 := by
  cases m with
  | nil => rfl
  | cons c m =>
    simp only [memWfFrom, Bool.and_eq_true, decide_eq_true_eq] at h
    simp [readByte, show ¬ c.1 = a by omega, show a < c.1 by omega]

theorem readByte_putCell_same {a : Nat} {b : Byte} {m : Mem} (h : memWfFrom (a + 1) m = true) :
    readByte (putCell a b m) a = b := by
  unfold putCell
  split
  · next hb => rw [readByte_of_lt h (by omega), hb]
  · simp [readByte]

/-- A byte written is read back. -/
theorem readByte_writeByte_same {lo : Nat} (a : Nat) (b : Byte) : {m : Mem} → memWfFrom lo m = true →
    readByte (writeByte m a b) a = b := by
  intro m
  induction m generalizing lo with
  | nil => intro _; exact readByte_putCell_same rfl
  | cons c m ih =>
    intro h
    simp only [memWfFrom, Bool.and_eq_true, decide_eq_true_eq] at h
    unfold writeByte
    split
    · next e => subst e; exact readByte_putCell_same h.2
    · split
      · next lt =>
        refine readByte_putCell_same ?_
        simp only [memWfFrom, Bool.and_eq_true, decide_eq_true_eq]
        exact ⟨⟨by omega, h.1.2⟩, h.2⟩
      · next ne lt => simp only [readByte, ne, lt, ite_false]; exact ih h.2

theorem readByte_putCell_other {a x : Nat} {b : Byte} {m : Mem} (ne : x ≠ a) (h : memWfFrom (a + 1) m = true) :
    readByte (putCell a b m) x = readByte m x := by
  unfold putCell
  split
  · rfl
  · by_cases lt : x < a
    · simp [readByte, show ¬ a = x by omega, lt, readByte_of_lt h (show x < a + 1 by omega)]
    · simp [readByte, show ¬ a = x by omega, lt]

/-- A byte written leaves every other byte. -/
theorem readByte_writeByte_other {lo a x : Nat} (b : Byte) (ne : x ≠ a) : {m : Mem} → memWfFrom lo m = true →
    readByte (writeByte m a b) x = readByte m x := by
  intro m
  induction m generalizing lo with
  | nil => intro _; exact readByte_putCell_other ne rfl
  | cons c m ih =>
    intro h
    simp only [memWfFrom, Bool.and_eq_true, decide_eq_true_eq] at h
    unfold writeByte
    split
    · next e =>
      subst e
      rw [readByte_putCell_other ne h.2]
      simp only [readByte]
      rw [if_neg (fun e => ne e.symm)]
      split
      · next lt => exact readByte_of_lt h.2 (by omega)
      · rfl
    · split
      · next lt =>
        refine readByte_putCell_other ne ?_
        simp only [memWfFrom, Bool.and_eq_true, decide_eq_true_eq]
        exact ⟨⟨by omega, h.1.2⟩, h.2⟩
      · simp only [readByte, ih h.2]

/-- Bytes written leave every byte outside them. -/
theorem readByte_writeBytes_other {m : Mem} (h : memWf m = true) (a x : Nat) (bs : List Byte)
    (out : x < a ∨ a + bs.length ≤ x) : readByte (writeBytes m a bs) x = readByte m x := by
  induction bs generalizing m a with
  | nil => rfl
  | cons b bs ih =>
    simp only [List.length_cons] at out
    rw [writeBytes, ih (memWf_writeByte h a b) (a + 1) (by omega)]
    exact readByte_writeByte_other b (by omega) h

/-! ### Sets -/

theorem risingFrom_mono {lo lo' : Nat} {l : List Nat} (h : risingFrom lo l = true) (le : lo' ≤ lo) : risingFrom lo' l = true := by
  cases l with
  | nil => rfl
  | cons x l => simp only [risingFrom, Bool.and_eq_true, decide_eq_true_eq] at h ⊢; exact ⟨by omega, h.2⟩

/-- A number put into a rising list keeps it rising. -/
theorem risingFrom_insertN {lo x : Nat} : {l : List Nat} → risingFrom lo l = true → lo ≤ x →
    risingFrom lo (insertN x l) = true := by
  intro l
  induction l generalizing lo with
  | nil => intro _ le; simp [insertN, risingFrom, le]
  | cons y l ih =>
    intro h le
    simp only [risingFrom, Bool.and_eq_true, decide_eq_true_eq] at h
    unfold insertN
    split
    · next lt =>
      simp only [risingFrom, Bool.and_eq_true, decide_eq_true_eq]
      exact ⟨le, by omega, h.2⟩
    · split
      · simp only [risingFrom, Bool.and_eq_true, decide_eq_true_eq]; exact h
      · simp only [risingFrom, Bool.and_eq_true, decide_eq_true_eq]
        exact ⟨h.1, ih h.2 (by omega)⟩

/-- Numbers taken out of a rising list leave it rising. -/
theorem risingFrom_filter {lo : Nat} (p : Nat → Bool) : {l : List Nat} → risingFrom lo l = true →
    risingFrom lo (l.filter p) = true := by
  intro l
  induction l generalizing lo with
  | nil => intro _; rfl
  | cons x l ih =>
    intro h
    simp only [risingFrom, Bool.and_eq_true, decide_eq_true_eq] at h
    rw [List.filter_cons]
    split
    · simp only [risingFrom, Bool.and_eq_true, decide_eq_true_eq]; exact ⟨h.1, ih h.2⟩
    · exact risingFrom_mono (ih h.2) (by omega)

/-- Marks set keep the marks rising. -/
theorem risingFrom_setMarks {l : List Nat} (h : risingFrom 0 l = true) (g a n : Nat) : risingFrom 0 (setMarks g l a n) = true := by
  unfold setMarks
  induction granules g a n generalizing l with
  | nil => exact h
  | cons x xs ih => exact ih (risingFrom_insertN h (Nat.zero_le x))

/-- Marks cleared keep the marks rising. -/
theorem risingFrom_clearMarks {l : List Nat} (h : risingFrom 0 l = true) (g a n : Nat) : risingFrom 0 (clearMarks g l a n) = true :=
  risingFrom_filter _ h

/-! ### HBM -/

/-- Bytes written to HBM keep it canonical. -/
theorem memWf_hbmWrite (s : State) (a : Nat) (bs : List Byte) (h : memWf s.hbm = true) : memWf (s.hbmWrite a bs).hbm = true := by
  unfold State.hbmWrite
  split
  · exact memWf_writeBytes h a bs
  · exact h

/-- Bytes written to HBM leave every byte outside them. -/
theorem readByte_hbmWrite_other (s : State) (a x : Nat) (bs : List Byte) (h : memWf s.hbm = true)
    (out : x < a ∨ a + bs.length ≤ x) : readByte (s.hbmWrite a bs).hbm x = readByte s.hbm x := by
  unfold State.hbmWrite
  split
  · exact readByte_writeBytes_other h a x bs out
  · rfl

end Sys2Proof.Machine
end

