-- ==== Sys2Proof/Laws/State.lean ====
section
/-!
SUPPORT. What each update of State leaves of each field, and what reading back gives.
-/
namespace Sys2Proof.Machine

/-! ### setCtx -/

@[simp] theorem State.setCtx_cyc (s : State) (c : CtxId) (x : Ctx) : (s.setCtx c x).cyc = s.cyc := rfl
@[simp] theorem State.setCtx_half (s : State) (c : CtxId) (x : Ctx) : (s.setCtx c x).half = s.half := rfl
@[simp] theorem State.setCtx_qage (s : State) (c : CtxId) (x : Ctx) : (s.setCtx c x).qage = s.qage := rfl
@[simp] theorem State.setCtx_issage (s : State) (c : CtxId) (x : Ctx) : (s.setCtx c x).issage = s.issage := rfl
@[simp] theorem State.setCtx_qageNow (s : State) (c : CtxId) (x : Ctx) : (s.setCtx c x).qageNow = s.qageNow := rfl
@[simp] theorem State.setCtx_issageNow (s : State) (c : CtxId) (x : Ctx) : (s.setCtx c x).issageNow = s.issageNow := rfl
@[simp] theorem State.setCtx_dispatched (s : State) (c : CtxId) (x : Ctx) : (s.setCtx c x).dispatched = s.dispatched := rfl
@[simp] theorem State.setCtx_hbm (s : State) (c : CtxId) (x : Ctx) : (s.setCtx c x).hbm = s.hbm := rfl
@[simp] theorem State.setCtx_hbmPoison (s : State) (c : CtxId) (x : Ctx) : (s.setCtx c x).hbmPoison = s.hbmPoison := rfl
@[simp] theorem State.setCtx_hostMem (s : State) (c : CtxId) (x : Ctx) : (s.setCtx c x).hostMem = s.hostMem := rfl
@[simp] theorem State.setCtx_peerMem (s : State) (c : CtxId) (x : Ctx) : (s.setCtx c x).peerMem = s.peerMem := rfl
@[simp] theorem State.setCtx_dir (s : State) (c : CtxId) (x : Ctx) : (s.setCtx c x).dir = s.dir := rfl
@[simp] theorem State.setCtx_reqs (s : State) (c : CtxId) (x : Ctx) : (s.setCtx c x).reqs = s.reqs := rfl
@[simp] theorem State.setCtx_nextId (s : State) (c : CtxId) (x : Ctx) : (s.setCtx c x).nextId = s.nextId := rfl
@[simp] theorem State.setCtx_tlb (s : State) (c : CtxId) (x : Ctx) : (s.setCtx c x).tlb = s.tlb := rfl
@[simp] theorem State.setCtx_chans (s : State) (c : CtxId) (x : Ctx) : (s.setCtx c x).chans = s.chans := rfl
@[simp] theorem State.setCtx_chanAsks (s : State) (c : CtxId) (x : Ctx) : (s.setCtx c x).chanAsks = s.chanAsks := rfl
@[simp] theorem State.setCtx_chanTurn (s : State) (c : CtxId) (x : Ctx) : (s.setCtx c x).chanTurn = s.chanTurn := rfl
@[simp] theorem State.setCtx_outside (s : State) (c : CtxId) (x : Ctx) : (s.setCtx c x).outside = s.outside := rfl
@[simp] theorem State.setCtx_jobs (s : State) (c : CtxId) (x : Ctx) : (s.setCtx c x).jobs = s.jobs := rfl
@[simp] theorem State.setCtx_lastPos (s : State) (c : CtxId) (x : Ctx) : (s.setCtx c x).lastPos = s.lastPos := rfl
@[simp] theorem State.setCtx_issued (s : State) (c : CtxId) (x : Ctx) : (s.setCtx c x).issued = s.issued := rfl
@[simp] theorem State.setCtx_log (s : State) (c : CtxId) (x : Ctx) : (s.setCtx c x).log = s.log := rfl
@[simp] theorem State.setCtx_service (s : State) (c : CtxId) (x : Ctx) : (s.setCtx c x).service = s.service := rfl
@[simp] theorem State.setCtx_secure (s : State) (c : CtxId) (x : Ctx) : (s.setCtx c x).secure = s.secure := rfl
@[simp] theorem State.setCtx_links (s : State) (c : CtxId) (x : Ctx) : (s.setCtx c x).links = s.links := rfl
@[simp] theorem State.setCtx_upkeep (s : State) (c : CtxId) (x : Ctx) : (s.setCtx c x).upkeep = s.upkeep := rfl
@[simp] theorem State.setCtx_cur (s : State) (c : CtxId) (x : Ctx) : (s.setCtx c x).cur = s.cur := rfl
@[simp] theorem State.setCtx_sched (s : State) (c : CtxId) (x : Ctx) : (s.setCtx c x).sched = s.sched := rfl
@[simp] theorem State.setCtx_free (s : State) (c : CtxId) (x : Ctx) : (s.setCtx c x).free = s.free := rfl

/-! ### modCtx -/

@[simp] theorem State.modCtx_cyc (s : State) (c : CtxId) (f : Ctx → Ctx) : (s.modCtx c f).cyc = s.cyc := rfl
@[simp] theorem State.modCtx_half (s : State) (c : CtxId) (f : Ctx → Ctx) : (s.modCtx c f).half = s.half := rfl
@[simp] theorem State.modCtx_qage (s : State) (c : CtxId) (f : Ctx → Ctx) : (s.modCtx c f).qage = s.qage := rfl
@[simp] theorem State.modCtx_issage (s : State) (c : CtxId) (f : Ctx → Ctx) : (s.modCtx c f).issage = s.issage := rfl
@[simp] theorem State.modCtx_qageNow (s : State) (c : CtxId) (f : Ctx → Ctx) : (s.modCtx c f).qageNow = s.qageNow := rfl
@[simp] theorem State.modCtx_issageNow (s : State) (c : CtxId) (f : Ctx → Ctx) : (s.modCtx c f).issageNow = s.issageNow := rfl
@[simp] theorem State.modCtx_dispatched (s : State) (c : CtxId) (f : Ctx → Ctx) : (s.modCtx c f).dispatched = s.dispatched := rfl
@[simp] theorem State.modCtx_hbm (s : State) (c : CtxId) (f : Ctx → Ctx) : (s.modCtx c f).hbm = s.hbm := rfl
@[simp] theorem State.modCtx_hbmPoison (s : State) (c : CtxId) (f : Ctx → Ctx) : (s.modCtx c f).hbmPoison = s.hbmPoison := rfl
@[simp] theorem State.modCtx_hostMem (s : State) (c : CtxId) (f : Ctx → Ctx) : (s.modCtx c f).hostMem = s.hostMem := rfl
@[simp] theorem State.modCtx_peerMem (s : State) (c : CtxId) (f : Ctx → Ctx) : (s.modCtx c f).peerMem = s.peerMem := rfl
@[simp] theorem State.modCtx_dir (s : State) (c : CtxId) (f : Ctx → Ctx) : (s.modCtx c f).dir = s.dir := rfl
@[simp] theorem State.modCtx_reqs (s : State) (c : CtxId) (f : Ctx → Ctx) : (s.modCtx c f).reqs = s.reqs := rfl
@[simp] theorem State.modCtx_nextId (s : State) (c : CtxId) (f : Ctx → Ctx) : (s.modCtx c f).nextId = s.nextId := rfl
@[simp] theorem State.modCtx_tlb (s : State) (c : CtxId) (f : Ctx → Ctx) : (s.modCtx c f).tlb = s.tlb := rfl
@[simp] theorem State.modCtx_chans (s : State) (c : CtxId) (f : Ctx → Ctx) : (s.modCtx c f).chans = s.chans := rfl
@[simp] theorem State.modCtx_chanAsks (s : State) (c : CtxId) (f : Ctx → Ctx) : (s.modCtx c f).chanAsks = s.chanAsks := rfl
@[simp] theorem State.modCtx_chanTurn (s : State) (c : CtxId) (f : Ctx → Ctx) : (s.modCtx c f).chanTurn = s.chanTurn := rfl
@[simp] theorem State.modCtx_outside (s : State) (c : CtxId) (f : Ctx → Ctx) : (s.modCtx c f).outside = s.outside := rfl
@[simp] theorem State.modCtx_jobs (s : State) (c : CtxId) (f : Ctx → Ctx) : (s.modCtx c f).jobs = s.jobs := rfl
@[simp] theorem State.modCtx_lastPos (s : State) (c : CtxId) (f : Ctx → Ctx) : (s.modCtx c f).lastPos = s.lastPos := rfl
@[simp] theorem State.modCtx_issued (s : State) (c : CtxId) (f : Ctx → Ctx) : (s.modCtx c f).issued = s.issued := rfl
@[simp] theorem State.modCtx_log (s : State) (c : CtxId) (f : Ctx → Ctx) : (s.modCtx c f).log = s.log := rfl
@[simp] theorem State.modCtx_service (s : State) (c : CtxId) (f : Ctx → Ctx) : (s.modCtx c f).service = s.service := rfl
@[simp] theorem State.modCtx_secure (s : State) (c : CtxId) (f : Ctx → Ctx) : (s.modCtx c f).secure = s.secure := rfl
@[simp] theorem State.modCtx_links (s : State) (c : CtxId) (f : Ctx → Ctx) : (s.modCtx c f).links = s.links := rfl
@[simp] theorem State.modCtx_upkeep (s : State) (c : CtxId) (f : Ctx → Ctx) : (s.modCtx c f).upkeep = s.upkeep := rfl
@[simp] theorem State.modCtx_cur (s : State) (c : CtxId) (f : Ctx → Ctx) : (s.modCtx c f).cur = s.cur := rfl
@[simp] theorem State.modCtx_sched (s : State) (c : CtxId) (f : Ctx → Ctx) : (s.modCtx c f).sched = s.sched := rfl
@[simp] theorem State.modCtx_free (s : State) (c : CtxId) (f : Ctx → Ctx) : (s.modCtx c f).free = s.free := rfl

/-! ### modPort -/

@[simp] theorem State.modPort_cyc (s : State) (c : CtxId) (f : Port → Port) : (s.modPort c f).cyc = s.cyc := rfl
@[simp] theorem State.modPort_half (s : State) (c : CtxId) (f : Port → Port) : (s.modPort c f).half = s.half := rfl
@[simp] theorem State.modPort_qage (s : State) (c : CtxId) (f : Port → Port) : (s.modPort c f).qage = s.qage := rfl
@[simp] theorem State.modPort_issage (s : State) (c : CtxId) (f : Port → Port) : (s.modPort c f).issage = s.issage := rfl
@[simp] theorem State.modPort_qageNow (s : State) (c : CtxId) (f : Port → Port) : (s.modPort c f).qageNow = s.qageNow := rfl
@[simp] theorem State.modPort_issageNow (s : State) (c : CtxId) (f : Port → Port) : (s.modPort c f).issageNow = s.issageNow := rfl
@[simp] theorem State.modPort_dispatched (s : State) (c : CtxId) (f : Port → Port) : (s.modPort c f).dispatched = s.dispatched := rfl
@[simp] theorem State.modPort_hbm (s : State) (c : CtxId) (f : Port → Port) : (s.modPort c f).hbm = s.hbm := rfl
@[simp] theorem State.modPort_hbmPoison (s : State) (c : CtxId) (f : Port → Port) : (s.modPort c f).hbmPoison = s.hbmPoison := rfl
@[simp] theorem State.modPort_hostMem (s : State) (c : CtxId) (f : Port → Port) : (s.modPort c f).hostMem = s.hostMem := rfl
@[simp] theorem State.modPort_peerMem (s : State) (c : CtxId) (f : Port → Port) : (s.modPort c f).peerMem = s.peerMem := rfl
@[simp] theorem State.modPort_dir (s : State) (c : CtxId) (f : Port → Port) : (s.modPort c f).dir = s.dir := rfl
@[simp] theorem State.modPort_reqs (s : State) (c : CtxId) (f : Port → Port) : (s.modPort c f).reqs = s.reqs := rfl
@[simp] theorem State.modPort_nextId (s : State) (c : CtxId) (f : Port → Port) : (s.modPort c f).nextId = s.nextId := rfl
@[simp] theorem State.modPort_tlb (s : State) (c : CtxId) (f : Port → Port) : (s.modPort c f).tlb = s.tlb := rfl
@[simp] theorem State.modPort_chans (s : State) (c : CtxId) (f : Port → Port) : (s.modPort c f).chans = s.chans := rfl
@[simp] theorem State.modPort_chanAsks (s : State) (c : CtxId) (f : Port → Port) : (s.modPort c f).chanAsks = s.chanAsks := rfl
@[simp] theorem State.modPort_chanTurn (s : State) (c : CtxId) (f : Port → Port) : (s.modPort c f).chanTurn = s.chanTurn := rfl
@[simp] theorem State.modPort_outside (s : State) (c : CtxId) (f : Port → Port) : (s.modPort c f).outside = s.outside := rfl
@[simp] theorem State.modPort_jobs (s : State) (c : CtxId) (f : Port → Port) : (s.modPort c f).jobs = s.jobs := rfl
@[simp] theorem State.modPort_lastPos (s : State) (c : CtxId) (f : Port → Port) : (s.modPort c f).lastPos = s.lastPos := rfl
@[simp] theorem State.modPort_issued (s : State) (c : CtxId) (f : Port → Port) : (s.modPort c f).issued = s.issued := rfl
@[simp] theorem State.modPort_log (s : State) (c : CtxId) (f : Port → Port) : (s.modPort c f).log = s.log := rfl
@[simp] theorem State.modPort_service (s : State) (c : CtxId) (f : Port → Port) : (s.modPort c f).service = s.service := rfl
@[simp] theorem State.modPort_secure (s : State) (c : CtxId) (f : Port → Port) : (s.modPort c f).secure = s.secure := rfl
@[simp] theorem State.modPort_links (s : State) (c : CtxId) (f : Port → Port) : (s.modPort c f).links = s.links := rfl
@[simp] theorem State.modPort_upkeep (s : State) (c : CtxId) (f : Port → Port) : (s.modPort c f).upkeep = s.upkeep := rfl
@[simp] theorem State.modPort_cur (s : State) (c : CtxId) (f : Port → Port) : (s.modPort c f).cur = s.cur := rfl
@[simp] theorem State.modPort_sched (s : State) (c : CtxId) (f : Port → Port) : (s.modPort c f).sched = s.sched := rfl
@[simp] theorem State.modPort_free (s : State) (c : CtxId) (f : Port → Port) : (s.modPort c f).free = s.free := rfl

/-! ### setThread -/

@[simp] theorem State.setThread_cyc (s : State) (c : CtxId) (t : Tid) (x : Thread) : (s.setThread c t x).cyc = s.cyc := rfl
@[simp] theorem State.setThread_half (s : State) (c : CtxId) (t : Tid) (x : Thread) : (s.setThread c t x).half = s.half := rfl
@[simp] theorem State.setThread_qage (s : State) (c : CtxId) (t : Tid) (x : Thread) : (s.setThread c t x).qage = s.qage := rfl
@[simp] theorem State.setThread_issage (s : State) (c : CtxId) (t : Tid) (x : Thread) : (s.setThread c t x).issage = s.issage := rfl
@[simp] theorem State.setThread_qageNow (s : State) (c : CtxId) (t : Tid) (x : Thread) : (s.setThread c t x).qageNow = s.qageNow := rfl
@[simp] theorem State.setThread_issageNow (s : State) (c : CtxId) (t : Tid) (x : Thread) : (s.setThread c t x).issageNow = s.issageNow := rfl
@[simp] theorem State.setThread_dispatched (s : State) (c : CtxId) (t : Tid) (x : Thread) : (s.setThread c t x).dispatched = s.dispatched := rfl
@[simp] theorem State.setThread_hbm (s : State) (c : CtxId) (t : Tid) (x : Thread) : (s.setThread c t x).hbm = s.hbm := rfl
@[simp] theorem State.setThread_hbmPoison (s : State) (c : CtxId) (t : Tid) (x : Thread) : (s.setThread c t x).hbmPoison = s.hbmPoison := rfl
@[simp] theorem State.setThread_hostMem (s : State) (c : CtxId) (t : Tid) (x : Thread) : (s.setThread c t x).hostMem = s.hostMem := rfl
@[simp] theorem State.setThread_peerMem (s : State) (c : CtxId) (t : Tid) (x : Thread) : (s.setThread c t x).peerMem = s.peerMem := rfl
@[simp] theorem State.setThread_dir (s : State) (c : CtxId) (t : Tid) (x : Thread) : (s.setThread c t x).dir = s.dir := rfl
@[simp] theorem State.setThread_reqs (s : State) (c : CtxId) (t : Tid) (x : Thread) : (s.setThread c t x).reqs = s.reqs := rfl
@[simp] theorem State.setThread_nextId (s : State) (c : CtxId) (t : Tid) (x : Thread) : (s.setThread c t x).nextId = s.nextId := rfl
@[simp] theorem State.setThread_tlb (s : State) (c : CtxId) (t : Tid) (x : Thread) : (s.setThread c t x).tlb = s.tlb := rfl
@[simp] theorem State.setThread_chans (s : State) (c : CtxId) (t : Tid) (x : Thread) : (s.setThread c t x).chans = s.chans := rfl
@[simp] theorem State.setThread_chanAsks (s : State) (c : CtxId) (t : Tid) (x : Thread) : (s.setThread c t x).chanAsks = s.chanAsks := rfl
@[simp] theorem State.setThread_chanTurn (s : State) (c : CtxId) (t : Tid) (x : Thread) : (s.setThread c t x).chanTurn = s.chanTurn := rfl
@[simp] theorem State.setThread_outside (s : State) (c : CtxId) (t : Tid) (x : Thread) : (s.setThread c t x).outside = s.outside := rfl
@[simp] theorem State.setThread_jobs (s : State) (c : CtxId) (t : Tid) (x : Thread) : (s.setThread c t x).jobs = s.jobs := rfl
@[simp] theorem State.setThread_lastPos (s : State) (c : CtxId) (t : Tid) (x : Thread) : (s.setThread c t x).lastPos = s.lastPos := rfl
@[simp] theorem State.setThread_issued (s : State) (c : CtxId) (t : Tid) (x : Thread) : (s.setThread c t x).issued = s.issued := rfl
@[simp] theorem State.setThread_log (s : State) (c : CtxId) (t : Tid) (x : Thread) : (s.setThread c t x).log = s.log := rfl
@[simp] theorem State.setThread_service (s : State) (c : CtxId) (t : Tid) (x : Thread) : (s.setThread c t x).service = s.service := rfl
@[simp] theorem State.setThread_secure (s : State) (c : CtxId) (t : Tid) (x : Thread) : (s.setThread c t x).secure = s.secure := rfl
@[simp] theorem State.setThread_links (s : State) (c : CtxId) (t : Tid) (x : Thread) : (s.setThread c t x).links = s.links := rfl
@[simp] theorem State.setThread_upkeep (s : State) (c : CtxId) (t : Tid) (x : Thread) : (s.setThread c t x).upkeep = s.upkeep := rfl
@[simp] theorem State.setThread_cur (s : State) (c : CtxId) (t : Tid) (x : Thread) : (s.setThread c t x).cur = s.cur := rfl
@[simp] theorem State.setThread_sched (s : State) (c : CtxId) (t : Tid) (x : Thread) : (s.setThread c t x).sched = s.sched := rfl
@[simp] theorem State.setThread_free (s : State) (c : CtxId) (t : Tid) (x : Thread) : (s.setThread c t x).free = s.free := rfl

/-! ### modThread -/

@[simp] theorem State.modThread_cyc (s : State) (c : CtxId) (t : Tid) (f : Thread → Thread) : (s.modThread c t f).cyc = s.cyc := rfl
@[simp] theorem State.modThread_half (s : State) (c : CtxId) (t : Tid) (f : Thread → Thread) : (s.modThread c t f).half = s.half := rfl
@[simp] theorem State.modThread_qage (s : State) (c : CtxId) (t : Tid) (f : Thread → Thread) : (s.modThread c t f).qage = s.qage := rfl
@[simp] theorem State.modThread_issage (s : State) (c : CtxId) (t : Tid) (f : Thread → Thread) : (s.modThread c t f).issage = s.issage := rfl
@[simp] theorem State.modThread_qageNow (s : State) (c : CtxId) (t : Tid) (f : Thread → Thread) : (s.modThread c t f).qageNow = s.qageNow := rfl
@[simp] theorem State.modThread_issageNow (s : State) (c : CtxId) (t : Tid) (f : Thread → Thread) : (s.modThread c t f).issageNow = s.issageNow := rfl
@[simp] theorem State.modThread_dispatched (s : State) (c : CtxId) (t : Tid) (f : Thread → Thread) : (s.modThread c t f).dispatched = s.dispatched := rfl
@[simp] theorem State.modThread_hbm (s : State) (c : CtxId) (t : Tid) (f : Thread → Thread) : (s.modThread c t f).hbm = s.hbm := rfl
@[simp] theorem State.modThread_hbmPoison (s : State) (c : CtxId) (t : Tid) (f : Thread → Thread) : (s.modThread c t f).hbmPoison = s.hbmPoison := rfl
@[simp] theorem State.modThread_hostMem (s : State) (c : CtxId) (t : Tid) (f : Thread → Thread) : (s.modThread c t f).hostMem = s.hostMem := rfl
@[simp] theorem State.modThread_peerMem (s : State) (c : CtxId) (t : Tid) (f : Thread → Thread) : (s.modThread c t f).peerMem = s.peerMem := rfl
@[simp] theorem State.modThread_dir (s : State) (c : CtxId) (t : Tid) (f : Thread → Thread) : (s.modThread c t f).dir = s.dir := rfl
@[simp] theorem State.modThread_reqs (s : State) (c : CtxId) (t : Tid) (f : Thread → Thread) : (s.modThread c t f).reqs = s.reqs := rfl
@[simp] theorem State.modThread_nextId (s : State) (c : CtxId) (t : Tid) (f : Thread → Thread) : (s.modThread c t f).nextId = s.nextId := rfl
@[simp] theorem State.modThread_tlb (s : State) (c : CtxId) (t : Tid) (f : Thread → Thread) : (s.modThread c t f).tlb = s.tlb := rfl
@[simp] theorem State.modThread_chans (s : State) (c : CtxId) (t : Tid) (f : Thread → Thread) : (s.modThread c t f).chans = s.chans := rfl
@[simp] theorem State.modThread_chanAsks (s : State) (c : CtxId) (t : Tid) (f : Thread → Thread) : (s.modThread c t f).chanAsks = s.chanAsks := rfl
@[simp] theorem State.modThread_chanTurn (s : State) (c : CtxId) (t : Tid) (f : Thread → Thread) : (s.modThread c t f).chanTurn = s.chanTurn := rfl
@[simp] theorem State.modThread_outside (s : State) (c : CtxId) (t : Tid) (f : Thread → Thread) : (s.modThread c t f).outside = s.outside := rfl
@[simp] theorem State.modThread_jobs (s : State) (c : CtxId) (t : Tid) (f : Thread → Thread) : (s.modThread c t f).jobs = s.jobs := rfl
@[simp] theorem State.modThread_lastPos (s : State) (c : CtxId) (t : Tid) (f : Thread → Thread) : (s.modThread c t f).lastPos = s.lastPos := rfl
@[simp] theorem State.modThread_issued (s : State) (c : CtxId) (t : Tid) (f : Thread → Thread) : (s.modThread c t f).issued = s.issued := rfl
@[simp] theorem State.modThread_log (s : State) (c : CtxId) (t : Tid) (f : Thread → Thread) : (s.modThread c t f).log = s.log := rfl
@[simp] theorem State.modThread_service (s : State) (c : CtxId) (t : Tid) (f : Thread → Thread) : (s.modThread c t f).service = s.service := rfl
@[simp] theorem State.modThread_secure (s : State) (c : CtxId) (t : Tid) (f : Thread → Thread) : (s.modThread c t f).secure = s.secure := rfl
@[simp] theorem State.modThread_links (s : State) (c : CtxId) (t : Tid) (f : Thread → Thread) : (s.modThread c t f).links = s.links := rfl
@[simp] theorem State.modThread_upkeep (s : State) (c : CtxId) (t : Tid) (f : Thread → Thread) : (s.modThread c t f).upkeep = s.upkeep := rfl
@[simp] theorem State.modThread_cur (s : State) (c : CtxId) (t : Tid) (f : Thread → Thread) : (s.modThread c t f).cur = s.cur := rfl
@[simp] theorem State.modThread_sched (s : State) (c : CtxId) (t : Tid) (f : Thread → Thread) : (s.modThread c t f).sched = s.sched := rfl
@[simp] theorem State.modThread_free (s : State) (c : CtxId) (t : Tid) (f : Thread → Thread) : (s.modThread c t f).free = s.free := rfl

/-! ### setLay -/

@[simp] theorem State.setLay_cyc (s : State) (c : CtxId) (l : LaySlot) (x : Option Lay) : (s.setLay c l x).cyc = s.cyc := rfl
@[simp] theorem State.setLay_half (s : State) (c : CtxId) (l : LaySlot) (x : Option Lay) : (s.setLay c l x).half = s.half := rfl
@[simp] theorem State.setLay_qage (s : State) (c : CtxId) (l : LaySlot) (x : Option Lay) : (s.setLay c l x).qage = s.qage := rfl
@[simp] theorem State.setLay_issage (s : State) (c : CtxId) (l : LaySlot) (x : Option Lay) : (s.setLay c l x).issage = s.issage := rfl
@[simp] theorem State.setLay_qageNow (s : State) (c : CtxId) (l : LaySlot) (x : Option Lay) : (s.setLay c l x).qageNow = s.qageNow := rfl
@[simp] theorem State.setLay_issageNow (s : State) (c : CtxId) (l : LaySlot) (x : Option Lay) : (s.setLay c l x).issageNow = s.issageNow := rfl
@[simp] theorem State.setLay_dispatched (s : State) (c : CtxId) (l : LaySlot) (x : Option Lay) : (s.setLay c l x).dispatched = s.dispatched := rfl
@[simp] theorem State.setLay_hbm (s : State) (c : CtxId) (l : LaySlot) (x : Option Lay) : (s.setLay c l x).hbm = s.hbm := rfl
@[simp] theorem State.setLay_hbmPoison (s : State) (c : CtxId) (l : LaySlot) (x : Option Lay) : (s.setLay c l x).hbmPoison = s.hbmPoison := rfl
@[simp] theorem State.setLay_hostMem (s : State) (c : CtxId) (l : LaySlot) (x : Option Lay) : (s.setLay c l x).hostMem = s.hostMem := rfl
@[simp] theorem State.setLay_peerMem (s : State) (c : CtxId) (l : LaySlot) (x : Option Lay) : (s.setLay c l x).peerMem = s.peerMem := rfl
@[simp] theorem State.setLay_dir (s : State) (c : CtxId) (l : LaySlot) (x : Option Lay) : (s.setLay c l x).dir = s.dir := rfl
@[simp] theorem State.setLay_reqs (s : State) (c : CtxId) (l : LaySlot) (x : Option Lay) : (s.setLay c l x).reqs = s.reqs := rfl
@[simp] theorem State.setLay_nextId (s : State) (c : CtxId) (l : LaySlot) (x : Option Lay) : (s.setLay c l x).nextId = s.nextId := rfl
@[simp] theorem State.setLay_tlb (s : State) (c : CtxId) (l : LaySlot) (x : Option Lay) : (s.setLay c l x).tlb = s.tlb := rfl
@[simp] theorem State.setLay_chans (s : State) (c : CtxId) (l : LaySlot) (x : Option Lay) : (s.setLay c l x).chans = s.chans := rfl
@[simp] theorem State.setLay_chanAsks (s : State) (c : CtxId) (l : LaySlot) (x : Option Lay) : (s.setLay c l x).chanAsks = s.chanAsks := rfl
@[simp] theorem State.setLay_chanTurn (s : State) (c : CtxId) (l : LaySlot) (x : Option Lay) : (s.setLay c l x).chanTurn = s.chanTurn := rfl
@[simp] theorem State.setLay_outside (s : State) (c : CtxId) (l : LaySlot) (x : Option Lay) : (s.setLay c l x).outside = s.outside := rfl
@[simp] theorem State.setLay_jobs (s : State) (c : CtxId) (l : LaySlot) (x : Option Lay) : (s.setLay c l x).jobs = s.jobs := rfl
@[simp] theorem State.setLay_lastPos (s : State) (c : CtxId) (l : LaySlot) (x : Option Lay) : (s.setLay c l x).lastPos = s.lastPos := rfl
@[simp] theorem State.setLay_issued (s : State) (c : CtxId) (l : LaySlot) (x : Option Lay) : (s.setLay c l x).issued = s.issued := rfl
@[simp] theorem State.setLay_log (s : State) (c : CtxId) (l : LaySlot) (x : Option Lay) : (s.setLay c l x).log = s.log := rfl
@[simp] theorem State.setLay_service (s : State) (c : CtxId) (l : LaySlot) (x : Option Lay) : (s.setLay c l x).service = s.service := rfl
@[simp] theorem State.setLay_secure (s : State) (c : CtxId) (l : LaySlot) (x : Option Lay) : (s.setLay c l x).secure = s.secure := rfl
@[simp] theorem State.setLay_links (s : State) (c : CtxId) (l : LaySlot) (x : Option Lay) : (s.setLay c l x).links = s.links := rfl
@[simp] theorem State.setLay_upkeep (s : State) (c : CtxId) (l : LaySlot) (x : Option Lay) : (s.setLay c l x).upkeep = s.upkeep := rfl
@[simp] theorem State.setLay_cur (s : State) (c : CtxId) (l : LaySlot) (x : Option Lay) : (s.setLay c l x).cur = s.cur := rfl
@[simp] theorem State.setLay_sched (s : State) (c : CtxId) (l : LaySlot) (x : Option Lay) : (s.setLay c l x).sched = s.sched := rfl
@[simp] theorem State.setLay_free (s : State) (c : CtxId) (l : LaySlot) (x : Option Lay) : (s.setLay c l x).free = s.free := rfl

/-! ### modLinks -/

@[simp] theorem State.modLinks_cyc (s : State) (f : Links → Links) : (s.modLinks f).cyc = s.cyc := rfl
@[simp] theorem State.modLinks_half (s : State) (f : Links → Links) : (s.modLinks f).half = s.half := rfl
@[simp] theorem State.modLinks_qage (s : State) (f : Links → Links) : (s.modLinks f).qage = s.qage := rfl
@[simp] theorem State.modLinks_issage (s : State) (f : Links → Links) : (s.modLinks f).issage = s.issage := rfl
@[simp] theorem State.modLinks_qageNow (s : State) (f : Links → Links) : (s.modLinks f).qageNow = s.qageNow := rfl
@[simp] theorem State.modLinks_issageNow (s : State) (f : Links → Links) : (s.modLinks f).issageNow = s.issageNow := rfl
@[simp] theorem State.modLinks_dispatched (s : State) (f : Links → Links) : (s.modLinks f).dispatched = s.dispatched := rfl
@[simp] theorem State.modLinks_ctxs (s : State) (f : Links → Links) : (s.modLinks f).ctxs = s.ctxs := rfl
@[simp] theorem State.modLinks_hbm (s : State) (f : Links → Links) : (s.modLinks f).hbm = s.hbm := rfl
@[simp] theorem State.modLinks_hbmPoison (s : State) (f : Links → Links) : (s.modLinks f).hbmPoison = s.hbmPoison := rfl
@[simp] theorem State.modLinks_hostMem (s : State) (f : Links → Links) : (s.modLinks f).hostMem = s.hostMem := rfl
@[simp] theorem State.modLinks_peerMem (s : State) (f : Links → Links) : (s.modLinks f).peerMem = s.peerMem := rfl
@[simp] theorem State.modLinks_dir (s : State) (f : Links → Links) : (s.modLinks f).dir = s.dir := rfl
@[simp] theorem State.modLinks_reqs (s : State) (f : Links → Links) : (s.modLinks f).reqs = s.reqs := rfl
@[simp] theorem State.modLinks_nextId (s : State) (f : Links → Links) : (s.modLinks f).nextId = s.nextId := rfl
@[simp] theorem State.modLinks_tlb (s : State) (f : Links → Links) : (s.modLinks f).tlb = s.tlb := rfl
@[simp] theorem State.modLinks_chans (s : State) (f : Links → Links) : (s.modLinks f).chans = s.chans := rfl
@[simp] theorem State.modLinks_chanAsks (s : State) (f : Links → Links) : (s.modLinks f).chanAsks = s.chanAsks := rfl
@[simp] theorem State.modLinks_chanTurn (s : State) (f : Links → Links) : (s.modLinks f).chanTurn = s.chanTurn := rfl
@[simp] theorem State.modLinks_outside (s : State) (f : Links → Links) : (s.modLinks f).outside = s.outside := rfl
@[simp] theorem State.modLinks_jobs (s : State) (f : Links → Links) : (s.modLinks f).jobs = s.jobs := rfl
@[simp] theorem State.modLinks_lastPos (s : State) (f : Links → Links) : (s.modLinks f).lastPos = s.lastPos := rfl
@[simp] theorem State.modLinks_issued (s : State) (f : Links → Links) : (s.modLinks f).issued = s.issued := rfl
@[simp] theorem State.modLinks_log (s : State) (f : Links → Links) : (s.modLinks f).log = s.log := rfl
@[simp] theorem State.modLinks_service (s : State) (f : Links → Links) : (s.modLinks f).service = s.service := rfl
@[simp] theorem State.modLinks_secure (s : State) (f : Links → Links) : (s.modLinks f).secure = s.secure := rfl
@[simp] theorem State.modLinks_upkeep (s : State) (f : Links → Links) : (s.modLinks f).upkeep = s.upkeep := rfl
@[simp] theorem State.modLinks_cur (s : State) (f : Links → Links) : (s.modLinks f).cur = s.cur := rfl
@[simp] theorem State.modLinks_sched (s : State) (f : Links → Links) : (s.modLinks f).sched = s.sched := rfl
@[simp] theorem State.modLinks_free (s : State) (f : Links → Links) : (s.modLinks f).free = s.free := rfl

/-! ### modSecure -/

@[simp] theorem State.modSecure_cyc (s : State) (f : Secure → Secure) : (s.modSecure f).cyc = s.cyc := rfl
@[simp] theorem State.modSecure_half (s : State) (f : Secure → Secure) : (s.modSecure f).half = s.half := rfl
@[simp] theorem State.modSecure_qage (s : State) (f : Secure → Secure) : (s.modSecure f).qage = s.qage := rfl
@[simp] theorem State.modSecure_issage (s : State) (f : Secure → Secure) : (s.modSecure f).issage = s.issage := rfl
@[simp] theorem State.modSecure_qageNow (s : State) (f : Secure → Secure) : (s.modSecure f).qageNow = s.qageNow := rfl
@[simp] theorem State.modSecure_issageNow (s : State) (f : Secure → Secure) : (s.modSecure f).issageNow = s.issageNow := rfl
@[simp] theorem State.modSecure_dispatched (s : State) (f : Secure → Secure) : (s.modSecure f).dispatched = s.dispatched := rfl
@[simp] theorem State.modSecure_ctxs (s : State) (f : Secure → Secure) : (s.modSecure f).ctxs = s.ctxs := rfl
@[simp] theorem State.modSecure_hbm (s : State) (f : Secure → Secure) : (s.modSecure f).hbm = s.hbm := rfl
@[simp] theorem State.modSecure_hbmPoison (s : State) (f : Secure → Secure) : (s.modSecure f).hbmPoison = s.hbmPoison := rfl
@[simp] theorem State.modSecure_hostMem (s : State) (f : Secure → Secure) : (s.modSecure f).hostMem = s.hostMem := rfl
@[simp] theorem State.modSecure_peerMem (s : State) (f : Secure → Secure) : (s.modSecure f).peerMem = s.peerMem := rfl
@[simp] theorem State.modSecure_dir (s : State) (f : Secure → Secure) : (s.modSecure f).dir = s.dir := rfl
@[simp] theorem State.modSecure_reqs (s : State) (f : Secure → Secure) : (s.modSecure f).reqs = s.reqs := rfl
@[simp] theorem State.modSecure_nextId (s : State) (f : Secure → Secure) : (s.modSecure f).nextId = s.nextId := rfl
@[simp] theorem State.modSecure_tlb (s : State) (f : Secure → Secure) : (s.modSecure f).tlb = s.tlb := rfl
@[simp] theorem State.modSecure_chans (s : State) (f : Secure → Secure) : (s.modSecure f).chans = s.chans := rfl
@[simp] theorem State.modSecure_chanAsks (s : State) (f : Secure → Secure) : (s.modSecure f).chanAsks = s.chanAsks := rfl
@[simp] theorem State.modSecure_chanTurn (s : State) (f : Secure → Secure) : (s.modSecure f).chanTurn = s.chanTurn := rfl
@[simp] theorem State.modSecure_outside (s : State) (f : Secure → Secure) : (s.modSecure f).outside = s.outside := rfl
@[simp] theorem State.modSecure_jobs (s : State) (f : Secure → Secure) : (s.modSecure f).jobs = s.jobs := rfl
@[simp] theorem State.modSecure_lastPos (s : State) (f : Secure → Secure) : (s.modSecure f).lastPos = s.lastPos := rfl
@[simp] theorem State.modSecure_issued (s : State) (f : Secure → Secure) : (s.modSecure f).issued = s.issued := rfl
@[simp] theorem State.modSecure_log (s : State) (f : Secure → Secure) : (s.modSecure f).log = s.log := rfl
@[simp] theorem State.modSecure_service (s : State) (f : Secure → Secure) : (s.modSecure f).service = s.service := rfl
@[simp] theorem State.modSecure_links (s : State) (f : Secure → Secure) : (s.modSecure f).links = s.links := rfl
@[simp] theorem State.modSecure_upkeep (s : State) (f : Secure → Secure) : (s.modSecure f).upkeep = s.upkeep := rfl
@[simp] theorem State.modSecure_cur (s : State) (f : Secure → Secure) : (s.modSecure f).cur = s.cur := rfl
@[simp] theorem State.modSecure_sched (s : State) (f : Secure → Secure) : (s.modSecure f).sched = s.sched := rfl
@[simp] theorem State.modSecure_free (s : State) (f : Secure → Secure) : (s.modSecure f).free = s.free := rfl

/-! ### modService -/

@[simp] theorem State.modService_cyc (s : State) (f : Service → Service) : (s.modService f).cyc = s.cyc := rfl
@[simp] theorem State.modService_half (s : State) (f : Service → Service) : (s.modService f).half = s.half := rfl
@[simp] theorem State.modService_qage (s : State) (f : Service → Service) : (s.modService f).qage = s.qage := rfl
@[simp] theorem State.modService_issage (s : State) (f : Service → Service) : (s.modService f).issage = s.issage := rfl
@[simp] theorem State.modService_qageNow (s : State) (f : Service → Service) : (s.modService f).qageNow = s.qageNow := rfl
@[simp] theorem State.modService_issageNow (s : State) (f : Service → Service) : (s.modService f).issageNow = s.issageNow := rfl
@[simp] theorem State.modService_dispatched (s : State) (f : Service → Service) : (s.modService f).dispatched = s.dispatched := rfl
@[simp] theorem State.modService_ctxs (s : State) (f : Service → Service) : (s.modService f).ctxs = s.ctxs := rfl
@[simp] theorem State.modService_hbm (s : State) (f : Service → Service) : (s.modService f).hbm = s.hbm := rfl
@[simp] theorem State.modService_hbmPoison (s : State) (f : Service → Service) : (s.modService f).hbmPoison = s.hbmPoison := rfl
@[simp] theorem State.modService_hostMem (s : State) (f : Service → Service) : (s.modService f).hostMem = s.hostMem := rfl
@[simp] theorem State.modService_peerMem (s : State) (f : Service → Service) : (s.modService f).peerMem = s.peerMem := rfl
@[simp] theorem State.modService_dir (s : State) (f : Service → Service) : (s.modService f).dir = s.dir := rfl
@[simp] theorem State.modService_reqs (s : State) (f : Service → Service) : (s.modService f).reqs = s.reqs := rfl
@[simp] theorem State.modService_nextId (s : State) (f : Service → Service) : (s.modService f).nextId = s.nextId := rfl
@[simp] theorem State.modService_tlb (s : State) (f : Service → Service) : (s.modService f).tlb = s.tlb := rfl
@[simp] theorem State.modService_chans (s : State) (f : Service → Service) : (s.modService f).chans = s.chans := rfl
@[simp] theorem State.modService_chanAsks (s : State) (f : Service → Service) : (s.modService f).chanAsks = s.chanAsks := rfl
@[simp] theorem State.modService_chanTurn (s : State) (f : Service → Service) : (s.modService f).chanTurn = s.chanTurn := rfl
@[simp] theorem State.modService_outside (s : State) (f : Service → Service) : (s.modService f).outside = s.outside := rfl
@[simp] theorem State.modService_jobs (s : State) (f : Service → Service) : (s.modService f).jobs = s.jobs := rfl
@[simp] theorem State.modService_lastPos (s : State) (f : Service → Service) : (s.modService f).lastPos = s.lastPos := rfl
@[simp] theorem State.modService_issued (s : State) (f : Service → Service) : (s.modService f).issued = s.issued := rfl
@[simp] theorem State.modService_log (s : State) (f : Service → Service) : (s.modService f).log = s.log := rfl
@[simp] theorem State.modService_secure (s : State) (f : Service → Service) : (s.modService f).secure = s.secure := rfl
@[simp] theorem State.modService_links (s : State) (f : Service → Service) : (s.modService f).links = s.links := rfl
@[simp] theorem State.modService_upkeep (s : State) (f : Service → Service) : (s.modService f).upkeep = s.upkeep := rfl
@[simp] theorem State.modService_cur (s : State) (f : Service → Service) : (s.modService f).cur = s.cur := rfl
@[simp] theorem State.modService_sched (s : State) (f : Service → Service) : (s.modService f).sched = s.sched := rfl
@[simp] theorem State.modService_free (s : State) (f : Service → Service) : (s.modService f).free = s.free := rfl

/-! ### modReq -/

@[simp] theorem State.modReq_cyc (s : State) (r : Nat) (f : Req → Req) : (s.modReq r f).cyc = s.cyc := rfl
@[simp] theorem State.modReq_half (s : State) (r : Nat) (f : Req → Req) : (s.modReq r f).half = s.half := rfl
@[simp] theorem State.modReq_qage (s : State) (r : Nat) (f : Req → Req) : (s.modReq r f).qage = s.qage := rfl
@[simp] theorem State.modReq_issage (s : State) (r : Nat) (f : Req → Req) : (s.modReq r f).issage = s.issage := rfl
@[simp] theorem State.modReq_qageNow (s : State) (r : Nat) (f : Req → Req) : (s.modReq r f).qageNow = s.qageNow := rfl
@[simp] theorem State.modReq_issageNow (s : State) (r : Nat) (f : Req → Req) : (s.modReq r f).issageNow = s.issageNow := rfl
@[simp] theorem State.modReq_dispatched (s : State) (r : Nat) (f : Req → Req) : (s.modReq r f).dispatched = s.dispatched := rfl
@[simp] theorem State.modReq_ctxs (s : State) (r : Nat) (f : Req → Req) : (s.modReq r f).ctxs = s.ctxs := rfl
@[simp] theorem State.modReq_hbm (s : State) (r : Nat) (f : Req → Req) : (s.modReq r f).hbm = s.hbm := rfl
@[simp] theorem State.modReq_hbmPoison (s : State) (r : Nat) (f : Req → Req) : (s.modReq r f).hbmPoison = s.hbmPoison := rfl
@[simp] theorem State.modReq_hostMem (s : State) (r : Nat) (f : Req → Req) : (s.modReq r f).hostMem = s.hostMem := rfl
@[simp] theorem State.modReq_peerMem (s : State) (r : Nat) (f : Req → Req) : (s.modReq r f).peerMem = s.peerMem := rfl
@[simp] theorem State.modReq_dir (s : State) (r : Nat) (f : Req → Req) : (s.modReq r f).dir = s.dir := rfl
@[simp] theorem State.modReq_nextId (s : State) (r : Nat) (f : Req → Req) : (s.modReq r f).nextId = s.nextId := rfl
@[simp] theorem State.modReq_tlb (s : State) (r : Nat) (f : Req → Req) : (s.modReq r f).tlb = s.tlb := rfl
@[simp] theorem State.modReq_chans (s : State) (r : Nat) (f : Req → Req) : (s.modReq r f).chans = s.chans := rfl
@[simp] theorem State.modReq_chanAsks (s : State) (r : Nat) (f : Req → Req) : (s.modReq r f).chanAsks = s.chanAsks := rfl
@[simp] theorem State.modReq_chanTurn (s : State) (r : Nat) (f : Req → Req) : (s.modReq r f).chanTurn = s.chanTurn := rfl
@[simp] theorem State.modReq_outside (s : State) (r : Nat) (f : Req → Req) : (s.modReq r f).outside = s.outside := rfl
@[simp] theorem State.modReq_jobs (s : State) (r : Nat) (f : Req → Req) : (s.modReq r f).jobs = s.jobs := rfl
@[simp] theorem State.modReq_lastPos (s : State) (r : Nat) (f : Req → Req) : (s.modReq r f).lastPos = s.lastPos := rfl
@[simp] theorem State.modReq_issued (s : State) (r : Nat) (f : Req → Req) : (s.modReq r f).issued = s.issued := rfl
@[simp] theorem State.modReq_log (s : State) (r : Nat) (f : Req → Req) : (s.modReq r f).log = s.log := rfl
@[simp] theorem State.modReq_service (s : State) (r : Nat) (f : Req → Req) : (s.modReq r f).service = s.service := rfl
@[simp] theorem State.modReq_secure (s : State) (r : Nat) (f : Req → Req) : (s.modReq r f).secure = s.secure := rfl
@[simp] theorem State.modReq_links (s : State) (r : Nat) (f : Req → Req) : (s.modReq r f).links = s.links := rfl
@[simp] theorem State.modReq_upkeep (s : State) (r : Nat) (f : Req → Req) : (s.modReq r f).upkeep = s.upkeep := rfl
@[simp] theorem State.modReq_cur (s : State) (r : Nat) (f : Req → Req) : (s.modReq r f).cur = s.cur := rfl
@[simp] theorem State.modReq_sched (s : State) (r : Nat) (f : Req → Req) : (s.modReq r f).sched = s.sched := rfl
@[simp] theorem State.modReq_free (s : State) (r : Nat) (f : Req → Req) : (s.modReq r f).free = s.free := rfl

/-! ### dropReq -/

@[simp] theorem State.dropReq_cyc (s : State) (r : Nat) : (s.dropReq r).cyc = s.cyc := rfl
@[simp] theorem State.dropReq_half (s : State) (r : Nat) : (s.dropReq r).half = s.half := rfl
@[simp] theorem State.dropReq_qage (s : State) (r : Nat) : (s.dropReq r).qage = s.qage := rfl
@[simp] theorem State.dropReq_issage (s : State) (r : Nat) : (s.dropReq r).issage = s.issage := rfl
@[simp] theorem State.dropReq_qageNow (s : State) (r : Nat) : (s.dropReq r).qageNow = s.qageNow := rfl
@[simp] theorem State.dropReq_issageNow (s : State) (r : Nat) : (s.dropReq r).issageNow = s.issageNow := rfl
@[simp] theorem State.dropReq_dispatched (s : State) (r : Nat) : (s.dropReq r).dispatched = s.dispatched := rfl
@[simp] theorem State.dropReq_ctxs (s : State) (r : Nat) : (s.dropReq r).ctxs = s.ctxs := rfl
@[simp] theorem State.dropReq_hbm (s : State) (r : Nat) : (s.dropReq r).hbm = s.hbm := rfl
@[simp] theorem State.dropReq_hbmPoison (s : State) (r : Nat) : (s.dropReq r).hbmPoison = s.hbmPoison := rfl
@[simp] theorem State.dropReq_hostMem (s : State) (r : Nat) : (s.dropReq r).hostMem = s.hostMem := rfl
@[simp] theorem State.dropReq_peerMem (s : State) (r : Nat) : (s.dropReq r).peerMem = s.peerMem := rfl
@[simp] theorem State.dropReq_dir (s : State) (r : Nat) : (s.dropReq r).dir = s.dir := rfl
@[simp] theorem State.dropReq_nextId (s : State) (r : Nat) : (s.dropReq r).nextId = s.nextId := rfl
@[simp] theorem State.dropReq_tlb (s : State) (r : Nat) : (s.dropReq r).tlb = s.tlb := rfl
@[simp] theorem State.dropReq_chans (s : State) (r : Nat) : (s.dropReq r).chans = s.chans := rfl
@[simp] theorem State.dropReq_chanAsks (s : State) (r : Nat) : (s.dropReq r).chanAsks = s.chanAsks := rfl
@[simp] theorem State.dropReq_chanTurn (s : State) (r : Nat) : (s.dropReq r).chanTurn = s.chanTurn := rfl
@[simp] theorem State.dropReq_outside (s : State) (r : Nat) : (s.dropReq r).outside = s.outside := rfl
@[simp] theorem State.dropReq_jobs (s : State) (r : Nat) : (s.dropReq r).jobs = s.jobs := rfl
@[simp] theorem State.dropReq_lastPos (s : State) (r : Nat) : (s.dropReq r).lastPos = s.lastPos := rfl
@[simp] theorem State.dropReq_issued (s : State) (r : Nat) : (s.dropReq r).issued = s.issued := rfl
@[simp] theorem State.dropReq_log (s : State) (r : Nat) : (s.dropReq r).log = s.log := rfl
@[simp] theorem State.dropReq_service (s : State) (r : Nat) : (s.dropReq r).service = s.service := rfl
@[simp] theorem State.dropReq_secure (s : State) (r : Nat) : (s.dropReq r).secure = s.secure := rfl
@[simp] theorem State.dropReq_links (s : State) (r : Nat) : (s.dropReq r).links = s.links := rfl
@[simp] theorem State.dropReq_upkeep (s : State) (r : Nat) : (s.dropReq r).upkeep = s.upkeep := rfl
@[simp] theorem State.dropReq_cur (s : State) (r : Nat) : (s.dropReq r).cur = s.cur := rfl
@[simp] theorem State.dropReq_sched (s : State) (r : Nat) : (s.dropReq r).sched = s.sched := rfl
@[simp] theorem State.dropReq_free (s : State) (r : Nat) : (s.dropReq r).free = s.free := rfl

/-! ### advance -/

@[simp] theorem State.advance_cyc (s : State) (c : CtxId) (t : Tid) : (s.advance c t).cyc = s.cyc := rfl
@[simp] theorem State.advance_half (s : State) (c : CtxId) (t : Tid) : (s.advance c t).half = s.half := rfl
@[simp] theorem State.advance_qage (s : State) (c : CtxId) (t : Tid) : (s.advance c t).qage = s.qage := rfl
@[simp] theorem State.advance_issage (s : State) (c : CtxId) (t : Tid) : (s.advance c t).issage = s.issage := rfl
@[simp] theorem State.advance_qageNow (s : State) (c : CtxId) (t : Tid) : (s.advance c t).qageNow = s.qageNow := rfl
@[simp] theorem State.advance_issageNow (s : State) (c : CtxId) (t : Tid) : (s.advance c t).issageNow = s.issageNow := rfl
@[simp] theorem State.advance_dispatched (s : State) (c : CtxId) (t : Tid) : (s.advance c t).dispatched = s.dispatched := rfl
@[simp] theorem State.advance_hbm (s : State) (c : CtxId) (t : Tid) : (s.advance c t).hbm = s.hbm := rfl
@[simp] theorem State.advance_hbmPoison (s : State) (c : CtxId) (t : Tid) : (s.advance c t).hbmPoison = s.hbmPoison := rfl
@[simp] theorem State.advance_hostMem (s : State) (c : CtxId) (t : Tid) : (s.advance c t).hostMem = s.hostMem := rfl
@[simp] theorem State.advance_peerMem (s : State) (c : CtxId) (t : Tid) : (s.advance c t).peerMem = s.peerMem := rfl
@[simp] theorem State.advance_dir (s : State) (c : CtxId) (t : Tid) : (s.advance c t).dir = s.dir := rfl
@[simp] theorem State.advance_reqs (s : State) (c : CtxId) (t : Tid) : (s.advance c t).reqs = s.reqs := rfl
@[simp] theorem State.advance_nextId (s : State) (c : CtxId) (t : Tid) : (s.advance c t).nextId = s.nextId := rfl
@[simp] theorem State.advance_tlb (s : State) (c : CtxId) (t : Tid) : (s.advance c t).tlb = s.tlb := rfl
@[simp] theorem State.advance_chans (s : State) (c : CtxId) (t : Tid) : (s.advance c t).chans = s.chans := rfl
@[simp] theorem State.advance_chanAsks (s : State) (c : CtxId) (t : Tid) : (s.advance c t).chanAsks = s.chanAsks := rfl
@[simp] theorem State.advance_chanTurn (s : State) (c : CtxId) (t : Tid) : (s.advance c t).chanTurn = s.chanTurn := rfl
@[simp] theorem State.advance_outside (s : State) (c : CtxId) (t : Tid) : (s.advance c t).outside = s.outside := rfl
@[simp] theorem State.advance_jobs (s : State) (c : CtxId) (t : Tid) : (s.advance c t).jobs = s.jobs := rfl
@[simp] theorem State.advance_lastPos (s : State) (c : CtxId) (t : Tid) : (s.advance c t).lastPos = s.lastPos := rfl
@[simp] theorem State.advance_issued (s : State) (c : CtxId) (t : Tid) : (s.advance c t).issued = s.issued := rfl
@[simp] theorem State.advance_log (s : State) (c : CtxId) (t : Tid) : (s.advance c t).log = s.log := rfl
@[simp] theorem State.advance_service (s : State) (c : CtxId) (t : Tid) : (s.advance c t).service = s.service := rfl
@[simp] theorem State.advance_secure (s : State) (c : CtxId) (t : Tid) : (s.advance c t).secure = s.secure := rfl
@[simp] theorem State.advance_links (s : State) (c : CtxId) (t : Tid) : (s.advance c t).links = s.links := rfl
@[simp] theorem State.advance_upkeep (s : State) (c : CtxId) (t : Tid) : (s.advance c t).upkeep = s.upkeep := rfl
@[simp] theorem State.advance_cur (s : State) (c : CtxId) (t : Tid) : (s.advance c t).cur = s.cur := rfl
@[simp] theorem State.advance_sched (s : State) (c : CtxId) (t : Tid) : (s.advance c t).sched = s.sched := rfl
@[simp] theorem State.advance_free (s : State) (c : CtxId) (t : Tid) : (s.advance c t).free = s.free := rfl

/-! ### writeT -/

@[simp] theorem State.writeT_cyc (s : State) (c : CtxId) (t : Tid) (sp : Spec) (v : DWord) : (s.writeT c t sp v).cyc = s.cyc := rfl
@[simp] theorem State.writeT_half (s : State) (c : CtxId) (t : Tid) (sp : Spec) (v : DWord) : (s.writeT c t sp v).half = s.half := rfl
@[simp] theorem State.writeT_qage (s : State) (c : CtxId) (t : Tid) (sp : Spec) (v : DWord) : (s.writeT c t sp v).qage = s.qage := rfl
@[simp] theorem State.writeT_issage (s : State) (c : CtxId) (t : Tid) (sp : Spec) (v : DWord) : (s.writeT c t sp v).issage = s.issage := rfl
@[simp] theorem State.writeT_qageNow (s : State) (c : CtxId) (t : Tid) (sp : Spec) (v : DWord) : (s.writeT c t sp v).qageNow = s.qageNow := rfl
@[simp] theorem State.writeT_issageNow (s : State) (c : CtxId) (t : Tid) (sp : Spec) (v : DWord) : (s.writeT c t sp v).issageNow = s.issageNow := rfl
@[simp] theorem State.writeT_dispatched (s : State) (c : CtxId) (t : Tid) (sp : Spec) (v : DWord) : (s.writeT c t sp v).dispatched = s.dispatched := rfl
@[simp] theorem State.writeT_hbm (s : State) (c : CtxId) (t : Tid) (sp : Spec) (v : DWord) : (s.writeT c t sp v).hbm = s.hbm := rfl
@[simp] theorem State.writeT_hbmPoison (s : State) (c : CtxId) (t : Tid) (sp : Spec) (v : DWord) : (s.writeT c t sp v).hbmPoison = s.hbmPoison := rfl
@[simp] theorem State.writeT_hostMem (s : State) (c : CtxId) (t : Tid) (sp : Spec) (v : DWord) : (s.writeT c t sp v).hostMem = s.hostMem := rfl
@[simp] theorem State.writeT_peerMem (s : State) (c : CtxId) (t : Tid) (sp : Spec) (v : DWord) : (s.writeT c t sp v).peerMem = s.peerMem := rfl
@[simp] theorem State.writeT_dir (s : State) (c : CtxId) (t : Tid) (sp : Spec) (v : DWord) : (s.writeT c t sp v).dir = s.dir := rfl
@[simp] theorem State.writeT_reqs (s : State) (c : CtxId) (t : Tid) (sp : Spec) (v : DWord) : (s.writeT c t sp v).reqs = s.reqs := rfl
@[simp] theorem State.writeT_nextId (s : State) (c : CtxId) (t : Tid) (sp : Spec) (v : DWord) : (s.writeT c t sp v).nextId = s.nextId := rfl
@[simp] theorem State.writeT_tlb (s : State) (c : CtxId) (t : Tid) (sp : Spec) (v : DWord) : (s.writeT c t sp v).tlb = s.tlb := rfl
@[simp] theorem State.writeT_chans (s : State) (c : CtxId) (t : Tid) (sp : Spec) (v : DWord) : (s.writeT c t sp v).chans = s.chans := rfl
@[simp] theorem State.writeT_chanAsks (s : State) (c : CtxId) (t : Tid) (sp : Spec) (v : DWord) : (s.writeT c t sp v).chanAsks = s.chanAsks := rfl
@[simp] theorem State.writeT_chanTurn (s : State) (c : CtxId) (t : Tid) (sp : Spec) (v : DWord) : (s.writeT c t sp v).chanTurn = s.chanTurn := rfl
@[simp] theorem State.writeT_outside (s : State) (c : CtxId) (t : Tid) (sp : Spec) (v : DWord) : (s.writeT c t sp v).outside = s.outside := rfl
@[simp] theorem State.writeT_jobs (s : State) (c : CtxId) (t : Tid) (sp : Spec) (v : DWord) : (s.writeT c t sp v).jobs = s.jobs := rfl
@[simp] theorem State.writeT_lastPos (s : State) (c : CtxId) (t : Tid) (sp : Spec) (v : DWord) : (s.writeT c t sp v).lastPos = s.lastPos := rfl
@[simp] theorem State.writeT_issued (s : State) (c : CtxId) (t : Tid) (sp : Spec) (v : DWord) : (s.writeT c t sp v).issued = s.issued := rfl
@[simp] theorem State.writeT_log (s : State) (c : CtxId) (t : Tid) (sp : Spec) (v : DWord) : (s.writeT c t sp v).log = s.log := rfl
@[simp] theorem State.writeT_service (s : State) (c : CtxId) (t : Tid) (sp : Spec) (v : DWord) : (s.writeT c t sp v).service = s.service := rfl
@[simp] theorem State.writeT_secure (s : State) (c : CtxId) (t : Tid) (sp : Spec) (v : DWord) : (s.writeT c t sp v).secure = s.secure := rfl
@[simp] theorem State.writeT_links (s : State) (c : CtxId) (t : Tid) (sp : Spec) (v : DWord) : (s.writeT c t sp v).links = s.links := rfl
@[simp] theorem State.writeT_upkeep (s : State) (c : CtxId) (t : Tid) (sp : Spec) (v : DWord) : (s.writeT c t sp v).upkeep = s.upkeep := rfl
@[simp] theorem State.writeT_cur (s : State) (c : CtxId) (t : Tid) (sp : Spec) (v : DWord) : (s.writeT c t sp v).cur = s.cur := rfl
@[simp] theorem State.writeT_sched (s : State) (c : CtxId) (t : Tid) (sp : Spec) (v : DWord) : (s.writeT c t sp v).sched = s.sched := rfl
@[simp] theorem State.writeT_free (s : State) (c : CtxId) (t : Tid) (sp : Spec) (v : DWord) : (s.writeT c t sp v).free = s.free := rfl

/-! ### finishT -/

@[simp] theorem State.finishT_cyc (s : State) (c : CtxId) (t : Tid) (sp : Spec) (v : DWord) : (s.finishT c t sp v).cyc = s.cyc := rfl
@[simp] theorem State.finishT_half (s : State) (c : CtxId) (t : Tid) (sp : Spec) (v : DWord) : (s.finishT c t sp v).half = s.half := rfl
@[simp] theorem State.finishT_qage (s : State) (c : CtxId) (t : Tid) (sp : Spec) (v : DWord) : (s.finishT c t sp v).qage = s.qage := rfl
@[simp] theorem State.finishT_issage (s : State) (c : CtxId) (t : Tid) (sp : Spec) (v : DWord) : (s.finishT c t sp v).issage = s.issage := rfl
@[simp] theorem State.finishT_qageNow (s : State) (c : CtxId) (t : Tid) (sp : Spec) (v : DWord) : (s.finishT c t sp v).qageNow = s.qageNow := rfl
@[simp] theorem State.finishT_issageNow (s : State) (c : CtxId) (t : Tid) (sp : Spec) (v : DWord) : (s.finishT c t sp v).issageNow = s.issageNow := rfl
@[simp] theorem State.finishT_dispatched (s : State) (c : CtxId) (t : Tid) (sp : Spec) (v : DWord) : (s.finishT c t sp v).dispatched = s.dispatched := rfl
@[simp] theorem State.finishT_hbm (s : State) (c : CtxId) (t : Tid) (sp : Spec) (v : DWord) : (s.finishT c t sp v).hbm = s.hbm := rfl
@[simp] theorem State.finishT_hbmPoison (s : State) (c : CtxId) (t : Tid) (sp : Spec) (v : DWord) : (s.finishT c t sp v).hbmPoison = s.hbmPoison := rfl
@[simp] theorem State.finishT_hostMem (s : State) (c : CtxId) (t : Tid) (sp : Spec) (v : DWord) : (s.finishT c t sp v).hostMem = s.hostMem := rfl
@[simp] theorem State.finishT_peerMem (s : State) (c : CtxId) (t : Tid) (sp : Spec) (v : DWord) : (s.finishT c t sp v).peerMem = s.peerMem := rfl
@[simp] theorem State.finishT_dir (s : State) (c : CtxId) (t : Tid) (sp : Spec) (v : DWord) : (s.finishT c t sp v).dir = s.dir := rfl
@[simp] theorem State.finishT_reqs (s : State) (c : CtxId) (t : Tid) (sp : Spec) (v : DWord) : (s.finishT c t sp v).reqs = s.reqs := rfl
@[simp] theorem State.finishT_nextId (s : State) (c : CtxId) (t : Tid) (sp : Spec) (v : DWord) : (s.finishT c t sp v).nextId = s.nextId := rfl
@[simp] theorem State.finishT_tlb (s : State) (c : CtxId) (t : Tid) (sp : Spec) (v : DWord) : (s.finishT c t sp v).tlb = s.tlb := rfl
@[simp] theorem State.finishT_chans (s : State) (c : CtxId) (t : Tid) (sp : Spec) (v : DWord) : (s.finishT c t sp v).chans = s.chans := rfl
@[simp] theorem State.finishT_chanAsks (s : State) (c : CtxId) (t : Tid) (sp : Spec) (v : DWord) : (s.finishT c t sp v).chanAsks = s.chanAsks := rfl
@[simp] theorem State.finishT_chanTurn (s : State) (c : CtxId) (t : Tid) (sp : Spec) (v : DWord) : (s.finishT c t sp v).chanTurn = s.chanTurn := rfl
@[simp] theorem State.finishT_outside (s : State) (c : CtxId) (t : Tid) (sp : Spec) (v : DWord) : (s.finishT c t sp v).outside = s.outside := rfl
@[simp] theorem State.finishT_jobs (s : State) (c : CtxId) (t : Tid) (sp : Spec) (v : DWord) : (s.finishT c t sp v).jobs = s.jobs := rfl
@[simp] theorem State.finishT_lastPos (s : State) (c : CtxId) (t : Tid) (sp : Spec) (v : DWord) : (s.finishT c t sp v).lastPos = s.lastPos := rfl
@[simp] theorem State.finishT_issued (s : State) (c : CtxId) (t : Tid) (sp : Spec) (v : DWord) : (s.finishT c t sp v).issued = s.issued := rfl
@[simp] theorem State.finishT_log (s : State) (c : CtxId) (t : Tid) (sp : Spec) (v : DWord) : (s.finishT c t sp v).log = s.log := rfl
@[simp] theorem State.finishT_service (s : State) (c : CtxId) (t : Tid) (sp : Spec) (v : DWord) : (s.finishT c t sp v).service = s.service := rfl
@[simp] theorem State.finishT_secure (s : State) (c : CtxId) (t : Tid) (sp : Spec) (v : DWord) : (s.finishT c t sp v).secure = s.secure := rfl
@[simp] theorem State.finishT_links (s : State) (c : CtxId) (t : Tid) (sp : Spec) (v : DWord) : (s.finishT c t sp v).links = s.links := rfl
@[simp] theorem State.finishT_upkeep (s : State) (c : CtxId) (t : Tid) (sp : Spec) (v : DWord) : (s.finishT c t sp v).upkeep = s.upkeep := rfl
@[simp] theorem State.finishT_cur (s : State) (c : CtxId) (t : Tid) (sp : Spec) (v : DWord) : (s.finishT c t sp v).cur = s.cur := rfl
@[simp] theorem State.finishT_sched (s : State) (c : CtxId) (t : Tid) (sp : Spec) (v : DWord) : (s.finishT c t sp v).sched = s.sched := rfl
@[simp] theorem State.finishT_free (s : State) (c : CtxId) (t : Tid) (sp : Spec) (v : DWord) : (s.finishT c t sp v).free = s.free := rfl

/-! ### returnTrap -/

@[simp] theorem State.returnTrap_cyc (s : State) (c : CtxId) (t : Tid) : (s.returnTrap c t).cyc = s.cyc := rfl
@[simp] theorem State.returnTrap_half (s : State) (c : CtxId) (t : Tid) : (s.returnTrap c t).half = s.half := rfl
@[simp] theorem State.returnTrap_qage (s : State) (c : CtxId) (t : Tid) : (s.returnTrap c t).qage = s.qage := rfl
@[simp] theorem State.returnTrap_issage (s : State) (c : CtxId) (t : Tid) : (s.returnTrap c t).issage = s.issage := rfl
@[simp] theorem State.returnTrap_qageNow (s : State) (c : CtxId) (t : Tid) : (s.returnTrap c t).qageNow = s.qageNow := rfl
@[simp] theorem State.returnTrap_issageNow (s : State) (c : CtxId) (t : Tid) : (s.returnTrap c t).issageNow = s.issageNow := rfl
@[simp] theorem State.returnTrap_dispatched (s : State) (c : CtxId) (t : Tid) : (s.returnTrap c t).dispatched = s.dispatched := rfl
@[simp] theorem State.returnTrap_hbm (s : State) (c : CtxId) (t : Tid) : (s.returnTrap c t).hbm = s.hbm := rfl
@[simp] theorem State.returnTrap_hbmPoison (s : State) (c : CtxId) (t : Tid) : (s.returnTrap c t).hbmPoison = s.hbmPoison := rfl
@[simp] theorem State.returnTrap_hostMem (s : State) (c : CtxId) (t : Tid) : (s.returnTrap c t).hostMem = s.hostMem := rfl
@[simp] theorem State.returnTrap_peerMem (s : State) (c : CtxId) (t : Tid) : (s.returnTrap c t).peerMem = s.peerMem := rfl
@[simp] theorem State.returnTrap_dir (s : State) (c : CtxId) (t : Tid) : (s.returnTrap c t).dir = s.dir := rfl
@[simp] theorem State.returnTrap_reqs (s : State) (c : CtxId) (t : Tid) : (s.returnTrap c t).reqs = s.reqs := rfl
@[simp] theorem State.returnTrap_nextId (s : State) (c : CtxId) (t : Tid) : (s.returnTrap c t).nextId = s.nextId := rfl
@[simp] theorem State.returnTrap_tlb (s : State) (c : CtxId) (t : Tid) : (s.returnTrap c t).tlb = s.tlb := rfl
@[simp] theorem State.returnTrap_chans (s : State) (c : CtxId) (t : Tid) : (s.returnTrap c t).chans = s.chans := rfl
@[simp] theorem State.returnTrap_chanAsks (s : State) (c : CtxId) (t : Tid) : (s.returnTrap c t).chanAsks = s.chanAsks := rfl
@[simp] theorem State.returnTrap_chanTurn (s : State) (c : CtxId) (t : Tid) : (s.returnTrap c t).chanTurn = s.chanTurn := rfl
@[simp] theorem State.returnTrap_outside (s : State) (c : CtxId) (t : Tid) : (s.returnTrap c t).outside = s.outside := rfl
@[simp] theorem State.returnTrap_jobs (s : State) (c : CtxId) (t : Tid) : (s.returnTrap c t).jobs = s.jobs := rfl
@[simp] theorem State.returnTrap_lastPos (s : State) (c : CtxId) (t : Tid) : (s.returnTrap c t).lastPos = s.lastPos := rfl
@[simp] theorem State.returnTrap_issued (s : State) (c : CtxId) (t : Tid) : (s.returnTrap c t).issued = s.issued := rfl
@[simp] theorem State.returnTrap_log (s : State) (c : CtxId) (t : Tid) : (s.returnTrap c t).log = s.log := rfl
@[simp] theorem State.returnTrap_service (s : State) (c : CtxId) (t : Tid) : (s.returnTrap c t).service = s.service := rfl
@[simp] theorem State.returnTrap_secure (s : State) (c : CtxId) (t : Tid) : (s.returnTrap c t).secure = s.secure := rfl
@[simp] theorem State.returnTrap_links (s : State) (c : CtxId) (t : Tid) : (s.returnTrap c t).links = s.links := rfl
@[simp] theorem State.returnTrap_upkeep (s : State) (c : CtxId) (t : Tid) : (s.returnTrap c t).upkeep = s.upkeep := rfl
@[simp] theorem State.returnTrap_cur (s : State) (c : CtxId) (t : Tid) : (s.returnTrap c t).cur = s.cur := rfl
@[simp] theorem State.returnTrap_sched (s : State) (c : CtxId) (t : Tid) : (s.returnTrap c t).sched = s.sched := rfl
@[simp] theorem State.returnTrap_free (s : State) (c : CtxId) (t : Tid) : (s.returnTrap c t).free = s.free := rfl

/-! ### raiseVec -/

@[simp] theorem State.raiseVec_cyc (s : State) (v : Nat) : (s.raiseVec v).cyc = s.cyc := rfl
@[simp] theorem State.raiseVec_half (s : State) (v : Nat) : (s.raiseVec v).half = s.half := rfl
@[simp] theorem State.raiseVec_qage (s : State) (v : Nat) : (s.raiseVec v).qage = s.qage := rfl
@[simp] theorem State.raiseVec_issage (s : State) (v : Nat) : (s.raiseVec v).issage = s.issage := rfl
@[simp] theorem State.raiseVec_qageNow (s : State) (v : Nat) : (s.raiseVec v).qageNow = s.qageNow := rfl
@[simp] theorem State.raiseVec_issageNow (s : State) (v : Nat) : (s.raiseVec v).issageNow = s.issageNow := rfl
@[simp] theorem State.raiseVec_dispatched (s : State) (v : Nat) : (s.raiseVec v).dispatched = s.dispatched := rfl
@[simp] theorem State.raiseVec_ctxs (s : State) (v : Nat) : (s.raiseVec v).ctxs = s.ctxs := rfl
@[simp] theorem State.raiseVec_hbm (s : State) (v : Nat) : (s.raiseVec v).hbm = s.hbm := rfl
@[simp] theorem State.raiseVec_hbmPoison (s : State) (v : Nat) : (s.raiseVec v).hbmPoison = s.hbmPoison := rfl
@[simp] theorem State.raiseVec_hostMem (s : State) (v : Nat) : (s.raiseVec v).hostMem = s.hostMem := rfl
@[simp] theorem State.raiseVec_peerMem (s : State) (v : Nat) : (s.raiseVec v).peerMem = s.peerMem := rfl
@[simp] theorem State.raiseVec_dir (s : State) (v : Nat) : (s.raiseVec v).dir = s.dir := rfl
@[simp] theorem State.raiseVec_reqs (s : State) (v : Nat) : (s.raiseVec v).reqs = s.reqs := rfl
@[simp] theorem State.raiseVec_nextId (s : State) (v : Nat) : (s.raiseVec v).nextId = s.nextId := rfl
@[simp] theorem State.raiseVec_tlb (s : State) (v : Nat) : (s.raiseVec v).tlb = s.tlb := rfl
@[simp] theorem State.raiseVec_chans (s : State) (v : Nat) : (s.raiseVec v).chans = s.chans := rfl
@[simp] theorem State.raiseVec_chanAsks (s : State) (v : Nat) : (s.raiseVec v).chanAsks = s.chanAsks := rfl
@[simp] theorem State.raiseVec_chanTurn (s : State) (v : Nat) : (s.raiseVec v).chanTurn = s.chanTurn := rfl
@[simp] theorem State.raiseVec_outside (s : State) (v : Nat) : (s.raiseVec v).outside = s.outside := rfl
@[simp] theorem State.raiseVec_jobs (s : State) (v : Nat) : (s.raiseVec v).jobs = s.jobs := rfl
@[simp] theorem State.raiseVec_lastPos (s : State) (v : Nat) : (s.raiseVec v).lastPos = s.lastPos := rfl
@[simp] theorem State.raiseVec_issued (s : State) (v : Nat) : (s.raiseVec v).issued = s.issued := rfl
@[simp] theorem State.raiseVec_log (s : State) (v : Nat) : (s.raiseVec v).log = s.log := rfl
@[simp] theorem State.raiseVec_service (s : State) (v : Nat) : (s.raiseVec v).service = s.service := rfl
@[simp] theorem State.raiseVec_secure (s : State) (v : Nat) : (s.raiseVec v).secure = s.secure := rfl
@[simp] theorem State.raiseVec_upkeep (s : State) (v : Nat) : (s.raiseVec v).upkeep = s.upkeep := rfl
@[simp] theorem State.raiseVec_cur (s : State) (v : Nat) : (s.raiseVec v).cur = s.cur := rfl
@[simp] theorem State.raiseVec_sched (s : State) (v : Nat) : (s.raiseVec v).sched = s.sched := rfl
@[simp] theorem State.raiseVec_free (s : State) (v : Nat) : (s.raiseVec v).free = s.free := rfl

/-! ### putRun -/

@[simp] theorem State.putRun_cyc (s : State) (p : Place) (r : Run) : (s.putRun p r).cyc = s.cyc := rfl
@[simp] theorem State.putRun_half (s : State) (p : Place) (r : Run) : (s.putRun p r).half = s.half := rfl
@[simp] theorem State.putRun_qage (s : State) (p : Place) (r : Run) : (s.putRun p r).qage = s.qage := rfl
@[simp] theorem State.putRun_issage (s : State) (p : Place) (r : Run) : (s.putRun p r).issage = s.issage := rfl
@[simp] theorem State.putRun_qageNow (s : State) (p : Place) (r : Run) : (s.putRun p r).qageNow = s.qageNow := rfl
@[simp] theorem State.putRun_issageNow (s : State) (p : Place) (r : Run) : (s.putRun p r).issageNow = s.issageNow := rfl
@[simp] theorem State.putRun_dispatched (s : State) (p : Place) (r : Run) : (s.putRun p r).dispatched = s.dispatched := rfl
@[simp] theorem State.putRun_ctxs (s : State) (p : Place) (r : Run) : (s.putRun p r).ctxs = s.ctxs := rfl
@[simp] theorem State.putRun_hbm (s : State) (p : Place) (r : Run) : (s.putRun p r).hbm = s.hbm := rfl
@[simp] theorem State.putRun_hbmPoison (s : State) (p : Place) (r : Run) : (s.putRun p r).hbmPoison = s.hbmPoison := rfl
@[simp] theorem State.putRun_hostMem (s : State) (p : Place) (r : Run) : (s.putRun p r).hostMem = s.hostMem := rfl
@[simp] theorem State.putRun_peerMem (s : State) (p : Place) (r : Run) : (s.putRun p r).peerMem = s.peerMem := rfl
@[simp] theorem State.putRun_dir (s : State) (p : Place) (r : Run) : (s.putRun p r).dir = s.dir := rfl
@[simp] theorem State.putRun_reqs (s : State) (p : Place) (r : Run) : (s.putRun p r).reqs = s.reqs := rfl
@[simp] theorem State.putRun_nextId (s : State) (p : Place) (r : Run) : (s.putRun p r).nextId = s.nextId := rfl
@[simp] theorem State.putRun_tlb (s : State) (p : Place) (r : Run) : (s.putRun p r).tlb = s.tlb := rfl
@[simp] theorem State.putRun_chans (s : State) (p : Place) (r : Run) : (s.putRun p r).chans = s.chans := rfl
@[simp] theorem State.putRun_chanAsks (s : State) (p : Place) (r : Run) : (s.putRun p r).chanAsks = s.chanAsks := rfl
@[simp] theorem State.putRun_chanTurn (s : State) (p : Place) (r : Run) : (s.putRun p r).chanTurn = s.chanTurn := rfl
@[simp] theorem State.putRun_outside (s : State) (p : Place) (r : Run) : (s.putRun p r).outside = s.outside := rfl
@[simp] theorem State.putRun_jobs (s : State) (p : Place) (r : Run) : (s.putRun p r).jobs = s.jobs := rfl
@[simp] theorem State.putRun_lastPos (s : State) (p : Place) (r : Run) : (s.putRun p r).lastPos = s.lastPos := rfl
@[simp] theorem State.putRun_issued (s : State) (p : Place) (r : Run) : (s.putRun p r).issued = s.issued := rfl
@[simp] theorem State.putRun_log (s : State) (p : Place) (r : Run) : (s.putRun p r).log = s.log := rfl
@[simp] theorem State.putRun_service (s : State) (p : Place) (r : Run) : (s.putRun p r).service = s.service := rfl
@[simp] theorem State.putRun_secure (s : State) (p : Place) (r : Run) : (s.putRun p r).secure = s.secure := rfl
@[simp] theorem State.putRun_links (s : State) (p : Place) (r : Run) : (s.putRun p r).links = s.links := rfl
@[simp] theorem State.putRun_upkeep (s : State) (p : Place) (r : Run) : (s.putRun p r).upkeep = s.upkeep := rfl
@[simp] theorem State.putRun_sched (s : State) (p : Place) (r : Run) : (s.putRun p r).sched = s.sched := rfl

/-! ### nextIp -/

@[simp] theorem State.nextIp_cyc (s : State) (p : Place) (r : Run) : (s.nextIp p r).cyc = s.cyc := rfl
@[simp] theorem State.nextIp_half (s : State) (p : Place) (r : Run) : (s.nextIp p r).half = s.half := rfl
@[simp] theorem State.nextIp_qage (s : State) (p : Place) (r : Run) : (s.nextIp p r).qage = s.qage := rfl
@[simp] theorem State.nextIp_issage (s : State) (p : Place) (r : Run) : (s.nextIp p r).issage = s.issage := rfl
@[simp] theorem State.nextIp_qageNow (s : State) (p : Place) (r : Run) : (s.nextIp p r).qageNow = s.qageNow := rfl
@[simp] theorem State.nextIp_issageNow (s : State) (p : Place) (r : Run) : (s.nextIp p r).issageNow = s.issageNow := rfl
@[simp] theorem State.nextIp_dispatched (s : State) (p : Place) (r : Run) : (s.nextIp p r).dispatched = s.dispatched := rfl
@[simp] theorem State.nextIp_ctxs (s : State) (p : Place) (r : Run) : (s.nextIp p r).ctxs = s.ctxs := rfl
@[simp] theorem State.nextIp_hbm (s : State) (p : Place) (r : Run) : (s.nextIp p r).hbm = s.hbm := rfl
@[simp] theorem State.nextIp_hbmPoison (s : State) (p : Place) (r : Run) : (s.nextIp p r).hbmPoison = s.hbmPoison := rfl
@[simp] theorem State.nextIp_hostMem (s : State) (p : Place) (r : Run) : (s.nextIp p r).hostMem = s.hostMem := rfl
@[simp] theorem State.nextIp_peerMem (s : State) (p : Place) (r : Run) : (s.nextIp p r).peerMem = s.peerMem := rfl
@[simp] theorem State.nextIp_dir (s : State) (p : Place) (r : Run) : (s.nextIp p r).dir = s.dir := rfl
@[simp] theorem State.nextIp_reqs (s : State) (p : Place) (r : Run) : (s.nextIp p r).reqs = s.reqs := rfl
@[simp] theorem State.nextIp_nextId (s : State) (p : Place) (r : Run) : (s.nextIp p r).nextId = s.nextId := rfl
@[simp] theorem State.nextIp_tlb (s : State) (p : Place) (r : Run) : (s.nextIp p r).tlb = s.tlb := rfl
@[simp] theorem State.nextIp_chans (s : State) (p : Place) (r : Run) : (s.nextIp p r).chans = s.chans := rfl
@[simp] theorem State.nextIp_chanAsks (s : State) (p : Place) (r : Run) : (s.nextIp p r).chanAsks = s.chanAsks := rfl
@[simp] theorem State.nextIp_chanTurn (s : State) (p : Place) (r : Run) : (s.nextIp p r).chanTurn = s.chanTurn := rfl
@[simp] theorem State.nextIp_outside (s : State) (p : Place) (r : Run) : (s.nextIp p r).outside = s.outside := rfl
@[simp] theorem State.nextIp_jobs (s : State) (p : Place) (r : Run) : (s.nextIp p r).jobs = s.jobs := rfl
@[simp] theorem State.nextIp_lastPos (s : State) (p : Place) (r : Run) : (s.nextIp p r).lastPos = s.lastPos := rfl
@[simp] theorem State.nextIp_issued (s : State) (p : Place) (r : Run) : (s.nextIp p r).issued = s.issued := rfl
@[simp] theorem State.nextIp_log (s : State) (p : Place) (r : Run) : (s.nextIp p r).log = s.log := rfl
@[simp] theorem State.nextIp_service (s : State) (p : Place) (r : Run) : (s.nextIp p r).service = s.service := rfl
@[simp] theorem State.nextIp_secure (s : State) (p : Place) (r : Run) : (s.nextIp p r).secure = s.secure := rfl
@[simp] theorem State.nextIp_links (s : State) (p : Place) (r : Run) : (s.nextIp p r).links = s.links := rfl
@[simp] theorem State.nextIp_upkeep (s : State) (p : Place) (r : Run) : (s.nextIp p r).upkeep = s.upkeep := rfl
@[simp] theorem State.nextIp_sched (s : State) (p : Place) (r : Run) : (s.nextIp p r).sched = s.sched := rfl

/-! ### modLay -/

@[simp] theorem State.modLay_cyc (s : State) (c : CtxId) (l : LaySlot) (f : Lay → Lay) : (s.modLay c l f).cyc = s.cyc := by unfold State.modLay; split <;> rfl
@[simp] theorem State.modLay_half (s : State) (c : CtxId) (l : LaySlot) (f : Lay → Lay) : (s.modLay c l f).half = s.half := by unfold State.modLay; split <;> rfl
@[simp] theorem State.modLay_qage (s : State) (c : CtxId) (l : LaySlot) (f : Lay → Lay) : (s.modLay c l f).qage = s.qage := by unfold State.modLay; split <;> rfl
@[simp] theorem State.modLay_issage (s : State) (c : CtxId) (l : LaySlot) (f : Lay → Lay) : (s.modLay c l f).issage = s.issage := by unfold State.modLay; split <;> rfl
@[simp] theorem State.modLay_qageNow (s : State) (c : CtxId) (l : LaySlot) (f : Lay → Lay) : (s.modLay c l f).qageNow = s.qageNow := by unfold State.modLay; split <;> rfl
@[simp] theorem State.modLay_issageNow (s : State) (c : CtxId) (l : LaySlot) (f : Lay → Lay) : (s.modLay c l f).issageNow = s.issageNow := by unfold State.modLay; split <;> rfl
@[simp] theorem State.modLay_dispatched (s : State) (c : CtxId) (l : LaySlot) (f : Lay → Lay) : (s.modLay c l f).dispatched = s.dispatched := by unfold State.modLay; split <;> rfl
@[simp] theorem State.modLay_hbm (s : State) (c : CtxId) (l : LaySlot) (f : Lay → Lay) : (s.modLay c l f).hbm = s.hbm := by unfold State.modLay; split <;> rfl
@[simp] theorem State.modLay_hbmPoison (s : State) (c : CtxId) (l : LaySlot) (f : Lay → Lay) : (s.modLay c l f).hbmPoison = s.hbmPoison := by unfold State.modLay; split <;> rfl
@[simp] theorem State.modLay_hostMem (s : State) (c : CtxId) (l : LaySlot) (f : Lay → Lay) : (s.modLay c l f).hostMem = s.hostMem := by unfold State.modLay; split <;> rfl
@[simp] theorem State.modLay_peerMem (s : State) (c : CtxId) (l : LaySlot) (f : Lay → Lay) : (s.modLay c l f).peerMem = s.peerMem := by unfold State.modLay; split <;> rfl
@[simp] theorem State.modLay_dir (s : State) (c : CtxId) (l : LaySlot) (f : Lay → Lay) : (s.modLay c l f).dir = s.dir := by unfold State.modLay; split <;> rfl
@[simp] theorem State.modLay_reqs (s : State) (c : CtxId) (l : LaySlot) (f : Lay → Lay) : (s.modLay c l f).reqs = s.reqs := by unfold State.modLay; split <;> rfl
@[simp] theorem State.modLay_nextId (s : State) (c : CtxId) (l : LaySlot) (f : Lay → Lay) : (s.modLay c l f).nextId = s.nextId := by unfold State.modLay; split <;> rfl
@[simp] theorem State.modLay_tlb (s : State) (c : CtxId) (l : LaySlot) (f : Lay → Lay) : (s.modLay c l f).tlb = s.tlb := by unfold State.modLay; split <;> rfl
@[simp] theorem State.modLay_chans (s : State) (c : CtxId) (l : LaySlot) (f : Lay → Lay) : (s.modLay c l f).chans = s.chans := by unfold State.modLay; split <;> rfl
@[simp] theorem State.modLay_chanAsks (s : State) (c : CtxId) (l : LaySlot) (f : Lay → Lay) : (s.modLay c l f).chanAsks = s.chanAsks := by unfold State.modLay; split <;> rfl
@[simp] theorem State.modLay_chanTurn (s : State) (c : CtxId) (l : LaySlot) (f : Lay → Lay) : (s.modLay c l f).chanTurn = s.chanTurn := by unfold State.modLay; split <;> rfl
@[simp] theorem State.modLay_outside (s : State) (c : CtxId) (l : LaySlot) (f : Lay → Lay) : (s.modLay c l f).outside = s.outside := by unfold State.modLay; split <;> rfl
@[simp] theorem State.modLay_jobs (s : State) (c : CtxId) (l : LaySlot) (f : Lay → Lay) : (s.modLay c l f).jobs = s.jobs := by unfold State.modLay; split <;> rfl
@[simp] theorem State.modLay_lastPos (s : State) (c : CtxId) (l : LaySlot) (f : Lay → Lay) : (s.modLay c l f).lastPos = s.lastPos := by unfold State.modLay; split <;> rfl
@[simp] theorem State.modLay_issued (s : State) (c : CtxId) (l : LaySlot) (f : Lay → Lay) : (s.modLay c l f).issued = s.issued := by unfold State.modLay; split <;> rfl
@[simp] theorem State.modLay_log (s : State) (c : CtxId) (l : LaySlot) (f : Lay → Lay) : (s.modLay c l f).log = s.log := by unfold State.modLay; split <;> rfl
@[simp] theorem State.modLay_service (s : State) (c : CtxId) (l : LaySlot) (f : Lay → Lay) : (s.modLay c l f).service = s.service := by unfold State.modLay; split <;> rfl
@[simp] theorem State.modLay_secure (s : State) (c : CtxId) (l : LaySlot) (f : Lay → Lay) : (s.modLay c l f).secure = s.secure := by unfold State.modLay; split <;> rfl
@[simp] theorem State.modLay_links (s : State) (c : CtxId) (l : LaySlot) (f : Lay → Lay) : (s.modLay c l f).links = s.links := by unfold State.modLay; split <;> rfl
@[simp] theorem State.modLay_upkeep (s : State) (c : CtxId) (l : LaySlot) (f : Lay → Lay) : (s.modLay c l f).upkeep = s.upkeep := by unfold State.modLay; split <;> rfl
@[simp] theorem State.modLay_cur (s : State) (c : CtxId) (l : LaySlot) (f : Lay → Lay) : (s.modLay c l f).cur = s.cur := by unfold State.modLay; split <;> rfl
@[simp] theorem State.modLay_sched (s : State) (c : CtxId) (l : LaySlot) (f : Lay → Lay) : (s.modLay c l f).sched = s.sched := by unfold State.modLay; split <;> rfl
@[simp] theorem State.modLay_free (s : State) (c : CtxId) (l : LaySlot) (f : Lay → Lay) : (s.modLay c l f).free = s.free := by unfold State.modLay; split <;> rfl

/-! ### modStation -/

@[simp] theorem State.modStation_cyc (s : State) (p : Place) (f : Station → Station) : (s.modStation p f).cyc = s.cyc := by simp [State.modStation]
@[simp] theorem State.modStation_half (s : State) (p : Place) (f : Station → Station) : (s.modStation p f).half = s.half := by simp [State.modStation]
@[simp] theorem State.modStation_qage (s : State) (p : Place) (f : Station → Station) : (s.modStation p f).qage = s.qage := by simp [State.modStation]
@[simp] theorem State.modStation_issage (s : State) (p : Place) (f : Station → Station) : (s.modStation p f).issage = s.issage := by simp [State.modStation]
@[simp] theorem State.modStation_qageNow (s : State) (p : Place) (f : Station → Station) : (s.modStation p f).qageNow = s.qageNow := by simp [State.modStation]
@[simp] theorem State.modStation_issageNow (s : State) (p : Place) (f : Station → Station) : (s.modStation p f).issageNow = s.issageNow := by simp [State.modStation]
@[simp] theorem State.modStation_dispatched (s : State) (p : Place) (f : Station → Station) : (s.modStation p f).dispatched = s.dispatched := by simp [State.modStation]
@[simp] theorem State.modStation_hbm (s : State) (p : Place) (f : Station → Station) : (s.modStation p f).hbm = s.hbm := by simp [State.modStation]
@[simp] theorem State.modStation_hbmPoison (s : State) (p : Place) (f : Station → Station) : (s.modStation p f).hbmPoison = s.hbmPoison := by simp [State.modStation]
@[simp] theorem State.modStation_hostMem (s : State) (p : Place) (f : Station → Station) : (s.modStation p f).hostMem = s.hostMem := by simp [State.modStation]
@[simp] theorem State.modStation_peerMem (s : State) (p : Place) (f : Station → Station) : (s.modStation p f).peerMem = s.peerMem := by simp [State.modStation]
@[simp] theorem State.modStation_dir (s : State) (p : Place) (f : Station → Station) : (s.modStation p f).dir = s.dir := by simp [State.modStation]
@[simp] theorem State.modStation_reqs (s : State) (p : Place) (f : Station → Station) : (s.modStation p f).reqs = s.reqs := by simp [State.modStation]
@[simp] theorem State.modStation_nextId (s : State) (p : Place) (f : Station → Station) : (s.modStation p f).nextId = s.nextId := by simp [State.modStation]
@[simp] theorem State.modStation_tlb (s : State) (p : Place) (f : Station → Station) : (s.modStation p f).tlb = s.tlb := by simp [State.modStation]
@[simp] theorem State.modStation_chans (s : State) (p : Place) (f : Station → Station) : (s.modStation p f).chans = s.chans := by simp [State.modStation]
@[simp] theorem State.modStation_chanAsks (s : State) (p : Place) (f : Station → Station) : (s.modStation p f).chanAsks = s.chanAsks := by simp [State.modStation]
@[simp] theorem State.modStation_chanTurn (s : State) (p : Place) (f : Station → Station) : (s.modStation p f).chanTurn = s.chanTurn := by simp [State.modStation]
@[simp] theorem State.modStation_outside (s : State) (p : Place) (f : Station → Station) : (s.modStation p f).outside = s.outside := by simp [State.modStation]
@[simp] theorem State.modStation_jobs (s : State) (p : Place) (f : Station → Station) : (s.modStation p f).jobs = s.jobs := by simp [State.modStation]
@[simp] theorem State.modStation_lastPos (s : State) (p : Place) (f : Station → Station) : (s.modStation p f).lastPos = s.lastPos := by simp [State.modStation]
@[simp] theorem State.modStation_issued (s : State) (p : Place) (f : Station → Station) : (s.modStation p f).issued = s.issued := by simp [State.modStation]
@[simp] theorem State.modStation_log (s : State) (p : Place) (f : Station → Station) : (s.modStation p f).log = s.log := by simp [State.modStation]
@[simp] theorem State.modStation_service (s : State) (p : Place) (f : Station → Station) : (s.modStation p f).service = s.service := by simp [State.modStation]
@[simp] theorem State.modStation_secure (s : State) (p : Place) (f : Station → Station) : (s.modStation p f).secure = s.secure := by simp [State.modStation]
@[simp] theorem State.modStation_links (s : State) (p : Place) (f : Station → Station) : (s.modStation p f).links = s.links := by simp [State.modStation]
@[simp] theorem State.modStation_upkeep (s : State) (p : Place) (f : Station → Station) : (s.modStation p f).upkeep = s.upkeep := by simp [State.modStation]
@[simp] theorem State.modStation_cur (s : State) (p : Place) (f : Station → Station) : (s.modStation p f).cur = s.cur := by simp [State.modStation]
@[simp] theorem State.modStation_sched (s : State) (p : Place) (f : Station → Station) : (s.modStation p f).sched = s.sched := by simp [State.modStation]
@[simp] theorem State.modStation_free (s : State) (p : Place) (f : Station → Station) : (s.modStation p f).free = s.free := by simp [State.modStation]

/-! ### beginEnd -/

@[simp] theorem State.beginEnd_cyc (s : State) (c : CtxId) (kill : Bool) (thread : Byte) (value : Word) : (s.beginEnd c kill thread value).cyc = s.cyc := by simp only [State.beginEnd]; split <;> rfl
@[simp] theorem State.beginEnd_half (s : State) (c : CtxId) (kill : Bool) (thread : Byte) (value : Word) : (s.beginEnd c kill thread value).half = s.half := by simp only [State.beginEnd]; split <;> rfl
@[simp] theorem State.beginEnd_qage (s : State) (c : CtxId) (kill : Bool) (thread : Byte) (value : Word) : (s.beginEnd c kill thread value).qage = s.qage := by simp only [State.beginEnd]; split <;> rfl
@[simp] theorem State.beginEnd_issage (s : State) (c : CtxId) (kill : Bool) (thread : Byte) (value : Word) : (s.beginEnd c kill thread value).issage = s.issage := by simp only [State.beginEnd]; split <;> rfl
@[simp] theorem State.beginEnd_qageNow (s : State) (c : CtxId) (kill : Bool) (thread : Byte) (value : Word) : (s.beginEnd c kill thread value).qageNow = s.qageNow := by simp only [State.beginEnd]; split <;> rfl
@[simp] theorem State.beginEnd_issageNow (s : State) (c : CtxId) (kill : Bool) (thread : Byte) (value : Word) : (s.beginEnd c kill thread value).issageNow = s.issageNow := by simp only [State.beginEnd]; split <;> rfl
@[simp] theorem State.beginEnd_dispatched (s : State) (c : CtxId) (kill : Bool) (thread : Byte) (value : Word) : (s.beginEnd c kill thread value).dispatched = s.dispatched := by simp only [State.beginEnd]; split <;> rfl
@[simp] theorem State.beginEnd_hbm (s : State) (c : CtxId) (kill : Bool) (thread : Byte) (value : Word) : (s.beginEnd c kill thread value).hbm = s.hbm := by simp only [State.beginEnd]; split <;> rfl
@[simp] theorem State.beginEnd_hbmPoison (s : State) (c : CtxId) (kill : Bool) (thread : Byte) (value : Word) : (s.beginEnd c kill thread value).hbmPoison = s.hbmPoison := by simp only [State.beginEnd]; split <;> rfl
@[simp] theorem State.beginEnd_hostMem (s : State) (c : CtxId) (kill : Bool) (thread : Byte) (value : Word) : (s.beginEnd c kill thread value).hostMem = s.hostMem := by simp only [State.beginEnd]; split <;> rfl
@[simp] theorem State.beginEnd_peerMem (s : State) (c : CtxId) (kill : Bool) (thread : Byte) (value : Word) : (s.beginEnd c kill thread value).peerMem = s.peerMem := by simp only [State.beginEnd]; split <;> rfl
@[simp] theorem State.beginEnd_dir (s : State) (c : CtxId) (kill : Bool) (thread : Byte) (value : Word) : (s.beginEnd c kill thread value).dir = s.dir := by simp only [State.beginEnd]; split <;> rfl
@[simp] theorem State.beginEnd_reqs (s : State) (c : CtxId) (kill : Bool) (thread : Byte) (value : Word) : (s.beginEnd c kill thread value).reqs = s.reqs := by simp only [State.beginEnd]; split <;> rfl
@[simp] theorem State.beginEnd_nextId (s : State) (c : CtxId) (kill : Bool) (thread : Byte) (value : Word) : (s.beginEnd c kill thread value).nextId = s.nextId := by simp only [State.beginEnd]; split <;> rfl
@[simp] theorem State.beginEnd_tlb (s : State) (c : CtxId) (kill : Bool) (thread : Byte) (value : Word) : (s.beginEnd c kill thread value).tlb = s.tlb := by simp only [State.beginEnd]; split <;> rfl
@[simp] theorem State.beginEnd_chans (s : State) (c : CtxId) (kill : Bool) (thread : Byte) (value : Word) : (s.beginEnd c kill thread value).chans = s.chans := by simp only [State.beginEnd]; split <;> rfl
@[simp] theorem State.beginEnd_chanAsks (s : State) (c : CtxId) (kill : Bool) (thread : Byte) (value : Word) : (s.beginEnd c kill thread value).chanAsks = s.chanAsks := by simp only [State.beginEnd]; split <;> rfl
@[simp] theorem State.beginEnd_chanTurn (s : State) (c : CtxId) (kill : Bool) (thread : Byte) (value : Word) : (s.beginEnd c kill thread value).chanTurn = s.chanTurn := by simp only [State.beginEnd]; split <;> rfl
@[simp] theorem State.beginEnd_outside (s : State) (c : CtxId) (kill : Bool) (thread : Byte) (value : Word) : (s.beginEnd c kill thread value).outside = s.outside := by simp only [State.beginEnd]; split <;> rfl
@[simp] theorem State.beginEnd_lastPos (s : State) (c : CtxId) (kill : Bool) (thread : Byte) (value : Word) : (s.beginEnd c kill thread value).lastPos = s.lastPos := by simp only [State.beginEnd]; split <;> rfl
@[simp] theorem State.beginEnd_issued (s : State) (c : CtxId) (kill : Bool) (thread : Byte) (value : Word) : (s.beginEnd c kill thread value).issued = s.issued := by simp only [State.beginEnd]; split <;> rfl
@[simp] theorem State.beginEnd_log (s : State) (c : CtxId) (kill : Bool) (thread : Byte) (value : Word) : (s.beginEnd c kill thread value).log = s.log := by simp only [State.beginEnd]; split <;> rfl
@[simp] theorem State.beginEnd_service (s : State) (c : CtxId) (kill : Bool) (thread : Byte) (value : Word) : (s.beginEnd c kill thread value).service = s.service := by simp only [State.beginEnd]; split <;> rfl
@[simp] theorem State.beginEnd_secure (s : State) (c : CtxId) (kill : Bool) (thread : Byte) (value : Word) : (s.beginEnd c kill thread value).secure = s.secure := by simp only [State.beginEnd]; split <;> rfl
@[simp] theorem State.beginEnd_links (s : State) (c : CtxId) (kill : Bool) (thread : Byte) (value : Word) : (s.beginEnd c kill thread value).links = s.links := by simp only [State.beginEnd]; split <;> rfl
@[simp] theorem State.beginEnd_upkeep (s : State) (c : CtxId) (kill : Bool) (thread : Byte) (value : Word) : (s.beginEnd c kill thread value).upkeep = s.upkeep := by simp only [State.beginEnd]; split <;> rfl
@[simp] theorem State.beginEnd_cur (s : State) (c : CtxId) (kill : Bool) (thread : Byte) (value : Word) : (s.beginEnd c kill thread value).cur = s.cur := by simp only [State.beginEnd]; split <;> rfl
@[simp] theorem State.beginEnd_sched (s : State) (c : CtxId) (kill : Bool) (thread : Byte) (value : Word) : (s.beginEnd c kill thread value).sched = s.sched := by simp only [State.beginEnd]; split <;> rfl
@[simp] theorem State.beginEnd_free (s : State) (c : CtxId) (kill : Bool) (thread : Byte) (value : Word) : (s.beginEnd c kill thread value).free = s.free := by simp only [State.beginEnd]; split <;> rfl

/-! ### beginKill -/

@[simp] theorem State.beginKill_cyc (s : State) (c : CtxId) : (s.beginKill c).cyc = s.cyc := by simp [State.beginKill]
@[simp] theorem State.beginKill_half (s : State) (c : CtxId) : (s.beginKill c).half = s.half := by simp [State.beginKill]
@[simp] theorem State.beginKill_qage (s : State) (c : CtxId) : (s.beginKill c).qage = s.qage := by simp [State.beginKill]
@[simp] theorem State.beginKill_issage (s : State) (c : CtxId) : (s.beginKill c).issage = s.issage := by simp [State.beginKill]
@[simp] theorem State.beginKill_qageNow (s : State) (c : CtxId) : (s.beginKill c).qageNow = s.qageNow := by simp [State.beginKill]
@[simp] theorem State.beginKill_issageNow (s : State) (c : CtxId) : (s.beginKill c).issageNow = s.issageNow := by simp [State.beginKill]
@[simp] theorem State.beginKill_dispatched (s : State) (c : CtxId) : (s.beginKill c).dispatched = s.dispatched := by simp [State.beginKill]
@[simp] theorem State.beginKill_hbm (s : State) (c : CtxId) : (s.beginKill c).hbm = s.hbm := by simp [State.beginKill]
@[simp] theorem State.beginKill_hbmPoison (s : State) (c : CtxId) : (s.beginKill c).hbmPoison = s.hbmPoison := by simp [State.beginKill]
@[simp] theorem State.beginKill_hostMem (s : State) (c : CtxId) : (s.beginKill c).hostMem = s.hostMem := by simp [State.beginKill]
@[simp] theorem State.beginKill_peerMem (s : State) (c : CtxId) : (s.beginKill c).peerMem = s.peerMem := by simp [State.beginKill]
@[simp] theorem State.beginKill_dir (s : State) (c : CtxId) : (s.beginKill c).dir = s.dir := by simp [State.beginKill]
@[simp] theorem State.beginKill_reqs (s : State) (c : CtxId) : (s.beginKill c).reqs = s.reqs := by simp [State.beginKill]
@[simp] theorem State.beginKill_nextId (s : State) (c : CtxId) : (s.beginKill c).nextId = s.nextId := by simp [State.beginKill]
@[simp] theorem State.beginKill_tlb (s : State) (c : CtxId) : (s.beginKill c).tlb = s.tlb := by simp [State.beginKill]
@[simp] theorem State.beginKill_chans (s : State) (c : CtxId) : (s.beginKill c).chans = s.chans := by simp [State.beginKill]
@[simp] theorem State.beginKill_chanAsks (s : State) (c : CtxId) : (s.beginKill c).chanAsks = s.chanAsks := by simp [State.beginKill]
@[simp] theorem State.beginKill_chanTurn (s : State) (c : CtxId) : (s.beginKill c).chanTurn = s.chanTurn := by simp [State.beginKill]
@[simp] theorem State.beginKill_outside (s : State) (c : CtxId) : (s.beginKill c).outside = s.outside := by simp [State.beginKill]
@[simp] theorem State.beginKill_lastPos (s : State) (c : CtxId) : (s.beginKill c).lastPos = s.lastPos := by simp [State.beginKill]
@[simp] theorem State.beginKill_issued (s : State) (c : CtxId) : (s.beginKill c).issued = s.issued := by simp [State.beginKill]
@[simp] theorem State.beginKill_log (s : State) (c : CtxId) : (s.beginKill c).log = s.log := by simp [State.beginKill]
@[simp] theorem State.beginKill_service (s : State) (c : CtxId) : (s.beginKill c).service = s.service := by simp [State.beginKill]
@[simp] theorem State.beginKill_secure (s : State) (c : CtxId) : (s.beginKill c).secure = s.secure := by simp [State.beginKill]
@[simp] theorem State.beginKill_links (s : State) (c : CtxId) : (s.beginKill c).links = s.links := by simp [State.beginKill]
@[simp] theorem State.beginKill_upkeep (s : State) (c : CtxId) : (s.beginKill c).upkeep = s.upkeep := by simp [State.beginKill]
@[simp] theorem State.beginKill_cur (s : State) (c : CtxId) : (s.beginKill c).cur = s.cur := by simp [State.beginKill]
@[simp] theorem State.beginKill_sched (s : State) (c : CtxId) : (s.beginKill c).sched = s.sched := by simp [State.beginKill]
@[simp] theorem State.beginKill_free (s : State) (c : CtxId) : (s.beginKill c).free = s.free := by simp [State.beginKill]

/-! ### takeTrap -/

@[simp] theorem State.takeTrap_cyc (s : State) (c : CtxId) (t : Tid) (e k v : DWord) : (s.takeTrap c t e k v).cyc = s.cyc := by simp only [State.takeTrap]; split <;> simp
@[simp] theorem State.takeTrap_half (s : State) (c : CtxId) (t : Tid) (e k v : DWord) : (s.takeTrap c t e k v).half = s.half := by simp only [State.takeTrap]; split <;> simp
@[simp] theorem State.takeTrap_qage (s : State) (c : CtxId) (t : Tid) (e k v : DWord) : (s.takeTrap c t e k v).qage = s.qage := by simp only [State.takeTrap]; split <;> simp
@[simp] theorem State.takeTrap_issage (s : State) (c : CtxId) (t : Tid) (e k v : DWord) : (s.takeTrap c t e k v).issage = s.issage := by simp only [State.takeTrap]; split <;> simp
@[simp] theorem State.takeTrap_qageNow (s : State) (c : CtxId) (t : Tid) (e k v : DWord) : (s.takeTrap c t e k v).qageNow = s.qageNow := by simp only [State.takeTrap]; split <;> simp
@[simp] theorem State.takeTrap_issageNow (s : State) (c : CtxId) (t : Tid) (e k v : DWord) : (s.takeTrap c t e k v).issageNow = s.issageNow := by simp only [State.takeTrap]; split <;> simp
@[simp] theorem State.takeTrap_dispatched (s : State) (c : CtxId) (t : Tid) (e k v : DWord) : (s.takeTrap c t e k v).dispatched = s.dispatched := by simp only [State.takeTrap]; split <;> simp
@[simp] theorem State.takeTrap_hbm (s : State) (c : CtxId) (t : Tid) (e k v : DWord) : (s.takeTrap c t e k v).hbm = s.hbm := by simp only [State.takeTrap]; split <;> simp
@[simp] theorem State.takeTrap_hbmPoison (s : State) (c : CtxId) (t : Tid) (e k v : DWord) : (s.takeTrap c t e k v).hbmPoison = s.hbmPoison := by simp only [State.takeTrap]; split <;> simp
@[simp] theorem State.takeTrap_hostMem (s : State) (c : CtxId) (t : Tid) (e k v : DWord) : (s.takeTrap c t e k v).hostMem = s.hostMem := by simp only [State.takeTrap]; split <;> simp
@[simp] theorem State.takeTrap_peerMem (s : State) (c : CtxId) (t : Tid) (e k v : DWord) : (s.takeTrap c t e k v).peerMem = s.peerMem := by simp only [State.takeTrap]; split <;> simp
@[simp] theorem State.takeTrap_dir (s : State) (c : CtxId) (t : Tid) (e k v : DWord) : (s.takeTrap c t e k v).dir = s.dir := by simp only [State.takeTrap]; split <;> simp
@[simp] theorem State.takeTrap_reqs (s : State) (c : CtxId) (t : Tid) (e k v : DWord) : (s.takeTrap c t e k v).reqs = s.reqs := by simp only [State.takeTrap]; split <;> simp
@[simp] theorem State.takeTrap_nextId (s : State) (c : CtxId) (t : Tid) (e k v : DWord) : (s.takeTrap c t e k v).nextId = s.nextId := by simp only [State.takeTrap]; split <;> simp
@[simp] theorem State.takeTrap_tlb (s : State) (c : CtxId) (t : Tid) (e k v : DWord) : (s.takeTrap c t e k v).tlb = s.tlb := by simp only [State.takeTrap]; split <;> simp
@[simp] theorem State.takeTrap_chans (s : State) (c : CtxId) (t : Tid) (e k v : DWord) : (s.takeTrap c t e k v).chans = s.chans := by simp only [State.takeTrap]; split <;> simp
@[simp] theorem State.takeTrap_chanAsks (s : State) (c : CtxId) (t : Tid) (e k v : DWord) : (s.takeTrap c t e k v).chanAsks = s.chanAsks := by simp only [State.takeTrap]; split <;> simp
@[simp] theorem State.takeTrap_chanTurn (s : State) (c : CtxId) (t : Tid) (e k v : DWord) : (s.takeTrap c t e k v).chanTurn = s.chanTurn := by simp only [State.takeTrap]; split <;> simp
@[simp] theorem State.takeTrap_outside (s : State) (c : CtxId) (t : Tid) (e k v : DWord) : (s.takeTrap c t e k v).outside = s.outside := by simp only [State.takeTrap]; split <;> simp
@[simp] theorem State.takeTrap_lastPos (s : State) (c : CtxId) (t : Tid) (e k v : DWord) : (s.takeTrap c t e k v).lastPos = s.lastPos := by simp only [State.takeTrap]; split <;> simp
@[simp] theorem State.takeTrap_issued (s : State) (c : CtxId) (t : Tid) (e k v : DWord) : (s.takeTrap c t e k v).issued = s.issued := by simp only [State.takeTrap]; split <;> simp
@[simp] theorem State.takeTrap_log (s : State) (c : CtxId) (t : Tid) (e k v : DWord) : (s.takeTrap c t e k v).log = s.log := by simp only [State.takeTrap]; split <;> simp
@[simp] theorem State.takeTrap_service (s : State) (c : CtxId) (t : Tid) (e k v : DWord) : (s.takeTrap c t e k v).service = s.service := by simp only [State.takeTrap]; split <;> simp
@[simp] theorem State.takeTrap_secure (s : State) (c : CtxId) (t : Tid) (e k v : DWord) : (s.takeTrap c t e k v).secure = s.secure := by simp only [State.takeTrap]; split <;> simp
@[simp] theorem State.takeTrap_links (s : State) (c : CtxId) (t : Tid) (e k v : DWord) : (s.takeTrap c t e k v).links = s.links := by simp only [State.takeTrap]; split <;> simp
@[simp] theorem State.takeTrap_upkeep (s : State) (c : CtxId) (t : Tid) (e k v : DWord) : (s.takeTrap c t e k v).upkeep = s.upkeep := by simp only [State.takeTrap]; split <;> simp
@[simp] theorem State.takeTrap_cur (s : State) (c : CtxId) (t : Tid) (e k v : DWord) : (s.takeTrap c t e k v).cur = s.cur := by simp only [State.takeTrap]; split <;> simp
@[simp] theorem State.takeTrap_sched (s : State) (c : CtxId) (t : Tid) (e k v : DWord) : (s.takeTrap c t e k v).sched = s.sched := by simp only [State.takeTrap]; split <;> simp
@[simp] theorem State.takeTrap_free (s : State) (c : CtxId) (t : Tid) (e k v : DWord) : (s.takeTrap c t e k v).free = s.free := by simp only [State.takeTrap]; split <;> simp

/-! ### trapAt -/

@[simp] theorem State.trapAt_cyc (s : State) (c : CtxId) (t : Tid) (k v : Nat) : (s.trapAt c t k v).cyc = s.cyc := by simp [State.trapAt]
@[simp] theorem State.trapAt_half (s : State) (c : CtxId) (t : Tid) (k v : Nat) : (s.trapAt c t k v).half = s.half := by simp [State.trapAt]
@[simp] theorem State.trapAt_qage (s : State) (c : CtxId) (t : Tid) (k v : Nat) : (s.trapAt c t k v).qage = s.qage := by simp [State.trapAt]
@[simp] theorem State.trapAt_issage (s : State) (c : CtxId) (t : Tid) (k v : Nat) : (s.trapAt c t k v).issage = s.issage := by simp [State.trapAt]
@[simp] theorem State.trapAt_qageNow (s : State) (c : CtxId) (t : Tid) (k v : Nat) : (s.trapAt c t k v).qageNow = s.qageNow := by simp [State.trapAt]
@[simp] theorem State.trapAt_issageNow (s : State) (c : CtxId) (t : Tid) (k v : Nat) : (s.trapAt c t k v).issageNow = s.issageNow := by simp [State.trapAt]
@[simp] theorem State.trapAt_dispatched (s : State) (c : CtxId) (t : Tid) (k v : Nat) : (s.trapAt c t k v).dispatched = s.dispatched := by simp [State.trapAt]
@[simp] theorem State.trapAt_hbm (s : State) (c : CtxId) (t : Tid) (k v : Nat) : (s.trapAt c t k v).hbm = s.hbm := by simp [State.trapAt]
@[simp] theorem State.trapAt_hbmPoison (s : State) (c : CtxId) (t : Tid) (k v : Nat) : (s.trapAt c t k v).hbmPoison = s.hbmPoison := by simp [State.trapAt]
@[simp] theorem State.trapAt_hostMem (s : State) (c : CtxId) (t : Tid) (k v : Nat) : (s.trapAt c t k v).hostMem = s.hostMem := by simp [State.trapAt]
@[simp] theorem State.trapAt_peerMem (s : State) (c : CtxId) (t : Tid) (k v : Nat) : (s.trapAt c t k v).peerMem = s.peerMem := by simp [State.trapAt]
@[simp] theorem State.trapAt_dir (s : State) (c : CtxId) (t : Tid) (k v : Nat) : (s.trapAt c t k v).dir = s.dir := by simp [State.trapAt]
@[simp] theorem State.trapAt_reqs (s : State) (c : CtxId) (t : Tid) (k v : Nat) : (s.trapAt c t k v).reqs = s.reqs := by simp [State.trapAt]
@[simp] theorem State.trapAt_nextId (s : State) (c : CtxId) (t : Tid) (k v : Nat) : (s.trapAt c t k v).nextId = s.nextId := by simp [State.trapAt]
@[simp] theorem State.trapAt_tlb (s : State) (c : CtxId) (t : Tid) (k v : Nat) : (s.trapAt c t k v).tlb = s.tlb := by simp [State.trapAt]
@[simp] theorem State.trapAt_chans (s : State) (c : CtxId) (t : Tid) (k v : Nat) : (s.trapAt c t k v).chans = s.chans := by simp [State.trapAt]
@[simp] theorem State.trapAt_chanAsks (s : State) (c : CtxId) (t : Tid) (k v : Nat) : (s.trapAt c t k v).chanAsks = s.chanAsks := by simp [State.trapAt]
@[simp] theorem State.trapAt_chanTurn (s : State) (c : CtxId) (t : Tid) (k v : Nat) : (s.trapAt c t k v).chanTurn = s.chanTurn := by simp [State.trapAt]
@[simp] theorem State.trapAt_outside (s : State) (c : CtxId) (t : Tid) (k v : Nat) : (s.trapAt c t k v).outside = s.outside := by simp [State.trapAt]
@[simp] theorem State.trapAt_lastPos (s : State) (c : CtxId) (t : Tid) (k v : Nat) : (s.trapAt c t k v).lastPos = s.lastPos := by simp [State.trapAt]
@[simp] theorem State.trapAt_issued (s : State) (c : CtxId) (t : Tid) (k v : Nat) : (s.trapAt c t k v).issued = s.issued := by simp [State.trapAt]
@[simp] theorem State.trapAt_log (s : State) (c : CtxId) (t : Tid) (k v : Nat) : (s.trapAt c t k v).log = s.log := by simp [State.trapAt]
@[simp] theorem State.trapAt_service (s : State) (c : CtxId) (t : Tid) (k v : Nat) : (s.trapAt c t k v).service = s.service := by simp [State.trapAt]
@[simp] theorem State.trapAt_secure (s : State) (c : CtxId) (t : Tid) (k v : Nat) : (s.trapAt c t k v).secure = s.secure := by simp [State.trapAt]
@[simp] theorem State.trapAt_links (s : State) (c : CtxId) (t : Tid) (k v : Nat) : (s.trapAt c t k v).links = s.links := by simp [State.trapAt]
@[simp] theorem State.trapAt_upkeep (s : State) (c : CtxId) (t : Tid) (k v : Nat) : (s.trapAt c t k v).upkeep = s.upkeep := by simp [State.trapAt]
@[simp] theorem State.trapAt_cur (s : State) (c : CtxId) (t : Tid) (k v : Nat) : (s.trapAt c t k v).cur = s.cur := by simp [State.trapAt]
@[simp] theorem State.trapAt_sched (s : State) (c : CtxId) (t : Tid) (k v : Nat) : (s.trapAt c t k v).sched = s.sched := by simp [State.trapAt]
@[simp] theorem State.trapAt_free (s : State) (c : CtxId) (t : Tid) (k v : Nat) : (s.trapAt c t k v).free = s.free := by simp [State.trapAt]

/-! ### Reading back -/

@[simp] theorem State.ctx_setCtx_same (s : State) (c : CtxId) (x : Ctx) : (s.setCtx c x).ctx c = x := by
  simp [State.ctx, State.setCtx]

theorem State.ctx_setCtx_other (s : State) (c d : CtxId) (x : Ctx) (h : c ≠ d) : (s.setCtx c x).ctx d = s.ctx d := by
  have : c.val ≠ d.val := fun e => h (Fin.ext e)
  simp [State.ctx, State.setCtx, this]

@[simp] theorem State.ctx_modCtx_same (s : State) (c : CtxId) (f : Ctx → Ctx) : (s.modCtx c f).ctx c = f (s.ctx c) := by
  simp [State.modCtx]

theorem State.ctx_modCtx_other (s : State) (c d : CtxId) (f : Ctx → Ctx) (h : c ≠ d) : (s.modCtx c f).ctx d = s.ctx d := by
  simp [State.modCtx, State.ctx_setCtx_other _ _ _ _ h]

@[simp] theorem State.thread_setThread_same (s : State) (c : CtxId) (t : Tid) (x : Thread) :
    (s.setThread c t x).thread c t = x := by
  simp [State.setThread, State.thread, Ctx.thread]

theorem State.thread_setThread_other (s : State) (c : CtxId) (t u : Tid) (x : Thread) (h : t ≠ u) :
    (s.setThread c t x).thread c u = s.thread c u := by
  have : t.val ≠ u.val := fun e => h (Fin.ext e)
  simp [State.setThread, State.thread, Ctx.thread, this]

@[simp] theorem State.thread_modThread_same (s : State) (c : CtxId) (t : Tid) (f : Thread → Thread) :
    (s.modThread c t f).thread c t = f (s.thread c t) := by
  simp [State.modThread]

theorem State.thread_modThread_other (s : State) (c : CtxId) (t u : Tid) (f : Thread → Thread) (h : t ≠ u) :
    (s.modThread c t f).thread c u = s.thread c u := by
  simp [State.modThread, State.thread_setThread_other _ _ _ _ _ h]

@[simp] theorem State.lay?_setLay_same (s : State) (c : CtxId) (l : LaySlot) (x : Option Lay) :
    (s.setLay c l x).lay? c l = x := by
  simp [State.setLay, State.lay?]

@[simp] theorem State.lay?_modLay_same (s : State) (c : CtxId) (l : LaySlot) (f : Lay → Lay) :
    (s.modLay c l f).lay? c l = (s.lay? c l).map f := by
  unfold State.modLay
  cases h : s.lay? c l <;> simp [h]

end Sys2Proof.Machine
end

