-- ==== Sys2Proof/Laws/Ops.lean ====
section
/-!
SUPPORT. What the shared operations can do, once for each: the actor of an instruction, taking a trap and returning from
one, the lane instructions, access to far memory.
-/
namespace Sys2Proof.Machine

/-! ### The actor -/

/-- In a thread, a thread's instruction is its effect. -/
theorem atThread_thread {s : State} {c : CtxId} {t : Tid} (h : s.cur = .thread c t) (f : CtxId → Tid → State) :
    atThread s f = .next (f c t) := by simp [atThread, h]

/-- In a thread, an instruction on a slot that nothing holds back is its effect. -/
theorem onSlot_thread {s : State} {c : CtxId} {t : Tid} (h : s.cur = .thread c t) (ls : BitVec 3)
    (g : s.slotHeld c t (Fin.ofNat 8 ls.toNat) = false) (f : CtxId → Tid → State) : onSlot ls s f = .next (f c t) := by
  unfold onSlot
  rw [atThread_thread h, g]
  rfl

/-- In a station, an instruction whose predicate holds is its effect. -/
theorem atStation_station {s : State} {p : Place} {f : Frame} (h : s.cur = .station p f) (ok : Frame → Bool)
    (g : Place → Frame → State) (k : ok f = true) : atStation s ok g = .next (g p f) := by simp [atStation, h, k]

/-- In a station, an instruction whose predicate fails only goes on. -/
theorem atStation_skipped {s : State} {p : Place} {f : Frame} (h : s.cur = .station p f) (ok : Frame → Bool)
    (g : Place → Frame → State) (k : ok f = false) : atStation s ok g = .next (s.nextIp p (s.run p f)) := by
  simp [atStation, h, k]

/-- A lane instruction in a station. -/
theorem runLane_station {s : State} {p : Place} {f : Frame} (h : s.cur = .station p f) (o : LForm) (opt : LaneOpt)
    (g : LaneIn → LaneOut) : runLane o opt g s = .next (runLaneS o opt g s p f) := by simp [runLane, h]

/-- A lane instruction in a thread. -/
theorem runLane_thread {s : State} {c : CtxId} {t : Tid} (h : s.cur = .thread c t) (o : LForm) (opt : LaneOpt)
    (g : LaneIn → LaneOut) : runLane o opt g s = .next (runLaneT o opt g s c t) := by simp [runLane, h]

/-! ### Traps -/

/-- Taking a trap either ends the context, or saves and enters the handler. -/
theorem takeTrap_cases (s : State) (c : CtxId) (t : Tid) (e k v : DWord) :
    (((s.ctx c).tvec = 0 ∨ (s.thread c t).inTrap = true) ∧ s.takeTrap c t e k v = s.beginKill c) ∨
    ((s.ctx c).tvec ≠ 0 ∧ (s.thread c t).inTrap = false ∧
      s.takeTrap c t e k v = s.modThread c t fun th =>
        { th.ended with epc := e, tcause := k, tval := v, inTrap := true, pc := (s.ctx c).tvec, halted := false }) := by
  by_cases a : ((s.ctx c).tvec = 0 ∨ (s.thread c t).inTrap = true)
  · exact .inl ⟨a, if_pos (by rw [Bool.or_eq_true, decide_eq_true_eq]; exact a)⟩
  · refine .inr ⟨fun h => a (.inl h), by simpa using fun h => a (.inr h), if_neg ?_⟩
    rw [Bool.or_eq_true, decide_eq_true_eq]
    exact a

/-! ### Far memory -/

/-- Bytes written to physical pieces keep HBM canonical. -/
theorem memWf_writePieces : (ps : List (Nat × Nat)) → (bs : List Byte) → (s : State) → memWf s.hbm = true →
    memWf (s.writePieces ps bs).hbm = true
  | [], _, _, h => h
  | (a, n) :: ps, bs, s, h => memWf_writePieces ps (bs.drop n) (s.hbmWrite a (bs.take n)) (memWf_hbmWrite s a _ h)

/-! ### Writes of the device's own -/

/-- One unit of such a write changes HBM, its poison marks and the line states alone, and keeps HBM canonical. -/
theorem jobUnit_frame (s : State) (u : Nat × List Byte × Bool) :
    { s.jobUnit u with hbm := s.hbm, hbmPoison := s.hbmPoison, dir := s.dir } = s ∧
      (memWf s.hbm = true → memWf (s.jobUnit u).hbm = true) := by
  have h : memWf s.hbm = true → memWf ((s.dirtyLines u.1 u.2.1.length).hbmWrite u.1 u.2.1).hbm = true :=
    fun w => memWf_hbmWrite _ u.1 u.2.1 w
  unfold State.jobUnit
  refine ⟨?_, fun w => ?_⟩
  · simp only [State.dirtyLines, State.hbmWrite]
    split <;> split <;> rfl
  · dsimp only
    split
    · exact h w
    · exact h w

/-- Units performed in turn do the same. -/
theorem jobUnits_frame (us : List (Nat × List Byte × Bool)) (s : State) :
    { us.foldl State.jobUnit s with hbm := s.hbm, hbmPoison := s.hbmPoison, dir := s.dir } = s ∧
      (memWf s.hbm = true → memWf (us.foldl State.jobUnit s).hbm = true) := by
  induction us generalizing s with
  | nil => exact ⟨rfl, id⟩
  | cons u us ih =>
    obtain ⟨a, b⟩ := jobUnit_frame s u
    obtain ⟨c, d⟩ := ih (s.jobUnit u)
    refine ⟨?_, fun w => d (b w)⟩
    have e := congrArg (fun z : State => { z with hbm := s.hbm, hbmPoison := s.hbmPoison, dir := s.dir }) c
    exact e.trans a

/-- A turn of a write of the device's: it waits for a row under repair, or performs its next units, and is over with the
last; it changes HBM, the poison marks, the line states and the list of such writes alone, and keeps HBM canonical. -/
theorem jobStep_frame (s : State) (j : DevJob) :
    { (s.jobStep j).2 with hbm := s.hbm, hbmPoison := s.hbmPoison, dir := s.dir, jobs := s.jobs } = s ∧
      (memWf s.hbm = true → memWf (s.jobStep j).2.hbm = true) := by
  unfold State.jobStep
  dsimp only
  split
  · exact ⟨rfl, id⟩
  · obtain ⟨a, b⟩ := jobUnits_frame (j.todo.take (s.jobNext j).length) { s with jobs := s.jobs.filter fun k => !(k.ev == j.ev && k.part == j.part) }
    have e := congrArg (fun z : State => { z with jobs := s.jobs }) a
    split <;> exact ⟨e, b⟩

end Sys2Proof.Machine
end

