-- ==== Sys2Proof/Laws/PerInstr.lean ====
section
/-!
SUPPORT. Statements made of every instruction as syntax, one lemma per constructor.
-/
namespace Sys2Proof.Laws

/-- An instruction has a word exactly where some site runs it; an event of the device has none (R63, R82). -/
def Encoded.Statement (i : Instr) : Prop := (encode i).isSome = !(Machine.sitesOf i).isEmpty

theorem Encoded.add (o : LForm) : Encoded.Statement (.add o) := rfl
theorem Encoded.sub (o : LForm) : Encoded.Statement (.sub o) := rfl
theorem Encoded.mul (o : LForm) : Encoded.Statement (.mul o) := rfl
theorem Encoded.mulh (o : LForm) : Encoded.Statement (.mulh o) := rfl
theorem Encoded.mad (o : LForm) : Encoded.Statement (.mad o) := rfl
theorem Encoded.div (o : LForm) : Encoded.Statement (.div o) := rfl
theorem Encoded.rem (o : LForm) : Encoded.Statement (.rem o) := rfl
theorem Encoded.addc (o : LForm) : Encoded.Statement (.addc o) := rfl
theorem Encoded.and (o : LForm) : Encoded.Statement (.and o) := rfl
theorem Encoded.or (o : LForm) : Encoded.Statement (.or o) := rfl
theorem Encoded.xor (o : LForm) : Encoded.Statement (.xor o) := rfl
theorem Encoded.andn (o : LForm) : Encoded.Statement (.andn o) := rfl
theorem Encoded.not (o : LForm) : Encoded.Statement (.not o) := rfl
theorem Encoded.shl (o : LForm) : Encoded.Statement (.shl o) := rfl
theorem Encoded.shr (o : LForm) : Encoded.Statement (.shr o) := rfl
theorem Encoded.sar (o : LForm) : Encoded.Statement (.sar o) := rfl
theorem Encoded.rol (o : LForm) : Encoded.Statement (.rol o) := rfl
theorem Encoded.ror (o : LForm) : Encoded.Statement (.ror o) := rfl
theorem Encoded.clz (o : LForm) : Encoded.Statement (.clz o) := rfl
theorem Encoded.ctz (o : LForm) : Encoded.Statement (.ctz o) := rfl
theorem Encoded.popc (o : LForm) : Encoded.Statement (.popc o) := rfl
theorem Encoded.brev (o : LForm) : Encoded.Statement (.brev o) := rfl
theorem Encoded.min (o : LForm) : Encoded.Statement (.min o) := rfl
theorem Encoded.max (o : LForm) : Encoded.Statement (.max o) := rfl
theorem Encoded.abs (o : LForm) : Encoded.Statement (.abs o) := rfl
theorem Encoded.neg (o : LForm) : Encoded.Statement (.neg o) := rfl
theorem Encoded.sel (o : LForm) : Encoded.Statement (.sel o) := rfl
theorem Encoded.cmp (o : LForm) : Encoded.Statement (.cmp o) := rfl
theorem Encoded.lea (o : LForm) : Encoded.Statement (.lea o) := rfl
theorem Encoded.mov (o : LForm) : Encoded.Statement (.mov o) := rfl
theorem Encoded.bfx (o : LForm) : Encoded.Statement (.bfx o) := rfl
theorem Encoded.bfi (o : LForm) : Encoded.Statement (.bfi o) := rfl
theorem Encoded.byteperm (o : LForm) : Encoded.Statement (.byteperm o) := rfl
theorem Encoded.hash (o : LForm) : Encoded.Statement (.hash o) := rfl
theorem Encoded.cvti (o : LForm) : Encoded.Statement (.cvti o) := rfl
theorem Encoded.addImm (o : IForm) : Encoded.Statement (.addImm o) := rfl
theorem Encoded.andImm (o : IForm) : Encoded.Statement (.andImm o) := rfl
theorem Encoded.orImm (o : IForm) : Encoded.Statement (.orImm o) := rfl
theorem Encoded.xorImm (o : IForm) : Encoded.Statement (.xorImm o) := rfl
theorem Encoded.shlImm (o : IForm) : Encoded.Statement (.shlImm o) := rfl
theorem Encoded.shrImm (o : IForm) : Encoded.Statement (.shrImm o) := rfl
theorem Encoded.sarImm (o : IForm) : Encoded.Statement (.sarImm o) := rfl
theorem Encoded.cmpImm (o : IForm) : Encoded.Statement (.cmpImm o) := rfl
theorem Encoded.movi (o : IForm) : Encoded.Statement (.movi o) := rfl
theorem Encoded.fadd (o : LForm) : Encoded.Statement (.fadd o) := rfl
theorem Encoded.fsub (o : LForm) : Encoded.Statement (.fsub o) := rfl
theorem Encoded.fmul (o : LForm) : Encoded.Statement (.fmul o) := rfl
theorem Encoded.fma (o : LForm) : Encoded.Statement (.fma o) := rfl
theorem Encoded.fnma (o : LForm) : Encoded.Statement (.fnma o) := rfl
theorem Encoded.fmin (o : LForm) : Encoded.Statement (.fmin o) := rfl
theorem Encoded.fmax (o : LForm) : Encoded.Statement (.fmax o) := rfl
theorem Encoded.fabs (o : LForm) : Encoded.Statement (.fabs o) := rfl
theorem Encoded.fneg (o : LForm) : Encoded.Statement (.fneg o) := rfl
theorem Encoded.fcmp (o : LForm) : Encoded.Statement (.fcmp o) := rfl
theorem Encoded.fcvt (o : LForm) : Encoded.Statement (.fcvt o) := rfl
theorem Encoded.frnd (o : LForm) : Encoded.Statement (.frnd o) := rfl
theorem Encoded.fscale (o : LForm) : Encoded.Statement (.fscale o) := rfl
theorem Encoded.frcp (o : LForm) : Encoded.Statement (.frcp o) := rfl
theorem Encoded.frsq (o : LForm) : Encoded.Statement (.frsq o) := rfl
theorem Encoded.fsqrt (o : LForm) : Encoded.Statement (.fsqrt o) := rfl
theorem Encoded.fexp2 (o : LForm) : Encoded.Statement (.fexp2 o) := rfl
theorem Encoded.flog2 (o : LForm) : Encoded.Statement (.flog2 o) := rfl
theorem Encoded.ftanh (o : LForm) : Encoded.Statement (.ftanh o) := rfl
theorem Encoded.i2f (o : LForm) : Encoded.Statement (.i2f o) := rfl
theorem Encoded.f2i (o : LForm) : Encoded.Statement (.f2i o) := rfl
theorem Encoded.fqnt (o : LForm) : Encoded.Statement (.fqnt o) := rfl
theorem Encoded.fdq (o : LForm) : Encoded.Statement (.fdq o) := rfl
theorem Encoded.fred (o : LForm) : Encoded.Statement (.fred o) := rfl
theorem Encoded.fdot (o : LForm) : Encoded.Statement (.fdot o) := rfl
theorem Encoded.smxUpd (o : LForm) : Encoded.Statement (.smxUpd o) := rfl
theorem Encoded.smxMerge (o : LForm) : Encoded.Statement (.smxMerge o) := rfl
theorem Encoded.perm (o : LForm) : Encoded.Statement (.perm o) := rfl
theorem Encoded.shuf (o : LForm) : Encoded.Statement (.shuf o) := rfl
theorem Encoded.bcast (o : LForm) : Encoded.Statement (.bcast o) := rfl
theorem Encoded.rot (o : LForm) : Encoded.Statement (.rot o) := rfl
theorem Encoded.zip (o : LForm) : Encoded.Statement (.zip o) := rfl
theorem Encoded.unzip (o : LForm) : Encoded.Statement (.unzip o) := rfl
theorem Encoded.pack (o : LForm) : Encoded.Statement (.pack o) := rfl
theorem Encoded.unpack (o : LForm) : Encoded.Statement (.unpack o) := rfl
theorem Encoded.cmpr (o : LForm) : Encoded.Statement (.cmpr o) := rfl
theorem Encoded.expd (o : LForm) : Encoded.Statement (.expd o) := rfl
theorem Encoded.lmask (o : LForm) : Encoded.Statement (.lmask o) := rfl
theorem Encoded.lsel (o : LForm) : Encoded.Statement (.lsel o) := rfl
theorem Encoded.movw (o : LForm) : Encoded.Statement (.movw o) := rfl
theorem Encoded.swap (o : LForm) : Encoded.Statement (.swap o) := rfl
theorem Encoded.emit (o : KForm) : Encoded.Statement (.emit o) := rfl
theorem Encoded.fork (o : KForm) : Encoded.Statement (.fork o) := rfl
theorem Encoded.drop (o : KForm) : Encoded.Statement (.drop o) := rfl
theorem Encoded.steer (o : KForm) : Encoded.Statement (.steer o) := rfl
theorem Encoded.bight (o : KForm) : Encoded.Statement (.bight o) := rfl
theorem Encoded.tag (o : KForm) : Encoded.Statement (.tag o) := rfl
theorem Encoded.setcls (o : KForm) : Encoded.Statement (.setcls o) := rfl
theorem Encoded.setlen (o : KForm) : Encoded.Statement (.setlen o) := rfl
theorem Encoded.setfmt (o : KForm) : Encoded.Statement (.setfmt o) := rfl
theorem Encoded.setck (o : KForm) : Encoded.Statement (.setck o) := rfl
theorem Encoded.setscale (o : KForm) : Encoded.Statement (.setscale o) := rfl
theorem Encoded.raise (o : KForm) : Encoded.Statement (.raise o) := rfl
theorem Encoded.nop (o : KForm) : Encoded.Statement (.nop o) := rfl
theorem Encoded.inject (o : YForm) : Encoded.Statement (.inject o) := rfl
theorem Encoded.ld (o : MForm) : Encoded.Statement (.ld o) := rfl
theorem Encoded.st (o : MForm) : Encoded.Statement (.st o) := rfl
theorem Encoded.ldx (o : MForm) : Encoded.Statement (.ldx o) := rfl
theorem Encoded.stx (o : MForm) : Encoded.Statement (.stx o) := rfl
theorem Encoded.atom (o : MForm) : Encoded.Statement (.atom o) := rfl
theorem Encoded.atomf (o : MForm) : Encoded.Statement (.atomf o) := rfl
theorem Encoded.cas (o : MForm) : Encoded.Statement (.cas o) := rfl
theorem Encoded.fence (o : MForm) : Encoded.Statement (.fence o) := rfl
theorem Encoded.otokPut (o : MForm) : Encoded.Statement (.otokPut o) := rfl
theorem Encoded.otokWait (o : MForm) : Encoded.Statement (.otokWait o) := rfl
theorem Encoded.prf (o : MForm) : Encoded.Statement (.prf o) := rfl
theorem Encoded.ldp (o : MForm) : Encoded.Statement (.ldp o) := rfl
theorem Encoded.stp (o : MForm) : Encoded.Statement (.stp o) := rfl
theorem Encoded.mma (o : XForm) : Encoded.Statement (.mma o) := rfl
theorem Encoded.tld (o : XForm) : Encoded.Statement (.tld o) := rfl
theorem Encoded.tswap (o : XForm) : Encoded.Statement (.tswap o) := rfl
theorem Encoded.tzero (o : XForm) : Encoded.Statement (.tzero o) := rfl
theorem Encoded.accz (o : XForm) : Encoded.Statement (.accz o) := rfl
theorem Encoded.accrd (o : XForm) : Encoded.Statement (.accrd o) := rfl
theorem Encoded.accrdUl (o : XForm) : Encoded.Statement (.accrdUl o) := rfl
theorem Encoded.ulset (o : XForm) : Encoded.Statement (.ulset o) := rfl
theorem Encoded.reelAff (o : FForm) : Encoded.Statement (.reelAff o) := rfl
theorem Encoded.reelGat (o : FForm) : Encoded.Statement (.reelGat o) := rfl
theorem Encoded.reelSca (o : FForm) : Encoded.Statement (.reelSca o) := rfl
theorem Encoded.reelFib (o : FForm) : Encoded.Statement (.reelFib o) := rfl
theorem Encoded.reelCmp (o : FForm) : Encoded.Statement (.reelCmp o) := rfl
theorem Encoded.reelRq (o : FForm) : Encoded.Statement (.reelRq o) := rfl
theorem Encoded.reelStop (o : FForm) : Encoded.Statement (.reelStop o) := rfl
theorem Encoded.reelWait (o : FForm) : Encoded.Statement (.reelWait o) := rfl
theorem Encoded.fibOpen (o : FForm) : Encoded.Statement (.fibOpen o) := rfl
theorem Encoded.fibSkip (o : FForm) : Encoded.Statement (.fibSkip o) := rfl
theorem Encoded.fibIsect (o : FForm) : Encoded.Statement (.fibIsect o) := rfl
theorem Encoded.fibUnion (o : FForm) : Encoded.Statement (.fibUnion o) := rfl
theorem Encoded.fibSave (o : FForm) : Encoded.Statement (.fibSave o) := rfl
theorem Encoded.fibLoad (o : FForm) : Encoded.Statement (.fibLoad o) := rfl
theorem Encoded.fibPos (o : FForm) : Encoded.Statement (.fibPos o) := rfl
theorem Encoded.layLoad (o : YForm) : Encoded.Statement (.layLoad o) := rfl
theorem Encoded.layFree (o : YForm) : Encoded.Statement (.layFree o) := rfl
theorem Encoded.laySwap (o : YForm) : Encoded.Statement (.laySwap o) := rfl
theorem Encoded.layClone (o : YForm) : Encoded.Statement (.layClone o) := rfl
theorem Encoded.passArm (o : YForm) : Encoded.Statement (.passArm o) := rfl
theorem Encoded.passWait (o : YForm) : Encoded.Statement (.passWait o) := rfl
theorem Encoded.passAbort (o : YForm) : Encoded.Statement (.passAbort o) := rfl
theorem Encoded.cleatSet (o : YForm) : Encoded.Statement (.cleatSet o) := rfl
theorem Encoded.cleatWait (o : YForm) : Encoded.Statement (.cleatWait o) := rfl
theorem Encoded.cleatTie (o : YForm) : Encoded.Statement (.cleatTie o) := rfl
theorem Encoded.sbar (o : YForm) : Encoded.Statement (.sbar o) := rfl
theorem Encoded.qwait (o : YForm) : Encoded.Statement (.qwait o) := rfl
theorem Encoded.gmm (o : YForm) : Encoded.Statement (.gmm o) := rfl
theorem Encoded.br (o : JForm) : Encoded.Statement (.br o) := rfl
theorem Encoded.brc (o : JForm) : Encoded.Statement (.brc o) := rfl
theorem Encoded.jmp (o : JForm) : Encoded.Statement (.jmp o) := rfl
theorem Encoded.call (o : JForm) : Encoded.Statement (.call o) := rfl
theorem Encoded.ret (o : JForm) : Encoded.Statement (.ret o) := rfl
theorem Encoded.loop (o : JForm) : Encoded.Statement (.loop o) := rfl
theorem Encoded.ctxSpawn (o : ZForm) : Encoded.Statement (.ctxSpawn o) := rfl
theorem Encoded.ctxExit (o : ZForm) : Encoded.Statement (.ctxExit o) := rfl
theorem Encoded.ctxKill (o : ZForm) : Encoded.Statement (.ctxKill o) := rfl
theorem Encoded.yield (o : ZForm) : Encoded.Statement (.yield o) := rfl
theorem Encoded.trap (o : ZForm) : Encoded.Statement (.trap o) := rfl
theorem Encoded.eret (o : ZForm) : Encoded.Statement (.eret o) := rfl
theorem Encoded.sysrd (o : ZForm) : Encoded.Statement (.sysrd o) := rfl
theorem Encoded.syswr (o : ZForm) : Encoded.Statement (.syswr o) := rfl
theorem Encoded.tlbInv (o : ZForm) : Encoded.Statement (.tlbInv o) := rfl
theorem Encoded.cwb (o : ZForm) : Encoded.Statement (.cwb o) := rfl
theorem Encoded.cinv (o : ZForm) : Encoded.Statement (.cinv o) := rfl
theorem Encoded.notify (o : ZForm) : Encoded.Statement (.notify o) := rfl
theorem Encoded.fltRetry (o : ZForm) : Encoded.Statement (.fltRetry o) := rfl
theorem Encoded.fltDrop (o : ZForm) : Encoded.Statement (.fltDrop o) := rfl
theorem Encoded.halt (o : ZForm) : Encoded.Statement (.halt o) := rfl
theorem Encoded.wfi (o : ZForm) : Encoded.Statement (.wfi o) := rfl
theorem Encoded.stationFire (p : Place) : Encoded.Statement (.stationFire p) := rfl
theorem Encoded.recordDeparture (p : Place) (x : Nat) : Encoded.Statement (.recordDeparture p x) := rfl
theorem Encoded.linkDelivery (c : CtxId) (l : LaySlot) (k : Nat) : Encoded.Statement (.linkDelivery c l k) := rfl
theorem Encoded.slotReturn (c : CtxId) (l : LaySlot) (k : Nat) : Encoded.Statement (.slotReturn c l k) := rfl
theorem Encoded.channelAdvance (c : CtxId) (l : LaySlot) (k : Nat) : Encoded.Statement (.channelAdvance c l k) := rfl
theorem Encoded.exceptionRegisterEntry (p : Place) : Encoded.Statement (.exceptionRegisterEntry p) := rfl
theorem Encoded.exceptionNetworkDelivery (p : Place) : Encoded.Statement (.exceptionNetworkDelivery p) := rfl
theorem Encoded.handlerRun (c : CtxId) (l : LaySlot) : Encoded.Statement (.handlerRun c l) := rfl
theorem Encoded.replyArrival (r : Nat) (o : LinkReply) : Encoded.Statement (.replyArrival r o) := rfl
theorem Encoded.nearRequestArrival (r : Nat) : Encoded.Statement (.nearRequestArrival r) := rfl
theorem Encoded.bankOperationStart (r : Nat) (e : Ecc) : Encoded.Statement (.bankOperationStart r e) := rfl
theorem Encoded.ldpWake (r : Nat) : Encoded.Statement (.ldpWake r) := rfl
theorem Encoded.presenceRetryResend (r : Nat) : Encoded.Statement (.presenceRetryResend r) := rfl
theorem Encoded.stpClaimGrant (r : Nat) : Encoded.Statement (.stpClaimGrant r) := rfl
theorem Encoded.tokenEntryRetire (p : Place) (e : Nat) : Encoded.Statement (.tokenEntryRetire p e) := rfl
theorem Encoded.bightAdmit (p : Place) : Encoded.Statement (.bightAdmit p) := rfl
theorem Encoded.spliceBcast (p : Place) : Encoded.Statement (.spliceBcast p) := rfl
theorem Encoded.spliceSplitRr (p : Place) : Encoded.Statement (.spliceSplitRr p) := rfl
theorem Encoded.spliceSplitHash (p : Place) : Encoded.Statement (.spliceSplitHash p) := rfl
theorem Encoded.spliceMergeArr (p : Place) : Encoded.Statement (.spliceMergeArr p) := rfl
theorem Encoded.spliceMergeRr (p : Place) : Encoded.Statement (.spliceMergeRr p) := rfl
theorem Encoded.mergeSeqAccept (p : Place) : Encoded.Statement (.mergeSeqAccept p) := rfl
theorem Encoded.mergeSeqPass (p : Place) : Encoded.Statement (.mergeSeqPass p) := rfl
theorem Encoded.fifoEnqueue (p : Place) : Encoded.Statement (.fifoEnqueue p) := rfl
theorem Encoded.fifoDequeue (p : Place) : Encoded.Statement (.fifoDequeue p) := rfl
theorem Encoded.cleatRelease (c : CtxId) (l : LaySlot) (pg : Pid) (n : Fin 16) : Encoded.Statement (.cleatRelease c l pg n) := rfl
theorem Encoded.releaseRecordSend (c : CtxId) (l : LaySlot) (pg : Pid) (n : Fin 16) : Encoded.Statement (.releaseRecordSend c l pg n) := rfl
theorem Encoded.quiescenceSweep (c : CtxId) (l : LaySlot) : Encoded.Statement (.quiescenceSweep c l) := rfl
theorem Encoded.wedgeTimerExpiry (c : CtxId) (l : LaySlot) : Encoded.Statement (.wedgeTimerExpiry c l) := rfl
theorem Encoded.streamStart (c : CtxId) (l : LaySlot) (pg : Pid) (n : Fin 4) : Encoded.Statement (.streamStart c l pg n) := rfl
theorem Encoded.reelOperation (c : CtxId) (l : LaySlot) (pg : Pid) : Encoded.Statement (.reelOperation c l pg) := rfl
theorem Encoded.writeSideAccept (c : CtxId) (l : LaySlot) (pg : Pid) (n : Fin 4) : Encoded.Statement (.writeSideAccept c l pg n) := rfl
theorem Encoded.gatherIndexAccept (c : CtxId) (l : LaySlot) (pg : Pid) (n : Fin 4) : Encoded.Statement (.gatherIndexAccept c l pg n) := rfl
theorem Encoded.fibSkipApply (c : CtxId) (l : LaySlot) (pg : Pid) (n : Fin 4) : Encoded.Statement (.fibSkipApply c l pg n) := rfl
theorem Encoded.streamEnd (c : CtxId) (l : LaySlot) (pg : Pid) (n : Fin 4) : Encoded.Statement (.streamEnd c l pg n) := rfl
theorem Encoded.streamStopPoint (c : CtxId) (l : LaySlot) (pg : Pid) (n : Fin 4) : Encoded.Statement (.streamStopPoint c l pg n) := rfl
theorem Encoded.translationWalkDone (r : Nat) : Encoded.Statement (.translationWalkDone r) := rfl
theorem Encoded.translationRetryResend (r : Nat) : Encoded.Statement (.translationRetryResend r) := rfl
theorem Encoded.faultEventWrite (c : CtxId) : Encoded.Statement (.faultEventWrite c) := rfl
theorem Encoded.eventTrap (c : CtxId) : Encoded.Statement (.eventTrap c) := rfl
theorem Encoded.hbmRequest (r : Nat) (e : Ecc) : Encoded.Statement (.hbmRequest r e) := rfl
theorem Encoded.hbmRowRepairDone (row : Nat) : Encoded.Statement (.hbmRowRepairDone row) := rfl
theorem Encoded.portalRequest (r : Nat) : Encoded.Statement (.portalRequest r) := rfl
theorem Encoded.portalTimeout (r : Nat) : Encoded.Statement (.portalTimeout r) := rfl
theorem Encoded.postedWriteFlush (r : Nat) : Encoded.Statement (.postedWriteFlush r) := rfl
theorem Encoded.peerInboundRequest (n : Fin 12) (o : OutsideOp) : Encoded.Statement (.peerInboundRequest n o) := rfl
theorem Encoded.hostBar2Access (o : OutsideOp) : Encoded.Statement (.hostBar2Access o) := rfl
theorem Encoded.flitRetry (ch : Chan) : Encoded.Statement (.flitRetry ch) := rfl
theorem Encoded.channelRetrain (ch : Chan) : Encoded.Statement (.channelRetrain ch) := rfl
theorem Encoded.channelFail (ch : Chan) : Encoded.Statement (.channelFail ch) := rfl
theorem Encoded.stateEccError (t : EccTarget) : Encoded.Statement (.stateEccError t) := rfl
theorem Encoded.launchWrite (c : CtxId) (off : Nat) (bytes : List Byte) : Encoded.Statement (.launchWrite c off bytes) := rfl
theorem Encoded.hostLaunch (c : CtxId) : Encoded.Statement (.hostLaunch c) := rfl
theorem Encoded.spawnDecision (c : CtxId) (t : Tid) : Encoded.Statement (.spawnDecision c t) := rfl
theorem Encoded.contextStart : Encoded.Statement (.contextStart) := rfl
theorem Encoded.teardown (c : CtxId) : Encoded.Statement (.teardown c) := rfl
theorem Encoded.dseqAdvance (c : CtxId) : Encoded.Statement (.dseqAdvance c) := rfl
theorem Encoded.killWrite (c : CtxId) : Encoded.Statement (.killWrite c) := rfl
theorem Encoded.wakeWrite (c : CtxId) : Encoded.Statement (.wakeWrite c) := rfl
theorem Encoded.fqtailWrite (c : CtxId) (v : Word) : Encoded.Statement (.fqtailWrite c v) := rfl
theorem Encoded.fltailWrite (v : Word) : Encoded.Statement (.fltailWrite v) := rfl
theorem Encoded.preemptRequest (c : CtxId) (hold : Bool) : Encoded.Statement (.preemptRequest c hold) := rfl
theorem Encoded.preemptReleaseHold (c : CtxId) : Encoded.Statement (.preemptReleaseHold c) := rfl
theorem Encoded.drainEnd (c : CtxId) : Encoded.Statement (.drainEnd c) := rfl
theorem Encoded.drainDeadline (c : CtxId) : Encoded.Statement (.drainDeadline c) := rfl
theorem Encoded.saveEngineDone (c : CtxId) : Encoded.Statement (.saveEngineDone c) := rfl
theorem Encoded.reconfigAdopt (p : Place) : Encoded.Statement (.reconfigAdopt p) := rfl
theorem Encoded.roleChangePoint (c : CtxId) (l : LaySlot) : Encoded.Statement (.roleChangePoint c l) := rfl
theorem Encoded.layLoadComplete (c : CtxId) (l : LaySlot) : Encoded.Statement (.layLoadComplete c l) := rfl
theorem Encoded.injectRecordLeaves (c : CtxId) (t : Tid) : Encoded.Statement (.injectRecordLeaves c t) := rfl
theorem Encoded.passWaitWake (c : CtxId) (t : Tid) : Encoded.Statement (.passWaitWake c t) := rfl
theorem Encoded.cleatWaitWake (c : CtxId) (t : Tid) : Encoded.Statement (.cleatWaitWake c t) := rfl
theorem Encoded.reelWaitWake (c : CtxId) (t : Tid) : Encoded.Statement (.reelWaitWake c t) := rfl
theorem Encoded.sbarPassed (c : CtxId) (l : LaySlot) (pg : Pid) : Encoded.Statement (.sbarPassed c l pg) := rfl
theorem Encoded.qwaitPoll (c : CtxId) (t : Tid) : Encoded.Statement (.qwaitPoll c t) := rfl
theorem Encoded.qwaitTimeout (c : CtxId) (t : Tid) : Encoded.Statement (.qwaitTimeout c t) := rfl
theorem Encoded.wfiTimeout (c : CtxId) (t : Tid) : Encoded.Statement (.wfiTimeout c t) := rfl
theorem Encoded.wfiWake (c : CtxId) (t : Tid) : Encoded.Statement (.wfiWake c t) := rfl
theorem Encoded.tlbInvComplete (c : CtxId) (t : Tid) : Encoded.Statement (.tlbInvComplete c t) := rfl
theorem Encoded.gmmGroupAdvance (c : CtxId) (t : Tid) : Encoded.Statement (.gmmGroupAdvance c t) := rfl
theorem Encoded.retire (v : BitVec 16) : Encoded.Statement (.retire v) := rfl
theorem Encoded.retireComplete : Encoded.Statement (.retireComplete) := rfl
theorem Encoded.dieDrain (d : Die) : Encoded.Statement (.dieDrain d) := rfl
theorem Encoded.dieDrained (d : Die) : Encoded.Statement (.dieDrained d) := rfl
theorem Encoded.dieReturn (d : Die) : Encoded.Statement (.dieReturn d) := rfl
theorem Encoded.dieLoadFirmware (d : Die) : Encoded.Statement (.dieLoadFirmware d) := rfl
theorem Encoded.firmwareLoadDone (d : Die) : Encoded.Statement (.firmwareLoadDone d) := rfl
theorem Encoded.markload (v : DWord) : Encoded.Statement (.markload v) := rfl
theorem Encoded.markKernelVerified : Encoded.Statement (.markKernelVerified) := rfl
theorem Encoded.markStageWrite (r : Nat) : Encoded.Statement (.markStageWrite r) := rfl
theorem Encoded.attreq (v : Byte) : Encoded.Statement (.attreq v) := rfl
theorem Encoded.attestationDone : Encoded.Statement (.attestationDone) := rfl
theorem Encoded.protectedKeyWrite (reg : KeyReg) (v : DWord) : Encoded.Statement (.protectedKeyWrite reg v) := rfl
theorem Encoded.bringupWrite (v : Byte) : Encoded.Statement (.bringupWrite v) := rfl
theorem Encoded.registerWrite (reg : HostReg) (v : DWord) : Encoded.Statement (.registerWrite reg v) := rfl
theorem Encoded.moduleReset : Encoded.Statement (.moduleReset) := rfl
theorem Encoded.bringupPhaseEnd (flash : List (List Byte)) (failed : List Chan) : Encoded.Statement (.bringupPhaseEnd flash failed) := rfl
theorem Encoded.hostPortReset : Encoded.Statement (.hostPortReset) := rfl
theorem Encoded.peerLinkTrained (n : Fin 12) (ops : Byte) (unit : BitVec 4) : Encoded.Statement (.peerLinkTrained n ops unit) := rfl
theorem Encoded.tempSample (d : Die) (t : Byte) : Encoded.Statement (.tempSample d t) := rfl
theorem Encoded.powerAverageSample (watts : Nat) : Encoded.Statement (.powerAverageSample watts) := rfl
theorem Encoded.powerIdleTimer (d : Die) : Encoded.Statement (.powerIdleTimer d) := rfl
theorem Encoded.channelRetrainDone (ch : Chan) : Encoded.Statement (.channelRetrainDone ch) := rfl
theorem Encoded.bankZeroingDone (c : CtxId) (l : LaySlot) : Encoded.Statement (.bankZeroingDone c l) := rfl

end Sys2Proof.Laws
end

