-- ==== Sys2Proof/Tests/Slice0.lean ====
section
/-!
SUPPORT. Tests. Decoding: words put together by hand from the bit maps of R67 to R80 and the opcode map of R83 to R91,
and words that the spec works out. Well-formedness: an ill-formed term for each check. One-step runs with results worked
out from the rules named. Witnesses: for each statement with hypotheses, a state and operands that meet them.
-/
namespace Sys2Proof.Tests

open Machine

set_option Elab.async false

/-! ### Helpers -/

/-- The state that an answer gives. -/
def after (r : Res) : State :=
  match r with
  | .next s => s
  | _ => State.reset

/-- Context 0 running with one thread at 0x10000, which is about to run an instruction; virtual 0x20000 is readable and
writable at physical 0x210000. -/
def seqT : State := { loadThread State.reset 0 with cur := .thread 0 0, sched := [] }

/-- The thread in hand with general registers set. -/
def regs (rs : List (Fin 32 × DWord)) (s : State := seqT) : State :=
  s.modThread 0 0 fun th => rs.foldl (fun a q => { a with s := a.s.set q.1.val q.2 }) th

/-- A general register of the thread in an answer. -/
def reg (r : Res) (n : Fin 32) : DWord := ((after r).thread 0 0).getS n

/-- The place of the one station of a site. -/
def at0 (k : Site) : Place := ⟨0, 0, 0, loadSid k⟩

/-- A lay of one page in slot 0 of context 0, whose one station runs an execution that is about to run an instruction. -/
def stT (k : Site) (h : Frame → Frame := id) : State :=
  let s := { loadStation State.reset k 0 with sched := [] }
  { s.modStation (at0 k) (fun y => { y with frames := [] }) with cur := .station (at0 k) (h (loadFrame k)) }

/-- The execution in hand. -/
def frame? (s : State) : Option Frame :=
  match s.cur with
  | .station _ f => some f
  | _ => none

/-- The execution in an answer. -/
def frameOf (r : Res) : Option Frame := frame? (after r)

/-- A lay of one page with no station. -/
def layT : Lay := Lay.fresh 0 0 [⟨0, 0, 0, 0, Reel.fresh 0 (Vector.replicate 4 0)⟩]

/-- seqT with a lay in slot 0. -/
def withLay (x : Lay) (s : State := seqT) : State := s.setLay 0 0 (some x)

/-- A format L word of a thread. -/
def lSeq (m : BitVec 4) (d a b c : Spec) : LForm := ⟨m, d, a, b, c, 3, 0, 0, false, 0, false, 0, false⟩

/-- A format L word of a station, of one word a group. -/
def lSt (m : BitVec 4) (d a b c : Spec) (w : BitVec 2) (ty : BitVec 4) : LForm := ⟨m, d, a, b, c, w, 0, ty, false, 0, false, 0, false⟩

/-- An answer that holds, as the pair that gave it. -/
theorem pair_ok {ε α β : Type} {x : Except ε α × β} {a : α} (h : x.1.toOption = some a) : x = (.ok a, x.2) := by
  obtain ⟨e, s⟩ := x
  cases e <;> simp_all [Except.toOption]

/-- Words and the instructions they stand for. -/
def decodes (l : List (DWord × Instr)) : Bool := l.all fun q => decide ((decodeWord q.1).toOption = some q.2)

/-! ### Decoding of words that the spec works out -/

theorem test_decode_spec_lanes : decodes [
  (0x2000801d01640000, .fadd ⟨0, 8, 0, 0x1d, 0, 1, 3, 2, false, 0, false, 0, false⟩),
  (0x10005170000003e8, .addImm ⟨0, 5, 5, 3, 0, 1000⟩),
  (0x0948400102000300, .cmp ⟨2, 4, 0, 1, 0, 2, 0, 0, false, 0, false, 1, true⟩),
  (0x2100224b0a032000, .fnma ⟨0, 2, 9, 11, 2, 2, 0, 1, true, 1, false, 0, false⟩),
  (0x2280c00004480000, .fcvt ⟨0, 12, 0, 0, 1, 0, 2, 4, false, 0, false, 0, false⟩),
  (0x2c00010836420000, .smxUpd ⟨0, 0, 4, 8, 13, 2, 2, 1, false, 0, false, 0, false⟩),
  (0x4000001d02800000, .perm ⟨0, 0, 0, 0x1d, 0, 2, 4, 0, false, 0, false, 0, false⟩)] = true := by decide

theorem test_decode_spec_records : decodes [
  (0x5000000000000000, .emit ⟨0, 0, false, 0, 0, false, 0, false, 0⟩),
  (0x5040002000000000, .fork ⟨0, 0, false, 0, 1, false, 0, false, 0⟩),
  (0x50c0082000000001, .steer ⟨0, 0, true, 0, 1, false, 0, false, 1⟩),
  (0x5340328d01800003, .inject ⟨0, 3, 10, 13, 0, 3, 0, 3⟩),
  (0x600440006a000040, .ld ⟨1, 4, 0, 0, 3, 1, 2, 0, 64⟩),
  (0x6100a0b968000000, .atom ⟨0, 10, 2, 0x39, 3, 1, 0, 0, 0⟩),
  (0x6120034e20400000, .atom ⟨8, 0, 13, 14, 1, 0, 0, 4, 0⟩),
  (0x6100200390000008, .atom ⟨0, 2, 0, 3, 4, 2, 0, 0, 8⟩),
  (0x61d0000060000000, .fence ⟨4, 0, 0, 0, 3, 0, 0, 0, 0⟩),
  (0x62c0840023000100, .ldp ⟨0, 8, 16, 0, 1, 0, 3, 0, 256⟩),
  (0x6300020023000000, .stp ⟨0, 0, 8, 0, 1, 0, 3, 0, 0⟩)] = true := by decide

theorem test_decode_spec_lays : decodes [
  (0x8000885400000000, .mma ⟨0, 2, 2, 1, 1, 1, 0⟩),
  (0x8001106000030000, .mma ⟨0, 4, 4, 1, 2, 0, 3⟩),
  (0x8040882000000000, .tld ⟨0, 2, 2, 0, 2, 0, 0⟩),
  (0x8140000400000000, .accrd ⟨0, 0, 0, 0, 0, 1, 0⟩),
  (0x81c0080000200000, .ulset ⟨0, 0, 2, 0, 0, 0, 32⟩),
  (0x944000c000400000, .fibSkip ⟨0, 0, 3, 0, 0, 0, 1, 0, 0, 0⟩),
  (0xa000204020000000, .layLoad ⟨0, 2, 1, 0, 1, 0, 0, 0⟩),
  (0xa200310520000000, .passArm ⟨0, 3, 4, 5, 1, 0, 0, 0⟩),
  (0xa40031c000000000, .cleatSet ⟨0, 3, 7, 0, 0, 0, 0, 0⟩),
  (0xa480000000180000, .cleatTie ⟨0, 0, 0, 0, 0, 0, 3, 0⟩),
  (0xb0443000fffffffd, .brc ⟨1, 3, 0, false, 0, 0xfffffffd⟩),
  (0xb140200000000002, .loop ⟨0, 2, 0, false, 0, 2⟩),
  (0xc200500004012105, .sysrd ⟨0, 5, 0, 0, 0x401, 0x2105⟩),
  (0xc44400c000000009, .fltRetry ⟨1, 0, 3, 0, 0, 9⟩)] = true := by decide

theorem test_decode_refuses : (decodeWord 0x00c0000000000001).toOption = none ∧ (decodeWord 0xffc0000000000000).toOption = none ∧
    (decodeWord 0x0340000000000000).toOption = none := by decide

/-! ### Decoding by the opcode map, one word for each instruction -/

theorem test_decode_integer_1 : decodes [
  (0x0021a2baaa333200, .add ⟨8, 26, 10, 58, 42, 2, 1, 9, true, 1, true, 1, false⟩),
  (0x0077567c7eb0ea00, .sub ⟨13, 53, 25, 60, 31, 2, 5, 8, false, 7, false, 5, false⟩),
  (0x008909fd5330b500, .mul ⟨2, 16, 39, 61, 20, 3, 1, 8, false, 5, true, 2, true⟩),
  (0x00debd7f27af7f00, .mulh ⟨7, 43, 53, 63, 9, 3, 5, 7, true, 3, true, 7, true⟩),
  (0x013060c1fb2d2700, .mad ⟨12, 6, 3, 1, 62, 3, 1, 6, true, 1, false, 3, true⟩),
  (0x01461482ccaaf100, .div ⟨1, 33, 18, 2, 51, 0, 5, 5, false, 7, true, 0, true⟩),
  (0x019bc804a00bbb00, .rem ⟨6, 60, 32, 4, 40, 0, 0, 5, true, 5, true, 5, true⟩),
  (0x01ed7b8675896500, .addc ⟨11, 23, 46, 6, 29, 1, 4, 4, true, 3, false, 2, true⟩),
  (0x02032f4749062d00, .and ⟨0, 50, 61, 7, 18, 1, 0, 3, false, 1, false, 6, true⟩),
  (0x0254d2c91e84f700, .or ⟨5, 13, 11, 9, 7, 2, 4, 2, false, 7, true, 3, true⟩),
  (0x02aa764bf203a000, .xor ⟨10, 39, 25, 11, 60, 2, 0, 1, true, 5, false, 0, false⟩),
  (0x02fc29ccc6626a00, .andn ⟨15, 2, 39, 12, 49, 2, 3, 1, false, 3, false, 5, false⟩),
  (0x0311dd8e9fe03200, .not ⟨4, 29, 54, 14, 39, 3, 7, 0, false, 1, true, 1, false⟩),
  (0x04278110737fec00, .shl ⟨9, 56, 4, 16, 28, 3, 3, 15, true, 7, false, 6, false⟩),
  (0x0479349144fd8600, .shr ⟨14, 19, 18, 17, 17, 0, 7, 14, true, 4, false, 3, false⟩),
  (0x048ee853187a5000, .sar ⟨3, 46, 33, 19, 6, 0, 3, 13, false, 2, true, 0, false⟩),
  (0x04e09bd5edfa0800, .rol ⟨8, 9, 47, 21, 59, 1, 7, 13, false, 0, false, 4, false⟩),
  (0x05364f56c159c200, .ror ⟨13, 36, 61, 22, 48, 1, 2, 12, true, 6, false, 1, false⟩),
  (0x060bf2d896d69c00, .clz ⟨2, 63, 11, 24, 37, 2, 6, 11, false, 4, true, 6, false⟩),
  (0x065da69a6a544500, .ctz ⟨7, 26, 26, 26, 26, 2, 2, 10, false, 2, false, 2, true⟩),
  (0x06b35a1b3ed30f00, .popc ⟨12, 53, 40, 27, 15, 2, 6, 9, true, 0, false, 7, true⟩),
  (0x06c4fd9d1353d900, .brev ⟨1, 15, 54, 29, 4, 3, 2, 9, true, 6, true, 4, true⟩),
  (0x081aa15fe7d08300, .min ⟨6, 42, 5, 31, 57, 3, 6, 8, false, 4, false, 1, true⟩),
  (0x086c54e0b82f4b00, .max ⟨11, 5, 19, 32, 46, 0, 1, 7, true, 2, false, 5, true⟩)] = true := by decide

theorem test_decode_integer_2 : decodes [
  (0x088208628cad1500, .abs ⟨0, 32, 33, 34, 35, 0, 5, 6, true, 0, true, 2, true⟩),
  (0x08d7bbe4612adf00, .neg ⟨5, 59, 47, 36, 24, 1, 1, 5, false, 6, true, 7, true⟩),
  (0x09296fa635aa8900, .sel ⟨10, 22, 62, 38, 13, 1, 5, 5, false, 4, false, 4, true⟩),
  (0x097f132709295000, .cmp ⟨15, 49, 12, 39, 2, 1, 1, 4, true, 2, true, 0, false⟩),
  (0x0a10c6a9de861a00, .lea ⟨4, 12, 26, 41, 55, 2, 4, 3, false, 0, true, 5, false⟩),
  (0x0a667a6bb204c400, .mov ⟨9, 39, 41, 43, 44, 2, 0, 2, false, 6, false, 2, false⟩),
  (0x0ab82dec87839e00, .bfx ⟨14, 2, 55, 44, 33, 3, 4, 1, true, 4, true, 7, false⟩),
  (0x0acdd16e5f035600, .bfi ⟨3, 29, 5, 46, 23, 3, 0, 1, true, 2, true, 3, false⟩),
  (0x0b2374f030800000, .byteperm ⟨8, 55, 19, 48, 12, 0, 4, 0, false, 0, false, 0, false⟩),
  (0x0b7528b1041eda00, .hash ⟨13, 18, 34, 49, 1, 0, 0, 15, false, 6, true, 5, false⟩),
  (0x0b8adc33d97d9400, .cvti ⟨2, 45, 48, 51, 54, 1, 3, 14, true, 4, true, 2, false⟩),
  (0x101c8f96377d3ca1, .addImm ⟨7, 8, 62, 1, 3, 930954401⟩),
  (0x1072336040244549, .andImm ⟨12, 35, 13, 2, 0, 1076118857⟩),
  (0x1087e6ca48cb4df2, .orImm ⟨1, 62, 27, 0, 5, 1221283314⟩),
  (0x10d99a645172569a, .xorImm ⟨6, 25, 41, 2, 2, 1366447770⟩),
  (0x112f4dfe5a195f43, .shlImm ⟨11, 52, 55, 3, 7, 1511612227⟩),
  (0x1140f19862c067eb, .shrImm ⟨0, 15, 6, 1, 4, 1656776683⟩),
  (0x1196a5326b677094, .sarImm ⟨5, 42, 20, 3, 1, 1801941140⟩),
  (0x11e8488c740e793c, .cmpImm ⟨10, 4, 34, 0, 6, 1947105596⟩),
  (0x123dfc667cb581e4, .movi ⟨15, 31, 49, 2, 3, 2092270052⟩)] = true := by decide

theorem test_decode_float_1 : decodes [
  (0x2013afc4214d0200, .fadd ⟨4, 58, 63, 4, 8, 1, 2, 6, true, 0, false, 1, false⟩),
  (0x20655345f5abcc00, .fsub ⟨9, 21, 13, 5, 61, 1, 5, 5, true, 6, false, 6, false⟩),
  (0x20bb0707ca2a7400, .fmul ⟨14, 48, 28, 7, 50, 2, 1, 5, false, 3, true, 2, false⟩),
  (0x20ccba899ea92e00, .fma ⟨3, 11, 42, 9, 39, 2, 5, 4, true, 1, false, 7, false⟩),
  (0x21226e0a7327e800, .fnma ⟨8, 38, 56, 10, 28, 3, 1, 3, true, 7, false, 4, false⟩),
  (0x2174118c4ba4b200, .fmin ⟨13, 1, 6, 12, 18, 3, 5, 2, false, 5, true, 1, false⟩),
  (0x2189c54e1c026a00, .fmax ⟨2, 28, 21, 14, 7, 0, 0, 1, false, 3, false, 5, false⟩),
  (0x21df78cff0832400, .fabs ⟨7, 55, 35, 15, 60, 0, 4, 1, true, 1, false, 2, false⟩),
  (0x22312c51c400fe00, .fneg ⟨12, 18, 49, 17, 49, 0, 0, 0, false, 7, true, 7, false⟩),
  (0x2246c013999ea700, .fcmp ⟨1, 44, 0, 19, 38, 1, 4, 15, false, 5, false, 3, true⟩),
  (0x229873946d1d6100, .fcvt ⟨6, 7, 14, 20, 27, 1, 0, 14, true, 3, false, 0, true⟩),
  (0x22ee2716429b3b00, .frnd ⟨11, 34, 28, 22, 16, 2, 4, 13, true, 1, true, 5, true⟩),
  (0x2303da9816fae500, .fscale ⟨0, 61, 42, 24, 5, 2, 7, 13, false, 7, false, 2, true⟩),
  (0x24158e59eb78ad00, .frcp ⟨5, 24, 57, 25, 58, 3, 3, 12, false, 5, false, 6, true⟩),
  (0x246b31dbbff77700, .frsq ⟨10, 51, 7, 27, 47, 3, 7, 11, true, 3, true, 3, true⟩),
  (0x24bce55d93742100, .fsqrt ⟨15, 14, 21, 29, 36, 3, 3, 10, false, 1, false, 0, true⟩),
  (0x24d2991e64f2eb00, .fexp2 ⟨4, 41, 36, 30, 25, 0, 7, 9, false, 7, false, 5, true⟩),
  (0x25244ca03873b300, .flog2 ⟨9, 4, 50, 32, 14, 0, 3, 9, true, 5, true, 1, true⟩),
  (0x2579f0220dd17c00, .ftanh ⟨14, 31, 0, 34, 3, 1, 6, 8, true, 3, true, 6, false⟩),
  (0x260fa3a3e14e2600, .i2f ⟨3, 58, 14, 35, 56, 1, 2, 7, false, 1, false, 3, false⟩),
  (0x26614765b6cdf000, .f2i ⟨8, 20, 29, 37, 45, 2, 6, 6, true, 7, true, 0, false⟩),
  (0x2836fae78a4bb800, .fqnt ⟨13, 47, 43, 39, 34, 2, 2, 5, true, 5, true, 4, false⟩),
  (0x2848ae685fca6200, .fdq ⟨2, 10, 57, 40, 23, 3, 6, 5, false, 3, false, 1, false⟩),
  (0x289e522a37283c00, .fred ⟨7, 37, 8, 42, 13, 3, 1, 4, false, 1, true, 6, false⟩)] = true := by decide

theorem test_decode_float_2 : decodes [
  (0x28f005ac0ba7f400, .fdot ⟨12, 0, 22, 44, 2, 3, 5, 3, true, 7, true, 2, false⟩),
  (0x2c05b92ddc24ae00, .smxUpd ⟨1, 27, 36, 45, 55, 0, 1, 2, false, 5, false, 7, false⟩),
  (0x2c5b6cafb0a47900, .smxMerge ⟨6, 54, 50, 47, 44, 0, 5, 2, false, 3, true, 4, true⟩)] = true := by decide

theorem test_decode_lane_manipulation : decodes [
  (0x402d107185233300, .perm ⟨11, 17, 1, 49, 33, 1, 1, 1, true, 1, true, 1, true⟩),
  (0x4042c3f259a1eb00, .shuf ⟨0, 44, 15, 50, 22, 1, 5, 0, true, 7, false, 5, true⟩),
  (0x409477742e1eb500, .bcast ⟨5, 7, 29, 52, 11, 2, 0, 15, false, 5, true, 2, true⟩),
  (0x40ea1b36029c7f00, .rot ⟨10, 33, 44, 54, 0, 2, 4, 14, false, 3, true, 7, true⟩),
  (0x413fceb7d61d2900, .zip ⟨15, 60, 58, 55, 53, 2, 0, 14, true, 1, false, 4, true⟩),
  (0x41517239ab9af100, .unzip ⟨4, 23, 8, 57, 42, 3, 4, 13, false, 7, true, 0, true⟩),
  (0x41a725bb7f18bb00, .pack ⟨9, 50, 22, 59, 31, 3, 0, 12, false, 5, true, 5, true⟩),
  (0x41f8d97c50774500, .unpack ⟨14, 13, 37, 60, 20, 0, 3, 11, true, 2, false, 2, true⟩),
  (0x420e8cfe24f51e00, .cmpr ⟨3, 40, 51, 62, 9, 0, 7, 10, true, 0, true, 7, false⟩),
  (0x42603040f974d600, .expd ⟨8, 3, 1, 0, 62, 1, 3, 10, false, 6, true, 3, false⟩),
  (0x42b5e401cdf38000, .lmask ⟨13, 30, 16, 1, 51, 1, 7, 9, true, 4, false, 0, false⟩),
  (0x42cb9783a2714a00, .lsel ⟨2, 57, 30, 3, 40, 2, 3, 8, true, 2, false, 5, false⟩),
  (0x431d4b0576ee1200, .movw ⟨7, 20, 44, 5, 29, 2, 7, 7, false, 0, true, 1, false⟩),
  (0x4372fec64a4ccc00, .swap ⟨12, 47, 59, 6, 18, 2, 2, 6, false, 6, false, 6, false⟩)] = true := by decide

theorem test_decode_record_control : decodes [
  (0x500498fc2704c285, .emit ⟨1, 9, true, 0, 7, true, 6, false, 654623365⟩),
  (0x505a4ab533611807, .fork ⟨6, 36, true, 2, 5, true, 2, true, 862001159⟩),
  (0x50affb4c3fbd6d8a, .drop ⟨11, 63, true, 3, 2, false, 6, false, 1069378954⟩),
  (0x50c1a5e54c19c30d, .steer ⟨0, 26, false, 5, 7, false, 2, true, 1276756749⟩),
  (0x5117579a5876188f, .bight ⟨5, 53, false, 7, 4, true, 5, false, 1484134543⟩),
  (0x5169013264d26e12, .tag ⟨10, 16, false, 1, 1, true, 1, false, 1691512338⟩),
  (0x51bebadb712ec394, .setcls ⟨15, 43, true, 2, 6, true, 5, true, 1898890132⟩),
  (0x51d06c627d8b1917, .setlen ⟨4, 6, true, 4, 3, false, 1, false, 2106267927⟩),
  (0x52261e0b89e76e9a, .setfmt ⟨9, 33, true, 6, 0, false, 5, true, 2313645722⟩),
  (0x527bcfb29643c41c, .setck ⟨14, 60, true, 7, 5, true, 1, false, 2521023516⟩),
  (0x528d7158a2a0199f, .setscale ⟨3, 23, false, 1, 2, true, 4, false, 2728401311⟩),
  (0x52e313e1aefc6f21, .raise ⟨8, 49, false, 3, 7, false, 0, true, 2935779105⟩),
  (0x5334c488bb58c4a4, .nop ⟨13, 12, false, 4, 4, false, 4, false, 3143156900⟩),
  (0x534a70de2a8030cb, .inject ⟨2, 39, 3, 30, 1, 21, 0, 12491⟩)] = true := by decide

theorem test_decode_memory : decodes [
  (0x601c2460cca16fa9, .ld ⟨7, 2, 17, 32, 6, 1, 4, 10, 94121⟩),
  (0x6071d7e168adc52c, .st ⟨12, 29, 31, 33, 3, 1, 0, 10, 902444⟩),
  (0x60878b63139a1aae, .ldx ⟨1, 56, 45, 35, 0, 2, 3, 9, 662190⟩),
  (0x60d93f25b7867031, .stx ⟨6, 19, 60, 37, 5, 2, 7, 8, 421937⟩),
  (0x612ee2a65b72c5b3, .atom ⟨11, 46, 10, 38, 2, 3, 3, 7, 181683⟩),
  (0x614096281f6f1b36, .atomf ⟨0, 9, 24, 40, 0, 3, 7, 6, 990006⟩),
  (0x619649eaa36b70b9, .cas ⟨5, 36, 39, 42, 5, 0, 3, 6, 749753⟩),
  (0x61ebed6b4657c63b, .fence ⟨10, 62, 53, 43, 2, 0, 6, 5, 509499⟩),
  (0x623d90ede2441bbe, .otokPut ⟨15, 25, 3, 45, 7, 0, 2, 4, 269246⟩),
  (0x6253446f8e307140, .otokWait ⟨4, 52, 17, 47, 4, 1, 6, 3, 28992⟩),
  (0x62a4f8302a2cc6c3, .prf ⟨9, 15, 32, 48, 1, 1, 2, 2, 837315⟩),
  (0x62faabb2d6291c46, .ldp ⟨14, 42, 46, 50, 6, 2, 6, 2, 597062⟩),
  (0x630c5f34721571c8, .stp ⟨3, 5, 60, 52, 3, 2, 2, 1, 356808⟩)] = true := by decide

theorem test_decode_matrix : decodes [
  (0x80202d4cd1f50000, .mma ⟨8, 0, 11, 5, 0, 3, 53749⟩),
  (0x8076e5dc49910000, .tld ⟨13, 11, 9, 7, 1, 3, 18833⟩),
  (0x80899e60c12d0000, .tswap ⟨2, 6, 7, 9, 2, 0, 49453⟩),
  (0x80dc56b038c90000, .tzero ⟨7, 1, 5, 10, 3, 0, 14537⟩),
  (0x81331300b0650000, .accz ⟨12, 12, 4, 12, 0, 0, 45157⟩),
  (0x81458b9428000000, .accrd ⟨1, 6, 2, 14, 1, 1, 10240⟩),
  (0x819843e49f9c0000, .accrdUl ⟨6, 1, 0, 15, 2, 1, 40860⟩),
  (0x81ef3c7817380000, .ulset ⟨11, 12, 15, 1, 3, 2, 5944⟩)] = true := by decide

theorem test_decode_reel_and_fibre : decodes [
  (0x90037f43222ba000, .reelAff ⟨0, 55, 61, 3, 8, 2, 0, 10, 3, 5⟩),
  (0x905522c4f7266000, .reelGat ⟨5, 18, 11, 4, 61, 3, 0, 9, 2, 3⟩),
  (0x90aad646cf212000, .reelSca ⟨10, 45, 25, 6, 51, 3, 0, 8, 1, 1⟩),
  (0x90fc8a08a3dfe000, .reelFib ⟨15, 8, 40, 8, 40, 3, 3, 7, 3, 7⟩),
  (0x91123d8974daa000, .reelCmp ⟨4, 35, 54, 9, 29, 0, 3, 6, 2, 5⟩),
  (0x9167e10b48d86000, .reelRq ⟨9, 62, 4, 11, 18, 0, 3, 6, 0, 3⟩),
  (0x91b994cd1dd72000, .reelStop ⟨14, 25, 19, 13, 7, 1, 3, 5, 3, 1⟩),
  (0x91cf484ef1d2e000, .reelWait ⟨3, 52, 33, 14, 60, 1, 3, 4, 2, 7⟩),
  (0x9420ebd0c68ca000, .fibOpen ⟨8, 14, 47, 16, 49, 2, 2, 3, 0, 5⟩),
  (0x94769f929a8b6000, .fibSkip ⟨13, 41, 62, 18, 38, 2, 2, 2, 3, 3⟩),
  (0x948843136f892000, .fibIsect ⟨2, 4, 12, 19, 27, 3, 2, 2, 1, 1⟩),
  (0x94ddf6954384e000, .fibUnion ⟨7, 31, 26, 21, 16, 3, 2, 1, 0, 7⟩),
  (0x9533aa171782a000, .fibSave ⟨12, 58, 40, 23, 5, 3, 2, 0, 2, 5⟩),
  (0x95455dd8e8bd6000, .fibLoad ⟨1, 21, 55, 24, 58, 0, 2, 15, 1, 3⟩),
  (0x959b015abc7c2000, .fibPos ⟨6, 48, 5, 26, 47, 0, 1, 15, 0, 1⟩)] = true := by decide

theorem test_decode_lay_pass_and_branch : decodes [
  (0xa02cb4dc96a8837e, .layLoad ⟨11, 11, 19, 28, 4, 45, 5, 33662⟩),
  (0xa042689d2a886a0d, .layFree ⟨0, 38, 34, 29, 1, 21, 1, 27149⟩),
  (0xa0941c1fdf68509c, .laySwap ⟨5, 1, 48, 31, 6, 62, 13, 20636⟩),
  (0xa0e9bfa17348372b, .layClone ⟨10, 27, 62, 33, 3, 38, 9, 14123⟩),
  (0xa23f632207201dbb, .passArm ⟨15, 54, 12, 34, 0, 14, 4, 7611⟩),
  (0xa25116e4db80044a, .passWait ⟨4, 17, 27, 36, 6, 55, 0, 1098⟩),
  (0xa2a6ca666fe0ead9, .passAbort ⟨9, 44, 41, 38, 3, 31, 12, 60121⟩),
  (0xa4387de70440d168, .cleatSet ⟨14, 7, 55, 39, 0, 8, 8, 53608⟩),
  (0xa44e21a9b820b7f7, .cleatWait ⟨3, 34, 6, 41, 5, 48, 4, 47095⟩),
  (0xa4a3d52b4c809e87, .cleatTie ⟨8, 61, 20, 43, 2, 25, 0, 40583⟩),
  (0xa63588ace0d88516, .sbar ⟨13, 24, 34, 44, 7, 1, 11, 34070⟩),
  (0xa64b3c2e95386ba5, .qwait ⟨2, 51, 48, 46, 4, 42, 7, 27557⟩),
  (0xa69ceff029185234, .gmm ⟨7, 14, 63, 48, 1, 18, 3, 21044⟩),
  (0xb0329b8009380efa, .br ⟨12, 41, 5, true, 2, 154668794⟩),
  (0xb04437c011df17a3, .brc ⟨1, 3, 3, true, 3, 299833251⟩),
  (0xb099e5001a86204b, .jmp ⟨6, 30, 2, true, 0, 444997707⟩),
  (0xb0ef9040232d28f4, .call ⟨11, 57, 0, false, 1, 590162164⟩),
  (0xb1014c802bd4319c, .ret ⟨0, 20, 6, false, 2, 735326620⟩),
  (0xb156f8c0347b3a45, .loop ⟨5, 47, 4, false, 3, 880491077⟩)] = true := by decide

theorem test_decode_system : decodes [
  (0xc028a8fc145442ed, .ctxSpawn ⟨10, 10, 35, 60, 5204, 17133⟩),
  (0xc07e5c7dae094b95, .ctxExit ⟨15, 37, 49, 61, 44553, 19349⟩),
  (0xc0900fff47be543e, .ctxKill ⟨4, 0, 63, 63, 18366, 21566⟩),
  (0xc0e5b381e1735ce6, .yield ⟨9, 27, 14, 1, 57715, 23782⟩),
  (0xc13b67027b28658f, .trap ⟨14, 54, 28, 2, 31528, 25999⟩),
  (0xc14d1a8414de6e37, .eret ⟨3, 17, 42, 4, 5342, 28215⟩),
  (0xc222be06ae9376e0, .sysrd ⟨8, 43, 56, 6, 44691, 30432⟩),
  (0xc27461c748487f88, .syswr ⟨13, 6, 7, 7, 18504, 32648⟩),
  (0xc28a1549e1fd8831, .tlbInv ⟨2, 33, 21, 9, 57853, 34865⟩),
  (0xc2dfc8cb7bb290d9, .cwb ⟨7, 60, 35, 11, 31666, 37081⟩),
  (0xc3317c8c15679981, .cinv ⟨12, 23, 50, 12, 5479, 39297⟩),
  (0xc407200eaf1ca22a, .notify ⟨1, 50, 0, 14, 44828, 41514⟩),
  (0xc458d39048d1aad2, .fltRetry ⟨6, 13, 14, 16, 18641, 43730⟩),
  (0xc4ae8711e286b37b, .fltDrop ⟨11, 40, 28, 17, 57990, 45947⟩),
  (0xc4c03ad37c3bbc23, .halt ⟨0, 3, 43, 19, 31803, 48163⟩),
  (0xc515ee5515f0c4cc, .wfi ⟨5, 30, 57, 21, 5616, 50380⟩)] = true := by decide

/-! ### Well-formedness: a term that is valid, and an ill-formed term for each check with its cause (R93, R95) -/

/-- The causes that a list of instructions report at a site. -/
def causes (k : Site) (l : List Instr) : List (Option Nat) := l.map (defectCause k)

theorem test_valid_words :
    validAt .compute (.fadd ⟨0, 8, 0, 0x1d, 0, 1, 3, 2, false, 0, false, 0, false⟩) = true ∧
    validAt .seq (.addImm ⟨0, 5, 5, 3, 0, 1000⟩) = true ∧ validAt .compute (.ld ⟨1, 4, 0, 0, 3, 1, 2, 0, 64⟩) = true ∧
    validAt .matrix (.mma ⟨0, 2, 2, 1, 1, 1, 0⟩) = true ∧ validAt .matrix (.tld ⟨0, 2, 2, 0, 2, 0, 0⟩) = true ∧
    validAt .seq (.inject ⟨0, 3, 10, 13, 0, 3, 0, 3⟩) = true ∧ validAt .bank (.stp ⟨0, 0, 8, 0, 1, 0, 3, 0, 0⟩) = true ∧
    validAt .seq (.brc ⟨1, 3, 0, false, 0, 0xfffffffd⟩) = true ∧ validAt .splice (.cleatTie ⟨0, 0, 0, 0, 0, 0, 3, 0⟩) = true ∧
    validAt .seq (.sysrd ⟨0, 5, 0, 0, 0x401, 0x2105⟩) = true ∧ wellFormed (.stationFire (at0 .compute)) = true := by decide

/-- Format L: predicate fields without pe, q4 in a station, an unused b, a qd without qw, an undefined modifier, a reserved
group, a thread's lane width, 64-bit lanes in one word, a group past f15, a misaligned group, a type that disagrees with w,
an overlap of the softmax pair, and a place off the map. -/
theorem test_illformed_lane :
    causes .compute [.add ⟨0, 0, 0, 0, 0, 2, 0, 0, false, 1, false, 0, false⟩, .add ⟨0, 0, 0, 0, 0, 2, 0, 0, true, 4, false, 0, false⟩,
      .not ⟨0, 0, 0, 1, 0, 2, 0, 0, false, 0, false, 0, false⟩, .add ⟨0, 0, 0, 0, 0, 2, 0, 0, false, 0, false, 1, false⟩,
      .add ⟨3, 0, 0, 0, 0, 2, 0, 0, false, 0, false, 0, false⟩, .add ⟨0, 0, 0, 0, 0, 2, 5, 0, false, 0, false, 0, false⟩,
      .add ⟨0, 0, 0, 0, 0, 3, 0, 0, false, 0, false, 0, false⟩, .add ⟨0, 12, 0, 0, 0, 2, 3, 0, false, 0, false, 0, false⟩,
      .add ⟨0, 0, 2, 0, 0, 2, 2, 0, false, 0, false, 0, false⟩, .fadd ⟨0, 0, 0, 0, 0, 2, 0, 2, false, 0, false, 0, false⟩,
      .smxUpd ⟨0, 4, 4, 8, 0, 2, 0, 1, false, 0, false, 0, false⟩] =
    [some 2, some 3, some 2, some 2, some 3, some 3, some 5, some 5, some 5, some 3, some 5] ∧
    causes .seq [.add ⟨0, 0, 0, 0, 0, 2, 0, 0, false, 0, false, 0, false⟩, .add (lSeq 0 0x28 0 0 0), .fadd (lSeq 0 0 0 0 0),
      .fence ⟨0, 0, 0, 0, 3, 0, 0, 0, 0⟩] =
    [some 3, none, some 3, some 3] := by decide

/-- Formats I and K: a group of 8-byte lanes in one word, an immediate compare with a reserved condition, a terminator that
is predicated, two ports alike, a port past o3, an immediate out of range, an immediate and a specifier. -/
theorem test_illformed_control :
    causes .compute [.addImm ⟨0, 0, 0, 3, 0, 1⟩, .cmpImm ⟨6, 0, 0, 2, 0, 1⟩, .emit ⟨0, 0, false, 0, 0, true, 0, false, 0⟩,
      .fork ⟨0, 0, false, 1, 1, false, 0, false, 0⟩, .emit ⟨0, 0, false, 4, 0, false, 0, false, 0⟩,
      .setlen ⟨0, 0, true, 0, 0, false, 0, false, 17⟩, .tag ⟨0, 1, true, 0, 0, false, 0, false, 0⟩,
      .steer ⟨0, 0, true, 0, 1, false, 0, false, 8⟩] =
    [some 5, some 3, some 3, some 3, some 3, some 3, some 2, some 2] := by decide

/-- Format M: a reserved semantics, .acq on a store, .nr on a load, a reserved scope, space 3, a bank's far space, a
doubleword in a station, a word group in a thread, a fence that is relaxed, a float operator past its table, and a token
number past 15. -/
theorem test_illformed_memory :
    causes .compute [.ld ⟨5, 0, 0, 0, 0, 1, 0, 0, 0⟩, .st ⟨1, 0, 0, 0, 0, 1, 0, 0, 0⟩, .ld ⟨8, 0, 0, 0, 0, 1, 0, 0, 0⟩,
      .ld ⟨0, 0, 0, 0, 5, 1, 0, 0, 0⟩, .ld ⟨0, 0, 0, 0, 0, 3, 0, 0, 0⟩, .ld ⟨0, 0, 0, 0, 0, 1, 7, 0, 0⟩,
      .fence ⟨0, 0, 0, 0, 3, 0, 0, 0, 0⟩, .atomf ⟨0, 0, 0, 0, 0, 0, 0, 5, 0⟩, .otokPut ⟨0, 0, 0, 0, 0, 0, 0, 0, 16⟩] =
    [some 3, some 3, some 2, some 3, some 3, some 3, some 3, some 3, some 2] ∧
    causes .bank [.ld ⟨0, 0, 0, 0, 0, 1, 0, 0, 0⟩] = [some 3] ∧ causes .seq [.ld ⟨0, 0, 0, 0, 0, 1, 1, 0, 0⟩] = [some 3] := by decide

/-- Format X: a type pair that mma does not implement, unlay code 3, a count past its limit, an unused acc. -/
theorem test_illformed_matrix :
    causes .matrix [.mma ⟨0, 2, 3, 1, 0, 0, 0⟩, .mma ⟨0, 2, 2, 1, 3, 0, 0⟩, .mma ⟨0, 2, 2, 1, 2, 0, 16⟩, .tswap ⟨0, 0, 0, 0, 0, 1, 0⟩,
      .accrd ⟨0, 0, 0, 0, 0, 0, 8⟩, .ulset ⟨0, 0, 2, 0, 0, 0, 33⟩, .accz ⟨0, 0, 0, 0, 0, 0, 1⟩] =
    [some 8, some 3, some 3, some 2, some 3, some 3, some 3] := by decide

/-- Formats F, Y, J and Z: unused fields, a modifier, a clone count, a backward loop, a branch with a link, a system register
off the map, and instructions in a place their rows lack. -/
theorem test_illformed_system :
    causes .seq [.reelAff ⟨0, 0, 0, 1, 0, 0, 0, 0, 0, 0⟩, .fibPos ⟨2, 0, 0, 0, 0, 0, 0, 0, 0, 0⟩, .layClone ⟨0, 0, 0, 0, 0, 0, 0, 4⟩,
      .qwait ⟨5, 0, 0, 0, 0, 0, 0, 0⟩, .sbar ⟨0, 0, 0, 0, 0, 0, 0, 32⟩, .loop ⟨0, 2, 0, false, 0, 0⟩, .br ⟨0, 1, 0, false, 0, 0⟩,
      .brc ⟨6, 0, 0, false, 0, 0⟩, .sysrd ⟨0, 0, 0, 0, 0x12, 0⟩, .syswr ⟨0, 0, 0, 0, 0x100, 0⟩, .emit ⟨0, 0, false, 0, 0, false, 0, false, 0⟩] =
    [some 2, some 3, some 3, some 3, some 2, some 3, some 2, some 3, some 3, some 3, some 4] ∧
    causes .splice [.trap ⟨0, 0, 0, 0, 0, 0⟩, .add (lSt 0 0 0 0 0 2 0)] = [some 4, some 4] := by decide

/-! ### One step, with results worked out from the rules -/

theorem test_add_wraps : reg (exec (.add (lSeq 0 3 1 2 0)) (regs [(1, 0xffffffffffffffff), (2, 2)])) 3 = 1 := by decide
theorem test_add_saturates : reg (exec (.add (lSeq 1 3 1 2 0)) (regs [(1, 0x7fffffffffffffff), (2, 2)])) 3 = 0x7fffffffffffffff := by decide
theorem test_sub_unsigned : reg (exec (.sub (lSeq 2 1 1 2 0)) (regs [(1, 3), (2, 5)])) 1 = 0 := by decide
theorem test_mulh_signed : reg (exec (.mulh (lSeq 0 3 1 2 0)) (regs [(1, 0xffffffffffffffff), (2, 2)])) 3 = 0xffffffffffffffff := by decide
theorem test_mad : reg (exec (.mad (lSeq 0 3 1 2 3)) (regs [(1, 5), (2, 7), (3, 9)])) 3 = 44 := by decide
theorem test_div_zero : reg (exec (.div (lSeq 0 3 1 2 0)) (regs [(1, 9)])) 3 = 0xffffffffffffffff := by decide
theorem test_div_most_negative :
    reg (exec (.div (lSeq 0 3 1 2 0)) (regs [(1, 0x8000000000000000), (2, 0xffffffffffffffff)])) 3 = 0x8000000000000000 := by decide
theorem test_rem_zero : reg (exec (.rem (lSeq 0 3 1 2 0)) (regs [(1, 9)])) 3 = 9 := by decide
theorem test_shift_of_the_width : reg (exec (.shl (lSeq 0 3 1 2 0)) (regs [(1, 1), (2, 64)])) 3 = 0 := by decide
theorem test_sar : reg (exec (.sar (lSeq 0 3 1 2 0)) (regs [(1, 0x8000000000000000), (2, 70)])) 3 = 0xffffffffffffffff := by decide
theorem test_ctz_zero : reg (exec (.ctz (lSeq 0 3 1 0 0)) seqT) 3 = 64 := by decide
theorem test_s0_reads_zero : reg (exec (.movi ⟨0, 0, 0, 3, 0, 5⟩) seqT) 0 = 0 := by decide
theorem test_movi_sign : reg (exec (.movi ⟨0, 4, 0, 3, 0, 0x80000000⟩) seqT) 4 = 0xffffffff80000000 := by decide
theorem test_cmp_sets_p2 : ((after (exec (.cmp ⟨2, 3, 1, 2, 0, 3, 0, 0, false, 0, false, 2, true⟩) (regs [(1, 0xffffffffffffffff)]))).thread 0 0).p = 5 := by
  decide
theorem test_predicated_off : reg (exec (.add ⟨0, 3, 1, 2, 0, 3, 0, 0, true, 1, false, 0, false⟩) (regs [(1, 1), (3, 8)])) 3 = 8 := by decide

theorem test_brc_taken : ((after (exec (.brc ⟨1, 3, 0, false, 0, 0xfffffffd⟩) (regs [(3, 1)]))).thread 0 0).pc = 0xffe8 := by decide
theorem test_brc_not_taken : ((after (exec (.brc ⟨1, 3, 0, false, 0, 0xfffffffd⟩) seqT)).thread 0 0).pc = 0x10008 := by decide
theorem test_call_links : let u := after (exec (.call ⟨0, 31, 0, false, 0, 4⟩) seqT)
    (u.thread 0 0).pc = 0x10020 ∧ (u.thread 0 0).getS 31 = 0x10008 := by decide
theorem test_ret_misaligned_traps : let u := after (exec (.ret ⟨0, 3, 0, false, 0, 0⟩) ((regs [(3, 0x10004)]).modCtx 0 fun x => { x with tvec := 0x30000 }))
    (u.thread 0 0).pc = 0x30000 ∧ (u.thread 0 0).tcause = 2 ∧ (u.thread 0 0).tval = 0x10004 ∧ (u.thread 0 0).epc = 0x10000 := by decide
theorem test_loop_enters : let u := after (exec (.loop ⟨0, 2, 0, false, 1, 2⟩) (regs [(2, 3)]))
    (u.thread 0 0).lc[1] = 3 ∧ (u.thread 0 0).pc = 0x10008 ∧ (u.thread 0 0).loops[1] = ⟨true, 0x10008, 0x10010⟩ := by decide
theorem test_trap_cause : let u := after (exec (.trap ⟨0, 0, 0, 0, 0, 7⟩) (seqT.modCtx 0 fun x => { x with tvec := 0x30000 }))
    (u.thread 0 0).tcause = 0x7000a ∧ (u.thread 0 0).epc = 0x10008 ∧ (u.thread 0 0).tval = 0 ∧ (u.thread 0 0).pc = 0x30000 := by decide
theorem test_trap_without_a_vector_kills :
    ((after (exec (.trap ⟨0, 0, 0, 0, 0, 7⟩) seqT)).ctx 0).endInfo = some ⟨true, 0xff, 0, 0⟩ := by decide
theorem test_eret_outside_a_trap : ((after (exec (.eret ⟨0, 0, 0, 0, 0, 0⟩) (seqT.modCtx 0 fun x => { x with tvec := 0x30000 }))).thread 0 0).tcause = 1 := by
  decide

theorem test_store_is_little_endian :
    readBytes (after (exec (.st ⟨0, 0, 1, 2, 0, 1, 7, 0, 8⟩) (regs [(1, 0x20000), (2, 0x0807060504030201)]))).hbm 0x210007 3 = [0, 1, 2] := by decide
theorem test_load_zero_extends :
    reg (exec (.ld ⟨0, 3, 1, 0, 0, 1, 5, 0, 0xfffff⟩) { regs [(1, 0x20001)] with hbm := writeBytes (loadTable []) 0x210000 [0xff] }) 3 = 0xff := by decide
theorem test_atom_returns_the_old : let u := after (exec (.atom ⟨0, 3, 1, 2, 0, 1, 0, 7, 0⟩)
      { regs [(1, 0x20000), (2, 0xfffffff0)] with hbm := writeBytes (loadTable []) 0x210000 [5, 0, 0, 0] })
    (u.thread 0 0).getS 3 = 5 ∧ readBytes u.hbm 0x210000 5 = [0xf0, 0xff, 0xff, 0xff, 0] := by decide
theorem test_load_of_an_absent_page : let u := after (exec (.ld ⟨0, 3, 1, 0, 0, 1, 7, 0, 0⟩) ((regs [(1, 0x50000)]).modCtx 0 fun x => { x with tvec := 0x30000 }))
    (u.thread 0 0).tcause.toNat % 256 ∈ [5, 6, 7, 8] ∧ (u.thread 0 0).tval = 0x50000 := by decide

theorem test_sysrd_qage : reg (exec (.sysrd ⟨0, 3, 0, 0, 0x10, 0⟩) seqT) 3 = 0x100000 := by decide
theorem test_syswr_refused : reg (exec (.syswr ⟨0, 3, 1, 0, 0x205, 0⟩) (regs [(1, 0x30004)])) 3 = 1 := by decide
theorem test_ctx_exit : ((after (exec (.ctxExit ⟨0, 0, 1, 0, 0, 0⟩) (regs [(1, 0x123456789)]))).ctx 0).endInfo = some ⟨false, 0, 0x23456789, 0⟩ := by decide

/-- A station's word with payload words set. -/
def pay (ws : List (Fin 16 × Word)) (k : Site := .compute) : State :=
  stT k fun f => { f with r := { f.r with hdr := { f.r.hdr with len := 16 }, pay := ws.foldl (fun v q => v.set q.1.val q.2) f.r.pay } }

/-- A payload word of an answer. -/
def word (r : Res) (n : Fin 16) : Option Word := (frameOf r).map fun f => f.r.pay[n.val]

theorem test_lanes_of_eight_bits : word (exec (.add (lSt 0 2 0 1 0 0 0)) (pay [(0, 0x01ff80fe), (1, 0x01018003)])) 2 = some 0x02000001 := by decide
theorem test_rol : word (exec (.rol (lSt 0 2 0 1 0 2 0)) (pay [(0, 0x80000001), (1, 33)])) 2 = some 3 := by decide
theorem test_fadd_one_and_one : word (exec (.fadd (lSt 0 2 0 1 0 2 1)) (pay [(0, 0x3f800000), (1, 0x3f800000)])) 2 = some 0x40000000 := by decide
theorem test_fadd_infinities : word (exec (.fadd (lSt 0 2 0 1 0 2 1)) (pay [(0, 0x7f800000), (1, 0xff800000)])) 2 = some 0x7fc00000 := by decide
theorem test_fma_is_fused :
    word (exec (.fma (lSt 0 3 0 1 2 2 1)) (pay [(0, 0x3f800001), (1, 0x3f800001), (2, 0xbf800002)])) 3 = some 0x28800000 := by decide
theorem test_f2i_saturates : word (exec (.f2i (lSt 9 2 0 0 1 2 8)) (pay [(0, 0x501502f9)])) 2 = some 0x7fffffff := by decide
theorem test_perm_out_of_range_is_zero : word (exec (.perm (lSt 0 2 0 1 0 0 0)) (pay [(0, 0x44332211), (1, 0x04000103)])) 2 = some 0x00112244 := by decide
theorem test_unpack_signed : word (exec (.unpack (lSt 1 2 0 0 0 1 0)) (pay [(0, 0x0000ff80)])) 2 = some 0xffffff80 := by decide
theorem test_pack_example : word (exec (.pack (lSt 1 3 0 1 0 1 0)) (pay [(0, 0xfffe012c), (1, 0xff380007)])) 3 = some 0x8007fe7f := by decide
theorem test_swap : let r := exec (.swap (lSt 0 2 0 0 0 2 0)) (pay [(0, 7), (2, 9)])
    word r 0 = some 9 ∧ word r 2 = some 7 := by decide
theorem test_cmp_any : ((frameOf (exec (.cmp ⟨2, 4, 0, 1, 0, 2, 0, 0, false, 0, false, 1, true⟩) (pay [(0, 0x80000000)]))).map fun f =>
    (f.q, f.r.pay[4])) = some (2, 0xffffffff) := by decide

theorem test_setlen : ((frameOf (exec (.setlen ⟨0, 0, true, 0, 0, false, 0, false, 4⟩) (stT .compute))).map fun f => f.r.hdr.len) = some 4 := by decide
theorem test_steer_else : ((frameOf (exec (.steer ⟨0, 0, true, 0, 1, false, 0, false, 1⟩) (stT .compute))).map fun f => f.exit) = some (.port 1) := by decide
theorem test_fork : ((frameOf (exec (.fork ⟨0, 0, false, 0, 1, false, 0, false, 0⟩) (stT .compute))).map fun f => f.exit) = some (.fork 0 1) := by decide
theorem test_tie : ((frameOf (exec (.cleatTie ⟨0, 0, 0, 0, 0, 0, 3, 0⟩) (stT .compute))).map fun f => f.ties) = some [3] := by decide

/-- bf16 words of 1.0 in every lane: row 0 of a tile whose column 0 is 1.0 sums 32 products. -/
theorem test_mma_sums : ((frameOf (exec (.mma ⟨0, 2, 2, 1, 0, 0, 0⟩) (stT .matrix fun f =>
      { f with r := { f.r with hdr := { f.r.hdr with len := 16, fmt := 2 }, pay := Vector.replicate 16 0x3f803f80 },
               mx := f.mx.map fun m => { m with ta := { m.ta with fmt := some 2, cols := m.ta.cols.set 0 (Vector.replicate 16 0x3f803f80) } } }))).bind fun f =>
    f.mx.map fun m => ((m.acc[0])[0].vals[0], (m.acc[0])[0].vals[1])) = some (0x42000000, 0) := by decide +kernel
theorem test_accrd : let r := exec (.accrd ⟨0, 0, 0, 0, 0, 1, 0⟩) (stT .matrix fun f =>
      { f with mx := f.mx.map fun m => m.modRow 1 0 fun x => { x with vals := x.vals.set 3 7 } })
    word r 3 = some 7 ∧ (frameOf r).map (fun f => f.r.hdr.len) = some 16 := by decide

theorem test_step_runs_a_branch : ((after (step (State.reset.withFetchWord 64 0xb0443000fffffffd))).thread 0 0).pc = 0x10008 := by decide
theorem test_step_runs_a_station : frameOf (step (State.reset.withFetchWord 64 0x5000000000000000)) = none ∧
    ((after (step (State.reset.withFetchWord 64 0x5000000000000000))).station? (at0 .compute)).map (fun y => y.frames.map Frame.st) = some [.leaving] := by decide
theorem test_step_refuses_an_invalid_word :
    ((after (step ((State.reset.withFetchWord 64 0xffc0000000000000).modCtx 0 fun x => { x with tvec := 0x30000 }))).thread 0 0).tcause = 1 := by decide
theorem test_module_reset_keeps_memory : (after (exec .moduleReset { State.reset with hbm := [⟨5, 1⟩], qage := 7 })).hbm = [⟨5, 1⟩] := by decide
theorem test_trip : (after (exec (.tempSample 1 105) seqT)).secure.tripped = true ∧ ((after (exec (.tempSample 1 105) seqT)).ctx 0).st = .free := by decide +kernel

/-- The example of GB/T 32905: the digest of "abc". -/
theorem test_sm3_abc : sm3Bytes [0x61, 0x62, 0x63] = bigOfNat 32 0x66c7f0f462eeedd9d1f2d46bdc10e4e24167c4875cf2f7a2297da02b8f4ba8e0 := by decide +kernel
theorem test_sm2_base_point : sm2G.2 * sm2G.2 % sm2P = (sm2G.1 * sm2G.1 * sm2G.1 + sm2A * sm2G.1 + sm2B) % sm2P := by decide +kernel

/-! ### Witnesses: states and operands that meet the hypotheses of the statements, clause by clause -/

/-- seqT with a trap vector. -/
def vecT : State := seqT.modCtx 0 fun x => { x with tvec := 0x30000 }
/-- A thread inside a trap. -/
def inTrapT : State := vecT.modThread 0 0 fun th => { th with inTrap := true, epc := 0x10010 }
/-- A thread with one active loop that ends at its pc. -/
def loopT (n : Word) : State :=
  seqT.modThread 0 0 fun th => { th with loops := th.loops.set 2 ⟨true, 0xff00, 0x10000⟩, lc := th.lc.set 2 n }

/-- A branch word at the thread's pc, with and without a schedule. -/
def brcT (q : List Turn) : State := { loadThread State.reset 0xb0443000fffffffd with sched := q }

theorem witness_StepRuns_scheduled : let s := brcT [.issue 0]
    s.sched = [.issue 0] ∧ s.allowed (.issue 0) = true ∧ s.issued[0] = false ∧ ({ s with sched := [] }).select 0 = some (0, 0) ∧
    ((({ s with sched := [] }).noteIssue 0 0 0).ctx 0).eventTrapDue 0 = false ∧
    ((({ s with sched := [] }).noteIssue 0 0 0).fetch 0 0x10000).1.toOption = some 0xb0443000fffffffd ∧
    (decodeWord 0xb0443000fffffffd).toOption = some (.brc ⟨1, 3, 0, false, 0, 0xfffffffd⟩) ∧
    validAt .seq (.brc ⟨1, 3, 0, false, 0, 0xfffffffd⟩) = true ∧ loopsEndingAt (s.thread 0 0) (s.thread 0 0).pc = [] := by decide +kernel
theorem witness_StepRuns_default : let s := brcT []
    s.sched = [] ∧ s.defaultTurn = .issue 0 ∧ s.allowed (.issue 0) = true ∧ s.select 0 = some (0, 0) := by decide +kernel
theorem witness_StepRuns_station : let s := loadStation State.reset .compute 0x5000000000000000
    s.sched = [.station (at0 .compute) 0] ∧ s.allowed (.station (at0 .compute) 0) = true ∧
    (({ s with sched := [] }).takeTurn (at0 .compute) 0).map Prod.fst = some (.emit ⟨0, 0, false, 0, 0, false, 0, false, 0⟩) := by decide +kernel
theorem witness_StepRuns_event : let s := { seqT with sched := [.event .moduleReset] }
    s.allowed (.event .moduleReset) = true := by decide +kernel
theorem witness_EncodingRoundTrip : encode (.brc ⟨1, 3, 0, false, 0, 0xfffffffd⟩) = some 0xb0443000fffffffd ∧
    (decodeWord 0xb0443000fffffffd).toOption = some (.brc ⟨1, 3, 0, false, 0, 0xfffffffd⟩) := by decide
theorem witness_MemoryStaysCanonical : (brcT []).memOk = true ∧ ∃ t, step (brcT []) = .next t := ⟨by decide +kernel, _, rfl⟩
/-- A tripped module, hot and cool, and one that a reset takes out of its trip. -/
def trippedT (q : List Turn) (t : Byte) : State :=
  { State.reset with sched := q, secure := { State.reset.secure with tripped := true, temp := Vector.replicate 4 t } }
theorem witness_TrippedStaysIdle :
    (∀ c, ((trippedT [.tick] 105).ctx c).st = .free) ∧ (trippedT [.tick] 105).secure.tripped = true ∧
    (after (step (trippedT [.event .moduleReset] 94))).secure.tripped = false ∧ (trippedT [.event .moduleReset] 94).mayReset = true ∧
    (after (step (trippedT [.event .moduleReset] 95))).secure.tripped = true := by decide +kernel

theorem witness_TakeTrap : ((vecT.ctx 0).tvec ≠ 0 ∧ (vecT.thread 0 0).inTrap = false) ∧
    ((seqT.ctx 0).tvec = 0 ∧ (seqT.ctx 0).st ≠ .free ∧ (seqT.ctx 0).st ≠ .ending) ∧ (inTrapT.thread 0 0).inTrap = true := by decide +kernel
theorem witness_Eret : (inTrapT.cur = .thread 0 0 ∧ (inTrapT.thread 0 0).inTrap = true) ∧
    (seqT.cur = .thread 0 0 ∧ (seqT.thread 0 0).inTrap = false ∧ encode (.eret ⟨0, 0, 0, 0, 0, 0⟩) = some 0xc140000000000000) ∧
    (seqT.ctx 0).st = .running ∧ ((after (exec (.syswr ⟨0, 0, 1, 0, 0x300, 0⟩) (regs [(1, 0x1f)]))).thread 0 0).epc = 0x18 := by decide +kernel
theorem witness_TrapInstruction : (vecT.cur = .thread 0 0 ∧ loopsEndingAt (vecT.thread 0 0) (vecT.thread 0 0).pc = [] ∧
    (vecT.ctx 0).tvec ≠ 0 ∧ (vecT.thread 0 0).inTrap = false) ∧ (seqT.ctx 0).tvec = 0 ∧
    ((after (exec (.trap ⟨0, 0, 0, 0, 0, 0xffff⟩) vecT)).thread 0 0).tcause = 0xffff000a := by decide +kernel
theorem witness_StatusWord : let s := withLay { layT with wedged := true } (seqT.modCtx 0 fun x => { x with prq := true, fqhead := 300 })
    s.readT 0 0 0x23 = 0x301ff ∧ (s.lay? 0 0).map Lay.loading = some false ∧ (s.lay? 0 1).isSome = false := by decide +kernel
theorem witness_ConditionalBranch : seqT.cur = .thread 0 0 ∧
    (∀ m : Fin 6, ∃ v : DWord, ((after (exec (.brc ⟨BitVec.ofNat 4 m.val, 3, 0, false, 0, 4⟩) (regs [(3, v)]))).thread 0 0).pc = 0x10020) ∧
    (∀ m : Fin 6, ∃ v : DWord, ((after (exec (.brc ⟨BitVec.ofNat 4 m.val, 3, 0, false, 0, 4⟩) (regs [(3, v)]))).thread 0 0).pc = 0x10008) ∧
    ((after (exec (.brc ⟨0, 3, 0, true, 0, 4⟩) seqT)).thread 0 0).pc = 0x10008 := by
  refine ⟨rfl, ?_, ?_, by decide +kernel⟩
  · intro m
    match m with
    | 0 | 3 | 4 => exact ⟨0, by decide +kernel⟩
    | 1 | 2 => exact ⟨-1, by decide +kernel⟩
    | 5 => exact ⟨1, by decide +kernel⟩
  · intro m
    match m with
    | 0 | 4 => exact ⟨1, by decide +kernel⟩
    | 1 | 2 | 5 => exact ⟨0, by decide +kernel⟩
    | 3 => exact ⟨-1, by decide +kernel⟩
theorem witness_Branches : ((seqT.thread 0 0).getP 0 != false) = true ∧ ((seqT.thread 0 0).getP 0 != true) = false ∧
    ((regs [(3, 8)]).readT 0 0 3).toNat % 8 = 0 ∧ ((regs [(3, 7)]).readT 0 0 3).toNat % 8 ≠ 0 ∧
    (∀ n : Fin 4, ((seqT.thread 0 0).loops[n.val]).active = false) ∧
    ((after (exec (.loop ⟨0, 0, 0, false, 3, 4⟩) seqT)).thread 0 0).pc = 0x10028 := by decide +kernel
theorem witness_LoopStep : let th := (loopT 2).thread 0 0
    (th.loops[2] = ⟨true, 0xff00, 0x10000⟩ ∧ th.pc = 0x10000 ∧ (∀ m : Fin 4, m ≠ 2 → (th.loops[m.val]).active = false)) ∧
    th.advance.pc = 0xff00 ∧ th.advance.lc[2] = 1 ∧ ((loopT 1).thread 0 0).advance.pc = 0x10008 ∧
    ((loopT 1).thread 0 0).advance.lc[2] = 0 := by decide +kernel

theorem witness_Predication :
    (((seqT.thread 0 0).getP 1 != false) = false ∧ ((seqT.thread 0 0).getP 1 != true) = true) ∧
    (frame? (stT .compute)).map (fun f => (f.getQ 3 != false, f.getQ 3 != true)) = some (false, true) := by decide +kernel
/-- The thread and the station on which the integer, lane and float statements rest. -/
theorem witness_lane_instructions :
    (seqT.cur = .thread 0 0 ∧ (seqT.thread 0 0).predOk false 0 false = true ∧ (seqT.thread 0 0).predOk true 0 false = true) ∧
    ∃ f, (stT .compute).cur = .station (at0 .compute) f ∧ f.predOk false 0 false = true ∧ f.predOk true 3 true = true :=
  ⟨by decide +kernel, _, rfl, by decide +kernel⟩
/-- The clauses of compares, hashes, conversions and immediates are chosen by the word's own fields. -/
theorem witness_field_clauses : ((13 : BitVec 4) &&& 7).toNat < 6 ∧ (6 : BitVec 4).toNat = 2 * 3 ∧
    tyBits (BitVec.ofNat 4 ((11 : Spec).toNat % 16)) = 4 ∧ (0 : Nat) < 4 := by decide
theorem witness_LaneLaws : (0 : Nat) < 1 ∧ (1 : BitVec 1) ≠ 0 ∧ (0 : BitVec 64) = 0 := by decide
theorem witness_LaneFields : (0 : Nat) < 1 ∧ ((5 : BitVec 4) &&& 7).toNat < 6 ∧ ((13 : BitVec 4) &&& 7).toNat < 6 ∧ (32 = 32 ∨ 32 = 64) ∧
    (3 < 32 / 8 ∧ 7 < 64 / 8) ∧ (hashMix (7 : Word).toNat 5 = hashMix (7 : Word).toNat 5) := by decide
/-- A number of each type on which the six functions are stated: 1.0, its value, and a value below 0. -/
theorem witness_SpecialFunctions : (Fmt.fp32 ∈ [Fmt.fp32, .bf16, .fp16] ∧ 0x3f800000 < 2 ^ fmtBits .fp32) ∧
    valueOf .fp32 0x3f800000 = .fin false (2 ^ 23) (-23) ∧ valueOf .bf16 0xbf80 = .fin true (2 ^ 7) (-7) ∧
    (unVal .fexp2 (valueOf .fp32 0x3f800000)).isSome = true ∧ (unVal .flog2 (valueOf .fp32 0x40000000)).isSome = true ∧
    (unVal .ftanh (valueOf .fp32 0x3f800000)).isSome = true ∧ (1 : Nat) ≠ 0 := by decide +kernel
theorem witness_FloatFunctions_values : ∃ vs : List Val, [0x3f800000, 0x40000000].map (fun x => unVal .frcp (valueOf .fp32 x)) = vs.map some ∧ vs.length = 2 :=
  ⟨([0x3f800000, 0x40000000].map fun x => (unVal .frcp (valueOf .fp32 x)).getD .nan), by decide +kernel⟩
/-- The execution of a station as a run. -/
def runT : Run := (stT .compute).run (at0 .compute) (loadFrame .compute)
theorem witness_StationSources : runT.f.r.isPoison = false ∧ (0 : Spec).toNat + 16 ≤ 16 ∧ (27 : Spec).toNat = 16 + 11 ∧
    (31 : Spec).toNat = 28 + 3 ∧ (0x3f : Spec).toNat = 0x30 + 15 ∧ (0x2e : Spec).toNat = 0x2e := by decide +kernel
theorem witness_GroupReadsBack : (64 ∈ [8, 16, 32, 64] ∧ [1, 2 ^ 64 - 1].length * 64 = 32 * 4 ∧ (∀ x ∈ [1, 2 ^ 64 - 1], x < 2 ^ 64)) ∧
    runT.f.r.isPoison = false ∧ (12 : Spec).toNat + 4 ≤ 16 ∧ (24 : Spec).toNat + 4 ≤ 28 ∧ (31 : Spec).toNat < 32 := by decide +kernel
theorem witness_MovesUndo : ∃ x : LaneIn, x.n % 2 = 0 ∧ x.a.length = x.n ∧ x.b.length = x.n ∧ x.b.getD 1 0 ≠ 0 :=
  ⟨⟨32, 2, [3, 4], [0, 1], [], [], 0, 0⟩, by decide⟩
theorem witness_Rounding : ((-3 : Int) < -2 ∧ 5 % 2 = 1 ∧ 4 % 2 = 0) ∧
    (Fmt.e2m1 ∈ [Fmt.fp32, .bf16, .fp16, .e4m3, .e5m2, .e3m2, .e2m1] ∧ 15 < 2 ^ fmtBits Fmt.e2m1) ∧
    (roundTo (valueOf .e4m3 0x7e) .e4m3 .rup true 0).1 = some 0x7e := by decide +kernel

/-! Record control and matrix. -/

/-- A compute station of a lay with a handler. -/
def handledT (h : Frame → Frame := id) : State :=
  (stT .compute h).modLay 0 0 fun x => { x with handler := some (0, 1) }
theorem witness_Terminators : ∃ f st, (stT .compute).cur = .station (at0 .compute) f ∧
    (stT .compute).station? (at0 .compute) = some st ∧ f.stores = [] ∧ f.outst = [] ∧ st.parkFree = true :=
  ⟨_, _, rfl, rfl, rfl, rfl, by decide +kernel⟩
/-- An execution with two buffered stores. -/
def storesT : State := stT .compute fun f => { f with stores :=
  [⟨[⟨.bank 0, 0, 4, [1, 2, 3, 4], [], 0, 0⟩], [], true, false, false, false, 0, []⟩,
   ⟨[⟨.hbm, 0x210000, 4, [5, 6, 7, 8], [], 0x20000, 0x20000⟩], [⟨0x20000, 4⟩], false, false, false, false, 1, []⟩] }
theorem witness_CompletionSendsStores : ∃ f st, storesT.cur = .station (at0 .compute) f ∧ storesT.station? (at0 .compute) = some st ∧
    (∀ b ∈ f.stores, st.tokBlocks f.id b.waits (unitGranules b.units) = false) ∧ f.stores.length = 2 ∧ st.parkFree = true :=
  ⟨_, _, rfl, rfl, by decide +kernel, rfl, by decide +kernel⟩
theorem witness_RaiseFaults : ∃ x st f, handledT.cur = .station (at0 .compute) f ∧ f.predOk false 0 false = true ∧
    handledT.lay? 0 0 = some x ∧ x.handler.isSome = true ∧ handledT.station? (at0 .compute) = some st ∧ st.exc = none ∧
    (∀ g ∈ st.frames, ∀ w, g.st ≠ .faulted w) ∧ f.port ≠ 5 :=
  ⟨_, _, _, rfl, by decide +kernel, rfl, rfl, rfl, rfl, fun _ hg => (List.not_mem_nil hg).elim, by decide +kernel⟩

/-- A link from output 0 of the reel of page 0 to port 0 of station 0, and the other way. -/
def reelLink : Link := ⟨⟨0, reelSid, 0⟩, ⟨0, 0, 0⟩, 2, 2, [], [], 0, 0, 0⟩
/-- An armed pass. -/
def passT : Pass := ⟨0x20000, 0, false, none, none, none, false, false⟩
/-- A lay with an armed pass and that link. -/
def armedT : Lay := { layT with pass := some passT, links := [reelLink] }
theorem witness_Inject : (seqT.lay? 0 0 = none ∧ seqT.slotHeld 0 0 0 = false ∧ (withLay armedT).slotHeld 0 0 0 = false ∧
      (withLay layT).slotHeld 0 0 0 = false ∧ (withLay armedT).threadPending 0 0 = false) ∧
    (∃ x, (withLay armedT).lay? 0 0 = some x ∧ x.npages = 1 ∧ x.passOpen = true ∧
      (x.linkFrom? ⟨0, reelSid, 0⟩).isSome = true ∧ x.linkFrom? ⟨0, reelSid, 1⟩ = none) ∧
    (∃ x, (withLay layT).lay? 0 0 = some x ∧ x.passOpen = false) ∧
    (let h := (regs [(1, 0x0001000000000007)]).readT 0 0 1; h.extractLsb' 61 3 = 0 ∧ (h.extractLsb' 44 5).toNat = 16) ∧
    ((regs [(1, 0x0001100000000000)]).readT 0 0 1).extractLsb' 44 5 = 17 ∧
    ((withLay armedT (regs [(1, 0x100000000000), (2, 0x20000)])).threadRead 0 0 0x20000 4 4).1.toOption = some [0, 0, 0, 0] := by
  refine ⟨by decide +kernel, ⟨_, rfl, by decide +kernel⟩, ⟨_, rfl, by decide +kernel⟩, by decide +kernel, by decide +kernel, by decide +kernel⟩
/-- A thread that waits to inject. -/
def injectingT (x : Lay) : State := withLay x (seqT.modThread 0 0 fun th => { th with wait := .inject 3 0 0 0 Rec.zero })
theorem witness_InjectLeaves :
    (∃ x, (injectingT armedT).lay? 0 0 = some x ∧ x.succ = none ∧ x.passOpen = true ∧ x.linkFrom? ⟨0, reelSid, 0⟩ = some 0 ∧
      (x.stream? 0 0).map (fun st => st.lastInj) = some false ∧
      x.hasSlot 0 = true ∧ ((injectingT armedT).ctx 0).preempt = none ∧ ((injectingT armedT).thread 0 0).wait = .inject 3 0 0 0 Rec.zero) ∧
    (∃ x, (injectingT { armedT with succ := some ⟨0, [], false⟩ }).lay? 0 0 = some x ∧ x.succ.isSome = true) ∧
    (∃ x, (injectingT layT).lay? 0 0 = some x ∧ x.succ = none ∧ x.passOpen = false) :=
  ⟨⟨_, rfl, by decide +kernel⟩, ⟨_, rfl, rfl⟩, ⟨_, rfl, rfl, rfl⟩⟩
theorem witness_MatrixInstructions : ∃ f m, (stT .matrix).cur = .station (at0 .matrix) f ∧ f.mx = some m ∧ f.r.isPoison = false ∧
    (∀ x y z, m.w.owner ≠ some (.absorb x y z)) ∧ m.ufmt = none ∧ m.swap = none :=
  ⟨_, _, rfl, rfl, by decide +kernel, by intro x y z; simp [Matrix.initial, WVec.empty], rfl, rfl⟩
theorem witness_matrix_fields : (0x8000 : BitVec 16).getLsbD 15 = true ∧ (0x7fff : BitVec 16).getLsbD 15 = false ∧
    (7 : BitVec 16).toNat % 4 = 3 ∧ (7 : BitVec 16).getLsbD 2 = true ∧
    (∃ x y z, ({ WVec.empty with owner := some (.absorb x y z) } : WVec).owner = some (.absorb 0 0 0)) ∧
    ({ Matrix.initial with ufmt := some 4 }.uReaches 7 = true ∧ Matrix.initial.uReaches 0 = false) := by
  refine ⟨by decide, by decide, by decide, by decide, ⟨0, 0, 0, rfl⟩, by decide +kernel⟩
theorem witness_UslotReadsBack : ∃ m : Matrix, (m.u.map Prod.fst).Pairwise (· < ·) ∧ (∀ x ∈ m.u, x.2 ≠ vzero) ∧ m.u ≠ [] :=
  ⟨{ Matrix.initial with u := [(3, Vector.replicate 16 1)] }, by decide +kernel⟩

/-! Memory instructions. -/

/-- A far access at the address in s1, of eight bytes; its leaf may be read and written. -/
def farO (sz : BitVec 3) : MForm := ⟨0, 3, 1, 2, 0, 1, sz, 0, 0⟩
def rwLeaf : Leaf := ⟨0x210000, 0, 0, true, true, false⟩
/-- s1 at the last eight bytes of the data page. -/
def farT : State := regs [(1, 0x2fff8)]
theorem witness_ThreadMemory : farT.cur = .thread 0 0 ∧ spaceOf (farO 7).sp = .far ∧ farT.threadPending 0 0 = false ∧
    rangeCanonical 0x2fff8 8 = true ∧ 0x2fff8 % 65536 + 8 ≤ 65536 ∧ 0x2fff8 % 8 = 0 ∧
    (farT.translate (farT.dataUnit 0) 0 0x2fff8 ⟨true, true, false⟩).1.toOption = some rwLeaf ∧
    rwLeaf.mt = 0 ∧ isPoisoned 32 farT.hbmPoison (0x210000 + 0x2fff8 % 65536) 8 = false ∧
    (farT.readT 0 0 1 + (0 : BitVec 20).signExtend 64).toNat = 0x2fff8 ∧
    (farT.upkeep.flaws = [] ∧ farT.upkeep.repairing = [] ∧ memWf farT.hbm = true ∧ 0x210000 + 0x2fff8 % 65536 + 8 ≤ hbmSize) := by decide +kernel
/-- The units of an access. -/
def unitsOf (ps : List (Nat × Nat)) : List (Nat × Nat) := ps.flatMap fun p => hbmUnits p.1 p.2
/-- s1 at an address, with no bring-up mode and perhaps an access under way. -/
def splitT (a : DWord) (xs : List ThreadAcc) : State :=
  let s := regs [(1, a)]
  { s with secure := { s.secure with bringup := 0 } }.modThread 0 0 fun th => { th with accs := xs, wait := if xs = [] then .none else .stand .units }
/-- An access that has performed its first unit. -/
def halfAcc (wr : Bool) : ThreadAcc := ⟨0x2001c, 8, wr, [(0x210020, 4)], [1, 2, 3, 4], false⟩
theorem witness_ThreadMemory_accesses :
    ((farT.thread 0 0).accs = [] ∧ [false, true].map (fun wr => (farT.farRange 0 0x2fff8 8 1 ⟨!wr, wr, false⟩).1.toOption.map unitsOf) =
      [some [(0x21fff8, 8)], some [(0x21fff8, 8)]]) ∧ farT.secure.bringup.getLsbD 0 = true ∧ farT.stackEvent 64 [(0x21fff8, 8)] = [(0x21fff8, 8)] ∧
    ((splitT 0x2001c []).farRange 0 0x2001c 8 1 ⟨false, true, false⟩).1.toOption.map unitsOf = some [(0x21001c, 4), (0x210020, 4)] ∧
    (∀ wr : Bool, let s := splitT 0x2001c [halfAcc wr]
      s.secure.bringup.getLsbD 0 = false ∧ (s.thread 0 0).accs.find? (fun y => y.va == 0x2001c && y.len == 8 && y.wr == wr) = some (halfAcc wr) ∧
      s.stackEvent 64 (halfAcc wr).todo = [(0x210020, 4)] ∧ ((halfAcc wr).todo.map Prod.snd).sum ≤ 8 ∧ s.threadPending 0 0 = false) := by
  decide +kernel
/-- The error of a translation. -/
def errOf {α β : Type} (x : Except Nat α × β) : Option Nat := match x.1 with | .error e => some e | .ok _ => none
theorem witness_ThreadRange : (rangeCanonical 0x1fffc 8 = true ∧ 65536 - 0x1fffc % 65536 = 4 ∧
      (seqT.translate (seqT.dataUnit 0) 0 0x1fffc ⟨true, false, false⟩).1.toOption.map Leaf.mt = some 0 ∧
      ((seqT.translate (seqT.dataUnit 0) 0 0x1fffc ⟨true, false, false⟩).2.translate (seqT.dataUnit 0) 0 0x20000 ⟨true, false, false⟩).1.toOption = some rwLeaf) ∧
    (rangeCanonical 0x2fffc 8 = true ∧ (seqT.translate (seqT.dataUnit 0) 0 0x2fffc ⟨true, false, false⟩).1.toOption = some rwLeaf ∧
      (errOf ((seqT.translate (seqT.dataUnit 0) 0 0x2fffc ⟨true, false, false⟩).2.translate (seqT.dataUnit 0) 0 0x30000 ⟨true, false, false⟩)).isSome = true ∧
      (errOf ((seqT.translate (seqT.dataUnit 0) 0 0x2fffc ⟨false, true, false⟩).2.translate (seqT.dataUnit 0) 0 0x30000 ⟨false, true, false⟩)).isSome = true) := by
  decide +kernel
/-- Data access through a cached leaf of host memory, and of poisoned HBM. -/
def hostLeafT : State := { farT with tlb := [⟨.shared 0 0, 0, 2, 0x210000, 1, 0, true, true, false⟩] }
def poisonedT : State := { farT with hbmPoison := [0x21ffe0 / 32] }
theorem witness_ThreadAccessTraps : rangeCanonical (2 ^ 56 - 4) 8 = false ∧ (rangeCanonical 0x20001 8 = true ∧ 0x20001 % 8 ≠ 0) ∧
    (errOf (seqT.translate (seqT.dataUnit 0) 0 0x50000 ⟨true, false, false⟩)).isSome = true ∧
    (errOf (seqT.translate (seqT.dataUnit 0) 0 0x50000 ⟨true, true, false⟩)).isSome = true ∧ 0x50000 % 8 = 0 ∧
    errOf (seqT.translate (seqT.dataUnit 0) 0 0x10000 ⟨false, true, false⟩) = some 2 ∧ (seqT.thread 0 0).accs = [] ∧
    (∀ n ∈ [(⟨true, false, false⟩ : Need), ⟨false, true, false⟩, ⟨true, true, false⟩],
      (hostLeafT.translate (hostLeafT.dataUnit 0) 0 0x2fff8 n).1.toOption = some ⟨0x210000, 1, 0, true, true, false⟩) ∧
    (isPoisoned 32 poisonedT.hbmPoison (0x210000 + 0x2fff8 % 65536) 8 = true ∧
      (poisonedT.farRange 0 0x2fff8 8 1 ⟨true, false, false⟩).1.toOption.map unitsOf = some [(0x21fff8, 8)] ∧ poisonedT.stackEvent 64 [(0x21fff8, 8)] = [(0x21fff8, 8)] ∧
      (poisonedT.translate (poisonedT.dataUnit 0) 0 0x2fff8 ⟨true, true, false⟩).1.toOption = some rwLeaf ∧
      poisonedT.upkeep.flaws = [] ∧ poisonedT.upkeep.repairing = []) := by decide +kernel

/-- A thread that may reach the host, whose portal holds the page of address 0x20000, and a host that completes every
atomic. -/
def portalT : State :=
  let s := (regs [(1, 0x20000)]).modPort 0 fun p => { p with xmask := 1 }
  { s with tlb := [⟨.portal 0, 0, 2, 0x4000, 1, 0, true, true, false⟩], links := { s.links with hostcap := 0x3f } }
theorem witness_ThreadPortal : spaceOf 2 = .portal ∧ portalT.threadPending 0 0 = false ∧ xTarget portalT 0 0x20000 = some 0 ∧
    (portalT.portalRange 0 0x20000 8 1 ⟨true, false, false⟩ [] []).1.toOption = some [⟨.host, 0x4000, 8, [], [], 0x20000, 0x20000⟩] ∧
    (portalT.portalRange 0 0x20000 8 8 ⟨true, true, false⟩ (bytesOfNat 8 0) []).1.toOption =
      some [⟨.host, 0x4000, 8, [0, 0, 0, 0, 0, 0, 0, 0], [], 0x20000, 0x20000⟩] ∧
    portalT.supports 0 .host .cas 8 = true ∧ portalT.supports 0 .host (.atomI 0 8) 8 = true ∧ (8 : BitVec 4).getLsbD 3 = true := by decide +kernel

/-- What a check found. -/
def chkOf : Chk → Option (List MUnit × List VaRef)
  | .ok us vas => some (us, vas)
  | _ => none
theorem chk_ok {x : Chk} {us : List MUnit} {vas : List VaRef} (h : chkOf x = some (us, vas)) : x = .ok us vas := by
  cases x <;> simp_all [chkOf]
/-- A station beside a bank of a role. -/
def nearT (r : Role) (h : Frame → Frame := id) : State :=
  (stT .compute h).modLay 0 0 fun x => { x with stations := x.stations ++ [Station.fresh 0 0x20 (.bank (Bank.fresh r 1024))] }
/-- A near access of one word at byte 8. -/
def nearO (m : BitVec 4) : MForm := ⟨m, 4, 0x28, 5, 0, 0, 0, 0, 8⟩
/-- Its unit. -/
def nearU (d c : List Byte) : MUnit := ⟨.bank 0, 8, 4, d, c, 8, 8⟩
theorem witness_StationLoads : ∃ x st f, (nearT .buf).cur = .station (at0 .compute) f ∧ (nearT .buf).lay? 0 0 = some x ∧
    (nearT .buf).station? (at0 .compute) = some st ∧ st.parkFree = true ∧ st.tokBlocks f.id f.waits (unitGranules [nearU [] []]) = false ∧
    effAddr (nearO 0) (((nearT .buf).run (at0 .compute) f).base (nearO 0)).1 0 = 8 ∧
    chkOf ((nearT .buf).checkAccess (at0 .compute) x (nearO 0) loadKind [(8, 4)] [] []) = some ([nearU [] []], []) ∧
    chkOf ((nearT .buf).checkAccess (at0 .compute) x (nearO 0) { loadKind with align := 4 } [(8, 4)] [] []) = some ([nearU [] []], []) :=
  ⟨_, _, _, rfl, rfl, rfl, by decide +kernel, by decide +kernel, by decide +kernel, by decide +kernel, by decide +kernel⟩
theorem witness_StationLoads_presence : ∃ x, (nearT .pres).lay? 0 0 = some x ∧
    chkOf ((nearT .pres).checkAccess (at0 .compute) x (nearO 0) ⟨.ldp, .ldp, 4, false, false⟩ [(8, 4)] [] []) = some ([nearU [] []], []) :=
  ⟨_, rfl, by decide +kernel⟩
theorem witness_StationStores : ∃ x f, (nearT .buf).cur = .station (at0 .compute) f ∧ (nearT .buf).lay? 0 0 = some x ∧ f.r.isPoison = false ∧
    chkOf ((nearT .buf).checkAccess (at0 .compute) x (nearO 0) storeKind [(8, 4)] [0, 0, 0, 0] []) = some ([nearU [0, 0, 0, 0] []], []) :=
  ⟨_, _, rfl, rfl, by decide +kernel, by decide +kernel⟩
theorem witness_StationStores_poison :
    (frame? (nearT .buf fun f => { f with r := { f.r with hdr := { f.r.hdr with fmt := 15 } } })).map (fun f => f.r.isPoison) = some true := by decide +kernel
theorem witness_StationAtomics : ∃ x st f, (nearT .buf).cur = .station (at0 .compute) f ∧ (nearT .buf).lay? 0 0 = some x ∧
    (nearT .buf).station? (at0 .compute) = some st ∧ st.parkFree = true ∧ f.stores = [] ∧ f.r.isPoison = false ∧
    chkOf ((nearT .buf).checkAccess (at0 .compute) x (nearO 0) (atomKind (nearO 0)) [(8, 4)] [0, 0, 0, 0] []) = some ([nearU [0, 0, 0, 0] []], []) ∧
    chkOf ((nearT .buf).checkAccess (at0 .compute) x (nearO 0) (atomfKind (nearO 0)) [(8, 4)] [0, 0, 0, 0] []) = some ([nearU [0, 0, 0, 0] []], []) ∧
    chkOf ((nearT .buf).checkAccess (at0 .compute) x (nearO 0) (casKind (nearO 0)) [(8, 4)] [0, 0, 0, 0] [0, 0, 0, 0]) =
      some ([nearU [0, 0, 0, 0] [0, 0, 0, 0]], []) ∧
    noReturn (nearO 0) = false ∧ (noReturn (nearO 8) = true ∧ semOf (nearO 8) = 0) ∧ (noReturn (nearO 12) = true ∧ semOf (nearO 12) ≠ 0) :=
  ⟨_, _, _, rfl, rfl, rfl, by decide +kernel, rfl, by decide +kernel, by decide +kernel, by decide +kernel, by decide +kernel, by decide +kernel⟩
theorem witness_StationAtomics_presence : ∃ x, (nearT .pres).lay? 0 0 = some x ∧
    chkOf ((nearT .pres).checkAccess (at0 .compute) x (nearO 0) ⟨.stp, .claim, 4, true, false⟩ [(8, 4)] [0, 0, 0, 0] []) =
      some ([nearU [0, 0, 0, 0] []], []) := ⟨_, rfl, by decide +kernel⟩
/-- A station with a token entry that has retired all it covers. -/
def tokT : State := (stT .compute).modStation (at0 .compute) fun y => { y with toks := [⟨7, 3, 0, some [], false, []⟩] }
theorem witness_FenceAndTokens : seqT.threadPending 0 0 = false ∧ ∃ st k, tokT.station? (at0 .compute) = some st ∧ k ∈ st.toks ∧ k.id = 7 ∧
    k.addrs.isSome = true ∧ (∀ r ∈ k.reqs, ∀ q ∈ tokT.reqs, q.id = r → q.stage = .done) :=
  ⟨by decide +kernel, _, ⟨7, 3, 0, some [], false, []⟩, rfl, by decide +kernel, rfl, rfl, by decide +kernel⟩

/-! Requests, banks and HBM. -/

/-- A request of the execution of the station, by operation, unit and stage. -/
def reqT (op : UOp) (us : List MUnit) (st : Stage) : Req :=
  { id := 5, place := at0 .compute, owner := .exec 0, exec := 0, op := op, vas := [], wr := false, atomic := false, portal := false,
    units := us, got := [], perm := [], fwd := [], stage := st, after := [], posted := false, relaxed := false, poison := false, unflushed := false,
    out := [], marked := false, born := 0 }
/-- A state with that one request under way. -/
def reqsT (q : Req) (s : State := nearT .buf) : State := { s with reqs := [q], nextId := 6 }
theorem witness_FenceAndTokens_waits : let s := reqsT { reqT .wr [] .sent with owner := .thread 0 } seqT
    s.threadPending 0 0 = true ∧ (s.thread 0 0).wait = .none ∧ 2 ≤ (4 : BitVec 4).toNat % 8 := by decide +kernel
/-- The bank of nearT with a change. -/
def bankOf (r : Role) : Bank := Bank.fresh r 1024
/-- nearT with words of its bank present. -/
def presentT (ws : List Nat) : State := (nearT .pres).modStation ⟨0, 0, 0, 0x20⟩ fun y =>
  match y.body with | .bank b => { y with body := .bank { b with pres := ws } } | _ => y
theorem witness_BankEvents : ∃ x b, (reqsT (reqT .rd [nearU [] []] .window)).lay? 0 0 = some x ∧ x.bankAt? 0 = some b ∧ b = bankOf .buf ∧
    (reqsT (reqT .rd [nearU [] []] .window)).req? 5 = some (reqT .rd [nearU [] []] .window) ∧ (reqT .rd [nearU [] []] .window).bank? = some 0 ∧
    (reqsT (reqT .rd [nearU [] []] .window)).reqs.Pairwise (fun a b => a.id ≠ b.id) ∧
    (∀ op ∈ [UOp.rd, .wr, .atomI 0 4, .ldp], ∀ st ∈ [Stage.window, .sent, .retry 0], let q := reqT op [nearU [] []] st
      { reqsT q with cyc := 1 }.eligible b q 0 = true ∧ (reqsT q).afterDone q = true ∧ q.isOwn 0 = false ∧ 5 ∉ b.window ∧
      b.window.length < 32 ∧ (reqsT q).upkeep.bankFlaws = [] ∧ q.posted = false ∧ q.unflushed = false ∧ b.poisoned 8 4 = false) ∧
    (let q := { reqT .ldp [nearU [] []] .sent with place := ⟨0, 0, 0, 0x20⟩ }; q.isOwn 0 = true ∧ q.windowKey 0 = 0 ∧ q.exec ∉ b.window ∧
      b.records.length < 24 ∧ q.exec ∈ { b with window := [0] }.window) :=
  ⟨_, _, rfl, rfl, rfl, rfl, rfl, by decide +kernel, by decide +kernel, by decide +kernel⟩
/-- A request of two units at the bank, or at it and in HBM, out of the bring-up mode. -/
def twoT (op : UOp) (w : MUnit) : State :=
  let s := reqsT (reqT op [nearU [1, 2, 3, 4] [], w] .window)
  { s with cyc := 1, secure := { s.secure with bringup := 0 } }
theorem witness_BankEvents_units : ∀ op ∈ [UOp.rd, .wr], ∀ w ∈ [({ nearU [] [] with addr := 12 } : MUnit), ⟨.hbm, 0x210000, 4, [5, 6, 7, 8], [], 12, 8⟩],
    let q := reqT op [nearU [1, 2, 3, 4] [], w] .window
    (twoT op w).req? 5 = some q ∧ q.bank? = some 0 ∧ (twoT op w).eligible (bankOf .buf) q 0 = true ∧ (twoT op w).afterDone q = true ∧
      (twoT op w).secure.bringup.getLsbD 0 = false ∧ (bankOf .buf).poisoned 8 4 = false ∧ (w.node = .bank 0 ∨ w.node = .hbm) := by decide +kernel
theorem witness_BankEvents_presence :
    (((presentT [2]).lay? 0 0).bind fun x => x.bankAt? 0).map (fun b => (b.present 8 4, b.present 12 4, b.taken 12 4)) = some (true, false, false) := by
  decide +kernel
/-- A parked claim that has been granted. -/
def grantT : State := { (stT .compute) with
  ctxs := ((reqsT { reqT .claim [nearU [] []] .done with got := [0] }).modStation (at0 .compute) fun y =>
    { y with frames := [{ loadFrame .compute with st := .parked 5 }] }).ctxs,
  reqs := [{ reqT .claim [nearU [] []] .done with got := [0] }], nextId := 6, cur := .device }
theorem witness_PresenceStore : ∃ q st f, grantT.req? 5 = some q ∧ grantT.station? q.place = some st ∧ q.owner = .exec 0 ∧ st.frame? 0 = some f ∧
    q.op = .claim ∧ q.stage = .done ∧ q.got = [0] ∧ f.st = .parked 5 ∧ f.stores = [] :=
  ⟨_, _, _, rfl, rfl, rfl, rfl, rfl, rfl, rfl, rfl, rfl⟩
/-- A claim at its bank, and the range that it names free and taken. -/
theorem witness_PresenceStore_claim : ∀ op ∈ [UOp.claim, .stp], let q := reqT op [nearU [1, 2, 3, 4] []] .window
    let s := { reqsT q (nearT .pres) with cyc := 1 }
    s.req? 5 = some q ∧ (s.lay? 0 0).bind (fun x => x.bankAt? 0) = some (bankOf .pres) ∧ s.eligible (bankOf .pres) q 0 = true ∧ s.afterDone q = true ∧
      (bankOf .pres).poisoned 8 4 = false ∧ (bankOf .pres).taken 8 4 = false ∧ { bankOf .pres with claims := [(2, 9)] }.taken 8 4 = true ∧
      s.upkeep.bankFlaws = [] ∧ q.posted = false ∧ q.unflushed = false := by decide +kernel
/-- A refused claim at a station with n executions in places. -/
def refusedT (n : Nat) : State := { (handledT) with
  ctxs := (handledT.modStation (at0 .compute) fun y =>
    { y with frames := { loadFrame .compute with st := .parked 5 } :: (List.range n).map fun i => { loadFrame .compute with id := 1 + i } }).ctxs,
  reqs := [{ reqT .claim [nearU [] []] .done with got := [1] }], nextId := 6, cur := .device }
theorem witness_PresenceStore_refused : ∀ n ∈ [0, 4], ∃ q x st f, (refusedT n).req? 5 = some q ∧ (refusedT n).lay? 0 0 = some x ∧ x.handler.isSome = true ∧
    (refusedT n).station? (at0 .compute) = some st ∧ st.frame? 0 = some f ∧ q.place = at0 .compute ∧ q.owner = .exec 0 ∧ q.op = .claim ∧
    q.stage = .done ∧ q.got = [1] ∧ f.st = .parked 5 ∧ f.port ≠ 5 ∧ (n = 0 → st.placesUsed < placeLimit st.sid) ∧
    (n = 4 → placeLimit st.sid ≤ st.placesUsed) ∧ st.exc.isNone = true ∧ (st.frames.all fun g => !g.isFaulted) = true := by
  intro n _
  exact ⟨_, _, _, { loadFrame .compute with st := .parked 5 }, rfl, rfl, rfl, rfl, rfl, by decide +revert +kernel⟩
theorem witness_BankReadsBack : (bankOf .buf).role ≠ .line ∧ (bankOf .buf).role ≠ .pres ∧ 2 + 2 ≤ 4 ∧ memWf (bankOf .buf).dat = true := by decide +kernel
theorem witness_HbmEvents : (∀ op ∈ [UOp.rd, .wr, .cas, .atomI 0 4], let q := reqT op [⟨.hbm, 0x210000, 4, [1, 2, 3, 4], [0, 0, 0, 0], 0x20000, 0x20000⟩] .sent
      let s := reqsT q
      s.req? 5 = some q ∧ q.stage = .sent ∧ s.afterDone q = true ∧ q.posted = false ∧ q.unflushed = false ∧
      s.rowsBusy 0x210000 4 = false ∧ s.upkeep.flaws = [] ∧ 0x210000 + 4 ≤ hbmSize ∧ isPoisoned 32 s.hbmPoison 0x210000 4 = false) ∧
    isPoisoned 32 [0x210000 / 32] 0x210000 4 = true ∧ isRmw (.atomI 0 4) = true ∧ (7 : Nat) ∈ [7] := by decide +kernel
/-- A portal unit of four bytes. -/
def outU (nd : Node) : MUnit := ⟨nd, 0x4000, 4, [1, 2, 3, 4], [], 0x20000, 0x20000⟩
theorem witness_PortalEvents : (∀ nd ∈ [Node.host, .peer 11], ∀ op ∈ [UOp.rd, .wr], let v := outU nd
      let q := reqT op [v] .sent
      let s := reqsT q
      s.req? 5 = some q ∧ s.needsMark q v = false ∧ s.afterDone q = true ∧ s.tagsUsed (tagPool v) < portalTags (tagPool v) ∧
      (∀ y ∈ s.reqs, y.tagPlace = none) ∧ s.supports 0 nd op 4 = true ∧ q.posted = false ∧ q.unflushed = false ∧
      (let z := { q with stage := .tagWait 3 }; z.tagPlace = some (tagPool v, 3) ∧ (reqsT z).tagsUsed (tagPool v) < portalTags (tagPool v))) ∧
    ((reqsT (reqT .cas [outU (.peer 3)] .linked)).supports 0 (.peer 3) .cas 4 = false) ∧
    (let s := { reqsT (reqT .rd [outU .host] .linked) with cyc := 20000000 }; 0 + 2000 * s.links.xtimeout.toNat ≤ s.cyc) ∧
    (let q := { reqT .wr [outU .host] .sent with unflushed := true }; (reqsT q).needsMark q (outU .host) = false ∧ q.unflushed = true) ∧
    (let q := { reqT .wr [] .linked with unflushed := true }
     (reqsT q).req? 5 = some q ∧ (reqsT q).tagsUsed 0 < portalTags 0 ∧ ∀ y ∈ (reqsT q).reqs, y.tagPlace = none) ∧
    (∀ b : Bool, let q := { reqT .flush [⟨.host, 0, 0, [], [], 0, 0⟩] .linked with unflushed := true, posted := b }; (reqsT q).req? 5 = some q) ∧
    (let s := { reqsT (reqT .rd [] .sent) with reqs := (List.range 512).map fun i => { reqT .rd [outU (.peer 3)] .linked with id := i } }
     portalTags 5 ≤ s.tagsUsed 5) := by decide +kernel
/-- An execution parked on a finished load, and a thread on a finished portal read. -/
def loadedT : State := { grantT with
  ctxs := (grantT.modStation (at0 .compute) fun y => { y with segs := y.segs.set 0 (some ⟨[0x6000000000000000], 0⟩) }).ctxs,
  reqs := [{ reqT .rd [] .done with got := [1, 2, 3, 4] }] }
theorem witness_RepliesResume : (∃ q st f, loadedT.req? 5 = some q ∧ q.id = 5 ∧ q.stage = .done ∧ q.owner = .exec 0 ∧ loadedT.station? q.place = some st ∧
      st.frame? 0 = some f ∧ f.st = .parked 5 ∧ q.op ≠ .claim ∧ q.fwd = [] ∧ st.nextInstr f = some (.ld ⟨0, 0, 0, 0, 0, 0, 0, 0, 0⟩)) ∧
    (let q := { reqT .rd [] .done with owner := .thread 0 }
     let s := reqsT q (vecT.modThread 0 0 fun th => { th with wait := .portal 5 (some 3) })
     s.req? 5 = some q ∧ (s.thread 0 0).wait = .portal 5 (some 3) ∧ (s.ctx 0).tvec ≠ 0 ∧ (s.thread 0 0).inTrap = false ∧ q.posted = false) ∧
    (let q := { reqT (.atomI 0 4) [] .done with owner := .thread 0, posted := true, poison := true }
     let s := reqsT q vecT
     s.req? 5 = some q ∧ (s.thread 0 0).yields = true ∧ (s.ctx 0).tvec ≠ 0 ∧ (s.thread 0 0).inTrap = false) :=
  ⟨⟨_, _, _, rfl, rfl, rfl, rfl, rfl, rfl, rfl, by decide +kernel, rfl, by decide +kernel⟩, by decide +kernel⟩
/-- A request that waits for the walk of one region. -/
def walkQ (va : Nat) : Req := { reqT .rd [] .walk with vas := [⟨va, 4⟩] }
theorem witness_TranslationEvents : (reqsT (walkQ 0x20000)).untranslated (walkQ 0x20000) = [⟨0x20000, 4⟩] ∧
    ((reqsT (walkQ 0x20000)).walk 0 0x20000).toOption = some rwLeaf ∧ rwLeaf.grants (walkQ 0x20000).need = true ∧ rwLeaf.mt = 0 ∧
    (let s := reqsT (walkQ 0x20000)
     s.walkBusy 0 0x20000 = false ∧ s.upkeep.flaws = [] ∧ (0, regionOf 0x20000) ∈ s.walking (s.dieOf (walkQ 0x20000).place)) ∧
    ((reqsT (walkQ 0x50000)).walk 0 0x50000).toOption = none ∧
    (let q := { walkQ 0x20000 with stage := .retry 3 }; (reqsT q).req? 5 = some q ∧ (reqsT q).waitFree ((reqsT q).waitUnit q) = true ∧ q.op ≠ .ldp) := by decide +kernel
/-- An event that a context holds. -/
def eventT : Event := ⟨1, 9, true, 0, 0, 0, 0, 4, 0, 0, 1, 0x50000, 0, 0, none⟩
/-- A context whose queue is one short of full, with its registers in force, and one whose event thread is due. -/
def queueT : State := seqT.modCtx 0 fun x => { x with
  heldEvents := [eventT], fqhead := 7, inForce := { x.inForce with fqdepth := 3, fqbase := 0x300000 }, port := { x.port with intctl := 1, fqdepth := 3, fqbase := 0x300000 } }
theorem witness_FaultQueue : ((queueT.ctx 0).heldEvents = [eventT] ∧ (queueT.ctx 0).st ≠ .free ∧
      ((queueT.ctx 0).fqhead - (queueT.ctx 0).inForce.fqtail).toNat < 2 ^ ((queueT.ctx 0).inForce.fqdepth.toNat % 16)) ∧
    (let s := queueT.modCtx 0 fun x => { x with evthr := 0 }
     (s.ctx 0).eventTrapDue 0 = true ∧ (s.ctx 0).st = .running ∧ (s.ctx 0).preempt = none ∧ (s.thread 0 0).yields = true) ∧
    0x300000 + 128 * 7 + 128 ≤ hbmSize ∧ queueT.upkeep.repairing = [] ∧
    (let s := { seqT with log := { seqT.log with head := 3 } }
     (s.log.head - 3).toNat ≤ (s.log.head - s.log.tail).toNat ∧ (s.log.head - s.log.tail).toNat < (s.log.head - 4).toNat) := by decide +kernel
/-- The units of an event record at 0x300380, and a state in which the first n are written. -/
def eventUnits : List (Nat × List Byte × Bool) := jobUnits [(0x300380, 128)] (eventBytes eventT)
theorem witness_FaultQueue_units : (queueT.job? (.faultEventWrite 0) 7).isNone = true ∧ eventUnits.length = 4 ∧
    ∀ n ∈ [0, 1, 2, 3], let s := { queueT with jobs := [⟨.faultEventWrite 0, 7, eventUnits.drop n⟩] }
      s.job? (.faultEventWrite 0) 7 = some ⟨.faultEventWrite 0, 7, eventUnits.drop n⟩ ∧ eventUnits.drop n ≠ [] ∧ eventUnits.drop n <:+ eventUnits := by
  decide +kernel

/-! Stations, links and splices. -/

/-- A record of a class and tag. -/
def recT (cls : BitVec 3) (seq : BitVec 24) : Rec := { Rec.zero with hdr := { Hdr.zero with cls := cls, seq := seq, len := 1 } }
/-- A link that holds records in its buffer, or on their way. -/
def linkT (a b : End) (buf : List Item) (flight : List (Item × Nat) := []) : Link := ⟨a, b, 4, 4, flight, buf, 0, 0, 0⟩
/-- A compute station that runs emit o0 on class 0, with its links, in a lay with a change. -/
def flowT (h : Lay → Lay := id) (g : Station → Station := id) : State :=
  let st := { Station.fresh 0 0 .compute with segs := (Vector.replicate 4 none).set 0 (some ⟨[0x5000000000000000], 0⟩),
                                               cmap := Vector.replicate 8 (some 0) }
  withLay (h { layT with stations := [g st], links := [linkT ⟨0, reelSid, 0⟩ ⟨0, 0, 0⟩ [.data (recT 0 1)], linkT ⟨0, 0, 0⟩ ⟨0, reelSid, 0⟩ []] })
theorem witness_FabricMoves_fire : ∃ x st lk sg, flowT.lay? 0 0 = some x ∧ flowT.station? (at0 .compute) = some st ∧ st.runsSegments = true ∧
    st.dead = false ∧ st.exc = none ∧ st.again = [] ∧ (∀ f ∈ st.frames, f.id < flowT.nextId ∧ f.isFaulted = false) ∧ x.nextIntake st = some (0, 0, recT 0 1) ∧
    x.links[0]? = some lk ∧ st.intake (recT 0 1) = .run 0 sg (recT 0 1) :=
  ⟨_, _, _, _, rfl, rfl, rfl, rfl, rfl, rfl, (by intro f h; cases h), by decide +kernel, rfl, rfl⟩
/-- A completed execution with an exit. -/
def leavingT (e : Exit) : State := flowT (g := fun st => { st with frames := [{ loadFrame .compute with st := .leaving, exit := e }] })
theorem witness_FabricMoves_leave : (∃ x st f lk, (leavingT (.port 0)).lay? 0 0 = some x ∧ (leavingT (.port 0)).station? (at0 .compute) = some st ∧
      st.frame? 0 = some f ∧ st.mayLeave f = true ∧ f.exit = .port 0 ∧ x.linkFrom? ⟨0, 0, 0⟩ = some 1 ∧ x.links[1]? = some lk) ∧
    (∃ st f, (leavingT .drop).station? (at0 .compute) = some st ∧ st.frame? 0 = some f ∧ st.mayLeave f = true ∧ f.exit = .drop) :=
  ⟨⟨_, _, _, _, rfl, rfl, rfl, by decide +kernel, rfl, by decide +kernel, rfl⟩, ⟨_, _, rfl, rfl, by decide +kernel, rfl⟩⟩
/-- A completed fork with links from both its ports. -/
def forkedT : State := (leavingT (.fork 0 1)).modLay 0 0 fun x => { x with links := x.links ++ [linkT ⟨0, 0, 1⟩ ⟨0, reelSid, 1⟩ []] }
theorem witness_FabricMoves_fork : ∃ x st f lk lk', forkedT.lay? 0 0 = some x ∧ forkedT.station? (at0 .compute) = some st ∧ st.frame? 0 = some f ∧
    st.mayLeave f = true ∧ f.exit = .fork 0 1 ∧ (0 : Fin 4) ≠ 1 ∧ x.linkFrom? ⟨0, 0, 0⟩ = some 1 ∧ x.linkFrom? ⟨0, 0, 1⟩ = some 2 ∧
    x.links[1]? = some lk ∧ x.links[2]? = some lk' :=
  ⟨_, _, _, _, _, rfl, rfl, rfl, by decide +kernel, rfl, by decide, by decide +kernel, by decide +kernel, rfl, rfl⟩
/-- Two pages side by side with a link between them that has a record on its way and a slot to return. -/
def hopT (n : Nat) : State := withLay { layT with
  pages := [⟨0, 0, 0, 0, Reel.fresh 0 (Vector.replicate 4 0)⟩, ⟨1, 0, 1, 0, Reel.fresh 0 (Vector.replicate 4 0)⟩],
  links := [{ linkT ⟨0, reelSid, 0⟩ ⟨1, 0, 0⟩ [] [(.data (recT 0 1), n)] with back := 1 }] }
theorem witness_FabricMoves_links : ∃ x lk, (hopT 0).lay? 0 0 = some x ∧ x.links[0]? = some lk ∧ 0 < lk.back ∧
    lk.flight = [(.data (recT 0 1), 0)] ∧ (hopT 0).mayHop (x.route lk) 0 = true ∧ (x.route lk).length = 1 ∧ (x.route lk)[0]? = some ⟨0, 0, 0⟩ ∧
    (hopT 0).chanUp ⟨0, 0, 0⟩ = true ∧ (hopT 0).ownSlotFree 0 ⟨0, 0, 0⟩ = true ∧ (hopT 1).mayHop (x.route lk) 1 = true ∧
    ((hopT 1).ownSlotFree 0 ⟨0, 0, 0⟩ = false ∧ (hopT 1).sharedFree ⟨0, 0, 0⟩ = true ∧ (hopT 1).chanAsks = []) :=
  ⟨_, _, rfl, rfl, by decide +kernel, rfl, by decide +kernel, by decide +kernel, by decide +kernel, by decide +kernel, by decide +kernel, by decide +kernel⟩
/-- A link over three channels whose foremost record has no slot before it, with one behind it that has. -/
def behindT : State := withLay { layT with
  pages := [⟨0, 0, 0, 0, Reel.fresh 0 (Vector.replicate 4 0)⟩, ⟨3, 0, 3, 0, Reel.fresh 0 (Vector.replicate 4 0)⟩],
  links := [linkT ⟨0, reelSid, 0⟩ ⟨1, 0, 0⟩ [] [(.data (recT 0 1), 2), (.data (recT 0 2), 0)],
            linkT ⟨0, reelSid, 1⟩ ⟨1, 0, 1⟩ [] (List.replicate 9 (.data (recT 0 1), 3))] }
theorem witness_FabricMoves_behind : ∃ x lk ch ch', behindT.lay? 0 0 = some x ∧ x.links[0]? = some lk ∧ behindT.nextHops x lk = [(0, 2), (1, 0)] ∧
    (x.route lk)[2]? = some ch ∧ behindT.ownSlotFree 0 ch = false ∧ behindT.sharedFree ch = false ∧ (x.route lk)[0]? = some ch' ∧
    behindT.ownSlotFree 0 ch' = true :=
  ⟨_, _, _, _, rfl, rfl, by decide +kernel, rfl, by decide +kernel, by decide +kernel, rfl, by decide +kernel⟩
theorem witness_FabricMoves_full : let s := (hopT 0).modLay 0 0 fun x => { x with
      links := x.links ++ [linkT ⟨0, reelSid, 1⟩ ⟨1, 0, 1⟩ [] (List.replicate 8 (.data (recT 0 1), 1))] }
    s.ownSlotFree 0 ⟨0, 0, 0⟩ = false ∧ s.sharedFree ⟨0, 0, 0⟩ = false ∧ (s.lay? 0 0).map (fun x => (x.links.map fun l => s.mayHop (x.route l) 0)) =
      some [true, true] := by decide +kernel
/-- A channel in a condition. -/
def chanT (f r : Nat) (t : Bool) : State := { seqT with chans := [⟨⟨0, 0, 0⟩, f, r, t, false⟩] }
theorem witness_ChannelRepair : ((chanT 15 0 false).chan ⟨0, 0, 0⟩).fails < 16 ∧
    (16 ≤ ((chanT 16 2 false).chan ⟨0, 0, 0⟩).fails ∧ ((chanT 16 2 false).chan ⟨0, 0, 0⟩).retrains < 3) ∧
    (3 ≤ ((chanT 16 3 false).chan ⟨0, 0, 0⟩).retrains ∧ ((chanT 16 3 false).chan ⟨0, 0, 0⟩).failed = false) ∧
    ((chanT 0 1 true).chan ⟨0, 0, 0⟩).training = true ∧ seqT.log.head - seqT.log.tail ≠ 63 := by decide +kernel
/-- A lay whose handler is its station, with a record in the exception register or the handler's buffer. -/
def excRecT : ExcRec := ⟨recT 0 1, 0x100c, 0, false, none, false, none⟩
def excT (h : Lay → Lay) (g : Station → Station) : State := flowT (fun x => h { x with handler := some (0, 0) }) g
theorem witness_ExceptionPath :
    (let s := excT id fun st => { st with frames := [{ loadFrame .compute with st := .faulted 0x100c }] }
     ∃ x st f, s.lay? 0 0 = some x ∧ s.station? (at0 .compute) = some st ∧ x.handler.isSome = true ∧ st.exc = none ∧
       firstFaulted st.frames = some f ∧ f.st = .faulted 0x100c ∧ f.port ≠ 5 ∧ st.doomed? = none) ∧
    (let s := excT id fun st => { st with frames := [{ loadFrame .compute with st := .doomed 0x0c }] }
     ∃ x st f, s.lay? 0 0 = some x ∧ s.station? (at0 .compute) = some st ∧ x.handler.isSome = true ∧ st.exc = none ∧
       st.doomed? = some (f, 0x0c) ∧ st.placesUsed < placeLimit st.sid ∧ (∀ g ∈ st.frames, g.isFaulted = false) ∧ f.port ≠ 5) ∧
    (let s := excT id fun st => { st with exc := some excRecT }
     ∃ x st, s.lay? 0 0 = some x ∧ s.station? (at0 .compute) = some st ∧ st.exc = some excRecT ∧ excRecT.held = none ∧ excRecT.refire = false ∧
       x.handler.isSome = true ∧ x.excBuf.length < 8) ∧
    (let s := excT (fun x => { x with excBuf := [excRecT] }) fun st => { st with segs := st.segs.set 3 (some ⟨[0x5000000000000000], 0⟩) }
     ∃ x st g, s.lay? 0 0 = some x ∧ x.handler = some (0, 0) ∧ x.excBuf = [excRecT] ∧ x.station? 0 0 = some st ∧ st.segs[3] = some g ∧
       st.dead = false ∧ st.exc = none ∧ st.again = [] ∧ st.frames.any Frame.unfinished = false ∧ x.holdReasons st g = [] ∧
       ∀ f ∈ st.frames, f.id < s.nextId ∧ f.isFaulted = false) :=
  ⟨⟨_, _, _, rfl, rfl, rfl, rfl, rfl, rfl, by decide +kernel⟩, ⟨_, _, _, rfl, rfl, rfl, rfl, rfl, by decide +kernel⟩, ⟨_, _, rfl, rfl, rfl, rfl, rfl, rfl, by decide +kernel⟩,
   ⟨_, _, _, rfl, rfl, rfl, rfl, rfl, rfl, rfl, rfl, rfl, by decide +kernel, (by intro f h; cases h)⟩⟩
/-- The place of splice 0. -/
def spl : Place := ⟨0, 0, 0, 0x60⟩
/-- A splice with heads at ports 0 and 1 and links from ports 0 and 1. -/
def spliceT (b : Splice) (hs : List (Fin 4 × Rec)) (h : Station → Station := id) : State := withLay { layT with
  stations := [h (Station.fresh 0 0x60 (.splice b))], handler := some (0, 1),
  links := [linkT ⟨0, 0x60, 0⟩ ⟨0, reelSid, 0⟩ [], linkT ⟨0, 0x60, 1⟩ ⟨0, reelSid, 1⟩ []] ++
    hs.map fun q => linkT ⟨0, reelSid, q.1.val⟩ ⟨0, 0x60, q.1.val⟩ [.data q.2] }
/-- What the lay of a splice gives. -/
def ofLay {α : Type} (s : State) (f : Lay → α) : Option α := (s.lay? 0 0).map f
theorem witness_SplicesPass : (∃ x st, (spliceT (Splice.fresh .bcast [0, 1] 0) [(0, recT 0 5)]).lay? 0 0 = some x ∧
      (spliceT (Splice.fresh .bcast [0, 1] 0) [(0, recT 0 5)]).station? spl = some st ∧ st.body = .splice (Splice.fresh .bcast [0, 1] 0) ∧
      st.dead = false ∧ st.exc = none ∧ x.handler.isSome = true) ∧
    (∀ m ∈ [SMode.bcast, .splitRr, .splitHash, .bight], let s := spliceT (Splice.fresh m [0, 1] 15) [(0, recT 0 5), (1, recT 0 6)]
      ofLay s (fun x => x.headAt? spl 0) = some (some (2, recT 0 5)) ∧ ofLay s (fun x => x.headAt? spl 1) = some (some (3, recT 0 6)) ∧
      ofLay s (fun x => allSome ([0, 1].map fun q => x.outLink? spl q)) = some (some [0, 1])) ∧
    (let b := Splice.fresh .mergeArr [0, 1] 0
     ofLay (spliceT b [(0, recT 0 5), (1, recT 0 6)]) (fun x => x.mergeHeads spl b) = some [(0, 0, 2, recT 0 5, 0), (1, 1, 3, recT 0 6, 0)]) := by
  refine ⟨⟨_, _, rfl, rfl, rfl, rfl, rfl, rfl⟩, by decide +kernel, by decide +kernel⟩
/-- A round-robin splice whose turn is its second port's. -/
def turnB : Splice := { Splice.fresh .mergeRr [0, 1] 0 with next := 1 }
theorem witness_SplicesPass_turns :
    (ofLay (spliceT turnB [(0, recT 0 5)]) (fun x => x.mergeHeads spl turnB) = some [(0, 0, 2, recT 0 5, 0)] ∧
      ofLay (spliceT turnB [(0, recT 0 5)]) (fun x => x.outLink? spl 0) = some (some 0)) ∧
    (turnB.next + 1) % 2 = 0 ∧ (turnB.next + 0) % 2 ≠ 0 ∧
    (∀ m ∈ [SMode.bcast, .splitHash], let s := spliceT (Splice.fresh m [2, 2] 15) [(0, recT 0 5)]
      ofLay s (fun x => x.headAt? spl 0) = some (some (2, recT 0 5)) ∧ ofLay s (fun x => x.outLink? spl 2) = some none) ∧
    ofLay (spliceT (Splice.fresh .splitRr [0, 1] 0) []) (fun x => x.headAt? spl 0) = some none ∧
    (∀ m ∈ [SMode.mergeRr, .mergeArr], ofLay (spliceT (Splice.fresh m [0, 1] 0) []) (fun x => (x.mergeHeads spl (Splice.fresh m [0, 1] 0)).isEmpty) = some true) := by
  refine ⟨⟨by decide +kernel, by decide +kernel⟩, by decide +kernel, by decide +kernel, by decide +kernel, by decide +kernel, by decide +kernel⟩
/-- A merge.seq splice that waits for tag 5, empty or with entries. -/
def seqB (rs : List (Nat × Rec)) : Splice := { Splice.fresh .mergeSeq [0, 1] 7 with e := 5, reorder := rs }
theorem witness_SplicesPass_order :
    ofLay (spliceT (seqB []) [(0, recT 0 69), (1, recT 0 68)])
      (fun x => ((x.mergeHeads spl (seqB [])).find? fun h => decide (tagDistance (seqB []) h.2.2.2.1 < 64)).map fun h => (h.1, (seqB []).holdsEntry (reorderEntry h.2.2.2.1))) =
      some (some (1, false)) ∧
    (seqB [(4, recT 0 68)]).holdsEntry (reorderEntry (recT 0 68)) = true ∧
    (∀ c : BitVec 3, c ∈ [0, 7] → (seqB [(5, recT c 5)]).reorder.find? (fun y => y.1 == (seqB []).e.toNat % 64) = some (5, recT c 5)) ∧
    (recT 7 5).hdr.cls.toNat = (seqB []).opt.toNat ∧ (recT 0 5).hdr.cls.toNat ≠ (seqB []).opt.toNat := by decide +kernel
/-- A bight whose loop is one link of four slots. -/
def bightT (occ : Nat) (hs : List (Fin 4 × Rec)) : State := withLay { layT with
  stations := [Station.fresh 0 0x60 (.splice { Splice.fresh .bight [] 0 with occ := occ })],
  links := [linkT ⟨0, 0x60, 0⟩ ⟨0, 0x60, 1⟩ ((hs.filter fun q => q.1 == 1).map fun q => .data q.2), linkT ⟨0, reelSid, 0⟩ ⟨0, 0x60, 0⟩
    ((hs.filter fun q => q.1 == 0).map fun q => .data q.2)] }
theorem witness_SplicesPass_bight :
    ofLay (bightT 2 [(0, recT 0 1)]) (fun x => (x.loopCapacity 0 0x60, x.headAt? spl 0, x.headAt? spl 1, x.outLink? spl 0)) =
      some (4, some (1, recT 0 1), none, some 0) ∧
    2 + 2 ≤ 4 ∧ ¬ 3 + 2 ≤ 4 ∧ ofLay (bightT 3 [(0, recT 0 1), (1, recT 0 2)]) (fun x => x.headAt? spl 1) = some (some (0, recT 0 2)) ∧
    ofLay (bightT 3 [(1, recT 0 2)]) (fun x => x.headAt? spl 0) = some none := by decide +kernel
theorem witness_SplicePassMoves : ∃ x st lk ln, (spliceT (Splice.fresh .bcast [0, 1] 0) [(0, recT 0 5)]).lay? 0 0 = some x ∧
    (spliceT (Splice.fresh .bcast [0, 1] 0) [(0, recT 0 5)]).station? spl = some st ∧ st.body = .splice (Splice.fresh .bcast [0, 1] 0) ∧
    x.links[2]? = some lk ∧ x.links[0]? = some ln ∧ (2 : Nat) ≠ 0 := ⟨_, _, _, _, rfl, rfl, rfl, rfl, rfl, by decide⟩
/-- A fifo bank with a queue, a head at port 2 and a link from port 0. -/
def fifoT (q : List Rec) : State := withLay { layT with
  stations := [Station.fresh 0 0x20 (.bank { Bank.fresh .fifo 1024 with fifo := q })],
  links := [linkT ⟨0, 0x20, 0⟩ ⟨0, reelSid, 0⟩ [], linkT ⟨0, reelSid, 1⟩ ⟨0, 0x20, 2⟩ [.data (recT 0 9)]] }
/-- A cleat with a generation to release and release records to send on link 0. -/
def cleatT : Cleat := ⟨0, 3, 2, 0, 5, 4, 6, 5, false, true, some 0, [(5, 1, [], false)], [], [], [(4, 2)], true⟩
theorem witness_FifoAndReleases : (∃ x st b, (fifoT []).lay? 0 0 = some x ∧ (fifoT []).station? ⟨0, 0, 0, 0x20⟩ = some st ∧ st.body = .bank b ∧
      b.role = .fifo ∧ st.dead = false ∧ b.fifo.length < 1024 ∧
      (scanOrder st.lastPort).findSome? (fun i => (x.headAt? ⟨0, 0, 0, 0x20⟩ i).map fun h => (i, h.1, h.2)) = some (2, 1, recT 0 9)) ∧
    ofLay (fifoT [recT 0 1]) (fun x => x.outLink? ⟨0, 0, 0, 0x20⟩ 0) = some (some 0) ∧
    (∃ x, (withLay { armedT with cleats := [cleatT] }).lay? 0 0 = some x ∧ x.cleat? 0 3 = some cleatT ∧ cleatT.waiting = [(5, 1, [], false)] ∧
      cleatT.pending = [(4, 2)] ∧ cleatT.link = some 0 ∧ x.hasSlot 0 = true) :=
  ⟨⟨_, _, _, rfl, rfl, rfl, rfl, rfl, by decide +kernel, by decide +kernel⟩, by decide +kernel, ⟨_, rfl, by decide +kernel⟩⟩

/-! Reels. -/

/-- A lay with an armed pass whose reel has a stream in slot 0 and fibres. -/
def reelLay (st : Stream) (fs : Vector Fibre 4 := Vector.replicate 4 Fibre.closed) (ls : List Link := [reelLink]) : Lay :=
  { armedT with links := ls, pages := [⟨0, 0, 0, 0, { Reel.fresh 0 (Vector.replicate 4 0) with streams := (Vector.replicate 4 Stream.fresh).set 0 st, fibres := fs }⟩] }
/-- A stream of a form in a state. -/
def streamOf (f : SForm) (x : StreamSt) : Stream := { Stream.fresh with st := x, form := f, desc := List.replicate 64 0 }
/-- A reel instruction on slot 0 with its descriptor at s1. -/
def reelO : FForm := ⟨0, 3, 1, 4, 0, 0, 0, 0, 0, 0⟩
/-- A thread's access of n bytes at 0x20000 that has its last unit to perform. -/
def lastT (n : Nat) (wr : Bool) : State := splitT 0x20000 [⟨0x20000, n, wr, [(0x210020, n - 32)], List.replicate 32 0, false⟩]
theorem witness_StreamsStart : (seqT.threadPending 0 0 = false ∧ seqT.slotHeld 0 0 0 = false ∧ (withLay (reelLay Stream.fresh)).slotHeld 0 0 0 = false) ∧
    ((lastT 64 false).threadPending 0 0 = false ∧ ((lastT 64 false).threadRead 0 0 0x20000 64 1).1.toOption = some (List.replicate 64 0)) ∧
    (∃ x r, (withLay (reelLay Stream.fresh)).lay? 0 0 = some x ∧ x.loading = false ∧ x.reel? 0 = some r ∧ reelO.pg.toNat < x.npages ∧
      x.passOpen = true ∧ x.reelGone 0 0 = false ∧ (r.streams[0]).running = false ∧ x.portsLinked 0 0 .aff (List.replicate 64 0) = true ∧
      x.portsLinked 0 0 .gat (List.replicate 64 0) = false ∧ x.portsLinked 0 0 .fib [] = true) ∧
    ofLay (withLay (reelLay (streamOf .fib .running))) (fun x => (x.reel? 0).map fun r => (r.fibBusy 0, (r.streams[0]).running)) = some (some (true, true)) ∧
    ofLay (withLay layT) (fun x => (x.passOpen, decide (x.npages ≤ (1 : BitVec 6).toNat))) = some (false, true) ∧ seqT.lay? 0 0 = none := by
  refine ⟨by decide +kernel, by decide +kernel, ⟨_, _, rfl, rfl, rfl, by decide +kernel⟩, by decide +kernel, by decide +kernel, by decide +kernel⟩
/-- A stopped stream with its completion record. -/
def completed : Stream := { streamOf .aff .ended with compl := some (List.replicate 16 1) }
theorem witness_StreamsStop : (∃ x st, (withLay (reelLay (streamOf .aff .running))).resident? 0 0 = some x ∧ (withLay (reelLay (streamOf .aff .running))).slotHeld 0 0 0 = false ∧
      (withLay (reelLay (streamOf .aff .running))).stream? 0 0 0 0 = some st ∧ st.running = true ∧ st.ending = none ∧ st.parked = none) ∧
    ((withLay (reelLay (streamOf .aff .ended))).stream? 0 0 0 0).map (fun st => (st.running, st.compl)) = some (false, none) ∧
    ((withLay (reelLay completed)).stream? 0 0 0 0) = some completed ∧ (withLay (reelLay completed)).slotHeld 0 0 0 = false ∧
    ((seqT.modThread 0 0 fun th => { th with wait := .reelWait 3 4 0 0 0 }).thread 0 0).wait = .reelWait 3 4 0 0 0 :=
  ⟨⟨_, _, rfl, by decide +kernel, rfl, rfl, rfl, rfl⟩, by decide +kernel, by decide +kernel, by decide +kernel⟩
/-- A stream whose operation has issued an access, perhaps with a stop to come. -/
def issuedT (stop : Bool) : Stream := { streamOf .aff .running with issued := true, stopping := stop, barrier := true }
theorem witness_StreamsStop_issued : ((withLay (reelLay (issuedT false))).stream? 0 0 0 0 = some (issuedT false) ∧ (issuedT false).ending = none ∧
      (issuedT false).running = true) ∧
    ((issuedT true).parked = none ∧ (issuedT true).stopping = true ∧ (issuedT true).ending = none) ∧
    ((withLay (reelLay { issuedT false with issued := false })).stream? 0 0 0 0).map (fun y => (y.issued, y.barrier)) = some (false, true) ∧
    (let y : Stream := { streamOf .aff .running with ending := some (0, 1, 0) }
     y.owesPoison = false ∧ (withLay (reelLay y)).stream? 0 0 0 0 = some y) := by decide +kernel
theorem witness_StreamsStop_sbar : ∃ x, (withLay (reelLay (streamOf .aff .running))).resident? (0 : CtxId) 0 = some x ∧
    (withLay (reelLay (streamOf .aff .running))).cur = .thread 0 0 ∧ (0 : BitVec 6).toNat < x.npages := ⟨_, rfl, rfl, by decide +kernel⟩
/-- A dense level of 5 coordinates, open at its start, one that has ended, and a compressed one that is not sorted. -/
def denseF : Fibre := { Fibre.closed with n := 5, pe := 5, control := 4, state := 1 }
def unsortedF : Fibre := { denseF with control := 1 }
/-- The set-up of that dense level, 51 bytes. -/
def setupT : List Byte := List.replicate 24 0 ++ [5] ++ List.replicate 23 0 ++ [4, 0, 0]
theorem witness_FibreInstructions : (∃ x r, (withLay (reelLay Stream.fresh (Vector.replicate 4 denseF))).resident? 0 0 = some x ∧
      (withLay (reelLay Stream.fresh (Vector.replicate 4 denseF))).slotHeld 0 0 0 = false ∧
      x.reel? 0 = some r ∧ r.fibBusy 0 = false ∧ (r.fibres[0]) = denseF) ∧ (seqT.thread 0 0).dropped = false ∧ seqT.threadPending 0 0 = false ∧
    ((lastT 51 false).threadRead 0 0 0x20000 51 1).1.toOption = some (List.replicate 51 0) ∧
    ((lastT 64 true).threadWrite 0 0 0x20000 1 (fibreBytes denseF)).1.toOption.isSome = true ∧ (63 % 64 ≠ 0 ∧ 64 % 64 = 0) ∧
    setupBad (Vector.replicate 4 Fibre.closed) 0 (setupOf (List.replicate 51 0) 0) = true ∧
    (setupBad (Vector.replicate 4 Fibre.closed) 0 (setupOf setupT 0) = false ∧ natAt setupT 50 1 / 64 = 0) ∧
    (((setupOf setupT 0).opened (logRead true) 0 []).toOption.map fun w => (w.1.f.p, w.1.f.pe, w.1.f.state, w.2)) = some (0, 5, 1, []) ∧
    ((setupOf setupT 0).opened (logRead true) (2 ^ 32 - 1) []).toOption.isNone = true ∧
    formBad (Vector.replicate 4 Fibre.closed) 0 (fibreOf (List.replicate 64 0)) (List.replicate 64 0) = true ∧
    formBad (Vector.replicate 4 Fibre.closed) 0 (fibreOf (fibreBytes denseF)) (fibreBytes denseF) = false ∧
    (denseF.sorted = true ∧ (denseF.skipped (logRead true) 4 []).toOption.map (fun w => w.1.f.c) = some 4) ∧
    (unsortedF.sorted = false ∧ unsortedF.spec = 1) ∧ ((regs []).modThread 0 0 fun th => { th with dropped := true }).cur = .thread 0 0 := by
  refine ⟨⟨_, _, rfl, by decide +kernel, rfl, by decide +kernel, rfl⟩, by decide +kernel⟩
/-- A form with a skip not yet applied is one that fib.load applies (R303). -/
theorem witness_FibreInstructions_pending : let bs := fibreBytes { denseF with flags := 2, t := 3 }
    formBad (Vector.replicate 4 Fibre.closed) 0 (fibreOf bs) bs = false ∧ (fibreOf bs).flags.getLsbD 1 = true ∧
    ((fibreOf bs).skipped (logRead true) (fibreOf bs).t.toNat []).toOption.map (fun w => w.1.f.c) = some 3 := by decide +kernel
/-- A compressed level with its coordinates in HBM, open at its start. -/
def listF : Fibre := { denseF with control := 0x4d, crd := 0x20000, n := 9 }
/-- A thread that has read some of a level. -/
def fibT (us : List SeenUnit) : State := withLay (reelLay Stream.fresh (Vector.replicate 4 listF)) (seqT.modThread 0 0 fun th => { th with seen := us })
/-- How a level operation stops: at a read, at a trap, or at poison. -/
def stopOf {α : Type} : Except FStop α → Option (Sum (Nat × Nat) Nat)
  | .error (.mem (.want a n _)) => some (.inl (a, n))
  | .error (.trap _ k _) => some (.inr k)
  | .error (.poison a) => some (.inr a)
  | _ => none
theorem witness_FibreInstructions_reads : stopOf (listF.skipped (logRead true) 2 []) = some (.inl (0x20004, 4)) ∧
    ((fibT []).fibUnitT 0 0 0 0 0x20004 4 0).1.toOption.isSome = true ∧
    (let u := ((fibT []).fibUnitT 0 0 0 0 0x20004 4 0).2
     (u.thread 0 0).seen = [⟨0x20004, [0, 0, 0, 0], false⟩] ∧ stopOf (listF.skipped (logRead true) 2 (u.thread 0 0).seen) = some (.inr 0x30)) ∧
    (let seen : List SeenUnit := [⟨0x20004, [2, 0, 0, 0], false⟩]
     (listF.skipped (logRead true) 2 seen).toOption.map (fun w => (w.1.f.p, w.1.f.c)) = some (1, 2) ∧
       stopOf (listF.skipped (logRead true) 3 seen) = some (.inl (0x2000c, 4))) ∧
    stopOf (listF.skipped (logRead true) 2 [⟨0x20004, [2, 0, 0, 0], true⟩]) = some (.inr 0x20004) := by
  decide +kernel
/-- A level outside the context's pages: its read parks. -/
theorem witness_FibreInstructions_parks : (match ((fibT []).fibUnitT 0 0 0 0 0x2000000 4 0).1 with
      | .error e => decide (e = .park 1 0x2000000) | .ok _ => false) = true ∧
    (((fibT []).fibUnitT 0 0 0 0 0x2000000 4 0).2).waitFree (.reel 0 0 0) = true := by decide +kernel
theorem witness_FibreInstructions_station : ∃ f, (stT .compute).cur = .station (at0 .compute) f := ⟨_, rfl⟩

/-- A reel with a stream under way, index records at its input and skips to come. -/
def workT (st : Stream) (sk : List (Fin 4 × Word × List Nat) := []) (fs : Vector Fibre 4 := Vector.replicate 4 Fibre.closed) : State :=
  let x := reelLay st fs [reelLink, linkT ⟨0, 0, 1⟩ ⟨0, reelSid, 0⟩ [.data (recT 0 1)]]
  withLay { x with pages := x.pages.map fun p => { p with reel := { p.reel with skips := sk } } }
/-- What the reel of page 0 gives. -/
def ofReel {α : Type} (s : State) (f : Lay → Reel → α) : Option α := (s.lay? 0 0).bind fun x => (x.reel? 0).map fun r => f x r
/-- A valid affine read of one word, and a write. -/
def affD (w : Byte) : List Byte := List.replicate 16 0 ++ [1, 0, 0, 0] ++ List.replicate 28 0 ++ [0x11, 0, 0, 0, 0, 0, 0, 0] ++ [w] ++ List.replicate 7 0
theorem witness_ReelsWork_start : ofReel (workT { streamOf .fib .starting with fb := 0 } [] (Vector.replicate 4 denseF))
      (fun x r => ((r.streams[0]).st, (r.streams[0]).after, State.startable x 0 (r.streams[0]))) = some (.starting, [], true) ∧
    ofReel (workT (streamOf .fib .starting)) (fun x r => State.startable x 0 (r.streams[0])) = some false ∧
    (let s := (workT (streamOf .rq .running)).modCtx 0 fun x => { x with preempt := some ⟨0, false, false⟩ }
     (s.ctx 0).preempt.isSome = true ∧ ofReel s (fun _ r => ((r.streams[0]).running, (r.streams[0]).wdone)) = some (true, 0)) := by decide +kernel
theorem witness_ReelsWork_gather : ofReel (workT (streamOf .gat .running)) (fun x _ => x.inHead 0 0) = some (some (1, recT 0 1)) ∧
    (workT (streamOf .gat .running)).handoffDone (recT 0 1) = true ∧ indexLen (recT 0 1) ≠ 0 ∧
    ((streamOf .gat .running).held = none ∧ (streamOf .gat .running).ending = none ∧ (streamOf .gat .running).parked = none ∧
      (streamOf .gat .running).hold = false ∧ (streamOf .gat .running).barrier = false) := by decide +kernel
theorem witness_ReelsWork_operation :
    ofReel (workT (streamOf .fib .running)) (fun x r => (((workT (streamOf .fib .running)).reelChoice 0 0 x 0 r).1, r.mid, r.opAt)) = some (some 0, none, 0) ∧
    ofReel (workT (streamOf .sca .running)) (fun x r => ((workT (streamOf .sca .running)).reelChoice 0 0 x 0 r).1) = some (some 0) ∧
    ofReel (workT (streamOf .fib .running)) (fun x r => (workT (streamOf .fib .running)).eligibleSlot 0 0 x 0 0 (r.streams[0])) = some true ∧
    (streamOf .sca .running).writes = true ∧
    (let s := (workT (streamOf .fib .running)).modLay 0 0 fun y => y.modReel 0 fun z => { z with mid := some 0 }
     ofReel s (fun x r => (r.mid, s.eligibleSlot 0 0 x 0 0 (r.streams[0]))) = some (some 0, true)) := by decide +kernel
theorem witness_ReelsWork_skips :
    ofReel (workT (streamOf .aff .running) [(0, 3, [])] (Vector.replicate 4 denseF)) (fun _ r => (r.skips, r.fibBusy 0)) = some ([(0, 3, [])], false) ∧
    ofReel (workT (streamOf .fib .running) [(0, 3, [])] (Vector.replicate 4 denseF)) (fun _ r => (r.fibBusy 0, (r.fibres[0]).ready, (r.fibres[0]).sorted)) =
      some (true, true, true) ∧
    ofReel (workT (streamOf .fib .running) [(0, 3, [])] (Vector.replicate 4 unsortedF)) (fun _ r => (r.fibBusy 0, (r.fibres[0]).sorted)) = some (true, false) ∧
    ((streamOf .fib .running).skipping = false ∧ { streamOf .fib .running with skipping := true }.skipping = true) ∧
    ofReel (workT (streamOf .fib .running) [(0, 3, [])] (Vector.replicate 4 denseF))
      (fun _ r => ((workT (streamOf .fib .running) [(0, 3, [])] (Vector.replicate 4 denseF)).applySkip 0 0 0 0 r (r.streams[0]) 0 3).2) = some true := by decide +kernel
/-- A stream about to end. -/
def endingT (k : Nat) : State := workT { streamOf .fib .running with ending := some (k, 7, 1) }
theorem witness_StreamEndRecord : ∀ k ∈ [0, 1, 2, 0x30, 0x32, 0x33], ∃ x st, (endingT k).lay? 0 0 = some x ∧ (endingT k).stream? 0 0 0 0 = some st ∧ st.st = .running ∧
    st.ending = some (k, 7, 1) ∧ st.owes = false ∧ st.parked = none ∧ x.pass = some passT := by
  intro k hk
  exact ⟨_, _, rfl, rfl, rfl, rfl, by decide +revert +kernel, rfl, rfl⟩
theorem witness_AffineAddress : ∃ d : Desc, d.counts = [2, 3, 1, 1] ∧ d.strides = [4, -64, 0, 0] ∧ d.dims = 4 ∧ (1 < 2 ∧ 2 < 3) ∧
    d.addr (1 + 2 * (2 + 3 * (0 + 1 * 0))) = 2 ^ 64 - 124 :=
  ⟨⟨0, 0, [2, 3, 1, 1], [4, -64, 0, 0], true, true, 4, false, 0, 0, 0, 0, 0, 0⟩, by decide +kernel⟩
theorem witness_FibreFormReadsBack : ∃ x : Fibre, x.p < 2 ^ 32 ∧ x.pe ≤ 2 ^ 32 ∧ (x.pe = 2 ^ 32 → x.state = 1) ∧ (x.pe = 0 → x.state ≠ 1) ∧ x.pe = 2 ^ 32 :=
  ⟨{ denseF with pe := 2 ^ 32 }, by decide +kernel⟩

/-! Lays and passes. -/

/-- An image of one page with a done cleat, 96 bytes: its head, the page at 64, the cleat at 72. -/
def imgBytes (cleats : Byte) : List Byte :=
  bytesOfNat 4 0x59414c4b ++ [1, 0, 1, 0] ++ bytesOfNat 4 96 ++ [0, 0, 0, 0, cleats, 0, 0, 0] ++ bytesOfNat 4 64 ++ List.replicate 12 0 ++
    bytesOfNat 4 72 ++ List.replicate 24 0 ++ List.replicate 8 0 ++ [0, 3, 1, 1] ++ List.replicate 20 0
/-- A thread with s1 at some bytes, on a module of whole dies, the first unit of its access of 64 bytes there performed. -/
def imgT (bs : List Byte) : State :=
  let s := splitT 0x20000 [⟨0x20000, 64, false, [(0x210020, 32)], bs.take 32, false⟩]
  { s with hbm := writeBytes s.hbm 0x210000 bs, service := { s.service with pagemap := Vector.replicate 4 (BitVec.ofNat 128 (2 ^ 128 - 1)) } }
/-- That thread where no die has a page. -/
def bareT (bs : List Byte) : State := { imgT bs with service := { (imgT bs).service with pagemap := Vector.replicate 4 0 } }
/-- What the checks of those bytes find: the error of the image, or the word of its first defect. -/
def imgCheck (bs : List Byte) : Except Nat DWord := ((imgT bs).imageOf 0 bs).map fun m => m.check ((imgT bs).targetOps 0)
theorem witness_LaysLoadAndFree_reads : (seqT.lay? 0 0 = none ∧ seqT.slotHeld 0 0 0 = false ∧ (withLay layT).slotHeld 0 0 0 = false) ∧
    (∀ s ∈ [imgT (imgBytes 1), withLay layT (imgT (imgBytes 1))], s.threadPending 0 0 = false ∧
      (s.threadRead 0 0 0x20000 64 1).1.toOption = some ((imgBytes 1).take 64) ∧
      ((s.threadRead 0 0 0x20000 64 1).2.threadRead 0 0 (addrPlus 0x20000 64) 32 1).1.toOption = some ((imgBytes 1).drop 64)) ∧
    imageLen ((imgBytes 1).take 64) = some 96 ∧ imageLen (((imgBytes 1).set 0 0).take 64) = none ∧
    ((imgT ((imgBytes 1).set 0 0)).threadRead 0 0 0x20000 64 1).1.toOption = some (((imgBytes 1).set 0 0).take 64) ∧
    (imgCheck (imgBytes 1)).toOption = some 0 ∧ ((imgCheck (imgBytes 0)).toOption.map fun w => w != 0) = some true ∧
    (imgCheck ((imgBytes 1).set 6 0)).toOption = none ∧
    (∀ s ∈ [(imgT (imgBytes 1), true), (bareT (imgBytes 1), false)], ((s.1.imageOf 0 (imgBytes 1)).toOption.map fun m =>
      (m.check (s.1.targetOps 0), (s.1.place 0 (m.make 0x20000 (imageDigest m (imgBytes 1)) (0, 0))).isSome)) = some (0, s.2)) := by decide +kernel
theorem witness_LaysLoadAndFree_places : (imgT []).fits 0 layT (0, 0) = true ∧ ((imgT []).fits 0 layT (24, 0)) = false ∧
    ((withLay { layT with loading := true }).lay? 0 0).map Lay.loading = some true ∧
    (∃ x, (withLay layT).lay? 0 0 = some x ∧ x.loading = false ∧ x.pass = none ∧ x.succ = none ∧ (withLay layT).quiescent 0 0 x = true) ∧
    ((withLay armedT).lay? 0 0).map (fun x => x.pass.isSome) = some true := by
  refine ⟨by decide +kernel, by decide +kernel, by decide +kernel, ⟨_, rfl, by decide +kernel⟩, by decide +kernel⟩
/-- A lay with one compute station between two reel links. -/
def cloneT : Lay := { layT with
  stations := [Station.fresh 0 0 .compute],
  links := [reelLink, linkT ⟨0, 0, 0⟩ ⟨0, reelSid, 0⟩ []] }
theorem witness_LaysSwapAndClone : (∃ x m, (withLay layT (imgT (imgBytes 1))).lay? 0 0 = some x ∧ x.succ = none ∧
      (withLay layT (imgT (imgBytes 1))).slotHeld 0 0 0 = false ∧ readImage (imgBytes 1) 96 = some m ∧ sameShape x m = true ∧ m.check ((imgT (imgBytes 1)).targetOps 0) = 0 ∧ (withLay layT (imgT (imgBytes 1))).routesOk 0 { x with links := m.makeLinks } = true) ∧
    ((readImage (imgBytes 1) 96).map fun m => sameShape { layT with pages := [] } m) = some false ∧
    (∃ x st, (withLay cloneT (imgT [])).lay? 0 0 = some x ∧ x.pass = none ∧ x.succ = none ∧ (withLay cloneT (imgT [])).quiescent 0 0 x = true ∧
      x.npages = 1 ∧ x.station? 0 0 = some st ∧ (∀ n ∈ [0, 1], x.cloneable 0 0 n = some (st, 0, 1)) ∧
      (withLay cloneT (bareT [])).quiescent 0 0 x = true ∧ (withLay cloneT (bareT [])).clonePlaces 0 x st 0 1 (0, 0) 1 [] = none ∧ (withLay cloneT (imgT [])).clonePlaces 0 x st 0 1 (0, 0) 0 [] = some []) ∧
    cloneT.cloneable 0 1 0 = none ∧ cloneT.cloneable 0 0 64 = none := by
  refine ⟨⟨_, _, rfl, rfl, by decide +kernel, rfl, by decide +kernel⟩, by decide +kernel, ⟨_, _, rfl, rfl, rfl, by decide +kernel, rfl, rfl, by intro n h; revert n; decide +kernel, by decide +kernel, by decide +kernel, rfl⟩, by decide +kernel⟩
/-- The clone lay with a successor, its reconfiguration record at the station's input. -/
def succT (done : Bool) (ad : Bool := false) : State := withLay { cloneT with
  succ := some ⟨0, imgBytes 1, done⟩, stations := [{ Station.fresh 0 0 .compute with adopted := ad }],
  links := [{ reelLink with buf := [.reconf] }, linkT ⟨0, 0, 0⟩ ⟨0, reelSid, 0⟩ []] }
theorem witness_ReplacementSteps : (∃ x u m st, (succT false).lay? 0 0 = some x ∧ x.succ = some u ∧ readImage u.bytes u.bytes.length = some m ∧
      x.station? 0 0 = some st ∧ st.adopted = false ∧ x.reconfArrived 0 0 = true ∧ (succT false).stationRests (at0 .compute) x st = true ∧
      u.roleDone = false) ∧
    (∃ x u m, (succT false true).lay? 0 0 = some x ∧ x.succ = some u ∧ readImage u.bytes u.bytes.length = some m ∧ u.roleDone = false ∧
      ∀ st ∈ x.stations, sidSite st.sid = .compute ∨ sidSite st.sid = .bank → st.adopted = true) ∧
    (∃ x, (withLay { layT with zeroing := true }).lay? 0 0 = some x ∧ x.loading = false ∧ x.succ = none) :=
  ⟨⟨_, _, _, _, rfl, rfl, rfl, rfl, rfl, by decide +kernel⟩, ⟨_, _, _, rfl, rfl, rfl, rfl, by decide +kernel⟩, ⟨_, rfl, rfl, rfl⟩⟩
/-- A lay under lay.swap with its reel's and its cleat's part to come, perhaps with a pass, a release or a tier. -/
def swapT (st : Stream) (p : Option Pass) (pend : List (Byte × Byte)) : State := withLay { (reelLay st (ls := [{ linkT ⟨0, 0, 0⟩ ⟨0, reelSid, 0⟩ [] with buf := [.reconf] }, linkT ⟨0, cleatSid, 3⟩ ⟨0, 0, 1⟩ []])).modReel 0 fun r => { r with adopted := false } with
  succ := some ⟨0, imgBytes 1, false⟩, pass := p, stations := [Station.fresh 0 0 .compute],
  cleats := [{ Cleat.unlisted 0 3 with link := some 1, pending := pend, adopted := false }] }
theorem witness_ReplacementSteps_reel : ∀ st ∈ [Stream.fresh, streamOf .aff .running], ∃ x u m r, (swapT st none []).lay? 0 0 = some x ∧ x.succ = some u ∧
    readImage u.bytes u.bytes.length = some m ∧ u.roleDone = false ∧ x.reel? 0 = some r ∧ r.adopted = false ∧ (r.streams[0]) = st ∧
    (st.running = false → (∀ n : Fin 4, (r.streams[n.val]).running = false) ∧ r.skips = [] ∧ x.reconfArrived 0 reelSid = true) ∧ st.reconfSent = false := by
  intro st h
  simp only [List.mem_cons, List.not_mem_nil, or_false] at h
  rcases h with rfl | rfl <;> exact ⟨_, _, _, _, rfl, rfl, rfl, rfl, rfl, rfl, rfl, by decide +kernel, by decide +kernel⟩
theorem witness_ReplacementSteps_cleat : ∀ q ∈ [(none, []), (some passT, []), (none, [((4 : Byte), (2 : Byte))])],
    ∃ x u m k, (swapT Stream.fresh q.1 q.2).lay? 0 0 = some x ∧ x.succ = some u ∧
    readImage u.bytes u.bytes.length = some m ∧ u.roleDone = false ∧ x.cleat? 0 3 = some k ∧ k.adopted = false ∧ k.waiting = [] ∧ k.pending = q.2 ∧
    k.arriving = [] ∧ x.tiersAdopted k = true ∧ k.link = some 1 ∧ x.links[1]?.isSome = true ∧ x.pass = q.1 ∧
    ((m.makeCleats []).find? (fun z => z.pid == 0 && z.num == 3)).isSome = true := by
  intro q h
  refine ⟨_, _, _, { Cleat.unlisted 0 3 with link := some 1, pending := q.2, adopted := false }, rfl, rfl, rfl, rfl, ?_, rfl, rfl, rfl, rfl, ?_, rfl, rfl, rfl, ?_⟩ <;> decide +revert +kernel
theorem witness_PassInstructions : (∃ x, (withLay layT).lay? 0 0 = some x ∧ (withLay layT).slotHeld 0 0 0 = false ∧ x.inSwap = false ∧ x.pass = none ∧ x.binds = [] ∧
      x.lastEnd = none ∧ (withLay layT).quiescent 0 0 x = true ∧ (withLay layT).threadPending 0 0 = false) ∧
    (∃ x p, (withLay armedT).lay? 0 0 = some x ∧ x.pass = some p ∧ p.aborting = none ∧ p.ended = none) ∧
    (let s := withLay armedT (seqT.modThread 0 1 fun th => { th with wait := .cleatWait 3 0 0 3 6 none })
     (s.thread 0 1).wait = .cleatWait 3 0 0 3 6 none ∧ s.slotHeld 0 0 0 = false) ∧
    ((withLay { armedT with pass := some { passT with ended := some (.complete, 5) } }).lay? 0 0).map (fun x => x.pass.map fun p => p.ended.isSome) = some (some true) ∧
    ((withLay { armedT with pass := some { passT with aborting := some 5 } }).lay? 0 0).map (fun x => x.pass.map fun p => p.aborting.isSome) = some (some true) ∧
    ((withLay { layT with zeroing := true }).lay? 0 0).map Lay.inSwap = some true ∧
    (∀ k ∈ [PassEnd.complete, .incomplete, .aborted], ∃ x, (withLay { layT with lastEnd := some k }).lay? 0 0 = some x ∧ x.pass = none ∧ x.lastEnd = some k) ∧
    (0x20040 % 64 = 0 ∧ 0x20041 % 64 ≠ 0) ∧
    ((seqT.modThread 0 0 fun th => { th with wait := .passWait 3 0 (some 1) }).thread 0 0).wait = .passWait 3 0 (some 1) := by
  refine ⟨⟨_, rfl, by decide +kernel⟩, ⟨_, _, rfl, rfl, rfl, rfl⟩, by decide +kernel, by decide +kernel, by decide +kernel, by decide +kernel, fun k _ => ⟨_, rfl, rfl, rfl⟩, by decide, by decide +kernel⟩
/-- A lay whose pass is to end, with its record's address, what it has decided and the writes under way. -/
def endsT (compl : DWord) (e : Option (PassEnd × Nat)) (n : Nat) (js : List DevJob) : State :=
  { withLay { armedT with sweeps := n, pass := some { passT with compl := compl, ended := e } } with jobs := js }
/-- The units of writes under way lie in HBM. -/
def insideT (us : List (Nat × List Byte × Bool)) : Bool := us.all fun w => decide (w.1 + w.2.1.length ≤ hbmSize)
/-- The ranges of a write of the device's, where its address is good. -/
def farT? (s : State) (a n : Nat) : Option (List (Nat × Nat)) := (s.farRange 0 a n 1 ⟨false, true, false⟩).1.toOption
/-- The write of a pass record with its second unit to come. -/
def passJob : DevJob := ⟨.quiescenceSweep 0 0, 0, [(0x210020, List.replicate 32 0, false)]⟩
theorem witness_PassesEnd : (∀ n ∈ [0, 1], ∃ x p, (endsT 0x20000 none n []).lay? 0 0 = some x ∧ x.pass = some p ∧ p.ended = none ∧
      (endsT 0x20000 none n []).quiescent 0 0 x = true ∧ x.moved = false ∧ x.sweeps = n ∧ (endsT 0x20000 none n []).upkeep.repairing = [] ∧
      (endsT 0x20000 none n []).job? (.quiescenceSweep 0 0) 0 = none) ∧
    ((withLay { armedT with moved := true }).lay? 0 0).map Lay.moved = some true ∧
    (let s0 := (endsT 0x20000 none 1 []).modLay 0 0 fun y => { y with pass := y.pass.map fun q => { q with ended := some (.incomplete, 0) } }
     (farT? s0 0x20000 64).map (fun ps => (ps, insideT (jobUnits ps (List.replicate 64 0)))) = some ([(0x210000, 64)], true)) ∧
    (let s0 := (endsT 0x2000000 none 1 []).modLay 0 0 fun y => { y with pass := y.pass.map fun q => { q with ended := some (.incomplete, 0) } }
     farT? s0 0x2000000 64 = none ∧ s0.log.head - s0.log.tail ≠ 63) ∧
    ((endsT 0x20000 (some (.complete, 5)) 1 [passJob]).job? (.quiescenceSweep 0 0) 0 = some passJob ∧ insideT passJob.todo = true) := by
  refine ⟨fun n h => ⟨_, _, rfl, rfl, rfl, ?_⟩, by decide +kernel⟩
  decide +revert +kernel
/-- Cleat 3 of a lay with a pass or without one. -/
def cleatLay (p : Bool) : Lay := { layT with pass := if p then some passT else none, cleats := [{ cleatT with released := 4 }] }
theorem witness_CleatsCount : (∀ p : Bool, ∃ x k, (withLay (cleatLay p)).lay? 0 0 = some x ∧ (withLay (cleatLay p)).slotHeld 0 0 0 = false ∧ x.npages = 1 ∧ x.cleat? 0 3 = some k ∧
      k.released = 4 ∧ x.passOpen = p) ∧
    ((1 ≤ ((4 : Byte) - 3).toNat ∧ ((4 : Byte) - 3).toNat ≤ 128) ∧ ¬ (1 ≤ ((4 : Byte) - 4).toNat ∧ ((4 : Byte) - 4).toNat ≤ 128) ∧
      ¬ (1 ≤ ((4 : Byte) - 131).toNat ∧ ((4 : Byte) - 131).toNat ≤ 128)) ∧
    (cleatT.passes 3 = true ∧ cleatT.passes 6 = false) ∧
    (let s := withLay (cleatLay true) (seqT.modThread 0 0 fun th => { th with wait := .cleatWait 3 0 0 3 6 (some 3) })
     (s.thread 0 0).wait = .cleatWait 3 0 0 3 6 (some 3)) ∧
    (let k := { cleatT with count := 2, arrivals := 0, fired := 255 }
     (k.count ≠ 0 ∧ k.arrivals.toNat + 1 < k.count.toNat) ∧ { k with arrivals := 1 }.arrivals.toNat + 1 = k.count.toNat ∧
       k.budget.toNat ≤ k.fired.toNat ∧ cleatT.fired.toNat < { cleatT with budget := 7 }.budget.toNat ∧ cleatT.overrun = false ∧ cleatT.pending.length < 255 ∧
       { k with count := 0 }.count = 0) := by
  refine ⟨fun p => ⟨_, { cleatT with released := 4 }, rfl, by revert p; decide +kernel⟩, by decide +kernel⟩
theorem witness_QueueWaits : seqT.threadPending 0 0 = false ∧ ((regs [(1, 0x2fff8)]).threadRead 0 0 0x2fff8 8 8).1.toOption = some (List.replicate 8 0) ∧
    (qwaitHolds 0 0 0 = true ∧ qwaitHolds 0 0 1 = false ∧ qwaitHolds 4 0 1 = false) ∧
    (let s := seqT.modThread 0 0 fun th => { th with wait := .qwait 3 0 0x2fff8 1 (some 0) 0 }
     (s.thread 0 0).wait = .qwait 3 0 0x2fff8 1 (some 0) 0 ∧ 0 ≤ s.cyc) := by decide +kernel
/-- A gmm descriptor of two groups without patches, its row counts at 0x20080, its area at 0x20100, at group g. -/
def gmmBytes (g : Nat) : List Byte :=
  bytesOfNat 8 0x20080 ++ bytesOfNat 4 2 ++ bytesOfNat 4 g ++ List.replicate 8 0 ++ bytesOfNat 8 0x20200 ++ bytesOfNat 8 0x20100 ++
    bytesOfNat 4 1 ++ List.replicate 20 0
/-- A thread at a descriptor with a quiescent lay, and row counts of 3. -/
def gmmT (g : Nat) : State :=
  let s := withLay { layT with cleats := [{ cleatT with waiting := [], pending := [] }] }
    (splitT 0x20000 [⟨0x20000, 64, false, [(0x210020, 32)], (gmmBytes g).take 32, false⟩])
  { s with hbm := writeBytes (writeBytes s.hbm 0x210000 (gmmBytes g)) 0x210080 (bytesOfNat 4 3 ++ bytesOfNat 4 3) }
theorem gmm_reads (s : State) (a : Nat) (h : List Byte) (s1 : State) (hr : s.threadRead 0 0 a 64 1 = (.ok h, s1))
    (hn : natAt h 48 1 = 0) : ∀ f, s.withGmm 0 0 a f = f (gmmOf h []) h s1 := by
  intro f
  simp [State.withGmm, State.withRead, hr, hn]
theorem witness_GroupedLaunch : ∀ g ∈ [0, 1, 2], ∃ x m h s1, (gmmT g).lay? 0 0 = some x ∧ (gmmT g).slotHeld 0 0 0 = false ∧ x.inSwap = false ∧ x.pass = none ∧
    (gmmT g).quiescent 0 0 x = true ∧ (gmmT g).threadPending 0 0 = false ∧ (∀ f, (gmmT g).withGmm 0 0 0x20000 f = f m h s1) ∧
    (let s2 := (s1.threadRead 0 0 (addrPlus m.rows (4 * m.g)) 4 1).2
     s2.lay? 0 0 = some x ∧ s2.quiescent 0 0 x = true) ∧ m.valid 0x20000 h = true ∧ m.g = g ∧ m.groups = 2 ∧ x.binds = [] ∧
    (s1.threadRead 0 0 (addrPlus m.rows (4 * m.g)) 4 1).1.toOption = (if g = 2 then some [0, 0, 0, 0] else some [3, 0, 0, 0]) ∧
    3 * m.mul + m.add < 2 ^ 24 := by
  intro g hg
  refine ⟨_, _, gmmBytes g, _, rfl, rfl, rfl, rfl, by decide +revert +kernel, by decide +revert +kernel,
    gmm_reads _ _ _ _ (pair_ok (by decide +revert +kernel)) (by decide +revert +kernel), ?_, ?_⟩ <;> decide +revert +kernel
theorem witness_GroupedLaunch_invalid : (gmmOf (gmmBytes 0) []).valid 0x20020 (gmmBytes 0) = false ∧
    ((gmmT 1).threadWrite 0 0 (addrPlus 0x20000 12) 1 (bytesOfNat 4 2 ++ bytesOfNat 8 3)).1.toOption.isSome = true ∧
    ((seqT.modThread 0 0 fun th => { th with wait := .gmm 3 0 0x20000 3 (some 0) }).thread 0 0).wait = .gmm 3 0 0x20000 3 (some 0) ∧
    ((withLay { armedT with pass := some { passT with gmm := some (1, 3) } }).lay? 0 0).map (fun x => x.pass.bind Pass.gmm) = some (some (1, 3)) ∧
    (∃ x, (withLay armedT).lay? 0 0 = some x ∧ x.pass.bind Pass.gmm = none ∧ x.pass.isSome = true) := by
  refine ⟨by decide +kernel, by decide +kernel, by decide +kernel, by decide +kernel, ⟨_, rfl, rfl, rfl⟩⟩
/-- A lay with a bound stream whose template is being read. -/
theorem witness_GroupedLaunch_bound : (let x : Lay := { layT with binds := [(0, 0)] }
    x.binds ≠ [] ∧ ((withLay x (splitT 0x20000 [⟨0x20200, 64, false, [(0x210220, 32)], List.replicate 32 0, false⟩])).threadRead 0 0 0x20200 (64 * x.binds.length) 1).1.toOption =
      some (List.replicate 64 0)) := by decide +kernel
/-- A lay whose wedge timer has run out, with WREPORT and the writes under way. -/
def wedgedT (a : DWord) (js : List DevJob) : State :=
  let s := (withLay { armedT with wedgeTimer := 65536 }).modCtx 0 fun x => { x with inForce := { x.inForce with wreport := a } }
  { s with jobs := js }
/-- The write of a wedge report with its last unit to come. -/
def reportJob : DevJob := ⟨.wedgeTimerExpiry 0 0, 0, [(0x2101e0, List.replicate 32 0, false)]⟩
theorem witness_WedgeFault : ∀ a ∈ [(0 : DWord), 0x20000, 0x2000000], ∃ x p, (wedgedT a []).lay? 0 0 = some x ∧ (wedgedT a []).upkeep.repairing = [] ∧
    (wedgedT a []).job? (.wedgeTimerExpiry 0 0) 0 = none ∧ ((wedgedT a []).ctx 0).inForce.wlimit.toNat ≤ x.wedgeTimer ∧ x.pass = some p ∧
    ((wedgedT a []).ctx 0).inForce.wreport = a ∧ (wedgedT a []).upkeep.flaws = [] ∧ (wedgedT a []).log.head - (wedgedT a []).log.tail ≠ 63 := by
  intro a h
  simp only [List.mem_cons, List.not_mem_nil, or_false] at h
  rcases h with rfl | rfl | rfl <;> exact ⟨_, _, rfl, by decide +kernel, by decide +kernel, by decide +kernel, rfl, by decide +kernel, rfl, by decide +kernel⟩
theorem witness_WedgeFault_report : ofLay (wedgedT 0x20000 []) (fun x => (farT? (wedgedT 0x20000 []) 0x20000 512).map fun ps =>
      insideT (jobUnits ps (wedgeReport x 0 0 65536))) = some (some true) ∧ farT? (wedgedT 0x2000000 []) 0x2000000 512 = none := by decide +kernel
theorem witness_WedgeFault_waits : (wedgedT 0x20000 [reportJob]).job? (.wedgeTimerExpiry 0 0) 0 = some reportJob ∧ insideT reportJob.todo = true ∧
    (((wedgedT 0 []).modThread 0 1 fun th => { th with wait := .passWait 3 0 none }).thread 0 1).wait = .passWait 3 0 none ∧
    (((wedgedT 0 []).modThread 0 1 fun th => { th with wait := .cleatWait 3 0 0 3 6 none }).thread 0 1).wait = .cleatWait 3 0 0 3 6 none := by decide +kernel
/-- A lay with a full link, a station that a record stands before without a slot to send on, and a cleat with arrivals. -/
def stuckT : Lay := { layT with
  stations := [{ Station.fresh 0 0x60 (.splice (Splice.fresh .bcast [0, 1] 0)) with dead := false }],
  links := [{ linkT ⟨0, 0x60, 0⟩ ⟨0, reelSid, 0⟩ [] with free := 0 }, linkT ⟨0, reelSid, 0⟩ ⟨0, 0x60, 0⟩ [.data (recT 0 5)]],
  cleats := [{ cleatT with done := true, count := 3, arrivals := 1 }] }
theorem witness_WedgeReport : ∃ k lk st n, stuckT.doneCleat? = some k ∧ lk ∈ stuckT.links ∧ lk.isFull = true ∧ lk.src.sid ≠ cleatSid ∧ lk.src.sid ≠ excSid ∧
    lk.slots < 15 ∧ st ∈ stuckT.stations ∧ stuckT.heldReason ⟨0, 0, st.pid, st.sid⟩ st = some n ∧ n < 16 ∧ k ∈ stuckT.cleats ∧ k.arrivals ≠ 0 ∧
    (wedgeEntries stuckT 0 0)[2]?.isSome = true :=
  ⟨_, _, _, 0, rfl, List.mem_cons_self, by decide +kernel, by decide +kernel, by decide +kernel, by decide +kernel, List.mem_cons_self, by decide +kernel,
    by decide, List.mem_cons_self, by decide +kernel, by decide +kernel⟩

/-! System instructions. -/

/-- A thread with the privilege bit, about to use a system register. -/
def privT : State := seqT.modPort 0 fun p => { p with priv := 1 }
/-- A system register instruction, with .o under mod 1 and the context in imm16. -/
def sysO (m : BitVec 4) (n k : BitVec 16) : ZForm := ⟨m, 3, 1, 0, n, k⟩
theorem witness_SystemRegisters : (privT.cur = .thread 0 0 ∧ (privT.ctx 0).port.priv.getLsbD 0 = true ∧ (privT.ctx 0).st ≠ .free ∧
      (privT.ctx 5).st = .free) ∧ (seqT.ctx 0).port.priv.getLsbD 0 = false ∧
    (((regs [(1, 0x20000)] privT).readT 0 0 1).toNat % 8 = 0 ∧ ((regs [(1, 0x20001)] privT).readT 0 0 1).toNat % 8 ≠ 0) ∧
    (0x10000000001 % 2 ^ 32 ≠ 0 ∧ 0x10000000000 % 2 ^ 32 = 0 ∧ 0x3000 % 4096 = 0 ∧ 0x3001 % 4096 ≠ 0 ∧ 16 < 17 % 256) ∧
    ((privT.putReg .qage 5).isSome = true ∧ (privT.putReg .qage 0).isNone = true) := by decide +kernel
theorem witness_PrivilegeTraps : seqT.cur = .thread 0 0 ∧ (seqT.ctx 0).port.priv.getLsbD 0 = false ∧ (sysO 1 0 5).mod.getLsbD 0 = true ∧
    (encode (.sysrd (sysO 1 0x10 5))).isSome = true ∧ (encode (.syswr (sysO 0 0x20b 0))).isSome = true ∧
    ((after (exec (.syswr (sysO 0 0x10 0)) vecT)).thread 0 0).pc = 0x30000 ∧
    ((after (exec (.syswr (sysO 0 0x10 0)) vecT)).thread 0 0).tcause = 1 := by decide +kernel
theorem witness_NoInstructionGrantsPrivilege : validAt .seq (.syswr (sysO 0 0x105 0)) = true ∧
    (∃ t, exec (.syswr (sysO 0 0x105 0)) privT = .next t) ∧ validAt .compute (.emit ⟨0, 0, false, 0, 0, false, 0, false, 0⟩) = true :=
  ⟨by decide +kernel, ⟨_, rfl⟩, by decide +kernel⟩
theorem witness_FqtailWrites : (queueT.ctx 0).st ≠ .free ∧ ([(0 : Word), 1, 7].all fun v => decide (((queueT.ctx 0).fqhead - v).toNat ≤ ((queueT.ctx 0).fqhead - (queueT.ctx 0).fqtail).toNat)) = true ∧
    ¬ ((queueT.ctx 0).fqhead - 8).toNat ≤ ((queueT.ctx 0).fqhead - (queueT.ctx 0).fqtail).toNat ∧
    (queueT.ctx 0).heldEvents = [eventT] ∧ ((queueT.ctx 0).fqhead - 1).toNat < 2 ^ ((queueT.ctx 0).port.fqdepth.toNat % 16) ∧
    queueT.cur = .thread 0 0 ∧ (regs [(1, 7)] queueT).readT 0 0 1 = 7 ∧ queueT.upkeep.repairing = [] ∧
    queueT.job? (.faultEventWrite 0) (queueT.ctx 0).fqhead.toNat = none := by decide +kernel
/-- A thread that may kill context 3, with contexts in three conditions. -/
def killT : State := ((seqT.modCtx 3 fun x => { x with st := .queued }).modCtx 4 fun x => { x with st := .ending }).modPort 0 fun p => { p with spawn := 0x38 }
theorem witness_ExitAndKill : killT.cur = .thread 0 0 ∧ (killT.ctx 0).st = .running ∧ ((killT.ctx 0).port.spawn.getLsbD 3 = true ∧ (killT.ctx 3).st = .queued) ∧
    ((killT.ctx 0).port.spawn.getLsbD 4 = true ∧ (killT.ctx 4).st = .ending) ∧ (killT.ctx 5).st = .free ∧
    ((killT.ctx 0).port.spawn.getLsbD 6 = false ∧ (killT.ctx 0).port.priv.getLsbD 0 = false) ∧ (63 < 64 ∧ 64 ≤ 64) :=
  by decide +kernel
/-- What a die is about to issue. -/
def issueOf (s : State) (d : Die) : Option Instr := match s.issueOn d with | .instr i _ => some i | _ => none
/-- Context 3 runs on die 1 and is about to exit. -/
def exitT : State :=
  let z := { seqT.modCtx 3 (fun x => { x with st := .running, home := 1, nthr := 1, threads := x.threads.set 0 { Thread.reset with pc := 0x10000 }, port := { x.port with ptroot := (seqT.ctx 0).port.ptroot } }) with
    hbm := (loadThread State.reset ((encode (.ctxExit ⟨0, 0, 0, 0, 0, 0⟩)).getD 0).toNat).hbm }
  z.modPort 0 fun p => { p with spawn := 0x38 }
theorem witness_ExitAndKill_tie : issueOf exitT 1 = some (.ctxExit ⟨0, 0, 0, 0, 0, 0⟩) ∧ (exitT.ctx 3).st = .running ∧ exitT.cur = .thread 0 0 ∧
    (exitT.ctx 0).port.spawn.getLsbD 3 = true ∧ (issueOf killT ((killT.ctx 3).home)).isNone = true := by decide +kernel
theorem witness_SpawnYieldAndWait : (seqT.cur = .thread 0 0 ∧ 0x20010 % 32 ≠ 0 ∧ 0x20020 % 32 = 0 ∧ seqT.threadPending 0 0 = false ∧
      (seqT.threadRead 0 0 0x20020 32 1).1.toOption = some (List.replicate 32 0)) ∧
    (∀ k : Tid, k ≠ 0 → k.val < (seqT.ctx 0).nthr → (seqT.thread 0 k).yields = true ∧ seqT.threadPending 0 k = false) ∧
    (let s := reqsT { reqT .wr [] .sent with owner := .thread 0 } seqT; s.yieldWaits 0 0 = true) ∧ ((seqT.ctx 0).st = .running ∧ (seqT.leaveWaits 0).yieldCode 0 = 0) ∧
    ((withLay armedT).leaveWaits 0).yieldCode 0 = 1 ∧ ((withLay { layT with zeroing := true }).leaveWaits 0).yieldCode 0 = 2 ∧
    (let s := seqT.modThread 0 0 fun th => { th with wait := .wfi 3 (some 0) 4 }
     (s.thread 0 0).wait = .wfi 3 (some 0) 4 ∧ 0 ≤ s.cyc ∧ (s.ctx 0).st ≠ .free) := by decide +kernel
/-- A yield that has written its first unit, and a write of the context's own under way. -/
def yieldJob : DevJob := ⟨.saveEngineDone 0, 1, [(0x210020, List.replicate 32 0, false)]⟩
/-- A thread whose context is at a yield or not, with writes under way. -/
def yieldT (y : Bool) (js : List DevJob) : State :=
  { seqT.modCtx 0 fun x => { x with yielding := y, port := { x.port with savepa := 0x210000 }, inForce := { x.inForce with savepa := 0x210000 } } with jobs := js }
theorem witness_SpawnYieldAndWait_writes : (∀ k : Tid, k.val < ((yieldT false []).ctx 0).nthr → k = 0) ∧ (yieldT false []).reqs = [] ∧ (yieldT false []).jobs = [] ∧
    ((yieldT false []).ctx 0).yielding = false ∧ (yieldT false []).upkeep.repairing = [] ∧
    (let s2 := ((yieldT false []).leaveWaits 0).finishT 0 0 3 0
     insideT (saveUnits ((yieldT false []).saveArea 0) (savePrefix (s2.ctx 0) 0 false [] (512 + 448 * ((yieldT false []).ctx 0).nthr) 0 0) []) = true) ∧
    (((yieldT true [yieldJob]).ctx 0).yielding = true ∧ (yieldT true [yieldJob]).job? (.saveEngineDone 0) 1 = some yieldJob ∧ insideT yieldJob.todo = true ∧
      ((yieldT true [yieldJob]).ctx 0).st = .running) ∧
    (yieldT false [⟨.quiescenceSweep 0 0, 0, []⟩]).jobs.any (fun j => jobCtx j.ev == some 0 && j.ev != Instr.saveEngineDone 0) = true := by decide +kernel
/-- A thread of a waiting shootdown, with two translations cached. -/
def shootT : State := { seqT.modThread 0 0 (fun th => { th with wait := .tlbInv 0 0 0x20000 1 }) with
  tlb := [⟨.shared 0 0, 0, 2, 0x210000, 0, 0, true, true, false⟩, ⟨.shared 0 0, 0, 3, 0x220000, 0, 0, true, true, false⟩], dir := [⟨0x210000 / 64, 0, 0, 0, true⟩] }
theorem witness_ShootdownAndCaches : shootT.cur = .thread 0 0 ∧ (shootT.thread 0 0).wait = .tlbInv 0 0 0x20000 1 ∧ shootT.shootDone 0 0 0x20000 1 = true ∧
    (inShoot 0x20000 1 2 = true ∧ inShoot 0x20000 1 3 = false ∧ inShoot 0x20000 0x10001 3 = true) ∧
    (0x20040 % 65536 + 64 ≤ 65536 ∧ canonical 0x20040 = true ∧ (shootT.walk 0 0x20040).toOption = some rwLeaf ∧ rwLeaf.mt = 0 ∧ shootT.upkeep.flaws = [] ∧ shootT.upkeep.repairing = []) ∧
    shootT.dir ≠ [] := by decide +kernel
/-- A fault event that awaits service, of kind 1 or 2, with what waits under it. -/
def awaitT (k : Fin 5) : State :=
  let e := { eventT with kind := k }
  let s := excT id fun st => { st with exc := some { excRecT with held := some e.tag } }
  let s1 := (s.modCtx 0 fun x => { x with awaiting := [e], nthr := 2 }).modThread 0 1 fun th => { th with wait := .fibre e.tag none }
  { s1 with reqs := [{ reqT .rd [] (.event e.tag) with id := 5 }], nextId := 6 }
theorem witness_FaultService : (awaitT 1).cur = .thread 0 0 ∧
    (∀ k ∈ [(1 : Fin 5), 2], ∃ e, ((awaitT k).ctx 0).awaiting.find? (fun e => e.tag == eventT.tag) = some e ∧ e.kind = k) ∧
    (awaitT 1).reqs.Pairwise (fun a b => a.id ≠ b.id) ∧ ((awaitT 1).thread 0 1).wait = .fibre eventT.tag none ∧
    (∃ e x st z, ((awaitT 2).ctx 0).awaiting.find? (fun e => e.tag == eventT.tag) = some e ∧ (awaitT 2).lay? 0 e.lay = some x ∧
      x.station? e.pid (e.src.truncate 7) = some st ∧ st.exc = some z ∧ z.held = some eventT.tag) ∧
    (∀ e ∈ ((awaitT 1).ctx 0).awaiting, e.tag ≠ 0x77) ∧
    (let s := (awaitT 1).setLay 0 eventT.lay (some (reelLay { streamOf .aff .running with parked := some eventT.tag }))
     (s.stream? 0 eventT.lay 0 0).map (fun st => st.parked) = some (some eventT.tag) ∧ s.cur = .thread 0 0 ∧
       ((s.ctx 0).awaiting.find? (fun e => e.tag == eventT.tag)).map (fun e => (e.kind, e.lay)) = some (1, eventT.lay)) := by
  refine ⟨rfl, ?_, by decide +kernel, by decide +kernel, ⟨_, _, _, _, rfl, rfl, rfl, rfl, rfl⟩, by decide +kernel, by decide +kernel⟩
  intro k hk
  simp only [List.mem_cons, List.not_mem_nil, or_false] at hk
  rcases hk with rfl | rfl <;> exact ⟨_, rfl, rfl⟩

/-! Contexts, service and power. -/

/-- A launch word: the entry, the argument, the sequence number, threads, priority, protection. -/
def wordOf (n : Nat) (p : Byte) : List Byte := bytesOfNat 8 0x10000 ++ bytesOfNat 8 5 ++ bytesOfNat 8 0 ++ bytesOfNat 4 n ++ [1, 0, p, 0]
/-- A context with a launch word triggered, in a state. -/
def launchedT (w : List Byte) (st : CtxSt) : State := ({ seqT with cyc := 1 }.modPort 2 fun p => { p with triggers := [(0, w)] }).modCtx 2 fun x => { x with st := st }
/-- A thread that asks for a context, on a context in a state. -/
def askingT (w : List Byte) (may : Bool) (st : CtxSt) (me : CtxSt := .running) : State :=
  ((launchedT w st).modPort 2 fun p => { p with triggers := [] }).modCtx 0
    fun x => { x with inForce := { x.inForce with spawn := if may then 4 else 0 }, st := me, threads := x.threads.set 0 { x.threads[0] with wait := .spawn 3 2 w } }
theorem witness_LaunchesAccepted : ({ seqT with secure := { seqT.secure with bstat := 6 } }.secure.bstat = 6 ∧ 28 + [(0 : Byte), 0, 0, 0].length ≤ 32) ∧
    (launchOk (wordOf 1 0) = true ∧ launchOk (wordOf 1 2) = false ∧ ((launchedT (wordOf 1 0) .free).ctx 2).port.triggers = [(0, wordOf 1 0)] ∧ 0 < (launchedT (wordOf 1 0) .free).cyc ∧
      ((launchedT (wordOf 1 0) .running).ctx 2).st ≠ .free ∧ BitVec.ofNat 32 (natAt (wordOf 1 0) 24 4) = ((launchedT [] .free).ctx 2).port.hseq + 1 ∧
      BitVec.ofNat 32 (natAt (wordOf 9 0) 24 4) ≠ ((launchedT [] .free).ctx 2).port.hseq + 1 ∧
      (launchedT (wordOf 1 0) .free).triggerBelow 2 = false ∧ (launchedT (wordOf 1 0) .free).stepDue 67 = true) ∧
    (let s := askingT (wordOf 1 1) true .free
     (s.thread 0 0).wait = .spawn 3 2 (wordOf 1 1) ∧ s.triggerBelow 64 = false ∧ s.spawnBelow 129 = false ∧ s.stepDue 129 = true ∧ (s.ctx 0).st ≠ .ending ∧ (s.ctx 0).inForce.spawn.getLsbD 2 = true ∧
       (natAt (wordOf 1 1) 30 1 = 1 ∧ (s.ctx 0).prot = false)) ∧
    (let s := askingT (wordOf 1 0) false .free .ending
     (s.thread 0 0).wait = .spawn 3 2 (wordOf 1 0) ∧ (s.ctx 0).st = .ending ∧ (s.ctx 0).endInfo = none ∧ (s.ctx 0).inForce.spawn.getLsbD 2 = false ∧ s.triggerBelow 64 = false) := by
  decide +kernel
/-- Contexts 2 and 1 queued at cycle 0, the second a level above. -/
def queuedT : State := (seqT.modCtx 2 fun x => { x with st := .queued, queuedAt := some 0, nthr := 1, entry := 0x10000, argp := 5, prio := 1 }).modCtx 1
  fun x => { x with st := .queued, queuedAt := some 0, nthr := 1 }
theorem witness_QueueOrder : queuedT.queue = [2, 1] ∧ (queuedT.ctx 2).queuedAt = some 0 ∧ queuedT.queueLevel 2 = 1 ∧
    ({ queuedT with cyc := 3 * 2 ^ 20 }).queueLevel 2 = 3 := by decide +kernel
theorem witness_ContextsStart : queuedT.queue = 2 :: [1] ∧ (queuedT.ctx 2).resumes = false ∧
    (queuedT.triggerBelow 64 = false ∧ queuedT.spawnBelow 641 = false ∧ queuedT.stepDue 641 = true) ∧
    (∀ e, (queuedT.freePositions e).length ≤ (queuedT.freePositions 1).length) ∧
    (∀ e, (queuedT.freePositions e).length = (queuedT.freePositions 1).length → (1 : Die) ≤ e) ∧
    (queuedT.ctx 2).nthr ≤ (queuedT.freePositions 1).length := by decide +kernel
/-- A context with CBASE in force, asking for a record or ending, and the writes under way. -/
def baseT (b : DWord) (js : List DevJob) (h : Ctx → Ctx) : State :=
  { (seqT.modCtx 0 fun x => h { x with inForce := { x.inForce with cbase := b } }) with cyc := 1, jobs := js }
def noticeT (b : DWord) (js : List DevJob) : State :=
  (baseT b js fun x => { x with notices := [⟨0, 7, true⟩] }).modThread 0 0 fun th => { th with wait := .notify }
def endT (b : DWord) (js : List DevJob) : State := baseT b js fun x => { x with st := .ending, endInfo := some ⟨true, 0xff, 0, 0⟩ }
/-- A write of 16 bytes with its unit to come. -/
def recJob (ev : Instr) : DevJob := ⟨ev, 1, [(0x210000, List.replicate 16 0, false)]⟩
theorem witness_CompletionRecords : ((noticeT 0 []).ctx 0).notices = [⟨0, 7, true⟩] ∧ (noticeT 0 []).threadPending 0 0 = false ∧
    ((noticeT 0 []).thread 0 0).wait = .notify ∧ (noticeT 0 []).upkeep.repairing = [] ∧ ((noticeT 0 []).ctx 0).port.dseq + 1 = 1 ∧
    (noticeT 0 []).job? (.dseqAdvance 0) 1 = none ∧ ((noticeT 0 []).ctx 0).inForce.cbase = 0 ∧
    farT? (noticeT 0x20000 []) (addrPlus 0x20000 (16 * (1 % 2 ^ ((noticeT 0 []).ctx 0).inForce.cdepth.toNat))) 16 = some [(0x210000, 16)] ∧
    farT? (noticeT 0x2000000 []) 0x2000000 16 = none ∧ (noticeT 0x2000000 []).log.head - (noticeT 0x2000000 []).log.tail ≠ 63 ∧
    (noticeT 0x20000 [recJob (.dseqAdvance 0)]).job? (.dseqAdvance 0) 1 = some (recJob (.dseqAdvance 0)) ∧ insideT (recJob (.dseqAdvance 0)).todo = true := by
  decide +kernel
/-- Context 0 with its threads stopped and its slots ended and dropped. -/
def sweptT (s : State) : State := (List.finRange 8).foldl (fun y l => y.dropLay 0 l) ((List.finRange 8).foldl (fun y l => y.endSlot 0 l) (s.stopThreads 0))
theorem witness_CompletionRecords_teardown : ((endT 0 []).ctx 0).st = .ending ∧ ((endT 0 []).ctx 0).endInfo = some ⟨true, 0xff, 0, 0⟩ ∧ 0 < (endT 0 []).cyc ∧
    (endT 0 []).dispatched ≤ 1 ∧ (∀ t, ((endT 0 []).thread 0 t).stopsForEnd = true) ∧ (∀ l, ((endT 0 []).lay? 0 l).isNone = true) ∧ (endT 0 []).reqs = [] ∧
    (endT 0 []).upkeep.repairing = [] ∧
    ((sweptT (endT 0 [])).job? (.teardown 0) 1).isNone = true ∧ farT? (sweptT (endT 0x20000 [])) 0x20000 16 = some [(0x210000, 16)] ∧
    farT? (sweptT (endT 0x2000000 [])) 0x2000000 16 = none ∧
    (sweptT (endT 0x20000 [recJob (.teardown 0)])).job? (.teardown 0) 1 = some (recJob (.teardown 0)) := by decide +kernel
/-- A context whose save area holds so many bytes, with a pre-emption. -/
def preT (len : DWord) (p : Option Preempt) (s : State := withLay layT) : State :=
  s.modCtx 0 fun x => { x with preempt := p, inForce := { x.inForce with savelen := len, savepa := 0x300000 } }
/-- The write of a save area with its last unit to come. -/
def saveJob : DevJob := ⟨.saveEngineDone 0, 0, [(0x300040, List.replicate 32 0, false)]⟩
theorem witness_ForcedPreemption : (((preT 0 none).ctx 0).st = .running ∧ ((preT 0 none).ctx 0).preempt = none ∧ (preT 0 none).canSave 0 = false ∧
      (preT (2 ^ 40) none).canSave 0 = true) ∧
    (let s := (preT (2 ^ 40) none).modCtx 0 fun x => { x with st := .stopped }
     (s.ctx 0).st = .stopped ∧ (s.ctx 0).preempt = none ∧ (s.ctx 0).port.pstat ≠ 4 ∧ s.canSave 0 = true) ∧
    (let s := preT (2 ^ 40) (some ⟨0, true, false⟩)
     (s.ctx 0).preempt = some ⟨0, true, false⟩ ∧ (s.ctx 0).st = .running ∧ (∀ t : Tid, t.val < (s.ctx 0).nthr → (s.thread 0 t).wait = .none) ∧
       (∀ l : LaySlot, (s.lay? 0 l).map Lay.inSwap ≠ some true) ∧ ((s.laysOf 0).all fun y => s.laySettled 0 y.1 y.2 && y.2.streamsRest true) = true ∧
       0 + ({ s with cyc := 2 ^ 32 }.ctx 0).inForce.pdead.toNat ≤ 2 ^ 32) ∧
    (let s := preT (2 ^ 40) (some ⟨0, true, true⟩) seqT
     (s.ctx 0).preempt = some ⟨0, true, true⟩ ∧ s.upkeep.repairing = [] ∧ s.job? (.saveEngineDone 0) 0 = none ∧ s.saveReady 0 = true ∧
       insideT (s.saveBegin 0).2 = true ∧ (∀ l, (s.lay? 0 l).isNone = true) ∧ (s.ctx 0).st = .running ∧ s.saveArea 0 + 4096 ≤ hbmSize ∧
       { s with jobs := [saveJob] }.job? (.saveEngineDone 0) 0 = some saveJob ∧ insideT saveJob.todo = true) ∧
    (preT (2 ^ 40) (some ⟨0, true, true⟩)).saveReady 0 = true := by decide +kernel
/-- A thread with a register, as its block of a save area holds it. -/
def savedThread : Thread := { Thread.reset with pc := 0x10008, s := Thread.reset.s.set 5 7, p := 1 }
/-- Context 0 stopped and first of the queue, its save area at 0x300000 holding its thread, and a lay of the image at 0x20000 in slot 0 or none. -/
def resumingT (a : Nat) (x : Option Lay) : State :=
  let s := (imgT (imgBytes 1)).modCtx 0 fun y => { y with
    st := .stopped, resumes := true, queuedAt := some 0, lays := y.lays.set 0 x, inForce := { y.inForce with savepa := 0x300000 } }
  { s with cur := .device, hbm := writeBytes (writeBytes s.hbm 0x300200 (threadBlock savedThread)) 0x300040 (bytesOfNat 8 a ++ bytesOfNat 8 4096) }
/-- The lay of that image. -/
def imageLay : Option Lay := (readImage (imgBytes 1) 96).map fun m => { m.make 0x20000 (imageDigest m (imgBytes 1)) (0, 0) with placed := false }
theorem witness_ContextsResume : (∀ s ∈ [resumingT 0 none, resumingT 0 imageLay], s.queue = [0] ∧ (s.ctx 0).resumes = true ∧
      (s.ctx 0).st = .stopped ∧ s.triggerBelow 64 = false ∧ s.spawnBelow 641 = false ∧ s.stepDue 641 = true ∧ s.upkeep.repairing = [] ∧ s.upkeep.flaws = [] ∧
      (s.ctx 0).nthr ≤ (s.freePositions (s.ctx 0).home).length) ∧
    (∀ l, ((resumingT 0 none).lay? 0 l).isNone = true) ∧ ((imageLay.map Lay.placed) = some false) := by decide +kernel
theorem witness_ContextsResume_loads : (match (resumingT 0 none).resumeLays 0 (List.finRange 8) with | .ok _ => true | _ => false) = true ∧
    (match (resumingT 0 imageLay).resumeLays 0 (List.finRange 8) with | .dead => true | _ => false) = true ∧
    readBytes (resumingT 0 none).hbm (((resumingT 0 none).ctx 0).inForce.savepa.toNat + 512) 448 = threadBlock savedThread ∧
    (0x300200 + 448 ≤ hbmSize ∧ savedThread.s[0] = 0 ∧ savedThread.p.getLsbD 0 = true) := by decide +kernel
theorem witness_ThreadBlockReadsBack : (inTrapT.thread 0 0).s[0] = 0 ∧ (inTrapT.thread 0 0).p.getLsbD 0 = true ∧ (inTrapT.thread 0 0).inTrap = true := by
  decide +kernel
/-- A module with a service state and a station of matrix kind. -/
def repairT (h : Service → Service) : State := { stT .matrix with service := h (stT .matrix).service }
theorem witness_RepairEvents : (((chanT 16 3 false).chan ⟨0, 0, 0⟩).training = false ∧ ((chanT 16 3 false).chan ⟨0, 0, 0⟩).failed = false) ∧
    ((17 : BitVec 16).toNat / 4 < 84 ∧ (repairT id).service.rstat ≠ 1 ∧ (1, 4) ∉ (repairT id).service.retired ∧ (1, 4) ∉ (repairT id).service.retiring) ∧
    (let s := repairT fun q => { q with rstat := 1, retiring := [(1, 4)], serving := [(1, 9, 4)] }
     s.service.rstat = 1 ∧ s.service.retiring = (1, 4) :: [] ∧ s.service.position 1 4 = some 9 ∧ (s.ctxs.toList.any fun x => x.usesPos 1 9) = false) ∧
    (State.reset.log.head - State.reset.log.tail ≠ 63) ∧
    (∃ st m, (repairT id).station? (at0 .matrix) = some st ∧ st.body = .matrix m) ∧
    ((workT (streamOf .aff .running)).stream? 0 0 0 0).map (fun st => st.running) = some true ∧ (seqT.ctx 0).st = .running := by
  refine ⟨by decide +kernel, by decide +kernel, by decide +kernel, by decide +kernel, ⟨_, _, rfl, rfl⟩, by decide +kernel⟩
/-- Every spare position is a position, whichever the free choices are. -/
theorem spares_lt (d : Die) : ∀ n ∈ sparePositions d, n < 84 := by
  have h : ∀ (l : List Nat) (acc : List Nat × List Nat), (∀ n ∈ acc.1, n < 84) → (∀ n ∈ acc.2, n < 84) →
      ∀ n ∈ (l.foldl (fun (acc : List Nat × List Nat) n =>
        let x := acc.2.getD (Config.repairChoice d n % acc.2.length) 0; (x :: acc.1, acc.2.erase x)) acc).1, n < 84 := by
    intro l
    induction l with
    | nil => intro acc h _; simpa using h
    | cons k ks ih =>
      intro acc h1 h2
      refine ih _ ?_ fun n hn => h2 n (List.mem_of_mem_erase hn)
      intro n hn
      rcases List.mem_cons.1 hn with rfl | hn
      · rw [List.getD_eq_getElem?_getD]
        rcases h : acc.2[Config.repairChoice d k % acc.2.length]? with _ | v
        · simp
        · simpa using h2 v (List.mem_of_getElem? h)
      · exact h1 n hn
  exact h _ _ (by simp) (by simp)
/-- A page that a spare serves is about to be out, with other pages out before it. -/
def spareT (l : List Nat) : State := repairT fun q => { q with rstat := 1, retiring := [(1, 100)], serving := [(1, 9, 100)], retired := l.map fun n => (1, n) }
theorem witness_RepairEvents_spares : ((spareT []).freeSpares 1 ≠ [] ∧ (spareT (List.range 84)).freeSpares 1 = []) ∧
    ∀ l, (spareT l).service.retiring = [(1, 100)] ∧ (spareT l).service.position 1 100 = some 9 ∧ ((1 : Die), 100) ∉ ([] : List (Die × Nat)) ∧
      ((spareT l).ctxs.toList.any fun x => x.usesPos 1 9) = false := by
  refine ⟨⟨?_, ?_⟩, fun l => ⟨rfl, rfl, by simp, by
    show ((repairT id).ctxs.toList.any fun x => x.usesPos 1 9) = false
    decide +kernel⟩⟩
  · obtain ⟨x, xs, h⟩ : ∃ x xs, sparePositions 1 = x :: xs := ⟨_, _, rfl⟩
    have hx : x < 84 := spares_lt 1 x (by simp [h])
    refine List.ne_nil_of_mem (a := x) ?_
    rw [State.freeSpares, List.mem_filter]
    refine ⟨by simp [h], ?_⟩
    simp [spareT, repairT, stT]
    omega
  · rw [State.freeSpares, List.filter_eq_nil_iff]
    intro n hn
    have := spares_lt 1 n hn
    simp [spareT, repairT, this]
/-- Die 1 in a service state. -/
def dieT (n : Byte) (u : Bool := false) : State := { State.reset with
  service := { State.reset.service with dstat := State.reset.service.dstat.set 1 n, unbooted := State.reset.service.unbooted.set 1 u } }
theorem witness_DieService : (∀ n : Fin 6, ((dieT (BitVec.ofNat 8 n.val)).service.dstat[1]).toNat = n.val) ∧ (∀ c, ((dieT 1).ctx c).usesDie 1 = false) ∧
    ((dieT 2).service.unbooted[1] = false ∧ (dieT 4 true).service.unbooted[1] = true) ∧
    (dieT 3).upkeep.flaws = [] ∧ (dieT 3).upkeep.repairing = [] := by decide +kernel
/-- Windows at 2 GiB of 1 GiB, and a protected extent at 3 GiB. -/
def windowT : State := { State.reset with
  links := { State.reset.links with pwbase := Vector.replicate 12 0x80000000, pwsize := Vector.replicate 12 0x40000000, hwbase := 0x80000000 },
  secure := { State.reset.secure with pxbase := 0xa0000000, pxsize := 0x10000000 } }
/-- A longer read of port 3 under way, and a write and an atomic. -/
def outT : OutAcc := ⟨some 3, 0x80000000, .read 0 100, [(0x80000000, 32), (0x80000020, 32), (0x80000040, 32), (0x80000060, 4)], [], false⟩
def outWT : OutAcc := ⟨some 3, 0x80000000, .write 28 (List.replicate 8 1), [(0x8000001c, 4), (0x80000020, 4)], [], false⟩
def outAT (op : BitVec 4) (n a : Nat) : OutAcc := ⟨some 3, 0x80000000, .atomic op n a 1 2, [(0x80000000 + a, n)], [], false⟩
theorem witness_OutsideAccesses : (let a := 0x80000000 + 0x3fffffe0
      0x3fffffe0 + 32 ≤ (windowT.links.pwsize[3]).toNat ∧ (windowT.links.pwsize[3]).toNat < 0x3fffffe1 + 32 ∧ a + 32 ≤ hbmSize ∧
      windowT.meetsExtent a 32 = false ∧ windowT.rowsBusy a 32 = false ∧ windowT.upkeep.flaws = [] ∧ a / 32 = (a + 32 - 1) / 32 ∧ windowT.outside = [] ∧
      isPoisoned 32 windowT.hbmPoison a 32 = false ∧ isPoisoned 32 { windowT with hbmPoison := [a / 32] }.hbmPoison a 32 = true) ∧
    (windowT.links.pwsize[3] ≠ 0 ∧ State.reset.links.pwsize[3] = 0) ∧
    windowT.meetsExtent (0x80000000 + 0x1ffffffd) 4 = true ∧ windowT.meetsExtent (0x80000000 + 0x1ffffffc) 4 = false ∧
    (0x3ffffffc + 4 ≤ 2 ^ 30 ∧ 2 ^ 30 < 0x3ffffffd + 4) ∧ windowT.log.head - windowT.log.tail ≠ 63 ∧
    (∀ o ∈ [outT, outWT, outAT 0 8 0, outAT 9 4 4, outAT 0 8 4, outAT 10 8 0], ∀ n ∈ [1, 4], let s := { windowT with outside := [{ outT with party := none }, { o with todo := o.todo.take n }] }
      (s.outside[1]?).map (fun o => o.todo) = some (o.todo.take n) ∧ (s.outside.take 1).all (fun x => x.party != o.party) = true ∧
      s.rowsBusy 0x80000000 64 = false ∧ 0x80000000 + 64 ≤ hbmSize) := by
  decide +kernel
/-- An atomic's new value, and one of no rule. -/
theorem witness_OutsideAccesses_atomics : (rmw (.atomI 0 8) (List.replicate 8 1) (bytesOfNat 8 1) (bytesOfNat 8 2)).isSome = true ∧
    (rmw .cas (bytesOfNat 4 2) (bytesOfNat 4 1) (bytesOfNat 4 2)).isSome = true := by decide +kernel
/-- Four bytes of host memory that the thread knows at 0x44000. -/
def markV : MUnit := ⟨.host, 0x4000, 4, [1, 2, 3, 4], [], 0x44000, 0x44000⟩
/-- A request of a protected context to write host memory, at the mark stage. -/
def markQ : Req := { reqT .wr [markV] .sent with portal := true }
def markT : State := (reqsT markQ).modCtx 0 fun x => { x with prot := true }
/-- A report of attestation under way, its write begun or not. -/
def attestT (js : List DevJob) : State := { State.reset with secure := { State.reset.secure with attstat := 1 }, jobs := js }
def attestJob : DevJob := ⟨.attestationDone, 0, [(992, List.replicate 32 0, false)]⟩
theorem witness_SecurityEvents : (State.reset.secure.attstat ≠ 1 ∧ 0x4400 % 1024 = 0 ∧ 0x4401 % 1024 ≠ 0) ∧
    ((attestT []).secure.attstat = 1 ∧ (attestT []).upkeep.repairing = [] ∧ (attestT []).upkeep.flaws = [] ∧ (attestT []).job? .attestationDone 0 = none ∧
      (attestT []).secure.attbuf.toNat + 1024 ≤ hbmSize ∧ (attestT [attestJob]).job? .attestationDone 0 = some attestJob ∧ insideT attestJob.todo = true) ∧
    State.reset.secure.markst ≠ 1 ∧
    (let s := { State.reset with secure := { State.reset.secure with markst := 1 } }; s.secure.markst = 1 ∧ s.upkeep.repairing = [] ∧ s.upkeep.flaws = []) ∧
    (∀ st ∈ [Stage.sent, .tagWait 0], let q := { markQ with stage := st }
      let s := (reqsT q).modCtx 0 fun x => { x with prot := true }
      s.req? 5 = some q ∧ q.units = [markV] ∧ q.atPortal = true ∧ (s.ctx 0).prot = true ∧ q.op = .wr ∧ q.marked = false ∧ q.after = [] ∧
      s.log.head - s.log.tail ≠ 63) ∧ (markV.node = .host ∧ markV.dat.length = markV.len) ∧
    (markT.secure.kernel.isNone = true ∧ { markT with secure := { markT.secure with kernel := some [] } }.secure.kernel = some []) ∧
    (∀ c, (State.reset.ctx c).prot = false ∨ (State.reset.ctx c).st = .free) ∧ ((markT.ctx 0).prot = true ∧ (markT.ctx 0).st ≠ .free) ∧
    (∀ c, (State.reset.ctx c).st = .free) := by decide +kernel
/-- A module at a phase of bring-up. -/
def phaseT (n : Byte) : State := { State.reset with secure := { State.reset.secure with bstat := n } }
theorem witness_ResetAndBringup : (State.reset.mayReset = true ∧
      { State.reset with secure := { State.reset.secure with tripped := true, temp := Vector.replicate 4 0xff } }.mayReset = false) ∧
    (∀ n ∈ [(1 : Byte), 2, 3, 4, 5], (phaseT n).secure.bstat.toNat < 6 ∧ 1 ≤ (phaseT n).secure.bstat.toNat ∧ (phaseT n).secure.bstat = n) := by decide +kernel
theorem witness_PowerEvents : (105 ≤ (105 : Byte).toNat ∧ (94 : Byte).toNat < State.reset.secure.tlimit.toNat ∧
      State.reset.secure.tlimit.toNat ≤ (95 : Byte).toNat ∧ State.reset.secure.watts ≤ State.reset.secure.pwrcap.toNat ∧
      (let s := { State.reset with secure := { State.reset.secure with temp := Vector.replicate 4 0xff } }
       s.secure.tlimit.toNat ≤ (s.secure.temp[0]).toNat)) ∧
    (State.reset.log.head - State.reset.log.tail ≠ 63 ∧ (State.reset.secure.temp[0]).toNat < State.reset.secure.tlimit.toNat ∧
      (State.reset.secure.pstate[0]).toNat < 2 ∧ State.reset.secure.tripped = false ∧ State.reset.secure.pwrcap.toNat < 4000) ∧
    (let s := { State.reset with secure := { State.reset.secure with moduleIdle := 200000000, idle := Vector.replicate 4 2000000 } }
     200000000 ≤ s.secure.moduleIdle ∧ 2000000 ≤ s.secure.idle[0]) ∧ State.reset.secure.moduleIdle < 200000000 := by decide +kernel

/-! Frames: an instruction that writes its destination, on a thread and at a station. -/

theorem witness_ThreadFrame : ∃ t, seqT.cur = .thread 0 0 ∧ exec (.add (lSeq 0 3 1 2 0)) seqT = .next t := ⟨_, rfl, rfl⟩
theorem witness_StationFrame : ∃ f t, (stT .compute).cur = .station (at0 .compute) f ∧ exec (.add (lSt 0 4 5 6 0 0 0)) (stT .compute) = .next t :=
  ⟨_, _, rfl, rfl⟩

/-! Events taken. -/

/-- Thread 0 of a context is its event thread, with an event written and a vector or none. -/
def eventDueT (v : DWord) : State := seqT.modCtx 0 fun x => { x with tvec := v, fqhead := 1, evthr := 0 }
theorem witness_EventTrapAndLogTail : ((eventDueT 0).ctx 0).st = .running ∧ ((eventDueT 0).ctx 0).preempt = none ∧
    ((eventDueT 0).ctx 0).fqhead ≠ ((eventDueT 0).ctx 0).fqtail ∧ ((eventDueT 0).ctx 0).evthr.toNat = (0 : Tid).val ∧
    (0 : Tid).val < ((eventDueT 0).ctx 0).nthr ∧ ((eventDueT 0).thread 0 0).inTrap = false ∧ ((eventDueT 0).thread 0 0).yields = true ∧
    ((eventDueT 0).ctx 0).tvec = 0 ∧ ((eventDueT 0x30000).ctx 0).tvec ≠ 0 ∧ ((eventDueT 0x30000).thread 0 0).yields = true := by decide +kernel
theorem witness_EventTrapAndLogTail_tail : (State.reset.log.head - 0).toNat ≤ (State.reset.log.head - State.reset.log.tail).toNat := by decide +kernel

end Sys2Proof.Tests
end

section
/-!
PROOFS. Rounding (01 R19, R29, R31): what `roundUnits` answers in the modes that look at the remainder, what a float code
is made of, and that encoding gives a code back from its value.
-/
namespace Sys2Proof.Machine

/-! ### Rounding to whole units -/

/-- A magnitude already in whole units stands in every mode. -/
theorem roundUnits_self (neg : Bool) (m : Nat) (e : Int) (mode : Rm) (l : Word) : (roundUnits neg m e e mode l).1 = m := by
  simp [roundUnits]

/-- Nearest even in terms of quotient and remainder (R29). -/
theorem roundUnits_rne (neg : Bool) (m : Nat) {e k : Int} (l : Word) (h : e < k) :
    (roundUnits neg m e k .rne l).1 =
      if 2 * (m % 2 ^ (k - e).toNat) < 2 ^ (k - e).toNat ∨
          2 * (m % 2 ^ (k - e).toNat) = 2 ^ (k - e).toNat ∧ m / 2 ^ (k - e).toNat % 2 = 0
      then m / 2 ^ (k - e).toNat else m / 2 ^ (k - e).toNat + 1 := by
  have hu : 0 < 2 ^ (k - e).toNat := Nat.two_pow_pos _
  simp only [roundUnits, Int.not_le.mpr h, if_false, Nat.shiftRight_eq_div_pow, apply_ite Prod.fst]
  generalize 2 ^ (k - e).toNat = u at hu ⊢
  split_ifs <;> omega

/-- Stochastic rounding in terms of quotient and remainder (R31): a remainder of 0 never carries. -/
theorem roundUnits_rsto (neg : Bool) (m : Nat) {e k : Int} (l : Word) (h : e < k) :
    roundUnits neg m e k .rsto l =
      (if 65536 ≤ m % 2 ^ (k - e).toNat * 65536 / 2 ^ (k - e).toNat + (lfsrStep l).toNat % 65536
        then m / 2 ^ (k - e).toNat + 1 else m / 2 ^ (k - e).toNat, lfsrStep l) := by
  have hdraw : (lfsrStep l).toNat % 65536 < 65536 := Nat.mod_lt _ (by decide)
  simp only [roundUnits, Int.not_le.mpr h, if_false, if_true, Nat.shiftRight_eq_div_pow]
  by_cases hr : m % 2 ^ (k - e).toNat = 0
  · simp [hr, hdraw]
  · simp only [hr, if_false, ge_iff_le]

/-- A remainder of 0 leaves the quotient, which is then the whole number itself. -/
theorem stochasticRounding : Claims.StochasticRounding := by
  intro neg m e k l h u
  rw [roundUnits_rsto neg m l h, BitVec.extractLsb'_toNat, Nat.shiftRight_zero]
  refine ⟨rfl, fun hr => ?_, fun _ => rfl⟩
  have hdraw : (lfsrStep l).toNat % 65536 < 65536 := Nat.mod_lt _ (by decide)
  have hnot : ¬ 65536 ≤ m % u * 65536 / u + (lfsrStep l).toNat % 65536 := by simp [hr, hdraw]
  exact (congrArg (· * u) (if_neg hnot)).trans (Nat.div_mul_cancel (Nat.dvd_of_mod_eq_zero hr))

/-- Two different counts of units are together at least a unit away from any magnitude. -/
theorem unit_le_dist_add_dist (m u : Nat) {i j : Nat} (h : i ≠ j) :
    u ≤ ((i * u : Int) - m).natAbs + ((j * u : Int) - m).natAbs := by
  wlog hlt : i < j generalizing i j
  · rw [Nat.add_comm]
    exact this h.symm (by omega)
  have hstep : i * u + u ≤ j * u := Nat.succ_mul i u ▸ Nat.mul_le_mul_right u hlt
  zify at hstep
  omega

/-- Nearest even is at most half a unit away, and even where it is just that far. -/
theorem roundUnits_rne_halfUnit (neg : Bool) (m : Nat) {e k : Int} (l : Word) (h : e < k) :
    2 * (((roundUnits neg m e k .rne l).1 * (2 ^ (k - e).toNat : Nat) : Int) - m).natAbs ≤ 2 ^ (k - e).toNat ∧
    (2 * (((roundUnits neg m e k .rne l).1 * (2 ^ (k - e).toNat : Nat) : Int) - m).natAbs = 2 ^ (k - e).toNat →
      (roundUnits neg m e k .rne l).1 % 2 = 0) := by
  rw [roundUnits_rne neg m l h]
  have hu : 0 < 2 ^ (k - e).toNat := Nat.two_pow_pos _
  generalize 2 ^ (k - e).toNat = u at hu ⊢
  have hr : m % u < u := Nat.mod_lt m hu
  have hm : ((m / u : Nat) * u : Int) + (m % u : Nat) = m := by exact_mod_cast Nat.div_add_mod' m u
  split_ifs with hdown
  · have hdist : (((m / u : Nat) * u : Int) - m).natAbs = m % u := by omega
    rw [hdist]
    omega
  · have hdist : (((m / u + 1 : Nat) * u : Int) - m).natAbs = u - m % u := by
      rw [Nat.cast_succ, add_mul]
      omega
    rw [hdist]
    omega

/-- Any other count is at least as far away, by the unit that lies between the two. -/
theorem roundingIsNearest : Claims.RoundingIsNearest := by
  intro neg m e k l h u n
  have hcast : u = ((2 ^ (k - e).toNat : Nat) : Int) := by simp [u]
  have hsum (j : Nat) (hj : j ≠ n) := unit_le_dist_add_dist m (2 ^ (k - e).toNat) hj
  obtain ⟨hhalf, htie⟩ := roundUnits_rne_halfUnit neg m l h
  rw [hcast]
  change 2 * ((n * _ : Int) - m).natAbs ≤ _ at hhalf
  change 2 * ((n * _ : Int) - m).natAbs = _ → n % 2 = 0 at htie
  generalize 2 ^ (k - e).toNat = v at hsum hhalf htie ⊢
  refine ⟨fun j => ?_, fun j hj heq => htie ?_⟩
  · obtain rfl | hj := eq_or_ne j n
    · exact le_rfl
    · have := hsum j hj
      omega
  · have := hsum j hj
    omega

/-! ### The fields of a float code (R19) -/

/-- The fraction field of a code. -/
def FloatLayout.frac (l : FloatLayout) (x : Nat) : Nat := x % 2 ^ l.mbits
/-- The exponent field of a code. -/
def FloatLayout.expo (l : FloatLayout) (x : Nat) : Nat := (x >>> l.mbits) % 2 ^ l.ebits
/-- The sign bit of a code. -/
def FloatLayout.sign (l : FloatLayout) (x : Nat) : Bool := (x >>> (l.mbits + l.ebits)) % 2 = 1
/-- A code without its sign bit. -/
def FloatLayout.mag (l : FloatLayout) (x : Nat) : Nat := x % 2 ^ (l.mbits + l.ebits)

theorem FloatLayout.frac_lt (l : FloatLayout) (x : Nat) : l.frac x < 2 ^ l.mbits := Nat.mod_lt _ (Nat.two_pow_pos _)

theorem FloatLayout.expo_lt (l : FloatLayout) (x : Nat) : l.expo x < 2 ^ l.ebits := Nat.mod_lt _ (Nat.two_pow_pos _)

theorem FloatLayout.mag_eq (l : FloatLayout) (x : Nat) : l.mag x = l.expo x * 2 ^ l.mbits + l.frac x := by
  rw [mag, expo, frac, Nat.pow_add, Nat.mod_mul, Nat.shiftRight_eq_div_pow, Nat.mul_comm, Nat.add_comm]

/-- A code of the format's width is its magnitude with its sign. -/
theorem withSign_mag (l : FloatLayout) {x : Nat} (hx : x < 2 ^ (l.mbits + l.ebits + 1)) : withSign l (l.sign x) (l.mag x) = x := by
  have hx' : x < 2 * 2 ^ (l.mbits + l.ebits) := by rwa [← Nat.pow_succ']
  have hdm := Nat.div_add_mod x (2 ^ (l.mbits + l.ebits))
  have hq : x / 2 ^ (l.mbits + l.ebits) < 2 := Nat.div_lt_of_lt_mul (by rwa [Nat.mul_comm])
  rw [withSign, FloatLayout.sign, FloatLayout.mag, Nat.shiftRight_eq_div_pow, Nat.add_comm l.ebits]
  obtain h | h : x / 2 ^ (l.mbits + l.ebits) = 0 ∨ x / 2 ^ (l.mbits + l.ebits) = 1 :=
    Nat.le_one_iff_eq_zero_or_eq_one.mp (Nat.le_of_lt_succ hq)
  · rw [h, Nat.mul_zero, Nat.zero_add] at hdm
    simpa [h] using hdm
  · rw [h, Nat.mul_one, Nat.add_comm] at hdm
    simpa [h] using hdm

/-- A code that stands for a finite number: its exponent and fraction fields are none of those of an infinity or a NaN. -/
def FloatLayout.Finite (l : FloatLayout) (x : Nat) : Prop :=
  (l.hasInf = true → l.expo x ≠ 2 ^ l.ebits - 1) ∧
  (l.hasNan = true → l.hasInf = false → l.expo x = 2 ^ l.ebits - 1 → l.frac x ≠ 2 ^ l.mbits - 1)

/-- What a code that is not NaN stands for: an infinity, or the number of its fields (R19). -/
theorem floatVal_cases (l : FloatLayout) (x : Nat) (hn : floatVal l x ≠ .nan) :
    (l.hasInf = true ∧ l.expo x = 2 ^ l.ebits - 1 ∧ l.frac x = 0 ∧ floatVal l x = .inf (l.sign x)) ∨
    (l.Finite x ∧ l.expo x = 0 ∧ floatVal l x = .fin (l.sign x) (l.frac x) (1 - (l.bias : Int) - l.mbits)) ∨
    (l.Finite x ∧ l.expo x ≠ 0 ∧
      floatVal l x = .fin (l.sign x) (2 ^ l.mbits + l.frac x) ((l.expo x : Int) - l.bias - l.mbits)) := by
  have hv : floatVal l x =
      if l.hasInf && l.expo x == 2 ^ l.ebits - 1 then (if l.frac x = 0 then .inf (l.sign x) else .nan)
      else if l.hasNan && !l.hasInf && l.expo x == 2 ^ l.ebits - 1 && l.frac x == 2 ^ l.mbits - 1 then .nan
      else if l.expo x = 0 then .fin (l.sign x) (l.frac x) (1 - (l.bias : Int) - l.mbits)
      else .fin (l.sign x) (2 ^ l.mbits + l.frac x) ((l.expo x : Int) - l.bias - l.mbits) := rfl
  rw [hv] at hn ⊢
  by_cases hi : (l.hasInf && l.expo x == 2 ^ l.ebits - 1) = true
  · rw [if_pos hi] at hn ⊢
    have hf : l.frac x = 0 := by_contra fun hf => hn (if_neg hf)
    simp only [Bool.and_eq_true, beq_iff_eq] at hi
    exact .inl ⟨hi.1, hi.2, hf, if_pos hf⟩
  rw [if_neg hi] at hn ⊢
  by_cases hq : (l.hasNan && !l.hasInf && l.expo x == 2 ^ l.ebits - 1 && l.frac x == 2 ^ l.mbits - 1) = true
  · exact absurd (if_pos hq) hn
  rw [if_neg hq]
  simp only [Bool.and_eq_true, beq_iff_eq, Bool.not_eq_true', not_and] at hi hq
  have hfin : l.Finite x := ⟨hi, fun a b c => hq ⟨⟨a, b⟩, c⟩⟩
  by_cases he : l.expo x = 0
  · exact .inr (.inl ⟨hfin, he, if_pos he⟩)
  · exact .inr (.inr ⟨hfin, he, if_neg he⟩)

/-! ### Encoding gives the code back -/

/-- A fraction without the hidden bit, in units of the least subnormal, is below the least normal number. -/
theorem floorLog_subnormal (l : FloatLayout) {m : Nat} (h0 : m ≠ 0) (h : m < 2 ^ l.mbits) :
    floorLog m (1 - (l.bias : Int) - l.mbits) < 1 - (l.bias : Int) := by
  have hlog : Nat.log2 m < l.mbits := (Nat.log2_lt h0).mpr h
  rw [floorLog]
  omega

theorem ulpExp_subnormal (l : FloatLayout) {m : Nat} (h0 : m ≠ 0) (h : m < 2 ^ l.mbits) :
    ulpExp l m (1 - (l.bias : Int) - l.mbits) = 1 - (l.bias : Int) - l.mbits := by
  rw [ulpExp, if_pos (floorLog_subnormal l h0 h)]

theorem encodeMag_subnormal (l : FloatLayout) {m : Nat} (h0 : m ≠ 0) (h : m < 2 ^ l.mbits) :
    encodeMag l m (1 - (l.bias : Int) - l.mbits) = m := by
  simp [encodeMag, h0, floorLog_subnormal l h0 h]

/-- The hidden bit is the highest of a significand. -/
theorem log2_significand {b f : Nat} (h : f < 2 ^ b) : Nat.log2 (2 ^ b + f) = b := by
  rw [Nat.log2_eq_iff (by have := Nat.two_pow_pos b; omega), Nat.pow_succ]
  omega

/-- The binary exponent of a normal number is its exponent field without the bias. -/
theorem floorLog_normal (l : FloatLayout) {f : Nat} (c : Nat) (h : f < 2 ^ l.mbits) :
    floorLog (2 ^ l.mbits + f) ((c : Int) - l.bias - l.mbits) = (c : Int) - l.bias := by
  rw [floorLog, log2_significand h]
  omega

theorem ulpExp_normal (l : FloatLayout) {f c : Nat} (h : f < 2 ^ l.mbits) (hc : c ≠ 0) :
    ulpExp l (2 ^ l.mbits + f) ((c : Int) - l.bias - l.mbits) = (c : Int) - l.bias - l.mbits := by
  rw [ulpExp, floorLog_normal l c h, if_neg (by omega)]

theorem encodeMag_normal (l : FloatLayout) {f c : Nat} (h : f < 2 ^ l.mbits) (hc : c ≠ 0) :
    encodeMag l (2 ^ l.mbits + f) ((c : Int) - l.bias - l.mbits) = c * 2 ^ l.mbits + f := by
  have hnormal : ¬ (c : Int) - l.bias < 1 - l.bias := by omega
  simp only [encodeMag, floorLog_normal l c h, if_neg hnormal]
  simp

/-! ### The formats of R19 -/

/-- The bits of a float format are its fields and its sign. -/
theorem fmtBits_of_layout {ty : Fmt} {l : FloatLayout} (hl : layoutOf ty = some l) : fmtBits ty = l.mbits + l.ebits + 1 := by
  cases ty <;> cases hl <;> rfl

/-- The code of infinity has the highest exponent field and no fraction (R20). -/
theorem infCode_of_layout {ty : Fmt} {l : FloatLayout} (hl : layoutOf ty = some l) (hi : l.hasInf = true) :
    infCode ty = (2 ^ l.ebits - 1) * 2 ^ l.mbits := by
  revert hi
  cases ty <;> cases hl <;> decide

/-- No finite code is above the largest of its format (R20). -/
theorem mag_le_maxCode {ty : Fmt} {l : FloatLayout} {x : Nat} (hl : layoutOf ty = some l) (hf : l.Finite x) :
    l.mag x ≤ maxCode ty := by
  have hm := l.mag_eq x
  have hfr := l.frac_lt x
  have hex := l.expo_lt x
  obtain ⟨hinf, hnan⟩ := hf
  cases ty <;> cases hl <;>
    simp only [maxCode, forall_const, reduceCtorEq, IsEmpty.forall_iff] at * <;> omega

/-- Encoding a value in whole units of its own format, whose code is no overflow, gives that code in every mode. -/
theorem roundTo_representable {ty : Fmt} {l : FloatLayout} (hl : layoutOf ty = some l) {m : Nat} {e : Int} {c : Nat} (h0 : m ≠ 0)
    (hk : ulpExp l m e = e) (hc : encodeMag l m e = c) (hmax : c ≤ maxCode ty) (neg : Bool) (mode : Rm) (sat : Bool) (w : Word) :
    (roundTo (.fin neg m e) ty mode sat w).1 = some (withSign l neg c) := by
  simp only [roundTo, hl, if_neg h0, hk, roundUnits_self, hc, if_neg (Nat.not_lt.mpr hmax)]

/-- A finite code comes back from its value, saturating or not. -/
theorem roundTo_valueOf_finite {ty : Fmt} {l : FloatLayout} {x : Nat} (hl : layoutOf ty = some l) (hx : x < 2 ^ fmtBits ty)
    (hn : valueOf ty x ≠ .nan) (hi : ∀ b, valueOf ty x ≠ .inf b) (mode : Rm) (sat : Bool) (w : Word) :
    (roundTo (valueOf ty x) ty mode sat w).1 = some x := by
  have hv : valueOf ty x = floatVal l x := by simp only [valueOf, hl]
  have hcode : withSign l (l.sign x) (l.mag x) = x := withSign_mag l (fmtBits_of_layout hl ▸ hx)
  have hmag := l.mag_eq x
  have hfr := l.frac_lt x
  rw [hv] at hn hi ⊢
  obtain ⟨-, -, -, hval⟩ | ⟨hfin, he, hval⟩ | ⟨hfin, he, hval⟩ := floatVal_cases l x hn
  · exact absurd hval (hi _)
  · rw [he, Nat.zero_mul, Nat.zero_add] at hmag
    rw [hval]
    by_cases h0 : l.frac x = 0
    · simp only [roundTo, hl, h0, if_true]
      rw [← h0, ← hmag, hcode]
    · rw [roundTo_representable hl h0 (ulpExp_subnormal l h0 hfr) (encodeMag_subnormal l h0 hfr)
        (hmag ▸ mag_le_maxCode hl hfin), ← hmag, hcode]
  · rw [hval, roundTo_representable hl (by omega) (ulpExp_normal l hfr he) (encodeMag_normal l hfr he)
      (hmag ▸ mag_le_maxCode hl hfin), ← hmag, hcode]

/-- The code of an infinity comes back from its value where rounding does not saturate. -/
theorem roundTo_valueOf_inf {ty : Fmt} {l : FloatLayout} {x : Nat} {b : Bool} (hl : layoutOf ty = some l) (hx : x < 2 ^ fmtBits ty)
    (hb : valueOf ty x = .inf b) (mode : Rm) (w : Word) : (roundTo (valueOf ty x) ty mode false w).1 = some x := by
  have hv : valueOf ty x = floatVal l x := by simp only [valueOf, hl]
  have hcode : withSign l (l.sign x) (l.mag x) = x := withSign_mag l (fmtBits_of_layout hl ▸ hx)
  have hmag := l.mag_eq x
  rw [hv] at hb ⊢
  obtain ⟨hinf, he, hf, hval⟩ | ⟨-, -, hval⟩ | ⟨-, -, hval⟩ := floatVal_cases l x (by simp [hb])
  · rw [he, hf, Nat.add_zero, ← infCode_of_layout hl hinf] at hmag
    simp only [hval, roundTo, hl, hinf, Bool.not_false, Bool.and_true, if_true]
    rw [← hmag, hcode]
  · simp [hb] at hval
  · simp [hb] at hval

/-- Each of the formats has a layout, and its codes are finite or infinities. -/
theorem roundingKeepsCodes : Claims.RoundingKeepsCodes := by
  intro ty x m w hty hx hn
  obtain ⟨l, hl⟩ : ∃ l, layoutOf ty = some l := by
    fin_cases hty <;> exact ⟨_, rfl⟩
  refine ⟨?_, fun hi => roundTo_valueOf_finite hl hx hn hi m true w⟩
  by_cases hi : ∃ b, valueOf ty x = .inf b
  · obtain ⟨b, hb⟩ := hi
    exact roundTo_valueOf_inf hl hx hb m w
  · exact roundTo_valueOf_finite hl hx hn (not_exists.mp hi) m false w

/-- Settles O22: the two rounding modes by the quotient and remainder of the magnitude, the codes through their fields. -/
theorem rounding : Obligations.Rounding := ⟨stochasticRounding, roundingKeepsCodes, roundingIsNearest⟩

end Sys2Proof.Machine
end

section
/-!
PROOFS. The status word (02 R60): the bits of its fields, and that no write reaches it.
-/
namespace Sys2Proof.Machine

/-! ### The fields of the status word -/

/-- A sum of the powers of two at the places that r names has the bits that r names. -/
theorem testBit_foldl_finRange {n : Nat} (r : Fin n → Bool) (i : Nat) :
    ((List.finRange n).foldl (fun a l => if r l then a + 2 ^ l.val else a) 0).testBit i =
      if h : i < n then r ⟨i, h⟩ else false := by
  induction n generalizing i with
  | zero => simp
  | succ n ih =>
    have hbit (i : Nat) := ih (fun l => r l.castSucc) i
    simp only [List.finRange_succ_last, List.foldl_append, List.foldl_map, List.foldl_cons, List.foldl_nil, Fin.val_castSucc,
      Fin.val_last]
    generalize (List.finRange n).foldl _ 0 = a at hbit ⊢
    have hlt : a < 2 ^ n := Nat.lt_pow_two_of_testBit a fun j hj => by rw [hbit, dif_neg (by omega)]
    obtain hi | rfl | hi := Nat.lt_trichotomy i n
    · rw [dif_pos (by omega)]
      have hi' := hbit i
      rw [dif_pos hi] at hi'
      split
      · rw [Nat.add_comm, Nat.testBit_two_pow_add_gt hi, hi']; rfl
      · rw [hi']; rfl
    · rw [dif_pos (by omega)]
      have hi' := hbit i
      rw [dif_neg (by omega)] at hi'
      split
      · next hr => rw [Nat.add_comm, Nat.testBit_two_pow_add_eq, hi']; exact hr.symm
      · next hr => rw [hi']; exact (Bool.eq_false_of_not_eq_true hr).symm
    · rw [dif_neg (by omega)]
      refine Nat.testBit_lt_two_pow (lt_of_lt_of_le ?_ (Nat.pow_le_pow_right (by decide) hi))
      rw [Nat.pow_succ]
      split <;> omega

/-- Whether a lay slot holds a resident lay (R2, R278). -/
def Ctx.holds (x : Ctx) (l : LaySlot) : Bool := x.lays[l.val].any fun y => !y.loading

/-- Whether a lay of the context is wedged (R61). -/
def Ctx.wdg (x : Ctx) : Bool := x.lays.toList.any fun y => y.any Lay.wedged

/-- The slots of the resident lays, one bit each. -/
def Ctx.slotBits (x : Ctx) : Nat := (List.finRange 8).foldl (fun a l => if x.holds l then a + 2 ^ l.val else a) 0

theorem Ctx.testBit_slotBits (x : Ctx) (i : Nat) : x.slotBits.testBit i = if h : i < 8 then x.holds ⟨i, h⟩ else false :=
  testBit_foldl_finRange x.holds i

theorem Ctx.slotBits_lt (x : Ctx) : x.slotBits < 2 ^ 8 :=
  Nat.lt_pow_two_of_testBit _ fun i hi => by rw [testBit_slotBits, dif_neg (by omega)]

theorem Ctx.fev_lt (x : Ctx) : x.fev < 2 ^ 8 := by
  unfold Ctx.fev
  omega

/-- The status word as the sum of its fields (R60). -/
theorem Ctx.stat_eq_sum (x : Ctx) : x.stat =
    BitVec.ofNat 64 (x.fev + 2 ^ 8 * x.slotBits + (if x.prq then 2 ^ 16 else 0) + (if x.wdg then 2 ^ 17 else 0)) := by
  unfold Ctx.stat Ctx.slotBits Ctx.wdg Ctx.holds
  congr! 5 with a l y
  · congr 1
    funext a l
    cases x.lays[l.val] with
    | none => rfl
    | some y => cases hy : y.loading <;> simp [hy]
  · funext y
    cases y <;> rfl

/-- The bits of the status word, field by field (R60). -/
theorem Ctx.getLsbD_stat (x : Ctx) (k : Nat) : x.stat.getLsbD k =
    if k < 8 then x.fev.testBit k else if k < 16 then x.slotBits.testBit (k - 8)
    else if k = 16 then x.prq else decide (k = 17) && x.wdg := by
  have hfields : x.fev + 2 ^ 8 * x.slotBits + (if x.prq then 2 ^ 16 else 0) + (if x.wdg then 2 ^ 17 else 0) =
      2 ^ 8 * (2 ^ 8 * (2 ^ 1 * x.wdg.toNat + x.prq.toNat) + x.slotBits) + x.fev := by
    cases x.prq <;> cases x.wdg <;>
      simp only [Bool.false_eq_true, if_true, if_false, Bool.toNat_true, Bool.toNat_false] <;> ring
  rw [x.stat_eq_sum, hfields, BitVec.getLsbD_ofNat, Nat.testBit_two_pow_mul_add _ x.fev_lt,
    Nat.testBit_two_pow_mul_add _ x.slotBits_lt, Nat.testBit_two_pow_mul_add _ (Bool.toNat_lt x.prq), Nat.testBit_bool_toNat,
    Nat.testBit_bool_toNat]
  by_cases hk : k < 18
  · interval_cases k <;> simp
  · simp only [show ¬ k < 8 by omega, show ¬ k - 8 < 8 by omega, show ¬ k - 8 - 8 < 1 by omega, show ¬ k < 16 by omega,
      show k ≠ 16 by omega, show k ≠ 17 by omega, show k - 8 - 8 - 1 ≠ 0 by omega, if_false, decide_false, Bool.false_and,
      Bool.and_false]

theorem Ctx.stat_toNat_mod (x : Ctx) : x.stat.toNat % 2 ^ 8 = x.fev := by
  have hlt := x.fev_lt
  rw [x.stat_eq_sum, BitVec.toNat_ofNat]
  split <;> split <;> omega

/-- A slot holds a lay whose load has ended. -/
theorem Ctx.holds_iff (x : Ctx) (l : LaySlot) : x.holds l = true ↔ ∃ y, x.lays[l.val] = some y ∧ y.loading = false := by
  rw [Ctx.holds, Option.any_eq_true]
  simp

/-- The wedge bit is set where a slot holds a wedged lay. -/
theorem Ctx.wdg_iff (x : Ctx) : x.wdg = true ↔ ∃ (l : LaySlot) (y : Lay), x.lays[l.val] = some y ∧ y.wedged = true := by
  rw [Ctx.wdg, List.any_eq_true]
  constructor
  · rintro ⟨z, hz, hw⟩
    obtain ⟨y, rfl, hy⟩ := (Option.any_eq_true _ _).mp hw
    obtain ⟨l, hl, e⟩ := List.getElem_of_mem hz
    exact ⟨⟨l, by simpa using hl⟩, y, by simpa using e, hy⟩
  · rintro ⟨l, y, e, hy⟩
    exact ⟨some y, by rw [Vector.mem_toList_iff, ← e]; exact Vector.getElem_mem _, hy⟩

/-- A thread's source 0x23 is the status word of its context (R59). -/
theorem State.readT_stat (s : State) (c : CtxId) (t : Tid) : s.readT c t 0x23 = (s.ctx c).stat := rfl

/-- Settles O10: the status word is the sum of its fields, each of which keeps to its bits. -/
theorem statusWord : Obligations.StatusWord := by
  intro s c t
  simp only [State.readT_stat, State.lay?, BitVec.extractLsb'_toNat, Nat.shiftRight_zero, Ctx.getLsbD_stat]
  refine ⟨(s.ctx c).stat_toNat_mod, fun n => ?_, rfl, (s.ctx c).wdg_iff, fun k hk => ?_, fun v => rfl⟩
  · rw [if_neg (by omega), if_pos (by omega), Nat.add_sub_cancel_left, Ctx.testBit_slotBits, dif_pos n.isLt]
    exact (s.ctx c).holds_iff n
  · rw [if_neg (by omega), if_neg (by omega), if_neg (by omega), decide_eq_false (by omega), Bool.false_and]

end Sys2Proof.Machine
end

section
/-!
PROOFS. The operands of a station (02 R54 to R57): bit strings and groups of words, what each kind of source reads, the
draws of rnd sources, and that a group written reads back.
-/
namespace Sys2Proof.Machine

/-! ### Bit strings (R18, R54) -/

theorem length_wordsOfStr (n x : Nat) : (wordsOfStr n x).length = n := by
  induction n generalizing x with
  | zero => rfl
  | succ n ih => rw [wordsOfStr, List.length_cons, ih]

/-- The words of a string give the string back. -/
theorem strOfWords_wordsOfStr {n x : Nat} (h : x < 2 ^ (32 * n)) : strOfWords (wordsOfStr n x) = x := by
  induction n generalizing x with
  | zero =>
    rw [Nat.mul_zero, Nat.pow_zero, Nat.lt_one_iff] at h
    exact h.symm
  | succ n ih =>
    have hdiv : x / 2 ^ 32 < 2 ^ (32 * n) := Nat.div_lt_of_lt_mul (by rwa [← Nat.pow_add, Nat.add_comm])
    rw [wordsOfStr, strOfWords, ih hdiv, BitVec.toNat_ofNat, Nat.mod_add_div]

theorem strOfElems_lt (b : Nat) (es : List Nat) : strOfElems b es < 2 ^ (b * es.length) := by
  induction es with
  | nil => exact Nat.two_pow_pos _
  | cons e es ih =>
    have he : e % 2 ^ b < 2 ^ b := Nat.mod_lt _ (Nat.two_pow_pos b)
    rw [strOfElems, List.length_cons, Nat.mul_succ, Nat.add_comm, Nat.pow_add, Nat.mul_comm (2 ^ (b * es.length))]
    calc 2 ^ b * strOfElems b es + e % 2 ^ b < 2 ^ b * (strOfElems b es + 1) := by rw [Nat.mul_succ]; omega
      _ ≤ 2 ^ b * 2 ^ (b * es.length) := Nat.mul_le_mul_left _ ih

theorem elemAt_zero_strOfElems (b e : Nat) (es : List Nat) : elemAt b 0 (strOfElems b (e :: es)) = e % 2 ^ b := by
  rw [elemAt, strOfElems, Nat.mul_zero, Nat.shiftRight_zero, Nat.add_mul_mod_self_left, Nat.mod_mod]

theorem elemAt_succ_strOfElems (b i e : Nat) (es : List Nat) :
    elemAt b (i + 1) (strOfElems b (e :: es)) = elemAt b i (strOfElems b es) := by
  have he : e % 2 ^ b < 2 ^ b := Nat.mod_lt _ (Nat.two_pow_pos b)
  rw [elemAt, elemAt, strOfElems, Nat.mul_succ, Nat.add_comm (b * i), Nat.shiftRight_add, Nat.shiftRight_eq_div_pow _ b,
    Nat.add_mul_div_left _ _ (Nat.two_pow_pos b), Nat.div_eq_of_lt he, Nat.zero_add]

/-- The elements of a string of elements are those elements. -/
theorem elemsOf_strOfElems {b : Nat} {es : List Nat} (h : ∀ e ∈ es, e < 2 ^ b) : elemsOf b es.length (strOfElems b es) = es := by
  induction es with
  | nil => rfl
  | cons e es ih =>
    have htail := ih fun x hx => h x (List.mem_cons_of_mem e hx)
    rw [elemsOf] at htail ⊢
    simp only [List.length_cons, List.range_succ_eq_map, List.map_cons, List.map_map, Function.comp_def, Nat.succ_eq_add_one,
      elemAt_zero_strOfElems, elemAt_succ_strOfElems, htail, Nat.mod_eq_of_lt (h e List.mem_cons_self)]

/-! ### Groups of words -/

/-- A vector of words with those of a list written from place j on, as far as it reaches. -/
def writeFrom {m : Nat} (v : Vector Word m) (j : Nat) : List Word → Vector Word m
  | [] => v
  | w :: ws => writeFrom (v.setIfInBounds j w) (j + 1) ws

theorem vput_eq_writeFrom (v : Vec16) (j : Nat) (ws : List Word) : vput v j ws = writeFrom v j ws := by
  induction ws generalizing v j with
  | nil => rfl
  | cons w ws ih => exact ih _ _

theorem putK_eq_writeFrom (k : Vector Word 12) (j : Nat) (ws : List Word) : putK k j ws = writeFrom k j ws := by
  induction ws generalizing k j with
  | nil => rfl
  | cons w ws ih => exact ih _ _

/-- The words before and after those written stand. -/
theorem getElem?_writeFrom_other {m : Nat} (v : Vector Word m) (j : Nat) (ws : List Word) {n : Nat}
    (h : n < j ∨ j + ws.length ≤ n) : (writeFrom v j ws)[n]? = v[n]? := by
  induction ws generalizing v j with
  | nil => rfl
  | cons w ws ih =>
    rw [List.length_cons] at h
    rw [writeFrom, ih _ _ (by omega), Vector.getElem?_setIfInBounds_ne (by omega)]

theorem getElem_writeFrom_other {m : Nat} (v : Vector Word m) (j : Nat) (ws : List Word) {n : Nat} (hn : n < m)
    (h : n < j ∨ j + ws.length ≤ n) : (writeFrom v j ws)[n] = v[n] :=
  Option.some.inj (by rw [← Vector.getElem?_eq_getElem, ← Vector.getElem?_eq_getElem, getElem?_writeFrom_other v j ws h])

/-- A word written is there. -/
theorem getElem?_writeFrom_same {m : Nat} (v : Vector Word m) (j : Nat) (ws : List Word) {i : Nat} (hi : i < ws.length)
    (hj : j + ws.length ≤ m) : (writeFrom v j ws)[j + i]? = ws[i]? := by
  induction ws generalizing v j i with
  | nil => exact absurd hi (Nat.not_lt_zero i)
  | cons w ws ih =>
    rw [List.length_cons] at hi hj
    rw [writeFrom]
    cases i with
    | zero =>
      rw [getElem?_writeFrom_other _ _ _ (by omega), Nat.add_zero, Vector.getElem?_setIfInBounds_self_of_lt (by omega)]
      rfl
    | succ i =>
      rw [show j + (i + 1) = j + 1 + i by omega, ih _ _ (by omega) (by omega)]
      rfl

/-- A group read where it was written is what was written. -/
theorem readGroup_writeFrom {m : Nat} (v : Vector Word m) (j : Nat) (ws : List Word) (h : j + ws.length ≤ m) :
    (List.range ws.length).map (fun i => (writeFrom v j ws)[j + i]?.getD 0) = ws := by
  refine List.ext_getElem (by simp) fun i hi hi' => ?_
  rw [List.getElem_map, List.getElem_range, getElem?_writeFrom_same v j ws hi' h, List.getElem?_eq_getElem hi', Option.getD_some]

/-- A group that lies in a vector is that part of it. -/
theorem vgroup_eq (v : Vec16) {j g : Nat} (h : j + g ≤ 16) : vgroup v j g = (v.toList.drop j).take g := by
  refine List.ext_getElem (by simp [vgroup]; omega) fun i hi hi' => ?_
  have hlt : i < g := by simpa [vgroup] using hi
  simp only [vgroup, vword, List.getElem_map, List.getElem_range, List.getElem_take, List.getElem_drop]
  rw [Vector.getElem?_eq_getElem (by omega), Option.getD_some, Vector.getElem_toList]

/-! ### What each kind of source reads (R54, R56, R57) -/

section Sources

variable {r : Run} {x : Src} {fl : Option Fmt} {ws : List Word}

theorem Run.lanes_payload (h : x.sp.toNat < 16) (hp : r.f.r.isPoison = false) :
    r.lanes x fl ws = (elemsOf x.w x.n (strOfWords (vgroup r.f.r.pay x.sp.toNat x.g)), r) := by
  simp [Run.lanes, Run.fWords, h, hp]

theorem Run.lanes_kv (m : Fin 4) (h : x.sp.toNat = 28 + m.val) :
    r.lanes x fl ws = (elemsOf x.w x.n (strOfWords (vgroup r.f.kv[m.val] 0 x.g)), r) := by
  simp [Run.lanes, h, show ¬ 28 + m.val < 16 by omega, show 28 + m.val < 32 by omega, Nat.mod_eq_of_lt m.isLt]

/-- A k register that names its neighbours too (log entry 10). -/
theorem Run.lanes_kGroup (hk : x.kg = true) (h : 16 ≤ x.sp.toNat ∧ x.sp.toNat < 28) : r.lanes x fl ws =
    (elemsOf x.w x.n (strOfWords ((List.range x.g).map fun i => r.f.k[x.sp.toNat - 16 + i]?.getD 0)), r) := by
  simp [Run.lanes, hk, h.2, Nat.not_lt.mpr h.1, Nat.not_le.mpr h.2]

theorem Run.lanes_number (h : x.sp.toNat = 0x29) : r.lanes x fl ws = ((List.range x.n).map fun i => i % 2 ^ x.w, r) := by
  simp [Run.lanes, h]

theorem Run.lanes_rnd (h : x.sp.toNat = 0x2e) : r.lanes x fl ws = (elemsOf x.w x.n (strOfWords ws), r) := by
  simp [Run.lanes, h]

/-- Every other source fills the lanes with one value. -/
theorem Run.lanes_scalar (hk : x.kg = false) (h16 : 16 ≤ x.sp.toNat) (hkv : ¬ (28 ≤ x.sp.toNat ∧ x.sp.toNat < 32))
    (hl : x.sp.toNat ≠ 0x29) (hr : x.sp.toNat ≠ 0x2e) :
    r.lanes x fl ws = (List.replicate x.n (r.scalar x.sp x.w fl), r) := by
  simp [Run.lanes, hk, Nat.not_lt.mpr h16, hkv, hl, hr]

/-- A header field fills the lanes (R42). -/
theorem Run.lanes_hdr (hk : x.kg = false) (h : 0x20 ≤ x.sp.toNat ∧ x.sp.toNat < 0x28) :
    r.lanes x fl ws = (List.replicate x.n (hdrField r.f.r.hdr x.sp.toNat % 2 ^ x.w), r) := by
  rw [Run.lanes_scalar hk (by omega) (by omega) (by omega) (by omega)]
  unfold Run.scalar
  dsimp only
  rw [if_neg (by omega), if_pos h.2]

/-- What the specifiers that name one number broadcast (R56, R57). -/
theorem Run.scalar_special (r : Run) (sp : Spec) (w : Nat) (fl : Option Fmt) :
    (sp.toNat = 0x28 → r.scalar sp w fl = 0) ∧ (sp.toNat = 0x2a → r.scalar sp w fl = r.env.sid % 2 ^ w) ∧
    (sp.toNat = 0x2b → r.scalar sp w fl = r.env.pid % 2 ^ w) ∧ (sp.toNat = 0x2c → r.scalar sp w fl = r.env.did % 2 ^ w) ∧
    (sp.toNat = 0x2d → r.scalar sp w fl = r.env.acyc % 2 ^ 32 % 2 ^ w) ∧ (sp.toNat = 0x2f → r.scalar sp w fl = 2 ^ w - 1) := by
  refine ⟨?_, ?_, ?_, ?_, ?_, ?_⟩ <;>
    (intro h
     simp [Run.scalar, h])

theorem Run.scalar_k (r : Run) {sp : Spec} (w : Nat) (fl : Option Fmt) (m : Fin 12) (h : sp.toNat = 16 + m.val) :
    r.scalar sp w fl = (r.f.k[m.val]).toNat % 2 ^ w := by
  simp [Run.scalar, h, show 16 + m.val < 28 by omega, Nat.mod_eq_of_lt m.isLt]

/-- A small constant of an integer instruction is its value in two's complement (R56). -/
theorem Run.scalar_small (r : Run) {sp : Spec} (w : Nat) (m : Fin 16) (h : sp.toNat = 0x30 + m.val) :
    r.scalar sp w none = (BitVec.ofInt w ((m.val : Int) - 8)).toNat := by
  have hvalue : smallInt sp = (m.val : Int) - 8 := by
    rw [smallInt, h]
    omega
  unfold Run.scalar
  dsimp only
  rw [if_neg (by omega), if_neg (by omega), if_neg (by omega), if_neg (by omega), if_neg (by omega), if_neg (by omega),
    if_neg (by omega), if_neg (by omega), hvalue, narrow, BitVec.toNat_ofInt]

/-- Payload words of a poison record take free values (R28); nothing else is changed by reading a source. -/
theorem Run.lanes_snd (r : Run) (x : Src) (fl : Option Fmt) (ws : List Word) : (r.lanes x fl ws).2 =
    { r with free := r.free + if x.sp.toNat < 16 ∧ r.f.r.isPoison = true then x.g else 0 } := by
  unfold Run.lanes Run.fWords
  dsimp only
  split_ifs <;> simp_all

theorem Run.lanes_snd_of_clean (hp : r.f.r.isPoison = false) : (r.lanes x fl ws).2 = r := by
  simp [Run.lanes_snd, hp]

end Sources

/-! ### Draws (R33, R109) -/

/-- Of the words of one source the earlier is drawn first. -/
theorem DrawKey.before_same (w i j k : Nat) : DrawKey.before (32 * j / w, i, j) (32 * k / w, i, k) = decide (j < k) := by
  have hlt (h : j < k) : 32 * j / w ≤ 32 * k / w := Nat.div_le_div_right (by omega)
  have hge (h : k ≤ j) : 32 * k / w ≤ 32 * j / w := Nat.div_le_div_right (by omega)
  rw [Bool.eq_iff_iff]
  simp only [DrawKey.before, Bool.or_eq_true, Bool.and_eq_true, beq_iff_eq, decide_eq_true_eq, lt_self_iff_false, false_or,
    true_and]
  generalize 32 * j / w = a at hlt hge ⊢
  generalize 32 * k / w = b at hlt hge ⊢
  omega

/-- How many of the first g numbers are below k. -/
theorem length_filter_lt_range (g k : Nat) : ((List.range g).filter fun j => decide (j < k)).length = min g k := by
  induction g with
  | zero => simp
  | succ g ih =>
    rw [List.range_succ, List.filter_append, List.length_append, ih]
    by_cases h : g < k
    · simp [h]; omega
    · simp [h]; omega

theorem Src.draws_rnd {x : Src} (h : x.sp = 0x2e) (i : Nat) : x.draws i = (List.range x.g).map fun j => (32 * j / x.w, i, j) :=
  if_pos h

theorem Src.length_draws (x : Src) (i : Nat) : (x.draws i).length = if x.sp = 0x2e then x.g else 0 := by
  unfold Src.draws
  split <;> simp

/-- The draws of one source that come before the draw of its word k are k. -/
theorem Src.countBefore_same {x : Src} (h : x.sp = 0x2e) (i : Nat) {k : Nat} (hk : k < x.g) :
    ((x.draws i).filter fun y => y.before (32 * k / x.w, i, k)).length = k := by
  rw [x.draws_rnd h, List.filter_map, List.length_map]
  simp only [Function.comp_def, DrawKey.before_same, length_filter_lt_range]
  omega

/-- One rnd source draws its words in order. -/
theorem map_drawWord_draws {x : Src} (h : x.sp = 0x2e) (i : Nat) (l : Word) :
    (x.draws i).map (drawWord (x.draws i) l) = (List.range x.g).map fun j => lfsrIter (j + 1) l := by
  conv_lhs => arg 2; rw [x.draws_rnd h]
  rw [List.map_map]
  refine List.map_congr_left fun j hj => ?_
  rw [Function.comp_apply, drawWord, x.countBefore_same h i (List.mem_range.mp hj)]

/-- Of the words that one lane of 32 bits reads, the draw of the second source follows that of the first. -/
theorem DrawKey.before_turns (j k : Nat) :
    DrawKey.before (32 * j / 32, 1, j) (32 * k / 32, 0, k) = decide (j < k) ∧
    DrawKey.before (32 * j / 32, 0, j) (32 * k / 32, 1, k) = decide (j < k + 1) := by
  rw [Nat.mul_div_cancel_left j (by decide), Nat.mul_div_cancel_left k (by decide)]
  constructor
  · simp [DrawKey.before]
  · rw [Bool.eq_iff_iff]
    simp [DrawKey.before]
    omega

section Turns

variable {x y : Src} (hx : x.sp = 0x2e) (hy : y.sp = 0x2e) (hxw : x.w = 32) (hyw : y.w = 32) (hg : x.g = y.g)
include hx hy hxw hyw hg

/-- Two rnd sources of 32-bit lanes take turns: word j of the first has 2j draws before it, that of the second one more. -/
theorem drawWord_turns (l : Word) {j : Nat} (hj : j < x.g) :
    drawWord (x.draws 0 ++ y.draws 1) l (32 * j / x.w, 0, j) = lfsrIter (2 * j + 1) l ∧
    drawWord (x.draws 0 ++ y.draws 1) l (32 * j / y.w, 1, j) = lfsrIter (2 * j + 2) l := by
  constructor
  · rw [drawWord, List.filter_append, List.length_append, x.countBefore_same hx 0 hj, y.draws_rnd hy, List.filter_map,
      List.length_map, hxw, hyw, ← hg]
    simp only [Function.comp_def, DrawKey.before_turns, length_filter_lt_range]
    rw [min_eq_right hj.le, two_mul]
  · rw [drawWord, List.filter_append, List.length_append, y.countBefore_same hy 1 (hg ▸ hj), x.draws_rnd hx, List.filter_map,
      List.length_map, hxw, hyw]
    simp only [Function.comp_def, DrawKey.before_turns, length_filter_lt_range]
    rw [min_eq_right hj]
    congr 1
    omega

theorem map_drawWord_turns (l : Word) :
    (x.draws 0).map (drawWord (x.draws 0 ++ y.draws 1) l) = (List.range x.g).map (fun j => lfsrIter (2 * j + 1) l) ∧
    (y.draws 1).map (drawWord (x.draws 0 ++ y.draws 1) l) = (List.range x.g).map (fun j => lfsrIter (2 * j + 2) l) := by
  have hword {j : Nat} (hj : j ∈ List.range x.g) := drawWord_turns hx hy hxw hyw hg l (List.mem_range.mp hj)
  constructor
  · conv_lhs => arg 2; rw [x.draws_rnd hx]
    rw [List.map_map]
    exact List.map_congr_left fun j hj => (hword hj).1
  · conv_lhs => arg 2; rw [y.draws_rnd hy, ← hg]
    rw [List.map_map]
    exact List.map_congr_left fun j hj => (hword hj).2

end Turns

/-! ### Where a group is written (R54) -/

theorem Frame.putWords_payload (f : Frame) {sp : Spec} (ws : List Word) (h : sp.toNat < 16) :
    f.putWords sp ws = { f with r := { f.r with pay := vput f.r.pay sp.toNat ws } } := if_pos h

theorem Frame.putWords_k (f : Frame) {sp : Spec} (ws : List Word) (h : 16 ≤ sp.toNat ∧ sp.toNat < 28) :
    f.putWords sp ws = { f with k := putK f.k (sp.toNat - 16) ws } := by
  simp [Frame.putWords, h.2, Nat.not_lt.mpr h.1]

theorem Frame.putWords_kv (f : Frame) {sp : Spec} (ws : List Word) (m : Fin 4) (h : sp.toNat = 28 + m.val) :
    f.putWords sp ws = { f with kv := f.kv.set m.val (vput f.kv[m.val] 0 ws) } := by
  simp [Frame.putWords, h, show ¬ 28 + m.val < 16 by omega, show 28 + m.val < 32 by omega, Nat.mod_eq_of_lt m.isLt]

theorem Frame.putWords_special (f : Frame) {sp : Spec} (ws : List Word) (h : 32 ≤ sp.toNat) : f.putWords sp ws = f := by
  unfold Frame.putWords
  dsimp only
  rw [if_neg (by omega), if_neg (by omega), if_neg (by omega)]

/-! ### The statements -/

/-- A rnd source alone draws the words of its group in order (R33). -/
theorem Run.readAll_rnd (r : Run) {x : Src} (h : x.sp = 0x2e) : r.readAll [(x, none)] =
    ([elemsOf x.w x.n (strOfWords ((List.range x.g).map fun j => lfsrIter (j + 1) r.f.lfsr))],
      { r with f := { r.f with lfsr := lfsrIter x.g r.f.lfsr } }) := by
  have hdraws : drawsFrom 0 [(x, (none : Option Fmt))] = x.draws 0 := List.append_nil _
  rw [Run.readAll, hdraws, Run.readFrom, Run.lanes_rnd (by rw [h]; rfl), map_drawWord_draws h, x.length_draws, if_pos h]
  rfl

theorem stationSources : Claims.StationSources := by
  intro r x ws hk n all
  have hfill {v : Nat} (h : (16 ≤ n ∧ n < 28) ∨ (32 ≤ n ∧ n ≠ 0x29 ∧ n ≠ 0x2e)) (hv : r.scalar x.sp x.w none = v) :
      r.lanes x none ws = (List.replicate x.n v, r) := by
    rw [Run.lanes_scalar hk (by omega) (by omega) (by omega) (by omega), hv]
  have hhdr (m : Nat) (h : 0x20 ≤ m ∧ m < 0x28) (hn : n = m) : r.lanes x none ws = all (hdrField r.f.r.hdr m) := by
    subst hn
    exact Run.lanes_hdr hk h
  obtain ⟨hzero, hsid, hpid, hdid, hacyc, hones⟩ := r.scalar_special x.sp x.w none
  refine ⟨fun hn hg hp => ?_, fun m hn => hfill (by omega) (r.scalar_k x.w none m hn), fun m hn hg => ?_, hhdr 0x20 (by decide),
    hhdr 0x21 (by decide), hhdr 0x22 (by decide), hhdr 0x23 (by decide), hhdr 0x24 (by decide), hhdr 0x25 (by decide),
    hhdr 0x26 (by decide), hhdr 0x27 (by decide), fun hn => hfill (by omega) ((hzero hn).trans (Nat.zero_mod _).symm),
    Run.lanes_number, fun hn => hfill (by omega) (hsid hn), fun hn => hfill (by omega) (hpid hn),
    fun hn => hfill (by omega) (hdid hn), fun hn hw => hfill (by omega) ?_, fun hn => r.readAll_rnd (BitVec.eq_of_toNat_eq hn),
    fun hn => hfill (by omega) (hones hn), fun m hn => hfill (by omega) (r.scalar_small x.w m hn)⟩
  · rw [Run.lanes_payload hn hp, vgroup_eq _ hg]
    rfl
  · rw [Run.lanes_kv m hn, vgroup_eq _ (by omega)]
    rfl
  · exact (hacyc hn).trans (Nat.mod_mod_of_dvd _ (Nat.pow_dvd_pow 2 hw))

theorem sourcesReadTogether : Claims.SourcesReadTogether := by
  intro r x y fx fy hp all dx dy
  refine ⟨?_, ?_, fun hx hy hxw hyw hg => map_drawWord_turns hx hy hxw hyw hg r.f.lfsr⟩
  · have hdraws : drawsFrom 0 [(x, fx), (y, fy)] = all := by
      rw [drawsFrom, drawsFrom, drawsFrom, List.append_nil]
    have hfst (a : Src) (fa : Option Fmt) (ws : List Word) : r.lanes a fa ws = ((r.lanes a fa ws).1, r) :=
      Prod.ext rfl (Run.lanes_snd_of_clean hp)
    rw [Run.readAll, hdraws, Run.readFrom, hfst x]
    dsimp only
    rw [Run.readFrom, hfst y]
    rfl
  · rw [List.length_append, x.length_draws, y.length_draws]

theorem groupReadsBack : Claims.GroupReadsBack := by
  intro r sp w g ls ws _ hg hlen hlt hp hsp
  have hstr : strOfElems w ls < 2 ^ (32 * g) := by
    rw [← hlen, Nat.mul_comm]
    exact strOfElems_lt w ls
  have hback (v : List Word) (hv : v = wordsOfStr g (strOfElems w ls)) : elemsOf w ls.length (strOfWords v) = ls := by
    rw [hv, strOfWords_wordsOfStr hstr, elemsOf_strOfElems hlt]
  have hwords := length_wordsOfStr g (strOfElems w ls)
  rw [Frame.putLanes]
  generalize wordsOfStr g (strOfElems w ls) = v at hback hwords
  subst hwords
  obtain hpay | hk | ⟨hkv, hkv', hg16⟩ := hsp
  · have hn : sp.toNat < 16 := by omega
    rw [Frame.putWords_payload _ _ hn, Run.lanes_payload (by exact hn) (by exact hp), vput_eq_writeFrom]
    exact hback _ (readGroup_writeFrom _ _ _ hpay)
  · have hn : 16 ≤ sp.toNat ∧ sp.toNat < 28 := by omega
    rw [Frame.putWords_k _ _ hn, Run.lanes_kGroup rfl hn, putK_eq_writeFrom]
    exact hback _ (readGroup_writeFrom _ _ _ (by omega))
  · obtain ⟨m, hm⟩ : ∃ m : Fin 4, sp.toNat = 28 + m.val := ⟨⟨sp.toNat - 28, by omega⟩, by dsimp only; omega⟩
    rw [Frame.putWords_kv _ _ m hm, Run.lanes_kv m hm, Vector.getElem_set_self, vput_eq_writeFrom]
    exact hback _ (readGroup_writeFrom _ _ _ (by omega))

/-- Settles O18: each kind of source by the branch of its specifier, the draws by their order, a group by its string. -/
theorem stationOperands : Obligations.StationOperands := ⟨stationSources, sourcesReadTogether, groupReadsBack⟩

end Sys2Proof.Machine
end

section
/-!
PROOFS. Frames of a thread's instructions (02 R59, 04 R110): what writing a destination, writing a predicate and going on
leave of a thread, and that nothing outside the thread changes.
-/
namespace Sys2Proof.Machine

/-! ### Nothing outside one thread -/

theorem SameButThread.trans {s t u : State} {c : CtxId} {x : Tid} (h : SameButThread s t c x) (k : SameButThread t u c x) :
    SameButThread s u c x := by
  obtain ⟨hs, hctx, hc, hth⟩ := h
  obtain ⟨ks, kctx, kc, kth⟩ := k
  refine ⟨?_, fun d hd => (kctx d hd).trans (hctx d hd), ?_, fun y hy => (kth y hy).trans (hth y hy)⟩
  · exact (congrArg (fun z : State => { z with ctxs := s.ctxs }) ks).trans hs
  · exact (congrArg (fun z : Ctx => { z with threads := (s.ctx c).threads }) kc).trans hc

/-- Changing a thread changes nothing outside it. -/
theorem sameButThread_modThread (s : State) (c : CtxId) (x : Tid) (f : Thread → Thread) :
    SameButThread s (s.modThread c x f) c x := by
  refine ⟨rfl, fun d hd => State.ctx_modCtx_other s c d _ hd.symm, ?_,
    fun y hy => State.thread_modThread_other s c x y f hy.symm⟩
  rw [State.modThread, State.setThread, State.ctx_modCtx_same]

/-! ### Going on (R309) -/

/-- A loop step changes the counters and the loops alone. -/
theorem loopStep_eq (ls : List (Fin 4 × LoopEnt)) (th : Thread) (nxt : DWord) :
    ∃ lc loops, (loopStep ls th nxt).1 = { th with lc := lc, loops := loops } := by
  induction ls generalizing th with
  | nil => exact ⟨_, _, rfl⟩
  | cons x rest ih =>
    rw [loopStep]
    dsimp only
    generalize (if th.lc[x.1.val] = 0 then 0 else th.lc[x.1.val] - 1) = v
    split
    · exact ⟨_, _, rfl⟩
    · exact ih _

/-- Going on changes the pc, the counters and the loops, and ends what the instruction had under way. -/
theorem Thread.advance_eq (th : Thread) :
    ∃ pc lc loops, th.advance = { th.ended with pc := pc, lc := lc, loops := loops } := by
  obtain ⟨lc, loops, h⟩ := loopStep_eq (loopsEndingAt th th.pc) th (th.pc + 8)
  generalize hstep : loopStep (loopsEndingAt th th.pc) th (th.pc + 8) = z at h
  refine ⟨z.2, lc, loops, ?_⟩
  rw [Thread.advance, hstep]
  exact congrArg (fun y : Thread => { y.ended with pc := z.2 }) h

/-- Where no active loop ends at the pc, going on is to the next word. -/
theorem Thread.advance_of_no_loop {th : Thread} (h : loopsEndingAt th th.pc = []) :
    th.advance = { th.ended with pc := th.pc + 8 } := by
  rw [Thread.advance, h]
  rfl

/-! ### What is written -/

/-- A thread that differs in the destination d alone, and in its predicates where preds says so. -/
structure Thread.WroteOnly (x y : Thread) (d : Spec) (preds : Bool) : Prop where
  reg : ∀ n : Fin 32, n.val ≠ d.toNat → y.getS n = x.getS n
  pred : preds = false → d ≠ 0x28 → y.p = x.p
  count : ∀ n : Fin 4, 0x24 + n.val ≠ d.toNat → y.lc[n.val] = x.lc[n.val]
  rest : ∃ s p lc, y = { x with s := s, p := p, lc := lc }

theorem Thread.WroteOnly.refl (x : Thread) (d : Spec) (preds : Bool) : x.WroteOnly x d preds :=
  ⟨fun _ _ => rfl, fun _ _ => rfl, fun _ _ => rfl, _, _, _, rfl⟩

/-- A register written leaves the others. -/
theorem Thread.getS_setS_other (x : Thread) {n m : Fin 32} (v : DWord) (h : n ≠ m) : (x.setS n v).getS m = x.getS m := by
  have hval : n.val ≠ m.val := fun e => h (Fin.ext e)
  unfold Thread.setS Thread.getS
  split_ifs
  · rfl
  · rfl
  · exact Vector.getElem_set_ne n.isLt m.isLt hval

/-- A register written changes the registers alone. -/
theorem Thread.setS_eq (x : Thread) (n : Fin 32) (v : DWord) : ∃ s, x.setS n v = { x with s := s } := by
  unfold Thread.setS
  split <;> exact ⟨_, rfl⟩

/-- A destination written is all that differs (R59). -/
theorem Thread.wroteOnly_write (x : Thread) (d : Spec) (v : DWord) (preds : Bool) : x.WroteOnly (x.write d v) d preds := by
  unfold Thread.write
  dsimp only
  split_ifs with hreg hcount hpset
  · have hother (n : Fin 32) (hn : n.val ≠ d.toNat) : Fin.ofNat 32 d.toNat ≠ n := fun e => hn (by
      rw [← e, Fin.val_ofNat, Nat.mod_eq_of_lt hreg])
    obtain ⟨s, hs⟩ := x.setS_eq (Fin.ofNat 32 d.toNat) v
    exact ⟨fun n hn => x.getS_setS_other v (hother n hn), fun _ _ => by rw [hs], fun _ _ => by rw [hs], s, _, _, hs⟩
  · exact ⟨fun _ _ => rfl, fun _ _ => rfl, fun n hn => Vector.getElem_set_ne (by omega) _ (by omega), _, _, _, rfl⟩
  · exact ⟨fun _ _ => rfl, fun _ hd => absurd (BitVec.eq_of_toNat_eq hpset) hd, fun _ _ => rfl, _, _, _, rfl⟩
  · exact .refl x d preds

/-- A predicate written after that is the predicates' difference (R118). -/
theorem Thread.WroteOnly.setP {x y : Thread} {d : Spec} {preds : Bool} (h : x.WroteOnly y d preds) (n : BitVec 3) (v : Bool) :
    x.WroteOnly (y.setP n v) d true := by
  obtain ⟨hreg, -, hcount, s, p, lc, rfl⟩ := h
  unfold Thread.setP
  split
  · exact ⟨hreg, nofun, hcount, _, _, _, rfl⟩
  · exact ⟨hreg, nofun, hcount, _, _, _, rfl⟩

/-- Going on after the write is what the frame of a thread's instruction allows. -/
theorem Thread.WroteOnly.advance {x y : Thread} {d : Spec} {preds : Bool} (h : x.WroteOnly y d preds) :
    WroteAndWentOn x y.advance d preds := by
  obtain ⟨pc, counts, loops, hadv⟩ := y.advance_eq
  obtain ⟨hreg, hpred, hcount, s, p, lc, rfl⟩ := h
  refine ⟨?_, ?_, ?_, fun hloops => ?_⟩
  · rw [hadv]
    exact hreg
  · rw [hadv]
    exact hpred
  · rw [hadv]
    exact ⟨rfl, rfl, rfl, rfl, rfl, rfl, rfl⟩
  · rw [Thread.advance_of_no_loop (th := { x with s := s, p := p, lc := lc }) hloops]
    exact ⟨rfl, rfl, hcount⟩

/-! ### The instructions -/

/-- What the frame of an integer, field or immediate instruction of a thread allows. -/
def ThreadChange (s t : State) (c : CtxId) (x : Tid) (d : Spec) (preds : Bool) : Prop :=
  SameButThread s t c x ∧ WroteAndWentOn (s.thread c x) (t.thread c x) d preds

/-- A step that changes a thread as the frame allows. -/
theorem threadChange_modThread {s : State} {c : CtxId} {x : Tid} {d : Spec} {preds : Bool} {f : Thread → Thread}
    (h : WroteAndWentOn (s.thread c x) (f (s.thread c x)) d preds) : ThreadChange s (s.modThread c x f) c x d preds :=
  ⟨sameButThread_modThread s c x f, by rwa [State.thread_modThread_same]⟩

/-- A thread's instruction that writes its destination and completes. -/
theorem threadChange_finishT (s : State) (c : CtxId) (x : Tid) (d : Spec) (v : DWord) (preds : Bool) :
    ThreadChange s (s.finishT c x d v) c x d preds :=
  threadChange_modThread ((s.thread c x).wroteOnly_write d v preds).advance

/-- A thread's lane instruction changes its destination, and its predicates where it is a compare that names one. -/
theorem threadChange_runLaneT (o : LForm) (opt : LaneOpt) (f : LaneIn → LaneOut) (s : State) (c : CtxId) (x : Tid) :
    ThreadChange s (runLaneT o opt f s c x) c x o.d (opt.cmp && o.qw) := by
  unfold runLaneT
  dsimp only
  split
  · have hwrite (v : DWord) : SameButThread s (s.writeT c x o.d v) c x := sameButThread_modThread s c x _
    cases opt.cmp && o.qw with
    | false =>
      rw [if_neg Bool.false_ne_true]
      refine ⟨(hwrite _).trans (sameButThread_modThread _ c x _), ?_⟩
      rw [State.advance, State.writeT, State.thread_modThread_same, State.thread_modThread_same]
      exact (Thread.wroteOnly_write _ _ _ false).advance
    | true =>
      rw [if_pos rfl]
      refine ⟨((hwrite _).trans (sameButThread_modThread _ c x _)).trans (sameButThread_modThread _ c x _), ?_⟩
      rw [State.advance, State.writeT, State.thread_modThread_same, State.thread_modThread_same, State.thread_modThread_same]
      exact ((Thread.wroteOnly_write _ _ _ true).setP _ _).advance
  · exact threadChange_modThread (Thread.WroteOnly.refl _ o.d _).advance

/-- The integer and field instructions of format L, but for the compare. -/
def integerInstrs : List (LForm → Instr) := [.add, .sub, .mul, .mulh, .mad, .div, .rem, .addc, .and, .or, .xor, .andn, .not, .shl,
  .shr, .sar, .rol, .ror, .clz, .ctz, .popc, .brev, .min, .max, .abs, .neg, .sel, .lea, .mov, .bfx, .bfi, .byteperm, .hash, .cvti]

/-- The immediate instructions. -/
def immediateInstrs : List (IForm → Instr) := [.addImm, .andImm, .orImm, .xorImm, .shlImm, .shrImm, .sarImm, .cmpImm, .movi]

/-- An instruction of format L that is the run of a lane computation; cmp says whether a compare. -/
def RunsLane (k : LForm → Instr) (cmp : Bool) : Prop :=
  ∀ o, ∃ (opt : LaneOpt) (f : LaneIn → LaneOut), opt.cmp = cmp ∧ ∀ s, exec (k o) s = runLane o opt f s

/-- An instruction of format I that is the run of a lane function with its immediate. -/
def RunsImm (k : IForm → Instr) : Prop :=
  ∀ o, ∃ (useA : Bool) (f : Nat → Nat → Nat → Nat), ∀ s, exec (k o) s = runImm o useA f s

theorem runsLane_integer : ∀ k ∈ integerInstrs, RunsLane k false := by
  intro k hk o
  fin_cases hk <;> exact ⟨_, _, rfl, fun _ => rfl⟩

theorem runsLane_cmp : RunsLane .cmp true := fun _ => ⟨_, _, rfl, fun _ => rfl⟩

theorem runsImm_immediate : ∀ k ∈ immediateInstrs, RunsImm k := by
  intro k hk o
  fin_cases hk <;> exact ⟨_, _, fun _ => by dsimp only [exec]; rfl⟩

/-- In a thread such an instruction changes what its frame allows. -/
theorem RunsLane.threadChange {k : LForm → Instr} {cmp : Bool} (hk : RunsLane k cmp) {o : LForm} {s t : State} {c : CtxId}
    {x : Tid} (hcur : s.cur = .thread c x) (hexec : exec (k o) s = .next t) : ThreadChange s t c x o.d (cmp && o.qw) := by
  obtain ⟨opt, f, rfl, hrun⟩ := hk o
  rw [hrun, runLane_thread hcur] at hexec
  cases hexec
  exact threadChange_runLaneT o opt f s c x

theorem RunsImm.threadChange {k : IForm → Instr} (hk : RunsImm k) {o : IForm} {s t : State} {c : CtxId} {x : Tid}
    (hcur : s.cur = .thread c x) (hexec : exec (k o) s = .next t) : ThreadChange s t c x o.d false := by
  obtain ⟨useA, f, hrun⟩ := hk o
  rw [hrun, runImm, hcur] at hexec
  cases hexec
  exact threadChange_finishT s c x o.d _ false

theorem threadFrame : Claims.ThreadFrame := by
  refine ⟨fun s t c x o hcur k hk => (runsLane_integer k hk).threadChange hcur, fun s t c x o hcur hexec => ?_,
    fun s t c x o hcur k hk => (runsImm_immediate k hk).threadChange hcur⟩
  obtain ⟨hsame, hreg, hpred, hrest⟩ := runsLane_cmp.threadChange hcur hexec
  exact ⟨hsame, ⟨hreg, nofun, hrest⟩, fun hq => hpred (by rw [hq, Bool.and_false])⟩

end Sys2Proof.Machine
end

section
/-!
PROOFS. Frames of a station's lane instructions (02 R28, R54, R57, R65): what reading sources and writing a group leave of
an execution, and that nothing outside it changes.
-/
namespace Sys2Proof.Machine

/-! ### What is read -/

theorem Run.readFrom_snd (r : Run) (all : List DrawKey) (i : Nat) (xs : List (Src × Option Fmt)) :
    ∃ k, (r.readFrom all i xs).2 = { r with free := k } := by
  induction xs generalizing r i with
  | nil => exact ⟨_, rfl⟩
  | cons x xs ih =>
    have hk := r.lanes_snd x.1 x.2 ((x.1.draws i).map (drawWord all r.f.lfsr))
    obtain ⟨m, hm⟩ := ih (r.lanes x.1 x.2 ((x.1.draws i).map (drawWord all r.f.lfsr))).2 (i + 1)
    exact ⟨m, hm.trans (congrArg (fun z : Run => { z with free := m }) hk)⟩

/-- Reading the sources of an instruction changes the LFSR and the count of free values alone (R33, R65). -/
theorem Run.readAll_snd (r : Run) (xs : List (Src × Option Fmt)) :
    ∃ k l, (r.readAll xs).2 = { r with f := { r.f with lfsr := l }, free := k } := by
  obtain ⟨k, hk⟩ := r.readFrom_snd (drawsFrom 0 xs) 0 xs
  exact ⟨k, _, congrArg (fun z : Run => { z with f := { z.f with lfsr := lfsrIter (drawsFrom 0 xs).length z.f.lfsr } }) hk⟩

/-- A mask is read with nothing changed but the count of free values. -/
theorem Run.mask64_snd (r : Run) (sp : Spec) : ∃ k, (r.mask64 sp).2 = { r with free := k } := by
  unfold Run.mask64 Run.pair Run.fWords
  dsimp only
  split_ifs <;> exact ⟨_, rfl⟩

/-! ### What is written -/

/-- An execution that differs from another in the groups of g words at ds, the predicates where preds says so, the LFSR and
the format tag alone, its next instruction not yet reached. -/
structure Frame.WroteOnly (f h : Frame) (g : Nat) (ds : List Spec) (preds : Bool) : Prop where
  pred : preds = false → h.q = f.q
  pay : ∀ n : Fin 16, (∀ d ∈ ds, 16 ≤ d.toNat ∨ n.val < d.toNat ∨ d.toNat + g ≤ n.val) → h.r.pay[n.val] = f.r.pay[n.val]
  k : ∀ n : Fin 12, (∀ d ∈ ds, d.toNat < 16 ∨ 28 ≤ d.toNat ∨ 16 + n.val < d.toNat ∨ d.toNat + g ≤ 16 + n.val) →
    h.k[n.val] = f.k[n.val]
  kv : ∀ n : Fin 4, (∀ d ∈ ds, d.toNat ≠ 28 + n.val) → h.kv[n.val] = f.kv[n.val]
  rest : ∃ q pay k kv fmt lfsr,
    h = { f with q := q, k := k, kv := kv, lfsr := lfsr, r := { f.r with pay := pay, hdr := { f.r.hdr with fmt := fmt } } }

namespace Frame.WroteOnly

variable {f h : Frame} {g : Nat} {ds : List Spec} {preds : Bool}

/-- Before anything is written only the draws differ. -/
theorem draws (f : Frame) (l : Word) (g : Nat) (ds : List Spec) (preds : Bool) : f.WroteOnly { f with lfsr := l } g ds preds :=
  ⟨fun _ => rfl, fun _ _ => rfl, fun _ _ => rfl, fun _ _ => rfl, _, _, _, _, _, _, rfl⟩

theorem refl (f : Frame) (g : Nat) (ds : List Spec) (preds : Bool) : f.WroteOnly f g ds preds := draws f f.lfsr g ds preds

theorem lfsr (w : f.WroteOnly h g ds preds) (l : Word) : f.WroteOnly { h with lfsr := l } g ds preds := by
  obtain ⟨hq, hpay, hk, hkv, q, pay, k, kv, fmt, l', rfl⟩ := w
  exact ⟨hq, hpay, hk, hkv, _, _, _, _, _, _, rfl⟩

/-- The poison tag is the format tag. -/
theorem poisonIf (w : f.WroteOnly h g ds preds) (b : Bool) : f.WroteOnly (h.poisonIf b) g ds preds := by
  cases b with
  | false => exact w
  | true =>
    obtain ⟨hq, hpay, hk, hkv, q, pay, k, kv, fmt, l, rfl⟩ := w
    exact ⟨hq, hpay, hk, hkv, _, _, _, _, _, _, rfl⟩

theorem setQ (w : f.WroteOnly h g ds preds) (hpreds : preds = true) (n : BitVec 3) (v : Bool) :
    f.WroteOnly (h.setQ n v) g ds preds := by
  obtain ⟨-, hpay, hk, hkv, q, pay, k, kv, fmt, l, rfl⟩ := w
  exact ⟨fun hp => absurd (hpreds.symm.trans hp) nofun, hpay, hk, hkv, _, _, _, _, _, _, rfl⟩

/-- At most g words written at a destination of ds (R54). -/
theorem putWords (w : f.WroteOnly h g ds preds) {d : Spec} (hd : d ∈ ds) {ws : List Word} (hws : ws.length ≤ g) :
    f.WroteOnly (h.putWords d ws) g ds preds := by
  obtain ⟨hq, hpay, hk, hkv, q, pay, k, kv, fmt, l, rfl⟩ := w
  obtain h | h | ⟨m, h⟩ | h :
      d.toNat < 16 ∨ (16 ≤ d.toNat ∧ d.toNat < 28) ∨ (∃ m : Fin 4, d.toNat = 28 + m.val) ∨ 32 ≤ d.toNat := by
    by_cases hkv : 28 ≤ d.toNat ∧ d.toNat < 32
    · exact .inr (.inr (.inl ⟨⟨d.toNat - 28, by omega⟩, by dsimp only; omega⟩))
    · omega
  · rw [Frame.putWords_payload _ _ h]
    refine ⟨hq, fun n hn => ?_, hk, hkv, _, _, _, _, _, _, rfl⟩
    have hout := hn d hd
    rw [← hpay n hn, vput_eq_writeFrom]
    exact getElem_writeFrom_other pay _ ws n.isLt (by omega)
  · rw [Frame.putWords_k _ _ h]
    refine ⟨hq, hpay, fun n hn => ?_, hkv, _, _, _, _, _, _, rfl⟩
    have hout := hn d hd
    rw [← hk n hn, putK_eq_writeFrom]
    exact getElem_writeFrom_other k _ ws n.isLt (by omega)
  · rw [Frame.putWords_kv _ _ m h]
    refine ⟨hq, hpay, hk, fun n hn => ?_, _, _, _, _, _, _, rfl⟩
    have hout := hn d hd
    rw [← hkv n hn]
    exact Vector.getElem_set_ne m.isLt n.isLt (by omega)
  · rw [Frame.putWords_special _ _ h]
    exact ⟨hq, hpay, hk, hkv, _, _, _, _, _, _, rfl⟩

theorem putWord (w : f.WroteOnly h g ds preds) {d : Spec} (hd : d ∈ ds) (hg : 1 ≤ g) (v : Word) :
    f.WroteOnly (h.putWords d [v]) g ds preds :=
  w.putWords hd hg

/-- A group of at most g words written with lanes at a destination of ds. -/
theorem putLanes (w : f.WroteOnly h g ds preds) {d : Spec} (hd : d ∈ ds) {n : Nat} (hn : n ≤ g) (b : Nat) (ls : List Nat) :
    f.WroteOnly (h.putLanes d b n ls) g ds preds :=
  w.putWords hd (by rwa [length_wordsOfStr])

end Frame.WroteOnly

/-! ### The instructions -/

/-- What the frame of a lane instruction of a station allows. -/
def ExecChange (s t : State) (p : Place) (f : Frame) (g : Nat) (ds : List Spec) (preds : Bool) : Prop :=
  ∃ h, t.cur = .station p h ∧ SameButExec s t ∧ ExecWroteAndWentOn f h g ds preds

/-- Going on after the writes is what the frame allows. -/
theorem Frame.WroteOnly.nextIp {f : Frame} {g : Nat} {ds : List Spec} {preds : Bool} {r : Run} (w : f.WroteOnly r.f g ds preds)
    (s : State) (p : Place) : ExecChange s (s.nextIp p r) p f g ds preds := by
  obtain ⟨hq, hpay, hk, hkv, q, pay, k, kv, fmt, l, hf⟩ := w
  refine ⟨_, rfl, rfl, ?_⟩
  rw [hf] at hq hpay hk hkv ⊢
  exact ⟨rfl, hq, hpay, hk, hkv, rfl, rfl, rfl, rfl, rfl, rfl, rfl, rfl⟩

/-- An instruction whose predicate fails only goes on. -/
theorem execChange_skipped (s : State) (p : Place) (f : Frame) (g : Nat) (ds : List Spec) (preds : Bool) :
    ExecChange s (s.nextIp p (s.run p f)) p f g ds preds :=
  Frame.WroteOnly.nextIp (r := s.run p f) (.refl f g ds preds) s p

/-- What the sources read leave of the execution. -/
theorem wroteOnly_of_readAll {s : State} {p : Place} {f : Frame} {xs : List (Src × Option Fmt)} {x : List (List Nat) × Run}
    (h : (s.run p f).readAll xs = x) (g : Nat) (ds : List Spec) (preds : Bool) : f.WroteOnly x.2.f g ds preds := by
  obtain ⟨k, l, hr⟩ := (s.run p f).readAll_snd xs
  rw [← h, hr]
  exact .draws f l g ds preds

/-- A group has a word (R67). -/
theorem gWords_pos (g : BitVec 3) : 1 ≤ gWords g := Nat.two_pow_pos _

/-- A lane instruction changes its destination group, and the predicate of a compare. -/
theorem execChange_runLaneS (o : LForm) (opt : LaneOpt) (fn : LaneIn → LaneOut) (s : State) (p : Place) (f : Frame) :
    ExecChange s (runLaneS o opt fn s p f) p f (gWords o.g) [o.d] opt.cmp := by
  unfold runLaneS
  dsimp only
  by_cases hok : f.predOk o.pe o.pi o.pn = true
  · rw [if_pos hok]
    generalize hread : (s.run p f).readAll _ = x
    generalize fn _ = out
    have hdraws (l : Word) := (wroteOnly_of_readAll hread (gWords o.g) [o.d] opt.cmp).lfsr l
    refine Frame.WroteOnly.nextIp (Frame.WroteOnly.poisonIf ?_ _) s p
    split_ifs with hcmp hword hword
    · exact ((hdraws _).putWord (List.mem_singleton_self _) (gWords_pos _) _).setQ (Bool.and_eq_true_iff.mp hcmp).1 _ _
    · exact ((hdraws _).putLanes (List.mem_singleton_self _) le_rfl _ _).setQ (Bool.and_eq_true_iff.mp hcmp).1 _ _
    · exact (hdraws _).putWord (List.mem_singleton_self _) (gWords_pos _) _
    · exact (hdraws _).putLanes (List.mem_singleton_self _) le_rfl _ _
  · rw [if_neg hok]
    exact execChange_skipped ..

/-- A station's instruction of another shape changes what its effect does, whether or not its predicate lets it. -/
theorem execChange_atStation {s t : State} {p : Place} {f : Frame} {g : Nat} {ds : List Spec} {preds : Bool} {ok : Frame → Bool}
    {fn : Place → Frame → State} (hcur : s.cur = .station p f) (hfn : ExecChange s (fn p f) p f g ds preds)
    (h : atStation s ok fn = .next t) : ExecChange s t p f g ds preds := by
  cases hok : ok f with
  | true =>
    rw [atStation_station hcur ok fn hok] at h
    cases h
    exact hfn
  | false =>
    rw [atStation_skipped hcur ok fn hok] at h
    cases h
    exact execChange_skipped ..

theorem execChange_packAt (o : LForm) (s : State) (p : Place) (f : Frame) :
    ExecChange s (packAt o s p f) p f (gWords o.g) [o.d] false := by
  unfold packAt
  dsimp only
  generalize hread : (s.run p f).readAll _ = x
  exact ((wroteOnly_of_readAll hread _ _ _).putLanes (List.mem_singleton_self _) le_rfl _ _).nextIp s p

theorem execChange_unpackAt (o : LForm) (s : State) (p : Place) (f : Frame) :
    ExecChange s (unpackAt o s p f) p f (gWords o.g) [o.d] false := by
  unfold unpackAt
  dsimp only
  generalize hread : (s.run p f).readAll _ = x
  exact ((wroteOnly_of_readAll hread _ _ _).putLanes (List.mem_singleton_self _) le_rfl _ _).nextIp s p

theorem execChange_lmaskAt (o : LForm) (s : State) (p : Place) (f : Frame) :
    ExecChange s (lmaskAt o s p f) p f 2 [o.d] false := by
  unfold lmaskAt
  dsimp only
  generalize hread : (s.run p f).readAll _ = x
  exact ((wroteOnly_of_readAll hread _ _ _).putWords (List.mem_singleton_self _) le_rfl).nextIp s p

theorem execChange_lselAt (o : LForm) (s : State) (p : Place) (f : Frame) :
    ExecChange s (lselAt o s p f) p f (gWords o.g) [o.d] false := by
  unfold lselAt
  dsimp only
  generalize hread : (s.run p f).readAll _ = x
  obtain ⟨k, hk⟩ := x.2.mask64_snd o.c
  rw [hk]
  exact Frame.WroteOnly.nextIp ((wroteOnly_of_readAll hread _ _ _).putLanes (List.mem_singleton_self _) le_rfl _ _) s p

theorem execChange_movwAt (o : LForm) (s : State) (p : Place) (f : Frame) :
    ExecChange s (movwAt o s p f) p f (gWords o.g) [o.d] false := by
  unfold movwAt
  dsimp only
  generalize hread : (s.run p f).readAll _ = x
  split
  · exact ((wroteOnly_of_readAll hread _ _ _).putLanes (List.mem_singleton_self _) le_rfl _ _).nextIp s p
  · exact ((wroteOnly_of_readAll hread _ _ _).putWord (List.mem_singleton_self _) (gWords_pos _) _).nextIp s p

theorem execChange_swapAt (o : LForm) (s : State) (p : Place) (f : Frame) :
    ExecChange s (swapAt o s p f) p f (gWords o.g) [o.d, o.a] false := by
  unfold swapAt
  dsimp only
  generalize hread : (s.run p f).readAll _ = x
  exact (((wroteOnly_of_readAll hread _ _ _).putLanes List.mem_cons_self le_rfl _ _).putLanes
    (List.mem_cons_of_mem _ List.mem_cons_self) le_rfl _ _).nextIp s p

theorem execChange_runSmx (o : LForm) (merge : Bool) (s : State) (p : Place) (f : Frame) :
    ExecChange s (runSmx o merge s p f) p f (max 2 (gWords o.g)) [o.d, o.a] false := by
  unfold runSmx
  dsimp only
  split
  · generalize hread : (s.run p f).readAll _ = x
    generalize smxFold .. = y
    exact ((((wroteOnly_of_readAll hread _ _ _).lfsr _).putWords (List.mem_cons_of_mem _ List.mem_cons_self)
      (le_max_left ..)).putLanes List.mem_cons_self (le_max_right ..) _ _).nextIp s p
  · exact execChange_skipped ..

theorem execChange_runImm {o : IForm} {useA : Bool} {fn : Nat → Nat → Nat → Nat} {s t : State} {p : Place} {f : Frame}
    (hcur : s.cur = .station p f) (h : runImm o useA fn s = .next t) : ExecChange s t p f (gWords o.g) [o.d] false := by
  unfold runImm at h
  rw [hcur] at h
  dsimp only at h
  generalize hread : (s.run p f).readAll _ = x at h
  cases useA with
  | true =>
    cases h
    exact ((wroteOnly_of_readAll hread _ _ _).putLanes (List.mem_singleton_self _) le_rfl _ _).nextIp s p
  | false =>
    cases h
    exact Frame.WroteOnly.nextIp ((Frame.WroteOnly.refl f _ _ _).putLanes (List.mem_singleton_self _) le_rfl _ _) s p

/-- The float and conversion instructions up to fqnt, but for the compare. -/
def floatInstrs : List (LForm → Instr) := [.fadd, .fsub, .fmul, .fma, .fnma, .fmin, .fmax, .fabs, .fneg, .fcvt, .frnd, .fscale,
  .frcp, .frsq, .fsqrt, .fexp2, .flog2, .ftanh, .i2f, .f2i]

/-- Those after fqnt. -/
def dotInstrs : List (LForm → Instr) := [.fdq, .fred, .fdot]

/-- The lane moves that take two groups whole. -/
def moveInstrs : List (LForm → Instr) := [.perm, .shuf, .bcast, .rot, .zip, .unzip]

/-- The lane moves by nonzero lanes. -/
def compactInstrs : List (LForm → Instr) := [.cmpr, .expd]

/-- The instructions that answer a group of lanes and are no compare, in the order of the statement. -/
def groupInstrs : List (LForm → Instr) :=
  integerInstrs ++ (floatInstrs ++ ([Instr.fqnt] ++ (dotInstrs ++ (moveInstrs ++ ([Instr.pack, Instr.unpack] ++
    (compactInstrs ++ [Instr.lsel, Instr.movw]))))))

theorem runsLane_fqnt : RunsLane .fqnt false := by
  intro o
  by_cases h : o.ty = 0
  · exact ⟨_, _, rfl, fun s => (if_pos h : execFqnt o s = _)⟩
  · exact ⟨_, _, rfl, fun s => (if_neg h : execFqnt o s = _)⟩

theorem runsLane_fcmp : RunsLane .fcmp true := fun _ => ⟨_, _, rfl, fun _ => rfl⟩

theorem runsLane_float : ∀ k ∈ floatInstrs ++ dotInstrs, RunsLane k false := by
  intro k hk o
  fin_cases hk <;> exact ⟨_, _, rfl, fun _ => rfl⟩

theorem runsLane_move : ∀ k ∈ moveInstrs ++ compactInstrs, RunsLane k false := by
  intro k hk o
  fin_cases hk <;> exact ⟨_, _, rfl, fun _ => rfl⟩

/-- In a station such an instruction changes what its frame allows. -/
theorem RunsLane.execChange {k : LForm → Instr} {cmp : Bool} (hk : RunsLane k cmp) {o : LForm} {s t : State} {p : Place}
    {f : Frame} (hcur : s.cur = .station p f) (hexec : exec (k o) s = .next t) : ExecChange s t p f (gWords o.g) [o.d] cmp := by
  obtain ⟨opt, fn, rfl, hrun⟩ := hk o
  rw [hrun, runLane_station hcur] at hexec
  cases hexec
  exact execChange_runLaneS o opt fn s p f

theorem RunsImm.execChange {k : IForm → Instr} (hk : RunsImm k) {o : IForm} {s t : State} {p : Place} {f : Frame}
    (hcur : s.cur = .station p f) (hexec : exec (k o) s = .next t) : ExecChange s t p f (gWords o.g) [o.d] false := by
  obtain ⟨useA, fn, hrun⟩ := hk o
  exact execChange_runImm hcur ((hrun s).symm.trans hexec)

/-- Each of the instructions that answer a group is the run of a lane computation, or one of the four moves of another shape. -/
theorem execChange_group {k : LForm → Instr} (hk : k ∈ groupInstrs) {o : LForm} {s t : State} {p : Place} {f : Frame}
    (hcur : s.cur = .station p f) (hexec : exec (k o) s = .next t) : ExecChange s t p f (gWords o.g) [o.d] false := by
  simp only [groupInstrs, List.mem_append, List.mem_cons, List.not_mem_nil, or_false] at hk
  obtain hk | hk | rfl | hk | hk | (rfl | rfl) | hk | (rfl | rfl) := hk
  · exact (runsLane_integer k hk).execChange hcur hexec
  · exact (runsLane_float k (List.mem_append_left _ hk)).execChange hcur hexec
  · exact runsLane_fqnt.execChange hcur hexec
  · exact (runsLane_float k (List.mem_append_right _ hk)).execChange hcur hexec
  · exact (runsLane_move k (List.mem_append_left _ hk)).execChange hcur hexec
  · exact execChange_atStation hcur (execChange_packAt o s p f) hexec
  · exact execChange_atStation hcur (execChange_unpackAt o s p f) hexec
  · exact (runsLane_move k (List.mem_append_right _ hk)).execChange hcur hexec
  · exact execChange_atStation hcur (execChange_lselAt o s p f) hexec
  · exact execChange_atStation hcur (execChange_movwAt o s p f) hexec

/-- The two online softmax instructions at a station are runs of runSmx (R139). -/
theorem execChange_smx {k : LForm → Instr} (hk : k ∈ [Instr.smxUpd, .smxMerge]) {o : LForm} {s t : State} {p : Place} {f : Frame}
    (hcur : s.cur = .station p f) (hexec : exec (k o) s = .next t) :
    ExecChange s t p f (max 2 (gWords o.g)) [o.d, o.a] false := by
  obtain ⟨merge, hrun⟩ : ∃ merge, exec (k o) s = .next (runSmx o merge s p f) := by
    obtain rfl | rfl := List.mem_pair.mp hk
    · exact ⟨false, show execSmxUpd o s = _ by rw [execSmxUpd, hcur]⟩
    · exact ⟨true, show execSmxMerge o s = _ by rw [execSmxMerge, hcur]⟩
  rw [hrun] at hexec
  cases hexec
  exact execChange_runSmx o merge s p f

theorem stationFrame : Claims.StationFrame := by
  intro s t p f o i hcur frame g
  refine ⟨fun k hk => execChange_group hk hcur, fun k hk => ?_, ?_, ?_, fun k hk => execChange_smx hk hcur,
    fun k hk => (runsImm_immediate k hk).execChange hcur⟩
  · obtain rfl | rfl := List.mem_pair.mp hk
    · exact runsLane_cmp.execChange hcur
    · exact runsLane_fcmp.execChange hcur
  · exact execChange_atStation hcur (execChange_swapAt o s p f)
  · exact execChange_atStation hcur (execChange_lmaskAt o s p f)

/-- Settles O58: a thread's instruction is one write and going on, a station's is the sources read and groups written. -/
theorem frames : Obligations.Frames := ⟨threadFrame, stationFrame⟩

end Sys2Proof.Machine
end

section
/-!
PROOFS. The lane moves (05 R141 to R144): each is the run of a lane function that chooses among the sources' lanes, or an
effect of its own at the station; and the laws by which two of them undo two others.
-/
namespace Sys2Proof.Machine

/-! ### What a lane move leaves -/

/-- What a lane computation takes from the lanes of its sources. -/
def LaneOpt.input (opt : LaneOpt) (w n : Nat) (ls : List (List Nat)) (r : Run) : LaneIn :=
  let i := if opt.useA then 1 else 0
  let j := if opt.useB then i + 1 else i
  ⟨w, n, if opt.useA then ls.getD 0 [] else [], if opt.useB then ls.getD i [] else [], if opt.useC then ls.getD j [] else [],
    if opt.useD then ls.getD (if opt.useC then j + 1 else j) [] else [], r.f.lfsr, r.free⟩

/-- A move whose lane i is h of the lanes of its sources and i. -/
theorem runLane_byIndex {s : State} {p : Place} {f : Frame} {o : LForm} (hcur : s.cur = .station p f)
    (hok : f.predOk o.pe o.pi o.pn = true) {opt : LaneOpt} (hbits : opt.bits = none) (hword : opt.word = false)
    (hcmp : opt.cmp = false) {k : LaneIn → Nat → Nat} {h : List (List Nat) → Nat → Nat}
    (hk : ∀ ls r i, k (opt.input (wBits o.w) (32 * gWords o.g / wBits o.w) ls r) i = h ls i) :
    runLane o opt (fun x => x.byIndex (k x)) s =
      .next (s.lanesDone p f (laneSrcs o opt (wBits o.w) (32 * gWords o.g / wBits o.w) (gWords o.g)) o.d (wBits o.w) (gWords o.g)
        fun ls r => ⟨(List.range (32 * gWords o.g / wBits o.w)).map (h ls), r.f.lfsr, r.free, false, false⟩) := by
  have hlanes : (fun ls (r : Run) => (⟨(List.range (32 * gWords o.g / wBits o.w)).map (h ls), r.f.lfsr, r.free, false, false⟩ : LaneOut)) =
      fun ls r => (opt.input (wBits o.w) (32 * gWords o.g / wBits o.w) ls r).byIndex
        (k (opt.input (wBits o.w) (32 * gWords o.g / wBits o.w) ls r)) :=
    funext fun ls => funext fun r =>
      congrArg (fun m : Nat → Nat => LaneOut.mk ((List.range _).map m) _ _ _ _) (funext fun i => (hk ls r i).symm)
  rw [hlanes, runLane_station hcur, runLaneS, if_pos hok]
  simp only [hbits, hword, hcmp, Option.getD_none, Bool.false_and, Bool.false_eq_true, if_false]
  rfl

theorem laneMoves_byIndex : Claims.LaneMoves := by
  intro s p f o hcur hok w g n src at' two ones
  have hbit (hm : o.mod ≠ 1) : (o.mod == 1) = false := by simpa using hm
  have hset (hm : o.mod = 1) : (o.mod == 1) = true := by simpa using hm
  refine ⟨fun hm => ?_, fun hm => ?_, ?_, ?_, fun hm => ?_, fun hm => ?_, fun hm => ?_, fun hm => ?_, fun hm => ?_, fun hm => ?_,
    ?_, fun hm => ?_, fun hm => ?_⟩
  · change execPerm o s = _
    rw [execPerm, hbit hm]
    exact runLane_byIndex hcur hok rfl rfl rfl fun ls r i => rfl
  · change execPerm o s = _
    rw [execPerm, hset hm]
    exact runLane_byIndex hcur hok rfl rfl rfl fun ls r i => by
      rw [permLane, Bool.true_and]
      simp only [decide_eq_true_eq]
      rfl
  · change execShuf o s = _
    exact runLane_byIndex hcur hok rfl rfl rfl fun ls r i => rfl
  · change execBcast o s = _
    exact runLane_byIndex hcur hok rfl rfl rfl fun ls r i => rfl
  · change execRot o s = _
    rw [execRot, hbit hm]
    exact runLane_byIndex hcur hok rfl rfl rfl fun ls r i => rfl
  · change execRot o s = _
    rw [execRot, hset hm]
    exact runLane_byIndex hcur hok rfl rfl rfl fun ls r i => rfl
  · change execZip o s = _
    rw [execZip, hbit hm]
    exact runLane_byIndex hcur hok rfl rfl rfl fun ls r i => by
      rw [zipLane]
      simp only [Bool.false_eq_true, if_false, Nat.zero_add]
      rfl
  · change execZip o s = _
    rw [execZip, hset hm]
    exact runLane_byIndex hcur hok rfl rfl rfl fun ls r i => rfl
  · change execUnzip o s = _
    rw [execUnzip, hbit hm]
    exact runLane_byIndex hcur hok rfl rfl rfl fun ls r i => rfl
  · change execUnzip o s = _
    rw [execUnzip, hset hm]
    exact runLane_byIndex hcur hok rfl rfl rfl fun ls r i => rfl
  · change execCmpr o s = _
    exact runLane_byIndex hcur hok rfl rfl rfl fun ls r i => rfl
  · change execExpd o s = _
    rw [execExpd, hbit hm]
    exact runLane_byIndex hcur hok rfl rfl rfl fun ls r i => rfl
  · change execExpd o s = _
    rw [execExpd, hset hm]
    exact runLane_byIndex hcur hok rfl rfl rfl fun ls r i => rfl

/-- The first list of an instruction's sources. -/
theorem headD_eq_getD_zero (ls : List (List Nat)) : ls.headD [] = ls.getD 0 [] := by cases ls <;> rfl

theorem laneMoves_atStation : Claims.LaneMoves2 := by
  intro s p f o hcur hok w g n src word out
  have hat (fn : Place → Frame → State) : atStation s (lPred o) fn = .next (fn p f) := atStation_station hcur _ _ hok
  refine ⟨fun hm => ?_, fun hm => ?_, fun hm => ?_, ?_, ?_, fun hc => ?_, fun h0 h1 => ?_, fun hm => ?_, fun hm => ?_, ?_⟩
  · change execPack o s = _
    rw [execPack, hat, packAt, hm]
    rfl
  · change execPack o s = _
    rw [execPack, hat, packAt, hm]
    rfl
  · change execPack o s = _
    rw [execPack, hat, packAt, hm]
    rfl
  · change execUnpack o s = _
    rw [execUnpack, hat, unpackAt]
    simp only [headD_eq_getD_zero]
    rfl
  · change execLmask o s = _
    rw [execLmask, hat, lmaskAt]
    simp only [headD_eq_getD_zero]
    rfl
  · change execLsel o s = _
    rw [execLsel, hat, lselAt]
    obtain hc | hc := hc
    · rw [if_pos hc, hc]
      rfl
    · rw [if_neg (by rw [hc]; decide), hc]
      rfl
  · change execLsel o s = _
    rw [execLsel, hat, lselAt]
    simp only [Run.mask64, if_neg h0, if_neg h1]
    rfl
  · change execMovw o s = _
    rw [execMovw, hat, movwAt]
    simp only [if_neg hm]
    rfl
  · change execMovw o s = _
    rw [execMovw, hat, movwAt]
    simp only [if_pos hm]
    rfl
  · change execSwap o s = _
    rw [execSwap, hat]
    rfl

/-! ### Laws -/

/-- In a rising list, the members below one of its members are those before it. -/
theorem getElem?_length_filter_lt {l : List Nat} (hl : l.Pairwise (· < ·)) {i : Nat} (hi : i ∈ l) :
    l[(l.filter fun j => decide (j < i)).length]? = some i := by
  induction l with
  | nil => exact absurd hi List.not_mem_nil
  | cons a l ih =>
    obtain ⟨ha, hl⟩ := List.pairwise_cons.mp hl
    obtain rfl | hi := List.mem_cons.mp hi
    · have hnone : l.filter (fun j => decide (j < i)) = [] :=
        List.filter_eq_nil_iff.mpr fun j hj => by simpa using (ha j hj).le
      simp [hnone]
    · rw [List.filter_cons_of_pos (by simpa using ha i hi), List.length_cons, List.getElem?_cons_succ, ih hl hi]

theorem pairwise_lt_nonzeroLanes (ls : List Nat) : (nonzeroLanes ls).Pairwise (· < ·) := List.pairwise_lt_range.filter _

theorem mem_nonzeroLanes {ls : List Nat} {i : Nat} : i ∈ nonzeroLanes ls ↔ i < ls.length ∧ laneAt ls i ≠ 0 := by
  simp [nonzeroLanes]

theorem length_nonzeroLanes_le (ls : List Nat) : (nonzeroLanes ls).length ≤ ls.length :=
  (List.length_filter_le _ _).trans_eq List.length_range

/-- A lane of a list made lane by lane. -/
theorem laneAt_map_range {n i : Nat} (h : i < n) (k : Nat → Nat) : laneAt ((List.range n).map k) i = k i := by
  simp [laneAt, List.getD_eq_getElem?_getD, h]

/-- The lanes of a list, one by one, are the list. -/
theorem map_laneAt_range (ls : List Nat) : (List.range ls.length).map (laneAt ls) = ls := by
  refine List.ext_getElem (by simp) fun i hi hi' => ?_
  simp [laneAt, List.getD_eq_getElem?_getD, hi']

/-- zip puts a's lanes at the even places, and b's at the odd ones, of its two halves together (R141). -/
theorem unzipLane_zipLane {x y : LaneIn} (heven : x.n % 2 = 0) (hn : y.n = x.n) (ha : y.a = (List.range x.n).map (zipLane false x))
    (hb : y.b = (List.range x.n).map (zipLane true x)) {i : Nat} (hi : i < x.n) :
    unzipLane false y i = laneAt x.a i ∧ unzipLane true y i = laneAt x.b i := by
  unfold unzipLane
  rw [hn, ha, hb]
  by_cases hlow : i < x.n / 2
  · simp (disch := omega) only [hlow, if_true, if_false, Bool.false_eq_true, laneAt_map_range]
    simp [zipLane, Nat.mul_add_div]
  · simp (disch := omega) only [hlow, if_true, if_false, Bool.false_eq_true, laneAt_map_range]
    have hhalf : x.n / 2 + (i - x.n / 2) = i := by omega
    simp [zipLane, Nat.mul_add_div, hhalf]

theorem movesUndo : Claims.MovesUndo := by
  refine ⟨fun x y heven ha hb hn hya hyb => ?_, fun x y m ha hb hn hyb hya i hi hnz => ?_⟩
  · have hlane {i : Nat} (hi : i ∈ List.range x.n) := unzipLane_zipLane heven hn hya hyb (List.mem_range.mp hi)
    constructor
    · rw [List.map_congr_left fun i hi => (hlane hi).1, ← ha, map_laneAt_range]
    · rw [List.map_congr_left fun i hi => (hlane hi).2, ← hb, map_laneAt_range]
  · have hmem : i ∈ nonzeroLanes x.b := mem_nonzeroLanes.mpr ⟨hb ▸ hi, hnz⟩
    have hat := getElem?_length_filter_lt (pairwise_lt_nonzeroLanes x.b) hmem
    have hlt := (List.getElem?_eq_some_iff.mp hat).1.trans_le (hb ▸ length_nonzeroLanes_le x.b)
    rw [expdLane, hyb, if_pos (by exact hnz), hya, laneAt_map_range hlt, cmprLane, hat]
    rfl

/-- Settles O19: the moves by index as one run of lanes, the others by their effect at the station, the laws lane by lane. -/
theorem laneMoves : Obligations.LaneMoves := ⟨laneMoves_byIndex, laneMoves_atStation, movesUndo⟩

end Sys2Proof.Machine
end

section
/-!
PROOFS. Places (07 R198): what a change of a lay or of a station leaves of the station at a place, and that what the fabric
counts (R204, R208, R223) leaves what a station holds.
-/
namespace Sys2Proof.Machine

/-! ### Changing a station -/

/-- A change of stations that leaves each at its place. -/
def KeepsPlace (g : Station → Station) : Prop := ∀ y, (g y).pid = y.pid ∧ (g y).sid = y.sid

/-- Where every station is changed and stays at its place, the station at a place is the one there, changed. -/
theorem Lay.station?_map {g : Station → Station} (hg : KeepsPlace g) (x : Lay) (pid : Pid) (sid : Sid) :
    ({ x with stations := x.stations.map g } : Lay).station? pid sid = (x.station? pid sid).map g := by
  rw [Lay.station?, List.find?_map, Lay.station?]
  congr 2
  funext y
  rw [Function.comp_apply, (hg y).1, (hg y).2]

/-- A station changed is found where it was. -/
theorem Lay.station?_modStation_same {g : Station → Station} (hg : KeepsPlace g) (x : Lay) (pid : Pid) (sid : Sid) :
    (x.modStation pid sid g).station? pid sid = (x.station? pid sid).map g := by
  have hkeep : KeepsPlace fun y => if y.pid == pid && y.sid == sid then g y else y := fun y => by
    dsimp only
    split
    · exact hg y
    · exact ⟨rfl, rfl⟩
  rw [Lay.modStation, x.station?_map hkeep]
  cases h : x.station? pid sid with
  | none => rfl
  | some y =>
    have hy := List.find?_some (p := fun y : Station => y.pid == pid && y.sid == sid) h
    exact congrArg some (if_pos hy)

theorem State.lay?_of_ctxs {s u : State} (h : u.ctxs = s.ctxs) (c : CtxId) (l : LaySlot) : u.lay? c l = s.lay? c l := by
  rw [State.lay?, State.ctx, h, State.lay?, State.ctx]

@[simp] theorem State.station?_cur (s : State) (a : Actor) (p : Place) : ({ s with cur := a } : State).station? p = s.station? p := rfl
@[simp] theorem State.station?_nextId (s : State) (n : Nat) (p : Place) : ({ s with nextId := n } : State).station? p = s.station? p := rfl
@[simp] theorem State.station?_free (s : State) (n : Nat) (p : Place) : ({ s with free := n } : State).station? p = s.station? p := rfl

/-- The station at a place is that of its lay. -/
theorem State.station?_eq {s : State} {p : Place} {x : Lay} (h : s.lay? p.ctx p.slot = some x) :
    s.station? p = x.station? p.pid p.sid := by rw [State.station?, h, Option.bind_some]

/-- A lay changed otherwise keeps its stations. -/
theorem State.station?_modLay {h : Lay → Lay} (hh : ∀ x, (h x).stations = x.stations) (s : State) (p : Place) :
    (s.modLay p.ctx p.slot h).station? p = s.station? p := by
  rw [State.station?, State.lay?_modLay_same, State.station?]
  cases s.lay? p.ctx p.slot with
  | none => rfl
  | some x =>
    simp only [Option.map_some, Option.bind_some, Lay.station?, hh]

theorem State.lay?_modStation_same (s : State) (p : Place) (g : Station → Station) :
    (s.modStation p g).lay? p.ctx p.slot = (s.lay? p.ctx p.slot).map fun x => x.modStation p.pid p.sid g :=
  State.lay?_modLay_same ..

theorem State.station?_modStation_same {g : Station → Station} (hg : KeepsPlace g) (s : State) (p : Place) :
    (s.modStation p g).station? p = (s.station? p).map g := by
  rw [State.station?, State.lay?_modStation_same, State.station?]
  cases s.lay? p.ctx p.slot with
  | none => rfl
  | some x => exact x.station?_modStation_same hg p.pid p.sid

/-! ### A lay and its station followed through changes -/

/-- At a place stand the lay x and its station y. -/
structure State.At (s : State) (p : Place) (x : Lay) (y : Station) : Prop where
  lay : s.lay? p.ctx p.slot = some x
  here : x.station? p.pid p.sid = some y

theorem State.At.station {s : State} {p : Place} {x : Lay} {y : Station} (h : s.At p x y) : s.station? p = some y :=
  (State.station?_eq h.lay).trans h.here

theorem State.At.of_station {s : State} {p : Place} {x : Lay} {y : Station} (hx : s.lay? p.ctx p.slot = some x)
    (hy : s.station? p = some y) : s.At p x y := ⟨hx, (State.station?_eq hx).symm.trans hy⟩

theorem State.At.of_ctxs {s u : State} {p : Place} {x : Lay} {y : Station} (h : s.At p x y) (hu : u.ctxs = s.ctxs) : u.At p x y :=
  ⟨(State.lay?_of_ctxs hu _ _).trans h.lay, h.here⟩

theorem State.At.modStation {s : State} {p : Place} {x : Lay} {y : Station} (h : s.At p x y) {g : Station → Station}
    (hg : KeepsPlace g) : (s.modStation p g).At p (x.modStation p.pid p.sid g) (g y) :=
  ⟨by rw [State.lay?_modStation_same, h.lay]; rfl, by rw [x.station?_modStation_same hg, h.here]; rfl⟩

/-- A change of the lay that changes every station in its place. -/
theorem State.At.modLay {s : State} {p : Place} {x : Lay} {y : Station} (h : s.At p x y) {m : Lay → Lay} {g : Station → Station}
    (hg : KeepsPlace g) (hm : (m x).stations = x.stations.map g) : (s.modLay p.ctx p.slot m).At p (m x) (g y) := by
  refine ⟨by rw [State.lay?_modLay_same, h.lay]; rfl, ?_⟩
  have hmap := x.station?_map hg p.pid p.sid
  rw [h.here] at hmap
  rw [Lay.station?, hm]
  exact hmap

/-- A change of the lay that keeps its stations. -/
theorem State.At.modLay_keep {s : State} {p : Place} {x : Lay} {y : Station} (h : s.At p x y) {m : Lay → Lay}
    (hm : (m x).stations = x.stations) : (s.modLay p.ctx p.slot m).At p (m x) y :=
  h.modLay (g := id) (fun _ => ⟨rfl, rfl⟩) (hm.trans (List.map_id _).symm)

end Sys2Proof.Machine
end

section
/-!
PROOFS. The terminators and what completion does (05 R145 to R147, R158, R159): a terminator is the completion of its
execution, which sends the buffered stores in order.
-/
namespace Sys2Proof.Machine

/-! ### Sending the buffered stores (R159) -/

/-- The state with new requests behind those there were. -/
def State.issue (s : State) (qs : List Req) : State := { s with reqs := s.reqs ++ qs, nextId := s.nextId + qs.length }

theorem State.issue_nil (s : State) : s.issue [] = s := by
  rw [State.issue, List.append_nil]
  rfl

theorem State.issue_cons (s : State) (q : Req) (qs : List Req) : (s.issue [q]).issue qs = s.issue (q :: qs) := by
  simp only [State.issue, List.append_assoc, List.length_cons, List.length_nil, List.singleton_append]
  congr 1
  omega

theorem State.station?_issue (s : State) (qs : List Req) (p : Place) : (s.issue qs).station? p = s.station? p := rfl

/-- The request that a buffered store becomes. -/
def storeReq (p : Place) (f : Frame) (s : State) (b : BufStore) : Req :=
  let host := b.units.any fun u => u.node == .host
  { id := s.nextId, place := p, owner := if b.posted then .nobody else .exec f.id, exec := f.id, op := .wr, vas := b.vas,
    wr := true, atomic := false, portal := b.portal, units := b.units, got := [], perm := [], fwd := [], stage := .sent,
    after := s.mustFollow f.r.past true b.rel (b.rel && b.sys || !b.posted && host) b.units ++ f.perf.map Prod.snd,
    posted := b.posted, relaxed := false, poison := false, unflushed := host, out := [], marked := false, born := s.cyc }

/-- An execution one of whose buffered stores has become request number id. -/
def Frame.sentStore (f : Frame) (id : Nat) (b : BufStore) : Frame :=
  { f with r := if b.posted then f.r.posts id else f.r, perf := f.perf ++ [(b.ix, id)],
           outst := if b.posted then f.outst else f.outst ++ [id] }

theorem sendStores_cons (p : Place) (b : BufStore) (bs : List BufStore) (f : Frame) (s : State) :
    State.sendStores p (b :: bs) f s =
      State.sendStores p bs (f.sentStore s.nextId b) (s.issue [storeReq p f s b]) := rfl

/-- Requests that carry buffered stores in their order: each with its store's units and addresses, later than those before
it, and after every access in perf. -/
structure CarryStores (p : Place) (perf : List (Nat × Nat)) (id : Nat) (bs : List BufStore) (qs : List Req) : Prop where
  units : qs.map Req.units = bs.map BufStore.units
  vas : qs.map Req.vas = bs.map BufStore.vas
  sent : ∀ q ∈ qs, q.op = .wr ∧ q.stage = .sent ∧ q.place = p
  ids : qs.map Req.id = List.range' id qs.length
  afterPerf : ∀ q ∈ qs, ∀ a ∈ perf, a.2 ∈ q.after
  inOrder : qs.Pairwise fun a b => a.id ∈ b.after

/-- What sending the stores of an execution changes of it: its past, its numbered accesses and the accesses still to be acknowledged. -/
structure SentBy (f h : Frame) (qs : List Req) (bs : List BufStore) : Prop where
  perf : h.perf.map Prod.snd = f.perf.map Prod.snd ++ qs.map Req.id
  outst : (∀ b ∈ bs, b.posted = true) → h.outst = f.outst
  rest : ∃ past perf outst, h = { f with r := { f.r with past := past }, perf := perf, outst := outst }

/-- The buffered stores go out as requests behind those there were, and nothing else of the state changes. -/
theorem sendStores_spec (p : Place) (bs : List BufStore) (f : Frame) (s : State) :
    ∃ h qs, State.sendStores p bs f s = (h, s.issue qs) ∧
      CarryStores p f.perf s.nextId bs qs ∧ SentBy f h qs bs := by
  induction bs generalizing f s with
  | nil =>
    refine ⟨f, [], ?_, ⟨rfl, rfl, List.forall_mem_nil _, rfl, List.forall_mem_nil _, .nil⟩,
      ⟨(List.append_nil _).symm, fun _ => rfl, f.r.past, f.perf, f.outst, rfl⟩⟩
    rw [State.sendStores, s.issue_nil]
  | cons b bs ih =>
    obtain ⟨h, qs, hsend, hc, hs⟩ :=
      ih (f.sentStore s.nextId b) (s.issue [storeReq p f s b])
    refine ⟨h, storeReq p f s b :: qs, ?_, ⟨?_, ?_, ?_, ?_, ?_, ?_⟩, ?_⟩
    · rw [sendStores_cons, hsend, s.issue_cons]
    · exact congrArg (b.units :: ·) hc.units
    · exact congrArg (b.vas :: ·) hc.vas
    · exact List.forall_mem_cons.mpr ⟨⟨rfl, rfl, rfl⟩, hc.sent⟩
    · exact congrArg (s.nextId :: ·) hc.ids
    · refine List.forall_mem_cons.mpr ⟨fun a ha => List.mem_append_right _ (List.mem_map_of_mem ha), fun q hq a ha => ?_⟩
      exact hc.afterPerf q hq a (List.mem_append_left _ ha)
    · exact List.pairwise_cons.mpr ⟨fun q hq => hc.afterPerf q hq (b.ix, s.nextId) (List.mem_append_right _ (List.mem_singleton_self _)),
        hc.inOrder⟩
    · obtain ⟨past, perf, outst, hh⟩ := hs.rest
      refine ⟨?_, fun hp => ?_, past, perf, outst, ?_⟩
      · rw [hs.perf, Frame.sentStore, List.map_append, List.append_assoc]
        rfl
      · rw [hs.outst fun c hc => hp c (List.mem_cons_of_mem b hc)]
        exact if_pos (hp b List.mem_cons_self)
      · rw [hh, Frame.sentStore]
        cases b.posted <;> rfl

/-! ### Completion (R147) -/

/-- An execution whose terminator has run (R147). -/
def Frame.completedAs (f : Frame) (e : Exit) (id : Nat) : Frame :=
  { f with stores := [], st := if f.outst.isEmpty then .leaving else .acking, exit := e, doneAt := id }

/-- What a station takes over from an execution that completes (R53, R171). -/
def Station.takeOver (y : Station) (f : Frame) : Station :=
  { y with k := f.k, kv := f.kv, toks := settleToks f f.puts y.toks,
           body := match y.body, f.mx with | .matrix _, some m => .matrix m | b, _ => b }

theorem keepsPlace_takeOver (f : Frame) : KeepsPlace fun y => y.takeOver f := fun _ => ⟨rfl, rfl⟩

/-- A page whose reel takes the skip of a record that waits for some requests (R302). -/
def Page.addSkip (k : Pid × Fin 4 × Word) (fenced : List Nat) (pg : Page) : Page :=
  { pg with reel := { pg.reel with skips := pg.reel.skips ++ [(k.2.1, k.2.2, fenced)] } }

/-- The ties and skips of a record that completes reach its lay (R219, R302). -/
def Lay.deliver (x : Lay) (pid : Pid) (f : Frame) : Lay :=
  let fenced := f.outst ++ (f.r.past.filter fun q => q.relFence || q.scFence).map Past.req
  f.skips.foldl (fun z k => { z with pages := z.pages.modify k.1.val (Page.addSkip k fenced) })
    ((f.ties.foldl (fun z n => z.arrive pid n f.pastReqs) x).stir)

theorem Lay.stations_deliver (x : Lay) (pid : Pid) (f : Frame) : (x.deliver pid f).stations = x.stations := by
  have hties (ts : List (Fin 16)) (y : Lay) : (ts.foldl (fun z n => z.arrive pid n f.pastReqs) y).stations = y.stations := by
    induction ts generalizing y with
    | nil => rfl
    | cons t ts ih => exact ih _
  have hskips (ks : List (Pid × Fin 4 × Word)) (rs : List Nat) (y : Lay) :
      (ks.foldl (fun z k => { z with pages := z.pages.modify k.1.val (Page.addSkip k rs) }) y).stations = y.stations := by
    induction ks generalizing y with
    | nil => rfl
    | cons k ks ih => exact ih _
  exact (hskips _ _ _).trans (hties _ _)

/-- Whether nothing delays the completion of an execution: no token holds a buffered store, and where an access is still to
be acknowledged a park entry is free (R158, R171). -/
def Station.mayComplete (st : Station) (f : Frame) : Prop :=
  (∀ b ∈ f.stores, st.tokBlocks f.id b.waits (unitGranules b.units) = false) ∧
  (st.parkFree = true ∨ f.outst = [] ∧ ∀ b ∈ f.stores, b.posted = true)

section Completion

variable {s : State} {p : Place} {st : Station} {f : Frame} {h : Frame} {qs : List Req}
  (hst : s.station? p = some st) (hgo : st.mayComplete f) (hsend : State.sendStores p f.stores f s = (h, s.issue qs))
include hst hgo hsend

/-- A completion that nothing delays: the stores have gone out, the station and the lay have what the execution leaves. -/
theorem completeExec_eq (e : Exit) :
    let f2 := h.completedAs e (s.issue qs).nextId
    s.completeExec p f e = { (({ s.issue qs with nextId := (s.issue qs).nextId + 1 } : State).modStation p fun y => y.takeOver f2).modLay
      p.ctx p.slot (fun x => x.deliver p.pid f2) with cur := .station p f2 } := by
  obtain ⟨htok, hpark⟩ := hgo
  have hgo : ((f.stores.any fun b => st.tokBlocks f.id b.waits (unitGranules b.units)) ||
      ((!f.outst.isEmpty || f.stores.any fun b => !b.posted) && !st.parkFree)) = false := by
    rw [Bool.or_eq_false_iff]
    refine ⟨by simpa using htok, ?_⟩
    obtain hp | ⟨ho, hp⟩ := hpark
    · simp [hp]
    · simpa [ho] using fun b hb hb' => absurd (hp b hb) (by simp [hb'])
  unfold State.completeExec
  simp only [hst, hgo, hsend, Bool.false_eq_true, if_false]
  rfl

/-- What completion leaves: the execution to leave, the stores' requests, memory as it was, the station's registers. -/
theorem completeExec_spec (e : Exit) :
    let u := s.completeExec p f e
    u.cur = .station p (h.completedAs e (s.issue qs).nextId) ∧ u.reqs = s.reqs ++ qs ∧ u.hbm = s.hbm ∧
      ∃ st', u.station? p = some st' ∧ st'.k = h.k ∧ st'.kv = h.kv := by
  intro u
  have hu : u = _ := completeExec_eq hst hgo hsend e
  rw [hu]
  refine ⟨rfl, ?_, ?_, st.takeOver (h.completedAs e (s.issue qs).nextId), ?_, rfl, rfl⟩
  · simp [State.issue]
  · simp [State.issue]
  · generalize h.completedAs e (s.issue qs).nextId = f2
    rw [State.station?_cur, State.station?_modLay fun x => x.stations_deliver p.pid f2,
      State.station?_modStation_same (keepsPlace_takeOver f2), State.station?_nextId, State.station?_issue, hst, Option.map_some]

end Completion

/-! ### The terminators -/

/-- In a station a terminator is its effect: it has no predicate (R145). -/
theorem runTerm_station {s : State} {p : Place} {f : Frame} (hcur : s.cur = .station p f) (fn : Place → Frame → State) :
    runTerm s fn = .next (fn p f) := atStation_station hcur _ fn rfl

/-- Reading a word changes the LFSR and the count of free values alone. -/
theorem Run.word_snd (r : Run) (sp : Spec) : ∃ k l, (r.word sp).2 = { r with f := { r.f with lfsr := l }, free := k } :=
  r.readAll_snd [(⟨sp, 32, 1, 1, false⟩, none)]

theorem terminators_complete : Claims.Terminators := by
  intro s p st f o hcur hst hstores hpark done out leaves
  have hgo : st.mayComplete f := by
    rw [Station.mayComplete, hstores]
    exact ⟨List.forall_mem_nil _, hpark.symm.imp_right fun h => ⟨h, List.forall_mem_nil _⟩⟩
  have hsend : State.sendStores p f.stores f s = (f, s.issue []) := by rw [hstores, s.issue_nil]; rfl
  have hdone : (if f.outst.isEmpty then FrameSt.leaving else .acking) = done := by
    simp only [List.isEmpty_iff, done]
  have hframe (e : Exit) (n : Nat) : f.completedAs e n = { f with st := done, exit := e, doneAt := n } := by
    rw [Frame.completedAs, hdone, ← hstores]
  have hleaves {i : Instr} {e : Exit} (hi : exec i s = .next (s.completeExec p f e)) : leaves i e := by
    obtain ⟨hc, hr, hm, st', hst', hk, hkv⟩ := completeExec_spec hst hgo hsend e
    rw [hframe] at hc
    rw [List.append_nil] at hr
    exact ⟨_, st', hi, hc, hst', hk, hkv, hm, hr⟩
  refine ⟨hleaves ?_, hleaves ?_, hleaves ?_, hleaves ?_, fun hia => hleaves ?_, fun hia => ?_⟩
  · exact (runTerm_station hcur _ : execEmit o s = _)
  · exact (runTerm_station hcur _ : execBight o s = _)
  · exact (runTerm_station hcur _ : execFork o s = _)
  · exact (runTerm_station hcur _ : execDrop o s = _)
  · change execSteer o s = _
    have hq : f.getQ (BitVec.ofNat 3 (o.imm.toNat % 4)) = f.q.getLsbD (o.imm.toNat % 4) := by
      rw [Frame.getQ, BitVec.toNat_ofNat, Nat.mod_eq_of_lt (by omega)]
    rw [execSteer, runTerm_station hcur, if_pos hia, hq]
    rfl
  · change ∃ u h, execSteer o s = .next u ∧ _
    rw [execSteer, runTerm_station hcur, if_neg (by simp [hia])]
    obtain ⟨k, l, hr⟩ := (s.run p f).word_snd o.a
    have hsend' : State.sendStores p f.stores { f with lfsr := l } { s with free := k } =
        ({ f with lfsr := l }, ({ s with free := k } : State).issue []) := by rw [hstores, State.issue_nil]; rfl
    let e : Exit := .port (portOf (if ((s.run p f).word o.a).1 ≠ 0 then o.pt else o.pf))
    obtain ⟨hc, -⟩ := completeExec_spec (s := { s with free := k }) (f := { f with lfsr := l }) hst hgo hsend' e
    refine ⟨_, Frame.completedAs { f with lfsr := l } e s.nextId, rfl, ?_, hdone, ?_⟩
    · dsimp only [finishExec]
      rw [hr]
      exact hc
    · exact congrArg (fun x => Exit.port (portOf x)) (ite_not ..)

theorem completionSendsStores : Claims.CompletionSendsStores := by
  intro s p st f o hcur hst hpark htok
  obtain ⟨h, qs, hsend, hc, hs⟩ := sendStores_spec p f.stores f s
  obtain ⟨hcur', hreqs, -, -⟩ := completeExec_spec hst ⟨htok, hpark⟩ hsend (.port (portOf o.pt))
  refine ⟨_, qs, _, (runTerm_station hcur _ : execEmit o s = _), hreqs, hcur', rfl, hc.units, hc.vas, hc.sent, ?_, ?_⟩
  · rw [hc.ids]
    exact List.pairwise_lt_range'
  · intro i j a b hij ha hb
    obtain ⟨hi, rfl⟩ := List.getElem?_eq_some_iff.mp ha
    obtain ⟨hj, rfl⟩ := List.getElem?_eq_some_iff.mp hb
    exact List.pairwise_iff_getElem.mp hc.inOrder i j hi hj hij

/-- Settles O23: each terminator is a completion, and a completion sends the stores one by one. -/
theorem terminators : Obligations.Terminators := ⟨terminators_complete, completionSendsStores⟩

end Sys2Proof.Machine
end

section
/-!
PROOFS. The fabric's counts (07 R200 to R209, 18 R478): what changing a link, returning slots, counting in loops and tidying a
bank's window leave of a lay.
-/
namespace Sys2Proof.Machine

/-! ### Links -/

theorem Lay.modLink_eq_modify (x : Lay) (k : Nat) (f : Link → Link) : x.modLink k f = { x with links := x.links.modify k f } := by
  unfold Lay.modLink
  cases h : x.links[k]? with
  | none => rw [List.modify_eq_self (List.getElem?_eq_none_iff.mp h)]
  | some l =>
    have hset : x.links.set k (f l) = x.links.modify k f := List.ext_getElem? fun j => by
      rw [List.getElem?_set', List.getElem?_modify]
      split
      · next hkj => rw [← hkj, h]; rfl
      · exact (id_map' _).symm
    rw [← hset]

theorem Lay.getElem?_modLink (x : Lay) (k j : Nat) (f : Link → Link) :
    (x.modLink k f).links[j]? = if k = j then (x.links[j]?).map f else x.links[j]? := by
  rw [x.modLink_eq_modify, List.getElem?_modify]
  split <;> simp

@[simp] theorem Lay.stations_modLink (x : Lay) (k : Nat) (f : Link → Link) : (x.modLink k f).stations = x.stations := by
  rw [x.modLink_eq_modify]

/-- What a change of a link keeps of each stands in the whole list. -/
theorem Lay.map_modLink {α : Type} {π : Link → α} {f : Link → Link} (hf : ∀ l, π (f l) = π l) (x : Lay) (k : Nat) :
    (x.modLink k f).links.map π = x.links.map π := by
  rw [x.modLink_eq_modify]
  refine List.ext_getElem? fun j => ?_
  rw [List.getElem?_map, List.getElem?_map, List.getElem?_modify]
  cases x.links[j]? with
  | none => simp
  | some l => by_cases h : k = j <;> simp [h, hf]

theorem findIx_map {α β : Type} (f : β → Bool) (g : α → β) (l : List α) (n : Nat) :
    findIx f (l.map g) n = findIx (fun a => f (g a)) l n := by
  induction l generalizing n with
  | nil => rfl
  | cons a l ih => rw [List.map_cons, findIx, findIx, ih]

/-- The link of a port is looked up by the senders alone. -/
theorem Lay.linkFrom?_congr {x y : Lay} (h : x.links.map Link.src = y.links.map Link.src) (e : End) : x.linkFrom? e = y.linkFrom? e := by
  have hmap (z : Lay) : z.linkFrom? e = findIx (fun a => a == e) (z.links.map Link.src) 0 := by rw [findIx_map]; rfl
  rw [hmap, h, ← hmap]

theorem findIx_some {α : Type} {f : α → Bool} {l : List α} {n k : Nat} (h : findIx f l n = some k) :
    ∃ i a, k = n + i ∧ l[i]? = some a ∧ f a = true := by
  induction l generalizing n with
  | nil => exact absurd h nofun
  | cons a l ih =>
    rw [findIx] at h
    split at h
    · next hf => exact ⟨0, a, (Option.some.inj h).symm, rfl, hf⟩
    · obtain ⟨i, b, hk, hb, hf⟩ := ih h
      exact ⟨i + 1, b, by omega, hb, hf⟩

/-- The link that a port's lookup finds leaves from that port. -/
theorem Lay.src_of_linkFrom? {x : Lay} {e : End} {k : Nat} (h : x.linkFrom? e = some k) : ∃ l, x.links[k]? = some l ∧ l.src = e := by
  obtain ⟨i, l, hk, hl, he⟩ := findIx_some h
  obtain rfl : k = i := by omega
  exact ⟨l, hl, eq_of_beq he⟩

/-- Two ports have two links. -/
theorem Lay.linkFrom?_ne {x : Lay} {d e : End} {k : Nat} (hd : x.linkFrom? d = some k) (hne : e ≠ d) : x.linkFrom? e ≠ some k := fun he => by
  obtain ⟨l, hl, hsrc⟩ := x.src_of_linkFrom? hd
  obtain ⟨l', hl', hsrc'⟩ := x.src_of_linkFrom? he
  obtain rfl := Option.some.inj (hl.symm.trans hl')
  exact hne (hsrc'.symm.trans hsrc)

/-! ### Returning slots (R204) -/

/-- What changing the link of each of some ports keeps of a lay: its stations, what the change keeps of each link, and the
links of other ports. -/
theorem Lay.foldl_modLink {f : Link → Link} (hsrc : ∀ l, (f l).src = l.src) (pid : Pid) (sid : Sid) (ports : List (Fin 4)) (x : Lay) :
    let y := ports.foldl (fun y p => match y.linkFrom? ⟨pid, sid, p.val⟩ with | some k => y.modLink k f | none => y) x
    (∃ ls, y = { x with links := ls }) ∧ (∀ (α : Type) (π : Link → α), (∀ l, π (f l) = π l) → y.links.map π = x.links.map π) ∧
      ∀ j, (∀ p ∈ ports, x.linkFrom? ⟨pid, sid, p.val⟩ ≠ some j) → y.links[j]? = x.links[j]? := by
  induction ports generalizing x with
  | nil => exact ⟨⟨_, rfl⟩, fun _ _ _ => rfl, fun _ _ => rfl⟩
  | cons p ports ih =>
    rw [List.foldl_cons]
    cases hk : x.linkFrom? ⟨pid, sid, p.val⟩ with
    | none =>
      obtain ⟨hls, hmap, hother⟩ := ih x
      exact ⟨hls, hmap, fun j hj => hother j fun q hq => hj q (List.mem_cons_of_mem p hq)⟩
    | some k =>
      obtain ⟨⟨ls, hls⟩, hmap, hother⟩ := ih (x.modLink k f)
      refine ⟨⟨ls, ?_⟩, fun α π hπ => (hmap α π hπ).trans (x.map_modLink hπ k), fun j hj => ?_⟩
      · rw [hls, x.modLink_eq_modify]
      · rw [hother j fun q hq => ?_, x.getElem?_modLink, if_neg ?_]
        · exact fun hkj => hj p List.mem_cons_self (hkj ▸ hk)
        · rw [Lay.linkFrom?_congr (x.map_modLink hsrc k)]
          exact hj q (List.mem_cons_of_mem p hq)

/-! ### Loops and windows (R208, R209, R235) -/

/-- A change of stations that changes what they are, and nothing else of them. -/
def ChangesBody (g : Station → Station) : Prop := ∀ y, ∃ b, g y = { y with body := b }

theorem ChangesBody.keepsPlace {g : Station → Station} (hg : ChangesBody g) : KeepsPlace g := fun y => by
  obtain ⟨b, hb⟩ := hg y
  rw [hb]
  exact ⟨rfl, rfl⟩

theorem changesBody_modSplice (f : Station → Splice → Splice) : ChangesBody fun y => y.modSplice (f y) := fun y => by
  unfold Station.modSplice
  dsimp only
  split <;> exact ⟨_, rfl⟩

/-- Counting in loops changes the occupancies of splices. -/
theorem Lay.loopLeave_eq (x : Lay) (pid : Pid) (sid : Sid) (counted : Bool) (outs : List Link) :
    ∃ g, ChangesBody g ∧ x.loopLeave pid sid counted outs = { x with stations := x.stations.map g } := by
  refine ⟨_, fun y => ?_, rfl⟩
  dsimp only
  split
  · split
    · exact changesBody_modSplice (fun _ => _) y
    · exact ⟨_, rfl⟩
  · exact ⟨_, rfl⟩

/-- Tidying changes a bank's window. -/
theorem State.tidyWindow_eq (s : State) (p : Place) (n : Nat) :
    s.tidyWindow p n = s ∨ ∃ g, ChangesBody g ∧ s.tidyWindow p n = s.modStation p g := by
  unfold State.tidyWindow
  split
  · exact .inl rfl
  · refine .inr ⟨_, fun y => ?_, rfl⟩
    split
    · split <;> exact ⟨_, rfl⟩
    · exact ⟨_, rfl⟩

theorem State.At.tidyWindow {s : State} {p : Place} {x : Lay} {y : Station} (h : s.At p x y) (n : Nat) :
    ∃ g, ChangesBody g ∧ (s.tidyWindow p n).At p (x.modStation p.pid p.sid g) (g y) := by
  obtain hs | ⟨g, hg, hs⟩ := s.tidyWindow_eq p n
  · refine ⟨id, fun z => ⟨z.body, rfl⟩, ?_⟩
    have hid : x.modStation p.pid p.sid id = x := by simp [Lay.modStation]
    rw [hs, hid]
    exact h
  · rw [hs]
    exact ⟨g, hg, h.modStation hg.keepsPlace⟩

@[simp] theorem State.hbm_tidyWindow (s : State) (p : Place) (n : Nat) : (s.tidyWindow p n).hbm = s.hbm := by
  obtain h | ⟨g, -, h⟩ := s.tidyWindow_eq p n <;> simp [h]

end Sys2Proof.Machine
end

section
/-!
PROOFS. The header writers, raise and nop (05 R148 to R150): a header writer changes one field, and raise hands the record as
it arrived to the exception register.
-/
namespace Sys2Proof.Machine

/-! ### Faulting (R47, R411) -/

/-- Slots returned and loops left change what stations are, and links. -/
theorem Lay.releaseSlots_eq (x : Lay) (pid : Pid) (sid : Sid) (ports : List (Fin 4)) (counted : Bool) :
    ∃ g ls, ChangesBody g ∧ (x.returnSlots pid sid ports).loopLeave pid sid counted [] =
      { x with stations := x.stations.map g, links := ls } := by
  obtain ⟨⟨ls, hls⟩, -, -⟩ := Lay.foldl_modLink (f := fun l => { l with free := l.free + 1 }) (fun _ => rfl) pid sid ports x
  have hret : x.returnSlots pid sid ports = { x with links := ls } := hls
  obtain ⟨g, hg, hloop⟩ := (x.returnSlots pid sid ports).loopLeave_eq pid sid counted []
  exact ⟨g, ls, hg, by rw [hloop, hret]⟩

/-- A record enters the exception register where the lay has a handler that did not fault itself (R411, R414). -/
theorem State.enterExc_handler {s : State} {p : Place} {x : Lay} (hx : s.lay? p.ctx p.slot = some x) (hh : x.handler.isSome = true)
    (r : Rec) (fw : Word) (why : Option (Word × Word)) : s.enterExc p r fw false why =
      s.modStation p fun st => { st with exc := some ⟨r, fw, locWord p.pid p.sid, false, none, false, why⟩ } := by
  have hsome : x.handler.isNone = false := by rw [← Option.not_isSome, hh]; rfl
  unfold State.enterExc
  simp only [hx, hsome, Bool.false_or, Bool.false_eq_true, if_false]

/-- A fault that finds the exception register empty and a handler in the lay (R411): the record is there as it arrived. -/
theorem faultExec_spec {s : State} {p : Place} {x : Lay} {st : Station} {f : Frame} (hx : s.lay? p.ctx p.slot = some x)
    (hhandler : x.handler.isSome = true) (hst : s.station? p = some st) (hexc : st.exc = none)
    (hfaulted : ∀ g ∈ st.frames, ∀ w, g.st ≠ .faulted w) (hport : f.port ≠ 5) (kind detail : Nat) (indexed : Bool) :
    ∃ u st', s.faultExec p f kind detail indexed = u ∧ u.cur = .device ∧ u.hbm = s.hbm ∧ u.station? p = some st' ∧
      st'.exc = some ⟨f.orig, faultWord kind (if indexed then some f.ip else none) f.seg.val detail, locWord p.pid p.sid, false, none,
        false, f.why⟩ ∧ st'.k = st.k ∧ st'.kv = st.kv := by
  have hnone : (st.exc.isNone && !(st.frames.any Frame.isFaulted)) = true := by
    rw [hexc, Option.isNone_none, Bool.true_and, Bool.not_eq_true', List.any_eq_false]
    intro g hg hf
    unfold Frame.isFaulted at hf
    split at hf
    · next w hw => exact hfaulted g hg w hw
    · cases hf
  have hp : (f.port.val == 5) = false := by
    rw [beq_eq_false_iff_ne]
    exact fun h => hport (Fin.ext h)
  unfold State.faultExec
  simp only [hst, hnone, if_true, hp]
  generalize faultWord kind (if indexed then some f.ip else none) f.seg.val detail = fw
  have h0 : (s.dropExec p f.id).At p _ _ := ((State.At.of_station hx hst).modStation
    (g := fun y => { y with toks := y.toks.filter fun e => e.exec != f.id }) fun _ => ⟨rfl, rfl⟩).of_ctxs rfl
  obtain ⟨g, ls, hg, hrel⟩ := Lay.releaseSlots_eq _ p.pid p.sid (st.emitsOf f.seg) f.inLoop
  have h1 := h0.modLay (m := fun y => ((y.returnSlots p.pid p.sid (st.emitsOf f.seg)).loopLeave p.pid p.sid f.inLoop []).stir) hg.keepsPlace
    (congrArg (fun y : Lay => y.stir.stations) hrel)
  have h2 := h1.modStation (g := fun y => { y with lfsr := f.lfsr }) fun _ => ⟨rfl, rfl⟩
  rw [State.enterExc_handler h2.lay (by rw [hrel]; exact hhandler)]
  have h3 := h2.modStation (g := fun y => { y with exc := some ⟨f.orig, fw, locWord p.pid p.sid, false, none, false, f.why⟩ })
    fun _ => ⟨rfl, rfl⟩
  obtain ⟨t, ht, h4⟩ := h3.tidyWindow f.id
  refine ⟨_, _, rfl, rfl, ?_, (State.station?_cur _ _ p).trans h4.station, ?_⟩
  · simp [State.dropExec, State.withdrawReqs]
  · generalize hy : g _ = y
    obtain ⟨b, hb⟩ := hg { st with toks := st.toks.filter fun e => e.exec != f.id }
    obtain ⟨b', hb'⟩ := ht { y with lfsr := f.lfsr, exc := some ⟨f.orig, fw, locWord p.pid p.sid, false, none, false, f.why⟩ }
    rw [hb', ← hy, hb]
    exact ⟨rfl, rfl, rfl⟩

/-! ### The instructions -/

/-- The value of a format K word: the immediate, or the word of a, which may draw (R74). -/
theorem Run.kValue_eq (r : Run) (o : KForm) :
    r.kValue o = (if o.ia then o.imm else (r.word o.a).1, if o.ia then r else (r.word o.a).2) := by
  unfold Run.kValue
  split <;> rfl

/-- Reading that value changes the LFSR and the count of free values alone. -/
theorem Run.kValue_snd (r : Run) (o : KForm) : ∃ k l, (r.kValue o).2 = { r with f := { r.f with lfsr := l }, free := k } := by
  rw [r.kValue_eq]
  split
  · exact ⟨r.free, r.f.lfsr, rfl⟩
  · exact r.word_snd o.a

theorem headerWriters : Claims.HeaderWriters := by
  intro s p f o hcur hok v r put
  have hrun (h : Hdr → Word → Hdr) : runHeader o s h = put fun y => h y v := by
    rw [runHeader, atStation_station hcur (kPred o) _ hok, Run.kValue_eq]
  exact ⟨(hrun _ : execTag o s = _), (hrun _ : execSetcls o s = _), (hrun _ : execSetlen o s = _), (hrun _ : execSetck o s = _),
    (hrun _ : execSetscale o s = _), (hrun _ : execSetfmt o s = _)⟩

theorem raiseFaults : Claims.RaiseFaults := by
  intro s p x st f o hcur hok hx hh hst hexc hfaulted hport v fw
  obtain ⟨k, l, hr⟩ := (s.run p f).kValue_snd o
  have hv : ((s.run p f).kValue o).1 = v := by rw [Run.kValue_eq]
  have hfw : faultWord 0x0c (some f.ip) f.seg.val (v.toNat % 2 ^ 16) = fw := by
    rw [faultWord, ← Nat.add_assoc]
  have hexec : exec (.raise o) s =
      .next (({ s with free := k } : State).faultExec p { f with lfsr := l } 0x0c (v.toNat % 2 ^ 16) true) := by
    change execRaise o s = _
    rw [execRaise, atStation_station hcur (kPred o) _ hok]
    dsimp only
    rw [hr, hv]
    rfl
  obtain ⟨u, st', hu, hc, hm, hst', he, hk, hkv⟩ := faultExec_spec (s := { s with free := k }) (f := { f with lfsr := l }) hx hh hst hexc
    hfaulted hport 0x0c (v.toNat % 2 ^ 16) true
  exact ⟨u, st', hexec.trans (congrArg _ hu), hc, hst', hm, he.trans (by rw [← hfw]; rfl), hk, hkv⟩

theorem nop_goesOn : Claims.Nop := by
  refine ⟨fun s c t o hcur => ?_, fun s p f o hcur => ?_⟩
  · change execNop o s = _
    rw [execNop, goOn, hcur]
  · change execNop o s = _
    rw [execNop, goOn, hcur]
    rfl

/-- Settles O24: a header writer writes its field of the value read, raise is a fault with that value, nop goes on. -/
theorem headerRaiseNop : Obligations.HeaderRaiseNop := ⟨headerWriters, raiseFaults, nop_goesOn⟩

end Sys2Proof.Machine
end

section
/-!
PROOFS. What reading page tables and installing lines leave of the module (14 R398 to R403, 18 R478 to R486): errors found and
counted, translations and lines held, and nothing else.
-/
namespace Sys2Proof.Machine

/-- A state that differs in what the device notes of its memory alone: translations and lines held, errors found with their
marks, counts, log entries and messages. -/
def Upkept (s u : State) : Prop :=
  ∃ tlb dir upkeep poison log links, u = { s with tlb := tlb, dir := dir, upkeep := upkeep, hbmPoison := poison, log := log, links := links }

theorem Upkept.refl (s : State) : Upkept s s := ⟨_, _, _, _, _, _, rfl⟩

theorem Upkept.trans {s t u : State} (h : Upkept s t) (k : Upkept t u) : Upkept s u := by
  obtain ⟨a, b, c, d, e, f, rfl⟩ := h
  obtain ⟨a', b', c', d', e', f', rfl⟩ := k
  exact ⟨a', b', c', d', e', f', rfl⟩

theorem Upkept.foldl {α : Type} {f : State → α → State} (hf : ∀ s a, Upkept s (f s a)) (l : List α) (s : State) :
    Upkept s (l.foldl f s) := by
  induction l generalizing s with
  | nil => exact .refl s
  | cons a l ih => exact (hf s a).trans (ih (f s a))

theorem Upkept.hbm {s u : State} (h : Upkept s u) : u.hbm = s.hbm := by obtain ⟨_, _, _, _, _, _, rfl⟩ := h; rfl
theorem Upkept.ctxs {s u : State} (h : Upkept s u) : u.ctxs = s.ctxs := by obtain ⟨_, _, _, _, _, _, rfl⟩ := h; rfl
theorem Upkept.reqs {s u : State} (h : Upkept s u) : u.reqs = s.reqs := by obtain ⟨_, _, _, _, _, _, rfl⟩ := h; rfl
theorem Upkept.ctx {s u : State} (h : Upkept s u) (c : CtxId) : u.ctx c = s.ctx c := by rw [State.ctx, h.ctxs]; rfl
theorem Upkept.thread {s u : State} (h : Upkept s u) (c : CtxId) (t : Tid) : u.thread c t = s.thread c t := by
  rw [State.thread, h.ctx]; rfl

/-! ### Errors found (R478, R482, R486) -/

theorem upkept_logAdd (s : State) (kind die page st ctx addr count detail : Nat) :
    Upkept s (s.logAdd kind die page st ctx addr count detail) := by
  unfold State.logAdd
  dsimp only
  split <;> exact ⟨_, _, _, _, _, _, rfl⟩

theorem upkept_withUpkeep (s : State) (k : Upkeep) : Upkept s { s with upkeep := k } := ⟨_, _, _, _, _, _, rfl⟩

theorem upkept_countCorrected (s : State) (key kind die page st : Nat) : Upkept s (s.countCorrected key kind die page st) := by
  unfold State.countCorrected
  dsimp only
  split
  · exact (upkept_withUpkeep s _).trans (upkept_logAdd ..)
  · exact upkept_withUpkeep s _

theorem upkept_startRepair (s : State) (row a : Nat) : Upkept s (s.startRepair row a) := by
  unfold State.startRepair
  dsimp only
  split_ifs
  · exact .refl s
  · exact upkept_withUpkeep s _
  · exact .refl s
  · exact (upkept_withUpkeep s _).trans (upkept_logAdd ..)

theorem upkept_hbmEcc (s : State) (a : Nat) (e : Ecc) : Upkept s (s.hbmEcc a e) := by
  cases e with
  | clean => exact .refl s
  | corrected =>
    have hcount := fun k => (upkept_withUpkeep s k).trans (upkept_countCorrected _ (1000 + (Config.hbmStack a).val) 3 (stackOf a).1 255 (stackOf a).2)
    unfold State.hbmEcc
    dsimp only
    split
    · exact (hcount _).trans (upkept_startRepair ..)
    · exact hcount _
  | uncorrectable =>
    have hmark : Upkept s (s.hbmMark a 1) := ⟨_, _, _, _, _, _, rfl⟩
    exact (hmark.trans (upkept_logAdd ..)).trans (upkept_startRepair ..)

theorem upkept_hbmScan (s : State) (a n : Nat) : Upkept s (s.hbmScan a n) := by
  unfold State.hbmScan
  dsimp only
  split
  · exact .refl s
  · exact (upkept_withUpkeep s _).trans (Upkept.foldl (fun z x => upkept_hbmEcc z _ _) _ _)

theorem upkept_walkScan (s : State) (c : CtxId) (va : Nat) : Upkept s (s.walkScan c va) := by
  unfold State.walkScan
  split
  · exact .refl s
  · exact Upkept.foldl (fun z a => upkept_hbmScan z a 8) _ s

/-! ### Translations and lines (R243, R402) -/

theorem upkept_translate (s : State) (u : TlbUnit) (c : CtxId) (va : Nat) (n : Need) : Upkept s (s.translate u c va n).2 := by
  unfold State.translate
  split
  · exact .refl s
  · dsimp only
    split
    · exact upkept_walkScan s c va
    · split
      · exact (upkept_walkScan s c va).trans ⟨_, _, _, _, _, _, rfl⟩
      · exact upkept_walkScan s c va

theorem upkept_installLine (s : State) (c : CtxId) (l : LaySlot) (line : Nat) : Upkept s (s.installLine c l line) := by
  unfold State.installLine
  split
  · exact .refl s
  · dsimp only
    split
    · exact .refl s
    · exact ⟨_, _, _, _, _, _, rfl⟩

theorem upkept_prefetch (s : State) (p : Place) (va n : Nat) : Upkept s (s.prefetch p va n) := by
  unfold State.prefetch
  split
  · exact .refl s
  · refine Upkept.foldl (fun z q => ?_) _ s
    split
    · exact .refl z
    · dsimp only
      split
      · split
        · exact (upkept_walkScan z _ _).trans (Upkept.foldl (fun y g => upkept_installLine y _ _ g) _ _)
        · exact upkept_walkScan z _ _
      · exact upkept_walkScan z _ _

end Sys2Proof.Machine
end

section
/-!
PROOFS. fence, prf and the ordering tokens (05 R169 to R171).
-/
namespace Sys2Proof.Machine

/-- A station's address base is read with the LFSR and the count of free values changed alone (R153). -/
theorem Run.base_snd (r : Run) (o : MForm) : ∃ k l, (r.base o).2 = { r with f := { r.f with lfsr := l }, free := k } := by
  unfold Run.base
  split
  · exact r.word_snd o.a
  · unfold Run.pair Run.fWords
    dsimp only
    split_ifs <;> exact ⟨_, r.f.lfsr, rfl⟩

/-- A thread's access goes ahead where no portal access of the thread stands (R318). -/
theorem threadFar_ready {s : State} {c : CtxId} {t : Tid} (h : s.threadPending c t = false) (f : State) : threadFar s c t f = f := by
  rw [threadFar, if_neg (by simp [h])]

theorem fenceInThread (s : State) (c : CtxId) (t : Tid) (o : MForm) (hcur : s.cur = .thread c t) :
    ((o.scope ≠ 4 ∨ o.mod.toNat % 8 < 2 ∨ s.threadPending c t = false) → exec (.fence o) s = .next (s.advance c t)) ∧
    (o.scope = 4 → 2 ≤ o.mod.toNat % 8 → s.threadPending c t = true → (s.thread c t).wait = .none →
      exec (.fence o) s = .next (s.stand c t .accesses)) ∧
    exec (.prf o) s = .next (s.advance c t) := by
  have hfence : exec (.fence o) s =
      .next (if o.scope = 4 && 2 ≤ semOf o then threadFar s c t (s.advance c t) else s.advance c t) := by
    change execFence o s = _
    rw [execFence, hcur]
  refine ⟨fun h => ?_, fun hsc hsem hp hw => ?_, ?_⟩
  · rw [hfence]
    split
    · next hg =>
      simp only [Bool.and_eq_true, decide_eq_true_eq] at hg
      obtain h | h | h := h
      · exact absurd hg.1 h
      · exact absurd h (Nat.not_lt.mpr hg.2)
      · rw [threadFar_ready h]
    · rfl
  · rw [hfence, if_pos (by simpa using ⟨hsc, hsem⟩), threadFar, if_pos hp, if_pos hw]
  · change execPrf o s = _
    rw [execPrf, hcur]

theorem fenceAtStation (s : State) (p : Place) (f : Frame) (o : MForm) (hcur : s.cur = .station p f) :
    exec (.fence o) s = .next { s with cur := .station p { f with r := { f.r with past := fencePast o f.r.past }, ip := f.ip + 1 } } := by
  change execFence o s = _
  rw [execFence, hcur]

/-- A token entry whose covered accesses are performed retires (R171). -/
theorem tokenEntryRetire_of_done {s : State} {p : Place} {st : Station} {k : TokEntry} (hst : s.station? p = some st) (hk : k ∈ st.toks)
    (ha : k.addrs.isSome = true) (hd : ∀ r ∈ k.reqs, ∀ q ∈ s.reqs, q.id = r → q.stage = .done) :
    exec (.tokenEntryRetire p k.id) s = .next (s.modStation p fun y => { y with toks := y.toks.filter fun j => j.id != k.id }) := by
  have hdone : (k.reqs.all fun r => s.performed r) = true := by
    rw [List.all_eq_true]
    intro r hr
    rw [State.performed, Bool.not_eq_true', List.any_eq_false]
    intro q hq hpend
    simp only [Bool.and_eq_true, beq_iff_eq, bne_iff_ne] at hpend
    exact hpend.2 (hd r hr q hq hpend.1)
  change execTokenEntryRetire p k.id s = _
  unfold execTokenEntryRetire
  rw [hst]
  refine if_pos (List.any_eq_true.mpr ⟨k, hk, ?_⟩)
  rw [ha, hdone, beq_self_eq_true]
  rfl

/-- Settles O31: each instruction is its effect on the execution in hand, and prf reads page tables alone. -/
theorem fenceAndTokens : Obligations.FenceAndTokens := by
  refine ⟨fenceInThread, ?_, fun s p st e k hst hk he ha hd => he ▸ tokenEntryRetire_of_done hst hk ha hd⟩
  intro s p f o hcur sem
  refine ⟨fun hsc => ?_, fun hsc => ?_, ?_, ?_, ?_⟩
  · rw [fenceAtStation s p f o hcur, fencePast, if_pos hsc]
  · rw [fenceAtStation s p f o hcur, fencePast, if_neg hsc]
    rfl
  · obtain ⟨n, l, hr⟩ := (s.run p f).base_snd o
    have hexec : exec (.prf o) s =
        .next ((s.prefetch p (effAddr o ((s.run p f).base o).1 0) (szBytes o.sz)).nextIp p ((s.run p f).base o).2) := by
      change execPrf o s = _
      rw [execPrf, hcur]
    have hk := upkept_prefetch s p (effAddr o ((s.run p f).base o).1 0) (szBytes o.sz)
    rw [hr] at hexec
    exact ⟨_, { f with lfsr := l, ip := f.ip + 1 }, hexec, rfl, rfl, hk.hbm, hk.ctxs, hk.reqs⟩
  · change execOtokPut o s = _
    rw [execOtokPut, hcur]
  · change execOtokWait o s = _
    rw [execOtokWait, hcur]

end Sys2Proof.Machine
end

section
/-!
PROOFS. A thread's portal accesses (05 R160, 17 R469, R471): one request with the units of the translated range, on which the
thread waits unless it is posted.
-/
namespace Sys2Proof.Machine

/-! ### A thread's accesses -/

/-- The effective address of a thread's access is the sum of its base and its displacement as 64 bits (R153). -/
theorem State.threadEa_eq (s : State) (c : CtxId) (t : Tid) (o : MForm) :
    s.threadEa c t o = (s.readT c t o.a + o.disp.signExtend 64).toNat := by
  have hdisp : (o.disp.signExtend 64).toNat = (o.disp.toInt % (2 ^ 64 : Nat)).toNat := by
    rw [BitVec.signExtend, BitVec.toNat_ofInt]
  rw [State.threadEa, narrow, dispInt, BitVec.toNat_add, hdisp]
  omega

theorem length_bytesOfNat (n x : Nat) : (bytesOfNat n x).length = n := by
  induction n generalizing x with
  | zero => rfl
  | succ n ih => rw [bytesOfNat, List.length_cons, ih]

/-- A thread's memory instruction is its effect where no portal access of the thread stands (R318). -/
theorem runMem_thread {s : State} {c : CtxId} {t : Tid} (hcur : s.cur = .thread c t) (hp : s.threadPending c t = false)
    (ft : CtxId → Tid → State) (fs : Place → Frame → State) : runMem s ft fs = .next (ft c t) := by
  rw [runMem, hcur]
  exact congrArg _ (threadFar_ready hp _)

/-! ### Portals -/

/-- The request of a thread's portal access. -/
def portalReq (s : State) (c : CtxId) (t : Tid) (k : AccessKind) (ea n : Nat) (posted : Bool) (us : List MUnit) : Req :=
  { id := s.nextId, place := ⟨c, 0, 0, 0⟩, owner := .thread t, exec := 0, op := k.op, vas := [⟨ea, n⟩], wr := k.wr, atomic := k.rmw,
    portal := true, units := us, got := [], perm := [], fwd := [], stage := .sent, after := [], posted := posted, relaxed := false,
    poison := false, unflushed := k.op == .wr && us.any (fun u => u.node == .host), out := [], marked := false, born := s.cyc }

section Portal

variable {s s1 : State} {c : CtxId} {t : Tid} {k : AccessKind} {ea n align : Nat} {dat cmp : List Byte} {us : List MUnit}

/-- Where its range translates, the request goes out; a posted one lets the thread go on, any other stalls it. -/
theorem threadPortal_ok (hr : s.portalRange c ea n align k.need dat cmp = (.ok us, s1)) (posted : Bool) (d : Option Spec) :
    s.threadPortal c t k ea n align posted d dat cmp =
      if posted then (s1.issue [portalReq s1 c t k ea n posted us]).advance c t
      else (s1.issue [portalReq s1 c t k ea n posted us]).modThread c t fun th => { th with wait := .portal s1.nextId d } := by
  rw [State.threadPortal, hr]
  rfl

end Portal

/-- Settles O29: each access is one request of its translated range. -/
theorem threadPortal : Obligations.ThreadPortal := by
  intro s s1 c t o us hcur hsp hp ea n bs stalls
  have hrun (ft : CtxId → Tid → State) (fs : Place → Frame → State) : runMem s ft fs = .next (ft c t) := runMem_thread hcur hp ft fs
  have hea : s.threadEa c t o = ea := s.threadEa_eq c t o
  have hlen : bs.length = n := length_bytesOfNat ..
  have hstalls {i : Instr} {k : AccessKind} {align : Nat} {d : Option Spec} {dat cmp : List Byte}
      (hr : s.portalRange c ea n align k.need dat cmp = (.ok us, s1))
      (hi : exec i s = .next (s.threadPortal c t k ea n align false d dat cmp)) : stalls i k.op d := by
    rw [threadPortal_ok hr] at hi
    exact ⟨_, portalReq s1 c t k ea n false us, hi, rfl, rfl, rfl, rfl, rfl, rfl, rfl, rfl⟩
  have hposted {i : Instr} {k : AccessKind} {align : Nat} {d : Option Spec} {dat cmp : List Byte}
      (hr : s.portalRange c ea n align k.need dat cmp = (.ok us, s1))
      (hi : exec i s = .next (s.threadPortal c t k ea n align true d dat cmp)) :
      ∃ u q, exec i s = .next u ∧ u.reqs = s1.reqs ++ [q] ∧ q.op = k.op ∧ q.units = us ∧ q.posted = true ∧
        u.ctxs = (s1.advance c t).ctxs := by
    rw [threadPortal_ok hr] at hi
    exact ⟨_, portalReq s1 c t k ea n true us, hi, rfl, rfl, rfl, rfl, rfl⟩
  have hst : exec (.st o) s = .next (s.threadPortal c t storeKind ea n 1 (semOf o == 0) none bs []) := by
    change execSt o s = _
    rw [execSt, hrun]
    dsimp only
    rw [if_pos hsp, hea, ← hlen]
    rfl
  have hrmw {i : Instr} {k : AccessKind} {posted cmp : Bool} {tg : Nat} (ht : xTarget s c ea = some tg)
      (hs : s.supports c (nodeOfTarget tg) k.op n = true) : threadRmw i o k posted cmp s c t =
        s.threadPortal c t k ea n n posted (if noReturn o then none else some o.d) bs (if cmp then s.regBytes c t o.d n else []) := by
    unfold threadRmw
    dsimp only
    rw [hea, if_pos hsp, ht]
    exact if_neg (by simp [n, hs])
  have hcas {tg : Nat} (ht : xTarget s c ea = some tg) (hs : s.supports c (nodeOfTarget tg) .cas n = true) :
      exec (.cas o) s = .next (s.threadPortal c t (casKind o) ea n n false (if noReturn o then none else some o.d) bs
        (bytesOfNat n (s.readT c t o.d).toNat)) := by
    change execCas o s = _
    rw [execCas, hrun, hrmw ht hs]
    rfl
  have hatom {tg : Nat} (ht : xTarget s c ea = some tg)
      (hs : s.supports c (nodeOfTarget tg) (.atomI o.aop (if n = 8 then 8 else 4)) n = true) :
      exec (.atom o) s = .next (s.threadPortal c t (atomKind o) ea n n (noReturn o && semOf o == 0)
        (if noReturn o then none else some o.d) bs []) := by
    change execAtom o s = _
    rw [execAtom, hrun, hrmw ht hs]
    rfl
  refine ⟨fun hr => hstalls (k := loadKind) hr ?_, fun hr => ⟨fun hm => hstalls (k := storeKind) hr ?_,
    fun hm => hposted (k := storeKind) (d := none) hr ?_⟩,
    fun tg ht hs hr hm => hstalls (k := casKind o) hr ?_, fun tg ht hs hr => ?atom⟩
  · change execLd o s = _
    rw [execLd, hrun]
    dsimp only
    rw [if_pos hsp, hea]
  · rw [hst, semOf, beq_eq_false_iff_ne.mpr hm]
  · rw [hst, semOf, hm]
    rfl
  · rw [hcas ht hs, noReturn, hm]
    rfl
  case atom =>
    intro op
    refine ⟨fun hm => hstalls (k := atomKind o) hr ?_, fun hm h8 => hstalls (k := atomKind o) hr ?_,
      fun hm => hposted (k := atomKind o) (d := none) hr ?_⟩
    · rw [hatom ht hs, noReturn, hm]
      rfl
    · rw [hatom ht hs, noReturn, hm, semOf, beq_eq_false_iff_ne.mpr h8]
      rfl
    · rw [hatom ht hs, noReturn, semOf, hm]
      rfl

end Sys2Proof.Machine
end

section
/-!
PROOFS. inject and the event at which its record leaves (05 R151).
-/
namespace Sys2Proof.Machine

/-- The lay of a slot that holds no instruction back is resident: its load has ended. -/
theorem resident?_of_free {s : State} {c : CtxId} {t : Tid} {l : LaySlot} (hfree : s.slotHeld c t l = false) :
    s.resident? c l = s.lay? c l := by
  unfold State.resident?
  cases hlay : s.lay? c l with
  | none => rfl
  | some x =>
    have hload : x.loading = false := by
      simp only [State.slotHeld, hlay, Bool.or_eq_false_iff] at hfree
      exact hfree.1
    simp [hload]

theorem payOfBytes_nil : payOfBytes [] = vzero := by
  refine Vector.ext fun i hi => ?_
  simp [payOfBytes, vofStr, vzero, natOfBytes]

/-- A field of a word, read as a number, is the number of the field's bits. -/
theorem bitsNat_toNat (h : DWord) (hi lo : Nat) : bitsNat hi lo h.toNat = (h.extractLsb' lo (hi + 1 - lo)).toNat := by
  rw [bitsNat, BitVec.extractLsb'_toNat]

/-- The header that a word names has the word's fields. -/
theorem hdrOfBits_toNat (h : DWord) (c : CtxId) (l : LaySlot) :
    hdrOfBits h.toNat c l = ⟨l, c, h.extractLsb' 49 3, h.extractLsb' 44 5, h.extractLsb' 40 4, h.extractLsb' 32 8, h.extractLsb' 24 8,
      h.extractLsb' 0 24⟩ := by
  simp [hdrOfBits, BitVec.extractLsb', Nat.shiftRight_eq_div_pow]

section Status

variable {s : State} {c : CtxId} {t : Tid} {o : YForm} {x : Lay} {h : Nat}

theorem injectStatus_none (hres : s.resident? c (slotOf o.ls) = none) : s.injectStatus c o h = 1 := by
  rw [State.injectStatus, hres]

/-- The status of inject at a resident lay is that of the first check that fails. -/
theorem injectStatus_some (hres : s.resident? c (slotOf o.ls) = some x) :
    s.injectStatus c o h =
      if x.npages ≤ o.pg.toNat then 6 else if x.passOpen = false then 2 else if bitsNat 63 61 h ≠ 0 ∨ 16 < bitsNat 48 44 h then 3
      else if x.linkFrom? ⟨Fin.ofNat 64 o.pg.toNat, reelSid, o.imm16.toNat % 4⟩ = none then 4 else 0 := by
  rw [State.injectStatus, hres]
  simp [pageOf]

end Status

theorem inject_claim : Claims.Inject := by
  intro s c t o hcur l h n stops hfree
  have hres : s.resident? c (slotOf o.ls) = s.lay? c l := resident?_of_free hfree
  have hn : bitsNat 48 44 h.toNat = n := bitsNat_toNat h 48 44
  have hzero : bitsNat 63 61 h.toNat ≠ 0 ↔ h.extractLsb' 61 3 ≠ 0 := by
    rw [bitsNat_toNat h 63 61, Ne, Ne, ← BitVec.toNat_inj]
    rfl
  have hrun (f : CtxId → Tid → State) : onSlot o.ls s f = .next (f c t) := onSlot_thread hcur o.ls hfree f
  have hstop {k : Nat} (hk : s.injectStatus c o h.toNat = k) (h0 : k ≠ 0) : stops k := by
    change execInject o s = _
    rw [execInject, hrun]
    dsimp only
    rw [hk, if_pos h0]
  refine ⟨fun hlay => hstop (injectStatus_none (hres.trans hlay)) (by decide), fun x hlay => ?_⟩
  have hst := injectStatus_some (h := h.toNat) (hres.trans hlay)
  simp only [hn, hzero] at hst
  refine ⟨fun hpg => hstop (by rw [hst, if_pos hpg]) (by decide), fun hpg hpass => hstop ?_ (by decide), fun hpg hpass =>
    ⟨fun hbad => hstop ?_ (by decide), fun hz hn16 => ⟨fun hlink => hstop ?_ (by decide), fun hlink => ?made⟩⟩⟩
  · rw [hst, if_neg (Nat.not_le.mpr hpg), if_pos hpass]
  · rw [hst, if_neg (Nat.not_le.mpr hpg), if_neg (by simp [hpass]), if_pos hbad]
  · rw [hst, if_neg (Nat.not_le.mpr hpg), if_neg (by simp [hpass]), if_neg (by simp [hz, hn16]), if_pos hlink]
  case made =>
    intro hdr waits hp
    have hok : s.injectStatus c o h.toNat = 0 := by
      rw [hst, if_neg (Nat.not_le.mpr hpg), if_neg (by simp [hpass]), if_neg (by simp [hz, hn16]),
        if_neg (Option.isSome_iff_ne_none.mp hlink)]
    have hput : exec (.inject o) s = .next (if n = 0 then waits ⟨hdr, payOfBytes [], []⟩ s
        else s.withRead c t (s.readT c t o.b).toNat (4 * n) 4 fun bs u => waits ⟨hdr, payOfBytes bs, []⟩ u) := by
      change execInject o s = _
      rw [execInject, hrun]
      dsimp only
      rw [hok, if_neg (by decide), threadFar_ready hp, hn]
      rw [hdrOfBits_toNat h c (slotOf o.ls)]
      rfl
    refine ⟨fun h0 => by rw [hput, if_pos h0, payOfBytes_nil], fun bs u h0 hread => ?_⟩
    rw [hput, if_neg h0, State.withRead, hread]

/-- Settles O25: the status is that of the first check that fails, and the record leaves in turn with its stream slot. -/
theorem inject : Obligations.Inject := by
  refine ⟨inject_claim, fun s c t x d l pg m r hwait hlay => ⟨fun k st hsucc hpass hlink hst hturn hslot hpre => ?_, fun hsucc => ?_,
    fun hsucc hpass => ?_⟩⟩
  · change execInjectRecordLeaves c t s = _
    have hyield : (st.lastInj && !st.writes && s.slotReady c x pg m st) = false := by
      rcases hturn with h | h | h <;> simp [h]
    simp [execInjectRecordLeaves, hwait, hlay, hsucc, hpass, hlink, hst, hyield, hslot, hpre, State.modLay]
  · change execInjectRecordLeaves c t s = _
    simp [execInjectRecordLeaves, hwait, hlay, hsucc]
  · change execInjectRecordLeaves c t s = _
    simp [execInjectRecordLeaves, hwait, hlay, hsucc, hpass]

end Sys2Proof.Machine
end

section
/-!
PROOFS. Bytes written and read back, and ranges in pieces (00 R15, 05 R160, 14 R399, R328, R330).
-/
namespace Sys2Proof.Machine

/-! ### Byte strings -/

theorem getElem_bytesOfNat {n x i : Nat} (h : i < (bytesOfNat n x).length) : (bytesOfNat n x)[i] = BitVec.ofNat 8 (x / 256 ^ i) := by
  induction n generalizing x i with
  | zero => simp [bytesOfNat] at h
  | succ n ih =>
    cases i with
    | zero => simp [bytesOfNat]
    | succ i => simp [bytesOfNat, ih, Nat.div_div_eq_div_mul, Nat.pow_succ, Nat.mul_comm]

/-- Byte i of a word's bytes is the field of eight bits at 8 i. -/
theorem getElem_bytesOfNat_toNat {n w i : Nat} (x : BitVec w) (h : i < (bytesOfNat n x.toNat).length) :
    (bytesOfNat n x.toNat)[i] = x.extractLsb' (8 * i) 8 := by
  rw [getElem_bytesOfNat, BitVec.extractLsb', Nat.shiftRight_eq_div_pow, Nat.pow_mul]

theorem natOfBytes_bytesOfNat (n x : Nat) : natOfBytes (bytesOfNat n x) = x % 2 ^ (8 * n) := by
  induction n generalizing x with
  | zero => simp [bytesOfNat, natOfBytes, Nat.mod_one]
  | succ n ih =>
    rw [bytesOfNat, natOfBytes, ih, BitVec.toNat_ofNat, Nat.mul_succ, Nat.add_comm (8 * n) 8, Nat.pow_add, Nat.mod_mul]

theorem length_readBytes (m : Mem) (a n : Nat) : (readBytes m a n).length = n := by
  induction n generalizing a with
  | zero => rfl
  | succ n ih => rw [readBytes, List.length_cons, ih]

/-- A byte of a string written is read back at its place. -/
theorem readByte_writeBytes_same {m : Mem} (hm : memWf m = true) (a : Nat) {bs : List Byte} {i : Nat} (hi : i < bs.length) :
    readByte (writeBytes m a bs) (a + i) = bs[i] := by
  induction bs generalizing m a i with
  | nil => simp at hi
  | cons b bs ih =>
    rw [writeBytes]
    cases i with
    | zero => rw [readByte_writeBytes_other (memWf_writeByte hm a b) _ _ _ (by omega)]; exact readByte_writeByte_same a b hm
    | succ i => rw [show a + (i + 1) = a + 1 + i by omega, ih (memWf_writeByte hm a b) (a + 1) (by simpa using hi)]; rfl

/-- The bytes at a range are those of a string of its length with each byte at its place. -/
theorem readBytes_eq {m : Mem} {a : Nat} {bs : List Byte} (h : ∀ i (hi : i < bs.length), readByte m (a + i) = bs[i]) :
    readBytes m a bs.length = bs := by
  induction bs generalizing a with
  | nil => rfl
  | cons b bs ih =>
    rw [List.length_cons, readBytes, ih fun i hi => ?_]
    · exact congrArg (· :: bs) (h 0 (by simp))
    · rw [Nat.add_assoc, Nat.add_comm 1 i, h (i + 1) (by simpa using hi)]
      rfl

/-- A string of one word is worked on as that word. -/
theorem byWords_one {k : Nat} (f : Nat → Nat → Nat) {old dat : List Byte} (hk : 0 < k) (ho : old.length = k) (hd : dat.length = k) :
    byWords k f old.length old dat = bytesOfNat k (f (natOfBytes old) (natOfBytes dat)) := by
  obtain ⟨n, hn⟩ : ∃ n, old.length = n + 1 := ⟨k - 1, by omega⟩
  have hne : old ≠ [] := fun h => by simp [h] at hn
  have hrest : ∀ j, byWords k f j [] [] = [] := fun j => by cases j <;> rfl
  rw [hn, byWords, if_neg (by simpa using hne), List.take_of_length_le (by omega), List.take_of_length_le (by omega),
    List.drop_eq_nil_of_le (by omega), List.drop_eq_nil_of_le (by omega), hrest, List.append_nil]

/-! ### Physical pieces -/

/-- Pieces within the stacks are read as their bytes, one after another. -/
theorem readPieces_inHbm (s : State) {us : List (Nat × Nat)} (h : ∀ v ∈ us, v.1 + v.2 ≤ hbmSize) :
    s.readPieces us = (us.flatMap fun v => readBytes s.hbm v.1 v.2, us.any fun v => isPoisoned 32 s.hbmPoison v.1 v.2) := by
  induction us with
  | nil => rfl
  | cons u us ih =>
    rw [State.readPieces, ih fun v hv => h v (List.mem_cons_of_mem u hv), State.hbmRead, if_pos (h u List.mem_cons_self)]
    rfl

/-- Writing pieces changes no context, no other memory and no request. -/
theorem writePieces_fields (ps : List (Nat × Nat)) (bs : List Byte) (s : State) :
    (s.writePieces ps bs).ctxs = s.ctxs ∧ (s.writePieces ps bs).hostMem = s.hostMem ∧ (s.writePieces ps bs).peerMem = s.peerMem ∧
      (s.writePieces ps bs).reqs = s.reqs := by
  induction ps generalizing s bs with
  | nil => exact ⟨rfl, rfl, rfl, rfl⟩
  | cons p ps ih =>
    obtain ⟨hctxs, hhost, hpeer, hreqs⟩ := ih (bs.drop p.2) (s.hbmWrite p.1 (bs.take p.2))
    rw [State.writePieces, hctxs, hhost, hpeer, hreqs, State.hbmWrite]
    split <;> exact ⟨rfl, rfl, rfl, rfl⟩

/-- Bytes written to pieces leave every byte outside them. -/
theorem readByte_writePieces_other {ps : List (Nat × Nat)} {bs : List Byte} {s : State} {a : Nat} (hm : memWf s.hbm = true)
    (h : ∀ v ∈ ps, a < v.1 ∨ v.1 + v.2 ≤ a) : readByte (s.writePieces ps bs).hbm a = readByte s.hbm a := by
  induction ps generalizing s bs with
  | nil => rfl
  | cons p ps ih =>
    rw [State.writePieces, ih (memWf_hbmWrite s p.1 _ hm) fun v hv => h v (List.mem_cons_of_mem p hv)]
    refine readByte_hbmWrite_other s p.1 a _ hm ((h p List.mem_cons_self).imp_right fun hle => ?_)
    exact (Nat.add_le_add_left (List.length_take_le _ _) _).trans hle

theorem readByte_hbmWrite_same {s : State} (hm : memWf s.hbm = true) {a : Nat} {bs : List Byte} (hin : a + bs.length ≤ hbmSize) {i : Nat}
    (hi : i < bs.length) : readByte (s.hbmWrite a bs).hbm (a + i) = bs[i] := by
  rw [State.hbmWrite, if_pos hin]
  exact readByte_writeBytes_same hm a hi

/-- A piece that no later one overlaps holds its own bytes of the string written. -/
theorem readByte_writePieces_same {pre post : List (Nat × Nat)} {v : Nat × Nat} {bs : List Byte} {s : State} (hm : memWf s.hbm = true)
    (hin : v.1 + v.2 ≤ hbmSize) (hpost : ∀ w ∈ post, w.1 + w.2 ≤ v.1 ∨ v.1 + v.2 ≤ w.1) {i : Nat} (hi : i < v.2)
    (hlen : (pre.map Prod.snd).sum + v.2 ≤ bs.length) :
    readByte (s.writePieces (pre ++ v :: post) bs).hbm (v.1 + i) = bs[(pre.map Prod.snd).sum + i]'(by omega) := by
  induction pre generalizing s bs with
  | nil =>
    have hlen' : (bs.take v.2).length = v.2 := List.length_take_of_le (by simpa using hlen)
    rw [List.nil_append, State.writePieces,
      readByte_writePieces_other (memWf_hbmWrite s v.1 _ hm) fun w hw => (hpost w hw).symm.imp (by omega) (by omega),
      readByte_hbmWrite_same hm (by rw [hlen']; exact hin) (by rw [hlen']; exact hi), List.getElem_take]
    simp
  | cons p pre ih =>
    rw [List.map_cons, List.sum_cons] at hlen
    rw [List.cons_append, State.writePieces, ih (memWf_hbmWrite s p.1 _ hm) (by rw [List.length_drop]; omega), List.getElem_drop]
    simp only [List.map_cons, List.sum_cons, Nat.add_assoc]

/-- Lines marked as changed leave memory and the rest of the state. -/
theorem dirtyLines_foldl (us : List (Nat × Nat)) (s : State) :
    ∃ d, us.foldl (fun z u => z.dirtyLines u.1 u.2) s = { s with dir := d } := by
  induction us generalizing s with
  | nil => exact ⟨s.dir, rfl⟩
  | cons u us ih => obtain ⟨d, hd⟩ := ih (s.dirtyLines u.1 u.2); exact ⟨d, hd⟩

/-! ### The next units of an access (R328, R331) -/

theorem ahead_prefix (k : Fin 12) (room : Nat) (us : List (Nat × Nat)) : State.stackEvent.ahead k room us <+: us := by
  induction us generalizing room with
  | nil => exact List.prefix_rfl
  | cons u us ih =>
    rw [State.stackEvent.ahead]
    split
    · exact List.prefix_cons_inj u |>.mpr (ih _)
    · exact List.nil_prefix

/-- The units that an event performs come first. -/
theorem stackEvent_prefix (s : State) (room : Nat) (us : List (Nat × Nat)) : s.stackEvent room us <+: us := by
  cases us with
  | nil => exact List.prefix_rfl
  | cons u us =>
    rw [State.stackEvent]
    refine List.prefix_cons_inj u |>.mpr ?_
    split
    · exact ahead_prefix ..
    · exact List.nil_prefix

theorem stackEvent_ne_nil (s : State) (room : Nat) {us : List (Nat × Nat)} (h : us ≠ []) : s.stackEvent room us ≠ [] := by
  cases us with
  | nil => exact absurd rfl h
  | cons u us => rw [State.stackEvent]; exact List.cons_ne_nil _ _

/-- Outside the bring-up mode an event performs one unit. -/
theorem stackEvent_one {s : State} (h : s.secure.bringup.getLsbD 0 = false) (room : Nat) (us : List (Nat × Nat)) :
    s.stackEvent room us = us.take 1 := by
  cases us with
  | nil => rfl
  | cons u us => rw [State.stackEvent, h]; rfl

end Sys2Proof.Machine
end

section
/-!
PROOFS. A thread's far accesses: where a range translates, what stands under way of an access, and how it goes on or traps (05
R153, R160, 14 R399, R415, R416).
-/
namespace Sys2Proof.Machine

/-! ### Ranges (R399) -/

theorem cutAt_of_pos {g fuel a n : Nat} (h : 0 < n) :
    cutAt g (fuel + 1) a n = (a, min n (g - a % g)) :: cutAt g fuel (a + min n (g - a % g)) (n - min n (g - a % g)) := by
  rw [cutAt, if_neg (by omega)]

theorem cutAt_zero (g fuel a : Nat) : cutAt g fuel a 0 = [] := by
  cases fuel with
  | zero => rfl
  | succ fuel => rw [cutAt, if_pos rfl]

/-- A range within one region is one piece. -/
theorem regionPieces_near {va n : Nat} (h0 : 0 < n) (h : va % 65536 + n ≤ 65536) : regionPieces va n = [(va, n)] := by
  rw [regionPieces, cutAt_of_pos h0, Nat.min_eq_left (by omega), Nat.sub_self, cutAt_zero]

/-- A range of at most a region's size over the end of one is a piece in each of two regions. -/
theorem regionPieces_over {va n : Nat} (h : 65536 < va % 65536 + n) (hn : n ≤ 65536) :
    regionPieces va n = [(va, 65536 - va % 65536), (va + (65536 - va % 65536), n - (65536 - va % 65536))] := by
  have hva := Nat.mod_lt va (show 65536 > 0 by decide)
  have hnext : (va + (65536 - va % 65536)) % 65536 = 0 := by omega
  rw [regionPieces, cutAt_of_pos (by omega), Nat.min_eq_right (by omega), cutAt_of_pos (by omega), hnext, Nat.min_eq_left (by omega),
    Nat.sub_self, cutAt_zero]

/-- The first piece of a range begins where the range does. -/
theorem regionPieces_first {va n : Nat} (h0 : 0 < n) : ∃ k rest, regionPieces va n = (va, k) :: rest := by
  exact ⟨_, _, cutAt_of_pos h0⟩

section Range

variable {s s1 s2 : State} {c : CtxId} {va n align : Nat} {need : Need} {lf l2 : Leaf} {e : Nat}

theorem farRange_notCanonical (h : rangeCanonical va n = false) : s.farRange c va n align need = (.error ⟨3, va⟩, s) := by
  rw [State.farRange, h]
  rfl

theorem farRange_misaligned (h : rangeCanonical va n = true) (ha : va % align ≠ 0) :
    s.farRange c va n align need = (.error ⟨4, va⟩, s) := by
  rw [State.farRange, h, if_pos ha]
  rfl

theorem farRange_first_error (h : rangeCanonical va n = true) (ha : va % align = 0) (h0 : 0 < n)
    (ht : s.translate (s.dataUnit c) c va need = (.error e, s1)) : s.farRange c va n align need = (.error ⟨4 + e, va⟩, s1) := by
  obtain ⟨k, rest, hp⟩ := regionPieces_first (va := va) h0
  rw [State.farRange, h, if_neg (by simp), if_neg (by simp [ha]), hp, State.transPieces, ht]

/-- A range within one region lies in the region's leaf, which must be HBM. -/
theorem farRange_near (h : rangeCanonical va n = true) (ha : va % align = 0) (h0 : 0 < n) (hn : va % 65536 + n ≤ 65536)
    (ht : s.translate (s.dataUnit c) c va need = (.ok lf, s1)) :
    s.farRange c va n align need = (if lf.mt = 0 then .ok [(lf.pa + va % 65536, n)] else .error ⟨6, va⟩, s1) := by
  rw [State.farRange, h, if_neg (by simp), if_neg (by simp [ha]), regionPieces_near h0 hn, State.transPieces, ht]
  by_cases hmt : lf.mt = 0 <;> simp [State.transPieces, hmt]

theorem farRange_over (h : rangeCanonical va n = true) (ha : va % align = 0) (hn : 65536 < va % 65536 + n) (hn2 : n ≤ 65536)
    (ht : s.translate (s.dataUnit c) c va need = (.ok lf, s1)) (hmt : lf.mt = 0)
    (ht2 : s1.translate (s.dataUnit c) c (va + (65536 - va % 65536)) need = (.ok l2, s2)) (hmt2 : l2.mt = 0) :
    s.farRange c va n align need =
      (.ok [(lf.pa + va % 65536, 65536 - va % 65536), (l2.pa, n - (65536 - va % 65536))], s2) := by
  have hnext : (va + (65536 - va % 65536)) % 65536 = 0 := by omega
  rw [State.farRange, h, if_neg (by simp), if_neg (by simp [ha]), regionPieces_over hn hn2, State.transPieces, ht]
  simp [State.transPieces, ht2, hmt, hmt2, hnext]

theorem farRange_over_error (h : rangeCanonical va n = true) (ha : va % align = 0) (hn : 65536 < va % 65536 + n) (hn2 : n ≤ 65536)
    (ht : s.translate (s.dataUnit c) c va need = (.ok lf, s1))
    (ht2 : s1.translate (s.dataUnit c) c (va + (65536 - va % 65536)) need = (.error e, s2)) :
    s.farRange c va n align need = (.error ⟨4 + e, va + (65536 - va % 65536)⟩, s2) := by
  rw [State.farRange, h, if_neg (by simp), if_neg (by simp [ha]), regionPieces_over hn hn2, State.transPieces, ht]
  simp [State.transPieces, ht2]

end Range

theorem threadRange : Claims.ThreadRange := by
  intro s s0 c ea n k need lf _ h0 hn hcan hal ht hmt n1
  have hn1 : n1 = 65536 - ea % 65536 := rfl
  have hea := Nat.mod_lt ea (show 65536 > 0 by decide)
  refine ⟨fun hle => ?_, fun hlt l2 s2 ht2 hmt2 => farRange_over hcan hal (by omega) hn ht hmt ht2 hmt2,
    fun hlt e s2 ht2 => farRange_over_error hcan hal (by omega) hn ht ht2⟩
  rw [farRange_near hcan hal h0 (by omega) ht, if_pos hmt]

/-! ### Where no row is under repair and no error has struck (R478, R486) -/

theorem rowsBusy_of_noRepair {s : State} (h : s.upkeep.repairing = []) (a n : Nat) : s.rowsBusy a n = false := by
  rw [State.rowsBusy, h]
  rfl

theorem walkWaits_of_noRepair {s : State} (h : s.upkeep.repairing = []) (u : TlbUnit) (c : CtxId) (va n : Nat) :
    s.walkWaits u c va n = false := by
  simp [State.walkWaits, State.walkBusy, h]

theorem hbmScan_of_noFlaws {s : State} (h : s.upkeep.flaws = []) (a n : Nat) : s.hbmScan a n = s := by
  rw [State.hbmScan, h]
  rfl

theorem hbmScans_of_noFlaws {s : State} (h : s.upkeep.flaws = []) (us : List (Nat × Nat)) :
    us.foldl (fun z u => z.hbmScan u.1 u.2) s = s := by
  induction us with
  | nil => rfl
  | cons u us ih => rw [List.foldl_cons, hbmScan_of_noFlaws h, ih]

theorem translate_of_noFlaws {s : State} (h : s.upkeep.flaws = []) (u : TlbUnit) (c : CtxId) (va : Nat) (n : Need) :
    ∃ l, (s.translate u c va n).2 = { s with tlb := l } := by
  have hscan : s.walkScan c va = s := by rw [State.walkScan, h]; rfl
  unfold State.translate
  split
  · exact ⟨s.tlb, rfl⟩
  · dsimp only
    rw [hscan]
    split
    · exact ⟨s.tlb, rfl⟩
    · split
      · exact ⟨_, rfl⟩
      · exact ⟨s.tlb, rfl⟩

theorem transPieces_of_noFlaws {s : State} (h : s.upkeep.flaws = []) (u : TlbUnit) (c : CtxId) (n : Need) (ps : List (Nat × Nat)) :
    ∃ l, (s.transPieces u c n ps).2 = { s with tlb := l } := by
  induction ps generalizing s with
  | nil => exact ⟨s.tlb, rfl⟩
  | cons p ps ih =>
    obtain ⟨l, hl⟩ := translate_of_noFlaws h u c p.1 n
    rw [State.transPieces]
    generalize s.translate u c p.1 n = r at hl
    obtain ⟨_ | lf, s1⟩ := r
    · exact ⟨l, hl⟩
    · dsimp only at hl ⊢
      obtain ⟨l2, hl2⟩ := ih (s := s1) (by rw [hl]; exact h)
      generalize s1.transPieces u c n ps = r at hl2
      obtain ⟨_ | qs, s2⟩ := r <;> exact ⟨l2, by rw [show s2 = _ from hl2, hl]⟩

/-- Where no error has struck, checking a range caches translations alone. -/
theorem farRange_of_noFlaws {s : State} (h : s.upkeep.flaws = []) (c : CtxId) (va n align : Nat) (need : Need) :
    ∃ l, (s.farRange c va n align need).2 = { s with tlb := l } := by
  obtain ⟨l, hl⟩ := transPieces_of_noFlaws h (s.dataUnit c) c need (regionPieces va n)
  unfold State.farRange
  split
  · exact ⟨s.tlb, rfl⟩
  · split
    · exact ⟨s.tlb, rfl⟩
    · generalize s.transPieces (s.dataUnit c) c need (regionPieces va n) = r at hl
      obtain ⟨_ | ps, s1⟩ := r
      · exact ⟨l, hl⟩
      · dsimp only
        split <;> exact ⟨l, hl⟩

end Sys2Proof.Machine
end

section
/-!
PROOFS. Where a thread's far access traps (05 R160, R172, 14 R416).
-/
namespace Sys2Proof.Machine

/-! ### What stands under way of an access -/

/-- A state whose memory, marks, repairs, requests and secure registers are those of another. -/
structure SameStore (s u : State) : Prop where
  hbm : u.hbm = s.hbm
  poison : u.hbmPoison = s.hbmPoison
  upkeep : u.upkeep = s.upkeep
  secure : u.secure = s.secure
  reqs : u.reqs = s.reqs
  hostMem : u.hostMem = s.hostMem
  peerMem : u.peerMem = s.peerMem

theorem SameStore.of_tlb {s u : State} {l : List TlbEnt} (h : u = { s with tlb := l }) : SameStore s u := by
  subst h
  exact ⟨rfl, rfl, rfl, rfl, rfl, rfl, rfl⟩

theorem SameStore.modThread {s u : State} (h : SameStore s u) (c : CtxId) (t : Tid) (f : Thread → Thread) :
    SameStore s (u.modThread c t f) := ⟨h.hbm, h.poison, h.upkeep, h.secure, h.reqs, h.hostMem, h.peerMem⟩

section Access

variable {s s1 : State} {c : CtxId} {t : Tid} {va n align : Nat} {wr : Bool} {x : ThreadAcc}

theorem threadAcc_of_claim (h : Claims.ThreadAccess s c t va n wr x s1) (hrep : s.upkeep.repairing = []) :
    s.threadAcc c t va n 1 wr = (.ok x, s1) := by
  rw [State.threadAcc]
  obtain ⟨hfind, rfl⟩ | ⟨hfind, ps, s0, hfar, rfl, rfl⟩ := h
  · rw [hfind]
  · rw [hfind]
    dsimp only
    rw [walkWaits_of_noRepair hrep, hfar]
    rfl

/-- Where no error has struck, checking an access notes it in the thread and caches translations alone. -/
theorem threadAccess_frame (h : Claims.ThreadAccess s c t va n wr x s1) (hflaws : s.upkeep.flaws = []) :
    SameStore s s1 ∧ (s1.thread c t).pc = (s.thread c t).pc := by
  obtain ⟨-, rfl⟩ | ⟨-, ps, s0, hfar, rfl, rfl⟩ := h
  · exact ⟨.of_tlb (l := s1.tlb) rfl, rfl⟩
  · obtain ⟨l, hl⟩ := farRange_of_noFlaws hflaws c va n 1 ⟨!wr, wr, false⟩
    rw [hfar] at hl
    refine ⟨(SameStore.of_tlb hl).modThread c t _, ?_⟩
    rw [State.thread_modThread_same, show s0 = _ from hl]
    rfl

theorem threadAcc_error {e : Trouble} (hnew : (s.thread c t).accs = []) (hrep : s.upkeep.repairing = [])
    (hfar : s.farRange c va n align ⟨!wr, wr, false⟩ = (.error e, s1)) : s.threadAcc c t va n align wr = (.error (some e), s1) := by
  rw [State.threadAcc, hnew]
  dsimp only [List.find?]
  rw [walkWaits_of_noRepair hrep, hfar]
  rfl

/-- An access once more units of it are read from a memory. -/
def ThreadAcc.readUnits (x : ThreadAcc) (m : Mem) (marks : List Nat) (us : List (Nat × Nat)) : ThreadAcc :=
  { x with todo := x.todo.drop us.length, got := x.got ++ us.flatMap (fun v => readBytes m v.1 v.2),
           bad := x.bad || us.any fun v => isPoisoned 32 marks v.1 v.2 }

/-- A turn of a read takes the bytes of the next units; with the last one they are at hand, or trap. -/
theorem threadRead_units (hacc : s.threadAcc c t va n align false = (.ok x, s1)) (hflaws : s1.upkeep.flaws = [])
    (hrep : s1.upkeep.repairing = []) (htodo : x.todo ≠ []) (hin : ∀ v ∈ s1.stackEvent 64 x.todo, v.1 + v.2 ≤ hbmSize) :
    let y := x.readUnits s1.hbm s1.hbmPoison (s1.stackEvent 64 x.todo)
    s.threadRead c t va n align = (if y.todo = [] then (if y.bad then .error (some ⟨9, va⟩) else .ok y.got) else .error none,
      s1.modThread c t fun th => th.putAcc y) := by
  intro y
  have hne : (s1.stackEvent 64 x.todo).isEmpty = false := List.isEmpty_eq_false_iff.mpr (stackEvent_ne_nil s1 64 htodo)
  have hbusy : ((s1.stackEvent 64 x.todo).any fun u => s1.rowsBusy u.1 u.2) = false := by
    rw [List.any_eq_false]
    exact fun u _ => by rw [rowsBusy_of_noRepair hrep]; simp
  have hread := readPieces_inHbm s1 hin
  rw [State.threadRead, hacc]
  dsimp only
  rw [if_neg (by simp [hne]), if_neg (by simp [hbusy]), hbmScans_of_noFlaws hflaws, hread]
  change (if y.todo.isEmpty then State.threadRead.finished va y else .error none, s1.modThread c t fun th => th.putAcc y) = _
  by_cases hy : y.todo = []
  · rw [if_pos hy, if_pos (List.isEmpty_iff.mpr hy)]; rfl
  · rw [if_neg hy, if_neg fun h => hy (List.isEmpty_iff.mp h)]

end Access

/-! ### Traps -/

/-- A trap of a thread's access, where the device has noted things of its memory alone, is taken at the thread's pc. -/
theorem troubleAt_upkept {s u : State} (h : Upkept s u) (c : CtxId) (t : Tid) (k v : Nat) (wr : Bool) :
    u.troubleAt c t ⟨k, v⟩ wr =
      u.takeTrap c t (s.thread c t).pc (BitVec.ofNat 64 (k + if wr then 0x200 else 0)) (BitVec.ofNat 64 v) := by
  rw [State.troubleAt, State.trapAt, h.thread]

section Traps

variable {s s1 : State} {c : CtxId} {t : Tid} {va n align k v : Nat}

theorem withRead_trap (hnew : (s.thread c t).accs = []) (hrep : s.upkeep.repairing = []) (hup : Upkept s s1)
    (hfar : s.farRange c va n align ⟨true, false, false⟩ = (.error ⟨k, v⟩, s1)) (f : List Byte → State → State) :
    s.withRead c t va n align f = s1.takeTrap c t (s.thread c t).pc (BitVec.ofNat 64 k) (BitVec.ofNat 64 v) := by
  rw [State.withRead, State.threadRead, threadAcc_error hnew hrep hfar]
  exact troubleAt_upkept hup c t k v false

theorem withWrite_trap {bs : List Byte} (hnew : (s.thread c t).accs = []) (hrep : s.upkeep.repairing = []) (hup : Upkept s s1)
    (hfar : s.farRange c va bs.length align ⟨false, true, false⟩ = (.error ⟨k, v⟩, s1)) (f : State → State) :
    s.withWrite c t va align bs f = s1.takeTrap c t (s.thread c t).pc (BitVec.ofNat 64 (k + 0x200)) (BitVec.ofNat 64 v) := by
  rw [State.withWrite, State.threadWrite, threadAcc_error hnew hrep hfar]
  exact troubleAt_upkept hup c t k v true

theorem withRmw_trap (hrep : s.upkeep.repairing = []) (hup : Upkept s s1)
    (hfar : s.farRange c va n n ⟨true, true, false⟩ = (.error ⟨k, v⟩, s1)) (op : UOp) (dat cmp : List Byte) (f : List Byte → State → State) :
    s.withRmw c t va n op dat cmp f = s1.takeTrap c t (s.thread c t).pc (BitVec.ofNat 64 (k + 0x200)) (BitVec.ofNat 64 v) := by
  rw [State.withRmw, walkWaits_of_noRepair hrep, hfar]
  exact troubleAt_upkept hup c t k v true

/-- An atomic's turn at one piece of HBM: it traps on poison, and otherwise writes what the operator leaves, if anything. -/
theorem withRmw_piece {pa : Nat} (hrep : s.upkeep.repairing = []) (hsame : SameStore s s1) (hflaws : s.upkeep.flaws = [])
    (hfar : s.farRange c va n n ⟨true, true, false⟩ = (.ok [(pa, n)], s1)) (hin : pa + n ≤ hbmSize) (op : UOp) (dat cmp : List Byte)
    (f : List Byte → State → State) :
    s.withRmw c t va n op dat cmp f =
      if isPoisoned 32 s.hbmPoison pa n then s1.troubleAt c t ⟨9, va⟩ true
      else match rmw op (readBytes s.hbm pa n) dat cmp with
        | some bs => f (readBytes s.hbm pa n) ((s1.dirtyLines pa n).hbmWrite pa (bs.take n))
        | none => f (readBytes s.hbm pa n) s1 := by
  have hread : s1.readPieces [(pa, n)] = (readBytes s.hbm pa n, isPoisoned 32 s.hbmPoison pa n) := by
    rw [readPieces_inHbm s1 (fun v hv => by rw [List.mem_singleton.mp hv]; exact hin), hsame.hbm, hsame.poison]
    simp
  have hbusy : ([(pa, n)].any fun p => s1.rowsBusy p.1 p.2) = false := by
    simp [rowsBusy_of_noRepair (by rw [hsame.upkeep]; exact hrep)]
  rw [State.withRmw, walkWaits_of_noRepair hrep, hfar]
  dsimp only
  rw [if_neg (by simp), hbusy, hbmScans_of_noFlaws (by rw [hsame.upkeep]; exact hflaws), hread]
  rfl

end Traps

/-! ### The instructions at far memory -/

theorem szBytes_pos (z : BitVec 3) : 0 < szBytes z := by revert z; decide

theorem szBytes_le (z : BitVec 3) : szBytes z ≤ 64 := by revert z; decide

section Far

variable {s : State} {c : CtxId} {t : Tid} {o : MForm} (hcur : s.cur = .thread c t) (hsp : spaceOf o.sp = .far)
  (hp : s.threadPending c t = false)

include hcur hsp hp

theorem exec_ld_far : exec (.ld o) s = .next (s.withRead c t (s.readT c t o.a + o.disp.signExtend 64).toNat (szBytes o.sz) 1
    fun bs s1 => s1.finishT c t o.d (BitVec.ofNat 64 (natOfBytes bs))) := by
  change execLd o s = _
  rw [execLd, runMem_thread hcur hp]
  dsimp only
  rw [hsp, if_neg (by decide), s.threadEa_eq]

theorem exec_st_far : exec (.st o) s = .next (s.withWrite c t (s.readT c t o.a + o.disp.signExtend 64).toNat 1
    (bytesOfNat (szBytes o.sz) (s.readT c t o.b).toNat) fun s1 => s1.advance c t) := by
  change execSt o s = _
  rw [execSt, runMem_thread hcur hp]
  dsimp only
  rw [hsp, if_neg (by decide), s.threadEa_eq]
  rfl

theorem exec_atom_far : exec (.atom o) s = .next (s.withRmw c t (s.readT c t o.a + o.disp.signExtend 64).toNat (szBytes o.sz)
    (atomKind o).op (bytesOfNat (szBytes o.sz) (s.readT c t o.b).toNat) [] fun bs s1 =>
      if noReturn o then s1.advance c t else s1.finishT c t o.d (BitVec.ofNat 64 (natOfBytes bs))) := by
  change execAtom o s = _
  rw [execAtom, runMem_thread hcur hp, threadRmw]
  rw [hsp, if_neg (by decide), s.threadEa_eq]
  cases noReturn o <;> rfl

theorem exec_cas_far : exec (.cas o) s = .next (s.withRmw c t (s.readT c t o.a + o.disp.signExtend 64).toNat (szBytes o.sz)
    .cas (bytesOfNat (szBytes o.sz) (s.readT c t o.b).toNat) (bytesOfNat (szBytes o.sz) (s.readT c t o.d).toNat) fun bs s1 =>
      if noReturn o then s1.advance c t else s1.finishT c t o.d (BitVec.ofNat 64 (natOfBytes bs))) := by
  change execCas o s = _
  rw [execCas, runMem_thread hcur hp, threadRmw]
  rw [hsp, if_neg (by decide), s.threadEa_eq]
  cases noReturn o <;> rfl

end Far

/-- Settles O28: each failing check of the range is the trap's cause and address, taken at the pc of the instruction. -/
theorem threadAccessTraps : Obligations.ThreadAccessTraps := by
  intro s c t o hcur hsp hp hrep ea n trapAt trap near rd wr rw'
  have h0 : 0 < n := szBytes_pos o.sz
  have h64 : n ≤ 65536 := (szBytes_le o.sz).trans (by decide)
  have hup {va : Nat} {need : Need} {e : Except Nat Leaf} {z s1 : State} (ht : z.translate (s.dataUnit c) c va need = (e, s1)) :
      Upkept z s1 := by
    have h := upkept_translate z (s.dataUnit c) c va need
    rwa [ht] at h
  have hld {s1 : State} {k v : Nat} (hnew : (s.thread c t).accs = []) (hs : Upkept s s1)
      (hf : s.farRange c ea n 1 rd = (.error ⟨k, v⟩, s1)) : exec (.ld o) s = .next (trapAt s1 k v) := by
    rw [exec_ld_far hcur hsp hp, withRead_trap hnew hrep hs hf]
  have hst {s1 : State} {k k' v : Nat} (hk : k' = k + 0x200) (hnew : (s.thread c t).accs = []) (hs : Upkept s s1)
      (hf : s.farRange c ea n 1 wr = (.error ⟨k, v⟩, s1)) : exec (.st o) s = .next (trapAt s1 k' v) := by
    subst hk
    rw [exec_st_far hcur hsp hp, withWrite_trap hnew hrep hs (by rw [length_bytesOfNat]; exact hf)]
  have hrmw {s1 : State} {k k' v : Nat} (hk : k' = k + 0x200) (hs : Upkept s s1)
      (hf : s.farRange c ea n n rw' = (.error ⟨k, v⟩, s1)) :
      exec (.atom o) s = .next (trapAt s1 k' v) ∧ exec (.cas o) s = .next (trapAt s1 k' v) := by
    subst hk
    rw [exec_atom_far hcur hsp hp, exec_cas_far hcur hsp hp, withRmw_trap hrep hs hf, withRmw_trap hrep hs hf]
    exact ⟨rfl, rfl⟩
  have hone : ea % 1 = 0 := Nat.mod_one ea
  refine ⟨fun hcan => ⟨fun hnew => ⟨hld hnew (.refl s) (farRange_notCanonical hcan), hst rfl hnew (.refl s) (farRange_notCanonical hcan)⟩,
      hrmw rfl (.refl s) (farRange_notCanonical hcan)⟩,
    fun hcan hal => hrmw rfl (.refl s) (farRange_misaligned hcan hal),
    fun e s1 hnew => ⟨fun ⟨hcan, ht⟩ => hld hnew (hup ht) (farRange_first_error hcan hone h0 ht),
      fun ⟨hcan, ht⟩ => hst (by omega) hnew (hup ht) (farRange_first_error hcan hone h0 ht)⟩,
    fun e s1 hal ⟨hcan, ht⟩ => hrmw (by omega) (hup ht) (farRange_first_error hcan hal h0 ht),
    ?twoRegions, fun lf s1 hmt hn => ⟨fun hnew => ⟨fun ⟨hcan, ht⟩ => hld hnew (hup ht) ?ld,
      fun ⟨hcan, ht⟩ => hst rfl hnew (hup ht) ?st⟩,
      fun hal ⟨hcan, ht⟩ => hrmw rfl (hup ht) ?rmw⟩, ?poison, ?bad⟩
  case twoRegions =>
    intro lf s1 e s2 hnew _ hn next
    exact ⟨fun ⟨hcan, ht⟩ ht2 => hld hnew ((hup ht).trans (hup ht2)) (farRange_over_error hcan hone hn h64 ht ht2),
      fun ⟨hcan, ht⟩ ht2 => hst (by omega) hnew ((hup ht).trans (hup ht2)) (farRange_over_error hcan hone hn h64 ht ht2)⟩
  case ld => rw [farRange_near hcan hone h0 hn ht, if_neg hmt]
  case st => rw [farRange_near hcan hone h0 hn ht, if_neg hmt]
  case rmw => rw [farRange_near hcan hal h0 hn ht, if_neg hmt]
  case poison =>
    intro lf s1 hal hn hmt hflaws ⟨hcan, ht⟩ pa hin hbad
    obtain ⟨l, hl⟩ := translate_of_noFlaws hflaws (s.dataUnit c) c ea rw'
    rw [ht] at hl
    have hfar : s.farRange c ea n n ⟨true, true, false⟩ = (.ok [(pa, n)], s1) := by rw [farRange_near hcan hal h0 hn ht, if_pos hmt]
    have hpiece := withRmw_piece (t := t) hrep (.of_tlb (s := s) (u := s1) hl) hflaws hfar hin
    rw [exec_atom_far hcur hsp hp, exec_cas_far hcur hsp hp, hpiece, hpiece, if_pos hbad, if_pos hbad]
    exact ⟨congrArg _ (troubleAt_upkept (hup ht) c t 9 ea true), congrArg _ (troubleAt_upkept (hup ht) c t 9 ea true)⟩
  case bad =>
    intro x s1 hx htodo hflaws us hin hlast hbad
    obtain ⟨hsame, hpc⟩ := threadAccess_frame hx hflaws
    have hread := threadRead_units (threadAcc_of_claim hx hrep) (by rw [hsame.upkeep]; exact hflaws)
      (by rw [hsame.upkeep]; exact hrep) htodo hin
    have hany : (x.bad || us.any fun v => isPoisoned 32 s.hbmPoison v.1 v.2) = true := by
      rw [Bool.or_eq_true, List.any_eq_true]
      exact hbad
    have hy : x.readUnits s.hbm s.hbmPoison us =
        { x with todo := [], got := x.got ++ us.flatMap (fun v => readBytes s.hbm v.1 v.2), bad := true } := by
      rw [ThreadAcc.readUnits, hlast, hany]
    rw [hsame.hbm, hsame.poison, hy] at hread
    rw [exec_ld_far hcur hsp hp, State.withRead, hread]
    change Host.Outcome.next (State.troubleAt _ c t ⟨9, ea⟩ false) = _
    rw [State.troubleAt, State.trapAt, State.thread_modThread_same]
    exact congrArg (fun pc => Host.Outcome.next (State.takeTrap _ c t pc 9 (BitVec.ofNat 64 ea))) hpc

end Sys2Proof.Machine
end

section
/-!
PROOFS. A thread's loads, stores and atomics of far memory, with the bytes that they leave (05 R160, R162, R166, R328, R330).
-/
namespace Sys2Proof.Machine

/-! ### A turn of an access -/

theorem State.modThread_of_eq {s : State} {c : CtxId} {t : Tid} {f : Thread → Thread} (h : f (s.thread c t) = s.thread c t) :
    s.modThread c t f = s := by
  have hctx : (s.ctx c).threads.set t.val (s.thread c t) = (s.ctx c).threads := Vector.set_getElem_self _
  rw [State.modThread, h, State.setThread, State.modCtx, hctx]
  have hall : s.ctxs.set c.val (s.ctx c) = s.ctxs := Vector.set_getElem_self _
  change s.setCtx c (s.ctx c) = s
  rw [State.setCtx, hall]

/-- An access with units left stands, unless it waits already. -/
theorem unitsLeft_eq (s : State) (c : CtxId) (t : Tid) :
    s.unitsLeft c t = s.modThread c t fun th => { th with wait := if th.wait = .none then .stand .units else th.wait } := by
  rw [State.unitsLeft]
  split
  · next h => rw [State.stand, State.modThread, State.modThread, h, if_pos rfl]
  · next h => rw [State.modThread_of_eq]; rw [if_neg h]

theorem State.modThread_modThread (s : State) (c : CtxId) (t : Tid) (f g : Thread → Thread) :
    (s.modThread c t f).modThread c t g = s.modThread c t fun th => g (f th) := by
  rw [State.modThread, State.thread_modThread_same]
  simp [State.modThread, State.setThread, State.modCtx, State.setCtx, State.ctx, Vector.set_set]

/-- What a thread's change leaves of the contexts rests on the contexts. -/
theorem modThread_ctxs_congr {s u : State} (h : u.ctxs = s.ctxs) (c : CtxId) (t : Tid) (f : Thread → Thread) :
    (u.modThread c t f).ctxs = (s.modThread c t f).ctxs := by
  simp only [State.modThread, State.setThread, State.modCtx, State.setCtx, State.thread, State.ctx, h]

theorem threadLoad : Claims.ThreadLoad := by
  intro s s1 c t o x hcur hsp hflaws hrep hp ea n hx htodo us hin bad y s2
  obtain ⟨hsame, -⟩ := threadAccess_frame hx hflaws
  have hread := threadRead_units (threadAcc_of_claim hx hrep) (by rw [hsame.upkeep]; exact hflaws)
    (by rw [hsame.upkeep]; exact hrep) htodo hin
  rw [show x.readUnits s1.hbm s1.hbmPoison (s1.stackEvent 64 x.todo) = y by rw [hsame.hbm, hsame.poison]; rfl] at hread
  have hld := exec_ld_far hcur hsp hp
  rw [State.withRead, hread] at hld
  have hs2 : SameStore s s2 := hsame.modThread c t _
  refine ⟨hs2.hbm, hs2.reqs, stackEvent_ne_nil s1 64 htodo, fun hb => stackEvent_one (by rw [hsame.secure]; exact hb) 64 x.todo,
    fun hdone hgood => ?_, fun hmore => ?_⟩
  · have hbad : y.bad = false := hgood
    rw [hld, if_pos hdone, hbad]
    rfl
  · rw [hld, if_neg hmore]
    exact congrArg _ (unitsLeft_eq s2 c t)

/-- A turn of a write puts the next units at their places; with the last one it is done. -/
theorem threadWrite_units {s s1 : State} {c : CtxId} {t : Tid} {va align : Nat} {bs : List Byte} {x : ThreadAcc}
    (hacc : s.threadAcc c t va bs.length align true = (.ok x, s1)) (hrep : s1.upkeep.repairing = []) (htodo : x.todo ≠ []) :
    let us := s1.stackEvent 64 x.todo
    let y := { x with todo := x.todo.drop us.length }
    ∃ d, s.threadWrite c t va align bs = (if y.todo = [] then .ok () else .error none,
      (({ s1 with dir := d } : State).writePieces us (bs.drop (bs.length - (x.todo.map Prod.snd).sum))).modThread c t
        fun th => th.putAcc y) := by
  intro us y
  obtain ⟨d, hd⟩ := dirtyLines_foldl us s1
  have hne : us.isEmpty = false := List.isEmpty_eq_false_iff.mpr (stackEvent_ne_nil s1 64 htodo)
  have hbusy : (us.any fun u => s1.rowsBusy u.1 u.2) = false := by
    rw [List.any_eq_false]
    exact fun u _ => by rw [rowsBusy_of_noRepair hrep]; simp
  refine ⟨d, ?_⟩
  rw [State.threadWrite, hacc]
  dsimp only
  rw [if_neg (by simp [us, hne]), if_neg (by simp [us, hbusy]), hd]
  by_cases hy : y.todo = []
  · rw [if_pos hy, if_pos (List.isEmpty_iff.mpr hy)]
  · rw [if_neg hy, if_neg fun h => hy (List.isEmpty_iff.mp h)]

theorem threadStore : Claims.ThreadStore := by
  intro s s1 c t o x hcur hsp hflaws hrep hm hp ea n hx htodo us done y hsum hin
  obtain ⟨hsame, -⟩ := threadAccess_frame hx hflaws
  have hlen : (bytesOfNat n (s.readT c t o.b).toNat).length = n := length_bytesOfNat ..
  obtain ⟨d, hwrite⟩ := threadWrite_units (bs := bytesOfNat n (s.readT c t o.b).toNat)
    (by rw [hlen]; exact threadAcc_of_claim hx hrep) (by rw [hsame.upkeep]; exact hrep) htodo
  rw [hlen] at hwrite
  let bs := (bytesOfNat n (s.readT c t o.b).toNat).drop done
  let w := ({ s1 with dir := d } : State).writePieces us bs
  let f (th : Thread) : Thread := if y.todo = [] then (th.putAcc y).advance
    else { th.putAcc y with wait := if (th.putAcc y).wait = .none then .stand .units else (th.putAcc y).wait }
  have hlast (hy : y.todo = []) : f = fun th => (th.putAcc y).advance := funext fun th => if_pos hy
  have hmore (hy : y.todo ≠ []) : f = fun th =>
    { th.putAcc y with wait := if (th.putAcc y).wait = .none then .stand .units else (th.putAcc y).wait } := funext fun th => if_neg hy
  replace hwrite : s.threadWrite c t ea 1 (bytesOfNat n (s.readT c t o.b).toNat) =
    (if y.todo = [] then .ok () else .error none, w.modThread c t fun th => th.putAcc y) := hwrite
  have hst : exec (.st o) s = .next (w.modThread c t f) := by
    rw [exec_st_far hcur hsp hp, State.withWrite, hwrite]
    by_cases hy : y.todo = []
    · rw [if_pos hy, hlast hy]
      exact congrArg _ (State.modThread_modThread w c t _ _)
    · rw [if_neg hy, hmore hy]
      exact congrArg _ ((unitsLeft_eq ..).trans (State.modThread_modThread w c t _ _))
  obtain ⟨hctxs, hhost, hpeer, hreqs⟩ := writePieces_fields us bs { s1 with dir := d }
  replace hctxs : w.ctxs = s1.ctxs := hctxs
  have hm1 : memWf ({ s1 with dir := d } : State).hbm = true := (congrArg memWf hsame.hbm).trans hm
  refine ⟨_, hst, stackEvent_ne_nil s1 64 htodo, fun hb => stackEvent_one (by rw [hsame.secure]; exact hb) 64 x.todo,
    fun pre v post hus hpost i hi => ?_, fun a ha => ?_, fun hy => ?_, fun hy => ?_, hhost.trans hsame.hostMem,
    hpeer.trans hsame.peerMem, hreqs.trans hsame.reqs⟩
  · have hfit : (pre.map Prod.snd).sum + v.2 ≤ bs.length := by
      obtain ⟨rest, hrest⟩ := stackEvent_prefix s1 64 x.todo
      have hsplit : x.todo = pre ++ v :: post ++ rest := by rw [← hus]; exact hrest.symm
      have hall : (x.todo.map Prod.snd).sum = (pre.map Prod.snd).sum + v.2 + (post.map Prod.snd).sum + (rest.map Prod.snd).sum := by
        rw [hsplit]
        simp only [List.map_append, List.map_cons, List.sum_append, List.sum_cons]
        omega
      have hbs : bs.length = n - done := by rw [List.length_drop, hlen]
      omega
    have hwrote := readByte_writePieces_same (bs := bs) hm1 (hin v (by rw [hus]; simp)) hpost hi hfit
    rw [← hus, List.getElem_drop, getElem_bytesOfNat_toNat] at hwrote
    rw [Nat.add_assoc]
    exact hwrote
  · exact (readByte_writePieces_other hm1 ha).trans (congrArg (readByte · a) hsame.hbm)
  · rw [State.advance, State.modThread_modThread, modThread_ctxs_congr hctxs, hlast hy]
  · rw [modThread_ctxs_congr hctxs, hmore hy]
    rfl

/-- A string written at a range of HBM stands there, alone. -/
theorem hbmWrite_range {s : State} (hm : memWf s.hbm = true) {pa : Nat} {bs : List Byte} (hin : pa + bs.length ≤ hbmSize) :
    readBytes (s.hbmWrite pa bs).hbm pa bs.length = bs ∧
      (∀ a, a < pa ∨ pa + bs.length ≤ a → readByte (s.hbmWrite pa bs).hbm a = readByte s.hbm a) ∧ (s.hbmWrite pa bs).ctxs = s.ctxs := by
  refine ⟨readBytes_eq fun i hi => readByte_hbmWrite_same hm hin hi, fun a ha => readByte_hbmWrite_other s pa a bs hm ha, ?_⟩
  rw [State.hbmWrite, if_pos hin]

theorem threadAtomics : Claims.ThreadAtomics := by
  intro s s1 c t o lf hcur hsp hflaws hrep hm ea n hn hp hcan hal ht hmt pa hin hgood old v
  have hfit : ea % 65536 + n ≤ 65536 := by
    rcases hn with h | h <;>
    · rw [h] at hal ⊢
      omega
  have h0 : 0 < n := by omega
  obtain ⟨l, hl⟩ := translate_of_noFlaws hflaws (s.dataUnit c) c ea ⟨true, true, false⟩
  rw [ht] at hl
  have hsame : SameStore s s1 := .of_tlb hl
  have hm1 : memWf (s1.dirtyLines pa n).hbm = true := (congrArg memWf hsame.hbm).trans hm
  have hfar : s.farRange c ea n n ⟨true, true, false⟩ = (.ok [(pa, n)], s1) := by rw [farRange_near hcan hal h0 hfit ht, if_pos hmt]
  have hpiece (op : UOp) (dat cmp : List Byte) (f : List Byte → State → State) :
      s.withRmw c t ea n op dat cmp f = match rmw op old dat cmp with
        | some bs => f old ((s1.dirtyLines pa n).hbmWrite pa (bs.take n))
        | none => f old s1 := by
    rw [withRmw_piece hrep hsame hflaws hfar hin, hgood]
    rfl
  have hwritten {bs : List Byte} (hbs : bs.length = n) : let u := (s1.dirtyLines pa n).hbmWrite pa (bs.take n)
      readBytes u.hbm pa n = bs ∧ (∀ a, a < pa ∨ pa + n ≤ a → readByte u.hbm a = readByte s.hbm a) ∧ u.ctxs = s1.ctxs := by
    obtain ⟨hread, hother, hctxs⟩ := hbmWrite_range hm1 (bs := bs) (by rw [hbs]; exact hin)
    rw [hbs] at hread hother
    rw [List.take_of_length_le hbs.le]
    exact ⟨hread, fun a ha => (hother a ha).trans (congrArg (readByte · a) hsame.hbm), hctxs⟩
  have hfinish {z : State} (hz : z.ctxs = s1.ctxs) : (z.finishT c t o.d (BitVec.ofNat 64 (natOfBytes old))).ctxs =
      (s1.finishT c t o.d (BitVec.ofNat 64 (natOfBytes old))).ctxs := modThread_ctxs_congr hz c t _
  have hold : old.length = n := length_readBytes ..
  let dat := bytesOfNat n (s.readT c t o.b).toNat
  have hdat : dat.length = n := length_bytesOfNat ..
  refine ⟨?_, fun hret => ?_⟩
  · let new := bytesOfNat n (atomInt o.aop (8 * n) (natOfBytes old) v)
    have hop : (atomKind o).op = .atomI o.aop n := by
      change UOp.atomI o.aop (if n = 8 then 8 else 4) = _
      rcases hn with h | h <;> rw [h] <;> rfl
    have hrmw : rmw (atomKind o).op old dat [] = some new := by
      rw [hop]
      change some (byWords n (atomInt o.aop (8 * n)) old.length old dat) = _
      rw [byWords_one _ h0 hold hdat, natOfBytes_bytesOfNat]
    obtain ⟨hread, hother, hctxs⟩ := hwritten (bs := new) (length_bytesOfNat ..)
    refine ⟨_, by rw [exec_atom_far hcur hsp hp, hpiece, hrmw], ?_⟩
    dsimp only
    rw [noReturn]
    cases o.mod.getLsbD 3
    · exact ⟨hread, hother, hfinish hctxs⟩
    · exact ⟨hread, hother, modThread_ctxs_congr hctxs c t _⟩
  · have hcas := exec_cas_far hcur hsp hp
    rw [hpiece, rmw] at hcas
    by_cases heq : old = bytesOfNat n (s.readT c t o.d).toNat
    · obtain ⟨hread, hother, hctxs⟩ := hwritten hdat
      rw [if_pos heq, noReturn, hret] at hcas
      rw [if_pos heq]
      exact ⟨_, hcas, hread, hother, hfinish hctxs⟩
    · rw [if_neg heq, noReturn, hret] at hcas
      rw [if_neg heq]
      exact ⟨_, hcas, congrArg (readBytes · pa n) hsame.hbm, fun a _ => congrArg (readByte · a) hsame.hbm, rfl⟩

/-- Settles O27: a turn of an access reads or writes its next units, an atomic its one piece, and a range is a piece in each of its
regions. -/
theorem threadMemory : Obligations.ThreadMemory := ⟨threadLoad, threadStore, threadAtomics, threadRange⟩

end Sys2Proof.Machine
end

section
/-!
PROOFS. A station's accesses: what reading their operands changes, the order of scattered elements, and what follows the checks (05
R152 to R161, R330).
-/
namespace Sys2Proof.Machine

/-! ### Operands -/

/-- A run after operands of its instruction are read: the LFSR and the count of free values may have moved. -/
def Run.ReadsTo (r r' : Run) : Prop := ∃ k l, r' = { r with f := { r.f with lfsr := l }, free := k }

theorem Run.ReadsTo.trans {r r' r'' : Run} (h : r.ReadsTo r') (h' : r'.ReadsTo r'') : r.ReadsTo r'' := by
  obtain ⟨k, l, rfl⟩ := h
  obtain ⟨k', l', rfl⟩ := h'
  exact ⟨k', l', rfl⟩

theorem Run.readsTo_base (r : Run) (o : MForm) : r.ReadsTo (r.base o).2 := r.base_snd o

theorem Run.readsTo_words (r : Run) (sp : Spec) (g : Nat) : r.ReadsTo (r.words sp g).2 := r.readAll_snd [(⟨sp, 32, g, g, false⟩, none)]

theorem Run.readsTo_pair (r : Run) (sp : Spec) : r.ReadsTo (r.pair sp).2 := by
  unfold Run.pair Run.fWords
  dsimp only
  split_ifs <;> exact ⟨_, r.f.lfsr, rfl⟩

theorem Run.readsTo_memWords (r : Run) (o : MForm) (k : AccessKind) (sp : Spec) : r.ReadsTo (r.memWords o k sp).2 := by
  unfold Run.memWords
  split
  · exact r.readsTo_pair sp
  · exact r.readsTo_words sp _

/-- The data operand of an access that is no read-modify-write is a group of words. -/
theorem Run.memWords_of_not_rmw (r : Run) (o : MForm) {k : AccessKind} (h : k.rmw = false) (sp : Spec) :
    r.memWords o k sp = r.words sp (szWords o.sz) := by
  rw [Run.memWords, h]
  rfl

theorem bytesOfWords_nil (n : Nat) : bytesOfWords [] n = [] := List.take_nil

/-! ### The order of scattered elements (R161, R330) -/

theorem takeFrees_snd (s : State) (n : Nat) : ∃ k, (s.takeFrees n).2 = { s with free := k } ∧ (s.takeFrees n).1.length = n := by
  induction n generalizing s with
  | zero => exact ⟨s.free, rfl, rfl⟩
  | succ n ih =>
    obtain ⟨k, hk, hlen⟩ := ih s.takeFree.2
    exact ⟨k, hk, congrArg (· + 1) hlen⟩

/-- An order that free values choose has each place once. -/
theorem shuffle_perm (ws : List Word) : (shuffle ws).Perm (List.range ws.length) := by
  have hstep (f : Nat → List Nat → Nat) (l acc : List Nat) :
      (l.foldl (fun acc i => acc.take (f i acc) ++ i :: acc.drop (f i acc)) acc).Perm (acc ++ l) := by
    induction l generalizing acc with
    | nil => simp
    | cons i l ih =>
      have hput : (acc.take (f i acc) ++ i :: acc.drop (f i acc)).Perm (i :: acc) := by
        simpa using List.perm_middle (a := i) (l₁ := acc.take (f i acc)) (l₂ := acc.drop (f i acc))
      exact (ih _).trans ((hput.append_right l).trans List.perm_middle.symm)
  exact hstep (fun i acc => (ws.getD i 0).toNat % (acc.length + 1)) (List.range ws.length) []

theorem filterMap_getElem?_range {α : Type} (us : List α) : (List.range us.length).filterMap (us[·]?) = us := by
  have hmap : (List.range us.length).map (us[·]?) = us.map some := List.ext_getElem (by simp) fun i h _ => by simp
  calc (List.range us.length).filterMap (us[·]?) = ((List.range us.length).map (us[·]?)).filterMap id := by rw [List.filterMap_map]; rfl
    _ = (us.map some).filterMap id := by rw [hmap]
    _ = us := by rw [List.filterMap_map]; exact List.filterMap_some

/-- The elements of an access in an order of all its places. -/
theorem mixed_perm {α : Type} {us : List α} {perm : List Nat} (h : perm.Perm (List.range us.length)) :
    (perm.filterMap (us[·]?)).Perm us := by
  have := h.filterMap (us[·]?)
  rwa [filterMap_getElem?_range] at this

/-- The address of a unit, with its node. -/
def MUnit.spot (u : MUnit) : Node × Nat := (u.node, u.addr)

theorem MUnit.spot_beq (u v : MUnit) : (v.node == u.node && v.addr == u.addr) = (v.spot == u.spot) := rfl

/-- Units of the same addresses as others, put in that order, are those units, and those of one address keep theirs. -/
theorem reseat_spec {us left : List MUnit} (h : (us.map MUnit.spot).Perm (left.map MUnit.spot)) :
    (reseat us left).Perm left ∧ ∀ k, (reseat us left).filter (fun v => v.spot == k) = left.filter fun v => v.spot == k := by
  induction us generalizing left with
  | nil =>
    have hleft : left = [] := by simpa using h
    subst hleft
    exact ⟨.refl _, fun _ => rfl⟩
  | cons u us ih =>
    have hmem : u.spot ∈ left.map MUnit.spot := h.subset (List.mem_map_of_mem List.mem_cons_self)
    obtain ⟨w, hw, hspot⟩ := List.mem_map.mp hmem
    obtain ⟨v, a, b, hnone, hv, hleft, herase⟩ := List.exists_of_eraseP (p := fun v : MUnit => v.spot == u.spot) hw (by simp [hspot])
    have hfind : left.find? (fun v : MUnit => v.spot == u.spot) = some v := by
      rw [hleft, List.find?_append, List.find?_eq_none.mpr (by simpa using hnone), Option.none_or,
        List.find?_cons_of_pos (p := fun v : MUnit => v.spot == u.spot) hv]
    have hrest : (us.map MUnit.spot).Perm ((left.eraseP fun v : MUnit => v.spot == u.spot).map MUnit.spot) := by
      have hl : (left.map MUnit.spot).Perm (u.spot :: (a ++ b).map MUnit.spot) := by
        rw [hleft, List.map_append, List.map_cons, List.map_append, beq_iff_eq.mp hv]
        exact List.perm_middle
      rw [herase]
      exact List.perm_cons u.spot |>.mp (h.trans hl)
    obtain ⟨hperm, hfilter⟩ := ih hrest
    have heq : reseat (u :: us) left = v :: reseat us (a ++ b) := by
      rw [reseat]
      simp only [MUnit.spot_beq, hfind, herase, Option.getD_some]
    rw [herase] at hperm hfilter
    refine ⟨?_, fun k => ?_⟩
    · rw [heq, hleft]
      exact (hperm.cons v).trans List.perm_middle.symm
    · rw [heq, hleft, List.filter_cons, hfilter, List.filter_append, List.filter_append, List.filter_cons]
      split
      · next hk =>
        have hnil : a.filter (fun v => v.spot == k) = [] := by
          rw [List.filter_eq_nil_iff]
          intro w hw hwk
          exact hnone w hw (by rw [beq_iff_eq.mp hwk, ← beq_iff_eq.mp hk]; exact hv)
        rw [hnil]
        rfl
      · rfl

/-! ### Granules (R171) -/

theorem mem_insertN {g x : Nat} {l : List Nat} : g ∈ insertN x l ↔ g = x ∨ g ∈ l := by
  induction l with
  | nil => simp [insertN]
  | cons y l ih =>
    rw [insertN]
    split
    · simp
    · split
      · next h => simp [h]
      · rw [List.mem_cons, ih, List.mem_cons]
        tauto

theorem mem_unitGranules {g : Nat} {us : List MUnit} : g ∈ unitGranules us ↔ g ∈ us.flatMap unitGranule := by
  have hfold (l acc : List Nat) : g ∈ l.foldl (fun a g => insertN g a) acc ↔ g ∈ acc ∨ g ∈ l := by
    induction l generalizing acc with
    | nil => simp
    | cons x l ih =>
      rw [List.foldl_cons, ih, mem_insertN, List.mem_cons]
      tauto
  rw [unitGranules, addGranules, hfold]
  simp

/-- Whether tokens hold an access back rests on which units it has, not on their order. -/
theorem tokBlocks_perm {us vs : List MUnit} (h : vs.Perm us) (st : Station) (x : Nat) (qs : List (Fin 16)) :
    st.tokBlocks x qs (unitGranules vs) = st.tokBlocks x qs (unitGranules us) := by
  have hany (as : List Nat) : ((unitGranules vs).any fun g => as.contains g) = (unitGranules us).any fun g => as.contains g := by
    rw [Bool.eq_iff_iff, List.any_eq_true, List.any_eq_true]
    simp only [mem_unitGranules, (h.flatMap_right unitGranule).mem_iff]
  unfold Station.tokBlocks
  simp only [hany]

end Sys2Proof.Machine
end

section
/-!
PROOFS. A station's loads, stores and atomics where their checks pass (05 R152 to R168).
-/
namespace Sys2Proof.Machine

/-! ### What follows the checks -/

/-- In a station a memory instruction is its effect there. -/
theorem runMem_station {s : State} {p : Place} {f : Frame} (hcur : s.cur = .station p f) (ft : CtxId → Tid → State)
    (fs : Place → Frame → State) : runMem s ft fs = .next (fs p f) := by
  rw [runMem, hcur]

section Station

variable {s : State} {p : Place} {f : Frame} (o : MForm) (hcur : s.cur = .station p f)
include hcur

theorem exec_ld_station : exec (.ld o) s = .next (stationAccess o loadKind false false s p f) :=
  (runMem_station hcur _ _ : execLd o s = _)

theorem exec_ldp_station : exec (.ldp o) s = .next (stationAccess o ⟨.ldp, .ldp, szBytes o.sz, false, false⟩ false false s p f) :=
  (runMem_station hcur _ _ : execLdp o s = _)

theorem exec_ldx_station : exec (.ldx o) s = .next (stationGather o { loadKind with align := 4 } s p f) :=
  (runMem_station hcur _ _ : execLdx o s = _)

theorem exec_st_station : exec (.st o) s = .next (stationAccess o storeKind true false s p f) :=
  (runMem_station hcur _ _ : execSt o s = _)

theorem exec_stx_station : exec (.stx o) s = .next (stationGather o { storeKind with align := 4 } s p f) :=
  (runMem_station hcur _ _ : execStx o s = _)

theorem exec_atom_station : exec (.atom o) s = .next (stationAccess o (atomKind o) true false s p f) :=
  (runMem_station hcur _ _ : execAtom o s = _)

theorem exec_atomf_station : exec (.atomf o) s = .next (stationAccess o (atomfKind o) true false s p f) :=
  (runMem_station hcur _ _ : execAtomf o s = _)

theorem exec_cas_station : exec (.cas o) s = .next (stationAccess o (casKind o) true true s p f) :=
  (runMem_station hcur _ _ : execCas o s = _)

theorem exec_stp_station : exec (.stp o) s = .next (stationAccess o ⟨.stp, .claim, szBytes o.sz, true, false⟩ true false s p f) :=
  (runMem_station hcur _ _ : execStp o s = _)

end Station

/-- What a station's access is once its checks pass. -/
def State.makeAccess (s : State) (p : Place) (fr f : Frame) (o : MForm) (k : AccessKind) (us : List MUnit) (vas : List VaRef) : State :=
  match k.role, k.wr with
  | .store, _ => s.bufferStore p f o us vas
  | .rmw, _ | .stp, _ => s.issueAtomic p fr f o k us vas
  | _, _ => s.issueLoad p fr f o k us vas

section Operands

variable {s : State} {p : Place} {x : Lay} {f : Frame} {o : MForm} {k : AccessKind} {base : Nat} {bw dw : List Word}
  {r1 r2 r3 : Run} {us : List MUnit} {vas : List VaRef}
  (hlay : s.lay? p.ctx p.slot = some x) (hbase : (s.run p f).base o = (base, r1))

include hlay hbase

/-- A station's access reads its base and its data operands, faults on a poison record, and is checked. -/
theorem stationAccess_eq {useB useD : Bool} (hb : (if useB then r1.memWords o k o.b else ([], r1)) = (bw, r2))
    (hd : (if useD then r2.memWords o k o.d else ([], r2)) = (dw, r3)) :
    stationAccess o k useB useD s p f =
      if poisonStore k f then { s with free := r3.free }.faultExec p r3.f 9 0 true
      else { s with free := r3.free }.afterCheck p f r3.f o k
        ({ s with free := r3.free }.checkAccess p x o k [(effAddr o base 0, szBytes o.sz)] (bytesOfWords bw (szBytes o.sz))
          (bytesOfWords dw (szBytes o.sz))) ({ s with free := r3.free }.makeAccess p f r3.f o k) := by
  rw [stationAccess, hlay]
  dsimp only
  rw [hbase]
  dsimp only
  rw [hb]
  dsimp only
  rw [hd]
  rfl

theorem stationAccess_ok {useB useD : Bool} (hb : (if useB then r1.memWords o k o.b else ([], r1)) = (bw, r2))
    (hd : (if useD then r2.memWords o k o.d else ([], r2)) = (dw, r3)) (hclean : poisonStore k f = false)
    (hck : { s with free := r3.free }.checkAccess p x o k [(effAddr o base 0, szBytes o.sz)] (bytesOfWords bw (szBytes o.sz))
      (bytesOfWords dw (szBytes o.sz)) = .ok us vas) :
    stationAccess o k useB useD s p f = { s with free := r3.free }.makeAccess p f r3.f o k us vas := by
  rw [stationAccess_eq hlay hbase hb hd, hclean, hck]
  rfl

theorem stationAccess_poison {useB useD : Bool} (hb : (if useB then r1.memWords o k o.b else ([], r1)) = (bw, r2))
    (hd : (if useD then r2.memWords o k o.d else ([], r2)) = (dw, r3)) (hbad : poisonStore k f = true) :
    stationAccess o k useB useD s p f = { s with free := r3.free }.faultExec p r3.f 9 0 true := by
  rw [stationAccess_eq hlay hbase hb hd, if_pos hbad]

/-- A station's gather or scatter reads its base, its indices and its data, faults on a poison record, and is checked; its units
then go in an order that free values choose. -/
theorem stationGather_eq (hix : r1.words o.b (szWords o.sz) = (bw, r2))
    (hd : (if k.wr then r2.words o.d (szWords o.sz) else ([], r2)) = (dw, r3)) :
    stationGather o k s p f =
      if poisonStore k f then { s with free := r3.free }.faultExec p r3.f 9 0 true
      else { s with free := r3.free }.afterCheck p f r3.f o k
        ({ s with free := r3.free }.checkAccess p x o k (bw.map fun (w : Word) => (effAddr o base (4 * w.toInt), 4))
          (bytesOfWords dw (4 * szWords o.sz)) [])
        fun us vas =>
          let (ws, s2) := if us.length ≤ 1 then ([0], { s with free := r3.free }) else ({ s with free := r3.free } : State).takeFrees us.length
          if k.wr then s2.bufferStore p r3.f o (reseat ((shuffle ws).filterMap fun i => us[i]?) us) vas
          else s2.issueLoad p f r3.f o k ((shuffle ws).filterMap fun i => us[i]?) vas (shuffle ws) := by
  rw [stationGather, hlay]
  dsimp only
  rw [hbase]
  dsimp only
  rw [hix]
  dsimp only
  rw [hd]

theorem stationGather_poison (hix : r1.words o.b (szWords o.sz) = (bw, r2))
    (hd : (if k.wr then r2.words o.d (szWords o.sz) else ([], r2)) = (dw, r3)) (hbad : poisonStore k f = true) :
    stationGather o k s p f = { s with free := r3.free }.faultExec p r3.f 9 0 true := by
  rw [stationGather_eq hlay hbase hix hd, if_pos hbad]

/-- Where the checks of a gather or scatter pass, it goes on with its units in an order of all their places. -/
theorem stationGather_ok (hix : r1.words o.b (szWords o.sz) = (bw, r2))
    (hd : (if k.wr then r2.words o.d (szWords o.sz) else ([], r2)) = (dw, r3)) (hclean : poisonStore k f = false)
    (hck : { s with free := r3.free }.checkAccess p x o k (bw.map fun (w : Word) => (effAddr o base (4 * w.toInt), 4))
      (bytesOfWords dw (4 * szWords o.sz)) [] = .ok us vas) :
    ∃ (n : Nat) (perm : List Nat), (perm.filterMap fun i => us[i]?).Perm us ∧ stationGather o k s p f =
      if k.wr then { s with free := n }.bufferStore p r3.f o (reseat (perm.filterMap fun i => us[i]?) us) vas
      else { s with free := n }.issueLoad p f r3.f o k (perm.filterMap fun i => us[i]?) vas perm := by
  rw [stationGather_eq hlay hbase hix hd, hclean, hck, if_neg (by simp), State.afterCheck]
  dsimp only
  by_cases hlen : us.length ≤ 1
  · rw [if_pos hlen]
    refine ⟨r3.free, shuffle [0], ?_, rfl⟩
    have hone : shuffle [0] = [0] := by decide
    rw [hone]
    match us, hlen with
    | [], _ => exact .refl _
    | [u], _ => exact .refl _
  · rw [if_neg hlen]
    obtain ⟨n, hn, hws⟩ := takeFrees_snd { s with free := r3.free } us.length
    have hperm := shuffle_perm ({ s with free := r3.free }.takeFrees us.length).1
    rw [hws] at hperm
    exact ⟨n, _, mixed_perm hperm, by rw [hn]⟩

end Operands

/-! ### Loads -/

/-- The request of a load. -/
def loadReq (s : State) (p : Place) (f : Frame) (o : MForm) (k : AccessKind) (us : List MUnit) (vas : List VaRef) (perm : List Nat) : Req :=
  { newReq s p f.id k (spaceOf o.sp == .portal) false us vas with
    after := s.mustFollow f.r.past false false (us.any (fun u => u.node == .host) || (strongSem o && o.scope == 4)) us,
    fwd := forwarded us f.stores, perm := perm, relaxed := semOf o == 0 }

theorem issueLoad_parks {s : State} {p : Place} {st : Station} {fr f : Frame} {o : MForm} {us : List MUnit}
    (hst : s.station? p = some st) (hpark : st.parkFree = true) (htok : st.tokBlocks f.id f.waits (unitGranules us) = false)
    (k : AccessKind) (vas : List VaRef) (perm : List Nat) :
    s.issueLoad p fr f o k us vas perm = s.parkOn p (f.touch us) (loadReq s p f o k us vas perm) := by
  have hheld : s.tokHeld p f us = false := by rw [State.tokHeld, hst]; exact htok
  rw [State.issueLoad, hst]
  dsimp only
  rw [hpark, hheld]
  rfl

theorem stationLoads : Claims.StationLoads := by
  intro s p x st f o us vas hcur hlay hst hpark htok n
  generalize hbase : (s.run p f).base o = b
  obtain ⟨base, r1⟩ := b
  dsimp -zeta only
  intro parks
  obtain ⟨k1, l1, hr1⟩ : (s.run p f).ReadsTo r1 := by have h := (s.run p f).readsTo_base o; rwa [hbase] at h
  have hst1 (m : Nat) : ({ s with free := m } : State).station? p = some st := (State.station?_free ..).trans hst
  have htok1 : st.tokBlocks r1.f.id r1.f.waits (unitGranules us) = false := by rw [hr1]; exact htok
  have hload {i : Instr} {k : AccessKind} (hwr : k.wr = false) (hi : exec i s = .next (stationAccess o k false false s p f))
      (hmake : ∀ z : State, z.makeAccess p f r1.f o k us vas = z.issueLoad p f r1.f o k us vas)
      (hck : { s with free := r1.free }.checkAccess p x o k [(effAddr o base 0, n)] [] [] = .ok us vas) : parks r1 i k.op := by
    have hclean : poisonStore k f = false := by rw [poisonStore, hwr]; rfl
    have hrun := stationAccess_ok (k := k) (useB := false) (useD := false) (us := us) (vas := vas) hlay hbase rfl rfl hclean
      (by rw [bytesOfWords_nil]; exact hck)
    rw [hmake, issueLoad_parks (hst1 _) hpark htok1] at hrun
    rw [hrun] at hi
    refine ⟨_, loadReq { s with free := r1.free } p r1.f o k us vas [], hi, rfl, rfl, rfl, rfl, rfl, ?_, rfl, rfl, rfl, rfl, rfl⟩
    rw [hr1]
    rfl
  refine ⟨hload rfl (exec_ld_station o hcur) fun _ => rfl, hload rfl (exec_ldp_station o hcur) fun _ => rfl, ?_⟩
  · generalize hix : r1.words o.b (szWords o.sz) = w
    obtain ⟨ix, r2⟩ := w
    intro hck
    obtain ⟨k2, l2, hr2⟩ : (s.run p f).ReadsTo r2 := by
      have h := r1.readsTo_words o.b (szWords o.sz)
      rw [hix] at h
      exact .trans ⟨k1, l1, hr1⟩ h
    have htok2 {vs : List MUnit} (hv : vs.Perm us) : st.tokBlocks r2.f.id r2.f.waits (unitGranules vs) = false := by
      rw [tokBlocks_perm hv, hr2]
      exact htok
    obtain ⟨m, perm, hperm, hrun⟩ := stationGather_ok (k := { loadKind with align := 4 }) (us := us) (vas := vas) hlay hbase hix rfl rfl
      (by rw [bytesOfWords_nil]; exact hck)
    rw [if_neg (by decide), issueLoad_parks (hst1 _) hpark (htok2 hperm)] at hrun
    have hi := exec_ldx_station o hcur
    rw [hrun] at hi
    refine ⟨_, loadReq { s with free := m } p r2.f o { loadKind with align := 4 } (perm.filterMap fun i => us[i]?) vas perm, hi, rfl, rfl,
      rfl, hperm, rfl, rfl, ?_, rfl, rfl, rfl, rfl, _, rfl, rfl, rfl, rfl, rfl, ?_⟩ <;> rw [hr2] <;> rfl

/-! ### Stores -/

theorem stationStores : Claims.StationStores := by
  intro s p x f o us vas hcur hlay n g
  generalize hbase : (s.run p f).base o = b
  obtain ⟨base, r1⟩ := b
  dsimp -zeta only
  generalize hws : r1.words o.b g = w
  obtain ⟨ws, r2⟩ := w
  dsimp -zeta only
  generalize hdw : r2.words o.d g = d
  obtain ⟨dw, r3⟩ := d
  dsimp -zeta only
  generalize hba : r1.memWords o (atomKind o) o.b = a
  obtain ⟨ba, ra⟩ := a
  dsimp -zeta only
  generalize hbc : ra.memWords o (casKind o) o.d = e
  obtain ⟨bc, rc⟩ := e
  dsimp -zeta only
  intro posted faults next buffers
  have hr1 : (s.run p f).ReadsTo r1 := by have h := (s.run p f).readsTo_base o; rwa [hbase] at h
  have hr2 : (s.run p f).ReadsTo r2 := by have h := r1.readsTo_words o.b g; rw [hws] at h; exact hr1.trans h
  have hr3 : (s.run p f).ReadsTo r3 := by have h := r2.readsTo_words o.d g; rw [hdw] at h; exact hr2.trans h
  have hword {k : AccessKind} (hk : k.rmw = false) : (if true then r1.memWords o k o.b else ([], r1)) = (ws, r2) := by
    rw [if_pos rfl, r1.memWords_of_not_rmw o hk o.b]
    exact hws
  refine ⟨fun hclean hck => ?_, fun hclean hck => ?_, fun hbad => ?_⟩
  · have hrun := stationAccess_ok (k := storeKind) (useB := true) (useD := false) hlay hbase (hword rfl) rfl hclean
      (by rw [bytesOfWords_nil]; exact hck)
    have hst := exec_st_station o hcur
    rw [hrun] at hst
    obtain ⟨k2, l2, rfl⟩ := hr2
    exact ⟨_, hst, rfl, rfl, rfl⟩
  · obtain ⟨m, perm, hperm, hrun⟩ := stationGather_ok (k := { storeKind with align := 4 }) hlay hbase hws hdw hclean hck
    obtain ⟨hseat, hfilter⟩ := reseat_spec (hperm.map MUnit.spot)
    have hstx := exec_stx_station o hcur
    rw [hrun, if_pos (by decide)] at hstx
    obtain ⟨k3, l3, rfl⟩ := hr3
    exact ⟨_, _, _, hstx, rfl, rfl, rfl, rfl, rfl, rfl, hseat, rfl, rfl, fun nd a => hfilter (nd, a), rfl, rfl, rfl⟩
  · have hpois {k : AccessKind} (hk : k.wr = true) : poisonStore k f = true := by rw [poisonStore, hk, hbad]; rfl
    refine ⟨?_, ?_, ?_, ?_, ?_, ?_⟩
    · exact (exec_st_station o hcur).trans (congrArg _ (stationAccess_poison hlay hbase (hword rfl) rfl (hpois rfl)))
    · exact (exec_stx_station o hcur).trans (congrArg _ (stationGather_poison hlay hbase hws hdw (hpois rfl)))
    · exact (exec_atom_station o hcur).trans (congrArg _ (stationAccess_poison hlay hbase hba rfl (hpois rfl)))
    · exact (exec_atomf_station o hcur).trans (congrArg _ (stationAccess_poison hlay hbase hba rfl (hpois rfl)))
    · exact (exec_cas_station o hcur).trans (congrArg _ (stationAccess_poison hlay hbase hba hbc (hpois rfl)))
    · exact (exec_stp_station o hcur).trans (congrArg _ (stationAccess_poison hlay hbase (hword rfl) rfl (hpois rfl)))

end Sys2Proof.Machine
end

section
/-!
PROOFS. The atomics of a station, and the claim of stp (05 R159, R162 to R168): the buffered stores go out first, and the access
after them.
-/
namespace Sys2Proof.Machine

/-- The request of an atomic or of a claim, which follows the execution's numbered accesses perf. -/
def atomReq (s : State) (p : Place) (f : Frame) (o : MForm) (k : AccessKind) (us : List MUnit) (vas : List VaRef)
    (perf : List (Nat × Nat)) : Req :=
  { newReq s p f.id k (spaceOf o.sp == .portal) (noReturn o && relaxedSem o) us vas with
    after := s.mustFollow f.r.past true (strongSem o) (us.any (fun u => u.node == .host) || (strongSem o && o.scope == 4)) us
      ++ perf.map Prod.snd,
    relaxed := semOf o == 0 }

section Atomic

variable {s : State} {p : Place} {st : Station} {fr f : Frame} {o : MForm} {k : AccessKind} {us : List MUnit} {vas : List VaRef}
  (hst : s.station? p = some st) (htok : st.tokBlocks f.id f.waits (unitGranules us) = false)
  (hstores : ∀ b ∈ f.stores, st.tokBlocks f.id b.waits (unitGranules b.units) = false)

include hst htok hstores

theorem issueAtomic_notHeld :
    (s.tokHeld p f us || f.stores.any fun b => st.tokBlocks f.id b.waits (unitGranules b.units)) = false := by
  rw [Bool.or_eq_false_iff, State.tokHeld, hst]
  exact ⟨htok, by simpa using hstores⟩

variable {h : Frame} {qs : List Req} (hpark : st.parkFree = true)
include hpark

/-- An atomic sends the buffered stores, and parks the execution on its own request, unless it is posted. -/
theorem issueAtomic_sends (hsend : State.sendStores p f.stores f s = (h, s.issue qs)) (hk : k.op ≠ .claim) :
    let q := atomReq (s.issue qs) p f o k us vas h.perf
    let g := { h.touch us with stores := [] }
    s.issueAtomic p fr f o k us vas =
      if noReturn o && relaxedSem o then
        { s.issue qs with
          reqs := (s.issue qs).reqs ++ [q], nextId := q.id + 1,
          cur := .station p { g with r := g.r.posts q.id, perf := g.perf ++ [(h.nacc, q.id)], ip := g.ip + 1 } }
      else (s.issue qs).parkOn p g q := by
  intro q g
  rw [State.issueAtomic, hst]
  dsimp only
  rw [issueAtomic_notHeld hst htok hstores, hpark, if_neg hk, hsend]
  dsimp only
  rw [if_neg hk, if_neg hk]
  rfl

/-- The claim of an stp goes alone. -/
theorem issueAtomic_claim (hk : k.op = .claim) (hret : noReturn o = false) :
    s.issueAtomic p fr f o k us vas = s.parkOn p (f.touch us) (atomReq s p f o k us vas []) := by
  rw [State.issueAtomic, hst]
  dsimp only
  rw [issueAtomic_notHeld hst htok hstores, hpark, if_pos hk, if_pos hk, if_pos hk, hret, atomReq, hret]
  rfl

end Atomic

theorem stationAtomics : Claims.StationAtomics := by
  intro s p x st f o us vas hcur hlay hst hpark hstores hclean htok n g
  generalize hbase : (s.run p f).base o = b
  obtain ⟨base, r1⟩ := b
  dsimp -zeta only
  generalize hbw : r1.memWords o (atomKind o) o.b = w
  obtain ⟨bw, r2⟩ := w
  dsimp -zeta only
  generalize hdw : r2.memWords o (casKind o) o.d = d
  obtain ⟨dw, r3⟩ := d
  dsimp -zeta only
  generalize hcw : r1.words o.b g = e
  obtain ⟨cw, r4⟩ := e
  dsimp -zeta only
  intro relaxed sends parks goes checks
  have hr1 : (s.run p f).ReadsTo r1 := by have h := (s.run p f).readsTo_base o; rwa [hbase] at h
  have hr2 : (s.run p f).ReadsTo r2 := by have h := r1.readsTo_memWords o (atomKind o) o.b; rw [hbw] at h; exact hr1.trans h
  have hr3 : (s.run p f).ReadsTo r3 := by have h := r2.readsTo_memWords o (casKind o) o.d; rw [hdw] at h; exact hr2.trans h
  have hr4 : (s.run p f).ReadsTo r4 := by have h := r1.readsTo_words o.b g; rw [hcw] at h; exact hr1.trans h
  have hpois (k : AccessKind) : poisonStore k f = false := by rw [poisonStore, hclean, Bool.and_false]
  have hst1 (m : Nat) : ({ s with free := m } : State).station? p = some st := (State.station?_free ..).trans hst
  have hsends {i : Instr} {k : AccessKind} {r : Run} (hr : (s.run p f).ReadsTo r) (hk : k.op ≠ .claim)
      (hi : exec i s = .next ({ s with free := r.free }.issueAtomic p f r.f o k us vas)) :
      (noReturn o = false ∨ relaxed = false → parks i k.op) ∧ (noReturn o = true → relaxed = true → goes i k.op) := by
    obtain ⟨m, l, rfl⟩ := hr
    obtain ⟨h, qs, hsend, hc, hs⟩ := sendStores_spec p f.stores { f with lfsr := l } { s with free := m }
    obtain ⟨past, perf, outst, hh⟩ := hs.rest
    have hrun := issueAtomic_sends (fr := f) (o := o) (k := k) (us := us) (vas := vas) (hst1 m)
      (f := { f with lfsr := l }) htok hstores hpark hsend hk
    replace hi := hi.trans (congrArg Host.Outcome.next hrun)
    have hids (y : Req) (hy : y ∈ qs) : y.id ∈ qs.map Req.id := List.mem_map_of_mem hy
    have hbefore (y : Req) (hy : y ∈ qs) : y.id < s.nextId + qs.length := by
      have hid := hids y hy
      rw [hc.ids, List.mem_range'_1] at hid
      exact hid.2
    have hmem (y : Req) (hy : y ∈ qs) : y.id ∈ h.perf.map Prod.snd := by
      rw [hs.perf]
      exact List.mem_append_right _ (hids y hy)
    have hqs (y : Req) (hy : y ∈ qs) : y.op = .wr ∧ y.stage = .sent ∧ y.id < s.nextId + qs.length ∧
        y.id ∈ (atomReq (({ s with free := m } : State).issue qs) p { f with lfsr := l } o k us vas h.perf).after :=
      ⟨(hc.sent y hy).1, (hc.sent y hy).2.1, hbefore y hy, List.mem_append_right _ (hmem y hy)⟩
    have horder (i j : Nat) (a b : Req) (hij : i < j) (ha : qs[i]? = some a) (hb : qs[j]? = some b) : a.id ∈ b.after := by
      obtain ⟨hi, rfl⟩ := List.getElem?_eq_some_iff.mp ha
      obtain ⟨hj, rfl⟩ := List.getElem?_eq_some_iff.mp hb
      exact List.pairwise_iff_getElem.mp hc.inOrder i j hi hj hij
    refine ⟨fun hnot => ?_, fun hret hrel => ?_⟩
    · have hposted : (noReturn o && relaxedSem o) = false := by
        rw [Bool.and_eq_false_iff]
        exact hnot
      rw [hposted, if_neg (by simp)] at hi
      refine ⟨_, qs, _, _, hi, rfl, rfl, ⟨rfl, hposted, rfl, ?_, rfl⟩, hc.units, hqs, horder, rfl, rfl, rfl, rfl, rfl⟩
      rw [hh]
      rfl
    · have hposted : (noReturn o && relaxedSem o) = true := by
        rw [Bool.and_eq_true]
        exact ⟨hret, hrel⟩
      rw [hposted, if_pos rfl] at hi
      refine ⟨_, qs, _, _, hi, rfl, rfl, ⟨rfl, hposted, ?_, ?_, rfl⟩, hc.units, hqs, horder, rfl, rfl, rfl, rfl, rfl⟩ <;> rw [hh] <;> rfl
  have hatom (hck : checks bw r2 (atomKind o) []) := hsends (k := atomKind o) hr2 (by simp [atomKind]) ((exec_atom_station o hcur).trans
    (congrArg _ (stationAccess_ok (k := atomKind o) (useB := true) (useD := false) hlay hbase hbw rfl (hpois _)
      (by rw [bytesOfWords_nil]; exact hck))))
  have hatomf (hck : checks bw r2 (atomfKind o) []) := hsends (k := atomfKind o) hr2 (by simp [atomfKind]) ((exec_atomf_station o hcur).trans
    (congrArg _ (stationAccess_ok (k := atomfKind o) (useB := true) (useD := false) hlay hbase hbw rfl (hpois _)
      (by rw [bytesOfWords_nil]; exact hck))))
  have hcas (hck : checks bw r3 (casKind o) (bytesOfWords dw n)) := hsends (k := casKind o) hr3 (by simp [casKind]) ((exec_cas_station o hcur).trans
    (congrArg _ (stationAccess_ok (k := casKind o) (useB := true) (useD := true) hlay hbase hbw hdw (hpois _) hck)))
  refine ⟨fun h => ⟨fun hck => (hatom hck).1 h, fun hck => (hatomf hck).1 h, fun hck => (hcas hck).1 h⟩,
    fun hret hrel => ⟨fun hck => (hatom hck).2 hret hrel, fun hck => (hatomf hck).2 hret hrel⟩, fun hret hck => ?_⟩
  have hword : (if true then r1.memWords o ⟨.stp, .claim, n, true, false⟩ o.b else ([], r1)) = (cw, r4) := by
    rw [if_pos rfl, r1.memWords_of_not_rmw o rfl o.b]
    exact hcw
  have hi := (exec_stp_station o hcur).trans (congrArg _ (stationAccess_ok (useB := true) (useD := false) hlay hbase hword rfl (hpois _)
    (by rw [bytesOfWords_nil]; exact hck)))
  obtain ⟨m, l, rfl⟩ := hr4
  have hrun := issueAtomic_claim (fr := f) (o := o) (k := ⟨.stp, .claim, n, true, false⟩) (us := us) (vas := vas) (hst1 m)
    (f := { f with lfsr := l }) htok hstores hpark rfl hret
  replace hi := hi.trans (congrArg Host.Outcome.next hrun)
  refine ⟨_, [], _, _, hi, ?_, rfl, ⟨rfl, ?_, rfl, rfl, rfl, rfl, rfl, rfl⟩, rfl, List.forall_mem_nil _,
    fun i j a b _ ha _ => by simp at ha, rfl, rfl, rfl, rfl, rfl⟩
  · rw [List.append_nil]
    rfl
  · change (noReturn o && relaxedSem o) = false
    rw [hret]
    rfl

/-- Settles O30: past its checks an access is one request, or a buffered store, made of the units that the checks found. -/
theorem stationMemory : Obligations.StationMemory := ⟨stationLoads, stationStores, stationAtomics⟩

end Sys2Proof.Machine
end

section
/-!
PROOFS. Links and channels (07 R200, R201, R215, 18 R481): slots return, records hop and arrive, and a failing channel retrains.
-/
namespace Sys2Proof.Machine

/-! ### Channels (R481) -/

theorem State.chan_ch (s : State) (ch : Chan) : (s.chan ch).ch = ch := by
  unfold State.chan
  cases h : s.chans.find? fun x => x.ch == ch with
  | none => rfl
  | some x => exact eq_of_beq (List.find?_some (p := fun x : ChanSt => x.ch == ch) h)

/-- A channel's state as it was last set. -/
theorem State.chan_setChan (s : State) (x : ChanSt) : (s.setChan x).chan x.ch = x := by
  have hnone : (s.chans.filter fun y => y.ch != x.ch).find? (fun y => y.ch == x.ch) = none := by
    rw [List.find?_eq_none]
    intro y hy
    simpa using (List.mem_filter.mp hy).2
  rw [State.chan, State.setChan, List.find?_append, hnone, Option.none_or, List.find?_cons_of_pos (by simp), Option.getD_some]

/-- A channel that trains is not up. -/
theorem chanUp_of_training {s : State} {ch : Chan} (h : (s.chan ch).training = true) : s.chanUp ch = false := by
  unfold State.chan at h
  cases hf : s.chans.find? fun x => x.ch == ch with
  | none => rw [hf] at h; simp at h
  | some x =>
    rw [hf] at h
    have hx : (x.ch == ch) = true := List.find?_some (p := fun x : ChanSt => x.ch == ch) hf
    rw [State.chanUp, Bool.not_eq_false', List.any_eq_true]
    exact ⟨x, List.mem_of_find?_eq_some hf, by simpa [hx] using .inl h⟩

theorem chan_logAdd (s : State) (kind die page st ctx addr count detail : Nat) (ch : Chan) :
    (s.logAdd kind die page st ctx addr count detail).chan ch = s.chan ch := by
  unfold State.logAdd
  dsimp only
  split <;> rfl

/-- An entry is added to a log that is not full. -/
theorem log_head_logAdd {s : State} (h : s.log.head - s.log.tail ≠ 63) (kind die page st ctx addr count detail : Nat) :
    (s.logAdd kind die page st ctx addr count detail).log.head = s.log.head + 1 := by
  have hfull : ¬(s.log.head - s.log.tail).toNat = 63 := fun hn => h (BitVec.eq_of_toNat_eq hn)
  rw [State.logAdd]
  dsimp only
  rw [if_neg hfull]
  rfl

theorem channelRepair : Claims.ChannelRepair := by
  intro s ch x
  have hset (y : ChanSt) (hy : y.ch = x.ch) : (s.setChan y).chan ch = y := by
    have h := s.chan_setChan y
    rwa [hy.trans (s.chan_ch ch)] at h
  refine ⟨fun htrain hfail => ⟨fun hlt => ?_, fun hge hre => ?_⟩, fun htrain => ?_⟩
  · have hrun : exec (.flitRetry ch) s = .next (s.setChan { x with fails := x.fails + 1 }) := by
      change execFlitRetry ch s = _
      rw [execFlitRetry]
      exact if_neg (by simp [x, htrain, hfail, hlt])
    exact ⟨_, hrun, hset _ rfl, rfl⟩
  · have hrun : exec (.channelRetrain ch) s = .next ((s.setChan { x with fails := 0, retrains := x.retrains + 1, training := true }).logAdd
        7 (s.chanPlace ch).1 (s.chanPlace ch).2 ch.dir.val 255 0 0 (x.retrains + 1)) := by
      change execChannelRetrain ch s = _
      rw [execChannelRetrain]
      exact if_neg (by simp [x, htrain, hfail, Nat.not_lt.mpr hge, Nat.not_le.mpr hre])
    have hchan := (chan_logAdd _ 7 (s.chanPlace ch).1 (s.chanPlace ch).2 ch.dir.val 255 0 0 (x.retrains + 1) ch).trans
      (hset { x with fails := 0, retrains := x.retrains + 1, training := true } rfl)
    exact ⟨_, hrun, hchan, chanUp_of_training (by rw [hchan]), fun hlog => log_head_logAdd (s := s.setChan _) hlog ..⟩
  · have hrun : exec (.channelRetrainDone ch) s = .next (s.setChan { x with training := false }) := by
      change execChannelRetrainDone ch s = _
      rw [execChannelRetrainDone]
      exact if_pos htrain
    exact ⟨_, hrun, hset _ rfl, rfl⟩

/-! ### Links (R200, R201) -/

/-- A link of a lay changed: the others and the stations stay. -/
theorem modLink_stir {x : Lay} {k : Nat} {lk : Link} (hk : x.links[k]? = some lk) (f : Link → Link) :
    (x.modLink k f).stir.links[k]? = some (f lk) ∧ (∀ j, j ≠ k → (x.modLink k f).stir.links[j]? = x.links[j]?) ∧
      (x.modLink k f).stir.stations = x.stations := by
  refine ⟨?_, fun j hj => ?_, x.stations_modLink k f⟩
  · change (x.modLink k f).links[k]? = _
    rw [x.getElem?_modLink, if_pos rfl, hk]
    rfl
  · change (x.modLink k f).links[j]? = _
    rw [x.getElem?_modLink, if_neg (Ne.symm hj)]

theorem ctxs_hopped (s : State) (rt : List Chan) (n : Nat) : (s.hopped rt n).ctxs = s.ctxs := by
  unfold State.hopped
  split <;> rfl

/-- A lay changed in a state of the same contexts. -/
theorem lay?_modLay_of_ctxs {s u : State} {c : CtxId} {l : LaySlot} {x : Lay} (hu : u.ctxs = s.ctxs) (hx : s.lay? c l = some x)
    (f : Lay → Lay) : (u.modLay c l f).lay? c l = some (f x) := by
  rw [State.lay?_modLay_same, State.lay?_of_ctxs hu, hx]
  rfl

/-! ### Channels of a route (R215) -/

/-- The request of a link for a shared slot stands among those there were, once made. -/
theorem askFor_spec (s : State) (ch : Chan) (c : CtxId) (l : LaySlot) (k : Nat) :
    ∃ q u, s.askFor ch c l k = (q, u) ∧ u.ctxs = s.ctxs ∧ q ∈ u.chanAsks ∧ (∀ y ∈ u.chanAsks, y ∈ s.chanAsks ∨ y = q) ∧
      q.ch = ch ∧ q.ctx = c ∧ q.lay = l ∧ q.link = k := by
  unfold State.askFor
  cases h : s.chanAsks.find? fun q => q.ch == ch && q.ctx == c && q.lay == l && q.link == k with
  | some q =>
    have hq := List.find?_some (p := fun q : ChanAsk => q.ch == ch && q.ctx == c && q.lay == l && q.link == k) h
    simp only [Bool.and_eq_true, beq_iff_eq] at hq
    obtain ⟨⟨⟨hch, hctx⟩, hlay⟩, hlink⟩ := hq
    exact ⟨q, s, rfl, rfl, List.mem_of_find?_eq_some h, fun y hy => .inl hy, hch, hctx, hlay, hlink⟩
  | none =>
    refine ⟨⟨ch, c, l, k, s.cyc⟩, _, rfl, rfl, List.mem_append_right _ (List.mem_singleton_self _), fun y hy => ?_, rfl, rfl, rfl, rfl⟩
    exact (List.mem_append.mp hy).imp_right List.mem_singleton.mp

/-- No request comes before itself. -/
theorem askBefore_self (s : State) (q : ChanAsk) : s.askBefore q q = false := by simp [State.askBefore]

theorem grantSlot_own {s : State} {ch : Chan} {c : CtxId} (h : s.ownSlotFree c ch = true) (l : LaySlot) (k : Nat) :
    ∃ u, s.grantSlot ch c l k = (true, u) ∧ u.ctxs = s.ctxs := by
  obtain ⟨q, u, hask, hctxs, -⟩ := askFor_spec { s with chanAsks := s.chanAsks.filter s.asks } ch c l k
  rw [State.grantSlot, hask]
  dsimp only
  rw [if_pos h]
  exact ⟨_, rfl, hctxs⟩

/-- A record takes a shared slot that is free where nothing asked for one before. -/
theorem grantSlot_shared {s : State} {ch : Chan} (c : CtxId) (hfree : s.sharedFree ch = true) (hasks : ∀ q ∈ s.chanAsks, q.ch ≠ ch)
    (l : LaySlot) (k : Nat) : ∃ u, s.grantSlot ch c l k = (true, u) ∧ u.ctxs = s.ctxs := by
  obtain ⟨q, u, hask, hctxs, -, honly, -⟩ := askFor_spec { s with chanAsks := s.chanAsks.filter s.asks } ch c l k
  have hfirst : (u.chanAsks.any fun y => y.ch == ch && u.askBefore y q) = false := by
    rw [List.any_eq_false]
    intro y hy
    rcases honly y hy with hy | rfl
    · simp [hasks y (List.mem_filter.mp hy).1]
    · simp [askBefore_self]
  rw [State.grantSlot, hask]
  dsimp only
  rw [hfree, hfirst]
  split <;> exact ⟨_, rfl, hctxs⟩

/-- A record that finds no slot asks for one. -/
theorem grantSlot_none {s : State} {ch : Chan} {c : CtxId} (hown : s.ownSlotFree c ch = false) (hshared : s.sharedFree ch = false)
    (l : LaySlot) (k : Nat) : ∃ u, s.grantSlot ch c l k = (false, u) ∧ u.ctxs = s.ctxs ∧
      ∃ q ∈ u.chanAsks, q.ch = ch ∧ q.ctx = c ∧ q.lay = l ∧ q.link = k := by
  obtain ⟨q, u, hask, hctxs, hmem, -, hq⟩ := askFor_spec { s with chanAsks := s.chanAsks.filter s.asks } ch c l k
  rw [State.grantSlot, hask]
  dsimp only
  rw [hown, hshared]
  exact ⟨u, rfl, hctxs, q, hmem, hq⟩

/-- The first of some items moves on where it is granted its slot. -/
theorem advanceFirst_granted {s u : State} {ch : Chan} {c : CtxId} {l : LaySlot} {k i m : Nat} {x : Lay} {lk : Link} {rt : List Chan}
    (hx : s.lay? c l = some x) (hk : x.links[k]? = some lk) (hch : rt[m]? = some ch) (hgrant : s.grantSlot ch c l k = (true, u))
    (hu : u.ctxs = s.ctxs) (hs : List (Nat × Nat)) :
    ∃ y, (s.advanceFirst c l k rt ((i, m) :: hs)).lay? c l = some y ∧
      y.links[k]? = some { lk with flight := lk.flight.modify i fun z => (z.1, z.2 + 1) } ∧
      (∀ j, j ≠ k → y.links[j]? = x.links[j]?) ∧ y.stations = x.stations := by
  rw [State.advanceFirst, hch]
  dsimp only
  rw [hgrant]
  exact ⟨_, lay?_modLay_of_ctxs ((ctxs_hopped u rt m).trans hu) hx _, modLink_stir hk _⟩

theorem advanceFirst_denied {s u : State} {ch : Chan} {c : CtxId} {l : LaySlot} {k m : Nat} {rt : List Chan} (hch : rt[m]? = some ch)
    (hgrant : s.grantSlot ch c l k = (false, u)) (i : Nat) (hs : List (Nat × Nat)) :
    s.advanceFirst c l k rt ((i, m) :: hs) = u.advanceFirst c l k rt hs := by
  rw [State.advanceFirst, hch]
  dsimp only
  rw [hgrant]

/-- Links give slots back, deliver what has come to its route's end, and let their records hop. -/
theorem linksMove {s : State} {c : CtxId} {l : LaySlot} {k n : Nat} {x : Lay} {lk : Link} {it : Item} {rest : List (Item × Nat)}
    (hx : s.lay? c l = some x) (hk : x.links[k]? = some lk) :
    let becomes (i : Instr) (z : Link) : Prop := ∃ u y, exec i s = .next u ∧ u.lay? c l = some y ∧ y.links[k]? = some z ∧
      (∀ j, j ≠ k → y.links[j]? = x.links[j]?) ∧ y.stations = x.stations
    (0 < lk.back → becomes (.slotReturn c l k) { lk with back := lk.back - 1, free := lk.free + 1 }) ∧
    (lk.flight = (it, n) :: rest → s.mayHop (x.route lk) n = true →
      (n = (x.route lk).length → becomes (.linkDelivery c l k) { lk with
        flight := rest, buf := lk.buf ++ [it], headAt := if lk.buf.isEmpty then s.cyc else lk.headAt }) ∧
      (∀ ch, (x.route lk)[n]? = some ch → s.chanUp ch = true → ∃ hs, s.nextHops x lk = (0, n) :: hs)) := by
  intro becomes
  refine ⟨fun hback => ?_, fun hflight hhop => ⟨fun hend => ?_, fun ch hch hup => ?_⟩⟩
  · have hrun : exec (.slotReturn c l k) s = .next (s.modLay c l fun x => match x.links[k]? with
        | some z => if z.back = 0 then x else (x.modLink k fun y => { y with back := y.back - 1, free := y.free + 1 }).stir
        | none => x) := (rfl : execSlotReturn c l k s = _)
    refine ⟨_, _, hrun, lay?_modLay_of_ctxs rfl hx _, ?_⟩
    rw [hk]
    dsimp only
    rw [if_neg (by omega)]
    exact modLink_stir hk _
  · have hrun : exec (.linkDelivery c l k) s = .next ((s.hopped (x.route lk) n).modLay c l fun y => (y.modLink k fun z =>
        { z with flight := rest, buf := z.buf ++ [it], headAt := if z.buf.isEmpty then s.cyc else z.headAt }).stir) := by
      change execLinkDelivery c l k s = _
      rw [execLinkDelivery, hx]
      dsimp only
      rw [hk]
      dsimp only
      rw [hflight]
      exact if_pos (by simp [hend.symm, hhop])
    exact ⟨_, _, hrun, lay?_modLay_of_ctxs (ctxs_hopped s _ n) hx _, modLink_stir hk _⟩
  · have hlt : n < (x.route lk).length := (List.getElem?_eq_some_iff.mp hch).1
    rw [State.nextHops, hflight]
    rw [hopsOf, hch]
    exact ⟨_, by simp [hlt, hhop, hup]; rfl⟩

/-- The foremost of the records that may hop takes its slot, or asks, and the next one tries. -/
theorem recordsHop {s : State} {c : CtxId} {l : LaySlot} {k i m : Nat} {x : Lay} {lk : Link} {hs : List (Nat × Nat)} {ch : Chan}
    (hx : s.lay? c l = some x) (hk : x.links[k]? = some lk) (hhops : s.nextHops x lk = (i, m) :: hs)
    (hch : (x.route lk)[m]? = some ch) :
    let becomes (z : Link) : Prop := ∃ u y, exec (.channelAdvance c l k) s = .next u ∧ u.lay? c l = some y ∧ y.links[k]? = some z ∧
      (∀ j, j ≠ k → y.links[j]? = x.links[j]?) ∧ y.stations = x.stations
    let moved (j : Nat) : Link := { lk with flight := lk.flight.modify j fun z => (z.1, z.2 + 1) }
    ((s.ownSlotFree c ch = true ∨ s.sharedFree ch = true ∧ ∀ q ∈ s.chanAsks, q.ch ≠ ch) → becomes (moved i)) ∧
    (s.ownSlotFree c ch = false → s.sharedFree ch = false →
      (hs = [] → ∃ u, exec (.channelAdvance c l k) s = .next u ∧ u.ctxs = s.ctxs ∧
        ∃ q ∈ u.chanAsks, q.ch = ch ∧ q.ctx = c ∧ q.lay = l ∧ q.link = k) ∧
      (∀ j m' hs' ch', hs = (j, m') :: hs' → (x.route lk)[m']? = some ch' → s.ownSlotFree c ch' = true → becomes (moved j))) := by
  intro becomes moved
  have hrun : exec (.channelAdvance c l k) s = .next (s.advanceFirst c l k (x.route lk) ((i, m) :: hs)) := by
    change execChannelAdvance c l k s = _
    rw [execChannelAdvance, hx]
    dsimp only
    rw [hk]
    dsimp only
    rw [hhops]
  refine ⟨fun hslot => ?_, fun hown hshared => ?_⟩
  · obtain ⟨u, hgrant, hu⟩ : ∃ u, s.grantSlot ch c l k = (true, u) ∧ u.ctxs = s.ctxs := by
      obtain hown | ⟨hfree, hasks⟩ := hslot
      · exact grantSlot_own hown l k
      · exact grantSlot_shared c hfree hasks l k
    obtain ⟨y, hy⟩ := advanceFirst_granted hx hk hch hgrant hu hs
    exact ⟨_, y, hrun, hy⟩
  · obtain ⟨u, hdenied, hu, hq⟩ := grantSlot_none hown hshared l k
    rw [advanceFirst_denied hch hdenied] at hrun
    refine ⟨fun hnil => ?_, fun j m' hs' ch' hcons hch' hown' => ?_⟩
    · rw [hnil] at hrun
      exact ⟨u, hrun, hu, hq⟩
    · obtain ⟨z, hgrant, hz⟩ := grantSlot_own (s := u) (c := c) (ch := ch')
        (by rw [State.ownSlotFree, State.ctx, hu]; exact hown') l k
      obtain ⟨y, hy⟩ := advanceFirst_granted ((State.lay?_of_ctxs hu c l).trans hx) hk hch' hgrant hz hs'
      rw [hcons] at hrun
      exact ⟨_, y, hrun, hy⟩

end Sys2Proof.Machine
end

section
/-!
PROOFS. Records that leave a station, and stations that fire (07 R147, R199 to R204): the links of the ports that a record takes, and
the execution that a head begins.
-/
namespace Sys2Proof.Machine

/-! ### Leaving (R147) -/

/-- The lay that a record has left by some ports: slots of other ports return, loops count it, links take it (R204, R208). -/
def Lay.departed (x : Lay) (p : Place) (used unused : List (Fin 4)) (counted : Bool) (it : Item) : Lay :=
  let ks := used.filterMap fun q => x.linkFrom? ⟨p.pid, p.sid, q.val⟩
  (ks.foldl (fun z k => z.sendOn k it)
    ((x.returnSlots p.pid p.sid unused).loopLeave p.pid p.sid counted (ks.filterMap fun k => x.links[k]?))).stir

theorem depart_eq {s : State} {p : Place} {n : Nat} {st : Station} {f : Frame} (hst : s.station? p = some st) (hf : st.frame? n = some f)
    (hleave : st.mayLeave f = true) :
    s.depart p n = ((s.modStation p fun y => y.takeFrame n).tidyWindow p n).modLay p.ctx p.slot fun y =>
      y.departed p (exitPorts f.exit) ((st.emitsOf f.seg).filter fun q => !((exitPorts f.exit).contains q)) f.inLoop
        (.data (f.r.leave (s.livePast f.r.past))) := by
  rw [State.depart, hst]
  dsimp only
  rw [hf]
  dsimp only
  rw [hleave]
  rfl

theorem keepsPlace_takeFrame (n : Nat) : KeepsPlace fun y => y.takeFrame n := fun _ => ⟨rfl, rfl⟩

/-- An execution taken from its station is there no more. -/
theorem frame?_takeFrame (y : Station) (n : Nat) : (y.takeFrame n).frame? n = none := by
  rw [Station.frame?, List.find?_eq_none]
  intro f hf
  have := (List.mem_filter.mp hf).2
  simpa using this

theorem ChangesBody.frame? {g : Station → Station} (hg : ChangesBody g) (y : Station) (n : Nat) : (g y).frame? n = y.frame? n := by
  obtain ⟨b, hb⟩ := hg y
  rw [hb]
  rfl

theorem Lay.stations_sendOn (ks : List Nat) (it : Item) (y : Lay) : (ks.foldl (fun z k => z.sendOn k it) y).stations = y.stations := by
  induction ks generalizing y with
  | nil => rfl
  | cons k ks ih => exact (ih _).trans (y.stations_modLink k _)

theorem Lay.stations_returnSlots (x : Lay) (pid : Pid) (sid : Sid) (ports : List (Fin 4)) :
    (x.returnSlots pid sid ports).stations = x.stations := by
  obtain ⟨⟨ls, hls⟩, -⟩ := Lay.foldl_modLink (f := fun l => { l with free := l.free + 1 }) (fun _ => rfl) pid sid ports x
  have h : x.returnSlots pid sid ports = { x with links := ls } := hls
  rw [h]

section Departed

variable (x : Lay) (p : Place) (used unused : List (Fin 4)) (counted : Bool) (it : Item)

theorem Lay.stations_departed : ∃ g, ChangesBody g ∧ (x.departed p used unused counted it).stations = x.stations.map g := by
  obtain ⟨g, hg, hloop⟩ := (x.returnSlots p.pid p.sid unused).loopLeave_eq p.pid p.sid counted
    ((used.filterMap fun q => x.linkFrom? ⟨p.pid, p.sid, q.val⟩).filterMap fun k => x.links[k]?)
  refine ⟨g, hg, (Lay.stations_sendOn _ it _).trans ?_⟩
  rw [hloop]
  exact congrArg (List.map g) (x.stations_returnSlots p.pid p.sid unused)

/-- The links of a lay that a record has left are those that the returned slots leave, with the record on those it takes. -/
theorem Lay.links_departed : ∃ y : Lay, y.links = (x.returnSlots p.pid p.sid unused).links ∧ (x.departed p used unused counted it).links =
    ((used.filterMap fun (q : Fin 4) => x.linkFrom? ⟨p.pid, p.sid, q.val⟩).foldl (fun z k => z.sendOn k it) y).links := by
  obtain ⟨g, -, hloop⟩ := (x.returnSlots p.pid p.sid unused).loopLeave_eq p.pid p.sid counted
    ((used.filterMap fun q => x.linkFrom? ⟨p.pid, p.sid, q.val⟩).filterMap fun k => x.links[k]?)
  exact ⟨_, by rw [hloop], rfl⟩

end Departed

/-- Slots that other ports return leave a port's link. -/
theorem returnSlots_other {x : Lay} {p : Place} {used emits : List (Fin 4)} {q : Fin 4} {k : Nat} (hq : q ∈ used)
    (hk : x.linkFrom? ⟨p.pid, p.sid, q.val⟩ = some k) :
    (x.returnSlots p.pid p.sid (emits.filter fun q => !(used.contains q))).links[k]? = x.links[k]? := by
  obtain ⟨-, -, hother⟩ := Lay.foldl_modLink (f := fun l => { l with free := l.free + 1 }) (fun _ => rfl) p.pid p.sid
    (emits.filter fun q => !(used.contains q)) x
  refine hother k fun q' hq' => Lay.linkFrom?_ne hk fun h => ?_
  have hval : q'.val = q.val := congrArg End.port h
  have hnot := (List.mem_filter.mp hq').2
  rw [Fin.ext hval] at hnot
  simp [hq] at hnot

section Taken

variable {x : Lay} {p : Place} {q q' : Fin 4} {k k' : Nat} {lk lk' : Link} (hk : x.linkFrom? ⟨p.pid, p.sid, q.val⟩ = some k)
  (hlk : x.links[k]? = some lk) (emits : List (Fin 4)) (counted : Bool) (it : Item)

include hk hlk

/-- A record that takes one port stands on its link. -/
theorem links_departed_port :
    (x.departed p [q] (emits.filter fun q' => !([q].contains q')) counted it).links[k]? =
      some { lk with flight := lk.flight ++ [(it, 0)] } := by
  obtain ⟨y, hy, hd⟩ := x.links_departed p [q] (emits.filter fun q' => !([q].contains q')) counted it
  rw [hd, List.filterMap_cons, hk]
  change (y.sendOn k it).links[k]? = _
  rw [Lay.sendOn, y.getElem?_modLink, if_pos rfl, hy, returnSlots_other (List.mem_singleton_self q) hk, hlk]
  rfl

/-- The two records of a fork stand on the links of its ports. -/
theorem links_departed_fork (hne : q ≠ q') (hk' : x.linkFrom? ⟨p.pid, p.sid, q'.val⟩ = some k') (hlk' : x.links[k']? = some lk') :
    let y := x.departed p [q, q'] (emits.filter fun a => !([q, q'].contains a)) counted it
    y.links[k]? = some { lk with flight := lk.flight ++ [(it, 0)] } ∧ y.links[k']? = some { lk' with flight := lk'.flight ++ [(it, 0)] } := by
  intro y
  obtain ⟨z, hz, hd⟩ := x.links_departed p [q, q'] (emits.filter fun a => !([q, q'].contains a)) counted it
  have hkk : k ≠ k' := fun h => by
    refine Lay.linkFrom?_ne hk' (fun he => hne (Fin.ext (congrArg End.port he))) (e := ⟨p.pid, p.sid, q.val⟩) ?_
    rw [hk, h]
  have hlinks : y.links = ((z.sendOn k it).sendOn k' it).links := by
    rw [hd, List.filterMap_cons, hk, List.filterMap_cons, hk']
    rfl
  have hzk : z.links[k]? = some lk := by rw [hz, returnSlots_other List.mem_cons_self hk, hlk]
  have hzk' : z.links[k']? = some lk' := by rw [hz, returnSlots_other (List.mem_cons_of_mem q (List.mem_singleton_self q')) hk', hlk']
  rw [hlinks, Lay.sendOn, Lay.getElem?_modLink, if_neg hkk.symm, Lay.sendOn, Lay.getElem?_modLink, if_pos rfl, hzk, Lay.getElem?_modLink,
    if_pos rfl, Lay.getElem?_modLink, if_neg hkk, hzk']
  exact ⟨rfl, rfl⟩

end Taken

/-- A record that takes no port stands on no link. -/
theorem links_departed_none (x : Lay) (p : Place) (unused : List (Fin 4)) (counted : Bool) (it : Item) :
    (x.departed p [] unused counted it).links.map Link.flight = x.links.map Link.flight := by
  obtain ⟨y, hy, hd⟩ := x.links_departed p [] unused counted it
  obtain ⟨-, hmap, -⟩ := Lay.foldl_modLink (f := fun l => { l with free := l.free + 1 }) (fun _ => rfl) p.pid p.sid unused x
  rw [hd]
  change y.links.map Link.flight = _
  rw [hy]
  exact hmap _ Link.flight fun _ => rfl

theorem recordDeparts {s : State} {p : Place} {n : Nat} {x : Lay} {st : Station} {f : Frame} (hx : s.lay? p.ctx p.slot = some x)
    (hst : s.station? p = some st) (hf : st.frame? n = some f) (hleave : st.mayLeave f = true) :
    ∃ (u : State) (y : Lay) (st' : Station) (z : Lay), exec (.recordDeparture p n) s = .next u ∧ u.lay? p.ctx p.slot = some y ∧ u.station? p = some st' ∧
      st'.frame? n = none ∧ z.links = x.links ∧ y = z.departed p (exitPorts f.exit)
        ((st.emitsOf f.seg).filter fun q => !((exitPorts f.exit).contains q)) f.inLoop (.data (f.r.leave (s.livePast f.r.past))) := by
  have hat := (State.At.of_station hx hst).modStation (g := fun y => y.takeFrame n) (keepsPlace_takeFrame n)
  obtain ⟨g, hg, hat⟩ := hat.tidyWindow n
  obtain ⟨g', hg', hstations⟩ := Lay.stations_departed ((x.modStation p.pid p.sid fun y => y.takeFrame n).modStation p.pid p.sid g) p
    (exitPorts f.exit) ((st.emitsOf f.seg).filter fun q => !((exitPorts f.exit).contains q)) f.inLoop
    (.data (f.r.leave (s.livePast f.r.past)))
  have hend := hat.modLay (g := g') (m := fun y => y.departed p (exitPorts f.exit)
    ((st.emitsOf f.seg).filter fun q => !((exitPorts f.exit).contains q)) f.inLoop (.data (f.r.leave (s.livePast f.r.past))))
    hg'.keepsPlace hstations
  have hrun : exec (.recordDeparture p n) s = .next (s.depart p n) := rfl
  rw [depart_eq hst hf hleave] at hrun
  exact ⟨_, _, _, (x.modStation p.pid p.sid fun y => y.takeFrame n).modStation p.pid p.sid g, hrun, hend.lay, hend.station, by rw [hg'.frame?, hg.frame?, frame?_takeFrame], rfl, rfl⟩

/-- A completed record that may leave goes onto the links of the ports that its exit names. -/
theorem departures {s : State} {p : Place} {n : Nat} {x : Lay} {st : Station} {f : Frame} (hx : s.lay? p.ctx p.slot = some x)
    (hst : s.station? p = some st) (hf : st.frame? n = some f) (hleave : st.mayLeave f = true) :
    (∀ q k lk, f.exit = .port q → x.linkFrom? ⟨p.pid, p.sid, q.val⟩ = some k → x.links[k]? = some lk →
      ∃ u y st', exec (.recordDeparture p n) s = .next u ∧ u.lay? p.ctx p.slot = some y ∧ u.station? p = some st' ∧
        st'.frame? n = none ∧ y.links[k]? = some { lk with flight := lk.flight ++ [(.data (f.r.leave (s.livePast f.r.past)), 0)] }) ∧
    (f.exit = .drop → ∃ u y st', exec (.recordDeparture p n) s = .next u ∧ u.lay? p.ctx p.slot = some y ∧ u.station? p = some st' ∧
      st'.frame? n = none ∧ y.links.map Link.flight = x.links.map Link.flight) ∧
    (∀ q q' k k' lk lk', f.exit = .fork q q' → q ≠ q' → x.linkFrom? ⟨p.pid, p.sid, q.val⟩ = some k →
      x.linkFrom? ⟨p.pid, p.sid, q'.val⟩ = some k' → x.links[k]? = some lk → x.links[k']? = some lk' →
      let gone : Item × Nat := (.data (f.r.leave (s.livePast f.r.past)), 0)
      ∃ u y st', exec (.recordDeparture p n) s = .next u ∧ u.lay? p.ctx p.slot = some y ∧ u.station? p = some st' ∧ st'.frame? n = none ∧
        y.links[k]? = some { lk with flight := lk.flight ++ [gone] } ∧ y.links[k']? = some { lk' with flight := lk'.flight ++ [gone] }) := by
  obtain ⟨u, y, st', z, hrun, hy, hst', hgone, hz, rfl⟩ := recordDeparts hx hst hf hleave
  have hfrom (e : End) : z.linkFrom? e = x.linkFrom? e := Lay.linkFrom?_congr (by rw [hz]) e
  refine ⟨fun q k lk he hk hlk => ⟨u, _, st', hrun, hy, hst', hgone, ?_⟩, fun he => ⟨u, _, st', hrun, hy, hst', hgone, ?_⟩,
    fun q q' k k' lk lk' he hne hk hk' hlk hlk' => ⟨u, _, st', hrun, hy, hst', hgone, ?_⟩⟩ <;> rw [he]
  · exact links_departed_port ((hfrom _).trans hk) (by rw [hz, hlk]) ..
  · rw [← hz]
    exact links_departed_none ..
  · exact links_departed_fork ((hfrom _).trans hk) (by rw [hz, hlk]) _ _ _ hne ((hfrom _).trans hk') (by rw [hz, hlk'])

end Sys2Proof.Machine
end

section
/-!
PROOFS. Stations that fire (07 R199 to R204): the execution that a head begins.
-/
namespace Sys2Proof.Machine

/-- A frame put among frames of other numbers is found by its own. -/
theorem find?_insertFrame {f : Frame} {fs : List Frame} (h : ∀ g ∈ fs, g.id ≠ f.id) :
    (insertFrame f fs).find? (fun g => g.id == f.id) = some f := by
  induction fs with
  | nil => simp [insertFrame]
  | cons g gs ih =>
    rw [insertFrame]
    split
    · exact List.find?_cons_of_pos (by simp)
    · rw [List.find?_cons_of_neg (by simpa using h g List.mem_cons_self)]
      exact ih fun a ha => h a (List.mem_cons_of_mem g ha)

/-- The slots that a segment's emit set reserves change the free slots of links alone (R204). -/
theorem Lay.reserves_spec (x : Lay) (p : Place) (emits : List (Fin 4)) :
    let y := (emits.foldl (fun y q => match y.linkFrom? ⟨p.pid, p.sid, q.val⟩ with | some n => y.reserve n | none => y) x).progressed
    y.stations = x.stations ∧ y.links.map Link.buf = x.links.map Link.buf := by
  obtain ⟨⟨ls, hls⟩, hmap, -⟩ := Lay.foldl_modLink (f := fun l => { l with free := l.free - 1 }) (fun _ => rfl) p.pid p.sid emits x
  exact ⟨(congrArg Lay.stations hls :), hmap _ Link.buf fun _ => rfl⟩

/-- A station with a new execution of a segment. -/
def Station.started (st : Station) (id n : Nat) (port : Fin 6) (orig r : Rec) (seg : Fin 4) (g : Seg) : Station :=
  { st with frames := insertFrame (newFrame id port orig r seg st) st.frames, toks := st.toks ++ newToks (n + 1) id g.puts,
            again := st.again.filter fun a => a.2 != id,
            body := match st.body with | .bank b => .bank { b with window := b.window ++ [id], records := b.records ++ [id] } | b => b }

theorem startExec_spec {s : State} {p : Place} {x : Lay} {st : Station} (hat : s.At p x st) (hagain : st.again = [])
    (hids : ∀ f ∈ st.frames, f.id < s.nextId) (port : Fin 6) (orig r : Rec) (seg : Fin 4) (g : Seg) :
    ∃ y st', (s.startExec p port orig r seg g none).At p y st' ∧ st'.frame? s.nextId = some (newFrame s.nextId port orig r seg st) ∧
      st'.lastPort = st.lastPort ∧ y.links.map Link.buf = x.links.map Link.buf ∧ (s.startExec p port orig r seg g none).hbm = s.hbm := by
  have hid : ((s.station? p).bind fun st => st.again.find? fun a => a.1 == port) = none := by
    rw [hat.station, Option.bind_some, hagain]
    rfl
  have hrun : s.startExec p port orig r seg g none =
      { ((s.modStation p fun st => st.started s.nextId s.nextId port orig r seg g).modLay p.ctx p.slot fun x =>
        (g.emits.foldl (fun y q => match y.linkFrom? ⟨p.pid, p.sid, q.val⟩ with | some n => y.reserve n | none => y) x).progressed) with
        nextId := s.nextId + 1 + g.puts.length } := by
    rw [State.startExec, hid]
    rfl
  have hstart := hat.modStation (g := fun st => st.started s.nextId s.nextId port orig r seg g) fun _ => ⟨rfl, rfl⟩
  obtain ⟨hstations, hbufs⟩ := (x.modStation p.pid p.sid fun st => st.started s.nextId s.nextId port orig r seg g).reserves_spec p g.emits
  have hend := hstart.modLay_keep (m := fun x =>
    (g.emits.foldl (fun y q => match y.linkFrom? ⟨p.pid, p.sid, q.val⟩ with | some n => y.reserve n | none => y) x).progressed) hstations
  refine ⟨_, _, (hend.of_ctxs (by rw [hrun])), ?_, rfl, hbufs, ?_⟩
  · exact find?_insertFrame (f := newFrame s.nextId port orig r seg st) fun f hf => Nat.ne_of_lt (hids f hf)
  · rw [hrun]
    simp [State.modStation]

theorem fireAt_run {s : State} {p : Place} {x : Lay} {st : Station} {i g : Fin 4} {k : Nat} {r r' : Rec} {sg : Seg}
    (hx : s.lay? p.ctx p.slot = some x) (hst : s.station? p = some st) (hruns : st.runsSegments = true) (hdead : st.dead = false)
    (hexc : st.exc = none) (hclean : ∀ f ∈ st.frames, f.isFaulted = false) (hnext : x.nextIntake st = some (i, k, r))
    (hin : st.intake r = .run g sg r') :
    s.fireAt p = (s.modLay p.ctx p.slot fun y => ((y.takeHead k s.cyc).modStation p.pid p.sid fun z =>
      { z with lastPort := i }).stir).startExec p (i.castLE (by decide)) r r' g sg none := by
  have hmay : st.mayFire = true := by
    rw [Station.mayFire, hdead, hexc]
    simpa using hclean
  rw [State.fireAt, hx, hst]
  dsimp only
  rw [hruns, hdead, hexc, if_neg (by simp)]
  dsimp only
  rw [hmay, if_pos rfl, hnext]
  dsimp only
  rw [hin]

/-- A station that may fires its segment on the head that the scan of its ports finds. -/
theorem stationFires {s : State} {p : Place} {x : Lay} {st : Station} {i g : Fin 4} {k : Nat} {lk : Link} {r r' : Rec} {sg : Seg}
    (hx : s.lay? p.ctx p.slot = some x) (hst : s.station? p = some st) (hruns : st.runsSegments = true) (hdead : st.dead = false)
    (hexc : st.exc = none) (hagain : st.again = []) (hframes : ∀ f ∈ st.frames, f.id < s.nextId ∧ f.isFaulted = false)
    (hnext : x.nextIntake st = some (i, k, r)) (hk : x.links[k]? = some lk) (hin : st.intake r = .run g sg r') :
    ∃ u y st' h lk', exec (.stationFire p) s = .next u ∧ u.lay? p.ctx p.slot = some y ∧ u.station? p = some st' ∧
      st'.frame? s.nextId = some h ∧ h.r = r' ∧ h.orig = r ∧ h.seg = g ∧ h.ip = 0 ∧ h.st = .running ∧ h.q = 0 ∧ h.k = st.k ∧
      h.kv = st.kv ∧ h.lfsr = st.lfsr ∧ h.mx = st.matrix? ∧ st'.lastPort = i ∧ y.links[k]? = some lk' ∧ lk'.buf = lk.buf.tail ∧ u.hbm = s.hbm := by
  have hfire := fireAt_run hx hst hruns hdead hexc (fun f hf => (hframes f hf).2) hnext hin
  let m (y : Lay) : Lay := ((y.takeHead k s.cyc).modStation p.pid p.sid fun z => { z with lastPort := i }).stir
  have hat1 : (s.modLay p.ctx p.slot m).At p (m x) { st with lastPort := i } := by
    refine ⟨by rw [State.lay?_modLay_same, hx]; rfl, ?_⟩
    have htake : (x.takeHead k s.cyc).station? p.pid p.sid = some st := by
      rw [Lay.station?, Lay.takeHead, Lay.stations_modLink]
      exact (State.station?_eq hx).symm.trans hst
    have hmod := Lay.station?_modStation_same (g := fun z : Station => { z with lastPort := i }) (fun _ => ⟨rfl, rfl⟩)
      (x.takeHead k s.cyc) p.pid p.sid
    rw [htake] at hmod
    exact hmod
  have hid : (s.modLay p.ctx p.slot m).nextId = s.nextId := by simp
  obtain ⟨y, st', hat, hframe, hlast, hbufs, hhbm⟩ := startExec_spec hat1 hagain (fun f hf => hid.symm ▸ (hframes f hf).1) (i.castLE (by decide)) r r' g sg
  rw [hid] at hframe
  have hbuf : (y.links[k]?).map Link.buf = some lk.buf.tail := by
    have hhead : ((m x).links[k]?).map Link.buf = some lk.buf.tail := by
      change ((x.takeHead k s.cyc).links[k]?).map Link.buf = _
      rw [Lay.takeHead, x.getElem?_modLink, if_pos rfl, hk]
      simp only [Option.map_some, Option.some.injEq]
      split_ifs <;> rfl
    rw [← List.getElem?_map, hbufs, List.getElem?_map, hhead]
  obtain ⟨lk', hlk', htail⟩ := Option.map_eq_some_iff.mp hbuf
  have hrun : exec (.stationFire p) s = .next (s.fireAt p) := rfl
  rw [hfire] at hrun
  exact ⟨_, y, st', _, lk', hrun, hat.lay, hat.station, hframe, rfl, rfl, rfl, rfl, rfl, rfl, rfl, rfl, rfl, rfl, hlast, hlk', htail,
    hhbm.trans (by simp [m])⟩

theorem fabricMoves : Claims.FabricMoves := by
  refine ⟨fun s p x st i g k lk r r' sg hx hst hruns hdead hexc hagain hframes hnext hk hin =>
      stationFires hx hst hruns hdead hexc hagain hframes hnext hk hin,
    fun s p n x st f hx hst hf hleave => departures hx hst hf hleave, fun s c l k n x lk it rest hx hk => ?_⟩
  obtain ⟨hreturn, harrive⟩ := linksMove (n := n) (it := it) (rest := rest) hx hk
  exact ⟨hreturn, harrive, fun i m hs ch hhops hch => recordsHop hx hk hhops hch⟩

end Sys2Proof.Machine
end

section
/-!
PROOFS. The flits of a record (07 R212, R214): the fields of the header flit, and the words that follow it.
-/
namespace Sys2Proof.Machine

/-! ### Fields side by side -/

/-- The number whose bits hold fields side by side, the first one lowest, each as its width and value. -/
def packFields : List (Nat × Nat) → Nat
  | [] => 0
  | (w, v) :: fs => v + 2 ^ w * packFields fs

/-- A field is read back where the fields below it fit their widths. -/
theorem packFields_field {pre post : List (Nat × Nat)} {w v : Nat} (hpre : ∀ f ∈ pre, f.2 < 2 ^ f.1) (hv : v < 2 ^ w) :
    packFields (pre ++ (w, v) :: post) / 2 ^ (pre.map Prod.fst).sum % 2 ^ w = v := by
  induction pre with
  | nil => simp [packFields, Nat.add_mul_mod_self_left, Nat.mod_eq_of_lt hv]
  | cons f pre ih =>
    have hf := hpre f List.mem_cons_self
    rw [List.cons_append, packFields, List.map_cons, List.sum_cons, Nat.pow_add, ← Nat.div_div_eq_div_mul,
      Nat.add_mul_div_left _ _ (Nat.two_pow_pos _), Nat.div_eq_of_lt hf, Nat.zero_add]
    exact ih fun g hg => hpre g (List.mem_cons_of_mem f hg)

/-- Bits of a word made from a number are bits of the number. -/
theorem extractLsb'_ofNat_toNat {n lo len : Nat} (h : lo + len ≤ n) (x : Nat) :
    ((BitVec.ofNat n x).extractLsb' lo len).toNat = x / 2 ^ lo % 2 ^ len := by
  have hn : 2 ^ n = 2 ^ lo * 2 ^ (n - lo) := by rw [← Nat.pow_add]; congr 1; omega
  rw [BitVec.extractLsb'_toNat, BitVec.toNat_ofNat, Nat.shiftRight_eq_div_pow, hn, Nat.mod_mul_right_div_self,
    Nat.mod_mod_of_dvd _ (Nat.pow_dvd_pow 2 (by omega))]

/-! ### The presence mask (R212) -/

/-- The mask's bits are those of the words that are not zero. -/
theorem presenceMask_spec (v : Vec16) : presenceMask v < 2 ^ 16 ∧ ∀ j < 16, (presenceMask v).testBit j = (v.toList.getD j 0 != 0) := by
  have hstep (n : Nat) : let m := (List.range n).foldl (fun m j => if v.toList.getD j 0 = 0 then m else m + 2 ^ j) 0
      m < 2 ^ n ∧ ∀ j < n, m.testBit j = (v.toList.getD j 0 != 0) := by
    induction n with
    | zero => exact ⟨Nat.one_pos, fun j hj => absurd hj (Nat.not_lt_zero j)⟩
    | succ n ih =>
      rw [List.range_succ, List.foldl_append, List.foldl_cons, List.foldl_nil]
      generalize (List.range n).foldl (fun m j => if v.toList.getD j 0 = 0 then m else m + 2 ^ j) 0 = m at ih
      obtain ⟨hlt, hbits⟩ := ih
      have hpow : 2 ^ (n + 1) = 2 ^ n + 2 ^ n := by rw [Nat.pow_succ]; omega
      split
      · next hz =>
        refine ⟨by omega, fun j hj => ?_⟩
        obtain hj | rfl := Nat.lt_succ_iff_lt_or_eq.mp hj
        · exact hbits j hj
        · rw [Nat.testBit_lt_two_pow hlt, hz]
          rfl
      · next hz =>
        refine ⟨by omega, fun j hj => ?_⟩
        rw [Nat.add_comm]
        obtain hj | rfl := Nat.lt_succ_iff_lt_or_eq.mp hj
        · rw [Nat.testBit_two_pow_add_gt hj, hbits j hj]
        · rw [Nat.testBit_two_pow_add_eq, Nat.testBit_lt_two_pow hlt]
          simpa using hz
  exact hstep 16

/-! ### Words four to a flit (R214) -/

theorem strOfWords_word (ws : List Word) (i : Nat) : BitVec.ofNat 32 (strOfWords ws / 2 ^ (32 * i)) = ws.getD i 0 := by
  induction ws generalizing i with
  | nil => simp [strOfWords]
  | cons w ws ih =>
    cases i with
    | zero => simp [strOfWords, BitVec.ofNat_add, BitVec.ofNat_mul]
    | succ i =>
      rw [strOfWords, Nat.mul_succ, Nat.add_comm (32 * i) 32, Nat.pow_add, ← Nat.div_div_eq_div_mul,
        Nat.add_mul_div_left _ _ (by decide), Nat.div_eq_of_lt w.isLt, Nat.zero_add, ih]
      rfl

theorem strOfWords_lt (ws : List Word) : strOfWords ws < 2 ^ (32 * ws.length) := by
  induction ws with
  | nil => simp [strOfWords]
  | cons w ws ih =>
    have hw := w.isLt
    rw [strOfWords, List.length_cons, Nat.mul_succ, Nat.add_comm (32 * _) 32, Nat.pow_add]
    nlinarith

/-- The words of one flit: those packed in it, then zeros. -/
theorem flit_words {ws : List Word} (h : ws.length ≤ 4) :
    ((List.range 4).map fun i => BitVec.ofNat 32 ((BitVec.ofNat 128 (strOfWords ws)).toNat / 2 ^ (32 * i))) =
      ws ++ List.replicate (4 - ws.length) 0 := by
  have hlt : strOfWords ws < 2 ^ 128 := (strOfWords_lt ws).trans_le (Nat.pow_le_pow_right (by decide) (by omega))
  rw [BitVec.toNat_ofNat, Nat.mod_eq_of_lt hlt]
  simp only [strOfWords_word]
  refine List.ext_getElem (by simp; omega) fun i hi _ => ?_
  rw [List.getElem_map, List.getElem_range, List.getElem_append]
  split
  · next hlt => rw [List.getD_eq_getElem?_getD, List.getElem?_eq_getElem hlt]; rfl
  · next hge => rw [List.getD_eq_getElem?_getD, List.getElem?_eq_none (Nat.not_lt.mp hge), List.getElem_replicate]; rfl

/-- The words of the flits of a list: those packed, then zeros to a whole flit. -/
theorem packFlits_words {n : Nat} {ws : List Word} (h : ws.length ≤ 4 * n) : ∃ z, ((packFlits n ws).flatMap fun (f : BitVec 128) =>
    (List.range 4).map fun i => BitVec.ofNat 32 (f.toNat / 2 ^ (32 * i))) = ws ++ List.replicate z 0 := by
  induction n generalizing ws with
  | zero => exact ⟨0, by rw [List.length_eq_zero_iff.mp (by omega : ws.length = 0)]; rfl⟩
  | succ n ih =>
    rw [packFlits]
    split
    · next he => exact ⟨0, by rw [List.isEmpty_iff.mp he]; rfl⟩
    · obtain ⟨z, hz⟩ := ih (ws := ws.drop 4) (by rw [List.length_drop]; omega)
      rw [List.flatMap_cons, flit_words (List.length_take_le 4 ws), hz, List.length_take]
      by_cases hlen : 4 ≤ ws.length
      · exact ⟨z, by rw [Nat.min_eq_left hlen, Nat.sub_self, List.replicate_zero, List.append_nil, ← List.append_assoc, List.take_append_drop]⟩
      · exact ⟨4 - min 4 ws.length + z, by
          rw [List.drop_eq_nil_of_le (by omega), List.take_of_length_le (by omega), List.nil_append, List.append_assoc,
            List.replicate_append_replicate]⟩

theorem length_packFlits {n : Nat} {ws : List Word} (h : ws.length ≤ 4 * n) : (packFlits n ws).length = (ws.length + 3) / 4 := by
  induction n generalizing ws with
  | zero => rw [List.length_eq_zero_iff.mp (by omega : ws.length = 0)]; rfl
  | succ n ih =>
    rw [packFlits]
    split
    · next he => rw [List.isEmpty_iff.mp he]; rfl
    · next he =>
      have hpos : 0 < ws.length := List.length_pos_iff.mpr fun hn => he (List.isEmpty_iff.mpr hn)
      rw [List.length_cons, ih (by rw [List.length_drop]; omega), List.length_drop]
      omega

/-! ### Restoring the payload (R214) -/

/-- Words put at the places of a mask restore a list of which they are those that are not zero. -/
theorem placeWords_restores {v : List Word} (hv : v.length = 16) {mask : Nat} (hmask : ∀ j < 16, mask.testBit j = (v.getD j 0 != 0))
    (z : Nat) {n : Nat} (hn : n ≤ 16) :
    placeWords mask n ((v.drop (16 - n)).filter (fun w => w != 0) ++ List.replicate z 0) = v.drop (16 - n) := by
  induction n with
  | zero => rw [placeWords, List.drop_eq_nil_of_le (by omega)]
  | succ n ih =>
    have hlt : 15 - n < v.length := by omega
    have hdrop : v.drop (16 - (n + 1)) = v[15 - n] :: v.drop (16 - n) := by
      rw [show 16 - (n + 1) = 15 - n by omega, List.drop_eq_getElem_cons hlt, show 15 - n + 1 = 16 - n by omega]
    have hbit : mask.testBit (15 - n) = (v[15 - n] != 0) := by
      rw [hmask (15 - n) (by omega), List.getD_eq_getElem?_getD, List.getElem?_eq_getElem hlt, Option.getD_some]
    rw [hdrop, placeWords]
    rw [hbit, List.filter_cons]
    by_cases hw : v[15 - n] = 0
    · simp only [hw, bne_self_eq_false, Bool.false_eq_true, if_false]
      rw [ih (by omega)]
    · simp only [bne_iff_ne.mpr hw, if_true, List.cons_append, List.headD_cons, List.tail_cons]
      rw [ih (by omega)]

/-! ### The header flit (R212) -/

/-- The fields of a header flit, the lowest first. -/
def headerFields (k : FlitKind) (a : FlitTo) (r : Rec) : List (Nat × Nat) :=
  [(24, r.hdr.seq.toNat), (8, r.hdr.scale.toNat), (8, r.hdr.ck.toNat), (4, r.hdr.fmt.toNat), (5, r.hdr.len.toNat), (3, r.hdr.cls.toNat),
   (6, r.hdr.ctx.val), (3, r.hdr.lay.val), (3, 0), (16, presenceMask r.pay), (8, 0), (2, a.port.val), (7, a.sid.toNat), (7, a.page),
   (2, a.die.val), (22, k.code)]

/-- The widths of the fields of a header flit. -/
def headerWidths : List Nat := [24, 8, 8, 4, 5, 3, 6, 3, 3, 16, 8, 2, 7, 7, 2, 22]

theorem headerFields_widths (k : FlitKind) (a : FlitTo) (r : Rec) : (headerFields k a r).map Prod.fst = headerWidths := rfl

theorem headerFlit_eq (k : FlitKind) (a : FlitTo) (r : Rec) : headerFlit k a r = BitVec.ofNat 128 (packFields (headerFields k a r)) := by
  rw [headerFlit, eventBytes.hdrNat]
  refine congrArg (BitVec.ofNat 128) ?_
  simp only [headerFields, packFields]
  omega

/-- The fields below the page fit their widths, and so do all where the page does. -/
theorem headerFields_fit (k : FlitKind) (a : FlitTo) (r : Rec) : (∀ f ∈ (headerFields k a r).take 13, f.2 < 2 ^ f.1) ∧
    (a.page < 128 → ∀ f ∈ headerFields k a r, f.2 < 2 ^ f.1) := by
  have hcode : k.code < 2 ^ 22 := by cases k <;> decide
  have hmask := (presenceMask_spec r.pay).1
  have hlow : ∀ f ∈ (headerFields k a r).take 13, f.2 < 2 ^ f.1 := by
    simp only [headerFields, List.take_succ_cons, List.take_zero, List.forall_mem_cons]
    exact ⟨r.hdr.seq.isLt, r.hdr.scale.isLt, r.hdr.ck.isLt, r.hdr.fmt.isLt, r.hdr.len.isLt, r.hdr.cls.isLt, r.hdr.ctx.isLt, r.hdr.lay.isLt,
      by decide, hmask, by decide, a.port.isLt, a.sid.isLt, List.forall_mem_nil _⟩
  refine ⟨hlow, fun hpage => ?_⟩
  rw [← List.take_append_drop 13 (headerFields k a r), List.forall_mem_append]
  refine ⟨hlow, ?_⟩
  simp only [headerFields, List.drop_succ_cons, List.drop_zero, List.forall_mem_cons]
  exact ⟨hpage, a.die.isLt, hcode, List.forall_mem_nil _⟩

/-- A field of the header flit lies at the sum of the widths below it. -/
theorem headerFlit_field {k : FlitKind} {a : FlitTo} {r : Rec} (i : Nat) {lo w v : Nat} (h : (headerFields k a r)[i]? = some (w, v))
    (hlo : (headerWidths.take i).sum = lo) (hle : lo + w ≤ 128) (hi : i < 13 ∨ a.page < 128) :
    ((headerFlit k a r).extractLsb' lo w).toNat = v := by
  obtain ⟨hlow, hall⟩ := headerFields_fit k a r
  have hfit : ∀ f ∈ (headerFields k a r).take (i + 1), f.2 < 2 ^ f.1 := by
    obtain hi | hpage := hi
    · exact fun f hf => hlow f (List.take_subset_take_left _ hi hf)
    · exact fun f hf => hall hpage f (List.mem_of_mem_take hf)
  obtain ⟨hlt, he⟩ := List.getElem?_eq_some_iff.mp h
  have hsplit : headerFields k a r = (headerFields k a r).take i ++ (w, v) :: (headerFields k a r).drop (i + 1) := by
    rw [← he, ← List.drop_eq_getElem_cons hlt, List.take_append_drop]
  rw [List.take_succ_eq_append_getElem hlt, he, List.forall_mem_append] at hfit
  rw [headerFlit_eq, extractLsb'_ofNat_toNat hle, hsplit, ← hlo, ← headerFields_widths k a r, ← List.map_take]
  exact packFields_field hfit.1 (hfit.2 (w, v) (List.mem_singleton_self _))

theorem headerFlit_mask (k : FlitKind) (a : FlitTo) (r : Rec) :
    ((headerFlit k a r).extractLsb' 64 16).toNat = presenceMask r.pay :=
  headerFlit_field 9 rfl (by decide) (by decide) (.inl (by decide))

theorem headerFlit_presence (k : FlitKind) (a : FlitTo) (r : Rec) (j : Fin 16) :
    (headerFlit k a r).getLsbD (64 + j.val) = (r.pay[j.val] != 0) := by
  have hbit : ((headerFlit k a r).extractLsb' 64 16).getLsbD j.val = (headerFlit k a r).getLsbD (64 + j.val) := by
    rw [BitVec.getLsbD_extractLsb', decide_eq_true j.isLt, Bool.true_and]
  rw [← hbit, BitVec.getLsbD, headerFlit_mask, (presenceMask_spec r.pay).2 j.val j.isLt, List.getD_eq_getElem?_getD, Vector.getElem?_toList]
  simp

/-- The input port restores the payload from the flits of its record. -/
theorem flitsPayload_recordFlits (k : FlitKind) (a : FlitTo) (r : Rec) : flitsPayload (recordFlits k a r) = r.pay.toList := by
  have hlen : (r.pay.toList.filter fun w => w != 0).length ≤ 4 * 4 := (List.length_filter_le _ _).trans_eq r.pay.length_toList
  have hnat : bitsNat 79 64 (headerFlit k a r).toNat = presenceMask r.pay := by
    rw [bitsNat, ← headerFlit_mask k a r, BitVec.extractLsb'_toNat]
  obtain ⟨z, hz⟩ := packFlits_words hlen
  rw [flitsPayload, recordFlits, List.headD_cons, List.tail_cons, hnat, hz]
  exact placeWords_restores r.pay.length_toList (presenceMask_spec r.pay).2 z le_rfl

theorem length_recordFlits (k : FlitKind) (a : FlitTo) (r : Rec) :
    (recordFlits k a r).length = 1 + ((r.pay.toList.filter fun w => w != 0).length + 3) / 4 := by
  rw [recordFlits, List.length_cons, length_packFlits ((List.length_filter_le _ _).trans_eq r.pay.length_toList), Nat.add_comm]

theorem headerFlit_bits {k : FlitKind} {a : FlitTo} {r : Rec} {w : Nat} (i : Nat) {lo : Nat} {v : BitVec w}
    (hi : (headerFields k a r)[i]? = some (w, v.toNat)) (hlo : (headerWidths.take i).sum = lo) (hle : lo + w ≤ 128)
    (h13 : i < 13 ∨ a.page < 128) : (headerFlit k a r).extractLsb' lo w = v := BitVec.eq_of_toNat_eq (headerFlit_field i hi hlo hle h13)

theorem headerFlit_header (k : FlitKind) (a : FlitTo) (r : Rec) : let h := headerFlit k a r
    h.extractLsb' 0 24 = r.hdr.seq ∧ h.extractLsb' 24 8 = r.hdr.scale ∧ h.extractLsb' 32 8 = r.hdr.ck ∧ h.extractLsb' 40 4 = r.hdr.fmt ∧
      h.extractLsb' 44 5 = r.hdr.len ∧ h.extractLsb' 49 3 = r.hdr.cls ∧ (h.extractLsb' 52 6).toNat = r.hdr.ctx.val ∧
      (h.extractLsb' 58 3).toNat = r.hdr.lay.val :=
  ⟨headerFlit_bits 0 rfl (by decide) (by decide) (.inl (by decide)), headerFlit_bits 1 rfl (by decide) (by decide) (.inl (by decide)),
    headerFlit_bits 2 rfl (by decide) (by decide) (.inl (by decide)), headerFlit_bits 3 rfl (by decide) (by decide) (.inl (by decide)),
    headerFlit_bits 4 rfl (by decide) (by decide) (.inl (by decide)), headerFlit_bits 5 rfl (by decide) (by decide) (.inl (by decide)),
    headerFlit_field 6 rfl (by decide) (by decide) (.inl (by decide)), headerFlit_field 7 rfl (by decide) (by decide) (.inl (by decide))⟩

theorem headerFlit_target (k : FlitKind) (a : FlitTo) (r : Rec) (hpage : a.page < 128) : let h := headerFlit k a r
    (h.extractLsb' 88 2).toNat = a.port.val ∧ h.extractLsb' 90 7 = a.sid ∧ (h.extractLsb' 97 7).toNat = a.page ∧
      (h.extractLsb' 104 2).toNat = a.die.val ∧ (h.extractLsb' 106 22).toNat = k.code :=
  ⟨headerFlit_field 11 rfl (by decide) (by decide) (.inr hpage), headerFlit_bits 12 rfl (by decide) (by decide) (.inr hpage),
    headerFlit_field 13 rfl (by decide) (by decide) (.inr hpage), headerFlit_field 14 rfl (by decide) (by decide) (.inr hpage),
    headerFlit_field 15 rfl (by decide) (by decide) (.inr hpage)⟩

theorem recordFlits_carry : Claims.RecordFlits := fun k a r =>
  ⟨flitsPayload_recordFlits k a r, length_recordFlits k a r, headerFlit_header k a r, headerFlit_presence k a r, headerFlit_target k a r⟩

/-- Settles O37: what moves a record is followed through its link, its station and its flits, and a channel through its retraining. -/
theorem fabricMovesRecords : Obligations.FabricMovesRecords := ⟨fabricMoves, recordFlits_carry, channelRepair⟩

end Sys2Proof.Machine
end

section
/-!
PROOFS. The slots of the up-projection store (06 R173, R193): a store in order stays so, and reads back what was put.
-/
namespace Sys2Proof.Machine

/-- Slots in order: their numbers rise, and none of zeros is listed. -/
def SlotsInOrder (u : List (Nat × Vec16)) : Prop := u.Pairwise (fun x y => x.1 < y.1) ∧ ∀ x ∈ u, x.2 ≠ vzero

theorem slotsInOrder_cons {x : Nat × Vec16} {u : List (Nat × Vec16)} :
    SlotsInOrder (x :: u) ↔ (∀ y ∈ u, x.1 < y.1) ∧ x.2 ≠ vzero ∧ SlotsInOrder u := by
  simp only [SlotsInOrder, List.pairwise_cons, List.forall_mem_cons]
  tauto

/-- A slot put before those of greater numbers, or left out as one of zeros. -/
def listSlot (n : Nat) (v : Vec16) (u : List (Nat × Vec16)) : List (Nat × Vec16) := if v = vzero then u else (n, v) :: u

/-- A slot goes in front of the first of a greater number, and takes the place of its own. -/
theorem putSlot_cons (n : Nat) (v : Vec16) (x : Nat × Vec16) (u : List (Nat × Vec16)) :
    putSlot n v (x :: u) = if x.1 = n then listSlot n v u else if n < x.1 then listSlot n v (x :: u) else x :: putSlot n v u := rfl

/-! ### Order -/

theorem mem_listSlot {n : Nat} {v : Vec16} {u : List (Nat × Vec16)} {y : Nat × Vec16} (hy : y ∈ listSlot n v u) : y.1 = n ∨ y ∈ u := by
  unfold listSlot at hy
  split_ifs at hy
  · exact .inr hy
  · exact (List.mem_cons.mp hy).imp_left (congrArg Prod.fst)

theorem SlotsInOrder.listSlot {n : Nat} {v : Vec16} {u : List (Nat × Vec16)} (h : SlotsInOrder u) (hn : ∀ y ∈ u, n < y.1) :
    SlotsInOrder (listSlot n v u) := by
  unfold Machine.listSlot
  split_ifs with hv
  · exact h
  · exact slotsInOrder_cons.mpr ⟨hn, hv, h⟩

theorem mem_putSlot {n : Nat} {v : Vec16} {u : List (Nat × Vec16)} {y : Nat × Vec16} (hy : y ∈ putSlot n v u) : y.1 = n ∨ y ∈ u := by
  induction u with
  | nil => exact mem_listSlot hy
  | cons x u ih =>
    rw [putSlot_cons] at hy
    split_ifs at hy
    · exact (mem_listSlot hy).imp_right (List.mem_cons_of_mem x)
    · exact mem_listSlot hy
    · obtain rfl | hy := List.mem_cons.mp hy
      · exact .inr List.mem_cons_self
      · exact (ih hy).imp_right (List.mem_cons_of_mem x)

theorem SlotsInOrder.putSlot {u : List (Nat × Vec16)} (h : SlotsInOrder u) (n : Nat) (v : Vec16) : SlotsInOrder (putSlot n v u) := by
  induction u with
  | nil => exact h.listSlot (List.forall_mem_nil _)
  | cons x u ih =>
    obtain ⟨hx, hnz, hu⟩ := slotsInOrder_cons.mp h
    rw [putSlot_cons]
    split_ifs with hn hlt
    · exact hu.listSlot (hn ▸ hx)
    · exact h.listSlot (List.forall_mem_cons.mpr ⟨hlt, fun y hy => hlt.trans (hx y hy)⟩)
    · refine slotsInOrder_cons.mpr ⟨fun y hy => ?_, hnz, ih hu⟩
      obtain rfl | hy := mem_putSlot hy
      · omega
      · exact hx y hy

/-! ### Reading back -/

theorem Matrix.uSlot_cons (m : Matrix) (x : Nat × Vec16) (u : List (Nat × Vec16)) (k : Nat) :
    ({ m with u := x :: u }).uSlot k = if x.1 = k then x.2 else ({ m with u := u }).uSlot k := by
  by_cases h : x.1 = k <;> simp [Matrix.uSlot, h]

/-- A slot that is not listed is zero. -/
theorem Matrix.uSlot_unlisted (m : Matrix) {u : List (Nat × Vec16)} {k : Nat} (h : ∀ x ∈ u, k < x.1) :
    ({ m with u := u }).uSlot k = vzero := by
  induction u with
  | nil => rfl
  | cons x u ih =>
    obtain ⟨hx, hu⟩ := List.forall_mem_cons.mp h
    rw [Matrix.uSlot_cons, if_neg hx.ne', ih hu]

theorem Matrix.uSlot_listSlot (m : Matrix) {n : Nat} {u : List (Nat × Vec16)} (h : ∀ x ∈ u, n < x.1) (v : Vec16) (k : Nat) :
    ({ m with u := listSlot n v u }).uSlot k = if k = n then v else ({ m with u := u }).uSlot k := by
  unfold listSlot
  split_ifs with hv hk hk
  · rw [hk, hv, m.uSlot_unlisted h]
  · rfl
  · rw [Matrix.uSlot_cons, if_pos hk.symm]
  · rw [Matrix.uSlot_cons, if_neg (Ne.symm hk)]

/-- The slot put reads as it was put, and every other one as before. -/
theorem Matrix.uSlot_putSlot (m : Matrix) {u : List (Nat × Vec16)} (h : SlotsInOrder u) (n : Nat) (v : Vec16) (k : Nat) :
    ({ m with u := putSlot n v u }).uSlot k = if k = n then v else ({ m with u := u }).uSlot k := by
  induction u with
  | nil => exact m.uSlot_listSlot (List.forall_mem_nil _) v k
  | cons x u ih =>
    obtain ⟨hx, -, hu⟩ := slotsInOrder_cons.mp h
    rw [putSlot_cons, m.uSlot_cons]
    by_cases hn : x.1 = n
    · rw [if_pos hn, m.uSlot_listSlot (hn ▸ hx), hn]
      exact ite_congr rfl (fun _ => rfl) fun hk => (if_neg (Ne.symm hk)).symm
    rw [if_neg hn]
    by_cases hlt : n < x.1
    · rw [if_pos hlt, m.uSlot_listSlot (List.forall_mem_cons.mpr ⟨hlt, fun y hy => hlt.trans (hx y hy)⟩), m.uSlot_cons]
    rw [if_neg hlt, m.uSlot_cons, ih hu]
    by_cases hk : x.1 = k
    · rw [if_pos hk, if_pos hk, if_neg (by omega)]
    · rw [if_neg hk, if_neg hk]

theorem uslotReadsBack : Claims.UslotReadsBack := by
  intro m n k v hrise hnz
  have h : SlotsInOrder m.u := ⟨List.pairwise_map.mp hrise, hnz⟩
  obtain ⟨hrise', hnz'⟩ := h.putSlot n v
  exact ⟨List.pairwise_map.mpr hrise', hnz', m.uSlot_putSlot h n v k⟩

end Sys2Proof.Machine
end

section
/-!
PROOFS. The matrix instructions (06 R181 to R193): each reads the record of its execution, changes the matrix state, the LFSR
or the record, and goes on.
-/
namespace Sys2Proof.Machine

/-! ### An execution of a matrix station -/

/-- The payload as a matrix instruction computes with it (R28). -/
def State.matrixPay (s : State) (p : Place) (f : Frame) : Vec16 := vput vzero 0 ((s.run p f).fWords 0 16).1

/-- The run once a matrix instruction has read its payload, which takes free values where the record is poison. -/
def State.matrixRun (s : State) (p : Place) (f : Frame) : Run := { s.run p f with free := ((s.run p f).fWords 0 16).2.free }

/-- Reading the payload changes the count of free values alone. -/
theorem Run.fWords_snd (r : Run) (j g : Nat) : (r.fWords j g).2 = { r with free := (r.fWords j g).2.free } := by
  unfold Run.fWords
  split <;> rfl

theorem fWords_snd_eq_matrixRun (s : State) (p : Place) (f : Frame) : ((s.run p f).fWords 0 16).2 = s.matrixRun p f :=
  Run.fWords_snd _ _ _

theorem vput_vgroup_all (v : Vec16) : vput vzero 0 (vgroup v 0 16) = v := by
  have hlen : (vgroup v 0 16).length = 16 := by simp [vgroup]
  refine Vector.ext fun i hi => Option.some.inj ?_
  rw [← Vector.getElem?_eq_getElem, ← Vector.getElem?_eq_getElem, vput_eq_writeFrom]
  have h := getElem?_writeFrom_same vzero 0 (vgroup v 0 16) (i := i) (by omega) (by omega)
  rw [Nat.zero_add] at h
  rw [h, vgroup_eq v (by omega), List.drop_zero, List.take_of_length_le (by simp), Vector.getElem?_toList]

/-- A record that is not poison is computed with as it stands. -/
theorem matrixPay_of_not_poison (s : State) (p : Place) {f : Frame} (h : f.r.isPoison = false) : s.matrixPay p f = f.r.pay := by
  have hw : ((s.run p f).fWords 0 16).1 = vgroup f.r.pay 0 16 := by
    unfold Run.fWords
    rw [show (s.run p f).f.r.isPoison = false from h]
    rfl
  rw [State.matrixPay, hw, vput_vgroup_all]

/-! ### What the functions of an instruction give -/

/-- mma of a type other than mx8 under no unlay stage (R182): a bad record spoils its row, any other adds to it, and either
counts one use. -/
theorem mmaPlain_of_not_mx8 {o : XForm} (h12 : o.aty ≠ 12) (m : Matrix) (h : Hdr) (pay : Vec16) :
    mmaPlain o m h pay =
      if h.fmt = 15 ∨ m.ta.poison = true ∨ (m.ta.fmt.isSome = true ∧ m.ta.fmt ≠ some o.bty) ∨ (o.um = 2 ∧ m.ta.chunk ≠ some o.n16)
      then (m.modRow (Fin.ofNat 4 o.acc.toNat) (rowOf h) AccRow.spoil).use
      else (m.rowUpdate (Fin.ofNat 4 o.acc.toNat) (rowOf h)
        (decodeAll (fmtOf o.aty) h.scale (recElems (fmtOf o.aty) h.len.toNat pay)) (fmtOf o.bty)).use := by
  unfold mmaPlain
  simp only [if_neg h12]
  rw [apply_ite Matrix.use]
  refine if_congr ?_ rfl rfl
  simp [Tile.isEmpty, or_assoc]

/-- tld under none (R186). -/
theorem tldPlain_eq (o : XForm) (m : Matrix) (h : Hdr) (pay : Vec16) :
    tldPlain o m h pay =
      let t := m.tb.tagFor o.bty none
      { m with tb := { t with cols := t.cols.setIfInBounds (h.seq.toNat % 64) pay,
                              scales := t.scales.setIfInBounds (h.seq.toNat % 64) (if o.bty = 12 ∨ o.bty = 13 then h.scale else 0x7f),
                              poison := t.poison || h.fmt == 15 } } := by
  simp only [tldPlain, Bool.or_eq_true, decide_eq_true_eq]

/-- A readout of a record keeps poison (R28, R191, R192). -/
theorem readOut_eq {bad : Bool} {P : Prop} [Decidable P] (r : Rec) (h : bad = true ∨ r.hdr.fmt = 15 ↔ P) (pay : Vec16)
    (len : BitVec 5) (fmt : BitVec 4) :
    readOut r pay len fmt bad = ⟨{ r.hdr with len := len, scale := 0, fmt := if P then 15 else fmt }, pay, r.past⟩ := by
  rw [readOut, if_congr (by simpa using h) rfl rfl]

theorem length_freeWords (k n : Nat) : (freeWords k n).length = n := by
  induction n generalizing k with
  | zero => rfl
  | succ n ih => rw [freeWords, List.length_cons, ih]

/-- The words of quarter q of a row (R191). -/
def AccRow.quarter (x : AccRow) (q : Fin 4) : Vec16 := Vector.ofFn fun i => x.vals[16 * q.val + i.val]'(by omega)

/-- A row with quarter q cleared (R191): its sixteen values are zero and its poison bit clear. -/
def AccRow.clearQuarter (x : AccRow) (q : Fin 4) : AccRow :=
  { x with vals := Vector.ofFn fun i => if i.val / 16 = q.val then 0 else x.vals[i], mask := x.mask &&& ~~~((1 : BitVec 4) <<< q.val) }

/-- A quarter lies in its row, so that reading it meets no end. -/
theorem AccRow.quarter_eq (x : AccRow) (q : Fin 4) :
    (Vector.ofFn fun i : Fin 16 => (x.vals[16 * q.val + i.val]?).getD 0) = x.quarter q := by
  refine congrArg Vector.ofFn (funext fun i => ?_)
  rw [Vector.getElem?_eq_getElem (by omega), Option.getD_some]

/-- What accrd.ul reads: the elements of its group, and the LFSR after their draws (R192). -/
def ulRead (o : XForm) (m : Matrix) (h : Hdr) (l : Word) : List Nat × Word :=
  ulElems m (m.row (Fin.ofNat 4 o.acc.toNat) (rowOf h)) (o.n16.toNat / 8 % 8) (fmtOf o.bty) (modRm o.mod) (modSat o.mod)
    ((List.range 16).map fun j => 16 * (o.n16.toNat % 8) + j) l

/-- The words that the output of accrd.ul fills (R192). -/
def ulLen (o : XForm) : BitVec 5 := if o.bty = 1 then 16 else 8

/-- What makes the output of accrd.ul bad: a poisoned row, rows that u lacks, or a poisoned slot read (R192). -/
def ulBad (o : XForm) (m : Matrix) (h : Hdr) : Bool :=
  (m.row (Fin.ofNat 4 o.acc.toNat) (rowOf h)).mask != 0 || m.udc < 64 * (o.n16.toNat / 8 % 8) + 64 ||
    m.uPoisoned (64 * (o.n16.toNat / 8 % 8)) 64 (16 * (o.n16.toNat % 8)) 16

theorem ulBad_or_poison (o : XForm) (m : Matrix) (h : Hdr) :
    ulBad o m h = true ∨ h.fmt = 15 ↔
      (m.row (Fin.ofNat 4 o.acc.toNat) (rowOf h)).mask ≠ 0 ∨ m.udc < 64 * (o.n16.toNat / 8 % 8) + 64 ∨
        m.uPoisoned (64 * (o.n16.toNat / 8 % 8)) 64 (16 * (o.n16.toNat % 8)) 16 = true ∨ h.fmt = 15 := by
  simp [ulBad, or_assoc]

/-- An execution after accrd.ul has put its words (R192). -/
def ulPut (o : XForm) (m : Matrix) (f : Frame) (ws : List Word) : Frame :=
  { f with lfsr := (ulRead o m f.r.hdr f.lfsr).2, r := readOut f.r (vput f.r.pay 0 ws) (ulLen o) o.bty (ulBad o m f.r.hdr) }

/-! ### The instructions -/

/-- A matrix instruction has left an execution as g, and the next one follows. -/
def State.matrixNext (s : State) (p : Place) (f g : Frame) : Res := .next (s.nextIp p { s.matrixRun p f with f := g })

section Station

variable {s : State} {p : Place} {f : Frame} {m : Matrix} (hcur : s.cur = .station p f) (hmx : f.mx = some m)
include hcur hmx

theorem atMatrix_station (g : Run → Matrix → Hdr → Vec16 → Run) :
    atMatrix s g = .next (s.nextIp p (g (s.matrixRun p f) m f.r.hdr (s.matrixPay p f))) := by
  unfold atMatrix
  simp only [hcur, hmx]
  rw [← fWords_snd_eq_matrixRun]
  rfl

theorem exec_mma_plain {o : XForm} (h : o.um ≠ 1) :
    exec (.mma o) s = s.matrixNext p f { f with mx := some (mmaPlain o m f.r.hdr (s.matrixPay p f)) } := by
  change execMma o s = _
  rw [execMma, atMatrix_station hcur hmx, if_neg h]
  rfl

theorem exec_mma_expand {o : XForm} (h : o.um = 1) : exec (.mma o) s = s.matrixNext p f { f with
    mx := some (mmaExpand o m f.r.hdr (s.matrixPay p f) f.seg f.lfsr).1,
    lfsr := (mmaExpand o m f.r.hdr (s.matrixPay p f) f.seg f.lfsr).2 } := by
  change execMma o s = _
  rw [execMma, atMatrix_station hcur hmx, if_pos h]
  rfl

theorem exec_tld_plain {o : XForm} (h : o.um ≠ 2) :
    exec (.tld o) s = s.matrixNext p f { f with mx := some (tldPlain o m f.r.hdr (s.matrixPay p f)) } := by
  change execTld o s = _
  rw [execTld, atMatrix_station hcur hmx, if_neg h]
  rfl

theorem exec_tld_absorb {o : XForm} (h : o.um = 2) : exec (.tld o) s = s.matrixNext p f { f with
    mx := some (tldAbsorb o m f.r.hdr (s.matrixPay p f) f.seg f.lfsr).1,
    lfsr := (tldAbsorb o m f.r.hdr (s.matrixPay p f) f.seg f.lfsr).2 } := by
  change execTld o s = _
  rw [execTld, atMatrix_station hcur hmx, if_pos h]
  rfl

theorem exec_tswap (o : XForm) : exec (.tswap o) s =
    s.matrixNext p f { f with mx := some (if o.n16 = 0 then m.makeSwap else { m with swap := some o.n16 }) } := by
  change execTswap o s = _
  exact atMatrix_station hcur hmx _

theorem exec_tzero (o : XForm) (hw : ∀ x y z, m.w.owner ≠ some (.absorb x y z)) :
    exec (.tzero o) s = s.matrixNext p f { f with mx := some { m with tb := Tile.empty } } := by
  change execTzero o s = _
  rw [execTzero, atMatrix_station hcur hmx]
  dsimp only
  split
  · next x y z h => exact absurd h (hw x y z)
  · rfl

/-- tzero drops the vector that an absorb is building (R189). -/
theorem exec_tzero_absorb (o : XForm) {x : Fin 4} {y : Fin 64} {z : BitVec 16} (hw : m.w.owner = some (.absorb x y z)) :
    exec (.tzero o) s = s.matrixNext p f { f with mx := some { m with tb := Tile.empty, w := WVec.empty } } := by
  change execTzero o s = _
  rw [execTzero, atMatrix_station hcur hmx]
  simp only [hw]
  rfl

theorem exec_accz_all {o : XForm} (h : o.n16.getLsbD 15 = true) : exec (.accz o) s = s.matrixNext p f { f with
    mx := some (let a : Fin 4 := Fin.ofNat 4 o.acc.toNat; { m with acc := m.acc.set a.val (m.acc[a.val].map AccRow.clear) }) } := by
  change execAccz o s = _
  rw [execAccz, atMatrix_station hcur hmx]
  exact congrArg (fun r => Host.Outcome.next (s.nextIp p r)) (if_pos h)

theorem exec_accz_row {o : XForm} (h : o.n16.getLsbD 15 = false) : exec (.accz o) s = s.matrixNext p f { f with
    mx := some (m.modRow (Fin.ofNat 4 o.acc.toNat) (rowOf f.r.hdr) AccRow.clear) } := by
  change execAccz o s = _
  rw [execAccz, atMatrix_station hcur hmx]
  exact congrArg (fun r => Host.Outcome.next (s.nextIp p r)) (if_neg (ne_true_of_eq_false h))

theorem exec_accrd {o : XForm} {q : Fin 4} (hq : o.n16.toNat % 4 = q.val) :
    let a : Fin 4 := Fin.ofNat 4 o.acc.toNat
    let old := m.row a (rowOf f.r.hdr)
    exec (.accrd o) s = s.matrixNext p f { f with
      r := readOut f.r (old.quarter q) 16 1 (old.mask.getLsbD q.val),
      mx := some (if o.n16.getLsbD 2 = true then m.modRow a (rowOf f.r.hdr) (AccRow.clearQuarter · q) else m) } := by
  intro a old
  change execAccrd o s = _
  rw [execAccrd, atMatrix_station hcur hmx, ← AccRow.quarter_eq]
  simp only [hq]
  rfl

theorem exec_accrdUl {o : XForm} (h : m.uReaches (o.n16.toNat / 8 % 8) = true) :
    exec (.accrdUl o) s = s.matrixNext p f
      (ulPut o m f (wordsOfStr (ulLen o).toNat (strOfElems (fmtBits (fmtOf o.bty)) (ulRead o m f.r.hdr f.lfsr).1))) := by
  change execAccrdUl o s = _
  rw [execAccrdUl, atMatrix_station hcur hmx]
  simp only [h, if_true]
  rfl

/-- Elements that u lacks are free values (log entry 2). -/
theorem exec_accrdUl_free {o : XForm} (h : m.uReaches (o.n16.toNat / 8 % 8) = false) :
    exec (.accrdUl o) s = .next (s.nextIp p { s.matrixRun p f with
      f := ulPut o m f (freeWords (s.matrixRun p f).free (ulLen o).toNat), free := (s.matrixRun p f).free + (ulLen o).toNat }) := by
  change execAccrdUl o s = _
  rw [execAccrdUl, atMatrix_station hcur hmx]
  simp only [h, Bool.false_eq_true, if_false]
  rfl

theorem exec_ulset (o : XForm) :
    exec (.ulset o) s = s.matrixNext p f { f with
      mx := some { m with u := putSlot (f.r.hdr.seq.toNat % 1024) (s.matrixPay p f) m.u, ufmt := some o.bty, udc := o.n16.toNat,
                          upoison := if f.r.hdr.fmt = 15 then insertN (f.r.hdr.seq.toNat % 1024) m.upoison
                            else eraseN (f.r.hdr.seq.toNat % 1024) m.upoison } } := by
  change execUlset o s = _
  exact atMatrix_station hcur hmx _

end Station

theorem matrixInstructions_complete : Claims.MatrixInstructions := by
  intro s p f m o hcur hmx h pay r
  have hr : r = s.matrixRun p f := fWords_snd_eq_matrixRun s p f
  clear_value r
  subst hr
  intro done puts a row
  refine ⟨matrixPay_of_not_poison s p, fun hum h12 => ?_, exec_mma_plain hcur hmx, exec_mma_expand hcur hmx, fun hum => ?_,
    exec_tld_absorb hcur hmx, fun hn => ?_, fun hn => ?_, exec_tzero hcur hmx o, fun _ _ _ => exec_tzero_absorb hcur hmx o,
    exec_accz_all hcur hmx, exec_accz_row hcur hmx, fun q hq => ?_, ?_, exec_ulset hcur hmx o⟩
  · rw [exec_mma_plain hcur hmx hum, mmaPlain_of_not_mx8 h12]
    rfl
  · rw [exec_tld_plain hcur hmx hum, tldPlain_eq]
    rfl
  · rw [exec_tswap hcur hmx, if_pos hn]
    rfl
  · rw [exec_tswap hcur hmx, if_neg hn]
    rfl
  · intro old words hdr
    refine ⟨fun hclr => ?_, fun hclr => ?_⟩
    · rw [exec_accrd hcur hmx hq, if_neg (ne_true_of_eq_false hclr), ← hmx]
      rfl
    · rw [exec_accrd hcur hmx hq, if_pos hclr]
      rfl
  · intro c q x bad hdr out
    have hout (ws : List Word) : ulPut o m f ws = out ws := by
      rw [ulPut, readOut_eq f.r (ulBad_or_poison o m f.r.hdr)]
      rfl
    refine ⟨fun hreach => ?_, fun hreach => ⟨freeWords (s.matrixRun p f).free hdr.len.toNat, length_freeWords _ _, ?_⟩⟩
    · rw [exec_accrdUl hcur hmx hreach, hout]
      rfl
    · rw [exec_accrdUl_free hcur hmx hreach, ← hout]
      rfl

/-- Settles O26: each matrix instruction is read off its function at the station, and u by induction on its list of slots. -/
theorem matrixInstructions : Obligations.MatrixInstructions := ⟨matrixInstructions_complete, uslotReadsBack⟩

end Sys2Proof.Machine
end

section
/-!
PROOFS. A lay at a splice (07 R200 to R209): what taking a head, sending on a link and counting in loops leave of the links and of
the station that does so.
-/
namespace Sys2Proof.Machine

/-! ### Links -/

@[simp] theorem Lay.links_modLink (x : Lay) (k : Nat) (f : Link → Link) : (x.modLink k f).links = x.links.modify k f := by
  rw [x.modLink_eq_modify]

@[simp] theorem Lay.handler_modLink (x : Lay) (k : Nat) (f : Link → Link) : (x.modLink k f).handler = x.handler := by
  rw [x.modLink_eq_modify]

/-- An item pushed onto a link takes one of its slots and stands last on its way (R201). -/
def Link.pushed (l : Link) (it : Item) : Link := { l with free := l.free - 1, flight := l.flight ++ [(it, 0)] }

theorem Lay.links_push (x : Lay) (k : Nat) (it : Item) : (x.push k it).links = x.links.modify k fun l => l.pushed it := by
  rw [Lay.push, Lay.sendOn, Lay.links_modLink, Lay.reserve, Lay.links_modLink, List.modify_modify_eq]
  rfl

@[simp] theorem Lay.stations_push (x : Lay) (k : Nat) (it : Item) : (x.push k it).stations = x.stations := by
  rw [Lay.push, Lay.sendOn, Lay.stations_modLink, Lay.reserve, Lay.stations_modLink]

/-- The receiver lets a head go: the records behind it move up, and those on their way stay there (R201, R202). -/
theorem Lay.getElem?_takeHead {x : Lay} {k : Nat} {lk : Link} (hk : x.links[k]? = some lk) (now : Nat) :
    ∃ lk', (x.takeHead k now).links[k]? = some lk' ∧ lk'.buf = lk.buf.tail ∧ lk'.headAt = now ∧ lk'.flight = lk.flight := by
  rw [Lay.takeHead, x.getElem?_modLink, if_pos rfl, hk]
  refine ⟨_, rfl, ?_⟩
  dsimp only
  split_ifs <;> exact ⟨rfl, rfl, rfl⟩

theorem Lay.getElem?_takeHead_other {k j : Nat} (h : j ≠ k) (x : Lay) (now : Nat) : (x.takeHead k now).links[j]? = x.links[j]? := by
  rw [Lay.takeHead, x.getElem?_modLink, if_neg h.symm]

@[simp] theorem Lay.stations_takeHead (x : Lay) (k now : Nat) : (x.takeHead k now).stations = x.stations := x.stations_modLink k _

/-! ### The station that passes a record on -/

theorem Lay.station?_congr {x y : Lay} (h : x.stations = y.stations) (pid : Pid) (sid : Sid) : x.station? pid sid = y.station? pid sid := by
  rw [Lay.station?, h, Lay.station?]

/-- Counting in loops leaves the station that the record passes (R208). -/
theorem Lay.station?_loopLeave_same (x : Lay) (pid : Pid) (sid : Sid) (counted : Bool) (outs : List Link) :
    (x.loopLeave pid sid counted outs).station? pid sid = x.station? pid sid := by
  obtain ⟨g, hg, hloop, hsame⟩ : ∃ g, KeepsPlace g ∧ x.loopLeave pid sid counted outs = { x with stations := x.stations.map g } ∧
      ∀ y : Station, (y.pid == pid && y.sid == sid) = true → g y = y := by
    refine ⟨_, fun y => ?_, rfl, fun y hy => ?_⟩
    · dsimp only
      split
      · split
        · exact (changesBody_modSplice (fun _ => _)).keepsPlace y
        · exact ⟨rfl, rfl⟩
      · exact ⟨rfl, rfl⟩
    · simp [hy]
  rw [hloop, x.station?_map hg]
  cases h : x.station? pid sid with
  | none => rfl
  | some y => exact congrArg some (hsame y (List.find?_some (p := fun y : Station => y.pid == pid && y.sid == sid) h))

theorem keepsPlace_modSplice (f : Splice → Splice) : KeepsPlace fun y => y.modSplice f := (changesBody_modSplice fun _ => f).keepsPlace

theorem Station.body_modSplice {y : Station} {b : Splice} (h : y.body = .splice b) (f : Splice → Splice) :
    y.modSplice f = { y with body := .splice (f b) } := by
  rw [Station.modSplice, h]

/-- The station of a place, changed, in a lay that counts the record in its loops. -/
theorem Lay.station?_loopMove_modStation {x z : Lay} (hz : z.stations = x.stations) {p : Place} {y : Station}
    (hy : x.station? p.pid p.sid = some y) {g : Station → Station} (hg : KeepsPlace g) (outs : List Link) :
    ((z.modStation p.pid p.sid g).loopMove p.pid p.sid outs).station? p.pid p.sid = some (g y) := by
  rw [Lay.loopMove, Lay.station?_loopLeave_same, Lay.station?_modStation_same hg, Lay.station?_congr hz, hy, Option.map_some]

/-- A change of a lay followed to the station of a place. -/
theorem State.at_modLay {s : State} {p : Place} {x : Lay} (hx : s.lay? p.ctx p.slot = some x) {m : Lay → Lay} {y : Station}
    (hy : (m x).station? p.pid p.sid = some y) : (s.modLay p.ctx p.slot m).At p (m x) y := ⟨lay?_modLay_of_ctxs rfl hx m, hy⟩

/-- Changing a lay changes the contexts alone. -/
theorem State.modLay_ctxs_only (s : State) (c : CtxId) (l : LaySlot) (m : Lay → Lay) : { s.modLay c l m with ctxs := s.ctxs } = s := by
  unfold State.modLay
  split <;> rfl

end Sys2Proof.Machine
end

section
/-!
PROOFS. The splices (07 R205, R206, R208, R210): which head each mode passes, and what passing one does.
-/
namespace Sys2Proof.Machine

/-- At a place of a lay stands a splice that is alive. -/
structure State.SpliceHere (s : State) (p : Place) (x : Lay) (st : Station) (b : Splice) : Prop where
  lay : s.lay? p.ctx p.slot = some x
  station : s.station? p = some st
  body : st.body = .splice b
  alive : st.dead = false

/-! ### The head that a merge takes (R205) -/

/-- A head as a merge sees it: its list entry, port, link and record, and the cycle it became head. -/
abbrev MergeHead := Nat × Fin 4 × Nat × Rec × Nat

/-- The head taken so far and the next one: the one that became head first, of one cycle the one at the lower port. -/
def earlierHead (acc : Option MergeHead) (h : MergeHead) : Option MergeHead :=
  match acc with
  | none => some h
  | some g => if h.2.2.2.2 < g.2.2.2.2 || (h.2.2.2.2 == g.2.2.2.2 && h.2.1 < g.2.1) then some h else some g

/-- Whether a head goes before another. -/
def HeadBefore (g h : MergeHead) : Prop := g.2.2.2.2 < h.2.2.2.2 ∨ (g.2.2.2.2 = h.2.2.2.2 ∧ g.2.1 < h.2.1)

theorem earlierHead_before {g h : MergeHead} (hb : HeadBefore h g) : earlierHead (some g) h = some h := if_pos (by simpa [HeadBefore] using hb)

theorem earlierHead_notBefore {g h : MergeHead} (hb : ¬ HeadBefore h g) : earlierHead (some g) h = some g :=
  if_neg (by simpa [HeadBefore] using hb)

theorem HeadBefore.asymm {g h : MergeHead} (hb : HeadBefore g h) : ¬ HeadBefore h g := by
  unfold HeadBefore at *
  omega

/-- Of heads that all stand behind one of them, that one is taken. -/
theorem foldl_earlierHead {m : MergeHead} {hs : List MergeHead} (hall : ∀ h ∈ hs, h = m ∨ HeadBefore m h) {acc : Option MergeHead}
    (hacc : acc = some m ∨ m ∈ hs ∧ ∀ g ∈ acc, HeadBefore m g) : hs.foldl earlierHead acc = some m := by
  induction hs generalizing acc with
  | nil => exact hacc.resolve_right fun h => List.not_mem_nil h.1
  | cons h hs ih =>
    refine ih (fun g hg => hall g (List.mem_cons_of_mem h hg)) ?_
    rcases hacc with rfl | ⟨hmem, hlate⟩
    · refine .inl ?_
      obtain rfl | hm := hall h List.mem_cons_self
      · exact ite_self _
      · exact earlierHead_notBefore hm.asymm
    · by_cases hm : h = m
      · subst hm
        cases acc with
        | none => exact .inl rfl
        | some g => exact .inl (earlierHead_before (hlate g rfl))
      · have hbehind := (hall h List.mem_cons_self).resolve_left hm
        refine .inr ⟨(List.mem_cons.mp hmem).resolve_left (Ne.symm hm), fun g hg => ?_⟩
        cases acc with
        | none => exact Option.some.inj hg ▸ hbehind
        | some g' =>
          by_cases hb : HeadBefore h g'
          · rw [earlierHead_before hb] at hg
            exact Option.some.inj hg ▸ hbehind
          · rw [earlierHead_notBefore hb] at hg
            exact hlate g hg

/-- A head stands once among those of a merge. -/
theorem Lay.mergeHeads_inj {x : Lay} {p : Place} {b : Splice} {g h : MergeHead} (hg : g ∈ x.mergeHeads p b) (hh : h ∈ x.mergeHeads p b)
    (he : g.1 = h.1) : g = h := by
  obtain ⟨i, -, hi⟩ := List.mem_filterMap.mp hg
  obtain ⟨j, -, hj⟩ := List.mem_filterMap.mp hh
  obtain ⟨u, hu, rfl⟩ := Option.map_eq_some_iff.mp hi
  obtain ⟨v, hv, rfl⟩ := Option.map_eq_some_iff.mp hj
  obtain rfl : i = j := he
  rw [Option.some.inj (hu.symm.trans hv)]

/-- The head of a list entry is found by it. -/
theorem Lay.find?_mergeHeads {x : Lay} {p : Place} {b : Splice} {h : MergeHead} (hh : h ∈ x.mergeHeads p b) :
    (x.mergeHeads p b).find? (fun g => g.1 == h.1) = some h := by
  cases hf : (x.mergeHeads p b).find? (fun g => g.1 == h.1) with
  | none => exact absurd (beq_self_eq_true h.1) (List.find?_eq_none.mp hf h hh)
  | some g =>
    have he := List.find?_some (p := fun g : MergeHead => g.1 == h.1) hf
    rw [Lay.mergeHeads_inj (List.mem_of_find?_eq_some hf) hh (eq_of_beq he)]

/-- The first place of a range at which something is found. -/
theorem findSome?_range {α : Type} {f : Nat → Option α} {d n : Nat} {a : α} (hd : d < n) (hbefore : ∀ i < d, f i = none) (ha : f d = some a) :
    (List.range n).findSome? f = some a := by
  obtain ⟨k, rfl⟩ : ∃ k, n = d + (k + 1) := ⟨n - d - 1, by omega⟩
  rw [List.findSome?_eq_some_iff]
  refine ⟨List.range d, d, (List.range k).map fun i => d + (i + 1), ?_, ha, fun i hi => hbefore i (List.mem_range.mp hi)⟩
  rw [List.range_add, List.range_succ_eq_map, List.map_cons, List.map_map]
  rfl

theorem allSome_of_none {α : Type} {l : List (Option α)} (h : none ∈ l) : allSome l = none := by
  induction l with
  | nil => exact absurd h List.not_mem_nil
  | cons a l ih =>
    cases a with
    | none => rfl
    | some a => rw [allSome, ih (by simpa using h), Option.map_none]

/-! ### The modes that pass a head at once (R205, R210) -/

section Modes

variable {s : State} {p : Place} {x : Lay} {st : Station} {b : Splice} (h : s.SpliceHere p x st b)

include h

theorem State.SpliceHere.spliceAt {m : SMode} (hm : b.mode = m) : s.spliceAt p m = some (x, st, b) := by
  obtain ⟨hx, hst, hb, hdead⟩ := h
  unfold State.spliceAt
  simp [hx, hst, Station.splice?, hb, hdead, hm]

theorem spliceBcast_passes (hm : b.mode = .bcast) {k : Nat} {r : Rec} {outs : List Nat} (hhead : x.headAt? p 0 = some (k, r))
    (houts : allSome (b.ports.map fun q => x.outLink? p q) = some outs) : exec (.spliceBcast p) s = .next (s.splicePass p k r outs id) := by
  change execSpliceBcast p s = _
  rw [execSpliceBcast, h.spliceAt hm]
  dsimp only
  rw [hhead, houts]

theorem spliceBcast_waits (hm : b.mode = .bcast) (hfull : ∃ q ∈ b.ports, x.outLink? p q = none) : exec (.spliceBcast p) s = .next s := by
  change execSpliceBcast p s = _
  rw [execSpliceBcast, h.spliceAt hm]
  dsimp only
  rw [allSome_of_none (List.mem_map.mpr hfull)]
  cases x.headAt? p 0 <;> rfl

theorem exec_spliceSplitRr (hm : b.mode = .splitRr) : exec (.spliceSplitRr p) s =
    .next (s.splitTo p x b b.next fun z => { z with next := (z.next + 1) % z.ports.length }) := by
  change execSpliceSplitRr p s = _
  rw [execSpliceSplitRr, h.spliceAt hm]

theorem spliceSplitRr_passes (hm : b.mode = .splitRr) {k n : Nat} {r : Rec} (hhead : x.headAt? p 0 = some (k, r))
    (hout : x.outLink? p (b.ports.getD b.next 0) = some n) :
    exec (.spliceSplitRr p) s = .next (s.splicePass p k r [n] fun z => { z with next := (z.next + 1) % z.ports.length }) := by
  rw [exec_spliceSplitRr h hm, State.splitTo, hhead, hout]

theorem spliceSplitRr_waits (hm : b.mode = .splitRr) (hwait : x.headAt? p 0 = none ∨ x.outLink? p (b.ports.getD b.next 0) = none) :
    exec (.spliceSplitRr p) s = .next s := by
  rw [exec_spliceSplitRr h hm, State.splitTo]
  obtain hnone | hnone := hwait <;> rw [hnone]
  cases x.headAt? p 0 <;> rfl

theorem exec_spliceSplitHash (hm : b.mode = .splitHash) {k : Nat} {r : Rec} (hhead : x.headAt? p 0 = some (k, r)) :
    exec (.spliceSplitHash p) s = .next (match x.outLink? p (b.ports.getD (hashEntry b r) 0) with
      | some n => s.splicePass p k r [n] id
      | none => s) := by
  change execSpliceSplitHash p s = _
  rw [execSpliceSplitHash, h.spliceAt hm]
  dsimp only
  rw [hhead]
  dsimp only
  rw [State.splitTo, hhead]
  cases x.outLink? p (b.ports.getD (hashEntry b r) 0) <;> rfl

theorem exec_spliceMergeArr (hm : b.mode = .mergeArr) : exec (.spliceMergeArr p) s =
    match (x.mergeHeads p b).foldl earlierHead none, x.outLink? p 0 with
    | some (_, _, k, r, _), some n => .next (s.splicePass p k r [n] id)
    | _, _ => .next s := by
  change execSpliceMergeArr p s = _
  rw [execSpliceMergeArr, h.spliceAt hm]
  rfl

theorem spliceMergeArr_passes (hm : b.mode = .mergeArr) {m : MergeHead} {n : Nat} (hmem : m ∈ x.mergeHeads p b)
    (hout : x.outLink? p 0 = some n) (hfirst : ∀ g ∈ x.mergeHeads p b, g = m ∨ HeadBefore m g) :
    exec (.spliceMergeArr p) s = .next (s.splicePass p m.2.2.1 m.2.2.2.1 [n] id) := by
  rw [exec_spliceMergeArr h hm, foldl_earlierHead hfirst (.inr ⟨hmem, fun g hg => absurd hg (Option.not_mem_none g)⟩), hout]

theorem spliceMergeArr_waits (hm : b.mode = .mergeArr) (hwait : x.mergeHeads p b = [] ∨ x.outLink? p 0 = none) :
    exec (.spliceMergeArr p) s = .next s := by
  rw [exec_spliceMergeArr h hm]
  obtain hnone | hnone := hwait <;> rw [hnone]
  · rfl
  · cases (x.mergeHeads p b).foldl earlierHead none <;> rfl

theorem spliceMergeRr_passes (hm : b.mode = .mergeRr) {d : Nat} {m : MergeHead} {n : Nat} (hd : d < b.ports.length)
    (hi : m.1 = (b.next + d) % b.ports.length) (hmem : m ∈ x.mergeHeads p b)
    (hbefore : ∀ d' < d, ∀ g ∈ x.mergeHeads p b, g.1 ≠ (b.next + d') % b.ports.length) (hout : x.outLink? p 0 = some n) :
    exec (.spliceMergeRr p) s = .next (s.splicePass p m.2.2.1 m.2.2.2.1 [n] fun z => { z with next := (m.1 + 1) % z.ports.length }) := by
  have hpick : (List.range b.ports.length).findSome? (fun i => (x.mergeHeads p b).find? fun g => g.1 == (b.next + i) % b.ports.length) = some m := by
    refine findSome?_range hd (fun d' hd' => List.find?_eq_none.mpr fun g hg he => hbefore d' hd' g hg (eq_of_beq he)) ?_
    rw [← hi]
    exact Lay.find?_mergeHeads hmem
  change execSpliceMergeRr p s = _
  rw [execSpliceMergeRr, h.spliceAt hm]
  dsimp only
  rw [hpick, hout]

theorem spliceMergeRr_waits (hm : b.mode = .mergeRr) (hwait : x.mergeHeads p b = [] ∨ x.outLink? p 0 = none) :
    exec (.spliceMergeRr p) s = .next s := by
  have hpick (hnone : x.mergeHeads p b = []) : (List.range b.ports.length).findSome? (fun i => (x.mergeHeads p b).find? fun g =>
      g.1 == (b.next + i) % b.ports.length) = none := List.findSome?_eq_none_iff.mpr fun _ _ => by rw [hnone]; rfl
  change execSpliceMergeRr p s = _
  rw [execSpliceMergeRr, h.spliceAt hm]
  dsimp only
  obtain hnone | hnone := hwait
  · rw [hpick hnone]
  · rw [hnone]
    generalize (List.range b.ports.length).findSome? _ = pick
    cases pick <;> rfl

/-- The fresh head of a bight's i0 counts only while its loop has room for it and one more (R210). -/
theorem exec_bightAdmit (hm : b.mode = .bight) {n : Nat} (hout : x.outLink? p 0 = some n) : exec (.bightAdmit p) s =
    match (if b.occ + 2 ≤ x.loopCapacity p.pid p.sid then x.headAt? p 0 else none), x.headAt? p 1 with
    | some (k, r), some (k', r') =>
      if b.turn then .next (s.splicePass p k' r' [n] fun z => { z with turn := false })
      else .next (s.splicePass p k r [n] fun z => { z with turn := true, occ := z.occ + 1 })
    | some (k, r), none => .next (s.splicePass p k r [n] fun z => { z with occ := z.occ + 1 })
    | none, some (k, r) => .next (s.splicePass p k r [n] id)
    | none, none => .next s := by
  change execBightAdmit p s = _
  rw [execBightAdmit, h.spliceAt hm]
  dsimp only
  exact hout ▸ rfl

end Modes

/-! ### merge.seq (R206) -/

/-- A head within 64 of the expected tag leaves its link, into the reorder buffer or, a duplicate, the exception register. -/
theorem mergeSeqAccepts {s : State} {p : Place} {x : Lay} {st : Station} {b : Splice} (h : s.SpliceHere p x st b) (hm : b.mode = .mergeSeq)
    (hexc : st.exc = none) (hhandler : x.handler.isSome = true) {i : Nat} {q : Fin 4} {k : Nat} {r : Rec} {t : Nat}
    (hfind : (x.mergeHeads p b).find? (fun h => decide (tagDistance b h.2.2.2.1 < 64)) = some (i, q, k, r, t)) :
    ∃ u y, exec (.mergeSeqAccept p) s = .next u ∧ u.lay? p.ctx p.slot = some y ∧ y.links = (x.takeHead k s.cyc).links ∧
      ∃ st', u.station? p = some st' ∧
        if b.holdsEntry (reorderEntry r) then st'.exc = some ⟨r, 0x0b, locWord p.pid p.sid, false, none, false, none⟩
        else st'.exc = none ∧ st'.body = .splice { b with reorder := b.reorder ++ [(reorderEntry r, r)] } := by
  let s1 := s.modLay p.ctx p.slot fun y => (y.takeHead k s.cyc).stir
  have hrun : exec (.mergeSeqAccept p) s = if b.holdsEntry (reorderEntry r) then
      .next ((s1.modLay p.ctx p.slot fun y => y.loopMove p.pid p.sid []).enterExc p r (faultWord 0x0b none 0 0) false)
      else .next (s1.modStation p fun z => z.modSplice (Splice.keep r)) := by
    change execMergeSeqAccept p s = _
    rw [execMergeSeqAccept, h.spliceAt hm]
    dsimp only
    rw [hexc]
    dsimp only
    rw [hfind]
  have hat : s1.At p (x.takeHead k s.cyc).stir st := (State.At.of_station h.lay h.station).modLay_keep (x.stations_takeHead k s.cyc)
  by_cases hdup : b.holdsEntry (reorderEntry r) = true
  · rw [if_pos hdup] at hrun
    simp only [hdup, if_true]
    have hloop : (s1.modLay p.ctx p.slot fun y => y.loopMove p.pid p.sid []).At p ((x.takeHead k s.cyc).stir.loopMove p.pid p.sid []) st :=
      State.at_modLay hat.lay ((Lay.station?_loopLeave_same ..).trans hat.here)
    rw [State.enterExc_handler hloop.lay (by rw [← hhandler]; exact congrArg Option.isSome (x.handler_modLink k _))] at hrun
    have hend := hloop.modStation (g := fun st => { st with exc := some ⟨r, faultWord 0x0b none 0 0, locWord p.pid p.sid, false, none, false, none⟩ })
      fun _ => ⟨rfl, rfl⟩
    exact ⟨_, _, hrun, hend.lay, rfl, _, hend.station, rfl⟩
  · rw [if_neg hdup] at hrun
    simp only [hdup, Bool.false_eq_true, if_false]
    have hend := hat.modStation (keepsPlace_modSplice (Splice.keep r))
    rw [Station.body_modSplice h.body] at hend
    exact ⟨_, _, hrun, hend.lay, rfl, _, hend.station, hexc, rfl⟩

/-- The expected record leaves the reorder buffer: one of the hole class retires, another is passed where the link has a slot. -/
theorem mergeSeqPasses {s : State} {p : Place} {x : Lay} {st : Station} {b : Splice} (h : s.SpliceHere p x st b) (hm : b.mode = .mergeSeq)
    (hexc : st.exc = none) {r : Rec} (hfind : b.reorder.find? (fun y => y.1 == b.e.toNat % 64) = some (b.e.toNat % 64, r)) :
    let gone : Splice := { b with reorder := b.reorder.filter fun y => y.1 != b.e.toNat % 64, e := b.e + 1 }
    let done (z : Lay → Lay) : Prop := ∃ u y st', exec (.mergeSeqPass p) s = .next u ∧ u.lay? p.ctx p.slot = some y ∧
      y.links = (z x).links ∧ u.station? p = some st' ∧ st'.body = .splice gone
    (r.hdr.cls.toNat = b.opt.toNat → done id) ∧
    (∀ k, r.hdr.cls.toNat ≠ b.opt.toNat → x.outLink? p 0 = some k → done fun y => y.push k (.data r)) := by
  intro gone done
  let go (z : Splice) : Splice := { z with reorder := z.reorder.filter fun y => y.1 != b.e.toNat % 64, e := z.e + 1 }
  have hstart : exec (.mergeSeqPass p) s = execMergeSeqPass p s := rfl
  rw [execMergeSeqPass, h.spliceAt hm] at hstart
  dsimp only at hstart
  rw [hfind] at hstart
  dsimp only at hstart
  rw [hexc, Option.isSome_none, if_neg Bool.false_ne_true] at hstart
  have hst (outs : List Link) : ((x.modStation p.pid p.sid fun z => z.modSplice go).loopMove p.pid p.sid outs).station? p.pid p.sid =
      some { st with body := .splice gone } := by
    rw [Lay.station?_loopMove_modStation rfl (State.At.of_station h.lay h.station).here (keepsPlace_modSplice go),
      Station.body_modSplice h.body]
  refine ⟨fun hhole => ?_, fun k hclass hout => ?_⟩
  · rw [if_pos hhole] at hstart
    exact ⟨_, _, _, hstart, lay?_modLay_of_ctxs rfl h.lay _, rfl, (State.at_modLay h.lay (hst [])).station, rfl⟩
  · rw [if_neg hclass, hout] at hstart
    exact ⟨_, _, _, hstart, lay?_modLay_of_ctxs rfl h.lay _, (Lay.links_push ..).trans (x.links_push k _).symm,
      (State.at_modLay h.lay ((Lay.station?_congr (Lay.stations_push ..) ..).trans (hst _))).station, rfl⟩

theorem splicesPass : Claims.SplicesPass := by
  intro s p x st b hx hst hb hdead head stays passes
  have h : s.SpliceHere p x st b := ⟨hx, hst, hb, hdead⟩
  refine ⟨fun k r outs hm => spliceBcast_passes h hm, fun k r n hm => spliceSplitRr_passes h hm,
    fun k r n hm hhead hout => (exec_spliceSplitHash h hm hhead).trans (by rw [hashEntry, hout]),
    fun i q k r t n hm => spliceMergeArr_passes h hm (m := (i, q, k, r, t)), fun d i q k r t n hm => spliceMergeRr_passes h hm (m := (i, q, k, r, t)),
    ⟨spliceBcast_waits h, spliceSplitRr_waits h,
      fun k r hm hhead hnone => (exec_spliceSplitHash h hm hhead).trans (by rw [hashEntry, hnone]), spliceMergeRr_waits h, spliceMergeArr_waits h⟩,
    fun hm hexc hhandler => ⟨fun i q k r t => mergeSeqAccepts h hm hexc hhandler, fun r => mergeSeqPasses h hm hexc⟩,
    fun k r k' r' n hm hout => ?_⟩
  have hrun := exec_bightAdmit h hm hout
  refine ⟨fun hroom hfresh hagain => ?_, fun hno hagain => ?_, fun hroom hfresh hagain hturn => ?_, fun hroom hfresh hagain hturn => ?_⟩
  · rw [if_pos hroom, hfresh, hagain] at hrun
    exact hrun
  · have hfresh : (if b.occ + 2 ≤ x.loopCapacity p.pid p.sid then x.headAt? p 0 else none) = none := by
      obtain hno | hno := hno
      · exact if_neg hno
      · rw [hno, ite_self]
    rw [hfresh, hagain] at hrun
    exact hrun
  · rw [if_pos hroom, hfresh, hagain] at hrun
    exact hrun.trans (if_pos hturn)
  · rw [if_pos hroom, hfresh, hagain] at hrun
    exact hrun.trans (if_neg (ne_true_of_eq_false hturn))

/-- The links that a passed record leaves and takes, and the splice. -/
theorem splicePassMoves : Claims.SplicePassMoves := by
  intro s p x st b k n lk ln r f hx hst hb hk hn hkn
  let z := ((x.takeHead k s.cyc).modStation p.pid p.sid fun y => y.modSplice f).loopMove p.pid p.sid ([n].filterMap fun n => x.links[n]?)
  let y := (z.push n (.data r)).progressed
  have hlay : (s.splicePass p k r [n] f).lay? p.ctx p.slot = some y := lay?_modLay_of_ctxs rfl hx _
  have hhere : y.station? p.pid p.sid = some (st.modSplice f) := (Lay.station?_congr (Lay.stations_push ..) ..).trans
    (Lay.station?_loopMove_modStation (x.stations_takeHead k s.cyc) (State.At.of_station hx hst).here (keepsPlace_modSplice f) _)
  have hlinks (j : Nat) : y.links[j]? = if n = j then ((x.takeHead k s.cyc).links[j]?).map fun l => l.pushed (.data r)
      else (x.takeHead k s.cyc).links[j]? := by
    change (z.push n (.data r)).links[j]? = _
    rw [Lay.links_push, List.getElem?_modify]
    split
    · rfl
    · exact id_map' _
  obtain ⟨lk', hlk', hbuf, hheadAt, hflight⟩ := Lay.getElem?_takeHead hk s.cyc
  refine ⟨y, st.modSplice f, lk', hlay, (State.station?_eq hlay).trans hhere, ?_, ?_, hbuf, hheadAt, hflight, fun j hjk hjn => ?_, ?_,
    State.modLay_ctxs_only ..⟩
  · rw [hlinks, if_pos rfl, Lay.getElem?_takeHead_other hkn.symm, hn]
    rfl
  · rw [hlinks, if_neg hkn.symm, hlk']
  · rw [hlinks, if_neg hjn.symm, Lay.getElem?_takeHead_other hjk]
  · rw [Station.body_modSplice hb]

end Sys2Proof.Machine
end

section
/-!
PROOFS. fifo banks and releases (07 R220, 08 R242, 10 R324): the queue of a bank, and the generations of a cleat.
-/
namespace Sys2Proof.Machine

/-! ### Changing a cleat -/

/-- A change of cleats that leaves each its page and number. -/
def KeepsCleat (g : Cleat → Cleat) : Prop := ∀ k, (g k).pid = k.pid ∧ (g k).num = k.num

theorem Lay.place_of_cleat? {x : Lay} {pg : Pid} {n : Fin 16} {k : Cleat} (h : x.cleat? pg n = some k) : k.pid = pg ∧ k.num = n := by
  have hk := List.find?_some (p := fun c : Cleat => c.pid == pg && c.num == n) h
  simpa using hk

/-- Where every cleat is changed and keeps its page and number, the cleat found by them is the one there, changed. -/
theorem Lay.cleat?_map {x y : Lay} {g : Cleat → Cleat} (hg : KeepsCleat g) (hy : y.cleats = x.cleats.map g) (pg : Pid) (n : Fin 16) :
    y.cleat? pg n = (x.cleat? pg n).map g := by
  rw [Lay.cleat?, hy, List.find?_map, Lay.cleat?]
  congr 2
  funext k
  rw [Function.comp_apply, (hg k).1, (hg k).2]

theorem Lay.cleat?_modCleat_same {x : Lay} {pg : Pid} {n : Fin 16} {k : Cleat} (hk : x.cleat? pg n = some k) {g : Cleat → Cleat}
    (hg : KeepsCleat g) : (x.modCleat pg n g).cleat? pg n = some (g k) := by
  have hkeep : KeepsCleat fun c => if c.pid == pg && c.num == n then g c else c := fun c => by
    dsimp only
    split
    · exact hg c
    · exact ⟨rfl, rfl⟩
  rw [Lay.cleat?_map hkeep rfl, hk, Option.map_some]
  exact congrArg some (if_pos (by simpa using Lay.place_of_cleat? hk))

theorem Lay.cleat?_congr {x y : Lay} (h : x.cleats = y.cleats) (pg : Pid) (n : Fin 16) : x.cleat? pg n = y.cleat? pg n := by
  rw [Lay.cleat?, h, Lay.cleat?]

@[simp] theorem Lay.cleats_push (x : Lay) (k : Nat) (it : Item) : (x.push k it).cleats = x.cleats := by
  rw [Lay.push, Lay.sendOn, Lay.modLink_eq_modify, Lay.reserve, Lay.modLink_eq_modify]

/-! ### fifo banks (R242) -/

theorem fifoEnqueues {s : State} {p : Place} {x : Lay} {st : Station} {b : Bank} (hx : s.lay? p.ctx p.slot = some x)
    (hst : s.station? p = some st) (hb : st.body = .bank b) (hrole : b.role = .fifo) (hdead : st.dead = false) {i : Fin 4} {k : Nat} {r : Rec}
    (hroom : b.fifo.length < 1024)
    (hscan : (scanOrder st.lastPort).findSome? (fun i => (x.headAt? p i).map fun h => (i, h.1, h.2)) = some (i, k, r)) :
    ∃ u y st', exec (.fifoEnqueue p) s = .next u ∧ u.lay? p.ctx p.slot = some y ∧ u.station? p = some st' ∧
      st'.body = .bank { b with fifo := b.fifo ++ [r] } ∧ st'.lastPort = i ∧ y.links = (x.takeHead k s.cyc).links := by
  have hbank : st.bank? = some b := by rw [Station.bank?, hb]
  have hrun : exec (.fifoEnqueue p) s = .next (s.modLay p.ctx p.slot fun y => ((y.takeHead k s.cyc).modStation p.pid p.sid fun z =>
      { z with lastPort := i, body := .bank { b with fifo := b.fifo ++ [r] } }).progressed) := by
    change execFifoEnqueue p s = _
    rw [execFifoEnqueue, hx, hst]
    dsimp only
    rw [hbank]
    dsimp only
    have hfull : decide (fifoDepth ≤ b.fifo.length) = false := decide_eq_false (Nat.not_le.mpr hroom)
    rw [if_neg (by simp [hrole, hdead, hfull]), hscan]
  have htake := (State.At.of_station hx hst).modLay_keep (m := fun y => y.takeHead k s.cyc) (x.stations_takeHead k s.cyc)
  have hhere := Lay.station?_modStation_same (g := fun z : Station => { z with lastPort := i, body := .bank { b with fifo := b.fifo ++ [r] } })
    (fun _ => ⟨rfl, rfl⟩) (x.takeHead k s.cyc) p.pid p.sid
  rw [htake.here] at hhere
  exact ⟨_, _, _, hrun, lay?_modLay_of_ctxs rfl hx _, (State.at_modLay hx hhere).station, rfl, rfl, rfl⟩

theorem fifoDequeues {s : State} {p : Place} {x : Lay} {st : Station} {b : Bank} (hx : s.lay? p.ctx p.slot = some x)
    (hst : s.station? p = some st) (hb : st.body = .bank b) (hrole : b.role = .fifo) {k : Nat} {r : Rec} {rest : List Rec}
    (hfifo : b.fifo = r :: rest) (hout : x.outLink? p 0 = some k) :
    ∃ u y st', exec (.fifoDequeue p) s = .next u ∧ u.lay? p.ctx p.slot = some y ∧ u.station? p = some st' ∧
      st'.body = .bank { b with fifo := rest } ∧ y.links = (x.push k (.data r)).links := by
  have hbank : st.bank? = some b := by rw [Station.bank?, hb]
  have hrun : exec (.fifoDequeue p) s = .next (s.modLay p.ctx p.slot fun y =>
      let ls := match y.links[k]? with | some l => [l] | none => []
      (((y.modStation p.pid p.sid fun z => { z with body := .bank { b with fifo := rest } }).loopMove p.pid p.sid ls).push k
        (.data r)).progressed) := by
    change execFifoDequeue p s = _
    rw [execFifoDequeue, hx, hst]
    dsimp only
    rw [hbank, hout]
    dsimp only
    rw [hfifo]
    exact if_neg (by simp [hrole])
  have hhere (outs : List Link) := Lay.station?_loopMove_modStation (x := x) rfl (State.At.of_station hx hst).here
    (g := fun z : Station => { z with body := .bank { b with fifo := rest } }) (fun _ => ⟨rfl, rfl⟩) outs
  exact ⟨_, _, _, hrun, lay?_modLay_of_ctxs rfl hx _,
    (State.at_modLay hx ((Lay.station?_congr (Lay.stations_push ..) ..).trans (hhere _))).station, rfl,
    (Lay.links_push ..).trans (x.links_push k _).symm⟩

/-! ### Releases (R220, R324) -/

theorem State.lay?_wfiNote (s : State) (c : CtxId) (bits : BitVec 8) (l : LaySlot) : (s.wfiNote c bits).lay? c l = s.lay? c l := by
  rw [State.lay?, State.wfiNote, State.ctx_modCtx_same]
  rfl

/-- A cleat that releases its oldest generation; its release record waits where there is a link for it (R220). -/
def Cleat.release (g f : Byte) (unsent : Bool) (rest : List (Byte × Byte × List Nat × Bool)) (z : Cleat) : Cleat :=
  { z with waiting := rest, released := g, pending := if z.link.isSome && !unsent then z.pending ++ [(g, f)] else z.pending }

/-- The oldest generation not yet released is released once what its records asked for is performed (R324). -/
theorem cleatReleases {s : State} {c : CtxId} {l : LaySlot} {pg : Pid} {n : Fin 16} {x : Lay} {k : Cleat} (hx : s.lay? c l = some x)
    (hk : x.cleat? pg n = some k) {g f : Byte} {rs : List Nat} {unsent : Bool} {rest : List (Byte × Byte × List Nat × Bool)}
    (hwaiting : k.waiting = (g, f, rs, unsent) :: rest) (hperf : ∀ r ∈ rs, s.performed r = true) :
    ∃ u y, exec (.cleatRelease c l pg n) s = .next u ∧ u.lay? c l = some y ∧ y.cleat? pg n = some { k with
      waiting := rest, released := g, pending := if k.link.isSome = true ∧ unsent = false then k.pending ++ [(g, f)] else k.pending } := by
  let s1 := s.modLay c l fun x => (x.modCleat pg n (Cleat.release g f unsent rest)).stir
  have hrun : exec (.cleatRelease c l pg n) s = .next (if k.link.isNone then s1.wfiNote c 4 else s1) := by
    change execCleatRelease c l pg n s = _
    rw [execCleatRelease, hx, Option.bind_some, hk]
    dsimp only
    rw [hwaiting]
    exact if_pos (List.all_eq_true.mpr hperf)
  have hlay : (if k.link.isNone then s1.wfiNote c 4 else s1).lay? c l = s1.lay? c l := by
    split
    · exact s1.lay?_wfiNote c 4 l
    · rfl
  refine ⟨_, _, hrun, hlay.trans (lay?_modLay_of_ctxs rfl hx _), ?_⟩
  refine (Lay.cleat?_modCleat_same hk (g := Cleat.release g f unsent rest) fun _ => ⟨rfl, rfl⟩).trans ?_
  simp [Cleat.release]

/-- A release record that waits is sent once its link has a slot (R220). -/
theorem releaseSent {s : State} {c : CtxId} {l : LaySlot} {pg : Pid} {n : Fin 16} {x : Lay} {k : Cleat} (hx : s.lay? c l = some x)
    (hk : x.cleat? pg n = some k) {g f : Byte} {rest : List (Byte × Byte)} {i : Nat} (hpending : k.pending = (g, f) :: rest)
    (hlink : k.link = some i) (hslot : x.hasSlot i = true) :
    ∃ u y, exec (.releaseRecordSend c l pg n) s = .next u ∧ u.lay? c l = some y ∧ y.cleat? pg n = some { k with pending := rest } ∧
      y.links = (x.push i (.data (releaseRec c l g f))).links := by
  have hrun : exec (.releaseRecordSend c l pg n) s = .next (s.modLay c l fun y =>
      ((y.modCleat pg n fun z => { z with pending := rest }).push i (.data (releaseRec c l g f))).stir) := by
    change execReleaseRecordSend c l pg n s = _
    rw [execReleaseRecordSend, hx]
    dsimp only
    rw [hk]
    dsimp only
    rw [hpending, hlink]
    exact if_pos hslot
  exact ⟨_, _, hrun, lay?_modLay_of_ctxs rfl hx _,
    (Lay.cleat?_congr (Lay.cleats_push ..) pg n).trans (Lay.cleat?_modCleat_same hk (g := fun z => { z with pending := rest }) fun _ => ⟨rfl, rfl⟩),
    (Lay.links_push ..).trans (x.links_push i _).symm⟩

/-- A release record tells the generation and how often the cleat has fired (R220). -/
theorem releaseRec_tells (c : CtxId) (l : LaySlot) (g f : Byte) : (releaseRec c l g f).hdr.seq.toNat = g.toNat ∧
    ((releaseRec c l g f).pay[0]).toNat = g.toNat + 256 * f.toNat := by
  have hg := g.isLt
  have hf := f.isLt
  refine ⟨?_, ?_⟩
  · change (g.zeroExtend 24).toNat = _
    rw [BitVec.toNat_setWidth]
    omega
  · simp only [releaseRec, Vector.getElem_set_self, BitVec.toNat_ofNat]
    omega

theorem fifoAndReleases : Claims.FifoAndReleases := by
  refine ⟨fun s p x st b hx hst hb hrole hdead => ⟨fun i k r => fifoEnqueues hx hst hb hrole hdead, fun k r rest => fifoDequeues hx hst hb hrole⟩,
    fun s c l pg n x k hx hk => ⟨fun g f rs unsent rest => cleatReleases hx hk, fun g f rest i hpending hlink hslot => ?_⟩⟩
  obtain ⟨u, y, hrun, hy, hcleat, hlinks⟩ := releaseSent hx hk hpending hlink hslot
  obtain ⟨hseq, hpay⟩ := releaseRec_tells c l g f
  exact ⟨u, y, _, hrun, hy, hcleat, hlinks, rfl, rfl, hseq, rfl, rfl, hpay⟩

/-- Settles O39: each splice's mode is followed to the head it chooses, what passing it moves is read off the lay, and so are fifo banks
and releases. -/
theorem splices : Obligations.Splices := ⟨splicesPass, splicePassMoves, fifoAndReleases⟩

end Sys2Proof.Machine
end

section
/-!
PROOFS. The steps of a replacement (07 R227 to R229, 08 R239): stations, reels and cleats adopt the successor one after another, and
banks change role together.
-/
namespace Sys2Proof.Machine

/-! ### The end of a step (R230) -/

/-- The successor does not stand before the banks have changed role. -/
theorem endSwap_of_notRoleDone {s : State} {c : CtxId} {l : LaySlot} {x : Lay} {u : Succ} (hx : s.lay? c l = some x) (hu : x.succ = some u)
    (hrole : u.roleDone = false) : s.endSwap c l = s := by
  have hdone : x.swapDone u = false := by simp [Lay.swapDone, hrole]
  unfold State.endSwap
  rw [hx]
  dsimp only
  rw [hu]
  dsimp only
  split
  · rfl
  · rw [hdone, if_neg Bool.false_ne_true]

theorem endSwap_of_noSucc {s : State} {c : CtxId} {l : LaySlot} {x : Lay} (hx : s.lay? c l = some x) (hu : x.succ = none) :
    s.endSwap c l = s := by
  unfold State.endSwap
  rw [hx]
  dsimp only
  rw [hu]

/-- A step that changes the lay and keeps its successor ends with the lay as changed. -/
theorem lay?_endSwap_modLay {s : State} {c : CtxId} {l : LaySlot} {x : Lay} {u : Succ} (hx : s.lay? c l = some x)
    (hrole : u.roleDone = false) {f : Lay → Lay} (hf : (f x).succ = some u) :
    ((s.modLay c l f).endSwap c l).lay? c l = some (f x) := by
  have hlay := lay?_modLay_of_ctxs rfl hx f
  rw [endSwap_of_notRoleDone hlay hf hrole, hlay]

/-! ### Stations (R228) -/

theorem adopted_adopt (st : Station) (m : Image) : (st.adopt m).adopted = true := by
  unfold Station.adopt
  split <;> rfl

theorem keepsPlace_adopt (m : Image) : KeepsPlace fun z => z.adopt m := fun z => by
  dsimp only
  unfold Station.adopt
  split <;> exact ⟨rfl, rfl⟩

/-- A station that rests, with a reconfiguration record at each of its inputs, adopts the successor and sends the record on. -/
theorem stationAdopts {s : State} {p : Place} {x : Lay} {u : Succ} {m : Image} {st : Station} (hx : s.lay? p.ctx p.slot = some x)
    (hu : x.succ = some u) (hm : readImage u.bytes u.bytes.length = some m) (hreel : p.sid ≠ reelSid) (hcleat : p.sid ≠ cleatSid)
    (hst : x.station? p.pid p.sid = some st) (hold : st.adopted = false) (harrived : x.reconfArrived p.pid p.sid = true)
    (hrests : s.stationRests p x st = true) (hrole : u.roleDone = false) :
    ∃ v y, exec (.reconfigAdopt p) s = .next v ∧ v.lay? p.ctx p.slot = some y ∧ y.station? p.pid p.sid = some (st.adopt m) ∧
      (st.adopt m).adopted = true ∧ y.links = ((x.takeReconfs p.pid p.sid).sendReconfs p.pid p.sid).links := by
  have hrun : exec (.reconfigAdopt p) s = .next ((s.modLay p.ctx p.slot fun y =>
      (((y.takeReconfs p.pid p.sid).modStation p.pid p.sid fun z => z.adopt m).sendReconfs p.pid p.sid).stir).endSwap p.ctx p.slot) := by
    change execReconfigAdopt p s = _
    rw [execReconfigAdopt, hx]
    dsimp only
    rw [hu, Option.bind_some, hm]
    dsimp only
    rw [if_neg hreel, if_neg hcleat, hst]
    dsimp only
    rw [hold, harrived, hrests, if_neg Bool.false_ne_true, Bool.true_and, if_pos rfl]
  have hhere := Lay.station?_modStation_same (keepsPlace_adopt m) (x.takeReconfs p.pid p.sid) p.pid p.sid
  rw [Lay.station?_congr (x := x.takeReconfs p.pid p.sid) (y := x) rfl, hst] at hhere
  exact ⟨_, _, hrun, lay?_endSwap_modLay hx hrole hu, hhere, adopted_adopt st m, rfl⟩

/-! ### Reels (R227) -/

theorem Lay.modReel_eq (x : Lay) (pg : Nat) (f : Reel → Reel) : ∃ ps, x.modReel pg f = { x with pages := ps } := by
  unfold Lay.modReel
  split <;> exact ⟨_, rfl⟩

theorem Lay.reel?_modReel_same {x : Lay} {pg : Nat} {r : Reel} (hr : x.reel? pg = some r) (f : Reel → Reel) :
    (x.modReel pg f).reel? pg = some (f r) := by
  obtain ⟨page, hpage, rfl⟩ := Option.map_eq_some_iff.mp hr
  have hlt := (List.getElem?_eq_some_iff.mp hpage).1
  rw [Lay.modReel, hpage, Lay.reel?]
  simp [hlt]

/-- Whether a slot of a reel sends its reconfiguration record now: it runs no stream and has not sent it. -/
def Reel.due (r : Reel) (n : Fin 4) : Bool := !r.adopted && (r.streams[n.val]).sendsReconf

/-- The reel once its slots have sent what is due. -/
def Reel.sent (r : Reel) : Reel :=
  { r with streams := Vector.ofFn fun n => { r.streams[n.val] with reconfSent := (r.streams[n.val]).reconfSent || r.due n } }

/-- A link of a lay once the reel of a page has sent what is due. -/
def Reel.sendOn (r : Reel) (pg : Pid) (l : Link) : Link :=
  if l.src.pid == pg && l.src.sid == reelSid && (List.finRange 4).any (fun n => n.val == l.src.port && r.due n) then l.sendReconf else l

theorem Reel.sendOn_keeps (r : Reel) (pg : Pid) (l : Link) : (r.sendOn pg l).dst = l.dst ∧ (r.sendOn pg l).buf = l.buf := by
  unfold Reel.sendOn
  split <;> exact ⟨rfl, rfl⟩

theorem Reel.sendOn_eq {r : Reel} (hold : r.adopted = false) (pg : Pid) (l : Link) : r.sendOn pg l =
    if l.src.pid = pg ∧ l.src.sid = reelSid ∧ ∃ n : Fin 4, n.val = l.src.port ∧ (r.streams[n.val]).running = false ∧
      (r.streams[n.val]).reconfSent = false
    then { l with flight := l.flight ++ [(.reconf, 0)] } else l := by
  refine if_congr ?_ rfl rfl
  simp [Reel.due, hold, Stream.sendsReconf, and_assoc, and_comm (b := (Stream.running _) = false)]

/-- What the reel of a page sends stands on its links, and it notes it. -/
theorem Lay.reelSends_spec {x : Lay} {pg : Pid} {r : Reel} (hr : x.reel? pg.val = some r) : ∃ ps,
    x.reelSends pg = { x with links := x.links.map (r.sendOn pg), pages := ps } ∧ (x.reelSends pg).reel? pg.val = some r.sent := by
  let y : Lay := { x with links := x.links.map (r.sendOn pg) }
  let note (z : Reel) : Reel :=
    { z with streams := Vector.ofFn fun n => { z.streams[n.val] with reconfSent := (z.streams[n.val]).reconfSent || r.due n } }
  have hsends : x.reelSends pg = y.modReel pg.val note := by
    rw [Lay.reelSends, hr]
    rfl
  obtain ⟨ps, hps⟩ := y.modReel_eq pg.val note
  rw [hsends]
  exact ⟨ps, hps, Lay.reel?_modReel_same (x := y) hr note⟩

/-- Every slot has sent its record where each ran no stream or had sent it before. -/
theorem Reel.all_sent {r : Reel} (hold : r.adopted = false) : r.sent.streams.toList.all (fun (st : Stream) => st.reconfSent) = true ↔
    ∀ n : Fin 4, (r.streams[n.val]).running = true → (r.streams[n.val]).reconfSent = true := by
  rw [List.all_eq_true, Reel.sent, Vector.toList_ofFn, List.forall_mem_ofFn_iff]
  refine forall_congr' fun n => ?_
  simp only [Reel.due, hold, Stream.sendsReconf]
  cases (r.streams[n.val]).running <;> cases (r.streams[n.val]).reconfSent <;> decide

/-- The records at the heads of buffers tell whether reconfiguration has come to every input of a part. -/
theorem Lay.reconfArrived_congr {x y : Lay} {g : Link → Link} (hg : ∀ l, (g l).dst = l.dst ∧ (g l).buf = l.buf)
    (hst : y.stations = x.stations) (hlinks : y.links = x.links.map g) (pid : Pid) (sid : Sid) :
    y.reconfArrived pid sid = x.reconfArrived pid sid := by
  unfold Lay.reconfArrived
  rw [Lay.station?_congr hst, hlinks, List.all_map]
  congr 1
  funext l
  obtain ⟨hdst, hbuf⟩ := hg l
  simp only [Function.comp_apply, Link.headReconf, hdst, hbuf]

/-- A link of a lay once the reel of a page has taken the reconfiguration records of its inputs. -/
def Link.takenAt (pg : Pid) (l : Link) : Link := if l.dst.pid == pg && l.dst.sid == reelSid then l.takeReconf else l

theorem Link.takenAt_other {pg : Pid} {l : Link} (h : ¬ (l.dst.pid = pg ∧ l.dst.sid = reelSid)) : l.takenAt pg = l :=
  if_neg (by simpa using h)

/-- Whether the reel of a page is to take the successor's form: every slot has sent its record, or sends it now, and those of its inputs
have come. -/
def Lay.reelReady (x : Lay) (pg : Pid) (r : Reel) : Prop :=
  (∀ n : Fin 4, (r.streams[n.val]).running = true → (r.streams[n.val]).reconfSent = true) ∧ r.skips = [] ∧ x.reconfArrived pg reelSid = true

/-- The reel that the successor gives a page. -/
def Image.reelOf (m : Image) (pg : Pid) : Reel :=
  let e := m.pages.getD pg.val (0, 0, 0, 0)
  Reel.fresh (BitVec.ofNat 3 e.2.2.1) (Vector.ofFn fun n => Fin.ofNat 4 (e.2.2.2 / 4 ^ n.val))

/-- The reel of a page sends what is due, and takes the successor's form once it is ready. -/
theorem Lay.adoptReel_eq {x : Lay} {pg : Pid} {r : Reel} (hr : x.reel? pg.val = some r) (hold : r.adopted = false) (m : Image) :
    (¬ x.reelReady pg r → x.adoptReel pg m = x.reelSends pg) ∧
    (x.reelReady pg r → x.adoptReel pg m = ((x.reelSends pg).takeReconfs pg reelSid).modReel pg.val fun _ => m.reelOf pg) := by
  obtain ⟨ps, hsends, hsent⟩ := x.reelSends_spec hr
  have harrived : (x.reelSends pg).reconfArrived pg reelSid = x.reconfArrived pg reelSid :=
    Lay.reconfArrived_congr (r.sendOn_keeps pg) (by rw [hsends]) (by rw [hsends]) pg reelSid
  have hready : (!r.sent.adopted && r.sent.streams.toList.all (fun (st : Stream) => st.reconfSent) && r.sent.skips.isEmpty &&
      (x.reelSends pg).reconfArrived pg reelSid) = true ↔ x.reelReady pg r := by
    rw [Bool.and_eq_true, Bool.and_eq_true, Bool.and_eq_true, Reel.all_sent hold, harrived]
    simp [Lay.reelReady, Reel.sent, hold, and_assoc]
  unfold Lay.adoptReel
  dsimp only
  rw [hsent]
  exact ⟨fun hnot => if_neg fun h => hnot (hready.mp h), fun h => if_pos (hready.mpr h)⟩

/-- What adoption leaves of a lay but the reel: the stations, and the links that do not end at the reel. -/
theorem Lay.adoptReel_links {x : Lay} {pg : Pid} {r : Reel} (hr : x.reel? pg.val = some r) (hold : r.adopted = false) (m : Image) :
    ∃ ps g, x.adoptReel pg m = { x with links := x.links.map g, pages := ps } ∧
      ∀ l, ¬ (l.dst.pid = pg ∧ l.dst.sid = reelSid) → g l = r.sendOn pg l := by
  obtain ⟨hwaits, hadopts⟩ := x.adoptReel_eq hr hold m
  obtain ⟨ps, hsends, -⟩ := x.reelSends_spec hr
  by_cases hready : x.reelReady pg r
  · obtain ⟨ps', hmod⟩ := ((x.reelSends pg).takeReconfs pg reelSid).modReel_eq pg.val fun _ => m.reelOf pg
    refine ⟨ps', fun l => (r.sendOn pg l).takenAt pg, ?_, fun l hl => Link.takenAt_other (by rwa [(r.sendOn_keeps pg l).1])⟩
    rw [hadopts hready, hmod, hsends]
    simp only [Lay.takeReconfs, List.map_map]
    rfl
  · exact ⟨ps, r.sendOn pg, (hwaits hready).trans hsends, fun _ _ => rfl⟩

/-- A reel of a lay under replacement sends a reconfiguration record for each slot that runs no stream, and is as the successor's
once all have and those of its inputs have come. -/
theorem reelAdopts {s : State} {c : CtxId} {l : LaySlot} {pg : Pid} {x : Lay} {u : Succ} {m : Image} {r : Reel} (hx : s.lay? c l = some x)
    (hu : x.succ = some u) (hm : readImage u.bytes u.bytes.length = some m) (hrole : u.roleDone = false) (hr : x.reel? pg.val = some r)
    (hold : r.adopted = false) :
    ∃ v y, exec (.reconfigAdopt ⟨c, l, pg, reelSid⟩) s = .next v ∧ v.lay? c l = some y ∧ y.stations = x.stations ∧
      (∀ (k : Nat) (lk : Link), x.links[k]? = some lk → ¬ (lk.dst.pid = pg ∧ lk.dst.sid = reelSid) → y.links[k]? = some (r.sendOn pg lk)) ∧
      (∀ z : Reel, y.reel? pg.val = some z →
        ((∃ n : Fin 4, (r.streams[n.val]).running = true ∧ (r.streams[n.val]).reconfSent = false) → z.adopted = false) ∧
        ((∀ n : Fin 4, (r.streams[n.val]).running = false) → r.skips = [] → x.reconfArrived pg reelSid = true →
          z = m.reelOf pg ∧ z.adopted = true)) := by
  have hrun : exec (.reconfigAdopt ⟨c, l, pg, reelSid⟩) s = .next ((s.modLay c l fun y => y.adoptReel pg m).endSwap c l) := by
    change execReconfigAdopt ⟨c, l, pg, reelSid⟩ s = _
    rw [execReconfigAdopt, hx]
    dsimp only
    rw [hu, Option.bind_some, hm]
    dsimp only
    rw [if_pos rfl]
  obtain ⟨ps, g, hy, hg⟩ := x.adoptReel_links hr hold m
  obtain ⟨hwaits, hadopts⟩ := x.adoptReel_eq hr hold m
  refine ⟨_, x.adoptReel pg m, hrun, lay?_endSwap_modLay hx hrole (by rw [hy]; exact hu), by rw [hy], fun k lk hk hdst => ?_,
    fun z hz => ⟨fun ⟨n, hruns, hunsent⟩ => ?_, fun hidle hskips harrived => ?_⟩⟩
  · rw [hy, List.getElem?_map, hk, Option.map_some, hg lk hdst]
  · obtain ⟨-, -, hsent⟩ := x.reelSends_spec hr
    have hnot : ¬ x.reelReady pg r := fun h => Bool.false_ne_true (hunsent.symm.trans (h.1 n hruns))
    rw [hwaits hnot, hsent] at hz
    rw [← Option.some.inj hz]
    exact hold
  · obtain ⟨-, -, hsent⟩ := x.reelSends_spec hr
    have hready : x.reelReady pg r := ⟨fun n hruns => absurd hruns (by simp [hidle n]), hskips, harrived⟩
    rw [hadopts hready, Lay.reel?_modReel_same (x := (x.reelSends pg).takeReconfs pg reelSid) hsent] at hz
    rw [← Option.some.inj hz]
    exact ⟨rfl, rfl⟩

/-! ### Cleats (R227) -/

/-- Whether a cleat of a page sends its reconfiguration record: every station that ties to it has adopted, and its releases are gone. -/
def Lay.cleatDue (x : Lay) (pg : Pid) (k : Cleat) : Bool :=
  k.pid == pg && !k.adopted && k.waiting.isEmpty && k.pending.isEmpty && k.arriving.isEmpty && x.tiersAdopted k

/-- A cleat of a lay once those of a page have sent what is due. -/
def Lay.adoptedCleat (x : Lay) (pg : Pid) (m : Image) (k : Cleat) : Cleat :=
  if !(x.cleatDue pg k) then k
  else if x.pass.isSome then { k with link := none }
  else { ((m.makeCleats []).find? fun n => n.pid == k.pid && n.num == k.num).getD k with link := none, adopted := true }

theorem Lay.keepsCleat_adoptedCleat (x : Lay) (pg : Pid) (m : Image) : KeepsCleat (x.adoptedCleat pg m) := fun k => by
  unfold Lay.adoptedCleat
  split_ifs
  · exact ⟨rfl, rfl⟩
  · exact ⟨rfl, rfl⟩
  · cases hf : (m.makeCleats []).find? fun n => n.pid == k.pid && n.num == k.num with
    | none => exact ⟨rfl, rfl⟩
    | some k' =>
      have hk' := List.find?_some (p := fun n : Cleat => n.pid == k.pid && n.num == k.num) hf
      simpa using hk'

/-- Elements changed each by its place. -/
theorem filterMap_range_eq_mapIdx {α β : Type} (us : List α) (f : Nat → α → β) :
    ((List.range us.length).filterMap fun i => (us[i]?).map (f i)) = us.mapIdx f := by
  have h := filterMap_getElem?_range (us.mapIdx f)
  rw [List.length_mapIdx] at h
  simpa only [List.getElem?_mapIdx] using h

/-- Cleats of a page adopt: those that are due send on their links, and no other link changes. -/
theorem Lay.adoptCleats_eq (x : Lay) (pg : Pid) (m : Image) : x.adoptCleats pg m = { x with
    links := x.links.mapIdx fun i l =>
      if ((x.cleats.filter (x.cleatDue pg)).filterMap fun (k : Cleat) => k.link).contains i then l.sendReconf else l,
    cleats := x.cleats.map (x.adoptedCleat pg m) } := by
  rw [← filterMap_range_eq_mapIdx]
  rfl

/-- A cleat of a page under replacement sends its reconfiguration record once it is due, after which nothing leaves on its link, and
takes the successor's values once the old pass has ended. -/
theorem cleatsAdopt {s : State} {c : CtxId} {l : LaySlot} {pg : Pid} {n : Fin 16} {x : Lay} {u : Succ} {m : Image} {k : Cleat}
    (hx : s.lay? c l = some x) (hu : x.succ = some u) (hm : readImage u.bytes u.bytes.length = some m) (hrole : u.roleDone = false)
    (hk : x.cleat? pg n = some k) (hold : k.adopted = false) :
    ∃ v y, exec (.reconfigAdopt ⟨c, l, pg, cleatSid⟩) s = .next v ∧ v.lay? c l = some y ∧ y.stations = x.stations ∧
      let due : Prop := k.waiting = [] ∧ k.pending = [] ∧ k.arriving = [] ∧ x.tiersAdopted k = true
      (¬ due → y.cleat? pg n = some k) ∧
      (due → (∀ (i : Nat) (lk : Link), k.link = some i → x.links[i]? = some lk → y.links[i]? = some { lk with flight := lk.flight ++ [(.reconf, 0)] }) ∧
        (x.pass.isSome = true → y.cleat? pg n = some { k with link := none }) ∧
        (∀ k', x.pass = none → (m.makeCleats []).find? (fun q => q.pid == pg && q.num == n) = some k' →
          y.cleat? pg n = some { k' with link := none, adopted := true })) := by
  have hrun : exec (.reconfigAdopt ⟨c, l, pg, cleatSid⟩) s = .next ((s.modLay c l fun y => y.adoptCleats pg m).endSwap c l) := by
    change execReconfigAdopt ⟨c, l, pg, cleatSid⟩ s = _
    rw [execReconfigAdopt, hx]
    dsimp only
    rw [hu, Option.bind_some, hm]
    dsimp only
    rw [if_neg (by decide), if_pos rfl]
  obtain ⟨hpid, hnum⟩ := Lay.place_of_cleat? hk
  have hy := x.adoptCleats_eq pg m
  have hcleat : (x.adoptCleats pg m).cleat? pg n = some (x.adoptedCleat pg m k) := by
    rw [Lay.cleat?_map (x.keepsCleat_adoptedCleat pg m) (by rw [hy]), hk, Option.map_some]
  have hdue : x.cleatDue pg k = true ↔ k.waiting = [] ∧ k.pending = [] ∧ k.arriving = [] ∧ x.tiersAdopted k = true := by
    simp [Lay.cleatDue, hpid, hold, and_assoc]
  refine ⟨_, x.adoptCleats pg m, hrun, lay?_endSwap_modLay hx hrole (by rw [hy]; exact hu), by rw [hy], fun hnot => ?_,
    fun h => ⟨fun i lk hlink hi => ?_, fun hpass => ?_, fun k' hpass hnew => ?_⟩⟩
  · rw [hcleat, Lay.adoptedCleat, Bool.eq_false_iff.mpr fun h => hnot (hdue.mp h)]
    rfl
  · have hgoes : ((x.cleats.filter (x.cleatDue pg)).filterMap fun (k : Cleat) => k.link).contains i = true := by
      rw [List.contains_iff_mem, List.mem_filterMap]
      exact ⟨k, List.mem_filter.mpr ⟨List.mem_of_find?_eq_some hk, hdue.mpr h⟩, hlink⟩
    rw [hy, List.getElem?_mapIdx, hi, Option.map_some, hgoes, if_pos rfl]
    rfl
  · rw [hcleat, Lay.adoptedCleat, hdue.mpr h, hpass]
    rfl
  · rw [hcleat, Lay.adoptedCleat, hdue.mpr h, hpass, hpid, hnum, hnew]
    rfl

/-! ### Banks (R229, R239) -/

/-- Once every compute and bank station has adopted, the banks change role, and their lines are given up. -/
theorem rolesChange {s : State} {c : CtxId} {l : LaySlot} {x : Lay} {u : Succ} {m : Image} (hx : s.lay? c l = some x)
    (hu : x.succ = some u) (hm : readImage u.bytes u.bytes.length = some m) (hrole : u.roleDone = false)
    (hready : ∀ st ∈ x.stations, sidSite st.sid = .compute ∨ sidSite st.sid = .bank → st.adopted = true) :
    ∃ v y, exec (.roleChangePoint c l) s = .next v ∧ v.lay? c l = some y ∧ y.zeroing = true ∧ y.succ = some { u with roleDone := true } ∧
      y.stations = x.stations.map (fun st => st.changeRole m) ∧ (∀ d ∈ v.dir, ¬ (d.ctx = c ∧ d.lay = l)) ∧ v.hbm = s.hbm := by
  have hall : (x.stations.all fun st => st.adopted || !(sidSite st.sid == .compute || sidSite st.sid == .bank)) = true := by
    rw [List.all_eq_true]
    intro st hst
    by_cases hsite : sidSite st.sid = .compute ∨ sidSite st.sid = .bank
    · rw [hready st hst hsite, Bool.true_or]
    · simp [not_or.mp hsite]
  let s1 : State := { s with dir := s.dir.filter fun d => !(d.ctx == c && d.lay == l) }
  let f (y : Lay) : Lay := { y with inter := Fin.ofNat 4 m.inter, stations := y.stations.map fun st => st.changeRole m, zeroing := true,
                                    succ := some { u with roleDone := true } }
  have hrun : exec (.roleChangePoint c l) s = .next (s1.modLay c l f) := by
    change execRoleChangePoint c l s = _
    rw [execRoleChangePoint, hx]
    dsimp only
    rw [hu]
    dsimp only
    rw [hm]
    dsimp only
    rw [hrole, hall]
    rfl
  refine ⟨s1.modLay c l f, f x, hrun, lay?_modLay_of_ctxs (s := s) (u := s1) rfl hx f, rfl, rfl, rfl, fun d hd ⟨hc, hl⟩ => ?_, s1.modLay_hbm c l f⟩
  rw [State.modLay_dir] at hd
  exact absurd (List.mem_filter.mp hd).2 (by simp [hc, hl])

theorem zeroingEnds {s : State} {c : CtxId} {l : LaySlot} {x : Lay} (hx : s.lay? c l = some x) (hload : x.loading = false)
    (hsucc : x.succ = none) : ∃ v, exec (.bankZeroingDone c l) s = .next v ∧ v.lay? c l = some { x with zeroing := false } := by
  have hrun : exec (.bankZeroingDone c l) s = .next ((s.modLay c l fun y => { y with zeroing := false }).endSwap c l) := by
    change execBankZeroingDone c l s = _
    rw [execBankZeroingDone, hx]
    exact if_neg (ne_true_of_eq_false hload)
  have hlay := lay?_modLay_of_ctxs rfl hx fun y => { y with zeroing := false }
  exact ⟨_, hrun, by rw [endSwap_of_noSucc hlay hsucc, hlay]⟩

/-- Settles O44: each step of a replacement is what its part does to the lay, whose successor does not stand before the last of them. -/
theorem replacementSteps : Obligations.ReplacementSteps := by
  refine ⟨fun s p x u m st => stationAdopts, fun s c l pg x u m r hx hu hm hrole hr hold => ?_, fun s c l pg n x u m k => cleatsAdopt,
    fun s c l x u m => rolesChange, fun s c l x => zeroingEnds⟩
  obtain ⟨v, y, hrun, hy, hstations, hlinks, hreel⟩ := reelAdopts hx hu hm hrole hr hold
  exact ⟨v, y, hrun, hy, hstations, fun k lk hk hdst => (hlinks k lk hk hdst).trans (congrArg some (Reel.sendOn_eq hold pg lk)), hreel⟩

end Sys2Proof.Machine
end

section
/-!
PROOFS. Cleats (07 R217 to R219, 09 R291 to R293): an instruction at a lay slot reaches the cleat, and arrivals are counted.
-/
namespace Sys2Proof.Machine

/-! ### The instructions (R291, R292) -/

/-- An instruction at a slot that nothing holds back, on a page that its lay has, finds the lay. -/
theorem layPage_of_free {s : State} {c : CtxId} {t : Tid} {ls : BitVec 3} {pg : BitVec 6} {x : Lay} (hx : s.lay? c (slotOf ls) = some x)
    (hfree : s.slotHeld c t (slotOf ls) = false) (hpg : pg.toNat < x.npages) : s.layPage c ls pg = .ok x := by
  have hres : s.resident? c (Fin.ofNat 8 ls.toNat) = some x := (resident?_of_free hfree).trans hx
  rw [State.layPage, hres]
  exact if_neg (Nat.not_le.mpr hpg)

theorem State.lay?_modThread (s : State) (c : CtxId) (t : Tid) (f : Thread → Thread) (l : LaySlot) :
    (s.modThread c t f).lay? c l = s.lay? c l := by
  rw [State.lay?, State.modThread, State.setThread, State.ctx_modCtx_same]
  rfl

theorem State.thread_modLay (s : State) (c : CtxId) (l : LaySlot) (f : Lay → Lay) (t : Tid) : (s.modLay c l f).thread c t = s.thread c t := by
  unfold State.modLay
  split
  · rw [State.thread, State.setLay, State.ctx_modCtx_same]
    rfl
  · rfl

/-- A cleat as cleat.set leaves it (R291). -/
def Cleat.setTo (n : BitVec 24) (imm : BitVec 16) (k : Cleat) : Cleat :=
  { k with count := n, arrivals := 0, overrun := false, reqs := [], budget := if imm = 0 then k.budget else imm.truncate 8 }

section Instructions

variable {s : State} {c : CtxId} {t : Tid} {o : YForm} {x : Lay} (hcur : s.cur = .thread c t) (hx : s.lay? c (slotOf o.ls) = some x)
  (hfree : s.slotHeld c t (slotOf o.ls) = false) (hpg : o.pg.toNat < x.npages)

include hcur hx hfree hpg

theorem exec_cleatSet : exec (.cleatSet o) s = .next (if 255 < o.imm16.toNat then s.finishT c t o.d (slotStatus 6)
    else (s.modLay c (slotOf o.ls) fun x => x.modCleat (pageOf o.pg) (Fin.ofNat 16 o.cl.toNat)
      (Cleat.setTo ((s.readT c t o.a).truncate 24) o.imm16)).finishT c t o.d 0) := by
  change execCleatSet o s = _
  rw [execCleatSet, onSlot_thread hcur o.ls hfree, layPage_of_free hx hfree hpg]
  rfl

theorem exec_cleatWait {k : Cleat} (hk : x.cleat? (pageOf o.pg) (Fin.ofNat 16 o.cl.toNat) = some k) :
    let b : Byte := (s.readT c t o.b).truncate 8
    exec (.cleatWait o) s = .next (if k.passes b then s.finishT c t o.d (k.waitWord 0)
      else if !x.passOpen then s.finishT c t o.d (k.waitWord (2 ^ 63))
      else s.modThread c t fun th => { th with wait := .cleatWait o.d (slotOf o.ls) (pageOf o.pg) (Fin.ofNat 16 o.cl.toNat) b none }) := by
  intro b
  change execCleatWait o s = _
  rw [execCleatWait, onSlot_thread hcur o.ls hfree, layPage_of_free hx hfree hpg]
  dsimp only
  rw [hk]

theorem cleatSet_sets (himm : o.imm16.toNat ≤ 255) {k : Cleat} (hk : x.cleat? (pageOf o.pg) (Fin.ofNat 16 o.cl.toNat) = some k) :
    ∃ u y, exec (.cleatSet o) s = .next u ∧ u.lay? c (slotOf o.ls) = some y ∧
      y.cleat? (pageOf o.pg) (Fin.ofNat 16 o.cl.toNat) = some (k.setTo ((s.readT c t o.a).truncate 24) o.imm16) ∧
      u.thread c t = ((s.thread c t).write o.d 0).advance := by
  have hrun := exec_cleatSet hcur hx hfree hpg
  rw [if_neg (Nat.not_lt.mpr himm)] at hrun
  refine ⟨_, _, hrun, (State.lay?_modThread ..).trans (lay?_modLay_of_ctxs rfl hx _), Lay.cleat?_modCleat_same hk fun _ => ⟨rfl, rfl⟩, ?_⟩
  rw [State.finishT, State.thread_modThread_same, State.thread_modLay]

end Instructions

/-- A wait that a released generation satisfies, or that is told of its end, ends with what cleat.wait returns. -/
theorem cleatWaitWakes {s : State} {c : CtxId} {t : Tid} {d : Spec} {l : LaySlot} {pg : Pid} {n : Fin 16} {b : Byte} {w : Option Nat}
    {x : Lay} {k : Cleat} (hwait : (s.thread c t).wait = .cleatWait d l pg n b w) (hx : s.lay? c l = some x) (hk : x.cleat? pg n = some k) :
    (k.passes b = true → exec (.cleatWaitWake c t) s = .next (s.finishT c t d (k.waitWord 0))) ∧
    (∀ e, k.passes b = false → w = some e → exec (.cleatWaitWake c t) s =
      .next (s.finishT c t d (k.waitWord (if e < 3 then 2 ^ 63 else 2 ^ 62)))) := by
  have hstart : exec (.cleatWaitWake c t) s = execCleatWaitWake c t s := rfl
  rw [execCleatWaitWake, hwait] at hstart
  dsimp only at hstart
  rw [hx, Option.bind_some, hk] at hstart
  refine ⟨fun hpasses => hstart.trans (if_pos hpasses), fun e hpasses hw => ?_⟩
  rw [hw] at hstart
  exact hstart.trans (if_neg (ne_true_of_eq_false hpasses))

/-- At a station cleat.tie notes an arrival that completion delivers (R293). -/
theorem exec_cleatTie {s : State} {p : Place} {f : Frame} (hcur : s.cur = .station p f) (o : YForm) : exec (.cleatTie o) s =
    .next { s with cur := .station p { f with ties := f.ties ++ [Fin.ofNat 16 o.cl.toNat], ip := f.ip + 1 } } :=
  atStation_station hcur _ _ rfl

/-! ### Arrivals (R219) -/

theorem Cleat.arrive_of_count_zero {k : Cleat} (h : k.count = 0) (rs : List Nat) : k.arrive rs = { k with overrun := true } := if_pos h

section Arrive

variable {k : Cleat} (hcount : k.count ≠ 0) (rs : List Nat)

include hcount

/-- An arrival that leaves the count unfilled. -/
theorem Cleat.arrive_counts (h : k.arrivals + 1 ≠ k.count) : k.arrive rs =
    { k with arrivals := k.arrivals + 1, overrun := k.overrun || decide (k.budget.toNat ≤ k.fired.toNat), reqs := k.reqs ++ rs } := by
  rw [Cleat.arrive, if_neg hcount]
  exact if_neg h

/-- The arrival that fills the count ends a generation, and the count begins again. -/
theorem Cleat.arrive_fills (h : k.arrivals + 1 = k.count) : k.arrive rs =
    { k with arrivals := 0, gen := k.gen + 1, fired := if k.fired = 255 then k.fired else k.fired + 1,
             overrun := k.overrun || decide (k.budget.toNat ≤ k.fired.toNat) || (k.link.isSome && decide (255 ≤ k.pending.length)),
             waiting := k.waiting ++ [(k.gen + 1, if k.fired = 255 then k.fired else k.fired + 1, k.reqs ++ rs,
               k.link.isSome && decide (255 ≤ k.pending.length))],
             reqs := [] } := by
  rw [Cleat.arrive, if_neg hcount]
  exact if_pos h

/-- The arrival that fills the count is the one whose number is the count. -/
theorem Cleat.fills_iff : k.arrivals + 1 = k.count ↔ k.arrivals.toNat + 1 = k.count.toNat := by
  bv_omega

theorem Cleat.overrun_arrive :
    (k.budget.toNat ≤ k.fired.toNat ∨ k.overrun = true → (k.arrive rs).overrun = true) ∧
    (k.fired.toNat < k.budget.toNat → k.overrun = false → k.pending.length < 255 → (k.arrive rs).overrun = false) := by
  have hroom (h : k.pending.length < 255) : decide (255 ≤ k.pending.length) = false := decide_eq_false (Nat.not_le.mpr h)
  have hbudget (h : k.fired.toNat < k.budget.toNat) : decide (k.budget.toNat ≤ k.fired.toNat) = false := decide_eq_false (Nat.not_le.mpr h)
  by_cases hfill : k.arrivals + 1 = k.count
  · rw [Cleat.arrive_fills hcount rs hfill]
    refine ⟨fun hover => ?_, fun hb hover hp => ?_⟩
    · obtain hover | hover := hover <;> simp [hover]
    · simp [hover, hroom hp, hbudget hb]
  · rw [Cleat.arrive_counts hcount rs hfill]
    refine ⟨fun hover => ?_, fun hb hover hp => ?_⟩
    · obtain hover | hover := hover <;> simp [hover]
    · simp [hover, hbudget hb]

end Arrive

theorem keepsCleat_arrive (rs : List Nat) : KeepsCleat fun k => k.arrive rs := fun k => by
  dsimp only [Cleat.arrive]
  split_ifs <;> exact ⟨rfl, rfl⟩

/-- Counting the arrivals of a cycle leaves each cleat its page and number. -/
theorem keepsCleat_countArrivals : KeepsCleat Cleat.countArrivals := fun k => by
  have hfold (rss : List (List Nat)) (z : Cleat) : (rss.foldl Cleat.arrive z).pid = z.pid ∧ (rss.foldl Cleat.arrive z).num = z.num := by
    induction rss generalizing z with
    | nil => exact ⟨rfl, rfl⟩
    | cons rs rss ih =>
      obtain ⟨hpid, hnum⟩ := ih (z.arrive rs)
      exact ⟨hpid.trans (keepsCleat_arrive rs z).1, hnum.trans (keepsCleat_arrive rs z).2⟩
  exact hfold k.arriving { k with arriving := [] }

theorem Cleat.countArrivals_of_none {k : Cleat} (h : k.arriving = []) : k.countArrivals = k := by
  obtain ⟨⟩ := k
  cases h
  rfl

/-- At the end of a cycle every cleat has counted the arrivals of the cycle. -/
theorem Lay.cleats_countArrivals (x : Lay) : x.countArrivals.cleats = x.cleats.map Cleat.countArrivals := by
  unfold Lay.countArrivals
  split
  · next hnone =>
    refine (List.map_id' x.cleats).symm.trans (List.map_congr_left fun k hk => (Cleat.countArrivals_of_none ?_).symm)
    exact List.isEmpty_iff.mp (List.all_eq_true.mp hnone k hk)
  · dsimp only
    split <;> rfl

theorem arrivalsCounted {x : Lay} {pg : Pid} {n : Fin 16} {k : Cleat} (rs : List Nat) (hk : x.cleat? pg n = some k) :
    (x.arrive pg n rs).cleat? pg n = some { k with arriving := k.arriving ++ [rs] } ∧
    (x.countArrivals).cleat? pg n = some (k.arriving.foldl Cleat.arrive { k with arriving := [] }) := by
  refine ⟨Lay.cleat?_modCleat_same hk (g := fun c => { c with arriving := c.arriving ++ [rs] }) fun _ => ⟨rfl, rfl⟩, ?_⟩
  rw [Lay.cleat?_map keepsCleat_countArrivals x.cleats_countArrivals, hk, Option.map_some]
  rfl

/-- Settles O46: each instruction is read off the lay that its slot holds, and an arrival by whether it fills the count. -/
theorem cleatsCount : Obligations.CleatsCount := by
  refine ⟨?_, fun s c t d l pg n b w x k => cleatWaitWakes,
    fun s p f o hcur => exec_cleatTie hcur o, fun k rs hcount => ⟨fun hlt => ?_, fun hfill => ?_, Cleat.overrun_arrive hcount rs⟩,
    fun k rs hcount => Cleat.arrive_of_count_zero hcount rs, fun x pg n k rs => arrivalsCounted rs⟩
  · intro s c t o x k hcur hx hfree hpg hk d b word after
    have hpasses : k.passes b = true ↔ after := by simp [Cleat.passes, after]
    have hset := exec_cleatSet hcur hx hfree hpg
    have hwait := exec_cleatWait hcur hx hfree hpg hk
    refine ⟨fun himm => hset.trans (by rw [if_pos himm]; rfl), fun himm => cleatSet_sets hcur hx hfree hpg himm hk,
      fun hafter => hwait.trans (by rw [if_pos (hpasses.mpr hafter)]; rfl), fun hnot hclosed => hwait.trans ?_, fun hnot hopen => hwait.trans ?_⟩
    · rw [if_neg fun h => hnot (hpasses.mp h), hclosed]
      rfl
    · rw [if_neg fun h => hnot (hpasses.mp h), hopen]
      rfl
  · have hfill : k.arrivals + 1 ≠ k.count := fun h => by have := (Cleat.fills_iff hcount).mp h; omega
    rw [Cleat.arrive_counts hcount rs hfill]
    exact ⟨rfl, rfl, rfl⟩
  · rw [Cleat.arrive_fills hcount rs ((Cleat.fills_iff hcount).mpr hfill)]
    exact ⟨rfl, rfl, by simp, fun hfired => if_neg hfired⟩

end Sys2Proof.Machine
end

section
/-!
PROOFS. A bank's bytes and the atomic operators (08 R233, R239; 05 R162): a bank outside the line role holds its bytes at their
offsets, and an operator works on a word as on a bit vector.
-/
namespace Sys2Proof.Machine

/-! ### A bank's bytes -/

/-- Outside the line role a range of offsets is one range of bytes. -/
theorem Bank.spans_of_not_line {b : Bank} (h : b.role ≠ .line) (o n : Nat) : b.spans o n = [(o, n)] := if_neg h

theorem Bank.putSpans_eq (ps : List (Nat × Nat)) (b : Bank) (bs : List Byte) :
    ∃ m ms, b.putSpans ps bs = { b with dat := m, poison := ms } := by
  induction ps generalizing b bs with
  | nil => exact ⟨_, _, rfl⟩
  | cons p ps ih => exact ih _ _

/-- In every role a write changes bytes, marks and the head row alone. -/
theorem Bank.write_eq (b : Bank) (o : Nat) (bs : List Byte) : ∃ m ms n, b.write o bs = { b with dat := m, poison := ms, head := n } := by
  obtain ⟨m, ms, h⟩ := Bank.putSpans_eq (b.spans o bs.length) b bs
  simp only [Bank.write, h]
  split <;> exact ⟨_, _, _, rfl⟩

@[simp] theorem Bank.role_write (b : Bank) (o : Nat) (bs : List Byte) : (b.write o bs).role = b.role := by
  obtain ⟨m, ms, n, h⟩ := b.write_eq o bs
  rw [h]

@[simp] theorem Bank.pres_write (b : Bank) (o : Nat) (bs : List Byte) : (b.write o bs).pres = b.pres := by
  obtain ⟨m, ms, n, h⟩ := b.write_eq o bs
  rw [h]

@[simp] theorem Bank.claims_write (b : Bank) (o : Nat) (bs : List Byte) : (b.write o bs).claims = b.claims := by
  obtain ⟨m, ms, n, h⟩ := b.write_eq o bs
  rw [h]

@[simp] theorem Bank.window_write (b : Bank) (o : Nat) (bs : List Byte) : (b.write o bs).window = b.window := by
  obtain ⟨m, ms, n, h⟩ := b.write_eq o bs
  rw [h]

/-- Outside the line role the bytes written stand at their offsets. -/
theorem Bank.dat_write_of_not_line {b : Bank} (h : b.role ≠ .line) (o : Nat) (bs : List Byte) :
    (b.write o bs).dat = writeBytes b.dat o bs := by
  simp [Bank.write, Bank.spans_of_not_line h, h, Bank.putSpans]

/-- Outside the line and pres roles a read takes the bytes at their offsets. -/
theorem Bank.read_of_plain {b : Bank} (hline : b.role ≠ .line) (hpres : b.role ≠ .pres) (o n : Nat) :
    b.read o n = readBytes b.dat o n := by
  simp [Bank.read, Bank.spans_of_not_line hline, hpres]

theorem readBytes_writeBytes_same {m : Mem} (hm : memWf m = true) (a : Nat) (bs : List Byte) :
    readBytes (writeBytes m a bs) a bs.length = bs :=
  readBytes_eq fun _ => readByte_writeBytes_same hm a

/-- A read of bytes that a write does not touch finds them as they were. -/
theorem readBytes_writeBytes_other {m : Mem} (hm : memWf m = true) (o : Nat) (bs : List Byte) {a n : Nat}
    (h : a + n ≤ o ∨ o + bs.length ≤ a) : readBytes (writeBytes m o bs) a n = readBytes m a n := by
  induction n generalizing a with
  | zero => rfl
  | succ n ih => rw [readBytes, readBytes, readByte_writeBytes_other hm o a bs (by omega), ih (by omega)]

theorem bankReadsBack : Claims.BankReadsBack := by
  intro b o bs hline hpres hm
  have hread (a n : Nat) : (b.write o bs).read a n = readBytes (writeBytes b.dat o bs) a n := by
    rw [Bank.read_of_plain (b.role_write o bs ▸ hline) (b.role_write o bs ▸ hpres), Bank.dat_write_of_not_line hline]
  refine ⟨?_, fun a n h => ?_, ?_, b.pres_write o bs, b.window_write o bs⟩
  · rw [hread, readBytes_writeBytes_same hm]
  · rw [hread, readBytes_writeBytes_other hm o bs h, Bank.read_of_plain hline hpres]
  · rw [Bank.dat_write_of_not_line hline]
    exact memWf_writeBytes hm o bs

/-! ### The operators of atom (R162) -/

/-- A word taken with its sign is the signed number it stands for. -/
theorem sextN_toNat {w : Nat} (hw : 0 < w) (a : BitVec w) : sextN w a.toNat = a.toInt := by
  have hpow : 2 ^ w = 2 * 2 ^ (w - 1) := by rw [← Nat.pow_succ', Nat.succ_eq_add_one, Nat.sub_add_cancel hw]
  have hlow : a.toNat < 2 ^ (w - 1) ↔ 2 * a.toNat < 2 ^ w := by omega
  rw [sextN, if_neg hw.ne', Nat.mod_eq_of_lt a.isLt, BitVec.toInt_eq_toNat_cond]
  simp only [hlow]

theorem atomicOperators : Claims.AtomicOperators := by
  intro w a v hw
  have hslt (x y : BitVec w) : sextN w x.toNat < sextN w y.toNat ↔ x.slt y = true := by
    rw [sextN_toNat hw, sextN_toNat hw, BitVec.slt_eq_decide, decide_eq_true_eq]
  refine ⟨(BitVec.toNat_add a v).symm, (BitVec.toNat_and a v).symm, (BitVec.toNat_or a v).symm, (BitVec.toNat_xor a v).symm,
    ?_, ?_, ?_, ?_, rfl⟩
  · show (if sextN w v.toNat < sextN w a.toNat then v.toNat else a.toNat) = _
    simp only [hslt, apply_ite BitVec.toNat]
  · show (if sextN w a.toNat < sextN w v.toNat then v.toNat else a.toNat) = _
    simp only [hslt, apply_ite BitVec.toNat]
  · show min a.toNat v.toNat = _
    simp only [apply_ite BitVec.toNat, BitVec.ult_eq_decide, decide_eq_true_eq, min_comm a.toNat, min_def_lt]
  · show max a.toNat v.toNat = _
    simp only [apply_ite BitVec.toNat, BitVec.ult_eq_decide, decide_eq_true_eq, max_def_lt]

/-- Settles O33: a write stands at its offsets, where the read finds it, and each operator is the one of bit vectors. -/
theorem banksAndOperators : Obligations.BanksAndOperators := ⟨bankReadsBack, atomicOperators⟩

end Sys2Proof.Machine
end

section
/-!
PROOFS. The instructions of streams (09 R251, R276, R294 to R298): what stands in a stream slot after a change, the checks of
a start in their order, and stop, wait and barriers.
-/
namespace Sys2Proof.Machine

/-! ### Stream slots read back -/

theorem Lay.reel?_modReel (x : Lay) (pg : Nat) (f : Reel → Reel) : (x.modReel pg f).reel? pg = (x.reel? pg).map f := by
  cases hr : x.reel? pg with
  | some r => exact x.reel?_modReel_same hr f
  | none =>
    have hpage : x.pages[pg]? = none := Option.map_eq_none_iff.mp hr
    rw [Lay.modReel, hpage]
    exact hr

theorem Lay.stream?_of_reel {x : Lay} {pg : Nat} {r : Reel} (hr : x.reel? pg = some r) (n : Fin 4) :
    x.stream? pg n = some r.streams[n.val] := by rw [Lay.stream?, hr, Option.map_some]

theorem Lay.stream?_modReel (x : Lay) (pg : Nat) (f : Reel → Reel) (n : Fin 4) :
    (x.modReel pg f).stream? pg n = (x.reel? pg).map fun r => (f r).streams[n.val] := by
  rw [Lay.stream?, Lay.reel?_modReel, Option.map_map]
  rfl

theorem Lay.stream?_modStream_same (x : Lay) (pg : Nat) (n : Fin 4) (f : Stream → Stream) :
    (x.modStream pg n f).stream? pg n = (x.stream? pg n).map f := by
  rw [Lay.modStream, Lay.stream?_modReel, Lay.stream?, Option.map_map]
  congr 1
  funext r
  exact Vector.getElem_set_self _

theorem Lay.stream?_modStream_other {n m : Fin 4} (h : m ≠ n) (x : Lay) (pg : Nat) (f : Stream → Stream) :
    (x.modStream pg n f).stream? pg m = x.stream? pg m := by
  rw [Lay.modStream, Lay.stream?_modReel, Lay.stream?]
  congr 1
  funext r
  exact Vector.getElem_set_ne n.isLt m.isLt fun e => h (Fin.ext e.symm)

@[simp] theorem Lay.stream?_stir (x : Lay) (pg : Nat) (n : Fin 4) : x.stir.stream? pg n = x.stream? pg n := rfl
@[simp] theorem Lay.stream?_progressed (x : Lay) (pg : Nat) (n : Fin 4) : x.progressed.stream? pg n = x.stream? pg n := rfl
@[simp] theorem Lay.stream?_modLink (x : Lay) (k : Nat) (f : Link → Link) (pg : Nat) (n : Fin 4) :
    (x.modLink k f).stream? pg n = x.stream? pg n := by rw [x.modLink_eq_modify]; rfl

/-- The streams of a slot are those of its lay. -/
theorem State.stream?_eq {s : State} {c : CtxId} {l : LaySlot} {x : Lay} (hx : s.lay? c l = some x) (pg : Pid) (n : Fin 4) :
    s.stream? c l pg n = x.stream? pg.val n := by rw [State.stream?, hx, Option.bind_some]

theorem State.stream?_congr {s u : State} {c : CtxId} {l : LaySlot} (h : u.lay? c l = s.lay? c l) (pg : Pid) (n : Fin 4) :
    u.stream? c l pg n = s.stream? c l pg n := by rw [State.stream?, State.stream?, h]

theorem State.stream?_modLay {s : State} {c : CtxId} {l : LaySlot} {x : Lay} (hx : s.lay? c l = some x) (f : Lay → Lay) (pg : Pid) (n : Fin 4) :
    (s.modLay c l f).stream? c l pg n = (f x).stream? pg.val n :=
  State.stream?_eq (by rw [State.lay?_modLay_same, hx, Option.map_some]) pg n

theorem State.stream?_modStream_same (s : State) (c : CtxId) (l : LaySlot) (pg : Pid) (n : Fin 4) (f : Stream → Stream) :
    (s.modStream c l pg n f).stream? c l pg n = (s.stream? c l pg n).map f := by
  rw [State.modStream, State.stream?, State.lay?_modLay_same, State.stream?]
  cases s.lay? c l with
  | none => rfl
  | some x => exact x.stream?_modStream_same pg.val n f

@[simp] theorem State.stream?_modThread (s : State) (c : CtxId) (t : Tid) (f : Thread → Thread) (l : LaySlot) (pg : Pid) (n : Fin 4) :
    (s.modThread c t f).stream? c l pg n = s.stream? c l pg n := State.stream?_congr (s.lay?_modThread c t f l) pg n

@[simp] theorem State.stream?_finishT (s : State) (c : CtxId) (t : Tid) (d : Spec) (v : DWord) (l : LaySlot) (pg : Pid) (n : Fin 4) :
    (s.finishT c t d v).stream? c l pg n = s.stream? c l pg n := s.stream?_modThread c t _ l pg n

theorem State.thread_finishT (s : State) (c : CtxId) (t : Tid) (d : Spec) (v : DWord) :
    (s.finishT c t d v).thread c t = ((s.thread c t).write d v).advance := s.thread_modThread_same c t _

/-! ### Starts (R276, R294) -/

theorem lay?_of_resident {s : State} {c : CtxId} {l : LaySlot} {x : Lay} (h : s.resident? c l = some x) : s.lay? c l = some x := by
  unfold State.resident? at h
  split at h
  · next y hy =>
    split at h
    · cases h
    · rw [hy, h]
  · cases h

theorem layPage_of_resident {s : State} {c : CtxId} {ls : BitVec 3} {pg : BitVec 6} {x : Lay} (h : s.resident? c (slotOf ls) = some x)
    (hpg : pg.toNat < x.npages) : s.layPage c ls pg = .ok x := by
  rw [State.layPage, show s.resident? c (Fin.ofNat 8 ls.toNat) = some x from h]
  exact if_neg (Nat.not_le.mpr hpg)

section Start
variable {s : State} {c : CtxId} {t : Tid} {o : FForm} {st : Stream}

theorem startStream_noLay (h : s.resident? c (slotOf o.ls) = none) :
    s.startStream c t o st = s.finishT c t o.d (slotStatus 1) := by
  rw [State.startStream, State.layPage, show s.resident? c (Fin.ofNat 8 o.ls.toNat) = none from h]

theorem startStream_noPage {x : Lay} (h : s.resident? c (slotOf o.ls) = some x) (hpg : x.npages ≤ o.pg.toNat) :
    s.startStream c t o st = s.finishT c t o.d (slotStatus 5) := by
  rw [State.startStream, State.layPage, show s.resident? c (Fin.ofNat 8 o.ls.toNat) = some x from h]
  dsimp only
  rw [if_pos hpg]

/-- The checks that follow once the page is found, in their order. -/
theorem startStream_onPage {x : Lay} {r : Reel} (h : s.resident? c (slotOf o.ls) = some x) (hpg : o.pg.toNat < x.npages)
    (hr : x.reel? (pageOf o.pg).val = some r) :
    s.startStream c t o st =
      if ¬ (x.passOpen = true ∧ x.reelGone (pageOf o.pg) (Fin.ofNat 4 o.sl.toNat) = false) then s.finishT c t o.d (slotStatus 2)
      else if (r.streams[(Fin.ofNat 4 o.sl.toNat).val]).running = true ∨ ∃ j ∈ st.fibsUsed r.fibres, r.fibBusy j = true then
        s.finishT c t o.d (slotStatus 3)
      else if x.portsLinked (pageOf o.pg) (Fin.ofNat 4 o.sl.toNat) st.form st.desc = false then s.finishT c t o.d (slotStatus 4)
      else (s.modLay c (slotOf o.ls) fun y => (y.modStream (pageOf o.pg).val (Fin.ofNat 4 o.sl.toNat) fun _ => st).stir).finishT c t o.d 0 := by
  rw [State.startStream, layPage_of_resident h hpg]
  dsimp only
  rw [hr]
  simp only [not_and_or, Bool.or_eq_true, Bool.not_eq_true', Bool.not_eq_true, Bool.not_eq_false, List.any_eq_true]

/-- A stream that starts stands in its slot; the others, and the thread but for its result, are as they were. -/
theorem started_stands {x : Lay} {r : Reel} {n : Fin 4} (h : s.resident? c (slotOf o.ls) = some x)
    (hr : x.reel? (pageOf o.pg).val = some r) :
    let u := (s.modLay c (slotOf o.ls) fun y => (y.modStream (pageOf o.pg).val n fun _ => st).stir).finishT c t o.d 0
    u.stream? c (slotOf o.ls) (pageOf o.pg) n = some st ∧
      (∀ m, m ≠ n → u.stream? c (slotOf o.ls) (pageOf o.pg) m = s.stream? c (slotOf o.ls) (pageOf o.pg) m) ∧
      u.thread c t = ((s.thread c t).write o.d 0).advance ∧ u.hbm = s.hbm := by
  have hx := lay?_of_resident h
  refine ⟨?_, fun m hm => ?_, ?_, ?_⟩
  · rw [State.stream?_finishT, State.stream?_modLay hx, Lay.stream?_stir, Lay.stream?_modStream_same, Lay.stream?_of_reel hr]
    rfl
  · rw [State.stream?_finishT, State.stream?_modLay hx, Lay.stream?_stir, Lay.stream?_modStream_other hm, State.stream?_eq hx]
  · rw [State.thread_finishT, State.thread_modLay]
  · simp

end Start

theorem streamsStart : Claims.StreamsStart := by
  intro s c t o hcur l pg n hfree answers
  have hanswers (i : Instr) (s1 : State) (st : Stream) (hrun : exec i s = .next (s1.startStream c t o st)) : answers i s1 st := by
    refine ⟨fun hres => ?_, fun x r hres => ⟨fun hpg => ?_, fun hr hpg => ?_⟩⟩
    · rw [hrun, startStream_noLay hres]
      rfl
    · rw [hrun, startStream_noPage hres hpg]
      rfl
    · intro busy here
      have heq := hrun.trans (congrArg _ (startStream_onPage hres hpg hr))
      refine ⟨fun hnot => ?_, fun hhere hbusy => ?_, fun hhere hidle hlinks => ?_, fun hhere hidle hlinks => ⟨_, ?_, started_stands hres hr⟩⟩
      · rw [heq, if_pos hnot]
        rfl
      · rw [heq, if_neg (not_not_intro hhere), if_pos hbusy]
        rfl
      · rw [heq, if_neg (not_not_intro hhere), if_neg hidle, if_pos hlinks]
        rfl
      · rw [heq, if_neg (not_not_intro hhere), if_neg hidle, if_neg (by rw [hlinks]; decide)]
  have hread (f : SForm) {bs : List Byte} {s1 : State} (hp : s.threadPending c t = false)
      (hb : s.threadRead c t (s.readT c t o.a).toNat 64 1 = (.ok bs, s1)) :
      execStart f o s = .next (s1.startStream c t o (Stream.started f bs (s1.threadReqs c t))) := by
    rw [execStart, onSlot_thread hcur o.ls hfree, threadFar_ready hp, State.withRead, hb]
  refine ⟨fun k hk bs s1 hp hb => hanswers _ _ _ ?_, fun k hk => hanswers _ _ _ ?_⟩
  · simp only [List.mem_cons, List.not_mem_nil, or_false] at hk
    obtain rfl | rfl | rfl | rfl | rfl := hk <;> exact hread _ hp hb
  · simp only [List.mem_cons, List.not_mem_nil, or_false] at hk
    obtain rfl | rfl | rfl := hk <;> exact onSlot_thread hcur o.ls hfree _

/-! ### Stop, wait and barriers (R296 to R298) -/

/-- The stream of a slot as reel.stop leaves it (R296): one that ends already stays as it is, unless it owes poison records;
one with an access issued ends with its operation; another ends at once. -/
def Stream.reelStopped (st : Stream) : Stream :=
  if st.ending ≠ none ∧ st.owesPoison = false then st
  else if st.ending = none ∧ st.issued = true then { st with stopping := true }
  else { st with st := .running, ending := some (1, 0, 0) }

section Slot
variable {s : State} {c : CtxId} {t : Tid} {o : FForm} {x : Lay} {st : Stream}
variable (hcur : s.cur = .thread c t) (hres : s.resident? c (slotOf o.ls) = some x) (hfree : s.slotHeld c t (slotOf o.ls) = false)
  (hpg : o.pg.toNat < x.npages) (hst : s.stream? c (slotOf o.ls) (pageOf o.pg) (Fin.ofNat 4 o.sl.toNat) = some st)
include hcur hres hfree hpg hst

theorem exec_reelStop : exec (.reelStop o) s = .next (if st.running then
    (s.modStream c (slotOf o.ls) (pageOf o.pg) (Fin.ofNat 4 o.sl.toNat) Stream.reelStopped).finishT c t o.d 0 else s.finishT c t o.d 1) := by
  have hstop : (fun y : Stream => if !(y.ending.isNone || y.owesPoison) then y
      else if y.issued && y.ending.isNone then { y with stopping := true }
      else { y with ending := some (1, 0, 0), st := .running }) = Stream.reelStopped := by
    funext y
    cases hend : y.ending with
    | none => simp [Stream.reelStopped, hend]
    | some e => simp [Stream.reelStopped, hend]
  refine (onSlot_thread hcur o.ls hfree _).trans ?_
  rw [layPage_of_resident hres hpg, ← hstop]
  dsimp only
  rw [(State.stream?_eq (lay?_of_resident hres) _ _).symm.trans hst]

theorem exec_reelWait : exec (.reelWait o) s = .next (if st.running then
    s.modThread c t fun th => { th with wait := .reelWait o.d o.b (slotOf o.ls) (pageOf o.pg) (Fin.ofNat 4 o.sl.toNat) }
    else (s.writeT c t o.d (waitWords st).1).finishT c t o.b (waitWords st).2) := by
  refine (onSlot_thread hcur o.ls hfree _).trans ?_
  rw [layPage_of_resident hres hpg]
  dsimp only
  rw [(State.stream?_eq (lay?_of_resident hres) _ _).symm.trans hst]
  rfl

/-- A running stream is stopped, and the result is 0. -/
theorem reelStop_running (hrun : st.running = true) : ∃ u, exec (.reelStop o) s = .next u ∧
    u.thread c t = ((s.thread c t).write o.d 0).advance ∧
    u.stream? c (slotOf o.ls) (pageOf o.pg) (Fin.ofNat 4 o.sl.toNat) = some st.reelStopped := by
  refine ⟨_, exec_reelStop hcur hres hfree hpg hst, ?_, ?_⟩
  · rw [if_pos hrun, State.thread_finishT, State.modStream, State.thread_modLay]
  · rw [if_pos hrun, State.stream?_finishT, State.stream?_modStream_same, hst, Option.map_some]

end Slot

/-- An operation that ends while its stream is stopping ends the stream with status 1. -/
theorem ending_opEnded_of_stopping {st : Stream} (hparked : st.parked = none) (hstop : st.stopping = true) (hend : st.ending = none) :
    st.opEnded.ending = some (1, 0, 0) := by
  simp [Stream.opEnded, hparked, hstop, hend]

theorem exec_reelWaitWake {s : State} {c : CtxId} {t : Tid} {d e : Spec} {l : LaySlot} {pg : Pid} {n : Fin 4} {st : Stream}
    (hwait : (s.thread c t).wait = .reelWait d e l pg n) (hst : s.stream? c l pg n = some st) (hrun : st.running = false) :
    exec (.reelWaitWake c t) s = .next ((s.writeT c t d (waitWords st).1).finishT c t e (waitWords st).2) := by
  show execReelWaitWake c t s = _
  rw [execReelWaitWake, hwait]
  dsimp only
  rw [hst]
  dsimp only
  rw [hrun]
  rfl

/-- The words that a wait returns are the two halves of the completion record. -/
theorem waitWords_of_compl {st : Stream} {bs : List Byte} (h : st.compl = some bs) :
    waitWords st = (BitVec.ofNat 64 (natAt bs 0 8), BitVec.ofNat 64 (natAt bs 8 8)) := by rw [waitWords, h]

theorem waitWords_of_no_compl {st : Stream} (h : st.compl = none) : waitWords st = (0xff, 0) := by rw [waitWords, h]

/-- A stream as sbar leaves it: with a barrier where the mask names it and it runs. -/
def Stream.barred (named : Bool) (st : Stream) : Stream := if named && st.running then { st with barrier := true } else st

/-- A reel whose running streams that a mask names have barriers. -/
def Reel.barred (mask : BitVec 4) (r : Reel) : Reel :=
  { r with streams := Vector.ofFn fun n => (r.streams[n.val]).barred (mask.getLsbD n.val) }

theorem exec_sbar {s : State} {c : CtxId} {t : Tid} {o : YForm} {x : Lay} (hcur : s.cur = .thread c t)
    (hres : s.resident? c (slotOf o.ls) = some x) (hfree : s.slotHeld c t (slotOf o.ls) = false) (hpg : o.pg.toNat < x.npages) :
    exec (.sbar o) s = .next (
      let s1 := s.modLay c (slotOf o.ls) fun y => y.modReel (pageOf o.pg).val (Reel.barred (o.imm16.truncate 4))
      if o.imm16.getLsbD 4 then s1.modThread c t fun th => { th with wait := .sbar o.d (slotOf o.ls) (pageOf o.pg) (o.imm16.truncate 4) }
      else s1.finishT c t o.d 0) := by
  refine (onSlot_thread hcur o.ls hfree _).trans ?_
  rw [layPage_of_resident hres hpg]
  rfl

/-- sbar sets barriers on the running streams of its mask, and waits for them or completes (R298). -/
theorem sbar_sets {s : State} {c : CtxId} {t : Tid} {o : YForm} {x : Lay} (hcur : s.cur = .thread c t)
    (hres : s.resident? c (slotOf o.ls) = some x) (hfree : s.slotHeld c t (slotOf o.ls) = false) (hpg : o.pg.toNat < x.npages) :
    ∃ u, exec (.sbar o) s = .next u ∧
      (∀ n st, s.stream? c (slotOf o.ls) (pageOf o.pg) n = some st →
        u.stream? c (slotOf o.ls) (pageOf o.pg) n = some (st.barred (o.imm16.getLsbD n.val))) ∧
      u.thread c t = if o.imm16.getLsbD 4 then { s.thread c t with wait := .sbar o.d (slotOf o.ls) (pageOf o.pg) (o.imm16.truncate 4) }
        else ((s.thread c t).write o.d 0).advance := by
  refine ⟨_, exec_sbar hcur hres hfree hpg, fun n st hst => ?_, ?_⟩
  · have hx := lay?_of_resident hres
    obtain ⟨r, hr, rfl⟩ := Option.map_eq_some_iff.mp ((State.stream?_eq hx _ _).symm.trans hst)
    have hmask : (o.imm16.truncate 4 : BitVec 4).getLsbD n.val = o.imm16.getLsbD n.val := by
      rw [BitVec.truncate, BitVec.getLsbD_setWidth, decide_eq_true n.isLt, Bool.true_and]
    have hset : (s.modLay c (slotOf o.ls) fun y => y.modReel (pageOf o.pg).val (Reel.barred (o.imm16.truncate 4))).stream?
        c (slotOf o.ls) (pageOf o.pg) n = some ((r.streams[n.val]).barred (o.imm16.getLsbD n.val)) := by
      rw [State.stream?_modLay hx, Lay.stream?_modReel, hr, Option.map_some, Reel.barred, Vector.getElem_ofFn, hmask]
    dsimp only
    split
    · rw [State.stream?_modThread, hset]
    · rw [State.stream?_finishT, hset]
  · dsimp only
    split
    · rw [State.thread_modThread_same, State.thread_modLay]
    · rw [State.thread_finishT, State.thread_modLay]

theorem stream?_ite_finishT (p : Prop) [Decidable p] (s : State) (c : CtxId) (t : Tid) (d : Spec) (v : DWord) (l : LaySlot) (pg : Pid) (n : Fin 4) :
    (if p then s.finishT c t d v else s).stream? c l pg n = s.stream? c l pg n := by
  split
  · exact s.stream?_finishT c t d v l pg n
  · rfl

theorem stream?_foldl {α : Type} {f : State → α → State} {c : CtxId} {l : LaySlot} {pg : Pid} {n : Fin 4}
    (hf : ∀ z a, (f z a).stream? c l pg n = z.stream? c l pg n) (as : List α) (s : State) :
    (as.foldl f s).stream? c l pg n = s.stream? c l pg n := by
  induction as generalizing s with
  | nil => rfl
  | cons a as ih => exact (ih (f s a)).trans (hf s a)

/-- SBAR_PASSED: a stream with no access issued passes its barrier (R298). -/
theorem sbarPassed_passes {s : State} {c : CtxId} {l : LaySlot} {pg : Pid} {n : Fin 4} {st : Stream} (hst : s.stream? c l pg n = some st) :
    ∃ u, exec (.sbarPassed c l pg) s = .next u ∧
      u.stream? c l pg n = some (if st.issued = true then st else { st with barrier := false }) := by
  obtain ⟨x, hx, hxst⟩ := Option.bind_eq_some_iff.mp hst
  obtain ⟨r, hr, rfl⟩ := Option.map_eq_some_iff.mp hxst
  refine ⟨_, rfl, ?_⟩
  rw [stream?_foldl fun z t => ?_]
  · rw [State.stream?_modLay hx, Lay.passBarriers, Lay.stream?_modReel, hr, Option.map_some, Vector.getElem_map]
  · split
    · exact stream?_ite_finishT ..
    · rfl

theorem streamsStop : Claims.StreamsStop := by
  refine ⟨fun s c t o x st hcur hres hfree hpg => ?_, fun s c t d e l pg n st bs hwait hst hidle hc => ?_,
    fun s c t o x hcur hres => sbar_sets hcur hres, fun s c l pg n st => sbarPassed_passes⟩
  · intro n hst
    have hstop := exec_reelStop hcur hres hfree hpg hst
    have hwait := exec_reelWait hcur hres hfree hpg hst
    refine ⟨reelStop_running hcur hres hfree hpg hst, ending_opEnded_of_stopping, fun hidle => ?_, fun hrun => ?_, fun hidle hc => ?_,
      fun bs hidle hc => ?_⟩
    · rw [hstop, hidle]
      rfl
    · rw [hwait, if_pos hrun]
    · rw [hwait, hidle, waitWords_of_no_compl hc]
      rfl
    · rw [hwait, hidle, waitWords_of_compl hc]
      rfl
  · rw [exec_reelWaitWake hwait hst hidle, waitWords_of_compl hc]

/-- Settles O40: a start answers its checks in their order, and a stop, a wait and a barrier act on the stream of the slot. -/
theorem streamsStartAndStop : Obligations.StreamsStartAndStop := ⟨streamsStart, streamsStop⟩

end Sys2Proof.Machine
end

section
/-!
PROOFS. What the reels perform (09 R253 to R258, R271, R290, R294, R302, R387, R420): the events of a stream, the completion
record that it leaves, and the address of an affine stream's record.
-/
namespace Sys2Proof.Machine

/-! ### Start, stop point, index records (R254, R294, R420) -/

section Slot
variable {s : State} {c : CtxId} {l : LaySlot} {pg : Pid} {n : Fin 4} {x : Lay} {st : Stream}

/-- A stream as it begins: it runs, or is to end with status 0x10 (R294). -/
def Stream.begun (ok : Bool) (st : Stream) : Stream :=
  { st with st := .running, after := [], ending := if ok then st.ending else some (0x10, 0, 0) }

theorem streamStart_begins (hx : s.lay? c l = some x) (hst : s.stream? c l pg n = some st) (hstart : st.st = .starting)
    (hafter : ∀ q ∈ st.after, s.performed q = true) :
    ∃ u, exec (.streamStart c l pg n) s = .next u ∧ u.stream? c l pg n = some (st.begun (State.startable x pg st)) := by
  refine ⟨s.modStream c l pg n (Stream.begun (State.startable x pg st)), ?_, ?_⟩
  · show execStreamStart c l pg n s = _
    rw [execStreamStart, hx, hst]
    dsimp only
    rw [hstart, List.all_eq_true.mpr hafter]
    rfl
  · rw [State.stream?_modStream_same, hst, Option.map_some]

theorem streamStopPoint_holds (hst : s.stream? c l pg n = some st) (hrun : st.running = true) (hpre : (s.ctx c).preempt.isSome = true)
    (hdone : st.wdone = 0) :
    ∃ u, exec (.streamStopPoint c l pg n) s = .next u ∧
      u.stream? c l pg n = some { st.opEnded with hold := true, seen := [], used := 0, skipping := false } ∧ u.hbm = s.hbm := by
  refine ⟨s.modStream c l pg n fun y => { y.opEnded with hold := true, seen := [], used := 0, skipping := false }, ?_, ?_, ?_⟩
  · show execStreamStopPoint c l pg n s = _
    rw [execStreamStopPoint, hst]
    dsimp only
    rw [hrun, hpre, hdone]
    rfl
  · rw [State.stream?_modStream_same, hst, Option.map_some]
  · simp [State.modStream]

theorem Lay.links_modStream (x : Lay) (pg : Nat) (n : Fin 4) (f : Stream → Stream) : (x.modStream pg n f).links = x.links := by
  unfold Lay.modStream Lay.modReel
  split <;> rfl

theorem st_of_streamFree (h : s.streamFree c st = true) : st.st = .running := by
  simp only [State.streamFree, Bool.and_eq_true, beq_iff_eq] at h
  exact h.1.1.1

/-- A gather with the next index record in hand; one without index words is passed over (R254). -/
def Stream.takeIndex (q : Rec) (st : Stream) : Stream := if indexLen q = 0 then st else { st with held := some q, heldIx := 0 }

theorem gatherIndexAccept_takes {k : Nat} {q : Rec} (hx : s.lay? c l = some x) (hst : s.stream? c l pg n = some st) (hform : st.form = .gat)
    (hheld : st.held = none) (hend : st.ending = none) (hfree : s.streamFree c st = true) (hhead : x.inHead pg n = some (k, q))
    (hoff : s.handoffDone q = true) (hlen : indexLen q ≠ 0) :
    ∃ u y, exec (.gatherIndexAccept c l pg n) s = .next u ∧ u.lay? c l = some y ∧ y.links = (x.takeHead k s.cyc).links ∧
      u.stream? c l pg n = some { st with held := some q, heldIx := 0 } := by
  have hretires : st.retires = false := by rw [Stream.retires, st_of_streamFree hfree]; rfl
  refine ⟨(s.takeIn c l k).modStream c l pg n (Stream.takeIndex q), (x.takeHead k s.cyc).progressed.modStream pg.val n (Stream.takeIndex q),
    ?_, ?_, Lay.links_modStream .., ?_⟩
  · show execGatherIndexAccept c l pg n s = _
    rw [execGatherIndexAccept, hx, hst]
    dsimp only
    rw [if_neg (not_not_intro hform), hretires, hhead]
    dsimp only
    rw [hfree, hheld, hend, hoff]
    rfl
  · rw [State.modStream, State.lay?_modLay_same, State.takeIn, State.lay?_modLay_same, hx]
    rfl
  · rw [State.stream?_modStream_same, State.takeIn, State.stream?_modLay hx, Lay.stream?_progressed, Lay.takeHead, Lay.stream?_modLink,
      ← State.stream?_eq hx, hst, Option.map_some, Stream.takeIndex, if_neg hlen]

end Slot

/-! ### Operations (R387) -/

section Round
variable {s : State} {c : CtxId} {l : LaySlot} {pg : Pid} {x : Lay} {r : Reel} {n : Fin 4} {ok : Fin 4 → Bool}
variable (hx : s.lay? c l = some x) (hr : x.reel? pg.val = some r)
include hx hr

/-- With no piece under way, the arbitration's slot performs its operation where the test allows it. -/
theorem reelRound_chosen {p : Fin 4} {ds : Vector Nat 4} (hmid : r.mid = none) (hop : r.opAt ≠ s.cyc + 1)
    (hchoice : s.reelChoice c l x pg r = (some n, p, ds)) (hok : ok n = true) :
    s.reelRound c l pg ok =
      (s.modLay c l fun y => y.modReel pg.val fun z => { z with ptr := p, deficit := ds, opAt := s.cyc + 1 }).reelPerform c l pg n := by
  unfold State.reelRound
  simp only [hx, hr, hmid, if_neg hop, hchoice, hok, if_true]

/-- The slot whose piece is under way goes on with it. -/
theorem reelRound_mid (hmid : r.mid = some n) (helig : s.eligibleSlot c l x pg n r.streams[n.val] = true) (hok : ok n = true) :
    s.reelRound c l pg ok = s.reelPerform c l pg n := by
  have hwaits : s.slotWaits c l pg n = false := by
    simp only [State.eligibleSlot, Bool.and_eq_true, Bool.not_eq_true'] at helig
    exact helig.2
  unfold State.reelRound
  simp only [hx, hr, hmid, helig, hwaits, hok, Bool.not_true, Bool.or_false, Bool.false_eq_true, if_false, if_true]

omit hx hr in
/-- A write side that runs has its turn in the arbitration (R255). -/
theorem exec_writeSideAccept {st : Stream} (hst : s.stream? c l pg n = some st) (hwrites : st.writes = true) (hrun : st.st = .running) :
    exec (.writeSideAccept c l pg n) s = .next (s.reelRound c l pg fun m => m == n) := by
  show execWriteSideAccept c l pg n s = _
  rw [execWriteSideAccept, hst]
  dsimp only
  rw [hwrites, Stream.retires, hrun]
  rfl

/-! ### Skips (R269, R271, R302) -/

variable {i : Fin 4} {t : Word} {reqs : List Nat} {rest : List (Fin 4 × Word × List Nat)}

/-- The state without the first skip of a reel. -/
def State.withSkips (z : State) (c : CtxId) (l : LaySlot) (pg : Pid) (rest : List (Fin 4 × Word × List Nat)) : State :=
  z.modLay c l fun y => y.modReel pg.val fun w => { w with skips := rest }

/-- A skip that no running stream takes, or whose register is not ready or not sorted, is discarded. -/
theorem fibSkipApply_discards (hskips : r.skips = (i, t, reqs) :: rest) (hreqs : ∀ q ∈ reqs, s.performed q = true)
    (hno : r.fibBusy i = false ∨ (r.fibres[i.val]).ready = false ∨ (r.fibres[i.val]).sorted = false) :
    exec (.fibSkipApply c l pg n) s = .next (s.withSkips c l pg rest) := by
  have hdiscard : (!(r.fibBusy i) || !(r.fibres[i.val]).ready || !(r.fibres[i.val]).sorted) = true := by
    simpa [or_assoc] using hno
  show execFibSkipApply c l pg n s = _
  unfold execFibSkipApply
  simp only [hx, Option.bind_some, hr, hskips, List.all_eq_true.mpr hreqs, hdiscard, Bool.not_true, Bool.false_eq_true, if_false, if_true]
  rfl

/-- A running stream that uses the register applies the skip. -/
theorem fibSkipApply_applies (hskips : r.skips = (i, t, reqs) :: rest) (hreqs : ∀ q ∈ reqs, s.performed q = true)
    (hbusy : r.fibBusy i = true) (hready : (r.fibres[i.val]).ready = true) (hsorted : (r.fibres[i.val]).sorted = true)
    (hrun : (r.streams[n.val]).st = .running) (huses : i ∈ (r.streams[n.val]).fibsUsed r.fibres) (hparked : (r.streams[n.val]).parked = none)
    (hend : (r.streams[n.val]).ending = none) (hhold : (r.streams[n.val]).hold = false) :
    let st := r.streams[n.val]
    let st0 : Stream := if st.skipping = true then st else { st with seen := [], used := 0, skipping := true }
    let z := (s.modStream c l pg n fun _ => st0).applySkip c l pg n r st0 i t.toNat
    exec (.fibSkipApply c l pg n) s =
      .next (if z.2 = true then (z.1.2.withSkips c l pg rest).modStream c l pg n Stream.opEnded else z.1.2) := by
  intro st st0 z
  have htakes : (decide ((r.streams[n.val]).st = .running) && ((r.streams[n.val]).fibsUsed r.fibres).contains i &&
      (r.streams[n.val]).parked.isNone && (r.streams[n.val]).ending.isNone && !(r.streams[n.val]).hold) = true := by
    simp [hrun, huses, hparked, hend, hhold]
  show execFibSkipApply c l pg n s = _
  unfold execFibSkipApply
  simp only [hx, Option.bind_some, hr, hskips, List.all_eq_true.mpr hreqs, hbusy, hready, hsorted, htakes, Bool.not_true, Bool.or_false,
    Bool.false_eq_true, if_false, if_true]
  rfl

end Round

theorem reelsWork_claim : Claims.ReelsWork := by
  intro s c l pg x r hx hr
  have hst (n : Fin 4) : s.stream? c l pg n = some r.streams[n.val] := (State.stream?_eq hx pg n).trans (Lay.stream?_of_reel hr n)
  refine ⟨fun n => ⟨fun hstart hafter => ?_, streamStopPoint_holds (hst n), fun k q => gatherIndexAccept_takes hx (hst n)⟩,
    fun n p ds hmid hop hchoice => ?_, fun n hmid helig => congrArg _ (reelRound_mid hx hr hmid helig rfl),
    fun i t reqs rest n hskips hreqs => ?_⟩
  · obtain ⟨u, hrun, hu⟩ := streamStart_begins hx (hst n) hstart hafter
    exact ⟨u, _, hrun, hu, rfl, rfl, rfl, rfl, fun hok => by simp [Stream.begun, hok], fun hbad => by simp [Stream.begun, hbad]⟩
  · refine ⟨congrArg _ (reelRound_chosen hx hr hmid hop hchoice rfl), fun hwrites hrun => ?_⟩
    exact (exec_writeSideAccept (hst n) hwrites hrun).trans
      (congrArg _ (reelRound_chosen hx hr (ok := fun m => m == n) hmid hop hchoice (beq_self_eq_true n)))
  · exact ⟨fibSkipApply_discards hx hr hskips hreqs, fibSkipApply_applies hx hr hskips hreqs⟩

/-! ### The completion record (R258) -/

theorem natAt_append_right {as : List Byte} {k : Nat} (h : as.length = k) (bs : List Byte) (n : Nat) :
    natAt (as ++ bs) k n = natAt bs 0 n := by
  rw [natAt, natAt, List.drop_left' h, List.drop_zero]

/-- A number's bytes at the head of a string hold it, to their width. -/
theorem natAt_bytesOfNat (n x : Nat) (bs : List Byte) : natAt (bytesOfNat n x ++ bs) 0 n = x % 2 ^ (8 * n) := by
  rw [natAt, List.drop_zero, List.take_left' (length_bytesOfNat n x), natOfBytes_bytesOfNat]

/-- A completion record, byte by byte. -/
theorem complBytes_tells (st : Stream) (k d lv : Nat) : let bs := complBytes st k d lv
    bs.length = 16 ∧ natAt bs 0 1 = k % 256 ∧ natAt bs 1 1 = (if st.poison then 1 else 0) ∧ natAt bs 2 1 = st.form.code ∧
      natAt bs 3 1 = lv % 256 ∧ natAt bs 4 4 = min (2 ^ 32 - 1) (if st.form = .rq then 0 else st.count) ∧ natAt bs 8 8 = d % 2 ^ 64 := by
  refine ⟨?_, ?_, ?_, ?_, ?_, ?_, ?_⟩
  · simp [complBytes, length_bytesOfNat]
  · exact BitVec.toNat_ofNat k 8
  · show (if st.poison then (1 : Byte) else 0).toNat = _
    cases st.poison <;> rfl
  · show (BitVec.ofNat 8 st.form.code).toNat = _
    cases st.form <;> rfl
  · exact BitVec.toNat_ofNat lv 8
  · rw [complBytes, List.append_assoc, natAt_append_right (by rfl), natAt_bytesOfNat, Stream.recCount]
    exact Nat.mod_eq_of_lt (by omega)
  · have hlen : ([BitVec.ofNat 8 k, if st.poison then (1 : Byte) else 0, BitVec.ofNat 8 st.form.code, BitVec.ofNat 8 lv]
        ++ bytesOfNat 4 (min (2 ^ 32 - 1) st.recCount)).length = 8 := by simp [length_bytesOfNat]
    rw [complBytes, natAt_append_right hlen, ← List.append_nil (bytesOfNat 8 d), natAt_bytesOfNat]

/-! ### The end of a stream (R258, R272, R290) -/

/-- A change of a lay leaves the rest of its context. -/
theorem State.ctx_modLay (s : State) (c : CtxId) (l : LaySlot) (f : Lay → Lay) :
    ∃ ls, (s.modLay c l f).ctx c = { s.ctx c with lays := ls } := by
  unfold State.modLay
  split
  · exact ⟨_, State.ctx_modCtx_same ..⟩
  · exact ⟨_, rfl⟩

@[simp] theorem State.lay?_raiseEvent (s : State) (c : CtxId) (e : Event) (l : LaySlot) :
    (s.raiseEvent c e).2.lay? c l = s.lay? c l := by
  rw [State.lay?, State.raiseEvent, State.ctx_setCtx_same]
  rfl

/-- An event that nothing waits for joins the events to be written. -/
theorem State.heldEvents_raiseEvent (s : State) (c : CtxId) {e : Event} (h : e.kind.val ≠ 1 ∧ e.kind.val ≠ 2) :
    ((s.raiseEvent c e).2.ctx c).heldEvents = (s.ctx c).heldEvents ++ [{ e with tag := 0, waiting := false }] := by
  rw [State.raiseEvent, State.ctx_setCtx_same]
  simp [h.1, h.2]

/-- The event that a trap of a fibre stream raises (R272). -/
def trapEvent (l : LaySlot) (pg : Pid) (n : Fin 4) (k d lv : Nat) : Event :=
  { kind := 3, tag := 0, waiting := false, lay := l, pid := pg, src := 0x70, sub := BitVec.ofNat 8 (n.val + 16 * lv),
    cause := BitVec.ofNat 8 k, access := 0, region := 0, reqs := 0, va := BitVec.ofNat 64 d, fw := 0, loc := 0, r := none }

/-- The state with a stream's slot finished and what the stream met noted in the pass. -/
def State.finished (s : State) (c : CtxId) (l : LaySlot) (pg : Pid) (n : Fin 4) (st : Stream) (k d lv : Nat) : State :=
  (s.modStream c l pg n fun y => y.finish k d lv).modLay c l fun x => (x.noteStream st.poison k).stir

section End
variable {s : State} {c : CtxId} {l : LaySlot} {pg : Pid} {n : Fin 4} {x : Lay} {st : Stream} {k d lv : Nat}

theorem exec_streamEnd (hst : s.stream? c l pg n = some st) (hrun : st.st = .running) (hend : st.ending = some (k, d, lv))
    (howes : st.owes = false) (hparked : st.parked = none) : exec (.streamEnd c l pg n) s =
      .next (if 0x30 ≤ k ∧ k ≤ 0x32 then ((s.finished c l pg n st k d lv).raiseEvent c (trapEvent l pg n k d lv)).2
        else s.finished c l pg n st k d lv) := by
  show Host.Outcome.next (s.streamEnd c l pg n) = _
  unfold State.streamEnd
  simp only [hst, hend, hrun, howes, hparked, ne_eq, not_true_eq_false, decide_false, Bool.or_self, Option.isSome_none, Bool.false_eq_true,
    if_false, Bool.and_eq_true, decide_eq_true_eq]
  rfl

theorem lay?_finished (hx : s.lay? c l = some x) :
    (s.finished c l pg n st k d lv).lay? c l = some ((x.modStream pg.val n fun y => y.finish k d lv).noteStream st.poison k).stir := by
  rw [State.finished, State.lay?_modLay_same, State.modStream, State.lay?_modLay_same, hx]
  rfl

theorem stream?_finished (hst : s.stream? c l pg n = some st) :
    (s.finished c l pg n st k d lv).stream? c l pg n = some (st.finish k d lv) := by
  obtain ⟨x, hx, hxst⟩ := Option.bind_eq_some_iff.mp hst
  rw [State.stream?_eq (lay?_finished hx)]
  show (x.modStream pg.val n fun y => y.finish k d lv).stream? pg.val n = _
  rw [Lay.stream?_modStream_same, hxst, Option.map_some]

theorem pass_modStream (x : Lay) (pg : Nat) (n : Fin 4) (f : Stream → Stream) : (x.modStream pg n f).pass = x.pass := by
  unfold Lay.modStream Lay.modReel
  split <;> rfl

theorem heldEvents_finished : ((s.finished c l pg n st k d lv).ctx c).heldEvents = (s.ctx c).heldEvents := by
  obtain ⟨ls, hls⟩ := s.ctx_modLay c l fun x => x.modStream pg.val n fun y => y.finish k d lv
  obtain ⟨ms, hms⟩ := (s.modStream c l pg n fun y => y.finish k d lv).ctx_modLay c l fun x => (x.noteStream st.poison k).stir
  rw [State.finished, hms, State.modStream, hls]

end End

theorem streamEndRecord : Claims.StreamEndRecord := by
  intro s c l pg n x st k d lv hx hst hrun hend howes hparked
  obtain ⟨hlen, hstatus, hpoison, hform, hlevel, hcount, hdetail⟩ := complBytes_tells st k d lv
  have hpass (p : Pass) (hp : x.pass = some p) : ((x.modStream pg.val n fun y => y.finish k d lv).noteStream st.poison k).stir.pass =
      some { p with poisonMet := p.poisonMet || st.poison, badEnd := p.badEnd || decide (2 < k) } := by
    show Option.map _ (x.modStream pg.val n fun y => y.finish k d lv).pass = _
    rw [pass_modStream, hp]
    rfl
  refine ⟨_, st.finish k d lv, _, complBytes st k d lv, exec_streamEnd hst hrun hend howes hparked, ?_, ?_, rfl, rfl, rfl, hlen, hstatus,
    hpoison, hform, hlevel, hcount, hdetail, hpass, fun htrap => ?_, fun hno => ?_⟩
  · split
    · rw [State.stream?_congr (State.lay?_raiseEvent ..), stream?_finished hst]
    · exact stream?_finished hst
  · split
    · rw [State.lay?_raiseEvent, lay?_finished hx]
    · exact lay?_finished hx
  · rw [if_pos htrap, State.heldEvents_raiseEvent _ _ (e := trapEvent l pg n k d lv) (show 3 ≠ 1 ∧ 3 ≠ 2 by decide), heldEvents_finished]
    exact ⟨_, rfl, rfl, rfl, rfl, (BitVec.toNat_ofNat k 8).trans (Nat.mod_eq_of_lt (by omega)), rfl⟩
  · rw [if_neg hno, heldEvents_finished]

/-! ### An affine stream's address (R253) -/

/-- The fastest dimension takes the remainder of the number by its count, and leaves the quotient to those after it. -/
theorem Desc.addr.go_add_mul (d : Desc) (k : Nat) (cs : List Nat) (ss : List Int) (st : Int) {c i : Nat} (h : i < c) (m : Nat) :
    Desc.addr.go d (k + 1) (c :: cs) (st :: ss) (i + c * m) = i * st + Desc.addr.go d k cs ss m := by
  rw [Desc.addr.go, Nat.add_mul_mod_self_left, Nat.mod_eq_of_lt h, Nat.add_mul_div_left _ _ (by omega), Nat.div_eq_of_lt h, Nat.zero_add]

theorem affineAddress : Claims.AffineAddress := by
  intro d c0 c1 c2 c3 s0 s1 s2 s3 i0 i1 i2 i3 hcounts hstrides hdims h0 h1 h2 h3
  have hlast : Desc.addr.go d 1 [c3] [s3] i3 = i3 * s3 + d.base := Desc.addr.go_add_mul d 0 [] [] s3 h3 0
  have hgo : Desc.addr.go d 4 [c0, c1, c2, c3] [s0, s1, s2, s3] (i0 + c0 * (i1 + c1 * (i2 + c2 * i3))) =
      d.base + i0 * s0 + i1 * s1 + i2 * s2 + i3 * s3 := by
    rw [Desc.addr.go_add_mul d 3 _ _ s0 h0, Desc.addr.go_add_mul d 2 _ _ s1 h1, Desc.addr.go_add_mul d 1 _ _ s2 h2, hlast]
    ring
  rw [Desc.addr, hdims, hcounts, hstrides, hgo, narrow, Int.toNat_of_nonneg (Int.emod_nonneg _ (by decide))]
  rfl

/-- Settles O42: each event of a reel does its one operation, a stream's end leaves its record, and an affine address is the sum over
the dimensions. -/
theorem reelsWork : Obligations.ReelsWork := ⟨reelsWork_claim, streamEndRecord, affineAddress⟩

end Sys2Proof.Machine
end

section
/-!
PROOFS. Requests, HBM and translations under way (08 R244, R331; 14 R403, R404, R449; 18 R480, R486): what a change of a
request leaves of it, the last unit of one, and the walks that requests share.
-/
namespace Sys2Proof.Machine

/-! ### Requests by number -/

theorem State.req?_congr {s u : State} (h : u.reqs = s.reqs) (r : Nat) : u.req? r = s.req? r := by rw [State.req?, h, State.req?]

theorem id_of_req? {s : State} {r : Nat} {q : Req} (h : s.req? r = some q) : q.id = r := by
  simpa using List.find?_some h

theorem mem_of_req? {s : State} {r : Nat} {q : Req} (h : s.req? r = some q) : q ∈ s.reqs := List.mem_of_find?_eq_some h

/-- A request changed, its number kept, is found changed; every other is found as it was. -/
theorem State.req?_modReq_any {f : Req → Req} (hf : ∀ y, (f y).id = y.id) (s : State) (m r : Nat) :
    (s.modReq m f).req? r = (s.req? r).map fun q => if q.id == m then f q else q := by
  rw [State.req?, State.modReq, List.find?_map, State.req?]
  congr 2
  funext q
  rw [Function.comp_apply]
  split
  · rw [hf]
  · rfl

theorem State.req?_modReq {f : Req → Req} (hf : ∀ y, (f y).id = y.id) (s : State) (r : Nat) :
    (s.modReq r f).req? r = (s.req? r).map f := by
  rw [State.req?_modReq_any hf]
  cases h : s.req? r with
  | none => rfl
  | some q => exact congrArg some (if_pos (beq_iff_eq.mpr (id_of_req? h)))

theorem State.req?_dropReq (s : State) (r : Nat) : (s.dropReq r).req? r = none := by
  rw [State.req?, State.dropReq, List.find?_eq_none]
  intro q hq
  simpa using (List.mem_filter.mp hq).2

@[simp] theorem State.reqs_tidyWindow (s : State) (p : Place) (n : Nat) : (s.tidyWindow p n).reqs = s.reqs := by
  obtain h | ⟨g, -, h⟩ := s.tidyWindow_eq p n <;> simp [h]

@[simp] theorem State.hbmPoison_tidyWindow (s : State) (p : Place) (n : Nat) : (s.tidyWindow p n).hbmPoison = s.hbmPoison := by
  obtain h | ⟨g, -, h⟩ := s.tidyWindow_eq p n <;> simp [h]

theorem State.atomPerformed_eq (s : State) (q : Req) : s.atomPerformed q = s ∨ s.atomPerformed q =
    s.modStation q.place fun st => { st with frames := st.frames.map fun f => if f.id = q.exec then { f with atomDone := true } else f } := by
  unfold State.atomPerformed
  split
  · exact .inr rfl
  · exact .inl rfl

/-! ### The units of a request (R331) -/

/-- An event performs one unit where the request has no further one that it performs too. -/
theorem sameEvent_stops {step : State → Req → MUnit → State} {ok : Stage → Bool} {s : State} {r : Nat} {u : MUnit}
    (h : ∀ q v rest, s.req? r = some q → q.units = v :: rest → (s.oneEvent u v && ok q.stage) = false) (n : Nat) :
    State.sameEvent step ok r n u s = s := by
  cases n with
  | zero => rfl
  | succ n =>
    unfold State.sameEvent
    split
    · rfl
    · next q hq =>
      split
      · next v rest hunits => rw [if_neg (by rw [h q v rest hq hunits]; decide)]
      · rfl

/-- A request all of whose units are performed has none that the event performs too. -/
theorem sameEvent_of_no_units {step : State → Req → MUnit → State} {ok : Stage → Bool} {s : State} {r : Nat} {u : MUnit} {q : Req}
    (hq : s.req? r = some q) (hunits : q.units = []) (n : Nat) : State.sameEvent step ok r n u s = s := by
  refine sameEvent_stops (fun y v rest hy hv => ?_) n
  rw [hq, Option.some.injEq] at hy
  rw [← hy, hunits] at hv
  cases hv

/-- Outside the bring-up mode an event performs one unit (R331). -/
theorem sameEvent_of_normal {step : State → Req → MUnit → State} {ok : Stage → Bool} {s : State} {r : Nat} {u : MUnit}
    (h : s.secure.bringup.getLsbD 0 = false) (n : Nat) : State.sameEvent step ok r n u s = s :=
  sameEvent_stops (fun q v rest _ _ => by rw [State.oneEvent, h]; rfl) n

/-- The last unit of a request that is answered makes it done. -/
theorem nextUnit_last {s : State} {r : Nat} {q : Req} (hq : s.req? r = some q) (hunits : q.units = []) (hposted : q.posted = false)
    (hflush : q.unflushed = false) : s.nextUnit r = (((s.atomPerformed q).modLay q.place.ctx q.place.slot Lay.stir).modReq r fun x =>
      { x with stage := .done }).tidyWindow q.place q.exec := by
  have htrap : q.trapsThread = false := by rw [Req.trapsThread, hposted]; rfl
  unfold State.nextUnit
  simp only [hq, hunits, hposted, hflush, htrap, Bool.false_and, Bool.false_eq_true, if_false]

/-- What the last unit of an answered request leaves: the request done, with what the unit read, and memory as it was. -/
theorem unitDone_last {s : State} {r : Nat} {q : Req} {v : MUnit} (hq : s.req? r = some q) (hunits : q.units = [v])
    (hposted : q.posted = false) (hflush : q.unflushed = false) (bs : List Byte) (p : Bool) :
    let u := (s.modReq r fun x => x.unitDone bs p).nextUnit r
    u.req? r = some { q with units := [], got := q.got ++ bs, stage := .done, poison := q.poison || p } ∧ u.hbm = s.hbm ∧
      u.hbmPoison = s.hbmPoison := by
  have hq1 : (s.modReq r fun x => x.unitDone bs p).req? r = some (q.unitDone bs p) := by
    rw [State.req?_modReq (fun _ => by rfl), hq, Option.map_some]
  have htail : (q.unitDone bs p).units = [] := by rw [Req.unitDone, hunits]; rfl
  have hatom := (s.modReq r fun x => x.unitDone bs p).atomPerformed_eq (q.unitDone bs p)
  dsimp only
  rw [nextUnit_last hq1 htail hposted hflush]
  refine ⟨?_, ?_, ?_⟩
  · rw [State.req?_congr (State.reqs_tidyWindow ..), State.req?_modReq (fun _ => by rfl),
      State.req?_congr (u := State.modLay _ _ _ _) (s := s.modReq r fun x => x.unitDone bs p), hq1, Option.map_some, Req.unitDone, hunits]
    · rfl
    · obtain h | h := hatom <;> simp [h]
  · obtain h | h := hatom <;> simp [h]
  · obtain h | h := hatom <;> simp [h]

/-! ### HBM (R244, R480, R486) -/

section Hbm
variable {s : State} {r : Nat} {q : Req} {v : MUnit}

/-- Clean memory without flaws: the event performs the unit at once. -/
theorem exec_hbmRequest (hq : s.req? r = some q) (hunits : q.units = [v]) (hnode : v.node = .hbm) (hstage : q.stage = .sent)
    (hafter : s.afterDone q = true) (hrows : s.rowsBusy v.addr v.len = false) (hflaws : s.upkeep.flaws = []) {y : Req}
    (hy : (s.hbmPerform r q v).req? r = some y) (hdone : y.units = []) : exec (.hbmRequest r .clean) s = .next (s.hbmPerform r q v) := by
  show execHbmRequest r .clean s = _
  unfold execHbmRequest
  simp only [hq, hunits, hnode, hstage, hafter, hrows, decide_true, Bool.not_false, Bool.and_self, if_true]
  have hscan : (s.hbmEcc v.addr .clean).hbmScan v.addr v.len = s := hbmScan_of_noFlaws hflaws v.addr v.len
  rw [hscan, sameEvent_of_no_units hy hdone]

end Hbm

theorem State.freeBytes_zero (s : State) : s.freeBytes 0 = ([], s) := rfl

theorem State.freeBytes_snd (s : State) (n : Nat) : ∃ k, (s.freeBytes n).2 = { s with free := k } := by
  obtain ⟨k, hk, -⟩ := takeFrees_snd s ((n + 3) / 4)
  exact ⟨k, hk⟩

/-- Lines installed change the directory alone. -/
theorem installLines_eq (c : CtxId) (l : LaySlot) (ns : List Nat) (s : State) :
    ∃ d, ns.foldl (fun z n => z.installLine c l n) s = { s with dir := d } := by
  induction ns generalizing s with
  | nil => exact ⟨s.dir, rfl⟩
  | cons n ns ih =>
    obtain ⟨d, hd⟩ : ∃ d, s.installLine c l n = { s with dir := d } := by
      unfold State.installLine
      split
      · exact ⟨s.dir, rfl⟩
      · dsimp only
        split <;> exact ⟨_, rfl⟩
    obtain ⟨e, he⟩ := ih (s.installLine c l n)
    exact ⟨e, by rw [List.foldl_cons, he, hd]⟩

/-- Memory as a unit leaves it: its write, where it has one. -/
def State.hbmUnit (s : State) (q : Req) (v : MUnit) : State :=
  match rmw q.op (readBytes s.hbm v.addr v.len) v.dat v.cmp with
  | some bs => (s.dirtyLines v.addr v.len).hbmWrite v.addr bs
  | none => s

theorem hbmUnit_reqs (s : State) (q : Req) (v : MUnit) : (s.hbmUnit q v).reqs = s.reqs := by
  unfold State.hbmUnit State.hbmWrite
  split
  · split <;> rfl
  · rfl

theorem hbmUnit_of_none {s : State} {q : Req} {v : MUnit} (h : rmw q.op (readBytes s.hbm v.addr v.len) v.dat v.cmp = none) :
    s.hbmUnit q v = s := by rw [State.hbmUnit, h]

theorem hbmUnit_of_some {s : State} {q : Req} {v : MUnit} {bs : List Byte}
    (h : rmw q.op (readBytes s.hbm v.addr v.len) v.dat v.cmp = some bs) (hin : v.addr + bs.length ≤ hbmSize) :
    (s.hbmUnit q v).hbm = writeBytes s.hbm v.addr bs ∧ (s.hbmUnit q v).hbmPoison = clearMarks 32 s.hbmPoison v.addr bs.length := by
  rw [State.hbmUnit, h]
  dsimp only
  rw [State.hbmWrite, if_pos hin]
  exact ⟨rfl, rfl⟩

section Perform
variable {s : State} {r : Nat} {q : Req} {v : MUnit}
variable (hq : s.req? r = some q) (hunits : q.units = [v]) (hin : v.addr + v.len ≤ hbmSize) (hposted : q.posted = false)
  (hflush : q.unflushed = false)
include hq hunits hin hposted hflush

/-- A unit that is not stopped by poison is performed: its write is in memory, what it read stands in the request. -/
theorem hbmPerform_clean (hclean : (isRmw q.op && isPoisoned 32 s.hbmPoison v.addr v.len) = false) :
    (s.hbmPerform r q v).req? r = some { q with
      units := [], got := q.got ++ (if returnsData q.op then readBytes s.hbm v.addr v.len else []), stage := .done,
      poison := q.poison || (returnsData q.op && isPoisoned 32 s.hbmPoison v.addr v.len) } ∧
    (s.hbmPerform r q v).hbm = (s.hbmUnit q v).hbm ∧ (s.hbmPerform r q v).hbmPoison = (s.hbmUnit q v).hbmPoison := by
  obtain ⟨d, hd⟩ : ∃ d, (if q.op = .rd then (granules 64 v.addr v.len).foldl (fun z n => z.installLine q.place.ctx q.place.slot n)
      (s.hbmUnit q v) else s.hbmUnit q v) = { s.hbmUnit q v with dir := d } := by
    split
    · exact installLines_eq ..
    · exact ⟨_, rfl⟩
  have hrun : s.hbmPerform r q v = (({ s.hbmUnit q v with dir := d } : State).modReq r fun x =>
      x.unitDone (if returnsData q.op then readBytes s.hbm v.addr v.len else [])
        (returnsData q.op && isPoisoned 32 s.hbmPoison v.addr v.len)).nextUnit r := by
    rw [← hd]
    unfold State.hbmPerform
    rw [State.hbmRead, if_pos hin]
    simp only [hclean, Bool.false_eq_true, if_false, State.freeBytes_zero]
    rfl
  rw [hrun]
  exact unitDone_last (s := { s.hbmUnit q v with dir := d }) ((State.req?_congr (hbmUnit_reqs s q v) r).trans hq) hunits hposted hflush _ _

/-- A read-modify-write that meets poison writes nothing; its answer is poisoned (R480). -/
theorem hbmPerform_poisoned (hbad : (isRmw q.op && isPoisoned 32 s.hbmPoison v.addr v.len) = true) :
    ∃ y, (s.hbmPerform r q v).req? r = some y ∧ y.units = [] ∧ y.poison = true ∧ y.stage = .done ∧ (s.hbmPerform r q v).hbm = s.hbm := by
  obtain ⟨k, hk⟩ := s.freeBytes_snd v.len
  have hrun : s.hbmPerform r q v = (({ s with free := k } : State).modReq r fun x => x.unitDone (s.freeBytes v.len).1 true).nextUnit r := by
    rw [← hk]
    unfold State.hbmPerform
    rw [State.hbmRead, if_pos hin]
    simp only [hbad, if_true]
  obtain ⟨hreq, hhbm, -⟩ := unitDone_last (s := { s with free := k }) hq hunits hposted hflush (s.freeBytes v.len).1 true
  rw [hrun]
  exact ⟨_, hreq, rfl, Bool.or_true _, rfl, hhbm⟩

end Perform

/-! ### Row repairs (R486) -/

theorem logAdd_upkeep (s : State) (kind die page st ctx addr count detail : Nat) :
    (s.logAdd kind die page st ctx addr count detail).upkeep = s.upkeep := by
  unfold State.logAdd
  dsimp only
  split <;> simp

theorem rowRepairEnds {s : State} {row a : Nat} (h : (row, a) ∈ s.upkeep.repairing) :
    ∃ u, exec (.hbmRowRepairDone row) s = .next u ∧ u.upkeep.repairing = (s.upkeep.repairing.filter fun x => x.1 != row) ∧ u.hbm = s.hbm := by
  obtain ⟨⟨k, b⟩, hfind⟩ := Option.isSome_iff_exists.mp
    (List.find?_isSome (p := fun x : Nat × Nat => x.1 == row).mpr ⟨_, h, beq_self_eq_true row⟩)
  have hrun : exec (.hbmRowRepairDone row) s = .next (State.logAdd
      { s with upkeep := { s.upkeep with repairing := s.upkeep.repairing.filter fun x => x.1 != row } } 5 (stackOf b).1 255 (stackOf b).2 255 b 0
      (Config.hbmSpareRows (Config.hbmBankOfRow row) -
        ((s.upkeep.spareUsed.find? fun x => x.1 == Config.hbmBankOfRow row).map Prod.snd).getD 0)) := by
    show execHbmRowRepairDone row s = _
    rw [execHbmRowRepairDone, hfind]
  exact ⟨_, hrun, congrArg Upkeep.repairing (logAdd_upkeep ..), (upkept_logAdd ..).hbm⟩

theorem hbmEvents : Claims.HbmEvents := by
  refine ⟨fun s r q v hq hunits hnode hstage hafter hrows hflaws hin hindat hposted hflush _ => ?_, fun s row a h => ?_⟩
  · have hexec {y : Req} := exec_hbmRequest (y := y) hq hunits hnode hstage hafter hrows hflaws
    have hclean := hbmPerform_clean hq hunits hin hposted hflush
    refine ⟨fun hop => ?_, fun hop => ?_, fun hop hgood => ?_, fun hop hbad => ?_⟩
    · obtain ⟨hreq, hhbm, -⟩ := hclean (by rw [hop]; rfl)
      refine ⟨_, hexec hreq rfl, hhbm.trans (congrArg State.hbm (hbmUnit_of_none (by rw [hop]; rfl))), ?_⟩
      rw [hreq, hop]
      rfl
    · obtain ⟨hreq, hhbm, hpoison⟩ := hclean (by rw [hop]; rfl)
      obtain ⟨hwrite, hmarks⟩ := hbmUnit_of_some (s := s) (q := q) (v := v) (bs := v.dat) (by rw [hop]; rfl) hindat
      refine ⟨_, hexec hreq rfl, hhbm.trans hwrite, hpoison.trans hmarks, ?_⟩
      rw [hreq, hop]
      simp [returnsData]
    · obtain ⟨hreq, hhbm, -⟩ := hclean (by rw [hgood, Bool.and_false])
      refine ⟨_, hexec hreq rfl, hhbm.trans ?_, ?_⟩
      · have hrmw : rmw q.op (readBytes s.hbm v.addr v.len) v.dat v.cmp =
            if readBytes s.hbm v.addr v.len = v.cmp then some v.dat else none := by rw [hop]; rfl
        split
        · next he => exact (hbmUnit_of_some (hrmw.trans (if_pos he)) hindat).1
        · next he => exact congrArg State.hbm (hbmUnit_of_none (hrmw.trans (if_neg he)))
      · rw [hreq, hop, hgood]
        simp [returnsData]
    · obtain ⟨y, hreq, hdone, hpoison, hstage, hhbm⟩ := hbmPerform_poisoned hq hunits hin hposted hflush (by rw [hop, hbad]; rfl)
      exact ⟨_, y, hexec hreq hdone, hhbm, hreq, hpoison, hstage⟩
  · obtain ⟨u, hrun, hrep, hhbm⟩ := rowRepairEnds h
    refine ⟨u, hrun, fun b hb => ?_, fun k b hk => ?_, hhbm⟩
    · rw [hrep] at hb
      simpa using (List.mem_filter.mp hb).2
    · rw [hrep, List.mem_filter]
      simp [hk]

/-! ### Frames changed (R46) -/

/-- Where every frame is changed and keeps its number, the frame of a number is the one there was, changed. -/
theorem Station.frame?_map {g : Frame → Frame} (hg : ∀ f, (g f).id = f.id) (y : Station) (n : Nat) :
    ({ y with frames := y.frames.map g } : Station).frame? n = (y.frame? n).map g := by
  rw [Station.frame?, List.find?_map, Station.frame?]
  congr 2
  funext f
  rw [Function.comp_apply, hg]

theorem Station.id_of_frame? {y : Station} {n : Nat} {f : Frame} (h : y.frame? n = some f) : f.id = n := by
  simpa using List.find?_some h

/-! ### Walks (R403, R404, R449) -/

/-- A translation cached is found. -/
theorem tlbFind_tlbFill (s : State) (u : TlbUnit) (c : CtxId) (region : Nat) (lf : Leaf) :
    ((s.tlbFill u c region lf).tlbFind u c region).isSome = true := by
  rw [State.tlbFind, Option.isSome_map, List.find?_isSome]
  exact ⟨_, List.mem_append_right _ (List.mem_singleton_self _), by simp⟩

/-- An event that awaits service does so under the tag that it was given. -/
theorem raiseEvent_awaits (s : State) (c : CtxId) {e : Event} (h : e.kind.val = 1 ∨ e.kind.val = 2) :
    ∃ ev ∈ ((s.raiseEvent c e).2.ctx c).awaiting, ev.tag = (s.raiseEvent c e).1 := by
  have hwaits : (decide (e.kind.val = 1) || decide (e.kind.val = 2)) = true := by simpa using h
  refine ⟨{ e with tag := (s.raiseEvent c e).1, waiting := true }, ?_, rfl⟩
  rw [State.raiseEvent, State.ctx_setCtx_same]
  simp only [hwaits, if_true]
  exact List.mem_append_right _ (List.mem_singleton_self _)

/-- A request goes on to its event: the event awaits under its tag, and no request or translation changes. -/
theorem joinEvent_awaits (s : State) (q : Req) (cause va : Nat) : (s.joinEvent q cause va).2.reqs = s.reqs ∧
    (s.joinEvent q cause va).2.tlb = s.tlb ∧
    ∃ ev ∈ ((s.joinEvent q cause va).2.ctx q.place.ctx).awaiting, ev.tag = (s.joinEvent q cause va).1 := by
  unfold State.joinEvent
  dsimp only
  split
  · next e he =>
    refine ⟨rfl, rfl, if e.tag == e.tag && e.waiting then { e with reqs := min (2 ^ 32 - 1) (e.reqs + 1) } else e, ?_, ?_⟩
    · rw [State.ctx_modCtx_same]
      exact List.mem_map_of_mem (List.mem_of_find?_eq_some he)
    · split <;> rfl
  · exact ⟨rfl, rfl, raiseEvent_awaits s _ (.inl rfl)⟩

theorem reqs_unparkExec (s : State) (q : Req) : (s.unparkExec q).reqs = (s.dropReq q.id).reqs := by
  unfold State.unparkExec
  dsimp only
  split
  · exact State.modStation_reqs ..
  · rfl

/-- What a request's part in the end of a walk leaves of the requests: none is new. -/
theorem req?_walked_of_none {z : State} {r : Nat} (h : z.req? r = none) (y : Req) (va : Nat) (a : Except Nat Leaf) :
    (z.walked y va a).req? r = none := by
  have hfails (cause : Nat) : (z.walkFails y cause va).req? r = none := by
    show ((z.joinEvent y cause va).2.modReq y.id _).req? r = none
    rw [State.req?_modReq_any (fun _ => by rfl), State.req?_congr (joinEvent_awaits z y cause va).1, h, Option.map_none]
  unfold State.walked
  split
  · exact hfails _
  · split
    · exact hfails 2
    · dsimp only
      split
      · rw [State.req?, reqs_unparkExec, List.find?_eq_none]
        exact fun p hp => List.find?_eq_none.mp h p (List.mem_filter.mp hp).1
      · exact h

/-- A walk's answer at a request of one region: the translation is cached and the request, which misses nothing more, goes on. -/
theorem walked_ok {z : State} {q : Req} {v : VaRef} {lf : Leaf} (hvas : q.vas = [v]) (hgrants : lf.grants q.need = true)
    (hmt : q.portal = true ∨ lf.mt = 0) :
    z.walked q v.va (.ok lf) = (z.tlbFill (q.unitFor v.va) q.place.ctx (regionOf v.va) lf).unparkExec q := by
  have hok : (!(lf.grants q.need) || (!q.portal && lf.mt != 0)) = false := by
    obtain h | h := hmt <;> simp [hgrants, h]
  have hnone : (z.tlbFill (q.unitFor v.va) q.place.ctx (regionOf v.va) lf).untranslated q = [] := by
    rw [State.untranslated, hvas, List.filter_singleton, ← Option.not_isSome, tlbFind_tlbFill]
    rfl
  unfold State.walked
  simp only [hok, hnone, Bool.false_eq_true, if_false, List.isEmpty_nil, if_true]

/-- A frame as it goes on, where it is the execution that the request parked. -/
def Frame.unpark (n r : Nat) (f : Frame) : Frame := if f.id = n && f.st == .parked r then { f with st := .resumed } else f

theorem Frame.id_unpark (n r : Nat) (f : Frame) : (f.unpark n r).id = f.id := by
  unfold Frame.unpark
  split <;> rfl

/-- The execution that a request parked goes on where it stands. -/
theorem frame?_unparkExec {s : State} {q : Req} {n : Nat} {st : Station} {f : Frame} (howner : q.owner = .exec n)
    (hst : s.station? q.place = some st) (hf : st.frame? n = some f) (hparked : f.st = .parked q.id) :
    ∃ st', (s.unparkExec q).station? q.place = some st' ∧ st'.frame? n = some { f with st := .resumed } := by
  have hrun : s.unparkExec q =
      (s.dropReq q.id).modStation q.place fun y => { y with frames := y.frames.map (Frame.unpark n q.id) } := by
    unfold State.unparkExec
    rw [howner]
    rfl
  have hhere : (s.dropReq q.id).station? q.place = some st := hst
  refine ⟨{ st with frames := st.frames.map (Frame.unpark n q.id) }, ?_, ?_⟩
  · rw [hrun, State.station?_modStation_same (by exact fun _ => ⟨rfl, rfl⟩), hhere, Option.map_some]
  · rw [Station.frame?_map (Frame.id_unpark n q.id), hf, Option.map_some, Frame.unpark, Station.id_of_frame? hf, hparked]
    simp

/-- One request's turn in the end of a walk: those of the die that wait for the region take the answer. -/
def State.walkTurn (s : State) (key : CtxId × Nat) (die : Nat) (v : VaRef) (answer : Except Nat Leaf) (z : State) (y : Req) : State :=
  if s.walkKey y == some key && s.dieOf y.place == die then z.walked y ((s.untranslated y).headD v).va answer else z

section Walk
variable {s : State} {r : Nat} {q : Req} {v : VaRef}

theorem exec_translationWalkDone (hq : s.req? r = some q) (hstage : q.stage = .walk) (hmiss : s.untranslated q = [v])
    (hflaws : s.upkeep.flaws = []) (hbusy : s.walkBusy q.place.ctx v.va = false)
    (hwalking : (q.place.ctx, regionOf v.va) ∈ s.walking (s.dieOf q.place)) : exec (.translationWalkDone r) s = .next (s.reqs.foldl
    (s.walkTurn (q.place.ctx, regionOf v.va) (s.dieOf q.place) v (s.walk q.place.ctx v.va)) s) := by
  have hscan : s.walkScan q.place.ctx v.va = s := by rw [State.walkScan, hflaws]; rfl
  show execTranslationWalkDone r s = _
  unfold execTranslationWalkDone
  simp only [hq, hstage, hmiss, hbusy, hscan, List.contains_iff_mem.mpr hwalking, ne_eq, not_true_eq_false, if_false, Bool.not_true,
    Bool.or_self, Bool.false_eq_true]
  rfl

/-- The request whose walk ends takes its answer. -/
theorem walkTurn_self (hstage : q.stage = .walk) (hmiss : s.untranslated q = [v]) (answer : Except Nat Leaf) (z : State) :
    s.walkTurn (q.place.ctx, regionOf v.va) (s.dieOf q.place) v answer z q = z.walked q v.va answer := by
  have hkey : s.walkKey q = some (q.place.ctx, regionOf v.va) := by rw [State.walkKey, hstage, hmiss]
  rw [State.walkTurn, hkey, hmiss]
  simp

theorem foldl_of_fixed {α σ : Type} {f : σ → α → σ} {l : List α} (h : ∀ a ∈ l, ∀ z, f z a = z) (z : σ) : l.foldl f z = z :=
  List.foldlRecOn (motive := fun w => w = z) l f rfl fun w hw a ha => (h a ha w).trans hw

/-- Where no other request of the die waits for the region, the end of the walk is the answer of the one. -/
theorem foldl_walkTurn_alone {key : CtxId × Nat} (hids : s.reqs.Pairwise fun a b => a.id ≠ b.id) (hmem : q ∈ s.reqs)
    (halone : ∀ y ∈ s.reqs, y.id ≠ q.id → s.walkKey y ≠ some key ∨ s.dieOf y.place ≠ s.dieOf q.place) (answer : Except Nat Leaf) :
    s.reqs.foldl (s.walkTurn key (s.dieOf q.place) v answer) s = s.walkTurn key (s.dieOf q.place) v answer s q := by
  have hother (y : Req) (hy : y ∈ s.reqs) (hne : y.id ≠ q.id) (z : State) : s.walkTurn key (s.dieOf q.place) v answer z y = z := by
    refine if_neg fun h => ?_
    rw [Bool.and_eq_true, beq_iff_eq, beq_iff_eq] at h
    exact (halone y hy hne).elim (absurd h.1) (absurd h.2)
  generalize s.walkTurn key (s.dieOf q.place) v answer = turn at hother ⊢
  obtain ⟨before, behind, heq⟩ := List.append_of_mem hmem
  rw [heq] at hids hother ⊢
  obtain ⟨-, hbehind, hbefore⟩ := List.pairwise_append.mp hids
  have hfirst : before.foldl turn s = s := foldl_of_fixed (fun y hy => hother y (List.mem_append_left _ hy) (hbefore y hy q List.mem_cons_self)) s
  rw [List.foldl_append, hfirst, List.foldl_cons]
  exact foldl_of_fixed (fun y hy => hother y (List.mem_append_right _ (List.mem_cons_of_mem q hy))
    ((List.pairwise_cons.mp hbehind).1 y hy).symm) _

/-- A walk that ends in a leaf that the access may use: the request is gone, whoever shares the walk. -/
theorem translationWalkDone_ok (hq : s.req? r = some q) (hstage : q.stage = .walk) (hmiss : s.untranslated q = [v])
    (hvas : q.vas = [v]) {lf : Leaf} (hwalk : s.walk q.place.ctx v.va = .ok lf) (hgrants : lf.grants q.need = true) (hmt : q.portal = true ∨ lf.mt = 0) :
    (s.reqs.foldl (s.walkTurn (q.place.ctx, regionOf v.va) (s.dieOf q.place) v (s.walk q.place.ctx v.va)) s).req? r = none := by
  have hself := walkTurn_self hstage hmiss (s.walk q.place.ctx v.va)
  have hkeep (z : State) (y : Req) (hz : z.req? r = none) :
      (s.walkTurn (q.place.ctx, regionOf v.va) (s.dieOf q.place) v (s.walk q.place.ctx v.va) z y).req? r = none := by
    unfold State.walkTurn
    split
    · exact req?_walked_of_none hz y _ _
    · exact hz
  generalize s.walkTurn (q.place.ctx, regionOf v.va) (s.dieOf q.place) v (s.walk q.place.ctx v.va) = turn at hself hkeep ⊢
  obtain ⟨before, behind, heq⟩ := List.append_of_mem (mem_of_req? hq)
  rw [heq, List.foldl_append, List.foldl_cons, hself, hwalk, walked_ok hvas hgrants hmt]
  refine List.foldlRecOn (motive := fun z : State => z.req? r = none) behind turn ?_ fun z hz y _ => hkeep z y hz
  rw [State.req?_congr (reqs_unparkExec ..), id_of_req? hq, State.req?_dropReq]

end Walk

theorem exec_translationRetryResend {s : State} {r t : Nat} {q : Req} (hq : s.req? r = some q) (hstage : q.stage = .retry t) (hop : q.op ≠ .ldp)
    (ht : t ≤ s.cyc) : exec (.translationRetryResend r) s = .next (s.modReq r fun y => { y with stage := s.waitStage q, born := s.cyc }) := by
  show execTranslationRetryResend r s = _
  unfold execTranslationRetryResend
  simp only [hq, hstage, ne_eq, hop, not_false_eq_true, ht, decide_true, Bool.and_self, if_true]

theorem tlb_unparkExec (s : State) (q : Req) : (s.unparkExec q).tlb = s.tlb := by
  unfold State.unparkExec
  dsimp only
  split
  · exact State.modStation_tlb ..
  · rfl

theorem translationEvents : Claims.TranslationEvents := by
  intro s r q hq hid hids
  subst hid
  refine ⟨fun v hstage hvas hmiss hflaws hbusy hwalking => ?_, fun t hstage hop ht => ?_⟩
  · intro alone
    have hexec := exec_translationWalkDone hq hstage hmiss hflaws hbusy hwalking
    have hone (halone : alone) := foldl_walkTurn_alone (v := v) hids (mem_of_req? hq) halone (s.walk q.place.ctx v.va)
    refine ⟨fun lf hwalk hgrants hmt => ⟨_, hexec, translationWalkDone_ok hq hstage hmiss hvas hwalk hgrants hmt, fun halone => ?_⟩, fun e hwalk halone => ?_⟩
    · rw [hone halone, walkTurn_self hstage hmiss, hwalk, walked_ok hvas hgrants hmt]
      refine ⟨tlb_unparkExec .., fun n st f howner hst hf hparked => ?_⟩
      exact frame?_unparkExec (s := s.tlbFill (q.unitFor v.va) q.place.ctx (regionOf v.va) lf) howner hst hf hparked
    · obtain ⟨hreqs, htlb, hawaits⟩ := joinEvent_awaits s q e v.va
      refine ⟨_, (s.joinEvent q e v.va).1, hexec, ?_⟩
      rw [hone halone, walkTurn_self hstage hmiss, hwalk]
      refine ⟨?_, htlb, hawaits⟩
      show ((s.joinEvent q e v.va).2.modReq q.id _).req? q.id = _
      rw [State.req?_modReq (fun _ => by rfl), State.req?_congr hreqs, hq]
      rfl
  · refine ⟨_, exec_translationRetryResend hq hstage hop ht, ?_⟩
    rw [State.req?_modReq (fun _ => by rfl), hq]
    rfl

/-- Settles O34: a unit at HBM is its read or write, and a walk's end is its answer at each request that shares it. -/
theorem hbmAndTranslation : Obligations.HbmAndTranslation := ⟨hbmEvents, translationEvents⟩

end Sys2Proof.Machine
end

section
/-!
PROOFS. Near requests at their bank (08 R235, R236, R246, R247): what a bank keeps through the changes around it, and the
operations of its window.
-/
namespace Sys2Proof.Machine

/-! ### A bank followed through changes -/

/-- A bank with its bytes, its present and claimed words and its marks as they were, whatever its window and its queue. -/
def Bank.SameWords (b c : Bank) : Prop := ∃ window records fifo, c = { b with window := window, records := records, fifo := fifo }

theorem Bank.SameWords.refl (b : Bank) : b.SameWords b := ⟨_, _, _, rfl⟩

theorem Bank.SameWords.trans {a b c : Bank} (h : a.SameWords b) (k : b.SameWords c) : a.SameWords c := by
  obtain ⟨_, _, _, rfl⟩ := h
  obtain ⟨_, _, _, rfl⟩ := k
  exact ⟨_, _, _, rfl⟩

theorem Bank.SameWords.fields {b c : Bank} (h : b.SameWords c) : c.dat = b.dat ∧ c.pres = b.pres ∧ c.claims = b.claims ∧ c.head = b.head := by
  obtain ⟨_, _, _, rfl⟩ := h
  exact ⟨rfl, rfl, rfl, rfl⟩

/-- A change of stations that keeps each at its place, and the words of a bank. -/
structure KeepsWords (g : Station → Station) : Prop where
  place : KeepsPlace g
  words : ∀ y b, y.bank? = some b → ∃ c, (g y).bank? = some c ∧ b.SameWords c

theorem keepsWords_of_body {g : Station → Station} (hp : KeepsPlace g) (hb : ∀ y, (g y).body = y.body) : KeepsWords g :=
  ⟨hp, fun y b h => ⟨b, by rw [Station.bank?, hb]; exact h, .refl b⟩⟩

theorem Station.body_of_bank? {y : Station} {b : Bank} (h : y.bank? = some b) : y.body = .bank b := by
  unfold Station.bank? at h
  split at h
  · next b' hb => rw [hb, Option.some.inj h]
  · cases h

/-- Where every station is changed and keeps its words, the bank of a number does. -/
theorem Lay.bankAt?_map {g : Station → Station} (hg : KeepsWords g) {x : Lay} {k : Nat} {b : Bank} (h : x.bankAt? k = some b) :
    ∃ c, ({ x with stations := x.stations.map g } : Lay).bankAt? k = some c ∧ b.SameWords c := by
  obtain ⟨y, hy, hb⟩ := Option.bind_eq_some_iff.mp h
  obtain ⟨c, hc, hsame⟩ := hg.words y b hb
  exact ⟨c, by rw [Lay.bankAt?, Lay.station?_map hg.place, hy, Option.map_some, Option.bind_some, hc], hsame⟩

theorem Lay.bankAt?_modBank {x : Lay} {k : Nat} {b : Bank} (h : x.bankAt? k = some b) (f : Bank → Bank) :
    (x.modBank k f).bankAt? k = some (f b) := by
  obtain ⟨y, hy, hb⟩ := Option.bind_eq_some_iff.mp h
  have hkeep : KeepsPlace fun st : Station => match st.body with | .bank b => { st with body := .bank (f b) } | _ => st := fun st => by
    dsimp only
    split <;> exact ⟨rfl, rfl⟩
  have hhere := Lay.station?_modStation_same hkeep x (Fin.ofNat 64 (k / 16)) (BitVec.ofNat 7 (32 + k % 16))
  rw [hy, Option.map_some, Station.body_of_bank? hb] at hhere
  rw [Lay.bankAt?]
  exact (congrArg (Option.bind · Station.bank?) hhere).trans rfl

/-- In a slot stands a lay whose bank of a number is b. -/
def State.BankIs (s : State) (c : CtxId) (l : LaySlot) (k : Nat) (b : Bank) : Prop := ∃ x, s.lay? c l = some x ∧ x.bankAt? k = some b

section Bank
variable {s : State} {c : CtxId} {l : LaySlot} {k : Nat} {b : Bank}

theorem State.BankIs.of_ctxs {u : State} (h : s.BankIs c l k b) (hu : u.ctxs = s.ctxs) : u.BankIs c l k b := by
  obtain ⟨x, hx, hb⟩ := h
  exact ⟨x, (State.lay?_of_ctxs hu c l).trans hx, hb⟩

/-- A change of the lay after which its bank is the one there was, changed. -/
theorem State.BankIs.modLay {m : Lay → Lay} {f : Bank → Bank} (h : s.BankIs c l k b)
    (hm : ∀ x, x.bankAt? k = some b → (m x).bankAt? k = some (f b)) : (s.modLay c l m).BankIs c l k (f b) := by
  obtain ⟨x, hx, hb⟩ := h
  exact ⟨m x, by rw [State.lay?_modLay_same, hx, Option.map_some], hm x hb⟩

theorem State.BankIs.modBank (h : s.BankIs c l k b) (f : Bank → Bank) :
    (s.modLay c l fun x => x.modBank k f).BankIs c l k (f b) := h.modLay fun _ hb => Lay.bankAt?_modBank hb f

/-- A change of the lay's stations that keeps words. -/
theorem State.BankIs.keep {m : Lay → Lay} (h : s.BankIs c l k b)
    (hm : ∀ x, ∃ g, KeepsWords g ∧ (m x).stations = x.stations.map g) :
    ∃ d, (s.modLay c l m).BankIs c l k d ∧ b.SameWords d := by
  obtain ⟨x, hx, hb⟩ := h
  obtain ⟨g, hg, hstations⟩ := hm x
  obtain ⟨d, hd, hsame⟩ := Lay.bankAt?_map hg hb
  refine ⟨d, ⟨m x, by rw [State.lay?_modLay_same, hx, Option.map_some], ?_⟩, hsame⟩
  rw [Lay.bankAt?, Lay.station?, hstations]
  exact hd

theorem State.BankIs.modStation {p : Place} {g : Station → Station} (h : s.BankIs p.ctx p.slot k b) (hg : KeepsWords g) :
    ∃ d, (s.modStation p g).BankIs p.ctx p.slot k d ∧ b.SameWords d := by
  refine h.keep fun x => ⟨fun y => if y.pid == p.pid && y.sid == p.sid then g y else y, ⟨fun y => ?_, fun y b hb => ?_⟩, rfl⟩
  · split
    · exact hg.place y
    · exact ⟨rfl, rfl⟩
  · split
    · exact hg.words y b hb
    · exact ⟨b, hb, .refl b⟩

theorem State.BankIs.atomPerformed {q : Req} (h : s.BankIs q.place.ctx q.place.slot k b) :
    ∃ d, (s.atomPerformed q).BankIs q.place.ctx q.place.slot k d ∧ b.SameWords d := by
  obtain hs | hs := s.atomPerformed_eq q
  · rw [hs]
    exact ⟨b, h, .refl b⟩
  · rw [hs]
    exact h.modStation (keepsWords_of_body (fun _ => ⟨rfl, rfl⟩) fun _ => rfl)

theorem State.BankIs.tidyWindow {p : Place} (h : s.BankIs p.ctx p.slot k b) (n : Nat) :
    ∃ d, (s.tidyWindow p n).BankIs p.ctx p.slot k d ∧ b.SameWords d := by
  unfold State.tidyWindow
  split
  · exact ⟨b, h, .refl b⟩
  · refine h.modStation ⟨fun y => ?_, fun y b hb => ?_⟩
    · split
      · split <;> exact ⟨rfl, rfl⟩
      · exact ⟨rfl, rfl⟩
    · rw [Station.body_of_bank? hb]
      dsimp only
      split
      · exact ⟨b, hb, .refl b⟩
      · exact ⟨_, rfl, _, _, _, rfl⟩

/-- Records tagged as poison change a bank's queue alone (R172). -/
theorem Lay.stations_poisonRecord (x : Lay) (n : Nat) : ∃ g, KeepsWords g ∧ (x.poisonRecord n).stations = x.stations.map g := by
  refine ⟨_, ?_, rfl⟩
  refine ⟨fun y => ⟨rfl, rfl⟩, fun y b hb => ?_⟩
  rw [Station.bank?, Station.body_of_bank? hb]
  exact ⟨_, rfl, _, _, _, rfl⟩

/-- A request that goes to its next unit leaves the words of the banks of its lay. -/
theorem State.BankIs.nextUnit {q : Req} {r : Nat} (h : s.BankIs q.place.ctx q.place.slot k b) (hq : s.req? r = some q) :
    ∃ d, (s.nextUnit r).BankIs q.place.ctx q.place.slot k d ∧ b.SameWords d := by
  obtain ⟨d1, h1, hsame1⟩ := h.atomPerformed
  obtain ⟨d2, h2, hsame2⟩ := h1.keep (m := fun x => if q.posted && q.poison then (x.poisonRecord r).stir else x.stir) fun x => by
    split
    · exact x.stations_poisonRecord r
    · exact ⟨id, keepsWords_of_body (fun _ => ⟨rfl, rfl⟩) fun _ => rfl, (List.map_id _).symm⟩
  have hsame := hsame1.trans hsame2
  have hend (u : State) (hu : u.BankIs q.place.ctx q.place.slot k d2) :
      ∃ d, (u.tidyWindow q.place q.exec).BankIs q.place.ctx q.place.slot k d ∧ b.SameWords d := by
    obtain ⟨d, hd, hsame3⟩ := hu.tidyWindow q.exec
    exact ⟨d, hd, hsame.trans hsame3⟩
  unfold State.nextUnit
  rw [hq]
  dsimp only
  generalize State.modLay _ _ _ _ = z at h2 ⊢
  split
  · exact ⟨d2, h2.of_ctxs rfl, hsame⟩
  · split_ifs
    · exact ⟨d2, h2.of_ctxs rfl, hsame⟩
    · exact ⟨d2, h2.of_ctxs rfl, hsame⟩
    · exact hend _ (h2.of_ctxs rfl)
    · exact hend _ (h2.of_ctxs rfl)

end Bank

/-! ### What one operation does to its bank (R236, R162) -/

/-- A bank as an operation that stores bytes leaves it: its write, where it has one. -/
def Bank.unit (b : Bank) (q : Req) (u : MUnit) : Bank :=
  match rmw q.op (b.read u.addr u.len) u.dat u.cmp with
  | some bs => b.write u.addr bs
  | none => b

theorem Bank.unit_of_some {b : Bank} {q : Req} {u : MUnit} {bs : List Byte} (h : rmw q.op (b.read u.addr u.len) u.dat u.cmp = some bs) :
    b.unit q u = b.write u.addr bs := by rw [Bank.unit, h]

theorem Bank.unit_of_none {b : Bank} {q : Req} {u : MUnit} (h : rmw q.op (b.read u.addr u.len) u.dat u.cmp = none) :
    b.unit q u = b := by rw [Bank.unit, h]

/-- Off poison, an operation that neither claims nor makes words present answers what it read and leaves its write. -/
theorem bankOp_clean {b : Bank} {q : Req} {u : MUnit} (hclaim : q.op ≠ .claim) (hstp : q.op ≠ .stp) (hclean : b.poisoned u.addr u.len = false)
    (free : List Byte) : bankOp b q u free = (if returnsData q.op then b.read u.addr u.len else [], false, b.unit q u) := by
  unfold bankOp
  split
  · next h => exact absurd h hclaim
  · next h => exact absurd h hstp
  · simp only [hclean, Bool.and_false, Bool.false_eq_true, if_false]
    rfl

theorem length_cutAt_sum (g fuel a n : Nat) : ((cutAt g fuel a n).map Prod.snd).sum ≤ n := by
  induction fuel generalizing a n with
  | zero => exact Nat.zero_le n
  | succ fuel ih =>
    rw [cutAt]
    split
    · exact Nat.zero_le n
    · have := ih (a + min n (g - a % g)) (n - min n (g - a % g))
      simp only [List.map_cons, List.sum_cons]
      omega

/-- A read of a bank has no more bytes than it asks for. -/
theorem Bank.length_read_le (b : Bank) (o n : Nat) : (b.read o n).length ≤ n := by
  unfold Bank.read
  split
  · simp
  · rw [List.length_flatMap]
    simp only [length_readBytes]
    unfold Bank.spans
    split
    · rw [List.map_map]
      exact length_cutAt_sum ..
    · simp

theorem byWords_nil (k : Nat) (f : Nat → Nat → Nat) (n : Nat) (b : List Byte) : byWords k f n [] b = [] := by cases n <;> rfl

/-- Words of no bytes make no bytes. -/
theorem byWords_zero (f : Nat → Nat → Nat) (n : Nat) (a b : List Byte) : byWords 0 f n a b = [] := by
  induction n with
  | zero => rfl
  | succ n ih =>
    rw [byWords]
    split
    · rfl
    · exact ih

/-- Any two bounds that cover a string work on it alike. -/
theorem byWords_bounds {k : Nat} (hk : 0 < k) (f : Nat → Nat → Nat) {n m : Nat} {a : List Byte} (hn : a.length ≤ n) (hm : a.length ≤ m)
    (b : List Byte) : byWords k f n a b = byWords k f m a b := by
  induction n generalizing m a b with
  | zero => rw [List.length_eq_zero_iff.mp (Nat.le_zero.mp hn), byWords_nil, byWords_nil]
  | succ n ih =>
    cases a with
    | nil => rw [byWords_nil, byWords_nil]
    | cons x xs =>
      cases m with
      | zero => simp at hm
      | succ m =>
        have hlen : ((x :: xs).drop k).length ≤ xs.length := by
          rw [List.length_drop, List.length_cons]
          omega
        rw [byWords, byWords, ih (m := m) (hlen.trans (Nat.le_of_succ_le_succ hn)) (hlen.trans (Nat.le_of_succ_le_succ hm))]

/-- A bound on the words of a string that covers it does not matter. -/
theorem byWords_bound (k : Nat) (f : Nat → Nat → Nat) {n : Nat} {a : List Byte} (h : a.length ≤ n) (b : List Byte) :
    byWords k f n a b = byWords k f a.length a b := by
  cases k with
  | zero => rw [byWords_zero, byWords_zero]
  | succ k => exact byWords_bounds k.succ_pos f h le_rfl b

/-! ### BANK_OPERATION_START (R236) -/

/-- Whether the unit that follows is at the same bank (R331). -/
def Req.moreAt (q : Req) (k : Nat) : Bool := match q.units.tail with | v :: _ => v.node == .bank k | [] => false

/-- A bank with its operation performed: the entry of a request that goes on elsewhere leaves the window. -/
def Bank.left (b : Bank) (q : Req) (k : Nat) : Bank := if q.moreAt k then b else { b with window := b.window.filter fun x => x != q.id }

section Operation
variable {s : State} {r k : Nat} {q : Req} {x : Lay} {b b1 : Bank} {v : MUnit} {rest : List MUnit} {bs : List Byte}

/-- An operation off poison, of a request that claims nothing: its bank and its request, and then its next unit. -/
theorem bankPerform_eq (hclaim : q.op ≠ .claim) (hclean : b.poisoned v.addr v.len = false) (hop : bankOp b q v [] = (bs, false, b1)) :
    s.bankPerform r q k b v =
      let u := (s.modLay q.place.ctx q.place.slot fun y => y.modBank k fun _ => b1.left q k).modReq r fun y => y.unitDone bs false
      if q.moreAt k then u else u.nextUnit r := by
  unfold State.bankPerform
  simp only [hclean, Bool.and_false, Bool.false_eq_true, if_false, State.freeBytes_zero, hop, if_neg hclaim]
  rfl

/-- A claim marks its words where it is granted, and answers. -/
theorem bankPerform_claim (hclaim : q.op = .claim) (hop : bankOp b q v [] = (bs, false, b1)) :
    s.bankPerform r q k b v =
      let u := s.modLay q.place.ctx q.place.slot fun y => y.modBank k fun _ => b1.left q k
      (if bs = [0] then u.claimed q else u).modReq r fun y => { y with got := bs, stage := .done } := by
  unfold State.bankPerform
  simp only [hclaim, isRmw, Bool.false_and, Bool.false_eq_true, if_false, State.freeBytes_zero, hop, if_true]
  rfl

/-- The operation that an eligible request at its bank begins; stops says that the event performs no further unit. -/
theorem exec_bankOperationStart (hq : s.req? r = some q) (hbank : q.bank? = some k) (hx : s.lay? q.place.ctx q.place.slot = some x)
    (hb : x.bankAt? k = some b) (hunits : q.units = v :: rest) (hstage : q.stage = .window) (helig : s.eligible b q k = true)
    (hafter : s.afterDone q = true) (hpresent : q.op = .ldp → b.present v.addr v.len = true) (hflaws : s.upkeep.bankFlaws = [])
    (stops : ∀ step n, State.sameEvent step (· == .window) r n v (s.bankPerform r q k b v) = s.bankPerform r q k b v) :
    exec (.bankOperationStart r .clean) s = .next (s.bankPerform r q k b v) := by
  have hgo : (decide (q.stage ≠ .window) || !(s.eligible b q k) || !(s.afterDone q)) = false := by simp [hstage, helig, hafter]
  have hno : (decide (q.op = .ldp) && !(b.present v.addr v.len)) = false := by
    by_cases h : q.op = .ldp
    · simp [hpresent h]
    · simp [h]
  have hscan : (s.bankEcc q.place.ctx q.place.slot k v.addr .clean).bankScan q.place.ctx q.place.slot k v.addr v.len = s := by
    show s.bankScan q.place.ctx q.place.slot k v.addr v.len = s
    rw [State.bankScan, hflaws]
    rfl
  have hstep : s.bankStep r k q v = s.bankPerform r q k b v := by rw [State.bankStep, hx, Option.bind_some, hb]
  show execBankOperationStart r .clean s = _
  unfold execBankOperationStart
  simp only [hq, hunits, hbank, hx, hb, hgo, hno, Bool.false_eq_true, if_false, hscan, hstep, stops]

theorem Bank.sameWords_left (b : Bank) (q : Req) (k : Nat) : b.SameWords (b.left q k) := by
  unfold Bank.left
  split
  · exact .refl b
  · exact ⟨_, _, _, rfl⟩

theorem secure_nextUnit (s : State) (r : Nat) : (s.nextUnit r).secure = s.secure := by
  have htidy (z : State) (p : Place) (n : Nat) : (z.tidyWindow p n).secure = z.secure := by
    obtain h | ⟨g, -, h⟩ := z.tidyWindow_eq p n <;> simp [h]
  unfold State.nextUnit
  split
  · rfl
  · next q hq =>
    have hatom : (s.atomPerformed q).secure = s.secure := by
      obtain h | h := s.atomPerformed_eq q <;> simp [h]
    dsimp only
    split
    · simp [hatom]
    · split_ifs <;> simp [hatom, htidy]

/-- A request that has a unit left elsewhere is sent to it. -/
theorem req?_nextUnit_more {w : MUnit} (hq : s.req? r = some q) (hunits : q.units = w :: rest) :
    (s.nextUnit r).req? r = some { q with stage := .sent } := by
  have hatom : (s.atomPerformed q).reqs = s.reqs := by
    obtain h | h := s.atomPerformed_eq q <;> simp [h]
  unfold State.nextUnit
  simp only [hq, hunits]
  rw [State.req?_modReq (fun _ => by rfl), State.req?_congr (s := s) (by simp [hatom]), hq, Option.map_some, ← hunits]

/-- The request and its bank once a unit is performed that is not its last. -/
theorem bankPerform_first {w : MUnit} (hq : s.req? r = some q) (h : s.BankIs q.place.ctx q.place.slot k b)
    (hunits : q.units = v :: w :: rest) (hstage : q.stage = .window) (hclaim : q.op ≠ .claim) (hclean : b.poisoned v.addr v.len = false)
    (hop : bankOp b q v [] = (bs, false, b1)) :
    (s.bankPerform r q k b v).req? r =
      some { q with units := w :: rest, got := q.got ++ bs, stage := if w.node = .bank k then .window else .sent } ∧
    (∃ c, (s.bankPerform r q k b v).BankIs q.place.ctx q.place.slot k c ∧ b1.SameWords c ∧ (w.node = .bank k → c = b1)) ∧
    (s.bankPerform r q k b v).secure = s.secure := by
  have hmore : q.moreAt k = decide (w.node = .bank k) := by
    rw [Req.moreAt, hunits]
    rfl
  have hu : ((s.modLay q.place.ctx q.place.slot fun y => y.modBank k fun _ => b1.left q k).modReq r fun y => y.unitDone bs false).req? r =
      some { q with units := w :: rest, got := q.got ++ bs } := by
    rw [State.req?_modReq (fun _ => by rfl), State.req?_congr (State.modLay_reqs ..), hq, Option.map_some, Req.unitDone, hunits,
      Bool.or_false]
    rfl
  have hbank := (h.modBank fun _ => b1.left q k).of_ctxs (u := (s.modLay q.place.ctx q.place.slot fun y => y.modBank k fun _ => b1.left q k).modReq r
    fun y => y.unitDone bs false) rfl
  rw [bankPerform_eq hclaim hclean hop, hmore]
  by_cases hw : w.node = .bank k
  · have hleft : b1.left q k = b1 := by rw [Bank.left, hmore, decide_eq_true hw]; rfl
    rw [hleft] at hu hbank ⊢
    simp only [hw, decide_true, if_true]
    exact ⟨by rw [hu, ← hstage], ⟨b1, hbank, .refl b1, fun _ => rfl⟩, by simp⟩
  · obtain ⟨d, hd, hsame⟩ := hbank.nextUnit (q := { q with units := w :: rest, got := q.got ++ bs }) hu
    simp only [hw, decide_false, Bool.false_eq_true, if_false]
    exact ⟨req?_nextUnit_more hu rfl, ⟨d, hd, (b1.sameWords_left q k).trans hsame, False.elim⟩, by simp [secure_nextUnit]⟩

/-- The request and its bank once the last unit of an answered request is performed. -/
theorem bankPerform_last (hq : s.req? r = some q) (h : s.BankIs q.place.ctx q.place.slot k b) (hunits : q.units = [v]) (hclaim : q.op ≠ .claim)
    (hclean : b.poisoned v.addr v.len = false) (hop : bankOp b q v [] = (bs, false, b1)) (hposted : q.posted = false)
    (hflush : q.unflushed = false) :
    (s.bankPerform r q k b v).req? r = some { q with units := [], got := q.got ++ bs, stage := .done } ∧
    ∃ c, (s.bankPerform r q k b v).BankIs q.place.ctx q.place.slot k c ∧ b1.SameWords c := by
  have hmore : q.moreAt k = false := by rw [Req.moreAt, hunits]; rfl
  have hq1 : (s.modLay q.place.ctx q.place.slot fun y => y.modBank k fun _ => b1.left q k).req? r = some q :=
    (State.req?_congr (State.modLay_reqs ..) r).trans hq
  rw [bankPerform_eq hclaim hclean hop, hmore]
  dsimp only
  obtain ⟨hreq, -, -⟩ := unitDone_last hq1 hunits hposted hflush bs false
  have hbank := (h.modBank fun _ => b1.left q k).of_ctxs (u := (s.modLay q.place.ctx q.place.slot fun y => y.modBank k fun _ => b1.left q k).modReq r
    fun y => y.unitDone bs false) rfl
  obtain ⟨d, hd, hsame⟩ := hbank.nextUnit (q := q.unitDone bs false) ((State.req?_modReq (fun _ => by rfl) _ r).trans (congrArg _ hq1))
  rw [Bool.or_false] at hreq
  exact ⟨hreq, d, hd, (b1.sameWords_left q k).trans hsame⟩

end Operation

/-! ### Arrival, waking, sending again (R235, R247) -/

section Window
variable {s : State} {r k : Nat} {q : Req} {x : Lay} {b : Bank}

/-- Requests of a state whose lay changes otherwise. -/
theorem req?_modLay_modReq {f : Req → Req} (hf : ∀ y, (f y).id = y.id) (hq : s.req? r = some q) (c : CtxId) (l : LaySlot) (m : Lay → Lay) :
    ((s.modReq r f).modLay c l m).req? r = some (f q) := by
  rw [State.req?_congr (State.modLay_reqs ..), State.req?_modReq hf, hq, Option.map_some]

/-- A request that arrives finds its entry in the window, or room for it. -/
theorem exec_nearRequestArrival (hq : s.req? r = some q) (hbank : q.bank? = some k) (hx : s.lay? q.place.ctx q.place.slot = some x)
    (hb : x.bankAt? k = some b) (hstage : q.stage = .sent) (hafter : s.afterDone q = true)
    (hroom : q.windowKey k ∈ b.window ∨ b.window.length < 32 ∧ (q.isOwn k = true → b.records.length < 24)) :
    exec (.nearRequestArrival r) s = .next (
      let s1 := s.modReq r fun y => { y with stage := .window, born := s.cyc }
      if q.windowKey k ∈ b.window then s1
      else if q.isOwn k then s1.modLay q.place.ctx q.place.slot fun y =>
        (y.modBank k fun z => { z with window := z.window ++ [q.exec], records := z.records ++ [q.exec] }).stir
      else s1.modLay q.place.ctx q.place.slot fun y => (y.modBank k fun z => { z with window := s.enterWindow q z.window }).stir) := by
  have hgo : (decide (q.stage = .sent) && s.afterDone q && (b.window.contains (q.windowKey k) ||
      (decide (b.window.length < 32) && (!(q.isOwn k) || decide (b.records.length < 24))))) = true := by
    rw [hstage, hafter]
    obtain h | ⟨hlen, hown⟩ := hroom
    · simp [h]
    · cases how : q.isOwn k with
      | false => simp [hlen]
      | true => simp [hlen, hown how]
  show execNearRequestArrival r s = _
  unfold execNearRequestArrival
  simp only [hq, hbank, hx, hb, hgo, if_true, List.contains_iff_mem]
  split
  · rfl
  · split <;> rfl

/-- A request from elsewhere enters the window in its place. -/
theorem arrival_enters (hq : s.req? r = some q) (hbank : q.bank? = some k) (hx : s.lay? q.place.ctx q.place.slot = some x)
    (hb : x.bankAt? k = some b) (hstage : q.stage = .sent) (hafter : s.afterDone q = true) (hown : q.isOwn k = false) (hnew : r ∉ b.window)
    (hroom : b.window.length < 32) :
    ∃ u, exec (.nearRequestArrival r) s = .next u ∧ u.req? r = some { q with stage := .window, born := s.cyc } ∧
      u.BankIs q.place.ctx q.place.slot k { b with window := s.enterWindow q b.window } := by
  have hkey : q.windowKey k ∉ b.window := by rwa [Req.windowKey, hown, if_neg Bool.false_ne_true, id_of_req? hq]
  refine ⟨_, exec_nearRequestArrival hq hbank hx hb hstage hafter (.inr ⟨hroom, fun h => by rw [hown] at h; cases h⟩), ?_, ?_⟩
  · simp only [hkey, hown, if_false, Bool.false_eq_true]
    exact req?_modLay_modReq (f := fun y => { y with stage := .window, born := s.cyc }) (fun _ => rfl) hq _ _ _
  · simp only [hkey, hown, if_false, Bool.false_eq_true]
    exact State.BankIs.modLay (f := fun z => { z with window := s.enterWindow q z.window }) (State.BankIs.of_ctxs ⟨x, hx, hb⟩ rfl) fun y hy =>
      Lay.bankAt?_modBank hy _

/-- The bank's own request stands under the entry of its record. -/
theorem arrival_standsOwn (hq : s.req? r = some q) (hbank : q.bank? = some k) (hx : s.lay? q.place.ctx q.place.slot = some x)
    (hb : x.bankAt? k = some b) (hstage : q.stage = .sent) (hafter : s.afterDone q = true) (hown : q.isOwn k = true) (hin : q.exec ∈ b.window) :
    ∃ u, exec (.nearRequestArrival r) s = .next u ∧ u.req? r = some { q with stage := .window, born := s.cyc } ∧
      u.BankIs q.place.ctx q.place.slot k b := by
  have hkey : q.windowKey k ∈ b.window := by rwa [Req.windowKey, hown, if_pos rfl]
  refine ⟨_, exec_nearRequestArrival hq hbank hx hb hstage hafter (.inl hkey), ?_, ?_⟩
  · simp only [hkey, if_true]
    rw [State.req?_modReq (fun _ => by rfl), hq, Option.map_some]
  · simp only [hkey, if_true]
    exact State.BankIs.of_ctxs ⟨x, hx, hb⟩ rfl

/-- The first request of a record of the bank itself brings the record's entry. -/
theorem arrival_entersOwn (hq : s.req? r = some q) (hbank : q.bank? = some k) (hx : s.lay? q.place.ctx q.place.slot = some x)
    (hb : x.bankAt? k = some b) (hstage : q.stage = .sent) (hafter : s.afterDone q = true) (hown : q.isOwn k = true) (hnew : q.exec ∉ b.window)
    (hroom : b.window.length < 32) (hrecords : b.records.length < 24) :
    ∃ u, exec (.nearRequestArrival r) s = .next u ∧ u.req? r = some { q with stage := .window, born := s.cyc } ∧
      u.BankIs q.place.ctx q.place.slot k { b with window := b.window ++ [q.exec], records := b.records ++ [q.exec] } := by
  have hkey : q.windowKey k ∉ b.window := by rwa [Req.windowKey, hown, if_pos rfl]
  refine ⟨_, exec_nearRequestArrival hq hbank hx hb hstage hafter (.inr ⟨hroom, fun _ => hrecords⟩), ?_, ?_⟩
  · simp only [hkey, hown, if_false, if_true]
    exact req?_modLay_modReq (f := fun y => { y with stage := .window, born := s.cyc }) (fun _ => rfl) hq _ _ _
  · simp only [hkey, hown, if_false, if_true]
    exact State.BankIs.modLay (f := fun z => { z with window := z.window ++ [q.exec], records := z.records ++ [q.exec] })
      (State.BankIs.of_ctxs ⟨x, hx, hb⟩ rfl) fun y hy => Lay.bankAt?_modBank hy _

/-- An ldp whose words are not all present leaves the window, to wait or to be sent again. -/
theorem ldp_waits {v : MUnit} (hq : s.req? r = some q) (hbank : q.bank? = some k) (hx : s.lay? q.place.ctx q.place.slot = some x)
    (hb : x.bankAt? k = some b) (hunits : q.units = [v]) (hstage : q.stage = .window) (helig : s.eligible b q k = true)
    (hafter : s.afterDone q = true) (hop : q.op = .ldp) (habsent : b.present v.addr v.len = false) :
    ∃ u st, exec (.bankOperationStart r .clean) s = .next u ∧ u.req? r = some { q with stage := st } ∧
      (st = .presWait ∨ st = .retry (s.cyc + 64)) ∧ u.BankIs q.place.ctx q.place.slot k
        { b with window := b.window.filter (fun w => w != q.windowKey k), records := b.records.filter fun w => w != q.windowKey k } := by
  have hout := (State.BankIs.modBank ⟨x, hx, hb⟩ fun z =>
    { z with window := z.window.filter (fun w => w != q.windowKey k), records := z.records.filter fun w => w != q.windowKey k } :
      State.BankIs _ q.place.ctx q.place.slot k _)
  have hgo : (decide (q.stage ≠ .window) || !(s.eligible b q k) || !(s.afterDone q)) = false := by simp [hstage, helig, hafter]
  have hrun : ∃ st, exec (.bankOperationStart r .clean) s = .next ((s.modLay q.place.ctx q.place.slot fun y => y.modBank k fun z =>
      { z with window := z.window.filter (fun w => w != q.windowKey k), records := z.records.filter fun w => w != q.windowKey k }).modReq r
        fun y => { y with stage := st }) ∧ (st = .presWait ∨ st = .retry (s.cyc + 64)) := by
    refine ⟨if (s.reqs.filter fun y => y.stage == .presWait && y.bank? == some k && y.place.ctx == q.place.ctx &&
      y.place.slot == q.place.slot).length < 64 then .presWait else .retry (s.cyc + 64), ?_, ?_⟩
    · show execBankOperationStart r .clean s = _
      unfold execBankOperationStart
      simp only [hq, hunits, hbank, hx, hb, hgo, hop, habsent, decide_true, Bool.not_false, Bool.and_self, Bool.false_eq_true, if_false, if_true]
    · split
      · exact .inl rfl
      · exact .inr rfl
  obtain ⟨st, hrun, hst⟩ := hrun
  refine ⟨_, st, hrun, ?_, hst, hout.of_ctxs rfl⟩
  rw [State.req?_modReq (fun _ => by rfl), State.req?_congr (s := s) (State.modLay_reqs ..), hq, Option.map_some]

/-- An ldp whose words are present re-enters the window at its head. -/
theorem ldp_wakes {v : MUnit} (hq : s.req? r = some q) (hbank : q.bank? = some k) (hx : s.lay? q.place.ctx q.place.slot = some x)
    (hb : x.bankAt? k = some b) (hunits : q.units = [v]) (hstage : q.stage = .presWait) (hpresent : b.present v.addr v.len = true)
    (hlen : b.window.length < 32) (hrecords : q.isOwn k = true → b.records.length < 24) :
    ∃ u, exec (.ldpWake r) s = .next u ∧ u.req? r = some { q with stage := .window, born := 0 } ∧
      u.BankIs q.place.ctx q.place.slot k { b with window := q.windowKey k :: b.window,
                                                   records := if q.isOwn k then q.exec :: b.records else b.records } := by
  have hgo : (decide (q.stage = .presWait) && b.present v.addr v.len &&
      (decide (b.window.length < 32) && (!(q.isOwn k) || decide (b.records.length < 24)))) = true := by
    cases how : q.isOwn k with
    | false => simp [hstage, hpresent, hlen]
    | true => simp [hstage, hpresent, hlen, hrecords how]
  refine ⟨(s.modReq r fun y => { y with stage := .window, born := 0 }).modLay q.place.ctx q.place.slot fun y => y.modBank k fun z =>
    { z with window := q.windowKey k :: z.window, records := if q.isOwn k then q.exec :: z.records else z.records }, ?_,
    req?_modLay_modReq (f := fun y => { y with stage := .window, born := 0 }) (fun _ => rfl) hq _ _ _, ?_⟩
  · show execLdpWake r s = _
    unfold execLdpWake
    simp only [hq, hunits, hbank, hx, hb, hgo, if_true]
  · exact State.BankIs.modLay (f := fun z => { z with window := q.windowKey k :: z.window, records := if q.isOwn k then q.exec :: z.records else z.records })
      (State.BankIs.of_ctxs ⟨x, hx, hb⟩ rfl) fun y hy => Lay.bankAt?_modBank hy _

theorem ldp_sentAgain {t : Nat} (hq : s.req? r = some q) (hstage : q.stage = .retry t) (hop : q.op = .ldp) (ht : t ≤ s.cyc) :
    ∃ u, exec (.presenceRetryResend r) s = .next u ∧ u.req? r = some { q with stage := .sent } := by
  refine ⟨s.modReq r fun y => { y with stage := .sent }, ?_, ?_⟩
  · show execPresenceRetryResend r s = _
    unfold execPresenceRetryResend
    simp only [hq, hstage, hop, ht, decide_true, Bool.and_self, if_true]
  · rw [State.req?_modReq (fun _ => by rfl), hq, Option.map_some]

end Window

/-! ### What the operation of an eligible request leaves -/

section Eligible
variable {s : State} {r k : Nat} {q : Req} {x : Lay} {b b1 : Bank} {v w : MUnit} {rest : List MUnit} {bs : List Byte}
  (hq : s.req? r = some q) (hbank : q.bank? = some k) (hx : s.lay? q.place.ctx q.place.slot = some x) (hb : x.bankAt? k = some b)
  (hstage : q.stage = .window) (helig : s.eligible b q k = true) (hafter : s.afterDone q = true) (hflaws : s.upkeep.bankFlaws = [])
  (hclean : b.poisoned v.addr v.len = false)
include hq hbank hx hb hstage helig hafter hflaws hclean

/-- An eligible request's last unit is performed on the bank, and the request is done. -/
theorem operation_last (hunits : q.units = [v]) (hclaim : q.op ≠ .claim) (hpresent : q.op = .ldp → b.present v.addr v.len = true)
    (hposted : q.posted = false) (hflush : q.unflushed = false) (hop : bankOp b q v [] = (bs, false, b1)) :
    ∃ u, exec (.bankOperationStart r .clean) s = .next u ∧
      u.req? r = some { q with units := [], got := q.got ++ bs, stage := .done } ∧
      ∃ c, u.BankIs q.place.ctx q.place.slot k c ∧ b1.SameWords c := by
  obtain ⟨hreq, hdone⟩ := bankPerform_last hq ⟨x, hx, hb⟩ hunits hclaim hclean hop hposted hflush
  exact ⟨_, exec_bankOperationStart hq hbank hx hb hunits hstage helig hafter hpresent hflaws fun _ n => sameEvent_of_no_units hreq rfl n,
    hreq, hdone⟩

/-- The same of an operation that claims nothing and makes no word present. -/
theorem operation_last_plain (hunits : q.units = [v]) (hclaim : q.op ≠ .claim) (hstp : q.op ≠ .stp)
    (hpresent : q.op = .ldp → b.present v.addr v.len = true) (hposted : q.posted = false) (hflush : q.unflushed = false) :
    ∃ u, exec (.bankOperationStart r .clean) s = .next u ∧
      u.req? r = some { q with units := [], got := q.got ++ (if returnsData q.op then b.read v.addr v.len else []), stage := .done } ∧
      ∃ c, u.BankIs q.place.ctx q.place.slot k c ∧ (b.unit q v).SameWords c :=
  operation_last hq hbank hx hb hstage helig hafter hflaws hclean hunits hclaim hpresent hposted hflush
    (bankOp_clean hclaim hstp hclean [])

/-- Outside the bring-up mode one unit of several is performed, and the request goes on to the next (R331). -/
theorem operation_first (hunits : q.units = v :: w :: rest) (hop : q.op = .rd ∨ q.op = .wr) (hmode : s.secure.bringup.getLsbD 0 = false) :
    ∃ u, exec (.bankOperationStart r .clean) s = .next u ∧
      u.req? r = some { q with units := w :: rest, got := q.got ++ (if q.op = .rd then b.read v.addr v.len else []),
                               stage := if w.node = .bank k then .window else .sent } ∧
      ∃ c, u.BankIs q.place.ctx q.place.slot k c ∧ c.dat = (if q.op = .rd then b.dat else (b.write v.addr v.dat).dat) ∧
        (w.node = .bank k → c.window = b.window) := by
  have hclaim : q.op ≠ .claim := by rintro h; simp [h] at hop
  have hstp : q.op ≠ .stp := by rintro h; simp [h] at hop
  have hldp : q.op ≠ .ldp := by rintro h; simp [h] at hop
  obtain ⟨hreq, ⟨c, hc, hsame, hhere⟩, hsecure⟩ := bankPerform_first hq ⟨x, hx, hb⟩ hunits hstage hclaim hclean (bankOp_clean hclaim hstp hclean [])
  have hrun := exec_bankOperationStart hq hbank hx hb hunits hstage helig hafter (fun h => absurd h hldp) hflaws fun _ n =>
    sameEvent_of_normal (by rw [hsecure, hmode]) n
  refine ⟨_, hrun, ?_, c, hc, ?_, fun h => ?_⟩
  · rw [hreq]
    obtain h | h := hop <;> simp [h, returnsData]
  · rw [hsame.fields.1]
    obtain h | h := hop
    · rw [Bank.unit_of_none (by rw [h]; rfl), if_pos h]
    · rw [Bank.unit_of_some (by rw [h]; rfl), if_neg (by rw [h]; decide)]
  · rw [hhere h]
    obtain h | h := hop
    · rw [Bank.unit_of_none (by rw [h]; rfl)]
    · rw [Bank.unit_of_some (by rw [h]; rfl), Bank.window_write]

end Eligible

/-- Near requests at their bank (R235, R236, R246, R247). -/
theorem bankEvents : Claims.BankEvents := by
  intro s r k q x b hq hbank hx hb _ hflaws
  refine ⟨fun hstage hafter hown hnew hroom => arrival_enters hq hbank hx hb hstage hafter hown hnew hroom,
    fun hstage hafter hown hin => arrival_standsOwn hq hbank hx hb hstage hafter hown hin,
    fun hstage hafter hown hnew hroom hrecords => arrival_entersOwn hq hbank hx hb hstage hafter hown hnew hroom hrecords, ?_, ?_,
    fun v hunits hstage hpresent hroom hrecords => ldp_wakes hq hbank hx hb hunits hstage hpresent hroom hrecords,
    fun t hstage hop ht => ldp_sentAgain hq hstage hop ht⟩
  · rintro v w rest hunits ⟨hstage, helig, hafter⟩ hclean hmode hop
    obtain ⟨u, hrun, hreq, c, ⟨y, hy, hc⟩, hdat, hwindow⟩ :=
      operation_first hq hbank hx hb hstage helig hafter hflaws hclean hunits hop hmode
    exact ⟨u, hrun, hreq, y, c, hy, hc, hdat, hwindow⟩
  · rintro v hunits ⟨hstage, helig, hafter⟩ hposted hflush hclean
    have hlast := operation_last_plain hq hbank hx hb hstage helig hafter hflaws hclean hunits
    refine ⟨fun hop => ?_, fun hop => ?_, fun op n hop => ?_, fun hop habsent => ?_⟩
    · have hkind : q.op ≠ .claim ∧ q.op ≠ .stp ∧ (q.op = .ldp → b.present v.addr v.len = true) ∧ returnsData q.op = true ∧
          rmw q.op (b.read v.addr v.len) v.dat v.cmp = none := by
        obtain h | ⟨h, hp⟩ := hop <;> simp [returnsData, rmw, *]
      obtain ⟨hclaim, hstp, hpresent, hreturns, hnone⟩ := hkind
      obtain ⟨u, hrun, hreq, c, ⟨y, hy, hc⟩, hsame⟩ := hlast hclaim hstp hpresent hposted hflush
      rw [hreturns, if_pos rfl] at hreq
      rw [Bank.unit_of_none hnone] at hsame
      exact ⟨u, hrun, hreq, y, c, hy, hc, hsame.fields.1, hsame.fields.2.1⟩
    · obtain ⟨u, hrun, hreq, c, ⟨y, hy, hc⟩, hsame⟩ := hlast (by simp [hop]) (by simp [hop]) (by simp [hop]) hposted hflush
      rw [Bank.unit_of_some (by rw [hop]; rfl)] at hsame
      obtain ⟨hdat, -, -, hhead⟩ := hsame.fields
      exact ⟨u, hrun, by rw [hreq, hop]; simp [returnsData], y, c, hy, hc, hdat, hhead⟩
    · obtain ⟨u, hrun, hreq, c, ⟨y, hy, hc⟩, hsame⟩ := hlast (by simp [hop]) (by simp [hop]) (by simp [hop]) hposted hflush
      rw [Bank.unit_of_some (by rw [hop]; rfl), ← byWords_bound n (atomInt op (8 * n)) (b.length_read_le v.addr v.len)] at hsame
      exact ⟨u, hrun, by rw [hreq, hop]; rfl, y, c, hy, hc, hsame.fields.1⟩
    · exact ldp_waits hq hbank hx hb hunits hstage helig hafter hop habsent

end Sys2Proof.Machine
end

section
/-!
PROOFS. stp (05 R168; 07 R203, R411): the claim of its words at their bank, the grant that sends the presence write, and the
refusal that makes the execution fault.
-/
namespace Sys2Proof.Machine

/-! ### The claim and the presence write at the bank -/

theorem Req.bank?_of_node {q : Req} {k : Nat} {v : MUnit} {rest : List MUnit} (hunits : q.units = v :: rest) (h : v.node = .bank k) :
    q.bank? = some k := by
  rw [Req.bank?, hunits]
  dsimp only
  rw [h]

/-- The set of a list's numbers and another's. -/
theorem mem_foldl_insertN {n : Nat} (ws acc : List Nat) : n ∈ ws.foldl (fun acc w => insertN w acc) acc ↔ n ∈ ws ∨ n ∈ acc := by
  induction ws generalizing acc with
  | nil => simp
  | cons w ws ih =>
    rw [List.foldl_cons, ih, mem_insertN, List.mem_cons]
    tauto

/-- A bank without the claims of some words. -/
def Bank.unclaim (b : Bank) (ws : List Nat) : Bank := { b with claims := b.claims.filter fun c => !(ws.contains c.1) }

/-- The bank once the presence write is performed: its words present, and their claims over. -/
def Bank.made (b : Bank) (v : MUnit) : Bank :=
  let z := (b.unclaim (wordsOf v.addr v.len)).write v.addr v.dat
  { z with pres := (wordsOf v.addr v.len).foldl (fun acc w => insertN w acc) z.pres }

theorem Bank.dat_made {b : Bank} (h : b.role ≠ .line) (v : MUnit) : (b.made v).dat = writeBytes b.dat v.addr v.dat :=
  Bank.dat_write_of_not_line (b := b.unclaim (wordsOf v.addr v.len)) h v.addr v.dat

theorem Bank.mem_pres_made {b : Bank} {v : MUnit} {w : Nat} : w ∈ (b.made v).pres ↔ w ∈ wordsOf v.addr v.len ∨ w ∈ b.pres := by
  rw [Bank.made, mem_foldl_insertN, Bank.pres_write]
  rfl

theorem Bank.mem_claims_made {b : Bank} {v : MUnit} {z : Nat × Nat} : z ∈ (b.made v).claims ↔ z ∈ b.claims ∧ z.1 ∉ wordsOf v.addr v.len := by
  rw [Bank.made, Bank.claims_write, Bank.unclaim, List.mem_filter]
  simp

theorem bankOp_stp {b : Bank} {q : Req} {v : MUnit} (hop : q.op = .stp) (hclean : b.poisoned v.addr v.len = false) (free : List Byte) :
    bankOp b q v free = ([], false, b.made v) := by
  simp [bankOp, hop, hclean, Bank.made, Bank.unclaim]

theorem bankOp_claim {b : Bank} {q : Req} {v : MUnit} (hop : q.op = .claim) (free : List Byte) :
    bankOp b q v free = if b.taken v.addr v.len then ([1], false, b)
      else ([0], false, { b with claims := b.claims ++ (wordsOf v.addr v.len).map fun w => (w, q.exec) }) := by
  simp [bankOp, hop]

theorem State.BankIs.claimed {s : State} {q : Req} {k : Nat} {b : Bank} (h : s.BankIs q.place.ctx q.place.slot k b) :
    ∃ d, (s.claimed q).BankIs q.place.ctx q.place.slot k d ∧ b.SameWords d :=
  h.modStation (keepsWords_of_body (fun _ => ⟨rfl, rfl⟩) fun _ => rfl)

/-- A claim is answered, and its bank stands as the operation left it. -/
theorem operation_claim {s : State} {r k : Nat} {q : Req} {x : Lay} {b b1 : Bank} {v : MUnit} {bs : List Byte} (hq : s.req? r = some q)
    (hbank : q.bank? = some k) (hx : s.lay? q.place.ctx q.place.slot = some x) (hb : x.bankAt? k = some b) (hunits : q.units = [v])
    (hstage : q.stage = .window) (helig : s.eligible b q k = true) (hafter : s.afterDone q = true) (hflaws : s.upkeep.bankFlaws = [])
    (hop : q.op = .claim) (hout : bankOp b q v [] = (bs, false, b1)) :
    ∃ u, exec (.bankOperationStart r .clean) s = .next u ∧ u.req? r = some { q with got := bs, stage := .done } ∧
      ∃ c, u.BankIs q.place.ctx q.place.slot k c ∧ b1.SameWords c := by
  have hleft := State.BankIs.modBank ⟨x, hx, hb⟩ fun _ => b1.left q k
  have hreq : (s.bankPerform r q k b v).req? r = some { q with got := bs, stage := .done } := by
    rw [bankPerform_claim hop hout]
    dsimp only
    rw [State.req?_modReq (fun _ => by rfl), State.req?_congr (s := s) (by split <;> simp [State.claimed]), hq, Option.map_some]
  refine ⟨_, exec_bankOperationStart hq hbank hx hb hunits hstage helig hafter (fun h => by simp [hop] at h) hflaws
    fun _ n => sameEvent_stops (fun y _ _ hy _ => ?_) n, hreq, ?_⟩
  · rw [hreq, Option.some.injEq] at hy
    rw [← hy]
    exact Bool.and_false _
  · rw [bankPerform_claim hop hout]
    dsimp only
    split
    · obtain ⟨d, hd, hsame⟩ := hleft.claimed
      exact ⟨d, hd.of_ctxs (State.modReq_ctxs ..), (b1.sameWords_left q k).trans hsame⟩
    · exact ⟨_, hleft.of_ctxs (State.modReq_ctxs ..), b1.sameWords_left q k⟩

/-- The first part of stp (R168): its claim and its presence write at the bank. -/
theorem stp_at_bank {s : State} {r k : Nat} {q : Req} {x : Lay} {b : Bank} {v : MUnit} (hq : s.req? r = some q) (hunits : q.units = [v])
    (hnode : v.node = .bank k) (hx : s.lay? q.place.ctx q.place.slot = some x) (hb : x.bankAt? k = some b) (hstage : q.stage = .window)
    (helig : s.eligible b q k = true) (hafter : s.afterDone q = true) (hclean : b.poisoned v.addr v.len = false) (hrole : b.role = .pres)
    (hflaws : s.upkeep.bankFlaws = []) :
    (q.op = .claim → b.taken v.addr v.len = false → ∃ u y c, exec (.bankOperationStart r .clean) s = .next u ∧
      u.req? r = some { q with got := [0], stage := .done } ∧ u.lay? q.place.ctx q.place.slot = some y ∧ y.bankAt? k = some c ∧
      c.claims = b.claims ++ (wordsOf v.addr v.len).map fun w => (w, q.exec)) ∧
    (q.op = .claim → b.taken v.addr v.len = true → ∃ u y c, exec (.bankOperationStart r .clean) s = .next u ∧
      u.req? r = some { q with got := [1], stage := .done } ∧ u.lay? q.place.ctx q.place.slot = some y ∧ y.bankAt? k = some c ∧
      c.claims = b.claims ∧ c.dat = b.dat ∧ c.pres = b.pres) ∧
    (q.op = .stp → q.posted = false → q.unflushed = false → ∃ u y c, exec (.bankOperationStart r .clean) s = .next u ∧
      u.lay? q.place.ctx q.place.slot = some y ∧ y.bankAt? k = some c ∧ c.dat = writeBytes b.dat v.addr v.dat ∧
      (∀ w ∈ wordsOf v.addr v.len, w ∈ c.pres ∧ ∀ z ∈ c.claims, z.1 ≠ w) ∧ ∀ w ∈ b.pres, w ∈ c.pres) := by
  have hbank := Req.bank?_of_node hunits hnode
  refine ⟨fun hop hfree => ?_, fun hop htaken => ?_, fun hop hposted hflush => ?_⟩
  · obtain ⟨u, hrun, hreq, c, ⟨y, hy, hc⟩, hsame⟩ := operation_claim hq hbank hx hb hunits hstage helig hafter hflaws hop
      ((bankOp_claim hop []).trans (if_neg (by simp [hfree])))
    exact ⟨u, y, c, hrun, hreq, hy, hc, hsame.fields.2.2.1⟩
  · obtain ⟨u, hrun, hreq, c, ⟨y, hy, hc⟩, hsame⟩ := operation_claim hq hbank hx hb hunits hstage helig hafter hflaws hop
      ((bankOp_claim hop []).trans (if_pos htaken))
    obtain ⟨hdat, hpres, hclaims, -⟩ := hsame.fields
    exact ⟨u, y, c, hrun, hreq, hy, hc, hclaims, hdat, hpres⟩
  · obtain ⟨u, hrun, -, c, ⟨y, hy, hc⟩, hsame⟩ := operation_last hq hbank hx hb hstage helig hafter hflaws hclean hunits (by simp [hop])
      (by simp [hop]) hposted hflush (bankOp_stp hop hclean [])
    obtain ⟨hdat, hpres, hclaims, -⟩ := hsame.fields
    refine ⟨u, y, c, hrun, hy, hc, ?_⟩
    rw [hdat, hpres, hclaims]
    exact ⟨Bank.dat_made (by simp [hrole]) v,
      fun w hw => ⟨Bank.mem_pres_made.mpr (.inl hw), fun z hz hzw => (Bank.mem_claims_made.mp hz).2 (hzw ▸ hw)⟩,
      fun w hw => Bank.mem_pres_made.mpr (.inr hw)⟩

/-! ### The grant (R168) -/

/-- A station with an execution that it has, changed. -/
def Station.putBack (y : Station) (f : Frame) : Station := { y.takeFrame f.id with frames := insertFrame f (y.takeFrame f.id).frames }

theorem Station.frame?_putBack (y : Station) (f : Frame) : (y.putBack f).frame? f.id = some f :=
  find?_insertFrame fun g hg => by simpa [Station.takeFrame] using (List.mem_filter.mp hg).2

theorem keepsPlace_putBack (f : Frame) : KeepsPlace fun y => y.putBack f := fun _ => ⟨rfl, rfl⟩

/-- The presence write that follows a granted claim: it stands in the claim's place, after what its execution has sent. -/
def Req.presenceWrite (q : Req) (id : Nat) (h : Frame) : Req :=
  { q with id := id, op := .stp, got := [], stage := .sent, after := h.perf.map Prod.snd }

/-- The execution of a granted claim, its stores sent: it waits for the presence write. -/
def Frame.claimGranted (h : Frame) (id : Nat) : Frame := { h with stores := [], st := .parked id, atomDone := true }

theorem exec_stpClaimGrant {s : State} {r : Nat} {q : Req} {st : Station} {f h : Frame} {qs : List Req} (hq : s.req? r = some q)
    (hst : s.station? q.place = some st) (howner : q.owner = .exec h.id) (hf : st.frame? h.id = some f) (hop : q.op = .claim)
    (hstage : q.stage = .done) (hgot : q.got = [0]) (hparked : f.st = .parked r)
    (hsend : State.sendStores q.place f.stores f (s.dropReq r) = (h, (s.dropReq r).issue qs)) :
    exec (.stpClaimGrant r) s = .next ((((s.dropReq r).issue (qs ++ [q.presenceWrite (s.nextId + qs.length) h])).modStation q.place fun y =>
      y.putBack (h.claimGranted (s.nextId + qs.length))).modLay q.place.ctx q.place.slot
        Lay.progressed) := by
  have hgo : (decide (q.op = .claim) && decide (q.stage = .done) && decide (q.got = [0]) && decide (f.st = .parked r)) = true := by
    simp [hop, hstage, hgot, hparked]
  show execStpClaimGrant r s = _
  unfold execStpClaimGrant
  simp only [hq, howner, hst, hf, hgo, hsend, if_true]
  simp only [State.issue, Req.presenceWrite, howner, List.append_assoc, List.length_append]
  rfl

/-- The second part of stp (R168): a granted claim's execution sends its stores, and after them the presence write. -/
theorem stp_granted {s : State} {r n : Nat} {q : Req} {st : Station} {f : Frame} (hq : s.req? r = some q) (hst : s.station? q.place = some st)
    (howner : q.owner = .exec n) (hf : st.frame? n = some f) (hop : q.op = .claim) (hstage : q.stage = .done) (hgot : q.got = [0])
    (hparked : f.st = .parked r) :
    ∃ (u : State) (qs : List Req) (w : Req), exec (.stpClaimGrant r) s = .next u ∧ u.reqs = (s.dropReq r).reqs ++ qs ++ [w] ∧
      qs.map Req.units = f.stores.map BufStore.units ∧ (∀ z ∈ qs, z.op = .wr ∧ z.stage = .sent ∧ z.id ∈ w.after) ∧
      w.id = s.nextId + f.stores.length ∧ w.op = .stp ∧ w.stage = .sent ∧ w.units = q.units ∧
      ∃ (st' : Station) (h : Frame), u.station? q.place = some st' ∧ st'.frame? n = some h ∧ h.st = .parked w.id ∧ h.stores = [] := by
  obtain ⟨h, qs, hsend, carried, sent⟩ := sendStores_spec q.place f.stores f (s.dropReq r)
  have hlen : qs.length = f.stores.length := by simpa using congrArg List.length carried.units
  have hid : h.id = n := by
    obtain ⟨past, perf, outst, hh⟩ := sent.rest
    rw [hh, ← Station.id_of_frame? hf]
  subst hid
  let g := h.claimGranted (s.nextId + qs.length)
  refine ⟨_, qs, q.presenceWrite (s.nextId + qs.length) h, exec_stpClaimGrant hq hst howner hf hop hstage hgot hparked hsend, ?_, carried.units,
    fun z hz => ?_, congrArg (s.nextId + ·) hlen, rfl, rfl, rfl,
    st.putBack g, g, ?_, st.frame?_putBack g, rfl, rfl⟩
  · simp [State.issue, State.modStation]
  · obtain ⟨hwr, hsent, -⟩ := carried.sent z hz
    refine ⟨hwr, hsent, ?_⟩
    rw [Req.presenceWrite, sent.perf]
    exact List.mem_append_right _ (List.mem_map_of_mem hz)
  · rw [State.station?_modLay (h := Lay.progressed) fun _ => rfl]
    exact (State.station?_modStation_same (keepsPlace_putBack g) _ q.place).trans (congrArg (Option.map _) hst)

/-! ### The refusal (R203, R411) -/

section Refusal
variable {s : State} {p : Place} {x : Lay} {st : Station} {f : Frame}

/-- The state in which a fault of an execution has withdrawn its requests and returned its slots. -/
def State.released (s : State) (p : Place) (st : Station) (f : Frame) : State :=
  ((s.dropExec p f.id).modLay p.ctx p.slot fun x =>
    ((x.returnSlots p.pid p.sid (st.emitsOf f.seg)).loopLeave p.pid p.sid f.inLoop []).stir).modStation p fun y => { y with lfsr := f.lfsr }

theorem faultExec_eq (hst : s.station? p = some st) (kind detail : Nat) (indexed : Bool) :
    s.faultExec p f kind detail indexed =
      let fw := faultWord kind (if indexed then some f.ip else none) f.seg.val detail
      let z := s.released p st f
      if st.exc.isNone && !(st.frames.any Frame.isFaulted) then
        { (z.enterExc p f.orig fw (f.port.val == 5) f.why).tidyWindow p f.id with cur := .device }
      else { z with cur := .station p { f with st := .faulted fw, doneAt := z.nextId, stores := [], outst := [] }, nextId := z.nextId + 1 } := by
  unfold State.faultExec
  simp only [hst]
  rfl

@[simp] theorem State.reqs_released (s : State) (p : Place) (st : Station) (f : Frame) :
    (s.released p st f).reqs = (s.dropExec p f.id).reqs := by simp [State.released, State.modStation]

/-- The release of an execution changes no execution of its station. -/
theorem State.At.released (hat : s.At p x st) (f : Frame) :
    ∃ y st', (s.released p st f).At p y st' ∧ st'.frames = st.frames ∧ y.handler = x.handler := by
  have h0 : (s.dropExec p f.id).At p _ _ := (hat.modStation
    (g := fun y => { y with toks := y.toks.filter fun e => e.exec != f.id }) fun _ => ⟨rfl, rfl⟩).of_ctxs rfl
  obtain ⟨g, ls, hg, hrel⟩ := Lay.releaseSlots_eq _ p.pid p.sid (st.emitsOf f.seg) f.inLoop
  have h1 := h0.modLay (m := fun y => ((y.returnSlots p.pid p.sid (st.emitsOf f.seg)).loopLeave p.pid p.sid f.inLoop []).stir) hg.keepsPlace
    (congrArg (fun y : Lay => y.stir.stations) hrel)
  refine ⟨_, _, h1.modStation (g := fun y => { y with lfsr := f.lfsr }) fun _ => ⟨rfl, rfl⟩, ?_, by rw [hrel]; rfl⟩
  obtain ⟨b, hb⟩ := hg { st with toks := st.toks.filter fun e => e.exec != f.id }
  rw [hb]

theorem State.At.cur {y : Station} (h : s.At p x y) (a : Actor) : ({ s with cur := a } : State).At p x y := h.of_ctxs rfl

/-- A fault keeps the other executions of its station, and the requests that the execution does not own. -/
theorem faultExec_keeps (hat : s.At p x st) (hhandler : x.handler.isSome = true) (hport : f.port ≠ 5) (kind detail : Nat) (indexed : Bool) :
    ∃ y st', (s.faultExec p f kind detail indexed).At p y st' ∧ st'.frames = st.frames ∧
      (s.faultExec p f kind detail indexed).reqs = (s.dropExec p f.id).reqs ∧
      ((s.faultExec p f kind detail indexed).cur = .device ∨ ∃ h, (s.faultExec p f kind detail indexed).cur = .station p h) := by
  have hp : (f.port.val == 5) = false := by
    rw [beq_eq_false_iff_ne]
    exact fun h => hport (Fin.ext h)
  obtain ⟨y, st1, hrel, hframes, hkept⟩ := hat.released f
  rw [faultExec_eq hat.station, hp]
  generalize faultWord kind (if indexed then some f.ip else none) f.seg.val detail = fw
  dsimp only
  split
  · rw [State.enterExc_handler hrel.lay (hkept ▸ hhandler)]
    obtain ⟨t, ht, hend⟩ := (hrel.modStation (g := fun z => { z with exc := some ⟨f.orig, fw, locWord p.pid p.sid, false, none, false, f.why⟩ })
      fun _ => ⟨rfl, rfl⟩).tidyWindow f.id
    refine ⟨_, _, hend.cur .device, ?_, by simp [State.modStation], .inl rfl⟩
    obtain ⟨b, hb⟩ := ht { st1 with exc := some ⟨f.orig, fw, locWord p.pid p.sid, false, none, false, f.why⟩ }
    rw [hb]
    exact hframes
  · exact ⟨_, _, hrel.of_ctxs rfl, hframes, by simp, .inr ⟨_, rfl⟩⟩

/-- Settling puts the execution in hand back at its station. -/
theorem State.At.settle (hat : s.At p x st) (hcur : s.cur = .device ∨ ∃ h, s.cur = .station p h) :
    ∃ y st', s.settle.At p y st' ∧ (s.cur = .device → st' = st) := by
  obtain hcur | ⟨h, hcur⟩ := hcur
  · exact ⟨x, st, by rw [State.settle, hcur]; exact hat.of_ctxs rfl, fun _ => rfl⟩
  · have hback := hat.modStation (g := fun y => { y with frames := insertFrame h y.frames, lfsr := h.lfsr }) fun _ => ⟨rfl, rfl⟩
    exact ⟨_, _, by rw [State.settle, hcur]; exact hback.of_ctxs rfl, fun hd => by rw [hcur] at hd; cases hd⟩

@[simp] theorem State.reqs_settle (s : State) : s.settle.reqs = s.reqs := by
  unfold State.settle
  split <;> simp

/-- A request that is not there is not there once others are withdrawn. -/
theorem State.req?_withdrawReqs_none {r : Nat} (h : s.req? r = none) (mine : Req → Bool) : (s.withdrawReqs mine).req? r = none := by
  rw [State.req?, List.find?_eq_none] at h ⊢
  intro y hy
  obtain ⟨q, hq, hkept⟩ := List.mem_filterMap.mp hy
  have hid : y.id = q.id := by
    split at hkept
    · exact congrArg Req.id (Option.some.inj hkept).symm
    · split at hkept
      · rw [← Option.some.inj hkept]
      · cases hkept
  rw [hid]
  exact h q hq

theorem State.req?_dropExec_none {r : Nat} (h : s.req? r = none) (n : Nat) : (s.dropExec p n).req? r = none :=
  State.req?_withdrawReqs_none ((State.req?_congr (by simp) r).trans h) _

/-- A parked execution that is to fault leaves its station at its place, and withdraws requests alone. -/
theorem doomExec_keeps {r : Nat} (hat : s.At p x st) (hhandler : x.handler.isSome = true) (hport : f.port ≠ 5) (hgone : s.req? r = none) (kind : Nat) :
    (∃ y st', (s.doomExec p st f kind).At p y st') ∧ (s.doomExec p st f kind).req? r = none := by
  unfold State.doomExec
  split
  · have htaken := hat.modStation (keepsPlace_takeFrame f.id)
    obtain ⟨y, st', h, -, hreqs, hcur⟩ := faultExec_keeps (f := { f with lfsr := st.lfsr }) htaken hhandler hport kind 0 true
    obtain ⟨z, st'', h', -⟩ := h.settle hcur
    refine ⟨⟨z, st'', h'⟩, ?_⟩
    rw [State.req?_congr (State.reqs_settle _), State.req?_congr hreqs]
    exact State.req?_dropExec_none ((State.req?_congr (by simp [State.modStation]) r).trans hgone) _
  · exact ⟨⟨_, _, hat.modStation (keepsPlace_putBack { f with st := .doomed kind })⟩,
      (State.req?_congr (by simp [State.modStation]) r).trans hgone⟩

/-- In a free place it faults, and its record enters the empty exception register. -/
theorem doomExec_enters (hat : s.At p x st) (hhandler : x.handler.isSome = true) (hport : f.port ≠ 5)
    (hfree : st.placesUsed < placeLimit st.sid) (hexc : st.exc = none) (hfaulted : ∀ g ∈ st.frames, ∀ w, g.st ≠ .faulted w) (kind : Nat) :
    ∃ st', (s.doomExec p st f kind).station? p = some st' ∧ st'.frame? f.id = none ∧
      st'.exc = some ⟨f.orig, faultWord kind (some f.ip) f.seg.val 0, locWord p.pid p.sid, false, none, false, f.why⟩ := by
  have htaken := hat.modStation (keepsPlace_takeFrame f.id)
  obtain ⟨y, st', h, hframes, -, hcur⟩ := faultExec_keeps (f := { f with lfsr := st.lfsr }) htaken hhandler hport kind 0 true
  obtain ⟨_, st1, rfl, hdevice, -, hst1, hexc1, -⟩ := faultExec_spec (f := { f with lfsr := st.lfsr }) htaken.lay hhandler htaken.station hexc
    (fun g hg => hfaulted g (List.mem_filter.mp hg).1) hport kind 0 true
  obtain rfl : st' = st1 := Option.some.inj (h.station.symm.trans hst1)
  obtain ⟨z, st2, h', hsame⟩ := h.settle hcur
  obtain rfl := hsame hdevice
  refine ⟨st2, ?_, ?_, hexc1⟩
  · rw [State.doomExec, if_pos hfree]
    exact h'.station
  · rw [Station.frame?, hframes]
    exact frame?_takeFrame st f.id

/-- Without a free place it waits, to fault later. -/
theorem doomExec_waits (hat : s.At p x st) (hfull : placeLimit st.sid ≤ st.placesUsed) (kind : Nat) :
    ∃ st', (s.doomExec p st f kind).station? p = some st' ∧ st'.frame? f.id = some { f with st := .doomed kind } ∧ st'.exc = st.exc := by
  refine ⟨_, ?_, st.frame?_putBack { f with st := .doomed kind }, rfl⟩
  rw [State.doomExec, if_neg (Nat.not_lt.mpr hfull)]
  exact (hat.modStation (keepsPlace_putBack { f with st := .doomed kind })).station

end Refusal

/-- The fault word of a fault at an instruction, without a detail (R413). -/
theorem faultWord_indexed (kind ip seg : Nat) :
    faultWord kind (some ip) seg 0 = BitVec.ofNat 32 (kind + 2 ^ 8 * (ip % 16) + 2 ^ 12 + 2 ^ 13 * seg) := by
  simp only [faultWord, Nat.mul_zero, Nat.add_zero, ← Nat.add_assoc]

theorem exec_replyArrival_refused {s : State} {r n : Nat} {q : Req} {st : Station} {f : Frame} (l : LinkReply) (hq : s.req? r = some q)
    (hst : s.station? q.place = some st) (howner : q.owner = .exec n) (hf : st.frame? n = some f) (hop : q.op = .claim)
    (hstage : q.stage = .done) (hgot : q.got = [1]) (hparked : f.st = .parked r) :
    exec (.replyArrival r l) s = .next ((((s.modLay q.place.ctx q.place.slot Lay.stir).dropReq r).doomExec q.place st f 8).modLay
      q.place.ctx q.place.slot Lay.progressed) := by
  have hhere : (s.modLay q.place.ctx q.place.slot Lay.stir).station? q.place = some st := by rw [State.station?_modLay (h := Lay.stir) fun _ => rfl, hst]
  have hid := id_of_req? hq
  have hdeliver : exec (.replyArrival r l) s = .next (s.deliver q) := by
    show execReplyArrival r l s = _
    unfold execReplyArrival
    simp only [hq, hstage]
  rw [hdeliver, State.deliver]
  simp only [howner, hhere, hf, hid, hparked, if_true, State.resumeExec, hop, hgot]

/-- The third part of stp (R168, R203, R411): a refused claim's execution faults with kind 8, once a place is free. -/
theorem stp_refused {s : State} {r n : Nat} {q : Req} {x : Lay} {st : Station} {f : Frame} (l : LinkReply) (hq : s.req? r = some q)
    (hx : s.lay? q.place.ctx q.place.slot = some x) (hhandler : x.handler.isSome = true) (hst : s.station? q.place = some st)
    (howner : q.owner = .exec n) (hf : st.frame? n = some f) (hop : q.op = .claim) (hstage : q.stage = .done) (hgot : q.got = [1])
    (hparked : f.st = .parked r) (hport : f.port ≠ 5) :
    ∃ u st', exec (.replyArrival r l) s = .next u ∧ u.req? r = none ∧ u.station? q.place = some st' ∧
      let fw : Word := BitVec.ofNat 32 (8 + 2 ^ 8 * (f.ip % 16) + 2 ^ 12 + 2 ^ 13 * f.seg.val)
      (st.placesUsed < placeLimit st.sid → st.exc = none → (∀ g ∈ st.frames, ∀ w, g.st ≠ .faulted w) → st'.frame? n = none ∧
        st'.exc = some ⟨f.orig, fw, BitVec.ofNat 32 (q.place.pid.val + 2 ^ 6 * q.place.sid.toNat), false, none, false, f.why⟩) ∧
      (placeLimit st.sid ≤ st.placesUsed → st'.exc = st.exc ∧ st'.frame? n = some { f with st := .doomed 8 }) := by
  obtain rfl := Station.id_of_frame? hf
  have hat : ((s.modLay q.place.ctx q.place.slot Lay.stir).dropReq r).At q.place x.stir st :=
    ((State.At.of_station hx hst).modLay_keep rfl).of_ctxs rfl
  obtain ⟨⟨y, st', hend⟩, hgone⟩ := doomExec_keeps (r := r) hat hhandler hport (State.req?_dropReq _ r) 8
  refine ⟨_, st', exec_replyArrival_refused l hq hst howner hf hop hstage hgot hparked, (State.req?_congr (State.modLay_reqs ..) r).trans hgone,
    (State.station?_modLay (h := Lay.progressed) (fun _ => rfl) ..).trans hend.station, fun hfree hexc hfaulted => ?_, fun hfull => ?_⟩
  · obtain ⟨st1, hst1, hframe, hexc1⟩ := doomExec_enters hat hhandler hport hfree hexc hfaulted 8
    obtain rfl := Option.some.inj (hend.station.symm.trans hst1)
    rw [faultWord_indexed] at hexc1
    exact ⟨hframe, hexc1⟩
  · obtain ⟨st1, hst1, hframe, hexc1⟩ := doomExec_waits (f := f) hat hfull 8
    obtain rfl := Option.some.inj (hend.station.symm.trans hst1)
    exact ⟨hexc1, hframe⟩

/-- stp's claim, its grant, its presence write and its refusal (R168). -/
theorem presenceStore : Claims.PresenceStore :=
  ⟨fun _ _ _ _ _ _ _ hq hunits hnode hx hb hstage helig hafter hclean hrole hflaws _ =>
      stp_at_bank hq hunits hnode hx hb hstage helig hafter hclean hrole hflaws,
    fun _ _ _ _ _ _ hq hst howner hf hop hstage hgot hparked => stp_granted hq hst howner hf hop hstage hgot hparked,
    fun _ _ _ _ l _ _ _ hq hx hhandler hst howner hf hop hstage hgot hparked hport =>
      stp_refused l hq hx hhandler hst howner hf hop hstage hgot hparked hport⟩

/-- Settles O32: each event of a bank is the change of its window and of its words that the operation names, and a presence
store is a claim there, a grant or a refusal, and a write. -/
theorem banksPerform : Obligations.BanksPerform := ⟨bankEvents, presenceStore⟩

end Sys2Proof.Machine
end
